-- ==== Sys2Proof/Word.lean ====
section
/-!
DEFINITION. Sys2Proof/Word.lean: the word types of the Kelhorn and finite tables keyed by numbers.
-/

namespace Sys2Proof

/-- A byte of storage. -/
abbrev Byte := BitVec 8
/-- A halfword. -/
abbrev Half := BitVec 16
/-- A 32-bit word: an f register, a lane, an element of LM. -/
abbrev Word := BitVec 32
/-- A doubleword: a g register. -/
abbrev Dword := BitVec 64
/-- A 48-bit virtual address. -/
abbrev Addr := BitVec 48

/-- A finite map from keys to values, as a list of pairs: what `Machine/Table.lean` puts and finds. -/
abbrev Table (α : Type) := List (Nat × α)

end Sys2Proof
end

