-- ==== Sys2Proof/Syntax.lean ====
section
/-!
DEFINITION. Sys2Proof/Syntax.lean: the instructions and device steps of the Kelhorn MZK-1024.
One constructor per row of spec/opcode_table.json, in the table's order. A row with an encoding has the table's
fields as its operands, at the table's widths (R48 to R51). A row without an encoding is a step of the device (a message
arriving, a ring command, a coherence step, a management step): its operands say which packet, tile, core, slot or datum
it acts on.
-/

namespace Sys2Proof

/-- Every row of the opcode table. Field letters are the table's: `d`, `a`, `b`, `c` registers, `g` the guard (R10), `m`
the mask guard of a vector instruction (R155), `i`, `o`, `s`, `t`, … as the row's rule says. In a device step `p` is the
packet's number in `State.net`, `slot`, `core` and `tile` are the keys of `Machine/State.lean`, and `m a d g` are the
form (0 CSRR, 1 CSRW, 2 CSRX) and the fields of the CSR instruction that the step is part of. -/
inductive Instr where
  /-- R71. Writes the sum of ga and gb to gd; bit w selects the 32-bit .W form. -/
  | add (w : BitVec 1) (b a d : BitVec 5) (g : BitVec 4)
  /-- R71. Writes ga minus gb to gd; bit w selects the .W form. -/
  | sub (w : BitVec 1) (b a d : BitVec 5) (g : BitVec 4)
  /-- R71. Writes the low half of the product of ga and gb to gd. -/
  | mul (w : BitVec 1) (b a d : BitVec 5) (g : BitVec 4)
  /-- R71. Writes the high half of the signed product to gd. -/
  | mulh (w : BitVec 1) (b a d : BitVec 5) (g : BitVec 4)
  /-- R71. Writes the high half of the unsigned product to gd. -/
  | mulhn (w : BitVec 1) (b a d : BitVec 5) (g : BitVec 4)
  /-- R72. Writes the signed quotient to gd; a zero divisor gives all ones or DIVZ when TCTL.DZ is set. -/
  | div (w : BitVec 1) (b a d : BitVec 5) (g : BitVec 4)
  /-- R72. Writes the unsigned quotient to gd. -/
  | divn (w : BitVec 1) (b a d : BitVec 5) (g : BitVec 4)
  /-- R72. Writes the signed remainder to gd. -/
  | rem (w : BitVec 1) (b a d : BitVec 5) (g : BitVec 4)
  /-- R72. Writes the unsigned remainder to gd. -/
  | remn (w : BitVec 1) (b a d : BitVec 5) (g : BitVec 4)
  /-- R71. Writes ga AND gb to gd. -/
  | and (b a d : BitVec 5) (g : BitVec 4)
  /-- R71. Writes ga OR gb to gd. -/
  | or (b a d : BitVec 5) (g : BitVec 4)
  /-- R71. Writes ga XOR gb to gd. -/
  | xor (b a d : BitVec 5) (g : BitVec 4)
  /-- R71. Writes ga AND NOT gb to gd. -/
  | andn (b a d : BitVec 5) (g : BitVec 4)
  /-- R71. Shifts ga left by the low bits of gb. -/
  | shl (w : BitVec 1) (b a d : BitVec 5) (g : BitVec 4)
  /-- R71. Shifts ga right logically by the low bits of gb. -/
  | shr (w : BitVec 1) (b a d : BitVec 5) (g : BitVec 4)
  /-- R71. Shifts ga right arithmetically by the low bits of gb. -/
  | sra (w : BitVec 1) (b a d : BitVec 5) (g : BitVec 4)
  /-- R71. Rotates ga right by the low bits of gb. -/
  | rot (w : BitVec 1) (b a d : BitVec 5) (g : BitVec 4)
  /-- R71. Writes the signed minimum of ga and gb. -/
  | min (b a d : BitVec 5) (g : BitVec 4)
  /-- R71. Writes the signed maximum of ga and gb. -/
  | max (b a d : BitVec 5) (g : BitVec 4)
  /-- R71. Writes the unsigned minimum of ga and gb. -/
  | minn (b a d : BitVec 5) (g : BitVec 4)
  /-- R71. Writes the unsigned maximum of ga and gb. -/
  | maxn (b a d : BitVec 5) (g : BitVec 4)
  /-- R73. Writes ga or gb to gd according to the predicate selector in the guard field; never guarded off. -/
  | sel (b a d : BitVec 5) (s : BitVec 4)
  /-- R74. Adds a sign-extended 11-bit immediate to ga. -/
  | addi (i : BitVec 11) (a d : BitVec 5) (g : BitVec 4)
  /-- R74. ANDs ga with a sign-extended immediate. -/
  | andi (i : BitVec 11) (a d : BitVec 5) (g : BitVec 4)
  /-- R74. ORs ga with a sign-extended immediate. -/
  | ori (i : BitVec 11) (a d : BitVec 5) (g : BitVec 4)
  /-- R74. XORs ga with a sign-extended immediate. -/
  | xori (i : BitVec 11) (a d : BitVec 5) (g : BitVec 4)
  /-- R75. Shifts ga left by an immediate amount; bit w selects .W. -/
  | shli (w : BitVec 1) (s : BitVec 6) (a d : BitVec 5) (g : BitVec 4)
  /-- R75. Shifts ga right logically by an immediate amount. -/
  | shri (w : BitVec 1) (s : BitVec 6) (a d : BitVec 5) (g : BitVec 4)
  /-- R75. Shifts ga right arithmetically by an immediate amount. -/
  | srai (w : BitVec 1) (s : BitVec 6) (a d : BitVec 5) (g : BitVec 4)
  /-- R75. Rotates ga right by an immediate amount. -/
  | roti (w : BitVec 1) (s : BitVec 6) (a d : BitVec 5) (g : BitVec 4)
  /-- R76. Writes a sign-extended 16-bit immediate to gd. -/
  | movi (i : BitVec 16) (d : BitVec 5) (g : BitVec 4)
  /-- R76. Shifts gd up 16 bits and inserts a 16-bit immediate. -/
  | movs (i : BitVec 16) (d : BitVec 5) (g : BitVec 4)
  /-- R77. Writes the signed absolute value of ga. -/
  | abs (a d : BitVec 5) (g : BitVec 4)
  /-- R77. Writes 0 minus ga. -/
  | neg (a d : BitVec 5) (g : BitVec 4)
  /-- R77. Writes the complement of ga. -/
  | not (a d : BitVec 5) (g : BitVec 4)
  /-- R77. Counts leading zero bits of ga. -/
  | clz (a d : BitVec 5) (g : BitVec 4)
  /-- R77. Counts trailing zero bits of ga. -/
  | ctz (a d : BitVec 5) (g : BitVec 4)
  /-- R77. Counts one bits of ga. -/
  | popc (a d : BitVec 5) (g : BitVec 4)
  /-- R77. Sign-extends the low byte of ga. -/
  | sxb (a d : BitVec 5) (g : BitVec 4)
  /-- R77. Sign-extends the low halfword of ga. -/
  | sxh (a d : BitVec 5) (g : BitVec 4)
  /-- R77. Sign-extends the low word of ga. -/
  | sxw (a d : BitVec 5) (g : BitVec 4)
  /-- R77. Zero-extends the low byte of ga. -/
  | zxb (a d : BitVec 5) (g : BitVec 4)
  /-- R77. Zero-extends the low halfword of ga. -/
  | zxh (a d : BitVec 5) (g : BitVec 4)
  /-- R77. Zero-extends the low word of ga. -/
  | zxw (a d : BitVec 5) (g : BitVec 4)
  /-- R77. Reverses the bytes of ga. -/
  | bswap (a d : BitVec 5) (g : BitVec 4)
  /-- R78. Extracts a zero-extended bitfield of ga. -/
  | bfx (l : BitVec 5) (p : BitVec 6) (a d : BitVec 5) (g : BitVec 4)
  /-- R78. Inserts the low bits of ga into a bitfield of gd. -/
  | bfi (l : BitVec 5) (p : BitVec 6) (a d : BitVec 5) (g : BitVec 4)
  /-- R79. Sets, ANDs or ORs pd with ga = gb. -/
  | cmpEq (w : BitVec 1) (b a : BitVec 5) (o : BitVec 2) (d : BitVec 3) (g : BitVec 4)
  /-- R79. Combines pd with ga ≠ gb. -/
  | cmpNe (w : BitVec 1) (b a : BitVec 5) (o : BitVec 2) (d : BitVec 3) (g : BitVec 4)
  /-- R79. Combines pd with signed ga < gb. -/
  | cmpLt (w : BitVec 1) (b a : BitVec 5) (o : BitVec 2) (d : BitVec 3) (g : BitVec 4)
  /-- R79. Combines pd with signed ga ≤ gb. -/
  | cmpLe (w : BitVec 1) (b a : BitVec 5) (o : BitVec 2) (d : BitVec 3) (g : BitVec 4)
  /-- R79. Combines pd with signed ga > gb. -/
  | cmpGt (w : BitVec 1) (b a : BitVec 5) (o : BitVec 2) (d : BitVec 3) (g : BitVec 4)
  /-- R79. Combines pd with signed ga ≥ gb. -/
  | cmpGe (w : BitVec 1) (b a : BitVec 5) (o : BitVec 2) (d : BitVec 3) (g : BitVec 4)
  /-- R79. Combines pd with unsigned ga < gb. -/
  | cmpLtn (w : BitVec 1) (b a : BitVec 5) (o : BitVec 2) (d : BitVec 3) (g : BitVec 4)
  /-- R79. Combines pd with unsigned ga ≤ gb. -/
  | cmpLen (w : BitVec 1) (b a : BitVec 5) (o : BitVec 2) (d : BitVec 3) (g : BitVec 4)
  /-- R79. Combines pd with unsigned ga > gb. -/
  | cmpGtn (w : BitVec 1) (b a : BitVec 5) (o : BitVec 2) (d : BitVec 3) (g : BitVec 4)
  /-- R79. Combines pd with unsigned ga ≥ gb. -/
  | cmpGen (w : BitVec 1) (b a : BitVec 5) (o : BitVec 2) (d : BitVec 3) (g : BitVec 4)
  /-- R79. Combines pd with ga = a sign-extended imm5. -/
  | cmpiEq (w : BitVec 1) (i a : BitVec 5) (o : BitVec 2) (d : BitVec 3) (g : BitVec 4)
  /-- R79. Combines pd with ga ≠ imm5. -/
  | cmpiNe (w : BitVec 1) (i a : BitVec 5) (o : BitVec 2) (d : BitVec 3) (g : BitVec 4)
  /-- R79. Combines pd with signed ga < imm5. -/
  | cmpiLt (w : BitVec 1) (i a : BitVec 5) (o : BitVec 2) (d : BitVec 3) (g : BitVec 4)
  /-- R79. Combines pd with signed ga ≤ imm5. -/
  | cmpiLe (w : BitVec 1) (i a : BitVec 5) (o : BitVec 2) (d : BitVec 3) (g : BitVec 4)
  /-- R79. Combines pd with signed ga > imm5. -/
  | cmpiGt (w : BitVec 1) (i a : BitVec 5) (o : BitVec 2) (d : BitVec 3) (g : BitVec 4)
  /-- R79. Combines pd with signed ga ≥ imm5. -/
  | cmpiGe (w : BitVec 1) (i a : BitVec 5) (o : BitVec 2) (d : BitVec 3) (g : BitVec 4)
  /-- R79. Combines pd with unsigned ga < zero-extended imm5. -/
  | cmpiLtn (w : BitVec 1) (i a : BitVec 5) (o : BitVec 2) (d : BitVec 3) (g : BitVec 4)
  /-- R79. Combines pd with unsigned ga ≤ imm5. -/
  | cmpiLen (w : BitVec 1) (i a : BitVec 5) (o : BitVec 2) (d : BitVec 3) (g : BitVec 4)
  /-- R79. Combines pd with unsigned ga > imm5. -/
  | cmpiGtn (w : BitVec 1) (i a : BitVec 5) (o : BitVec 2) (d : BitVec 3) (g : BitVec 4)
  /-- R79. Combines pd with unsigned ga ≥ imm5. -/
  | cmpiGen (w : BitVec 1) (i a : BitVec 5) (o : BitVec 2) (d : BitVec 3) (g : BitVec 4)
  /-- R80. pd := pa and pb. -/
  | pand (b a d : BitVec 3) (g : BitVec 4)
  /-- R80. pd := pa or pb. -/
  | por (b a d : BitVec 3) (g : BitVec 4)
  /-- R80. pd := pa xor pb. -/
  | pxor (b a d : BitVec 3) (g : BitVec 4)
  /-- R80. pd := pa and not pb. -/
  | pandn (b a d : BitVec 3) (g : BitVec 4)
  /-- R80. pd := not pa. -/
  | pnot (a d : BitVec 3) (g : BitVec 4)
  /-- R80. pd := pa. -/
  | pmov (a d : BitVec 3) (g : BitVec 4)
  /-- R80. Packs p7–p0 into the low byte of gd. -/
  | ppack (d : BitVec 5) (g : BitVec 4)
  /-- R80. Sets p1–p7 from bits 1–7 of ga. -/
  | punpk (a : BitVec 5) (g : BitVec 4)
  /-- R81. Writes ga plus the shifted index gb; .W sign-extends a 32-bit index. -/
  | lea (w : BitVec 1) (s : BitVec 2) (b a d : BitVec 5) (g : BitVec 4)
  /-- R94. F32 sum of fa and fb, rounded RNE, raising conditions. -/
  | fadd (b a d : BitVec 5) (g : BitVec 4)
  /-- R94. F32 difference of fa and fb. -/
  | fsub (b a d : BitVec 5) (g : BitVec 4)
  /-- R94. F32 product of fa and fb. -/
  | fmul (b a d : BitVec 5) (g : BitVec 4)
  /-- R94. F32 quotient of fa by fb. -/
  | fdiv (b a d : BitVec 5) (g : BitVec 4)
  /-- R94. F32 square root of fa. -/
  | fsqrt (a d : BitVec 5) (g : BitVec 4)
  /-- R96. F32 minimum with −0 below +0 and NaN handling. -/
  | fmin (b a d : BitVec 5) (g : BitVec 4)
  /-- R96. F32 maximum with −0 below +0 and NaN handling. -/
  | fmax (b a d : BitVec 5) (g : BitVec 4)
  /-- R94. Clears the sign of fa; a NaN gives the canonical NaN. -/
  | fabs (a d : BitVec 5) (g : BitVec 4)
  /-- R94. Inverts the sign of fa; a NaN gives the canonical NaN. -/
  | fneg (a d : BitVec 5) (g : BitVec 4)
  /-- R94. Copies fa to fd bit for bit. -/
  | fmov (a d : BitVec 5) (g : BitVec 4)
  /-- R97. Writes a one-hot class mask of fa to gd. -/
  | fclass (a d : BitVec 5) (g : BitVec 4)
  /-- R94. Copies fa zero-extended to gd. -/
  | fmvg (a d : BitVec 5) (g : BitVec 4)
  /-- R94. Copies the low word of ga to fd. -/
  | fmvf (a d : BitVec 5) (g : BitVec 4)
  /-- R98. fa × fb + fc with one rounding. -/
  | fma (c b a d : BitVec 5) (g : BitVec 4)
  /-- R98. fa × fb − fc with one rounding. -/
  | fms (c b a d : BitVec 5) (g : BitVec 4)
  /-- R98. −(fa × fb + fc) with one rounding. -/
  | fnma (c b a d : BitVec 5) (g : BitVec 4)
  /-- R98. −(fa × fb − fc) with one rounding. -/
  | fnms (c b a d : BitVec 5) (g : BitVec 4)
  /-- R99. Converts one value between floating and integer formats under a rounding mode, without saturation into floating formats. -/
  | fcvt (s t : BitVec 3) (r a d : BitVec 5) (g : BitVec 4)
  /-- R101. Rounds an F32 value to B16, F16 or FN with stochastic rounding of k fresh random bits. -/
  | frnd (t : BitVec 2) (k : BitVec 4) (a d : BitVec 5) (g : BitVec 4)
  /-- R102. Combines pd with fa = fb. -/
  | fcmpEq (b a : BitVec 5) (o : BitVec 2) (d : BitVec 3) (g : BitVec 4)
  /-- R102. Combines pd with fa ≠ fb. -/
  | fcmpNe (b a : BitVec 5) (o : BitVec 2) (d : BitVec 3) (g : BitVec 4)
  /-- R102. Combines pd with fa < fb; a NaN raises invalid. -/
  | fcmpLt (b a : BitVec 5) (o : BitVec 2) (d : BitVec 3) (g : BitVec 4)
  /-- R102. Combines pd with fa ≤ fb; a NaN raises invalid. -/
  | fcmpLe (b a : BitVec 5) (o : BitVec 2) (d : BitVec 3) (g : BitVec 4)
  /-- R102. Combines pd with either operand being a NaN. -/
  | fcmpUn (b a : BitVec 5) (o : BitVec 2) (d : BitVec 3) (g : BitVec 4)
  /-- R102. Combines pd with neither operand being a NaN. -/
  | fcmpOrd (b a : BitVec 5) (o : BitVec 2) (d : BitVec 3) (g : BitVec 4)
  /-- R82. Loads a zero-extended element of the given size, kind and scope into gd. -/
  | ld (o : BitVec 5) (p k s : BitVec 2) (a d : BitVec 5) (g : BitVec 4)
  /-- R82. Stores the low bytes of gd with the given size, kind and scope. -/
  | st (o : BitVec 5) (p k s : BitVec 2) (a d : BitVec 5) (g : BitVec 4)
  /-- R226. Waits until the placed word is full, loads it and acquires, leaving it full. -/
  | ldf (o : BitVec 5) (p : BitVec 2) (s : BitVec 1) (a d : BitVec 5) (g : BitVec 4)
  /-- R226. Waits until the placed word is full, loads it, sets it empty and acquires. -/
  | ldfE (o : BitVec 5) (p : BitVec 2) (s : BitVec 1) (a d : BitVec 5) (g : BitVec 4)
  /-- R228. Releases and then sets the full bit of a placed word. -/
  | setf (a : BitVec 5) (g : BitVec 4)
  /-- R228. Clears the full bit of a placed word. -/
  | sete (a : BitVec 5) (g : BitVec 4)
  /-- R228. Writes 1 to gd if the placed word is full. -/
  | testf (a d : BitVec 5) (g : BitVec 4)
  /-- R220. Atomic wrapping add at the word's home; p posts, s selects doubleword. -/
  | amoAdd (p s : BitVec 1) (b a d : BitVec 5) (g : BitVec 4)
  /-- R220. Atomic AND at the home. -/
  | amoAnd (p s : BitVec 1) (b a d : BitVec 5) (g : BitVec 4)
  /-- R220. Atomic OR at the home. -/
  | amoOr (p s : BitVec 1) (b a d : BitVec 5) (g : BitVec 4)
  /-- R220. Atomic XOR at the home. -/
  | amoXor (p s : BitVec 1) (b a d : BitVec 5) (g : BitVec 4)
  /-- R220. Atomic signed minimum at the home. -/
  | amoMin (p s : BitVec 1) (b a d : BitVec 5) (g : BitVec 4)
  /-- R220. Atomic signed maximum at the home. -/
  | amoMax (p s : BitVec 1) (b a d : BitVec 5) (g : BitVec 4)
  /-- R220. Atomic unsigned minimum at the home. -/
  | amoMinn (p s : BitVec 1) (b a d : BitVec 5) (g : BitVec 4)
  /-- R220. Atomic unsigned maximum at the home. -/
  | amoMaxn (p s : BitVec 1) (b a d : BitVec 5) (g : BitVec 4)
  /-- R220. Atomic exchange at the home. -/
  | amoXchg (p s : BitVec 1) (b a d : BitVec 5) (g : BitVec 4)
  /-- R220. Atomic F32 add rounded RNE at the home, word only. -/
  | amoFadd (p : BitVec 1) (b a d : BitVec 5) (g : BitVec 4)
  /-- R220. Atomic F32 minimum under R96 at the home. -/
  | amoFmin (p : BitVec 1) (b a d : BitVec 5) (g : BitVec 4)
  /-- R220. Atomic F32 maximum under R96 at the home. -/
  | amoFmax (p : BitVec 1) (b a d : BitVec 5) (g : BitVec 4)
  /-- R223. Compares the word at ga with gd and stores gb if equal, returning the old value. -/
  | cas (s : BitVec 1) (b a d : BitVec 5) (g : BitVec 4)
  /-- R244. Loads an element of a volume cell named by coordinates, or the background. -/
  | ldc (i : BitVec 4) (s : BitVec 2) (b a d : BitVec 5) (g : BitVec 4)
  /-- R244. Stores an element of a volume cell, allocating its tile if needed. -/
  | stc (i : BitVec 4) (s : BitVec 2) (b a d : BitVec 5) (g : BitVec 4)
  /-- R244. Atomic wrapping add on a word of a volume cell. -/
  | amocAdd (w : BitVec 3) (b a d : BitVec 5) (g : BitVec 4)
  /-- R244. Atomic F32 add on a word of a volume cell. -/
  | amocFadd (w : BitVec 3) (b a d : BitVec 5) (g : BitVec 4)
  /-- R244. Atomic signed I32 minimum on a cell word. -/
  | amocMin (w : BitVec 3) (b a d : BitVec 5) (g : BitVec 4)
  /-- R244. Atomic signed I32 maximum on a cell word. -/
  | amocMax (w : BitVec 3) (b a d : BitVec 5) (g : BitVec 4)
  /-- R244. Atomic F32 maximum on a cell word. -/
  | amocFmax (w : BitVec 3) (b a d : BitVec 5) (g : BitVec 4)
  /-- R244. Atomic exchange on a cell word. -/
  | amocXchg (w : BitVec 3) (b a d : BitVec 5) (g : BitVec 4)
  /-- R230. Acquire at the given scope, sweeping unregistered L1 words. -/
  | fenceA (s : BitVec 2) (g : BitVec 4)
  /-- R230. Release at the given scope, waiting for registrations and posted atomics. -/
  | fenceL (s : BitVec 2) (g : BitVec 4)
  /-- R230. Release then acquire at the given scope. -/
  | fenceAl (s : BitVec 2) (g : BitVec 4)
  /-- R231. Acquire confined to a byte range, dropping its unregistered L1 words. -/
  | invr (b a : BitVec 5) (g : BitVec 4)
  /-- R231. Release confined to a byte range, recording a publication point. -/
  | pubr (b a : BitVec 5) (g : BitVec 4)
  /-- R147. Waits for own LM stores and engine commands and empties the fetch buffer. -/
  | isync (g : BitVec 4)
  /-- R232. Requests the row line of an address into L1 as a weak fill. -/
  | pref (a : BitVec 5) (g : BitVec 4)
  /-- R233. Drops the core's CLB entries of a volume, or all entries. -/
  | clbinv (a : BitVec 5) (g : BitVec 4)
  /-- R85. Branches by a signed halfword displacement. -/
  | br (d : BitVec 21) (g : BitVec 4)
  /-- R85. Writes the link to g1 and branches by a displacement. -/
  | jal (d : BitVec 21) (g : BitVec 4)
  /-- R86. Jumps to ga plus an offset, writing the link to gd. -/
  | jalr (i : BitVec 11) (a d : BitVec 5) (g : BitVec 4)
  /-- R88. Starts the hardware loop with the count in gc and the body length given. -/
  | loop (i : BitVec 11) (a : BitVec 5) (g : BitVec 4)
  /-- R130. Builds a header from the destination register and word, and sends the payload once a credit is held. -/
  | send (c : BitVec 8) (r : BitVec 1) (n : BitVec 2) (b a : BitVec 5) (g : BitVec 4)
  /-- R130. Sends the payload with the whole header taken from ga. -/
  | sendx (n : BitVec 2) (b a : BitVec 5) (g : BitVec 4)
  /-- R137. Creates a task in a spawn queue, locally or remotely, or runs the inline fallback. -/
  | spawn (b a d : BitVec 5) (g : BitVec 4)
  /-- R134. Installs a task record at an LM offset unless it is armed. -/
  | trec (b a d : BitVec 5) (g : BitVec 4)
  /-- R135. Sends a decrement to a named record once tracked engine writes are complete. -/
  | dec (a : BitVec 5) (g : BitVec 4)
  /-- R135. Releases at the record tile's scope and then sends a decrement. -/
  | decL (a : BitVec 5) (g : BitVec 4)
  /-- R136. Sets a record's reload and re-arms a spent record. -/
  | tarm (b a : BitVec 5) (g : BitVec 4)
  /-- R139. Ends the task with a release at fabric scope, or returns from an inline fallback. -/
  | tend (g : BitVec 4)
  /-- R140. Sends a key to the election home and waits for 1 or 0. -/
  | elect (a d : BitVec 5) (g : BitVec 4)
  /-- R141. Returns task origin data or a core counter chosen by ga. -/
  | tinfo (a d : BitVec 5) (g : BitVec 4)
  /-- R142. Reads and checks a phase header and sends a declaration to each listed tile. -/
  | phdecl (a : BitVec 5) (g : BitVec 4)
  /-- R143. Reads the executing tile's state for a phase slot. -/
  | phstat (a d : BitVec 5) (g : BitVec 4)
  /-- R144. Cancels one launch of the context on every tile that holds it. -/
  | cancelLaunch (a : BitVec 5) (g : BitVec 4)
  /-- R144. Cancels a graph of launches. -/
  | cancelGraph (a : BitVec 5) (g : BitVec 4)
  /-- R144. Cancels the work of a phase slot. -/
  | cancelPhase (a : BitVec 5) (g : BitVec 4)
  /-- R144. Cancels a whole job. -/
  | cancelJob (a : BitVec 5) (g : BitVec 4)
  /-- R279. Returns a queue's entry count and closed flag without popping. -/
  | qtest (q : BitVec 3) (d : BitVec 5) (g : BitVec 4)
  /-- R279. Releases at T and sets a queue's closed flag. -/
  | qclose (q : BitVec 3) (g : BitVec 4)
  /-- R280. Binds a g register to a queue, or unbinds it. -/
  | qbind (b : BitVec 5) (q : BitVec 3) (g : BitVec 4)
  /-- R251. Waits for a semaphore to be nonzero, decrements it and acquires at T. -/
  | semp (s g : BitVec 4)
  /-- R251. A waiting SEMP is served by an increment in order of arrival. -/
  | sempServe (tile : Nat) (sem : BitVec 4)
  /-- R251. Releases at T after earlier stores and commands and increments a semaphore. -/
  | semv (s g : BitVec 4)
  /-- R148. Waits for no running stream, takes a ring entry and starts the vector stream. -/
  | vgo (a : BitVec 5) (g : BitVec 4)
  /-- R269. Loads a tensor-map register from memory and marks it valid. -/
  | tmset (a : BitVec 5) (t g : BitVec 4)
  /-- R269. Stores a tensor-map register to memory. -/
  | tmget (a : BitVec 5) (t g : BitVec 4)
  /-- R269. Adds an element count to a map's BASE. -/
  | tmofs (a : BitVec 5) (t g : BitVec 4)
  /-- R270. Dray command copying and converting one tensor into another. -/
  | copy (q : BitVec 3) (a d g : BitVec 4)
  /-- R272. Dray command gathering indexed rows into a dense destination. -/
  | gath (q : BitVec 3) (b a d g : BitVec 4)
  /-- R273. Dray command storing rows into indexed target rows. -/
  | scat (q : BitVec 3) (b a d g : BitVec 4)
  /-- R273. Dray command adding rows into indexed target rows. -/
  | scatAdd (q : BitVec 3) (b a d g : BitVec 4)
  /-- R323. Dray command adding pair rows into galley cells in arrival order. -/
  | kagg (q : BitVec 3) (b a d g : BitVec 4)
  /-- R324. Dray command staging pair rows for ordered application at their owners. -/
  | kaggO (q : BitVec 3) (b a d g : BitVec 4)
  /-- R325. Dray command reading stripe-0 pairs of galley keys into a dense map. -/
  | kbcast (q : BitVec 3) (b a d g : BitVec 4)
  /-- R329. Dray command merging two sorted key runs into index pairs. -/
  | kisect (q : BitVec 3) (b a d g : BitVec 4)
  /-- R326. Dray command folding hot-key stripes into stripe 0. -/
  | kfold (q : BitVec 3) (b d g : BitVec 4)
  /-- R328. Dray command advancing EPOCH and draining a galley's change ring. -/
  | kdirty (q : BitVec 3) (a d g : BitVec 4)
  /-- R276. Setter command converting a tensor under a mode, optionally with the threshold. -/
  | convt (h : BitVec 1) (m q : BitVec 3) (a d g : BitVec 4)
  /-- R277. Setter command pruning groups to 2-in-4 or 4-in-8 and writing metadata. -/
  | compress (p : BitVec 1) (q : BitVec 3) (b a d g : BitVec 4)
  /-- R297. Press command multiplying A by B into an accumulator. -/
  | mma (u k j : BitVec 1) (z : BitVec 2) (q : BitVec 3) (b a g : BitVec 4)
  /-- R297. Press command multiplying sparse A, with metadata, by B into an accumulator. -/
  | mmas (u k j : BitVec 1) (z : BitVec 2) (q : BitVec 3) (b a d g : BitVec 4)
  /-- R298. Sets an accumulator to +0 and takes ownership. -/
  | mzero (z : BitVec 2) (q : BitVec 3) (g : BitVec 4)
  /-- R299. Loads an accumulator from memory. -/
  | mldacc (z : BitVec 2) (q : BitVec 3) (a g : BitVec 4)
  /-- R299. Stores an accumulator to memory under the transfer rule. -/
  | mstacc (z : BitVec 2) (q : BitVec 3) (d g : BitVec 4)
  /-- R278. Adds two block-scaled tensors and requantises the sum. -/
  | bfpa (q : BitVec 3) (b a d g : BitVec 4)
  /-- R184. Changes the roles of the tile's vault ways after draining their users. -/
  | resize (a : BitVec 5) (g : BitVec 4)
  /-- R246. Makes a volume descriptor live with a zeroed root node. -/
  | volalloc (a d : BitVec 5) (g : BitVec 4)
  /-- R248. Frees one tile or the whole volume after shooting down CLB entries. -/
  | volfree (b a : BitVec 5) (g : BitVec 4)
  /-- R282. Dray command appending tagged data to the stash ring, spilling if needed. -/
  | stash (b a : BitVec 5) (g : BitVec 4)
  /-- R283. Dray command reporting a tag's location and copying its data back to LM. -/
  | unstash (a d : BitVec 5) (g : BitVec 4)
  /-- R284. Dray command submitting an NVMe entry to a queue pair and ringing its doorbell. -/
  | flq (b a : BitVec 5) (g : BitVec 4)
  /-- R351. Takes SYSCALL with G(a), or makes a firmware call at S or M. -/
  | trap (a : BitVec 5) (g : BitVec 4)
  /-- R353. Returns from the current trap level to TEPC and releases held faulted entries. -/
  | tret (g : BitVec 4)
  /-- R354. Kills a context and retires once the kill record is appended. -/
  | ctxkill (a : BitVec 5) (g : BitVec 4)
  /-- R349. Reads a CSR into gd. -/
  | csrr (c : BitVec 11) (d : BitVec 5) (g : BitVec 4)
  /-- R349. Writes ga to a CSR under its field rules. -/
  | csrw (c : BitVec 11) (a : BitVec 5) (g : BitVec 4)
  /-- R349. Reads a CSR into gd and writes ga to it in one step. -/
  | csrx (c : BitVec 11) (a d : BitVec 5) (g : BitVec 4)
  /-- R48. Any compact halfword with op4 0 is illegal. -/
  | cIll (x : BitVec 11)
  /-- R48. Compact no-op. -/
  | cNop
  /-- R48. Compact move of ga to gd. -/
  | cMov (a d : BitVec 4)
  /-- R48. Compact gd := gd + ga. -/
  | cAdd (a d : BitVec 4)
  /-- R48. Compact gd := gd − ga. -/
  | cSub (a d : BitVec 4)
  /-- R48. Compact add of a signed 7-bit immediate. -/
  | cAddi (i : BitVec 7) (d : BitVec 4)
  /-- R48. Compact left shift by an immediate. -/
  | cShli (s : BitVec 6) (d : BitVec 4)
  /-- R48. Compact weak word load. -/
  | cLdw (i : BitVec 3) (a d : BitVec 4)
  /-- R48. Compact weak word store. -/
  | cStw (i : BitVec 3) (a d : BitVec 4)
  /-- R48. Compact weak doubleword load. -/
  | cLdd (i : BitVec 3) (a d : BitVec 4)
  /-- R48. Compact weak doubleword store. -/
  | cStd (i : BitVec 3) (a d : BitVec 4)
  /-- R48. Compact branch by a 7-bit displacement. -/
  | cBr (i : BitVec 7)
  /-- R87. Compact branch when gd is nonzero. -/
  | cBnz (i : BitVec 7) (d : BitVec 4)
  /-- R48. Compact call through ga with link pc + 2. -/
  | cCall (a : BitVec 4)
  /-- R48. Compact return through g1. -/
  | cRet
  /-- R48. Compact task end. -/
  | cTend
  /-- R159. Vector elementwise add. -/
  | vadd (t : BitVec 3) (b a d m : BitVec 4)
  /-- R159. Vector elementwise subtract. -/
  | vsub (t : BitVec 3) (b a d m : BitVec 4)
  /-- R159. Vector elementwise multiply. -/
  | vmul (t : BitVec 3) (b a d m : BitVec 4)
  /-- R159. Vector a × b + d with one rounding. -/
  | vfma (t : BitVec 3) (b a d m : BitVec 4)
  /-- R159. Vector a × b − d with one rounding. -/
  | vfms (t : BitVec 3) (b a d m : BitVec 4)
  /-- R159. Vector elementwise minimum. -/
  | vmin (t : BitVec 3) (b a d m : BitVec 4)
  /-- R159. Vector elementwise maximum. -/
  | vmax (t : BitVec 3) (b a d m : BitVec 4)
  /-- R159. Vector elementwise absolute value. -/
  | vabs (t : BitVec 3) (a d m : BitVec 4)
  /-- R159. Vector elementwise negation. -/
  | vneg (t : BitVec 3) (a d m : BitVec 4)
  /-- R159. Vector lane copy. -/
  | vmov (t : BitVec 3) (a d m : BitVec 4)
  /-- R160. Vector bitwise AND. -/
  | vand (t : BitVec 3) (b a d m : BitVec 4)
  /-- R160. Vector bitwise OR. -/
  | vor (t : BitVec 3) (b a d m : BitVec 4)
  /-- R160. Vector bitwise XOR. -/
  | vxor (t : BitVec 3) (b a d m : BitVec 4)
  /-- R160. Vector left shift. -/
  | vshl (t : BitVec 3) (b a d m : BitVec 4)
  /-- R160. Vector logical right shift. -/
  | vshr (t : BitVec 3) (b a d m : BitVec 4)
  /-- R160. Vector arithmetic right shift. -/
  | vsra (t : BitVec 3) (b a d m : BitVec 4)
  /-- R161. Writes a mask of lanes where a = b. -/
  | vcmpEq (t : BitVec 3) (b a : BitVec 4) (d : BitVec 3) (m : BitVec 4)
  /-- R161. Writes a mask of lanes where a ≠ b. -/
  | vcmpNe (t : BitVec 3) (b a : BitVec 4) (d : BitVec 3) (m : BitVec 4)
  /-- R161. Writes a mask of lanes where a < b. -/
  | vcmpLt (t : BitVec 3) (b a : BitVec 4) (d : BitVec 3) (m : BitVec 4)
  /-- R161. Writes a mask of lanes where a ≤ b. -/
  | vcmpLe (t : BitVec 3) (b a : BitVec 4) (d : BitVec 3) (m : BitVec 4)
  /-- R161. Writes a mask of lanes where a > b. -/
  | vcmpGt (t : BitVec 3) (b a : BitVec 4) (d : BitVec 3) (m : BitVec 4)
  /-- R161. Writes a mask of lanes where a ≥ b. -/
  | vcmpGe (t : BitVec 3) (b a : BitVec 4) (d : BitVec 3) (m : BitVec 4)
  /-- R161. Writes a mask of lanes where an operand is a NaN. -/
  | vcmpUn (t : BitVec 3) (b a : BitVec 4) (d : BitVec 3) (m : BitVec 4)
  /-- R161. Writes a mask of lanes where neither operand is a NaN. -/
  | vcmpOrd (t : BitVec 3) (b a : BitVec 4) (d : BitVec 3) (m : BitVec 4)
  /-- R162. Selects each lane from va or vb by the mask selector. -/
  | vsel (b a d s : BitVec 4)
  /-- R162. md := ma AND mb. -/
  | vmand (b a d : BitVec 3)
  /-- R162. md := ma OR mb. -/
  | vmor (b a d : BitVec 3)
  /-- R162. md := NOT ma. -/
  | vmnot (a d : BitVec 3)
  /-- R163. Loads consecutive lane words from placed memory. -/
  | vld (a d m : BitVec 4)
  /-- R163. Stores consecutive lane words to placed memory. -/
  | vst (a d m : BitVec 4)
  /-- R163. Loads lane words with a stride. -/
  | vlds (b a d m : BitVec 4)
  /-- R163. Stores lane words with a stride. -/
  | vsts (b a d m : BitVec 4)
  /-- R163. Gathers lane words by per-lane index. -/
  | vgath (b a d m : BitVec 4)
  /-- R163. Scatters lane words by per-lane index. -/
  | vscat (b a d m : BitVec 4)
  /-- R165. Pops a queue entry into lanes 0 and 1. -/
  | vldq (q : BitVec 3) (d m : BitVec 4)
  /-- R165. Pushes lanes 1 and 0 into a queue. -/
  | vstq (a : BitVec 4) (q : BitVec 3) (m : BitVec 4)
  /-- R165. Pops a queue entry and broadcasts its low word. -/
  | vbcq (q : BitVec 3) (d m : BitVec 4)
  /-- R165. Drains stream stores, optionally signals a semaphore, and ends the stream. -/
  | vend (f : BitVec 1) (s : BitVec 4)
  /-- R166. Tree-reduces lanes by addition into lane 0. -/
  | vredAdd (t : BitVec 3) (a d m : BitVec 4)
  /-- R166. Tree-reduces lanes by minimum. -/
  | vredMin (t : BitVec 3) (a d m : BitVec 4)
  /-- R166. Tree-reduces lanes by maximum. -/
  | vredMax (t : BitVec 3) (a d m : BitVec 4)
  /-- R166. Tree-reduces lanes by AND. -/
  | vredAnd (t : BitVec 3) (a d m : BitVec 4)
  /-- R166. Tree-reduces lanes by OR. -/
  | vredOr (t : BitVec 3) (a d m : BitVec 4)
  /-- R166. Tree-reduces lanes by XOR. -/
  | vredXor (t : BitVec 3) (a d m : BitVec 4)
  /-- R167. Inclusive scan by addition in lane order. -/
  | vscanAdd (t : BitVec 3) (a d m : BitVec 4)
  /-- R167. Inclusive scan by minimum. -/
  | vscanMin (t : BitVec 3) (a d m : BitVec 4)
  /-- R167. Inclusive scan by maximum. -/
  | vscanMax (t : BitVec 3) (a d m : BitVec 4)
  /-- R167. Inclusive scan by AND. -/
  | vscanAnd (t : BitVec 3) (a d m : BitVec 4)
  /-- R167. Inclusive scan by OR. -/
  | vscanOr (t : BitVec 3) (a d m : BitVec 4)
  /-- R167. Inclusive scan by XOR. -/
  | vscanXor (t : BitVec 3) (a d m : BitVec 4)
  /-- R167. Permutes lanes by per-lane index. -/
  | vperm (b a d m : BitVec 4)
  /-- R167. Broadcasts lane 0 to enabled lanes. -/
  | vbcast (a d m : BitVec 4)
  /-- R169. Converts vector elements between types under a rounding mode. -/
  | vcvt (r t s : BitVec 3) (a d m : BitVec 4)
  /-- R170. Stochastically rounds F32 elements to a narrow target. -/
  | vrnd (k : BitVec 4) (x : BitVec 2) (a d m : BitVec 4)
  /-- R171. Zeros elements below 2^T and accumulates their magnitudes. -/
  | vthresh (t : BitVec 3) (b a d m : BitVec 4)
  /-- R172. Computes 2^x of each F32 lane. -/
  | vexp (a d m : BitVec 4)
  /-- R172. Computes log2 of each F32 lane. -/
  | vlog (a d m : BitVec 4)
  /-- R172. Computes 1/x of each F32 lane. -/
  | vrcp (a d m : BitVec 4)
  /-- R172. Computes 1/√x of each F32 lane. -/
  | vrsq (a d m : BitVec 4)
  /-- R158. Stream branch taken when its mask guard enables any lane. -/
  | streamBr (d : BitVec 21) (m : BitVec 4)
  /-- R158. Stream loop whose count is popped from a queue. -/
  | streamLoop (i : BitVec 11) (q : BitVec 3) (m : BitVec 4)
  /-- R344. Once every tile has finished the kill, the kill record is appended to the kill ring. -/
  | killRecord (k : Nat)
  /-- R57. A class-0 block is checked whole and run in the handler context, stopping or reporting violations. -/
  | inlineBlock (p : Nat)
  /-- R107. A routine-class message is queued for a start, or discarded on an invalid routine entry. -/
  | routineClassMessage (p : Nat)
  /-- R117. The handler context starts the first task of a launch. -/
  | launch (p : Nat)
  /-- R117. When a launch's counter reaches zero the status doubleword is written and the completion record is decremented. -/
  | launchComplete (key : Nat)
  /-- R118. A tile discards queued tasks, cancels records and stops creating tasks of the named level. -/
  | cancel (p : Nat)
  /-- R113. A decrement arrives at a record, firing and re-arming it or counting a stray decrement. -/
  | decMessage (p : Nat)
  /-- R114. A remote spawn is placed in the target's spawn queue or refused. -/
  | spawnMessage (p : Nat)
  /-- R137. The reply to a remote spawn completes the SPAWN or starts the fallback. -/
  | spawnReply (p : Nat)
  /-- R125. A core selects and starts the next eligible entry when a slot frees, an entry queues or deficits replenish. -/
  | taskStart (core : Nat)
  /-- R124. Every 100 µs of fabric time each tile replenishes the deficits of active contexts. -/
  | deficitReplenish (tile : Nat)
  /-- R110. A freed input-queue entry is lent as a credit to the oldest requesting sender. -/
  | creditGrant (core : Nat)
  /-- R218. The performing handler runs an atomic on the word at its home. -/
  | amo (p : Nat)
  /-- R223. The performing handler compares and conditionally stores the word at its home. -/
  | casMessage (p : Nat)
  /-- R219. The reply to a non-posted atomic writes gd or raises its trap at the issuing core. -/
  | atomicReply (p : Nat)
  /-- R221. The home acknowledges a posted atomic, recording any refusal for the next waiting instruction. -/
  | postedAtomicAck (p : Nat)
  /-- R140. The election home answers 1 to the first request of a key and 0 to others. -/
  | electRequest (p : Nat)
  /-- R142. A declaration adds its count to a tile's phase slot or merges into a declared phase. -/
  | phaseDeclaration (p : Nat)
  /-- R122. When line s is high in every listed package the tiles clear the slot and PHDONE is delivered. -/
  | phaseComplete (tile : Nat) (n : BitVec 4)
  /-- R126. Starts the phase's successor routine on the entry's core with status and sequence. -/
  | phdone (core : Nat)
  /-- R146. The NI writes a discard or fault report into the context's event ring or drops it. -/
  | trapev (p : Nat)
  /-- R109. A landing copies data bytes unchanged into LM and decrements its record. -/
  | landingPlain (p : Nat)
  /-- R109. A landing converts data into the bank format under the transfer rule. -/
  | landingConv (p : Nat)
  /-- R109. A landing converts data and adds it into the words in place. -/
  | landingAdd (p : Nat)
  /-- R109. A landing copies data and sets the full bit of each word written. -/
  | landingSetf (p : Nat)
  /-- R109. A landing writes data bytes down a column of a 1 KiB sector block. -/
  | landingTrans (p : Nat)
  /-- R274. A home performs a gathered read and replies with the data. -/
  | gathreq (p : Nat)
  /-- R274. A home performs a scattered store as a strong store or a scattered add as an atomic. -/
  | scatreq (p : Nat)
  /-- R323. A cell owner applies or stages a join add, logging the key if required. -/
  | kaggreq (p : Nat)
  /-- R325. A cell owner applies staged elements and replies with stripe 0's pair. -/
  | kbcastreq (p : Nat)
  /-- R327. The extension home appends a changed key to the change ring or counts a drop. -/
  | changeLogAppend (p : Nat)
  /-- R264. A Press core checks a remote matrix command and token and enters or rejects it. -/
  | mcmd (p : Nat)
  /-- R275. A Dray core checks a remote copy and enters or rejects it. -/
  | xform (p : Nat)
  /-- R366. An NVMe completion is written to the pair's completion queue and its record decremented. -/
  | fldone (p : Nat)
  /-- R254. A ring command's reads and writes are performed, and its completion signal and any completion DEC follow. -/
  | commandComplete (core : Nat)
  /-- R255. A running command stops, later commands of its task are discarded, and the fault is taken or reported. -/
  | lateFault (core : Nat)
  /-- R259. After 2^22 cycles of all engine slots waiting with no command running, every waiting slot takes QUEUE. -/
  | groupWatchdog (tile : Nat)
  /-- R152. A vector instruction waiting 2^20 cycles on an unchanged queue stops the stream with QUEUE. -/
  | queueWaitTimeout (tile : Nat)
  /-- R227. When a word becomes full, waiting LDFs of it are served in list order. -/
  | ldfServe (tile : Nat)
  /-- R227. A refused LDF request is sent again after 1 µs. -/
  | ldfRetry (slot : Nat)
  /-- R201. The home translates and checks a weak store, logs the granule, and returns the line with a write grant. -/
  | writeRequest (p : Nat)
  /-- R196. A write held on a full dirty log proceeds when TAIL moves. -/
  | heldWriteResume (p : Nat)
  /-- R202. The home records a registration, revoking other owners and recalling when a fifth entry is needed. -/
  | registration (p : Nat)
  /-- R202. A core drops a revoked word from its L1. -/
  | revoke (p : Nat)
  /-- R204. The home builds a row line from its storage and forwarded reads and sends it. -/
  | lineFill (p : Nat)
  /-- R204. An owner core replies with its current value of a registered word. -/
  | forwardedRead (p : Nat)
  /-- R212. An arriving fill serves earlier loads and is installed unless an acquire or revoke intervened. -/
  | fillArrival (p : Nat)
  /-- R213. The home keeps written-back words still registered to the sender and removes them from its mask. -/
  | writeBack (p : Nat)
  /-- R214. A strong load or store is performed at the home, recalling a registered word. -/
  | strongAccess (p : Nat)
  /-- R215. A remote access to placed memory is performed at its home tile in arrival order. -/
  | placedAccess (p : Nat)
  /-- R211. When an acquire's sweep drops a word a speculative load hit, the load and its dependants are replayed. -/
  | speculativeReplay (slot : Nat)
  /-- R241. A home allocates a volume tile or node for a pending entry and answers waiting writes. -/
  | tileAllocation (p : Nat)
  /-- R248. Each attached core drops freed mappings and acknowledges once their accesses are performed. -/
  | clbShootdown (p : Nat)
  /-- R341. A task's budget reaching zero makes BUDGET pending and starts its grace. -/
  | budgetExpiry (slot : Nat)
  /-- R342. A task whose grace runs out is terminated at once and reported. -/
  | taskTermination (slot : Nat)
  /-- R348. Once a leaving context is idle, the Dray core writes its save area and releases its resources. -/
  | leaveSave (tile : Nat) (grant : BitVec 2)
  /-- R262. The Press core's MEPOCH advances every 2^20 ns. -/
  | epochAdvance (tile : Nat)
  /-- R13. A read of RAND consumes 64 fresh entropy bits. -/
  | randRead (m : BitVec 2) (a d : BitVec 5) (g : BitVec 4)
  /-- R93. A read of TCTL waits for earlier floating instructions' flags. -/
  | tctlRead (m : BitVec 2) (a d : BitVec 5) (g : BitVec 4)
  /-- R268. A read of CVSTAT waits for earlier unsuspended commands to complete. -/
  | cvstatRead (m : BitVec 2) (a d : BitVec 5) (g : BitVec 4)
  /-- R15. A write of FNSEL changes the narrow format or traps ILLEGAL. -/
  | fnselWrite (m : BitVec 2) (a d : BitVec 5) (g : BitVec 4)
  /-- R179. A write of BFMTn waits for landings and running commands, then changes the bank format. -/
  | bfmtWrite (n : BitVec 4) (m : BitVec 2) (a d : BitVec 5) (g : BitVec 4)
  /-- R180. A write of BDROPn sets the drop counter between two additions. -/
  | bdropWrite (n : BitVec 4) (m : BitVec 2) (a d : BitVec 5) (g : BitVec 4)
  /-- R335. A write of BUDGET sets the writer's remaining budget. -/
  | budgetWrite (m : BitVec 2) (a d : BitVec 5) (g : BitVec 4)
  /-- R336. A write of PHSLOT tags or untags the task. -/
  | phslotWrite (m : BitVec 2) (a d : BitVec 5) (g : BitVec 4)
  /-- R335. A write of GSEL selects a grant doubleword or traps PROT. -/
  | gselWrite (m : BitVec 2) (a d : BitVec 5) (g : BitVec 4)
  /-- R346. A write of GDATA checked against the whole resulting grant. -/
  | grantWrite (m : BitVec 2) (a d : BitVec 5) (g : BitVec 4)
  /-- R348. A write of dw0 with V 0 sets PRE and LEAVING and waits for IDLE. -/
  | grantLeave (m : BitVec 2) (a d : BitVec 5) (g : BitVec 4)
  /-- R348. A write of dw0 with V and RST copies the save area back and re-queues start entries. -/
  | grantRestore (m : BitVec 2) (a d : BitVec 5) (g : BitVec 4)
  /-- R262. CSRX of MTOK issues a capability token. -/
  | tokenIssue (m : BitVec 2) (a d : BitVec 5) (g : BitVec 4)
  /-- R262. A write of MKEY draws a new key and invalidates earlier tokens. -/
  | mkeyWrite (m : BitVec 2) (a d : BitVec 5) (g : BitVec 4)
  /-- R362. Contributes to the slot's line word by wrapping addition. -/
  | lwadd (m : BitVec 2) (a d : BitVec 5) (g : BitVec 4)
  /-- R362. Contributes to the line word by N64 maximum. -/
  | lwmaxn (m : BitVec 2) (a d : BitVec 5) (g : BitVec 4)
  /-- R362. Contributes to the line word by F32 maximum. -/
  | lwfmax (m : BitVec 2) (a d : BitVec 5) (g : BitVec 4)
  /-- R360. A write of PQCFG enables or disables the link's post buffer. -/
  | pqcfgWrite (m : BitVec 2) (a d : BitVec 5) (g : BitVec 4)
  /-- R361. A read of PQPOP waits for and pops a block-queue entry with an acquire. -/
  | pqpop (m : BitVec 2) (a d : BitVec 5) (g : BitVec 4)
  /-- R281. A write of STASHB sets the stash ring offset or traps PROT. -/
  | stashbWrite (m : BitVec 2) (a d : BitVec 5) (g : BitVec 4)
  /-- R281. A write of STASHL sets the stash ring length or traps PROT. -/
  | stashlWrite (m : BitVec 2) (a d : BitVec 5) (g : BitVec 4)
  /-- R381. A write of PCAP sets the power cap or traps PROT. -/
  | pcapWrite (m : BitVec 2) (a d : BitVec 5) (g : BitVec 4)
  /-- R349. A write of a CSR without behaviour of its own, under its field rules. -/
  | csrWrite (n : BitVec 11) (m : BitVec 2) (a d : BitVec 5) (g : BitVec 4)
  /-- R352. Firmware call installing a leaf, refused if it breaks the single-mapping rule. -/
  | map (slot : Nat)
  /-- R352. Firmware call removing a leaf and clearing its lost marks. -/
  | unmap (slot : Nat)
  /-- R352. Firmware call changing a leaf's rights. -/
  | rights (slot : Nat)
  /-- R352. Firmware call clearing a granule's DIRTY bit. -/
  | clean (slot : Nat)
  /-- R352. Firmware call moving the dirty-log TAIL. -/
  | logtail (slot : Nat)
  /-- R352. Firmware call creating or reviving a context. -/
  | ctxset (slot : Nat)
  /-- R352. Firmware call setting the partition's kill ring. -/
  | kring (slot : Nat)
  /-- R352. Firmware call changing the partition's host list in every package. -/
  | hostlist (slot : Nat)
  /-- R371. A coordinator pre-empts incumbents and installs a gang's grants for a slice start. -/
  | slice (p : Nat)
  /-- R371. At fabric time T the gang starts, or the package is late and sends LATE. -/
  | sliceStart (pkg gang : Nat)
  /-- R371. At T plus GRACE a late package sets the budgets of incumbent tasks to zero. -/
  | gangGraceExpiry (pkg gang : Nat)
  /-- R371. At the end of the slice every member sets PRE on the gang's grants and status 1 is written. -/
  | sliceEnd (pkg gang : Nat)
  /-- R372. A coordinator forwards a gang launch, performs it locally and sends ACK. -/
  | glaunch (p : Nat)
  /-- R372. The first member records a member's acknowledgement of a gang launch. -/
  | ack (p : Nat)
  /-- R372. Without all ACKs 20 µs after forwarding, the job is cancelled and status 2 written. -/
  | gangAckTimeout (pkg gang : Nat)
  /-- R371. A member learns that a package is late for the slice. -/
  | late (p : Nat)
  /-- R373. A member sets PRE on the gang's grants and cancels the job after a fence. -/
  | stop (p : Nat)
  /-- R379. An uncorrectable error fences a tile, terminating its tasks and losing its words. -/
  | tileFence (tile : Nat) (addr : BitVec 48)
  /-- R379. A correctable error is corrected in place and counted in ECCC. -/
  | eccCorrected (pkg : Nat) (bits : BitVec 32)
  /-- R380. After 16 failed retries a link's bit is cleared and traffic reroutes. -/
  | linkRetryExhausted (pkg : Nat) (link : BitVec 8)
  /-- R381. Every 1 ms each die's clock step is lowered or raised against the power cap. -/
  | powerStep (pkg : Nat) (milliwatts : BitVec 64)
  /-- R381. A die at 105 °C goes to step 7, and at 115 °C the package stops. -/
  | thermalLimit (pkg : Nat) (die celsius : BitVec 8)
  /-- R376. A trained function's readiness bit is set, releasing waiting work. -/
  | functionReady (pkg : Nat) (bit : BitVec 8)
  /-- R377. The security complex verifies the firmware image and sets SEC or enters recovery. -/
  | imageVerification (pkg : Nat) (image : BitVec 64)
  /-- R378. A host streams a recovery image through management write transactions. -/
  | managementWrite (pkg : Nat) (off value : BitVec 64)
  /-- R375. A host reads the readiness map through a management read transaction. -/
  | managementRead (pkg : Nat) (off : BitVec 64)
  /-- R378. The security complex returns a signed report of the firmware and routine-table digests. -/
  | attestationRequest (pkg part : Nat) (nonce : BitVec 384)
  /-- R151. Core reset empties queues and zeroes vector registers and accumulators. -/
  | coreReset (core : Nat)
  /-- R225. Tile reset clears semaphores and LM full bits. -/
  | tileReset (tile : Nat)
  /-- R363. Package reset empties every host list and starts training. -/
  | packageReset (pkg : Nat)
  /-- R376. A function fails training: its readiness bit stays 0, a failed tile group is fenced and excluded, and messages held for its tiles are refused as malformed. -/
  | trainingFailure (pkg : Nat) (bit : BitVec 8)
  /-- R203. An owner core receives a home's recall of its registered words, replies with their values and keeps them unregistered, or drops them for a strong access. -/
  | recallRequest (p : Nat)
  deriving DecidableEq, Repr

end Sys2Proof
end

