-- ==== Sys2Proof/WellFormed.lean ====
section
/-!
DEFINITION. Sys2Proof/WellFormed.lean: what an encoding must satisfy beyond the bits the opcode table fixes (R50, R51,
Table 5 of spec/03_encoding_opcode_map.md). Register counts and the narrow format of FNSEL depend on the task, and are
checked at execution (R55).
-/

namespace Sys2Proof

/-- The instruction's fields are within the limits of R50 and R51: a shift of a .W form below 32, a bit field that ends
at bit 63 or below, comb 0 to 2, assigned conversion codes and modes, no LD with kind L and no ST with kind A, no posted
atomic with a destination, a loop of at least one halfword on a count register other than g0, a SEND class outside 18 to 31, a
queue bound to g20 to g27 or unbound (R280), and vector element types among those the tables of spec/10_vector_sequencer.md list for the member (R157, R159 to R171). -/
def Instr.wf : Instr → Bool
  | .add _ _ _ _ _ => true
  | .sub _ _ _ _ _ => true
  | .mul _ _ _ _ _ => true
  | .mulh _ _ _ _ _ => true
  | .mulhn _ _ _ _ _ => true
  | .div _ _ _ _ _ => true
  | .divn _ _ _ _ _ => true
  | .rem _ _ _ _ _ => true
  | .remn _ _ _ _ _ => true
  | .and _ _ _ _ => true
  | .or _ _ _ _ => true
  | .xor _ _ _ _ => true
  | .andn _ _ _ _ => true
  | .shl _ _ _ _ _ => true
  | .shr _ _ _ _ _ => true
  | .sra _ _ _ _ _ => true
  | .rot _ _ _ _ _ => true
  | .min _ _ _ _ => true
  | .max _ _ _ _ => true
  | .minn _ _ _ _ => true
  | .maxn _ _ _ _ => true
  | .sel _ _ _ _ => true
  | .addi _ _ _ _ => true
  | .andi _ _ _ _ => true
  | .ori _ _ _ _ => true
  | .xori _ _ _ _ => true
  | .shli w s _ _ _ => !(w == 1#1 && s.getLsbD 5)
  | .shri w s _ _ _ => !(w == 1#1 && s.getLsbD 5)
  | .srai w s _ _ _ => !(w == 1#1 && s.getLsbD 5)
  | .roti w s _ _ _ => !(w == 1#1 && s.getLsbD 5)
  | .movi _ _ _ => true
  | .movs _ _ _ => true
  | .abs _ _ _ => true
  | .neg _ _ _ => true
  | .not _ _ _ => true
  | .clz _ _ _ => true
  | .ctz _ _ _ => true
  | .popc _ _ _ => true
  | .sxb _ _ _ => true
  | .sxh _ _ _ => true
  | .sxw _ _ _ => true
  | .zxb _ _ _ => true
  | .zxh _ _ _ => true
  | .zxw _ _ _ => true
  | .bswap _ _ _ => true
  | .bfx l p _ _ _ => decide (p.toNat + l.toNat + 1 ≤ 64)
  | .bfi l p _ _ _ => decide (p.toNat + l.toNat + 1 ≤ 64)
  | .cmpEq _ _ _ o _ _ => o != 3#2
  | .cmpNe _ _ _ o _ _ => o != 3#2
  | .cmpLt _ _ _ o _ _ => o != 3#2
  | .cmpLe _ _ _ o _ _ => o != 3#2
  | .cmpGt _ _ _ o _ _ => o != 3#2
  | .cmpGe _ _ _ o _ _ => o != 3#2
  | .cmpLtn _ _ _ o _ _ => o != 3#2
  | .cmpLen _ _ _ o _ _ => o != 3#2
  | .cmpGtn _ _ _ o _ _ => o != 3#2
  | .cmpGen _ _ _ o _ _ => o != 3#2
  | .cmpiEq _ _ _ o _ _ => o != 3#2
  | .cmpiNe _ _ _ o _ _ => o != 3#2
  | .cmpiLt _ _ _ o _ _ => o != 3#2
  | .cmpiLe _ _ _ o _ _ => o != 3#2
  | .cmpiGt _ _ _ o _ _ => o != 3#2
  | .cmpiGe _ _ _ o _ _ => o != 3#2
  | .cmpiLtn _ _ _ o _ _ => o != 3#2
  | .cmpiLen _ _ _ o _ _ => o != 3#2
  | .cmpiGtn _ _ _ o _ _ => o != 3#2
  | .cmpiGen _ _ _ o _ _ => o != 3#2
  | .pand _ _ _ _ => true
  | .por _ _ _ _ => true
  | .pxor _ _ _ _ => true
  | .pandn _ _ _ _ => true
  | .pnot _ _ _ => true
  | .pmov _ _ _ => true
  | .ppack _ _ => true
  | .punpk _ _ => true
  | .lea _ _ _ _ _ _ => true
  | .fadd _ _ _ _ => true
  | .fsub _ _ _ _ => true
  | .fmul _ _ _ _ => true
  | .fdiv _ _ _ _ => true
  | .fsqrt _ _ _ => true
  | .fmin _ _ _ _ => true
  | .fmax _ _ _ _ => true
  | .fabs _ _ _ => true
  | .fneg _ _ _ => true
  | .fmov _ _ _ => true
  | .fclass _ _ _ => true
  | .fmvg _ _ _ => true
  | .fmvf _ _ _ => true
  | .fma _ _ _ _ _ => true
  | .fms _ _ _ _ _ => true
  | .fnma _ _ _ _ _ => true
  | .fnms _ _ _ _ _ => true
  | .fcvt s t r _ _ _ => (s != t) && !(4 ≤ s.toNat && 4 ≤ t.toNat) && decide (r.toNat ≤ 4)
  | .frnd _ _ _ _ _ => true
  | .fcmpEq _ _ o _ _ => o != 3#2
  | .fcmpNe _ _ o _ _ => o != 3#2
  | .fcmpLt _ _ o _ _ => o != 3#2
  | .fcmpLe _ _ o _ _ => o != 3#2
  | .fcmpUn _ _ o _ _ => o != 3#2
  | .fcmpOrd _ _ o _ _ => o != 3#2
  | .ld _ _ k _ _ _ _ => k != 3#2
  | .st _ _ k _ _ _ _ => k != 2#2
  | .ldf _ _ _ _ _ _ => true
  | .ldfE _ _ _ _ _ _ => true
  | .setf _ _ => true
  | .sete _ _ => true
  | .testf _ _ _ => true
  | .amoAdd p _ _ _ d _ => !(p == 1#1 && d != 0#5)
  | .amoAnd p _ _ _ d _ => !(p == 1#1 && d != 0#5)
  | .amoOr p _ _ _ d _ => !(p == 1#1 && d != 0#5)
  | .amoXor p _ _ _ d _ => !(p == 1#1 && d != 0#5)
  | .amoMin p _ _ _ d _ => !(p == 1#1 && d != 0#5)
  | .amoMax p _ _ _ d _ => !(p == 1#1 && d != 0#5)
  | .amoMinn p _ _ _ d _ => !(p == 1#1 && d != 0#5)
  | .amoMaxn p _ _ _ d _ => !(p == 1#1 && d != 0#5)
  | .amoXchg p _ _ _ d _ => !(p == 1#1 && d != 0#5)
  | .amoFadd p _ _ d _ => !(p == 1#1 && d != 0#5)
  | .amoFmin p _ _ d _ => !(p == 1#1 && d != 0#5)
  | .amoFmax p _ _ d _ => !(p == 1#1 && d != 0#5)
  | .cas _ _ _ _ _ => true
  | .ldc _ _ _ _ _ _ => true
  | .stc _ _ _ _ _ _ => true
  | .amocAdd _ _ _ _ _ => true
  | .amocFadd _ _ _ _ _ => true
  | .amocMin _ _ _ _ _ => true
  | .amocMax _ _ _ _ _ => true
  | .amocFmax _ _ _ _ _ => true
  | .amocXchg _ _ _ _ _ => true
  | .fenceA _ _ => true
  | .fenceL _ _ => true
  | .fenceAl _ _ => true
  | .invr _ _ _ => true
  | .pubr _ _ _ => true
  | .isync _ => true
  | .pref _ _ => true
  | .clbinv _ _ => true
  | .br _ _ => true
  | .jal _ _ => true
  | .jalr _ _ _ _ => true
  | .loop i a _ => i != 0#11 && a != 0#5
  | .send c _ _ _ _ _ => !(decide (18 ≤ c.toNat) && decide (c.toNat ≤ 31))
  | .sendx _ _ _ _ => true
  | .spawn _ _ _ _ => true
  | .trec _ _ _ _ => true
  | .dec _ _ => true
  | .decL _ _ => true
  | .tarm _ _ _ => true
  | .tend _ => true
  | .elect _ _ _ => true
  | .tinfo _ _ _ => true
  | .phdecl _ _ => true
  | .phstat _ _ _ => true
  | .cancelLaunch _ _ => true
  | .cancelGraph _ _ => true
  | .cancelPhase _ _ => true
  | .cancelJob _ _ => true
  | .qtest _ _ _ => true
  | .qclose _ _ => true
  | .qbind b _ _ => b == 0#5 || (decide (20 ≤ b.toNat) && decide (b.toNat ≤ 27))
  | .semp _ _ => true
  | .sempServe _ _ => true
  | .semv _ _ => true
  | .vgo _ _ => true
  | .tmset _ _ _ => true
  | .tmget _ _ _ => true
  | .tmofs _ _ _ => true
  | .copy _ _ _ _ => true
  | .gath _ _ _ _ _ => true
  | .scat _ _ _ _ _ => true
  | .scatAdd _ _ _ _ _ => true
  | .kagg _ _ _ _ _ => true
  | .kaggO _ _ _ _ _ => true
  | .kbcast _ _ _ _ _ => true
  | .kisect _ _ _ _ _ => true
  | .kfold _ _ _ _ => true
  | .kdirty _ _ _ _ => true
  | .convt _ m _ _ _ _ => m != 7#3
  | .compress _ _ _ _ _ _ => true
  | .mma _ _ _ _ _ _ _ _ => true
  | .mmas _ _ _ _ _ _ _ _ _ => true
  | .mzero _ _ _ => true
  | .mldacc _ _ _ _ => true
  | .mstacc _ _ _ _ => true
  | .bfpa _ _ _ _ _ => true
  | .resize _ _ => true
  | .volalloc _ _ _ => true
  | .volfree _ _ _ => true
  | .stash _ _ _ => true
  | .unstash _ _ _ => true
  | .flq _ _ _ => true
  | .trap _ _ => true
  | .tret _ => true
  | .ctxkill _ _ => true
  | .csrr _ _ _ => true
  | .csrw _ _ _ => true
  | .csrx _ _ _ _ => true
  | .cIll _ => true
  | .cNop => true
  | .cMov _ _ => true
  | .cAdd _ _ => true
  | .cSub _ _ => true
  | .cAddi _ _ => true
  | .cShli _ _ => true
  | .cLdw _ _ _ => true
  | .cStw _ _ _ => true
  | .cLdd _ _ _ => true
  | .cStd _ _ _ => true
  | .cBr _ => true
  | .cBnz _ _ => true
  | .cCall _ => true
  | .cRet => true
  | .cTend => true
  | .vadd t _ _ _ _ => t != 7#3
  | .vsub t _ _ _ _ => t != 7#3
  | .vmul t _ _ _ _ => t != 7#3
  | .vfma t _ _ _ _ => t != 7#3
  | .vfms t _ _ _ _ => t != 7#3
  | .vmin _ _ _ _ _ => true
  | .vmax _ _ _ _ _ => true
  | .vabs t _ _ _ => t != 2#3
  | .vneg _ _ _ _ => true
  | .vmov _ _ _ _ => true
  | .vand t _ _ _ _ => t == 1#3
  | .vor t _ _ _ _ => t == 1#3
  | .vxor t _ _ _ _ => t == 1#3
  | .vshl t _ _ _ _ => t == 1#3 || t == 5#3 || t == 6#3
  | .vshr t _ _ _ _ => t == 1#3 || t == 5#3 || t == 6#3
  | .vsra t _ _ _ _ => t == 1#3 || t == 5#3 || t == 6#3
  | .vcmpEq t _ _ _ _ => decide (t.toNat ≤ 2)
  | .vcmpNe t _ _ _ _ => decide (t.toNat ≤ 2)
  | .vcmpLt t _ _ _ _ => decide (t.toNat ≤ 2)
  | .vcmpLe t _ _ _ _ => decide (t.toNat ≤ 2)
  | .vcmpGt t _ _ _ _ => decide (t.toNat ≤ 2)
  | .vcmpGe t _ _ _ _ => decide (t.toNat ≤ 2)
  | .vcmpUn t _ _ _ _ => t == 0#3
  | .vcmpOrd t _ _ _ _ => t == 0#3
  | .vsel _ _ _ _ => true
  | .vmand _ _ _ => true
  | .vmor _ _ _ => true
  | .vmnot _ _ => true
  | .vld _ _ _ => true
  | .vst _ _ _ => true
  | .vlds _ _ _ _ => true
  | .vsts _ _ _ _ => true
  | .vgath _ _ _ _ => true
  | .vscat _ _ _ _ => true
  | .vldq _ _ _ => true
  | .vstq _ _ _ => true
  | .vbcq _ _ _ => true
  | .vend f s => f == 1#1 || s == 0#4
  | .vredAdd t _ _ _ => decide (t.toNat ≤ 2)
  | .vredMin t _ _ _ => decide (t.toNat ≤ 2)
  | .vredMax t _ _ _ => decide (t.toNat ≤ 2)
  | .vredAnd t _ _ _ => t == 1#3 || t == 2#3
  | .vredOr t _ _ _ => t == 1#3 || t == 2#3
  | .vredXor t _ _ _ => t == 1#3 || t == 2#3
  | .vscanAdd t _ _ _ => decide (t.toNat ≤ 2)
  | .vscanMin t _ _ _ => decide (t.toNat ≤ 2)
  | .vscanMax t _ _ _ => decide (t.toNat ≤ 2)
  | .vscanAnd t _ _ _ => t == 1#3 || t == 2#3
  | .vscanOr t _ _ _ => t == 1#3 || t == 2#3
  | .vscanXor t _ _ _ => t == 1#3 || t == 2#3
  | .vperm _ _ _ _ => true
  | .vbcast _ _ _ => true
  | .vcvt r t s _ _ _ => decide (r.toNat ≤ 4) && s != t
  | .vrnd _ _ _ _ _ => true
  | .vthresh t b _ d _ => (t == 0#3 || t == 3#3 || t == 4#3 || t == 7#3) && d != b
  | .vexp _ _ _ => true
  | .vlog _ _ _ => true
  | .vrcp _ _ _ => true
  | .vrsq _ _ _ => true
  | .streamBr _ _ => true
  | .streamLoop i _ _ => i != 0#11
  | .killRecord _ => true
  | .inlineBlock _ => true
  | .routineClassMessage _ => true
  | .launch _ => true
  | .launchComplete _ => true
  | .cancel _ => true
  | .decMessage _ => true
  | .spawnMessage _ => true
  | .spawnReply _ => true
  | .taskStart _ => true
  | .deficitReplenish _ => true
  | .creditGrant _ => true
  | .amo _ => true
  | .casMessage _ => true
  | .atomicReply _ => true
  | .postedAtomicAck _ => true
  | .electRequest _ => true
  | .phaseDeclaration _ => true
  | .phaseComplete _ _ => true
  | .phdone _ => true
  | .trapev _ => true
  | .landingPlain _ => true
  | .landingConv _ => true
  | .landingAdd _ => true
  | .landingSetf _ => true
  | .landingTrans _ => true
  | .gathreq _ => true
  | .scatreq _ => true
  | .kaggreq _ => true
  | .kbcastreq _ => true
  | .changeLogAppend _ => true
  | .mcmd _ => true
  | .xform _ => true
  | .fldone _ => true
  | .commandComplete _ => true
  | .lateFault _ => true
  | .groupWatchdog _ => true
  | .queueWaitTimeout _ => true
  | .ldfServe _ => true
  | .ldfRetry _ => true
  | .writeRequest _ => true
  | .heldWriteResume _ => true
  | .registration _ => true
  | .revoke _ => true
  | .lineFill _ => true
  | .forwardedRead _ => true
  | .fillArrival _ => true
  | .writeBack _ => true
  | .strongAccess _ => true
  | .placedAccess _ => true
  | .speculativeReplay _ => true
  | .tileAllocation _ => true
  | .clbShootdown _ => true
  | .budgetExpiry _ => true
  | .taskTermination _ => true
  | .leaveSave _ _ => true
  | .epochAdvance _ => true
  | .randRead _ _ _ _ => true
  | .tctlRead _ _ _ _ => true
  | .cvstatRead _ _ _ _ => true
  | .fnselWrite _ _ _ _ => true
  | .bfmtWrite _ _ _ _ _ => true
  | .bdropWrite _ _ _ _ _ => true
  | .budgetWrite _ _ _ _ => true
  | .phslotWrite _ _ _ _ => true
  | .gselWrite _ _ _ _ => true
  | .grantWrite _ _ _ _ => true
  | .grantLeave _ _ _ _ => true
  | .grantRestore _ _ _ _ => true
  | .tokenIssue _ _ _ _ => true
  | .mkeyWrite _ _ _ _ => true
  | .lwadd _ _ _ _ => true
  | .lwmaxn _ _ _ _ => true
  | .lwfmax _ _ _ _ => true
  | .pqcfgWrite _ _ _ _ => true
  | .pqpop _ _ _ _ => true
  | .stashbWrite _ _ _ _ => true
  | .stashlWrite _ _ _ _ => true
  | .pcapWrite _ _ _ _ => true
  | .csrWrite _ _ _ _ _ => true
  | .map _ => true
  | .unmap _ => true
  | .rights _ => true
  | .clean _ => true
  | .logtail _ => true
  | .ctxset _ => true
  | .kring _ => true
  | .hostlist _ => true
  | .slice _ => true
  | .sliceStart _ _ => true
  | .gangGraceExpiry _ _ => true
  | .sliceEnd _ _ => true
  | .glaunch _ => true
  | .ack _ => true
  | .gangAckTimeout _ _ => true
  | .late _ => true
  | .stop _ => true
  | .tileFence _ _ => true
  | .eccCorrected _ _ => true
  | .linkRetryExhausted _ _ => true
  | .powerStep _ _ => true
  | .thermalLimit _ _ _ => true
  | .functionReady _ _ => true
  | .imageVerification _ _ => true
  | .managementWrite _ _ _ => true
  | .managementRead _ _ => true
  | .attestationRequest _ _ _ => true
  | .coreReset _ => true
  | .tileReset _ => true
  | .packageReset _ => true
  | .trainingFailure _ _ => true
  | .recallRequest _ => true

/-- `Instr.wf` as a proposition. -/
abbrev Instr.WF (i : Instr) : Prop := i.wf = true

end Sys2Proof
end

