-- ==== Sys2Proof/Decode.lean ====
section
/-!
DEFINITION. Sys2Proof/Decode.lean: from bits to instructions, and back.
Decoding follows R47 to R51 and Tables 1 and 3 of spec/03_encoding_opcode_map.md: bit 0 of the first halfword gives the
length, a major opcode picks a decoder, its selector picks the member, and every bit the tables fix must hold its value.
What is left is checked by `Instr.wf`. The encoder is written from the same tables.
-/

namespace Sys2Proof

/-- Major 0x00, Alu (R51, Table 3). -/
def decodeAlu (w : BitVec 32) : Option Instr :=
  match (w.extractLsb' 26 5).toNat with
  | 0 => some (.add (w.extractLsb' 31 1) (w.extractLsb' 21 5) (w.extractLsb' 16 5) (w.extractLsb' 11 5) (w.extractLsb' 7 4))
  | 1 => some (.sub (w.extractLsb' 31 1) (w.extractLsb' 21 5) (w.extractLsb' 16 5) (w.extractLsb' 11 5) (w.extractLsb' 7 4))
  | 2 => some (.mul (w.extractLsb' 31 1) (w.extractLsb' 21 5) (w.extractLsb' 16 5) (w.extractLsb' 11 5) (w.extractLsb' 7 4))
  | 3 => some (.mulh (w.extractLsb' 31 1) (w.extractLsb' 21 5) (w.extractLsb' 16 5) (w.extractLsb' 11 5) (w.extractLsb' 7 4))
  | 4 => some (.mulhn (w.extractLsb' 31 1) (w.extractLsb' 21 5) (w.extractLsb' 16 5) (w.extractLsb' 11 5) (w.extractLsb' 7 4))
  | 5 => some (.div (w.extractLsb' 31 1) (w.extractLsb' 21 5) (w.extractLsb' 16 5) (w.extractLsb' 11 5) (w.extractLsb' 7 4))
  | 6 => some (.divn (w.extractLsb' 31 1) (w.extractLsb' 21 5) (w.extractLsb' 16 5) (w.extractLsb' 11 5) (w.extractLsb' 7 4))
  | 7 => some (.rem (w.extractLsb' 31 1) (w.extractLsb' 21 5) (w.extractLsb' 16 5) (w.extractLsb' 11 5) (w.extractLsb' 7 4))
  | 8 => some (.remn (w.extractLsb' 31 1) (w.extractLsb' 21 5) (w.extractLsb' 16 5) (w.extractLsb' 11 5) (w.extractLsb' 7 4))
  | 9 => if w.extractLsb' 31 1 = 0#1 then some (.and (w.extractLsb' 21 5) (w.extractLsb' 16 5) (w.extractLsb' 11 5) (w.extractLsb' 7 4)) else none
  | 10 => if w.extractLsb' 31 1 = 0#1 then some (.or (w.extractLsb' 21 5) (w.extractLsb' 16 5) (w.extractLsb' 11 5) (w.extractLsb' 7 4)) else none
  | 11 => if w.extractLsb' 31 1 = 0#1 then some (.xor (w.extractLsb' 21 5) (w.extractLsb' 16 5) (w.extractLsb' 11 5) (w.extractLsb' 7 4)) else none
  | 12 => if w.extractLsb' 31 1 = 0#1 then some (.andn (w.extractLsb' 21 5) (w.extractLsb' 16 5) (w.extractLsb' 11 5) (w.extractLsb' 7 4)) else none
  | 13 => some (.shl (w.extractLsb' 31 1) (w.extractLsb' 21 5) (w.extractLsb' 16 5) (w.extractLsb' 11 5) (w.extractLsb' 7 4))
  | 14 => some (.shr (w.extractLsb' 31 1) (w.extractLsb' 21 5) (w.extractLsb' 16 5) (w.extractLsb' 11 5) (w.extractLsb' 7 4))
  | 15 => some (.sra (w.extractLsb' 31 1) (w.extractLsb' 21 5) (w.extractLsb' 16 5) (w.extractLsb' 11 5) (w.extractLsb' 7 4))
  | 16 => some (.rot (w.extractLsb' 31 1) (w.extractLsb' 21 5) (w.extractLsb' 16 5) (w.extractLsb' 11 5) (w.extractLsb' 7 4))
  | 17 => if w.extractLsb' 31 1 = 0#1 then some (.min (w.extractLsb' 21 5) (w.extractLsb' 16 5) (w.extractLsb' 11 5) (w.extractLsb' 7 4)) else none
  | 18 => if w.extractLsb' 31 1 = 0#1 then some (.max (w.extractLsb' 21 5) (w.extractLsb' 16 5) (w.extractLsb' 11 5) (w.extractLsb' 7 4)) else none
  | 19 => if w.extractLsb' 31 1 = 0#1 then some (.minn (w.extractLsb' 21 5) (w.extractLsb' 16 5) (w.extractLsb' 11 5) (w.extractLsb' 7 4)) else none
  | 20 => if w.extractLsb' 31 1 = 0#1 then some (.maxn (w.extractLsb' 21 5) (w.extractLsb' 16 5) (w.extractLsb' 11 5) (w.extractLsb' 7 4)) else none
  | 21 => if w.extractLsb' 31 1 = 0#1 then some (.sel (w.extractLsb' 21 5) (w.extractLsb' 16 5) (w.extractLsb' 11 5) (w.extractLsb' 7 4)) else none
  | _ => none

/-- Major 0x01, Addi (R51, Table 3). -/
def decodeAddi (w : BitVec 32) : Option Instr :=
  some (.addi (w.extractLsb' 21 11) (w.extractLsb' 16 5) (w.extractLsb' 11 5) (w.extractLsb' 7 4))

/-- Major 0x02, Andi (R51, Table 3). -/
def decodeAndi (w : BitVec 32) : Option Instr :=
  some (.andi (w.extractLsb' 21 11) (w.extractLsb' 16 5) (w.extractLsb' 11 5) (w.extractLsb' 7 4))

/-- Major 0x03, Ori (R51, Table 3). -/
def decodeOri (w : BitVec 32) : Option Instr :=
  some (.ori (w.extractLsb' 21 11) (w.extractLsb' 16 5) (w.extractLsb' 11 5) (w.extractLsb' 7 4))

/-- Major 0x04, Xori (R51, Table 3). -/
def decodeXori (w : BitVec 32) : Option Instr :=
  some (.xori (w.extractLsb' 21 11) (w.extractLsb' 16 5) (w.extractLsb' 11 5) (w.extractLsb' 7 4))

/-- Major 0x05, Shi (R51, Table 3). -/
def decodeShi (w : BitVec 32) : Option Instr :=
  match (w.extractLsb' 27 2).toNat with
  | 0 => if w.extractLsb' 30 2 = 0#2 then some (.shli (w.extractLsb' 29 1) (w.extractLsb' 21 6) (w.extractLsb' 16 5) (w.extractLsb' 11 5) (w.extractLsb' 7 4)) else none
  | 1 => if w.extractLsb' 30 2 = 0#2 then some (.shri (w.extractLsb' 29 1) (w.extractLsb' 21 6) (w.extractLsb' 16 5) (w.extractLsb' 11 5) (w.extractLsb' 7 4)) else none
  | 2 => if w.extractLsb' 30 2 = 0#2 then some (.srai (w.extractLsb' 29 1) (w.extractLsb' 21 6) (w.extractLsb' 16 5) (w.extractLsb' 11 5) (w.extractLsb' 7 4)) else none
  | 3 => if w.extractLsb' 30 2 = 0#2 then some (.roti (w.extractLsb' 29 1) (w.extractLsb' 21 6) (w.extractLsb' 16 5) (w.extractLsb' 11 5) (w.extractLsb' 7 4)) else none
  | _ => none

/-- Major 0x06, Movi (R51, Table 3). -/
def decodeMovi (w : BitVec 32) : Option Instr :=
  some (.movi (w.extractLsb' 16 16) (w.extractLsb' 11 5) (w.extractLsb' 7 4))

/-- Major 0x07, Movs (R51, Table 3). -/
def decodeMovs (w : BitVec 32) : Option Instr :=
  some (.movs (w.extractLsb' 16 16) (w.extractLsb' 11 5) (w.extractLsb' 7 4))

/-- Major 0x08, Unop (R51, Table 3). -/
def decodeUnop (w : BitVec 32) : Option Instr :=
  match (w.extractLsb' 26 6).toNat with
  | 0 => if w.extractLsb' 21 5 = 0#5 then some (.abs (w.extractLsb' 16 5) (w.extractLsb' 11 5) (w.extractLsb' 7 4)) else none
  | 1 => if w.extractLsb' 21 5 = 0#5 then some (.neg (w.extractLsb' 16 5) (w.extractLsb' 11 5) (w.extractLsb' 7 4)) else none
  | 2 => if w.extractLsb' 21 5 = 0#5 then some (.not (w.extractLsb' 16 5) (w.extractLsb' 11 5) (w.extractLsb' 7 4)) else none
  | 3 => if w.extractLsb' 21 5 = 0#5 then some (.clz (w.extractLsb' 16 5) (w.extractLsb' 11 5) (w.extractLsb' 7 4)) else none
  | 4 => if w.extractLsb' 21 5 = 0#5 then some (.ctz (w.extractLsb' 16 5) (w.extractLsb' 11 5) (w.extractLsb' 7 4)) else none
  | 5 => if w.extractLsb' 21 5 = 0#5 then some (.popc (w.extractLsb' 16 5) (w.extractLsb' 11 5) (w.extractLsb' 7 4)) else none
  | 6 => if w.extractLsb' 21 5 = 0#5 then some (.sxb (w.extractLsb' 16 5) (w.extractLsb' 11 5) (w.extractLsb' 7 4)) else none
  | 7 => if w.extractLsb' 21 5 = 0#5 then some (.sxh (w.extractLsb' 16 5) (w.extractLsb' 11 5) (w.extractLsb' 7 4)) else none
  | 8 => if w.extractLsb' 21 5 = 0#5 then some (.sxw (w.extractLsb' 16 5) (w.extractLsb' 11 5) (w.extractLsb' 7 4)) else none
  | 9 => if w.extractLsb' 21 5 = 0#5 then some (.zxb (w.extractLsb' 16 5) (w.extractLsb' 11 5) (w.extractLsb' 7 4)) else none
  | 10 => if w.extractLsb' 21 5 = 0#5 then some (.zxh (w.extractLsb' 16 5) (w.extractLsb' 11 5) (w.extractLsb' 7 4)) else none
  | 11 => if w.extractLsb' 21 5 = 0#5 then some (.zxw (w.extractLsb' 16 5) (w.extractLsb' 11 5) (w.extractLsb' 7 4)) else none
  | 12 => if w.extractLsb' 21 5 = 0#5 then some (.bswap (w.extractLsb' 16 5) (w.extractLsb' 11 5) (w.extractLsb' 7 4)) else none
  | _ => none

/-- Major 0x09, Bfx (R51, Table 3). -/
def decodeBfx (w : BitVec 32) : Option Instr :=
  some (.bfx (w.extractLsb' 27 5) (w.extractLsb' 21 6) (w.extractLsb' 16 5) (w.extractLsb' 11 5) (w.extractLsb' 7 4))

/-- Major 0x0A, Bfi (R51, Table 3). -/
def decodeBfi (w : BitVec 32) : Option Instr :=
  some (.bfi (w.extractLsb' 27 5) (w.extractLsb' 21 6) (w.extractLsb' 16 5) (w.extractLsb' 11 5) (w.extractLsb' 7 4))

/-- Major 0x0B, Cmp (R51, Table 3). -/
def decodeCmp (w : BitVec 32) : Option Instr :=
  match (w.extractLsb' 26 4).toNat with
  | 0 => if w.extractLsb' 31 1 = 0#1 then some (.cmpEq (w.extractLsb' 30 1) (w.extractLsb' 21 5) (w.extractLsb' 16 5) (w.extractLsb' 14 2) (w.extractLsb' 11 3) (w.extractLsb' 7 4)) else none
  | 1 => if w.extractLsb' 31 1 = 0#1 then some (.cmpNe (w.extractLsb' 30 1) (w.extractLsb' 21 5) (w.extractLsb' 16 5) (w.extractLsb' 14 2) (w.extractLsb' 11 3) (w.extractLsb' 7 4)) else none
  | 2 => if w.extractLsb' 31 1 = 0#1 then some (.cmpLt (w.extractLsb' 30 1) (w.extractLsb' 21 5) (w.extractLsb' 16 5) (w.extractLsb' 14 2) (w.extractLsb' 11 3) (w.extractLsb' 7 4)) else none
  | 3 => if w.extractLsb' 31 1 = 0#1 then some (.cmpLe (w.extractLsb' 30 1) (w.extractLsb' 21 5) (w.extractLsb' 16 5) (w.extractLsb' 14 2) (w.extractLsb' 11 3) (w.extractLsb' 7 4)) else none
  | 4 => if w.extractLsb' 31 1 = 0#1 then some (.cmpGt (w.extractLsb' 30 1) (w.extractLsb' 21 5) (w.extractLsb' 16 5) (w.extractLsb' 14 2) (w.extractLsb' 11 3) (w.extractLsb' 7 4)) else none
  | 5 => if w.extractLsb' 31 1 = 0#1 then some (.cmpGe (w.extractLsb' 30 1) (w.extractLsb' 21 5) (w.extractLsb' 16 5) (w.extractLsb' 14 2) (w.extractLsb' 11 3) (w.extractLsb' 7 4)) else none
  | 6 => if w.extractLsb' 31 1 = 0#1 then some (.cmpLtn (w.extractLsb' 30 1) (w.extractLsb' 21 5) (w.extractLsb' 16 5) (w.extractLsb' 14 2) (w.extractLsb' 11 3) (w.extractLsb' 7 4)) else none
  | 7 => if w.extractLsb' 31 1 = 0#1 then some (.cmpLen (w.extractLsb' 30 1) (w.extractLsb' 21 5) (w.extractLsb' 16 5) (w.extractLsb' 14 2) (w.extractLsb' 11 3) (w.extractLsb' 7 4)) else none
  | 8 => if w.extractLsb' 31 1 = 0#1 then some (.cmpGtn (w.extractLsb' 30 1) (w.extractLsb' 21 5) (w.extractLsb' 16 5) (w.extractLsb' 14 2) (w.extractLsb' 11 3) (w.extractLsb' 7 4)) else none
  | 9 => if w.extractLsb' 31 1 = 0#1 then some (.cmpGen (w.extractLsb' 30 1) (w.extractLsb' 21 5) (w.extractLsb' 16 5) (w.extractLsb' 14 2) (w.extractLsb' 11 3) (w.extractLsb' 7 4)) else none
  | _ => none

/-- Major 0x0C, Cmpi (R51, Table 3). -/
def decodeCmpi (w : BitVec 32) : Option Instr :=
  match (w.extractLsb' 26 4).toNat with
  | 0 => if w.extractLsb' 31 1 = 0#1 then some (.cmpiEq (w.extractLsb' 30 1) (w.extractLsb' 21 5) (w.extractLsb' 16 5) (w.extractLsb' 14 2) (w.extractLsb' 11 3) (w.extractLsb' 7 4)) else none
  | 1 => if w.extractLsb' 31 1 = 0#1 then some (.cmpiNe (w.extractLsb' 30 1) (w.extractLsb' 21 5) (w.extractLsb' 16 5) (w.extractLsb' 14 2) (w.extractLsb' 11 3) (w.extractLsb' 7 4)) else none
  | 2 => if w.extractLsb' 31 1 = 0#1 then some (.cmpiLt (w.extractLsb' 30 1) (w.extractLsb' 21 5) (w.extractLsb' 16 5) (w.extractLsb' 14 2) (w.extractLsb' 11 3) (w.extractLsb' 7 4)) else none
  | 3 => if w.extractLsb' 31 1 = 0#1 then some (.cmpiLe (w.extractLsb' 30 1) (w.extractLsb' 21 5) (w.extractLsb' 16 5) (w.extractLsb' 14 2) (w.extractLsb' 11 3) (w.extractLsb' 7 4)) else none
  | 4 => if w.extractLsb' 31 1 = 0#1 then some (.cmpiGt (w.extractLsb' 30 1) (w.extractLsb' 21 5) (w.extractLsb' 16 5) (w.extractLsb' 14 2) (w.extractLsb' 11 3) (w.extractLsb' 7 4)) else none
  | 5 => if w.extractLsb' 31 1 = 0#1 then some (.cmpiGe (w.extractLsb' 30 1) (w.extractLsb' 21 5) (w.extractLsb' 16 5) (w.extractLsb' 14 2) (w.extractLsb' 11 3) (w.extractLsb' 7 4)) else none
  | 6 => if w.extractLsb' 31 1 = 0#1 then some (.cmpiLtn (w.extractLsb' 30 1) (w.extractLsb' 21 5) (w.extractLsb' 16 5) (w.extractLsb' 14 2) (w.extractLsb' 11 3) (w.extractLsb' 7 4)) else none
  | 7 => if w.extractLsb' 31 1 = 0#1 then some (.cmpiLen (w.extractLsb' 30 1) (w.extractLsb' 21 5) (w.extractLsb' 16 5) (w.extractLsb' 14 2) (w.extractLsb' 11 3) (w.extractLsb' 7 4)) else none
  | 8 => if w.extractLsb' 31 1 = 0#1 then some (.cmpiGtn (w.extractLsb' 30 1) (w.extractLsb' 21 5) (w.extractLsb' 16 5) (w.extractLsb' 14 2) (w.extractLsb' 11 3) (w.extractLsb' 7 4)) else none
  | 9 => if w.extractLsb' 31 1 = 0#1 then some (.cmpiGen (w.extractLsb' 30 1) (w.extractLsb' 21 5) (w.extractLsb' 16 5) (w.extractLsb' 14 2) (w.extractLsb' 11 3) (w.extractLsb' 7 4)) else none
  | _ => none

/-- Major 0x0D, Plog (R51, Table 3). -/
def decodePlog (w : BitVec 32) : Option Instr :=
  match (w.extractLsb' 26 6).toNat with
  | 0 => if w.extractLsb' 24 2 = 0#2 ∧ w.extractLsb' 19 2 = 0#2 ∧ w.extractLsb' 14 2 = 0#2 then some (.pand (w.extractLsb' 21 3) (w.extractLsb' 16 3) (w.extractLsb' 11 3) (w.extractLsb' 7 4)) else none
  | 1 => if w.extractLsb' 24 2 = 0#2 ∧ w.extractLsb' 19 2 = 0#2 ∧ w.extractLsb' 14 2 = 0#2 then some (.por (w.extractLsb' 21 3) (w.extractLsb' 16 3) (w.extractLsb' 11 3) (w.extractLsb' 7 4)) else none
  | 2 => if w.extractLsb' 24 2 = 0#2 ∧ w.extractLsb' 19 2 = 0#2 ∧ w.extractLsb' 14 2 = 0#2 then some (.pxor (w.extractLsb' 21 3) (w.extractLsb' 16 3) (w.extractLsb' 11 3) (w.extractLsb' 7 4)) else none
  | 3 => if w.extractLsb' 24 2 = 0#2 ∧ w.extractLsb' 19 2 = 0#2 ∧ w.extractLsb' 14 2 = 0#2 then some (.pandn (w.extractLsb' 21 3) (w.extractLsb' 16 3) (w.extractLsb' 11 3) (w.extractLsb' 7 4)) else none
  | 4 => if w.extractLsb' 19 7 = 0#7 ∧ w.extractLsb' 14 2 = 0#2 then some (.pnot (w.extractLsb' 16 3) (w.extractLsb' 11 3) (w.extractLsb' 7 4)) else none
  | 5 => if w.extractLsb' 19 7 = 0#7 ∧ w.extractLsb' 14 2 = 0#2 then some (.pmov (w.extractLsb' 16 3) (w.extractLsb' 11 3) (w.extractLsb' 7 4)) else none
  | 6 => if w.extractLsb' 16 10 = 0#10 then some (.ppack (w.extractLsb' 11 5) (w.extractLsb' 7 4)) else none
  | 7 => if w.extractLsb' 21 5 = 0#5 ∧ w.extractLsb' 11 5 = 0#5 then some (.punpk (w.extractLsb' 16 5) (w.extractLsb' 7 4)) else none
  | _ => none

/-- Major 0x0E, Lea (R51, Table 3). -/
def decodeLea (w : BitVec 32) : Option Instr :=
  if w.extractLsb' 29 3 = 0#3 then some (.lea (w.extractLsb' 28 1) (w.extractLsb' 26 2) (w.extractLsb' 21 5) (w.extractLsb' 16 5) (w.extractLsb' 11 5) (w.extractLsb' 7 4)) else none

/-- Major 0x0F, Falu (R51, Table 3). -/
def decodeFalu (w : BitVec 32) : Option Instr :=
  match (w.extractLsb' 26 6).toNat with
  | 0 => some (.fadd (w.extractLsb' 21 5) (w.extractLsb' 16 5) (w.extractLsb' 11 5) (w.extractLsb' 7 4))
  | 1 => some (.fsub (w.extractLsb' 21 5) (w.extractLsb' 16 5) (w.extractLsb' 11 5) (w.extractLsb' 7 4))
  | 2 => some (.fmul (w.extractLsb' 21 5) (w.extractLsb' 16 5) (w.extractLsb' 11 5) (w.extractLsb' 7 4))
  | 3 => some (.fdiv (w.extractLsb' 21 5) (w.extractLsb' 16 5) (w.extractLsb' 11 5) (w.extractLsb' 7 4))
  | 4 => if w.extractLsb' 21 5 = 0#5 then some (.fsqrt (w.extractLsb' 16 5) (w.extractLsb' 11 5) (w.extractLsb' 7 4)) else none
  | 5 => some (.fmin (w.extractLsb' 21 5) (w.extractLsb' 16 5) (w.extractLsb' 11 5) (w.extractLsb' 7 4))
  | 6 => some (.fmax (w.extractLsb' 21 5) (w.extractLsb' 16 5) (w.extractLsb' 11 5) (w.extractLsb' 7 4))
  | 7 => if w.extractLsb' 21 5 = 0#5 then some (.fabs (w.extractLsb' 16 5) (w.extractLsb' 11 5) (w.extractLsb' 7 4)) else none
  | 8 => if w.extractLsb' 21 5 = 0#5 then some (.fneg (w.extractLsb' 16 5) (w.extractLsb' 11 5) (w.extractLsb' 7 4)) else none
  | 9 => if w.extractLsb' 21 5 = 0#5 then some (.fmov (w.extractLsb' 16 5) (w.extractLsb' 11 5) (w.extractLsb' 7 4)) else none
  | 10 => if w.extractLsb' 21 5 = 0#5 then some (.fclass (w.extractLsb' 16 5) (w.extractLsb' 11 5) (w.extractLsb' 7 4)) else none
  | 11 => if w.extractLsb' 21 5 = 0#5 then some (.fmvg (w.extractLsb' 16 5) (w.extractLsb' 11 5) (w.extractLsb' 7 4)) else none
  | 12 => if w.extractLsb' 21 5 = 0#5 then some (.fmvf (w.extractLsb' 16 5) (w.extractLsb' 11 5) (w.extractLsb' 7 4)) else none
  | _ => none

/-- Major 0x10, Fma (R51, Table 3). -/
def decodeFma (w : BitVec 32) : Option Instr :=
  match (w.extractLsb' 31 1).toNat with
  | 0 => some (.fma (w.extractLsb' 26 5) (w.extractLsb' 21 5) (w.extractLsb' 16 5) (w.extractLsb' 11 5) (w.extractLsb' 7 4))
  | 1 => some (.fms (w.extractLsb' 26 5) (w.extractLsb' 21 5) (w.extractLsb' 16 5) (w.extractLsb' 11 5) (w.extractLsb' 7 4))
  | _ => none

/-- Major 0x11, Fnma (R51, Table 3). -/
def decodeFnma (w : BitVec 32) : Option Instr :=
  match (w.extractLsb' 31 1).toNat with
  | 0 => some (.fnma (w.extractLsb' 26 5) (w.extractLsb' 21 5) (w.extractLsb' 16 5) (w.extractLsb' 11 5) (w.extractLsb' 7 4))
  | 1 => some (.fnms (w.extractLsb' 26 5) (w.extractLsb' 21 5) (w.extractLsb' 16 5) (w.extractLsb' 11 5) (w.extractLsb' 7 4))
  | _ => none

/-- Major 0x12, Fcvt (R51, Table 3). -/
def decodeFcvt (w : BitVec 32) : Option Instr :=
  some (.fcvt (w.extractLsb' 29 3) (w.extractLsb' 26 3) (w.extractLsb' 21 5) (w.extractLsb' 16 5) (w.extractLsb' 11 5) (w.extractLsb' 7 4))

/-- Major 0x13, Frnd (R51, Table 3). -/
def decodeFrnd (w : BitVec 32) : Option Instr :=
  if w.extractLsb' 21 5 = 0#5 then some (.frnd (w.extractLsb' 30 2) (w.extractLsb' 26 4) (w.extractLsb' 16 5) (w.extractLsb' 11 5) (w.extractLsb' 7 4)) else none

/-- Major 0x14, Fcmp (R51, Table 3). -/
def decodeFcmp (w : BitVec 32) : Option Instr :=
  match (w.extractLsb' 26 6).toNat with
  | 0 => some (.fcmpEq (w.extractLsb' 21 5) (w.extractLsb' 16 5) (w.extractLsb' 14 2) (w.extractLsb' 11 3) (w.extractLsb' 7 4))
  | 1 => some (.fcmpNe (w.extractLsb' 21 5) (w.extractLsb' 16 5) (w.extractLsb' 14 2) (w.extractLsb' 11 3) (w.extractLsb' 7 4))
  | 2 => some (.fcmpLt (w.extractLsb' 21 5) (w.extractLsb' 16 5) (w.extractLsb' 14 2) (w.extractLsb' 11 3) (w.extractLsb' 7 4))
  | 3 => some (.fcmpLe (w.extractLsb' 21 5) (w.extractLsb' 16 5) (w.extractLsb' 14 2) (w.extractLsb' 11 3) (w.extractLsb' 7 4))
  | 4 => some (.fcmpUn (w.extractLsb' 21 5) (w.extractLsb' 16 5) (w.extractLsb' 14 2) (w.extractLsb' 11 3) (w.extractLsb' 7 4))
  | 5 => some (.fcmpOrd (w.extractLsb' 21 5) (w.extractLsb' 16 5) (w.extractLsb' 14 2) (w.extractLsb' 11 3) (w.extractLsb' 7 4))
  | _ => none

/-- Major 0x15, Ld (R51, Table 3). -/
def decodeLd (w : BitVec 32) : Option Instr :=
  some (.ld (w.extractLsb' 27 5) (w.extractLsb' 25 2) (w.extractLsb' 23 2) (w.extractLsb' 21 2) (w.extractLsb' 16 5) (w.extractLsb' 11 5) (w.extractLsb' 7 4))

/-- Major 0x16, St (R51, Table 3). -/
def decodeSt (w : BitVec 32) : Option Instr :=
  some (.st (w.extractLsb' 27 5) (w.extractLsb' 25 2) (w.extractLsb' 23 2) (w.extractLsb' 21 2) (w.extractLsb' 16 5) (w.extractLsb' 11 5) (w.extractLsb' 7 4))

/-- Major 0x17, Ldf (R51, Table 3). -/
def decodeLdf (w : BitVec 32) : Option Instr :=
  match (w.extractLsb' 22 3).toNat with
  | 1 => some (.ldf (w.extractLsb' 27 5) (w.extractLsb' 25 2) (w.extractLsb' 21 1) (w.extractLsb' 16 5) (w.extractLsb' 11 5) (w.extractLsb' 7 4))
  | 3 => some (.ldfE (w.extractLsb' 27 5) (w.extractLsb' 25 2) (w.extractLsb' 21 1) (w.extractLsb' 16 5) (w.extractLsb' 11 5) (w.extractLsb' 7 4))
  | _ => none

/-- Major 0x18, Feop (R51, Table 3). -/
def decodeFeop (w : BitVec 32) : Option Instr :=
  match (w.extractLsb' 26 6).toNat with
  | 0 => if w.extractLsb' 21 5 = 0#5 ∧ w.extractLsb' 11 5 = 0#5 then some (.setf (w.extractLsb' 16 5) (w.extractLsb' 7 4)) else none
  | 1 => if w.extractLsb' 21 5 = 0#5 ∧ w.extractLsb' 11 5 = 0#5 then some (.sete (w.extractLsb' 16 5) (w.extractLsb' 7 4)) else none
  | 2 => if w.extractLsb' 21 5 = 0#5 then some (.testf (w.extractLsb' 16 5) (w.extractLsb' 11 5) (w.extractLsb' 7 4)) else none
  | _ => none

/-- Major 0x19, Amo (R51, Table 3). -/
def decodeAmo (w : BitVec 32) : Option Instr :=
  match (w.extractLsb' 26 4).toNat with
  | 0 => some (.amoAdd (w.extractLsb' 31 1) (w.extractLsb' 30 1) (w.extractLsb' 21 5) (w.extractLsb' 16 5) (w.extractLsb' 11 5) (w.extractLsb' 7 4))
  | 1 => some (.amoAnd (w.extractLsb' 31 1) (w.extractLsb' 30 1) (w.extractLsb' 21 5) (w.extractLsb' 16 5) (w.extractLsb' 11 5) (w.extractLsb' 7 4))
  | 2 => some (.amoOr (w.extractLsb' 31 1) (w.extractLsb' 30 1) (w.extractLsb' 21 5) (w.extractLsb' 16 5) (w.extractLsb' 11 5) (w.extractLsb' 7 4))
  | 3 => some (.amoXor (w.extractLsb' 31 1) (w.extractLsb' 30 1) (w.extractLsb' 21 5) (w.extractLsb' 16 5) (w.extractLsb' 11 5) (w.extractLsb' 7 4))
  | 4 => some (.amoMin (w.extractLsb' 31 1) (w.extractLsb' 30 1) (w.extractLsb' 21 5) (w.extractLsb' 16 5) (w.extractLsb' 11 5) (w.extractLsb' 7 4))
  | 5 => some (.amoMax (w.extractLsb' 31 1) (w.extractLsb' 30 1) (w.extractLsb' 21 5) (w.extractLsb' 16 5) (w.extractLsb' 11 5) (w.extractLsb' 7 4))
  | 6 => some (.amoMinn (w.extractLsb' 31 1) (w.extractLsb' 30 1) (w.extractLsb' 21 5) (w.extractLsb' 16 5) (w.extractLsb' 11 5) (w.extractLsb' 7 4))
  | 7 => some (.amoMaxn (w.extractLsb' 31 1) (w.extractLsb' 30 1) (w.extractLsb' 21 5) (w.extractLsb' 16 5) (w.extractLsb' 11 5) (w.extractLsb' 7 4))
  | 8 => some (.amoXchg (w.extractLsb' 31 1) (w.extractLsb' 30 1) (w.extractLsb' 21 5) (w.extractLsb' 16 5) (w.extractLsb' 11 5) (w.extractLsb' 7 4))
  | 9 => if w.extractLsb' 30 1 = 0#1 then some (.amoFadd (w.extractLsb' 31 1) (w.extractLsb' 21 5) (w.extractLsb' 16 5) (w.extractLsb' 11 5) (w.extractLsb' 7 4)) else none
  | 10 => if w.extractLsb' 30 1 = 0#1 then some (.amoFmin (w.extractLsb' 31 1) (w.extractLsb' 21 5) (w.extractLsb' 16 5) (w.extractLsb' 11 5) (w.extractLsb' 7 4)) else none
  | 11 => if w.extractLsb' 30 1 = 0#1 then some (.amoFmax (w.extractLsb' 31 1) (w.extractLsb' 21 5) (w.extractLsb' 16 5) (w.extractLsb' 11 5) (w.extractLsb' 7 4)) else none
  | _ => none

/-- Major 0x1A, Cas (R51, Table 3). -/
def decodeCas (w : BitVec 32) : Option Instr :=
  if w.extractLsb' 27 5 = 0#5 then some (.cas (w.extractLsb' 26 1) (w.extractLsb' 21 5) (w.extractLsb' 16 5) (w.extractLsb' 11 5) (w.extractLsb' 7 4)) else none

/-- Major 0x1B, Ldc (R51, Table 3). -/
def decodeLdc (w : BitVec 32) : Option Instr :=
  some (.ldc (w.extractLsb' 28 4) (w.extractLsb' 26 2) (w.extractLsb' 21 5) (w.extractLsb' 16 5) (w.extractLsb' 11 5) (w.extractLsb' 7 4))

/-- Major 0x1C, Stc (R51, Table 3). -/
def decodeStc (w : BitVec 32) : Option Instr :=
  some (.stc (w.extractLsb' 28 4) (w.extractLsb' 26 2) (w.extractLsb' 21 5) (w.extractLsb' 16 5) (w.extractLsb' 11 5) (w.extractLsb' 7 4))

/-- Major 0x1D, Amoc (R51, Table 3). -/
def decodeAmoc (w : BitVec 32) : Option Instr :=
  match (w.extractLsb' 26 3).toNat with
  | 0 => some (.amocAdd (w.extractLsb' 29 3) (w.extractLsb' 21 5) (w.extractLsb' 16 5) (w.extractLsb' 11 5) (w.extractLsb' 7 4))
  | 1 => some (.amocFadd (w.extractLsb' 29 3) (w.extractLsb' 21 5) (w.extractLsb' 16 5) (w.extractLsb' 11 5) (w.extractLsb' 7 4))
  | 2 => some (.amocMin (w.extractLsb' 29 3) (w.extractLsb' 21 5) (w.extractLsb' 16 5) (w.extractLsb' 11 5) (w.extractLsb' 7 4))
  | 3 => some (.amocMax (w.extractLsb' 29 3) (w.extractLsb' 21 5) (w.extractLsb' 16 5) (w.extractLsb' 11 5) (w.extractLsb' 7 4))
  | 4 => some (.amocFmax (w.extractLsb' 29 3) (w.extractLsb' 21 5) (w.extractLsb' 16 5) (w.extractLsb' 11 5) (w.extractLsb' 7 4))
  | 5 => some (.amocXchg (w.extractLsb' 29 3) (w.extractLsb' 21 5) (w.extractLsb' 16 5) (w.extractLsb' 11 5) (w.extractLsb' 7 4))
  | _ => none

/-- Major 0x1E, Memctl (R51, Table 3). -/
def decodeMemctl (w : BitVec 32) : Option Instr :=
  match (w.extractLsb' 26 6).toNat with
  | 0 => if w.extractLsb' 23 3 = 0#3 ∧ w.extractLsb' 11 10 = 0#10 then some (.fenceA (w.extractLsb' 21 2) (w.extractLsb' 7 4)) else none
  | 1 => if w.extractLsb' 11 5 = 0#5 then some (.invr (w.extractLsb' 21 5) (w.extractLsb' 16 5) (w.extractLsb' 7 4)) else none
  | 2 => if w.extractLsb' 11 5 = 0#5 then some (.pubr (w.extractLsb' 21 5) (w.extractLsb' 16 5) (w.extractLsb' 7 4)) else none
  | 3 => if w.extractLsb' 11 15 = 0#15 then some (.isync (w.extractLsb' 7 4)) else none
  | 4 => if w.extractLsb' 21 5 = 0#5 ∧ w.extractLsb' 11 5 = 0#5 then some (.pref (w.extractLsb' 16 5) (w.extractLsb' 7 4)) else none
  | 5 => if w.extractLsb' 21 5 = 0#5 ∧ w.extractLsb' 11 5 = 0#5 then some (.clbinv (w.extractLsb' 16 5) (w.extractLsb' 7 4)) else none
  | 8 => if w.extractLsb' 23 3 = 0#3 ∧ w.extractLsb' 11 10 = 0#10 then some (.fenceL (w.extractLsb' 21 2) (w.extractLsb' 7 4)) else none
  | 16 => if w.extractLsb' 23 3 = 0#3 ∧ w.extractLsb' 11 10 = 0#10 then some (.fenceAl (w.extractLsb' 21 2) (w.extractLsb' 7 4)) else none
  | _ => none

/-- Major 0x1F, Br (R51, Table 3). -/
def decodeBr (w : BitVec 32) : Option Instr :=
  some (.br (w.extractLsb' 11 21) (w.extractLsb' 7 4))

/-- Major 0x20, Jal (R51, Table 3). -/
def decodeJal (w : BitVec 32) : Option Instr :=
  some (.jal (w.extractLsb' 11 21) (w.extractLsb' 7 4))

/-- Major 0x21, Jalr (R51, Table 3). -/
def decodeJalr (w : BitVec 32) : Option Instr :=
  some (.jalr (w.extractLsb' 21 11) (w.extractLsb' 16 5) (w.extractLsb' 11 5) (w.extractLsb' 7 4))

/-- Major 0x22, Loop (R51, Table 3). -/
def decodeLoop (w : BitVec 32) : Option Instr :=
  if w.extractLsb' 11 5 = 0#5 then some (.loop (w.extractLsb' 21 11) (w.extractLsb' 16 5) (w.extractLsb' 7 4)) else none

/-- Major 0x23, Send (R51, Table 3). -/
def decodeSend (w : BitVec 32) : Option Instr :=
  some (.send (w.extractLsb' 24 8) (w.extractLsb' 23 1) (w.extractLsb' 21 2) (w.extractLsb' 16 5) (w.extractLsb' 11 5) (w.extractLsb' 7 4))

/-- Major 0x24, Sendx (R51, Table 3). -/
def decodeSendx (w : BitVec 32) : Option Instr :=
  if w.extractLsb' 23 9 = 0#9 then some (.sendx (w.extractLsb' 21 2) (w.extractLsb' 16 5) (w.extractLsb' 11 5) (w.extractLsb' 7 4)) else none

/-- Major 0x25, Spawn (R51, Table 3). -/
def decodeSpawn (w : BitVec 32) : Option Instr :=
  if w.extractLsb' 26 6 = 0#6 then some (.spawn (w.extractLsb' 21 5) (w.extractLsb' 16 5) (w.extractLsb' 11 5) (w.extractLsb' 7 4)) else none

/-- Major 0x26, Task (R51, Table 3). -/
def decodeTask (w : BitVec 32) : Option Instr :=
  match (w.extractLsb' 26 6).toNat with
  | 0 => some (.trec (w.extractLsb' 21 5) (w.extractLsb' 16 5) (w.extractLsb' 11 5) (w.extractLsb' 7 4))
  | 1 => if w.extractLsb' 21 5 = 0#5 ∧ w.extractLsb' 11 5 = 0#5 then some (.dec (w.extractLsb' 16 5) (w.extractLsb' 7 4)) else none
  | 2 => if w.extractLsb' 11 5 = 0#5 then some (.tarm (w.extractLsb' 21 5) (w.extractLsb' 16 5) (w.extractLsb' 7 4)) else none
  | 3 => if w.extractLsb' 11 15 = 0#15 then some (.tend (w.extractLsb' 7 4)) else none
  | 4 => if w.extractLsb' 21 5 = 0#5 then some (.elect (w.extractLsb' 16 5) (w.extractLsb' 11 5) (w.extractLsb' 7 4)) else none
  | 5 => if w.extractLsb' 21 5 = 0#5 then some (.tinfo (w.extractLsb' 16 5) (w.extractLsb' 11 5) (w.extractLsb' 7 4)) else none
  | 9 => if w.extractLsb' 21 5 = 0#5 ∧ w.extractLsb' 11 5 = 0#5 then some (.decL (w.extractLsb' 16 5) (w.extractLsb' 7 4)) else none
  | _ => none

/-- Major 0x27, Work (R51, Table 3). -/
def decodeWork (w : BitVec 32) : Option Instr :=
  match (w.extractLsb' 26 6).toNat with
  | 0 => if w.extractLsb' 21 5 = 0#5 ∧ w.extractLsb' 11 5 = 0#5 then some (.phdecl (w.extractLsb' 16 5) (w.extractLsb' 7 4)) else none
  | 1 => if w.extractLsb' 21 5 = 0#5 then some (.phstat (w.extractLsb' 16 5) (w.extractLsb' 11 5) (w.extractLsb' 7 4)) else none
  | 2 =>
    match (w.extractLsb' 21 5).toNat with
    | 0 => if w.extractLsb' 11 5 = 0#5 then some (.cancelLaunch (w.extractLsb' 16 5) (w.extractLsb' 7 4)) else none
    | 1 => if w.extractLsb' 11 5 = 0#5 then some (.cancelGraph (w.extractLsb' 16 5) (w.extractLsb' 7 4)) else none
    | 2 => if w.extractLsb' 11 5 = 0#5 then some (.cancelPhase (w.extractLsb' 16 5) (w.extractLsb' 7 4)) else none
    | 3 => if w.extractLsb' 11 5 = 0#5 then some (.cancelJob (w.extractLsb' 16 5) (w.extractLsb' 7 4)) else none
    | _ => none
  | _ => none

/-- Major 0x28, Qsem (R51, Table 3). -/
def decodeQsem (w : BitVec 32) : Option Instr :=
  match (w.extractLsb' 26 6).toNat with
  | 0 => if w.extractLsb' 19 7 = 0#7 then some (.qtest (w.extractLsb' 16 3) (w.extractLsb' 11 5) (w.extractLsb' 7 4)) else none
  | 1 => if w.extractLsb' 19 7 = 0#7 ∧ w.extractLsb' 11 5 = 0#5 then some (.qclose (w.extractLsb' 16 3) (w.extractLsb' 7 4)) else none
  | 2 => if w.extractLsb' 19 2 = 0#2 ∧ w.extractLsb' 11 5 = 0#5 then some (.qbind (w.extractLsb' 21 5) (w.extractLsb' 16 3) (w.extractLsb' 7 4)) else none
  | 3 => if w.extractLsb' 20 6 = 0#6 ∧ w.extractLsb' 11 5 = 0#5 then some (.semp (w.extractLsb' 16 4) (w.extractLsb' 7 4)) else none
  | 4 => if w.extractLsb' 20 6 = 0#6 ∧ w.extractLsb' 11 5 = 0#5 then some (.semv (w.extractLsb' 16 4) (w.extractLsb' 7 4)) else none
  | 5 => if w.extractLsb' 21 5 = 0#5 ∧ w.extractLsb' 11 5 = 0#5 then some (.vgo (w.extractLsb' 16 5) (w.extractLsb' 7 4)) else none
  | _ => none

/-- Major 0x29, Tmap (R51, Table 3). -/
def decodeTmap (w : BitVec 32) : Option Instr :=
  match (w.extractLsb' 26 6).toNat with
  | 0 => if w.extractLsb' 21 5 = 0#5 ∧ w.extractLsb' 15 1 = 0#1 then some (.tmset (w.extractLsb' 16 5) (w.extractLsb' 11 4) (w.extractLsb' 7 4)) else none
  | 1 => if w.extractLsb' 21 5 = 0#5 ∧ w.extractLsb' 15 1 = 0#1 then some (.tmget (w.extractLsb' 16 5) (w.extractLsb' 11 4) (w.extractLsb' 7 4)) else none
  | 2 => if w.extractLsb' 21 5 = 0#5 ∧ w.extractLsb' 15 1 = 0#1 then some (.tmofs (w.extractLsb' 16 5) (w.extractLsb' 11 4) (w.extractLsb' 7 4)) else none
  | _ => none

/-- Major 0x2A, Copy (R51, Table 3). -/
def decodeCopy (w : BitVec 32) : Option Instr :=
  if w.extractLsb' 26 6 = 0#6 ∧ w.extractLsb' 19 4 = 0#4 then some (.copy (w.extractLsb' 23 3) (w.extractLsb' 15 4) (w.extractLsb' 11 4) (w.extractLsb' 7 4)) else none

/-- Major 0x2B, Gath (R51, Table 3). -/
def decodeGath (w : BitVec 32) : Option Instr :=
  if w.extractLsb' 26 6 = 0#6 then some (.gath (w.extractLsb' 23 3) (w.extractLsb' 19 4) (w.extractLsb' 15 4) (w.extractLsb' 11 4) (w.extractLsb' 7 4)) else none

/-- Major 0x2C, Scat (R51, Table 3). -/
def decodeScat (w : BitVec 32) : Option Instr :=
  match (w.extractLsb' 26 6).toNat with
  | 0 => some (.scat (w.extractLsb' 23 3) (w.extractLsb' 19 4) (w.extractLsb' 15 4) (w.extractLsb' 11 4) (w.extractLsb' 7 4))
  | 1 => some (.scatAdd (w.extractLsb' 23 3) (w.extractLsb' 19 4) (w.extractLsb' 15 4) (w.extractLsb' 11 4) (w.extractLsb' 7 4))
  | _ => none

/-- Major 0x2D, Kops (R51, Table 3). -/
def decodeKops (w : BitVec 32) : Option Instr :=
  match (w.extractLsb' 26 6).toNat with
  | 0 => some (.kagg (w.extractLsb' 23 3) (w.extractLsb' 19 4) (w.extractLsb' 15 4) (w.extractLsb' 11 4) (w.extractLsb' 7 4))
  | 1 => some (.kbcast (w.extractLsb' 23 3) (w.extractLsb' 19 4) (w.extractLsb' 15 4) (w.extractLsb' 11 4) (w.extractLsb' 7 4))
  | 2 => some (.kisect (w.extractLsb' 23 3) (w.extractLsb' 19 4) (w.extractLsb' 15 4) (w.extractLsb' 11 4) (w.extractLsb' 7 4))
  | 3 => if w.extractLsb' 15 4 = 0#4 then some (.kfold (w.extractLsb' 23 3) (w.extractLsb' 19 4) (w.extractLsb' 11 4) (w.extractLsb' 7 4)) else none
  | 4 => if w.extractLsb' 19 4 = 0#4 then some (.kdirty (w.extractLsb' 23 3) (w.extractLsb' 15 4) (w.extractLsb' 11 4) (w.extractLsb' 7 4)) else none
  | 8 => some (.kaggO (w.extractLsb' 23 3) (w.extractLsb' 19 4) (w.extractLsb' 15 4) (w.extractLsb' 11 4) (w.extractLsb' 7 4))
  | _ => none

/-- Major 0x2E, Conv (R51, Table 3). -/
def decodeConv (w : BitVec 32) : Option Instr :=
  match (w.extractLsb' 26 1).toNat with
  | 0 => if w.extractLsb' 31 1 = 0#1 ∧ w.extractLsb' 19 4 = 0#4 then some (.convt (w.extractLsb' 30 1) (w.extractLsb' 27 3) (w.extractLsb' 23 3) (w.extractLsb' 15 4) (w.extractLsb' 11 4) (w.extractLsb' 7 4)) else none
  | 1 => if w.extractLsb' 28 4 = 0#4 then some (.compress (w.extractLsb' 27 1) (w.extractLsb' 23 3) (w.extractLsb' 19 4) (w.extractLsb' 15 4) (w.extractLsb' 11 4) (w.extractLsb' 7 4)) else none
  | _ => none

/-- Major 0x2F, Mma (R51, Table 3). -/
def decodeMma (w : BitVec 32) : Option Instr :=
  match (w.extractLsb' 30 1).toNat with
  | 0 => if w.extractLsb' 11 4 = 0#4 then some (.mma (w.extractLsb' 31 1) (w.extractLsb' 29 1) (w.extractLsb' 28 1) (w.extractLsb' 26 2) (w.extractLsb' 23 3) (w.extractLsb' 19 4) (w.extractLsb' 15 4) (w.extractLsb' 7 4)) else none
  | 1 => some (.mmas (w.extractLsb' 31 1) (w.extractLsb' 29 1) (w.extractLsb' 28 1) (w.extractLsb' 26 2) (w.extractLsb' 23 3) (w.extractLsb' 19 4) (w.extractLsb' 15 4) (w.extractLsb' 11 4) (w.extractLsb' 7 4))
  | _ => none

/-- Major 0x30, Macc (R51, Table 3). -/
def decodeMacc (w : BitVec 32) : Option Instr :=
  match (w.extractLsb' 26 2).toNat with
  | 0 => if w.extractLsb' 30 2 = 0#2 ∧ w.extractLsb' 11 12 = 0#12 then some (.mzero (w.extractLsb' 28 2) (w.extractLsb' 23 3) (w.extractLsb' 7 4)) else none
  | 1 => if w.extractLsb' 30 2 = 0#2 ∧ w.extractLsb' 19 4 = 0#4 ∧ w.extractLsb' 11 4 = 0#4 then some (.mldacc (w.extractLsb' 28 2) (w.extractLsb' 23 3) (w.extractLsb' 15 4) (w.extractLsb' 7 4)) else none
  | 2 => if w.extractLsb' 30 2 = 0#2 ∧ w.extractLsb' 15 8 = 0#8 then some (.mstacc (w.extractLsb' 28 2) (w.extractLsb' 23 3) (w.extractLsb' 11 4) (w.extractLsb' 7 4)) else none
  | _ => none

/-- Major 0x31, Bfpa (R51, Table 3). -/
def decodeBfpa (w : BitVec 32) : Option Instr :=
  if w.extractLsb' 26 6 = 0#6 then some (.bfpa (w.extractLsb' 23 3) (w.extractLsb' 19 4) (w.extractLsb' 15 4) (w.extractLsb' 11 4) (w.extractLsb' 7 4)) else none

/-- Major 0x32, Vault (R51, Table 3). -/
def decodeVault (w : BitVec 32) : Option Instr :=
  match (w.extractLsb' 26 6).toNat with
  | 0 => if w.extractLsb' 21 5 = 0#5 ∧ w.extractLsb' 11 5 = 0#5 then some (.resize (w.extractLsb' 16 5) (w.extractLsb' 7 4)) else none
  | 1 => if w.extractLsb' 21 5 = 0#5 then some (.volalloc (w.extractLsb' 16 5) (w.extractLsb' 11 5) (w.extractLsb' 7 4)) else none
  | 2 => if w.extractLsb' 11 5 = 0#5 then some (.volfree (w.extractLsb' 21 5) (w.extractLsb' 16 5) (w.extractLsb' 7 4)) else none
  | 3 => if w.extractLsb' 11 5 = 0#5 then some (.stash (w.extractLsb' 21 5) (w.extractLsb' 16 5) (w.extractLsb' 7 4)) else none
  | 4 => if w.extractLsb' 21 5 = 0#5 then some (.unstash (w.extractLsb' 16 5) (w.extractLsb' 11 5) (w.extractLsb' 7 4)) else none
  | 5 => if w.extractLsb' 11 5 = 0#5 then some (.flq (w.extractLsb' 21 5) (w.extractLsb' 16 5) (w.extractLsb' 7 4)) else none
  | _ => none

/-- Major 0x33, Sys (R51, Table 3). -/
def decodeSys (w : BitVec 32) : Option Instr :=
  match (w.extractLsb' 26 6).toNat with
  | 0 => if w.extractLsb' 21 5 = 0#5 ∧ w.extractLsb' 11 5 = 0#5 then some (.trap (w.extractLsb' 16 5) (w.extractLsb' 7 4)) else none
  | 1 => if w.extractLsb' 11 15 = 0#15 then some (.tret (w.extractLsb' 7 4)) else none
  | 2 => if w.extractLsb' 21 5 = 0#5 ∧ w.extractLsb' 11 5 = 0#5 then some (.ctxkill (w.extractLsb' 16 5) (w.extractLsb' 7 4)) else none
  | _ => none

/-- Major 0x34, Csrr (R51, Table 3). -/
def decodeCsrr (w : BitVec 32) : Option Instr :=
  if w.extractLsb' 16 5 = 0#5 then some (.csrr (w.extractLsb' 21 11) (w.extractLsb' 11 5) (w.extractLsb' 7 4)) else none

/-- Major 0x35, Csrw (R51, Table 3). -/
def decodeCsrw (w : BitVec 32) : Option Instr :=
  if w.extractLsb' 11 5 = 0#5 then some (.csrw (w.extractLsb' 21 11) (w.extractLsb' 16 5) (w.extractLsb' 7 4)) else none

/-- Major 0x36, Csrx (R51, Table 3). -/
def decodeCsrx (w : BitVec 32) : Option Instr :=
  some (.csrx (w.extractLsb' 21 11) (w.extractLsb' 16 5) (w.extractLsb' 11 5) (w.extractLsb' 7 4))

/-- Major 0x38, Varith (R51, Table 3). -/
def decodeVarith (w : BitVec 32) : Option Instr :=
  match (w.extractLsb' 26 6).toNat with
  | 0 => some (.vadd (w.extractLsb' 23 3) (w.extractLsb' 19 4) (w.extractLsb' 15 4) (w.extractLsb' 11 4) (w.extractLsb' 7 4))
  | 1 => some (.vsub (w.extractLsb' 23 3) (w.extractLsb' 19 4) (w.extractLsb' 15 4) (w.extractLsb' 11 4) (w.extractLsb' 7 4))
  | 2 => some (.vmul (w.extractLsb' 23 3) (w.extractLsb' 19 4) (w.extractLsb' 15 4) (w.extractLsb' 11 4) (w.extractLsb' 7 4))
  | 3 => some (.vfma (w.extractLsb' 23 3) (w.extractLsb' 19 4) (w.extractLsb' 15 4) (w.extractLsb' 11 4) (w.extractLsb' 7 4))
  | 4 => some (.vfms (w.extractLsb' 23 3) (w.extractLsb' 19 4) (w.extractLsb' 15 4) (w.extractLsb' 11 4) (w.extractLsb' 7 4))
  | 5 => some (.vmin (w.extractLsb' 23 3) (w.extractLsb' 19 4) (w.extractLsb' 15 4) (w.extractLsb' 11 4) (w.extractLsb' 7 4))
  | 6 => some (.vmax (w.extractLsb' 23 3) (w.extractLsb' 19 4) (w.extractLsb' 15 4) (w.extractLsb' 11 4) (w.extractLsb' 7 4))
  | 7 => if w.extractLsb' 19 4 = 0#4 then some (.vabs (w.extractLsb' 23 3) (w.extractLsb' 15 4) (w.extractLsb' 11 4) (w.extractLsb' 7 4)) else none
  | 8 => if w.extractLsb' 19 4 = 0#4 then some (.vneg (w.extractLsb' 23 3) (w.extractLsb' 15 4) (w.extractLsb' 11 4) (w.extractLsb' 7 4)) else none
  | 9 => if w.extractLsb' 19 4 = 0#4 then some (.vmov (w.extractLsb' 23 3) (w.extractLsb' 15 4) (w.extractLsb' 11 4) (w.extractLsb' 7 4)) else none
  | _ => none

/-- Major 0x39, Vlogic (R51, Table 3). -/
def decodeVlogic (w : BitVec 32) : Option Instr :=
  match (w.extractLsb' 26 6).toNat with
  | 0 => some (.vand (w.extractLsb' 23 3) (w.extractLsb' 19 4) (w.extractLsb' 15 4) (w.extractLsb' 11 4) (w.extractLsb' 7 4))
  | 1 => some (.vor (w.extractLsb' 23 3) (w.extractLsb' 19 4) (w.extractLsb' 15 4) (w.extractLsb' 11 4) (w.extractLsb' 7 4))
  | 2 => some (.vxor (w.extractLsb' 23 3) (w.extractLsb' 19 4) (w.extractLsb' 15 4) (w.extractLsb' 11 4) (w.extractLsb' 7 4))
  | 3 => some (.vshl (w.extractLsb' 23 3) (w.extractLsb' 19 4) (w.extractLsb' 15 4) (w.extractLsb' 11 4) (w.extractLsb' 7 4))
  | 4 => some (.vshr (w.extractLsb' 23 3) (w.extractLsb' 19 4) (w.extractLsb' 15 4) (w.extractLsb' 11 4) (w.extractLsb' 7 4))
  | 5 => some (.vsra (w.extractLsb' 23 3) (w.extractLsb' 19 4) (w.extractLsb' 15 4) (w.extractLsb' 11 4) (w.extractLsb' 7 4))
  | _ => none

/-- Major 0x3A, Vcmps (R51, Table 3). -/
def decodeVcmps (w : BitVec 32) : Option Instr :=
  match (w.extractLsb' 26 6).toNat with
  | 0 => if w.extractLsb' 14 1 = 0#1 then some (.vcmpEq (w.extractLsb' 23 3) (w.extractLsb' 19 4) (w.extractLsb' 15 4) (w.extractLsb' 11 3) (w.extractLsb' 7 4)) else none
  | 1 => if w.extractLsb' 23 3 = 0#3 then some (.vsel (w.extractLsb' 19 4) (w.extractLsb' 15 4) (w.extractLsb' 11 4) (w.extractLsb' 7 4)) else none
  | 2 => if w.extractLsb' 22 4 = 0#4 ∧ w.extractLsb' 18 1 = 0#1 ∧ w.extractLsb' 14 1 = 0#1 ∧ w.extractLsb' 7 4 = 0#4 then some (.vmand (w.extractLsb' 19 3) (w.extractLsb' 15 3) (w.extractLsb' 11 3)) else none
  | 3 => if w.extractLsb' 22 4 = 0#4 ∧ w.extractLsb' 18 1 = 0#1 ∧ w.extractLsb' 14 1 = 0#1 ∧ w.extractLsb' 7 4 = 0#4 then some (.vmor (w.extractLsb' 19 3) (w.extractLsb' 15 3) (w.extractLsb' 11 3)) else none
  | 4 => if w.extractLsb' 18 8 = 0#8 ∧ w.extractLsb' 14 1 = 0#1 ∧ w.extractLsb' 7 4 = 0#4 then some (.vmnot (w.extractLsb' 15 3) (w.extractLsb' 11 3)) else none
  | 8 => if w.extractLsb' 14 1 = 0#1 then some (.vcmpNe (w.extractLsb' 23 3) (w.extractLsb' 19 4) (w.extractLsb' 15 4) (w.extractLsb' 11 3) (w.extractLsb' 7 4)) else none
  | 16 => if w.extractLsb' 14 1 = 0#1 then some (.vcmpLt (w.extractLsb' 23 3) (w.extractLsb' 19 4) (w.extractLsb' 15 4) (w.extractLsb' 11 3) (w.extractLsb' 7 4)) else none
  | 24 => if w.extractLsb' 14 1 = 0#1 then some (.vcmpLe (w.extractLsb' 23 3) (w.extractLsb' 19 4) (w.extractLsb' 15 4) (w.extractLsb' 11 3) (w.extractLsb' 7 4)) else none
  | 32 => if w.extractLsb' 14 1 = 0#1 then some (.vcmpGt (w.extractLsb' 23 3) (w.extractLsb' 19 4) (w.extractLsb' 15 4) (w.extractLsb' 11 3) (w.extractLsb' 7 4)) else none
  | 40 => if w.extractLsb' 14 1 = 0#1 then some (.vcmpGe (w.extractLsb' 23 3) (w.extractLsb' 19 4) (w.extractLsb' 15 4) (w.extractLsb' 11 3) (w.extractLsb' 7 4)) else none
  | 48 => if w.extractLsb' 14 1 = 0#1 then some (.vcmpUn (w.extractLsb' 23 3) (w.extractLsb' 19 4) (w.extractLsb' 15 4) (w.extractLsb' 11 3) (w.extractLsb' 7 4)) else none
  | 56 => if w.extractLsb' 14 1 = 0#1 then some (.vcmpOrd (w.extractLsb' 23 3) (w.extractLsb' 19 4) (w.extractLsb' 15 4) (w.extractLsb' 11 3) (w.extractLsb' 7 4)) else none
  | _ => none

/-- Major 0x3B, Vmem (R51, Table 3). -/
noncomputable def decodeVmem (w : BitVec 32) : Option Instr :=
  match (w.extractLsb' 26 6).toNat with
  | 0 => if w.extractLsb' 19 7 = 0#7 then some (.vld (w.extractLsb' 15 4) (w.extractLsb' 11 4) (w.extractLsb' 7 4)) else none
  | 1 => if w.extractLsb' 19 7 = 0#7 then some (.vst (w.extractLsb' 15 4) (w.extractLsb' 11 4) (w.extractLsb' 7 4)) else none
  | 2 => if w.extractLsb' 23 3 = 0#3 then some (.vlds (w.extractLsb' 19 4) (w.extractLsb' 15 4) (w.extractLsb' 11 4) (w.extractLsb' 7 4)) else none
  | 3 => if w.extractLsb' 23 3 = 0#3 then some (.vsts (w.extractLsb' 19 4) (w.extractLsb' 15 4) (w.extractLsb' 11 4) (w.extractLsb' 7 4)) else none
  | 4 => if w.extractLsb' 23 3 = 0#3 then some (.vgath (w.extractLsb' 19 4) (w.extractLsb' 15 4) (w.extractLsb' 11 4) (w.extractLsb' 7 4)) else none
  | 5 => if w.extractLsb' 23 3 = 0#3 then some (.vscat (w.extractLsb' 19 4) (w.extractLsb' 15 4) (w.extractLsb' 11 4) (w.extractLsb' 7 4)) else none
  | _ => none

/-- Major 0x3C, Vq (R51, Table 3). -/
noncomputable def decodeVq (w : BitVec 32) : Option Instr :=
  match (w.extractLsb' 26 6).toNat with
  | 0 => if w.extractLsb' 18 8 = 0#8 then some (.vldq (w.extractLsb' 15 3) (w.extractLsb' 11 4) (w.extractLsb' 7 4)) else none
  | 1 => if w.extractLsb' 19 7 = 0#7 ∧ w.extractLsb' 14 1 = 0#1 then some (.vstq (w.extractLsb' 15 4) (w.extractLsb' 11 3) (w.extractLsb' 7 4)) else none
  | 2 => if w.extractLsb' 18 8 = 0#8 then some (.vbcq (w.extractLsb' 15 3) (w.extractLsb' 11 4) (w.extractLsb' 7 4)) else none
  | 3 => if w.extractLsb' 20 6 = 0#6 ∧ w.extractLsb' 7 8 = 0#8 then some (.vend (w.extractLsb' 19 1) (w.extractLsb' 15 4)) else none
  | _ => none

/-- Major 0x3D, Vred (R51, Table 3). -/
noncomputable def decodeVred (w : BitVec 32) : Option Instr :=
  match (w.extractLsb' 26 6).toNat with
  | 0 => if w.extractLsb' 19 4 = 0#4 then some (.vredAdd (w.extractLsb' 23 3) (w.extractLsb' 15 4) (w.extractLsb' 11 4) (w.extractLsb' 7 4)) else none
  | 1 => if w.extractLsb' 19 4 = 0#4 then some (.vscanAdd (w.extractLsb' 23 3) (w.extractLsb' 15 4) (w.extractLsb' 11 4) (w.extractLsb' 7 4)) else none
  | 2 => if w.extractLsb' 23 3 = 0#3 then some (.vperm (w.extractLsb' 19 4) (w.extractLsb' 15 4) (w.extractLsb' 11 4) (w.extractLsb' 7 4)) else none
  | 3 => if w.extractLsb' 19 7 = 0#7 then some (.vbcast (w.extractLsb' 15 4) (w.extractLsb' 11 4) (w.extractLsb' 7 4)) else none
  | 4 => if w.extractLsb' 19 4 = 0#4 then some (.vredMin (w.extractLsb' 23 3) (w.extractLsb' 15 4) (w.extractLsb' 11 4) (w.extractLsb' 7 4)) else none
  | 5 => if w.extractLsb' 19 4 = 0#4 then some (.vscanMin (w.extractLsb' 23 3) (w.extractLsb' 15 4) (w.extractLsb' 11 4) (w.extractLsb' 7 4)) else none
  | 8 => if w.extractLsb' 19 4 = 0#4 then some (.vredMax (w.extractLsb' 23 3) (w.extractLsb' 15 4) (w.extractLsb' 11 4) (w.extractLsb' 7 4)) else none
  | 9 => if w.extractLsb' 19 4 = 0#4 then some (.vscanMax (w.extractLsb' 23 3) (w.extractLsb' 15 4) (w.extractLsb' 11 4) (w.extractLsb' 7 4)) else none
  | 12 => if w.extractLsb' 19 4 = 0#4 then some (.vredAnd (w.extractLsb' 23 3) (w.extractLsb' 15 4) (w.extractLsb' 11 4) (w.extractLsb' 7 4)) else none
  | 13 => if w.extractLsb' 19 4 = 0#4 then some (.vscanAnd (w.extractLsb' 23 3) (w.extractLsb' 15 4) (w.extractLsb' 11 4) (w.extractLsb' 7 4)) else none
  | 16 => if w.extractLsb' 19 4 = 0#4 then some (.vredOr (w.extractLsb' 23 3) (w.extractLsb' 15 4) (w.extractLsb' 11 4) (w.extractLsb' 7 4)) else none
  | 17 => if w.extractLsb' 19 4 = 0#4 then some (.vscanOr (w.extractLsb' 23 3) (w.extractLsb' 15 4) (w.extractLsb' 11 4) (w.extractLsb' 7 4)) else none
  | 20 => if w.extractLsb' 19 4 = 0#4 then some (.vredXor (w.extractLsb' 23 3) (w.extractLsb' 15 4) (w.extractLsb' 11 4) (w.extractLsb' 7 4)) else none
  | 21 => if w.extractLsb' 19 4 = 0#4 then some (.vscanXor (w.extractLsb' 23 3) (w.extractLsb' 15 4) (w.extractLsb' 11 4) (w.extractLsb' 7 4)) else none
  | _ => none

/-- Major 0x3E, Vcvt (R51, Table 3). -/
noncomputable def decodeVcvt (w : BitVec 32) : Option Instr :=
  match (w.extractLsb' 26 2).toNat with
  | 0 => if w.extractLsb' 31 1 = 0#1 ∧ w.extractLsb' 22 1 = 0#1 then some (.vcvt (w.extractLsb' 28 3) (w.extractLsb' 23 3) (w.extractLsb' 19 3) (w.extractLsb' 15 4) (w.extractLsb' 11 4) (w.extractLsb' 7 4)) else none
  | 1 => if w.extractLsb' 21 5 = 0#5 then some (.vrnd (w.extractLsb' 28 4) (w.extractLsb' 19 2) (w.extractLsb' 15 4) (w.extractLsb' 11 4) (w.extractLsb' 7 4)) else none
  | 2 => if w.extractLsb' 28 4 = 0#4 then some (.vthresh (w.extractLsb' 23 3) (w.extractLsb' 19 4) (w.extractLsb' 15 4) (w.extractLsb' 11 4) (w.extractLsb' 7 4)) else none
  | _ => none

/-- Major 0x3F, Vmath (R51, Table 3). -/
noncomputable def decodeVmath (w : BitVec 32) : Option Instr :=
  match (w.extractLsb' 26 6).toNat with
  | 0 => if w.extractLsb' 19 7 = 0#7 then some (.vexp (w.extractLsb' 15 4) (w.extractLsb' 11 4) (w.extractLsb' 7 4)) else none
  | 1 => if w.extractLsb' 19 7 = 0#7 then some (.vlog (w.extractLsb' 15 4) (w.extractLsb' 11 4) (w.extractLsb' 7 4)) else none
  | 2 => if w.extractLsb' 19 7 = 0#7 then some (.vrcp (w.extractLsb' 15 4) (w.extractLsb' 11 4) (w.extractLsb' 7 4)) else none
  | 3 => if w.extractLsb' 19 7 = 0#7 then some (.vrsq (w.extractLsb' 15 4) (w.extractLsb' 11 4) (w.extractLsb' 7 4)) else none
  | _ => none

/-- BR of a vector stream (R158). -/
noncomputable def decodeStreamBr (w : BitVec 32) : Option Instr :=
  some (.streamBr (w.extractLsb' 11 21) (w.extractLsb' 7 4))

/-- LOOP of a vector stream (R158). -/
noncomputable def decodeStreamLoop (w : BitVec 32) : Option Instr :=
  if w.extractLsb' 19 2 = 1#2 ∧ w.extractLsb' 11 5 = 0#5 then some (.streamLoop (w.extractLsb' 21 11) (w.extractLsb' 16 3) (w.extractLsb' 7 4)) else none

/-- A 32-bit word of a task by its major opcode, bits [6:1] over bit [0] = 1 (R49, R51). -/
def decodeScalar (w : BitVec 32) : Option Instr :=
  match (w.extractLsb' 0 7).toNat with
  | 1 => decodeAlu w
  | 3 => decodeAddi w
  | 5 => decodeAndi w
  | 7 => decodeOri w
  | 9 => decodeXori w
  | 11 => decodeShi w
  | 13 => decodeMovi w
  | 15 => decodeMovs w
  | 17 => decodeUnop w
  | 19 => decodeBfx w
  | 21 => decodeBfi w
  | 23 => decodeCmp w
  | 25 => decodeCmpi w
  | 27 => decodePlog w
  | 29 => decodeLea w
  | 31 => decodeFalu w
  | 33 => decodeFma w
  | 35 => decodeFnma w
  | 37 => decodeFcvt w
  | 39 => decodeFrnd w
  | 41 => decodeFcmp w
  | 43 => decodeLd w
  | 45 => decodeSt w
  | 47 => decodeLdf w
  | 49 => decodeFeop w
  | 51 => decodeAmo w
  | 53 => decodeCas w
  | 55 => decodeLdc w
  | 57 => decodeStc w
  | 59 => decodeAmoc w
  | 61 => decodeMemctl w
  | 63 => decodeBr w
  | 65 => decodeJal w
  | 67 => decodeJalr w
  | 69 => decodeLoop w
  | 71 => decodeSend w
  | 73 => decodeSendx w
  | 75 => decodeSpawn w
  | 77 => decodeTask w
  | 79 => decodeWork w
  | 81 => decodeQsem w
  | 83 => decodeTmap w
  | 85 => decodeCopy w
  | 87 => decodeGath w
  | 89 => decodeScat w
  | 91 => decodeKops w
  | 93 => decodeConv w
  | 95 => decodeMma w
  | 97 => decodeMacc w
  | 99 => decodeBfpa w
  | 101 => decodeVault w
  | 103 => decodeSys w
  | 105 => decodeCsrr w
  | 107 => decodeCsrw w
  | 109 => decodeCsrx w
  | _ => none

/-- Any 32-bit word by its major opcode (R49, R51). `stream` is true for a word met in a vector stream, where majors
0x1F and 0x22 are the stream forms of BR and LOOP (R158). -/
noncomputable def decodeRaw32 (stream : Bool) (w : BitVec 32) : Option Instr :=
  match (w.extractLsb' 0 7).toNat with
  | 63 => if stream then decodeStreamBr w else decodeScalar w
  | 69 => if stream then decodeStreamLoop w else decodeScalar w
  | 113 => decodeVarith w
  | 115 => decodeVlogic w
  | 117 => decodeVcmps w
  | 119 => decodeVmem w
  | 121 => decodeVq w
  | 123 => decodeVred w
  | 125 => decodeVcvt w
  | 127 => decodeVmath w
  | _ => decodeScalar w

/-- A 16-bit compact instruction (R48, Table 1). -/
def decodeRaw16 (h : BitVec 16) : Option Instr :=
  if h.extractLsb' 0 1 = 0#1 then
    match (h.extractLsb' 1 4).toNat with
    | 0 => some (.cIll (h.extractLsb' 5 11))
    | 1 => if h.extractLsb' 5 11 = 0#11 then some .cNop else none
    | 2 => if h.extractLsb' 13 3 = 0#3 then some (.cMov (h.extractLsb' 9 4) (h.extractLsb' 5 4)) else none
    | 3 => if h.extractLsb' 13 3 = 0#3 then some (.cAdd (h.extractLsb' 9 4) (h.extractLsb' 5 4)) else none
    | 4 => if h.extractLsb' 13 3 = 0#3 then some (.cSub (h.extractLsb' 9 4) (h.extractLsb' 5 4)) else none
    | 5 => some (.cAddi (h.extractLsb' 9 7) (h.extractLsb' 5 4))
    | 6 => if h.extractLsb' 15 1 = 0#1 then some (.cShli (h.extractLsb' 9 6) (h.extractLsb' 5 4)) else none
    | 7 => some (.cLdw (h.extractLsb' 13 3) (h.extractLsb' 9 4) (h.extractLsb' 5 4))
    | 8 => some (.cStw (h.extractLsb' 13 3) (h.extractLsb' 9 4) (h.extractLsb' 5 4))
    | 9 => some (.cLdd (h.extractLsb' 13 3) (h.extractLsb' 9 4) (h.extractLsb' 5 4))
    | 10 => some (.cStd (h.extractLsb' 13 3) (h.extractLsb' 9 4) (h.extractLsb' 5 4))
    | 11 => if h.extractLsb' 5 4 = 0#4 then some (.cBr (h.extractLsb' 9 7)) else none
    | 12 => some (.cBnz (h.extractLsb' 9 7) (h.extractLsb' 5 4))
    | 13 => if h.extractLsb' 13 3 = 0#3 ∧ h.extractLsb' 5 4 = 0#4 then some (.cCall (h.extractLsb' 9 4)) else none
    | 14 => if h.extractLsb' 5 11 = 0#11 then some .cRet else none
    | 15 => if h.extractLsb' 5 11 = 0#11 then some .cTend else none
    | _ => none
  else none

/-- The bits of an instruction (R47 to R51): a 32-bit word, a compact halfword, or nothing for a step of the device. -/
inductive Encoded where
  | none
  | half (h : BitVec 16)
  | word (w : BitVec 32)
  deriving DecidableEq, Repr

/-- The encoding of an instruction, field by field from bit 31 (or 15) down, as Tables 1 and 3 lay it out. -/
def encode : Instr → Encoded
  | .add w b a d g => .word (w ++ 0#5 ++ b ++ a ++ d ++ g ++ 1#7)
  | .sub w b a d g => .word (w ++ 1#5 ++ b ++ a ++ d ++ g ++ 1#7)
  | .mul w b a d g => .word (w ++ 2#5 ++ b ++ a ++ d ++ g ++ 1#7)
  | .mulh w b a d g => .word (w ++ 3#5 ++ b ++ a ++ d ++ g ++ 1#7)
  | .mulhn w b a d g => .word (w ++ 4#5 ++ b ++ a ++ d ++ g ++ 1#7)
  | .div w b a d g => .word (w ++ 5#5 ++ b ++ a ++ d ++ g ++ 1#7)
  | .divn w b a d g => .word (w ++ 6#5 ++ b ++ a ++ d ++ g ++ 1#7)
  | .rem w b a d g => .word (w ++ 7#5 ++ b ++ a ++ d ++ g ++ 1#7)
  | .remn w b a d g => .word (w ++ 8#5 ++ b ++ a ++ d ++ g ++ 1#7)
  | .and b a d g => .word (0#1 ++ 9#5 ++ b ++ a ++ d ++ g ++ 1#7)
  | .or b a d g => .word (0#1 ++ 10#5 ++ b ++ a ++ d ++ g ++ 1#7)
  | .xor b a d g => .word (0#1 ++ 11#5 ++ b ++ a ++ d ++ g ++ 1#7)
  | .andn b a d g => .word (0#1 ++ 12#5 ++ b ++ a ++ d ++ g ++ 1#7)
  | .shl w b a d g => .word (w ++ 13#5 ++ b ++ a ++ d ++ g ++ 1#7)
  | .shr w b a d g => .word (w ++ 14#5 ++ b ++ a ++ d ++ g ++ 1#7)
  | .sra w b a d g => .word (w ++ 15#5 ++ b ++ a ++ d ++ g ++ 1#7)
  | .rot w b a d g => .word (w ++ 16#5 ++ b ++ a ++ d ++ g ++ 1#7)
  | .min b a d g => .word (0#1 ++ 17#5 ++ b ++ a ++ d ++ g ++ 1#7)
  | .max b a d g => .word (0#1 ++ 18#5 ++ b ++ a ++ d ++ g ++ 1#7)
  | .minn b a d g => .word (0#1 ++ 19#5 ++ b ++ a ++ d ++ g ++ 1#7)
  | .maxn b a d g => .word (0#1 ++ 20#5 ++ b ++ a ++ d ++ g ++ 1#7)
  | .sel b a d s => .word (0#1 ++ 21#5 ++ b ++ a ++ d ++ s ++ 1#7)
  | .addi i a d g => .word (i ++ a ++ d ++ g ++ 3#7)
  | .andi i a d g => .word (i ++ a ++ d ++ g ++ 5#7)
  | .ori i a d g => .word (i ++ a ++ d ++ g ++ 7#7)
  | .xori i a d g => .word (i ++ a ++ d ++ g ++ 9#7)
  | .shli w s a d g => .word (0#2 ++ w ++ 0#2 ++ s ++ a ++ d ++ g ++ 11#7)
  | .shri w s a d g => .word (0#2 ++ w ++ 1#2 ++ s ++ a ++ d ++ g ++ 11#7)
  | .srai w s a d g => .word (0#2 ++ w ++ 2#2 ++ s ++ a ++ d ++ g ++ 11#7)
  | .roti w s a d g => .word (0#2 ++ w ++ 3#2 ++ s ++ a ++ d ++ g ++ 11#7)
  | .movi i d g => .word (i ++ d ++ g ++ 13#7)
  | .movs i d g => .word (i ++ d ++ g ++ 15#7)
  | .abs a d g => .word (0#6 ++ 0#5 ++ a ++ d ++ g ++ 17#7)
  | .neg a d g => .word (1#6 ++ 0#5 ++ a ++ d ++ g ++ 17#7)
  | .not a d g => .word (2#6 ++ 0#5 ++ a ++ d ++ g ++ 17#7)
  | .clz a d g => .word (3#6 ++ 0#5 ++ a ++ d ++ g ++ 17#7)
  | .ctz a d g => .word (4#6 ++ 0#5 ++ a ++ d ++ g ++ 17#7)
  | .popc a d g => .word (5#6 ++ 0#5 ++ a ++ d ++ g ++ 17#7)
  | .sxb a d g => .word (6#6 ++ 0#5 ++ a ++ d ++ g ++ 17#7)
  | .sxh a d g => .word (7#6 ++ 0#5 ++ a ++ d ++ g ++ 17#7)
  | .sxw a d g => .word (8#6 ++ 0#5 ++ a ++ d ++ g ++ 17#7)
  | .zxb a d g => .word (9#6 ++ 0#5 ++ a ++ d ++ g ++ 17#7)
  | .zxh a d g => .word (10#6 ++ 0#5 ++ a ++ d ++ g ++ 17#7)
  | .zxw a d g => .word (11#6 ++ 0#5 ++ a ++ d ++ g ++ 17#7)
  | .bswap a d g => .word (12#6 ++ 0#5 ++ a ++ d ++ g ++ 17#7)
  | .bfx l p a d g => .word (l ++ p ++ a ++ d ++ g ++ 19#7)
  | .bfi l p a d g => .word (l ++ p ++ a ++ d ++ g ++ 21#7)
  | .cmpEq w b a o d g => .word (0#1 ++ w ++ 0#4 ++ b ++ a ++ o ++ d ++ g ++ 23#7)
  | .cmpNe w b a o d g => .word (0#1 ++ w ++ 1#4 ++ b ++ a ++ o ++ d ++ g ++ 23#7)
  | .cmpLt w b a o d g => .word (0#1 ++ w ++ 2#4 ++ b ++ a ++ o ++ d ++ g ++ 23#7)
  | .cmpLe w b a o d g => .word (0#1 ++ w ++ 3#4 ++ b ++ a ++ o ++ d ++ g ++ 23#7)
  | .cmpGt w b a o d g => .word (0#1 ++ w ++ 4#4 ++ b ++ a ++ o ++ d ++ g ++ 23#7)
  | .cmpGe w b a o d g => .word (0#1 ++ w ++ 5#4 ++ b ++ a ++ o ++ d ++ g ++ 23#7)
  | .cmpLtn w b a o d g => .word (0#1 ++ w ++ 6#4 ++ b ++ a ++ o ++ d ++ g ++ 23#7)
  | .cmpLen w b a o d g => .word (0#1 ++ w ++ 7#4 ++ b ++ a ++ o ++ d ++ g ++ 23#7)
  | .cmpGtn w b a o d g => .word (0#1 ++ w ++ 8#4 ++ b ++ a ++ o ++ d ++ g ++ 23#7)
  | .cmpGen w b a o d g => .word (0#1 ++ w ++ 9#4 ++ b ++ a ++ o ++ d ++ g ++ 23#7)
  | .cmpiEq w i a o d g => .word (0#1 ++ w ++ 0#4 ++ i ++ a ++ o ++ d ++ g ++ 25#7)
  | .cmpiNe w i a o d g => .word (0#1 ++ w ++ 1#4 ++ i ++ a ++ o ++ d ++ g ++ 25#7)
  | .cmpiLt w i a o d g => .word (0#1 ++ w ++ 2#4 ++ i ++ a ++ o ++ d ++ g ++ 25#7)
  | .cmpiLe w i a o d g => .word (0#1 ++ w ++ 3#4 ++ i ++ a ++ o ++ d ++ g ++ 25#7)
  | .cmpiGt w i a o d g => .word (0#1 ++ w ++ 4#4 ++ i ++ a ++ o ++ d ++ g ++ 25#7)
  | .cmpiGe w i a o d g => .word (0#1 ++ w ++ 5#4 ++ i ++ a ++ o ++ d ++ g ++ 25#7)
  | .cmpiLtn w i a o d g => .word (0#1 ++ w ++ 6#4 ++ i ++ a ++ o ++ d ++ g ++ 25#7)
  | .cmpiLen w i a o d g => .word (0#1 ++ w ++ 7#4 ++ i ++ a ++ o ++ d ++ g ++ 25#7)
  | .cmpiGtn w i a o d g => .word (0#1 ++ w ++ 8#4 ++ i ++ a ++ o ++ d ++ g ++ 25#7)
  | .cmpiGen w i a o d g => .word (0#1 ++ w ++ 9#4 ++ i ++ a ++ o ++ d ++ g ++ 25#7)
  | .pand b a d g => .word (0#6 ++ 0#2 ++ b ++ 0#2 ++ a ++ 0#2 ++ d ++ g ++ 27#7)
  | .por b a d g => .word (1#6 ++ 0#2 ++ b ++ 0#2 ++ a ++ 0#2 ++ d ++ g ++ 27#7)
  | .pxor b a d g => .word (2#6 ++ 0#2 ++ b ++ 0#2 ++ a ++ 0#2 ++ d ++ g ++ 27#7)
  | .pandn b a d g => .word (3#6 ++ 0#2 ++ b ++ 0#2 ++ a ++ 0#2 ++ d ++ g ++ 27#7)
  | .pnot a d g => .word (4#6 ++ 0#7 ++ a ++ 0#2 ++ d ++ g ++ 27#7)
  | .pmov a d g => .word (5#6 ++ 0#7 ++ a ++ 0#2 ++ d ++ g ++ 27#7)
  | .ppack d g => .word (6#6 ++ 0#10 ++ d ++ g ++ 27#7)
  | .punpk a g => .word (7#6 ++ 0#5 ++ a ++ 0#5 ++ g ++ 27#7)
  | .lea w s b a d g => .word (0#3 ++ w ++ s ++ b ++ a ++ d ++ g ++ 29#7)
  | .fadd b a d g => .word (0#6 ++ b ++ a ++ d ++ g ++ 31#7)
  | .fsub b a d g => .word (1#6 ++ b ++ a ++ d ++ g ++ 31#7)
  | .fmul b a d g => .word (2#6 ++ b ++ a ++ d ++ g ++ 31#7)
  | .fdiv b a d g => .word (3#6 ++ b ++ a ++ d ++ g ++ 31#7)
  | .fsqrt a d g => .word (4#6 ++ 0#5 ++ a ++ d ++ g ++ 31#7)
  | .fmin b a d g => .word (5#6 ++ b ++ a ++ d ++ g ++ 31#7)
  | .fmax b a d g => .word (6#6 ++ b ++ a ++ d ++ g ++ 31#7)
  | .fabs a d g => .word (7#6 ++ 0#5 ++ a ++ d ++ g ++ 31#7)
  | .fneg a d g => .word (8#6 ++ 0#5 ++ a ++ d ++ g ++ 31#7)
  | .fmov a d g => .word (9#6 ++ 0#5 ++ a ++ d ++ g ++ 31#7)
  | .fclass a d g => .word (10#6 ++ 0#5 ++ a ++ d ++ g ++ 31#7)
  | .fmvg a d g => .word (11#6 ++ 0#5 ++ a ++ d ++ g ++ 31#7)
  | .fmvf a d g => .word (12#6 ++ 0#5 ++ a ++ d ++ g ++ 31#7)
  | .fma c b a d g => .word (0#1 ++ c ++ b ++ a ++ d ++ g ++ 33#7)
  | .fms c b a d g => .word (1#1 ++ c ++ b ++ a ++ d ++ g ++ 33#7)
  | .fnma c b a d g => .word (0#1 ++ c ++ b ++ a ++ d ++ g ++ 35#7)
  | .fnms c b a d g => .word (1#1 ++ c ++ b ++ a ++ d ++ g ++ 35#7)
  | .fcvt s t r a d g => .word (s ++ t ++ r ++ a ++ d ++ g ++ 37#7)
  | .frnd t k a d g => .word (t ++ k ++ 0#5 ++ a ++ d ++ g ++ 39#7)
  | .fcmpEq b a o d g => .word (0#6 ++ b ++ a ++ o ++ d ++ g ++ 41#7)
  | .fcmpNe b a o d g => .word (1#6 ++ b ++ a ++ o ++ d ++ g ++ 41#7)
  | .fcmpLt b a o d g => .word (2#6 ++ b ++ a ++ o ++ d ++ g ++ 41#7)
  | .fcmpLe b a o d g => .word (3#6 ++ b ++ a ++ o ++ d ++ g ++ 41#7)
  | .fcmpUn b a o d g => .word (4#6 ++ b ++ a ++ o ++ d ++ g ++ 41#7)
  | .fcmpOrd b a o d g => .word (5#6 ++ b ++ a ++ o ++ d ++ g ++ 41#7)
  | .ld o p k s a d g => .word (o ++ p ++ k ++ s ++ a ++ d ++ g ++ 43#7)
  | .st o p k s a d g => .word (o ++ p ++ k ++ s ++ a ++ d ++ g ++ 45#7)
  | .ldf o p s a d g => .word (o ++ p ++ 1#3 ++ s ++ a ++ d ++ g ++ 47#7)
  | .ldfE o p s a d g => .word (o ++ p ++ 3#3 ++ s ++ a ++ d ++ g ++ 47#7)
  | .setf a g => .word (0#6 ++ 0#5 ++ a ++ 0#5 ++ g ++ 49#7)
  | .sete a g => .word (1#6 ++ 0#5 ++ a ++ 0#5 ++ g ++ 49#7)
  | .testf a d g => .word (2#6 ++ 0#5 ++ a ++ d ++ g ++ 49#7)
  | .amoAdd p s b a d g => .word (p ++ s ++ 0#4 ++ b ++ a ++ d ++ g ++ 51#7)
  | .amoAnd p s b a d g => .word (p ++ s ++ 1#4 ++ b ++ a ++ d ++ g ++ 51#7)
  | .amoOr p s b a d g => .word (p ++ s ++ 2#4 ++ b ++ a ++ d ++ g ++ 51#7)
  | .amoXor p s b a d g => .word (p ++ s ++ 3#4 ++ b ++ a ++ d ++ g ++ 51#7)
  | .amoMin p s b a d g => .word (p ++ s ++ 4#4 ++ b ++ a ++ d ++ g ++ 51#7)
  | .amoMax p s b a d g => .word (p ++ s ++ 5#4 ++ b ++ a ++ d ++ g ++ 51#7)
  | .amoMinn p s b a d g => .word (p ++ s ++ 6#4 ++ b ++ a ++ d ++ g ++ 51#7)
  | .amoMaxn p s b a d g => .word (p ++ s ++ 7#4 ++ b ++ a ++ d ++ g ++ 51#7)
  | .amoXchg p s b a d g => .word (p ++ s ++ 8#4 ++ b ++ a ++ d ++ g ++ 51#7)
  | .amoFadd p b a d g => .word (p ++ 0#1 ++ 9#4 ++ b ++ a ++ d ++ g ++ 51#7)
  | .amoFmin p b a d g => .word (p ++ 0#1 ++ 10#4 ++ b ++ a ++ d ++ g ++ 51#7)
  | .amoFmax p b a d g => .word (p ++ 0#1 ++ 11#4 ++ b ++ a ++ d ++ g ++ 51#7)
  | .cas s b a d g => .word (0#5 ++ s ++ b ++ a ++ d ++ g ++ 53#7)
  | .ldc i s b a d g => .word (i ++ s ++ b ++ a ++ d ++ g ++ 55#7)
  | .stc i s b a d g => .word (i ++ s ++ b ++ a ++ d ++ g ++ 57#7)
  | .amocAdd w b a d g => .word (w ++ 0#3 ++ b ++ a ++ d ++ g ++ 59#7)
  | .amocFadd w b a d g => .word (w ++ 1#3 ++ b ++ a ++ d ++ g ++ 59#7)
  | .amocMin w b a d g => .word (w ++ 2#3 ++ b ++ a ++ d ++ g ++ 59#7)
  | .amocMax w b a d g => .word (w ++ 3#3 ++ b ++ a ++ d ++ g ++ 59#7)
  | .amocFmax w b a d g => .word (w ++ 4#3 ++ b ++ a ++ d ++ g ++ 59#7)
  | .amocXchg w b a d g => .word (w ++ 5#3 ++ b ++ a ++ d ++ g ++ 59#7)
  | .fenceA s g => .word (0#6 ++ 0#3 ++ s ++ 0#10 ++ g ++ 61#7)
  | .fenceL s g => .word (8#6 ++ 0#3 ++ s ++ 0#10 ++ g ++ 61#7)
  | .fenceAl s g => .word (16#6 ++ 0#3 ++ s ++ 0#10 ++ g ++ 61#7)
  | .invr b a g => .word (1#6 ++ b ++ a ++ 0#5 ++ g ++ 61#7)
  | .pubr b a g => .word (2#6 ++ b ++ a ++ 0#5 ++ g ++ 61#7)
  | .isync g => .word (3#6 ++ 0#15 ++ g ++ 61#7)
  | .pref a g => .word (4#6 ++ 0#5 ++ a ++ 0#5 ++ g ++ 61#7)
  | .clbinv a g => .word (5#6 ++ 0#5 ++ a ++ 0#5 ++ g ++ 61#7)
  | .br d g => .word (d ++ g ++ 63#7)
  | .jal d g => .word (d ++ g ++ 65#7)
  | .jalr i a d g => .word (i ++ a ++ d ++ g ++ 67#7)
  | .loop i a g => .word (i ++ a ++ 0#5 ++ g ++ 69#7)
  | .send c r n b a g => .word (c ++ r ++ n ++ b ++ a ++ g ++ 71#7)
  | .sendx n b a g => .word (0#9 ++ n ++ b ++ a ++ g ++ 73#7)
  | .spawn b a d g => .word (0#6 ++ b ++ a ++ d ++ g ++ 75#7)
  | .trec b a d g => .word (0#6 ++ b ++ a ++ d ++ g ++ 77#7)
  | .dec a g => .word (1#6 ++ 0#5 ++ a ++ 0#5 ++ g ++ 77#7)
  | .decL a g => .word (9#6 ++ 0#5 ++ a ++ 0#5 ++ g ++ 77#7)
  | .tarm b a g => .word (2#6 ++ b ++ a ++ 0#5 ++ g ++ 77#7)
  | .tend g => .word (3#6 ++ 0#15 ++ g ++ 77#7)
  | .elect a d g => .word (4#6 ++ 0#5 ++ a ++ d ++ g ++ 77#7)
  | .tinfo a d g => .word (5#6 ++ 0#5 ++ a ++ d ++ g ++ 77#7)
  | .phdecl a g => .word (0#6 ++ 0#5 ++ a ++ 0#5 ++ g ++ 79#7)
  | .phstat a d g => .word (1#6 ++ 0#5 ++ a ++ d ++ g ++ 79#7)
  | .cancelLaunch a g => .word (2#6 ++ 0#5 ++ a ++ 0#5 ++ g ++ 79#7)
  | .cancelGraph a g => .word (2#6 ++ 1#5 ++ a ++ 0#5 ++ g ++ 79#7)
  | .cancelPhase a g => .word (2#6 ++ 2#5 ++ a ++ 0#5 ++ g ++ 79#7)
  | .cancelJob a g => .word (2#6 ++ 3#5 ++ a ++ 0#5 ++ g ++ 79#7)
  | .qtest q d g => .word (0#6 ++ 0#7 ++ q ++ d ++ g ++ 81#7)
  | .qclose q g => .word (1#6 ++ 0#7 ++ q ++ 0#5 ++ g ++ 81#7)
  | .qbind b q g => .word (2#6 ++ b ++ 0#2 ++ q ++ 0#5 ++ g ++ 81#7)
  | .semp s g => .word (3#6 ++ 0#6 ++ s ++ 0#5 ++ g ++ 81#7)
  | .sempServe _ _ => .none
  | .semv s g => .word (4#6 ++ 0#6 ++ s ++ 0#5 ++ g ++ 81#7)
  | .vgo a g => .word (5#6 ++ 0#5 ++ a ++ 0#5 ++ g ++ 81#7)
  | .tmset a t g => .word (0#6 ++ 0#5 ++ a ++ 0#1 ++ t ++ g ++ 83#7)
  | .tmget a t g => .word (1#6 ++ 0#5 ++ a ++ 0#1 ++ t ++ g ++ 83#7)
  | .tmofs a t g => .word (2#6 ++ 0#5 ++ a ++ 0#1 ++ t ++ g ++ 83#7)
  | .copy q a d g => .word (0#6 ++ q ++ 0#4 ++ a ++ d ++ g ++ 85#7)
  | .gath q b a d g => .word (0#6 ++ q ++ b ++ a ++ d ++ g ++ 87#7)
  | .scat q b a d g => .word (0#6 ++ q ++ b ++ a ++ d ++ g ++ 89#7)
  | .scatAdd q b a d g => .word (1#6 ++ q ++ b ++ a ++ d ++ g ++ 89#7)
  | .kagg q b a d g => .word (0#6 ++ q ++ b ++ a ++ d ++ g ++ 91#7)
  | .kaggO q b a d g => .word (8#6 ++ q ++ b ++ a ++ d ++ g ++ 91#7)
  | .kbcast q b a d g => .word (1#6 ++ q ++ b ++ a ++ d ++ g ++ 91#7)
  | .kisect q b a d g => .word (2#6 ++ q ++ b ++ a ++ d ++ g ++ 91#7)
  | .kfold q b d g => .word (3#6 ++ q ++ b ++ 0#4 ++ d ++ g ++ 91#7)
  | .kdirty q a d g => .word (4#6 ++ q ++ 0#4 ++ a ++ d ++ g ++ 91#7)
  | .convt h m q a d g => .word (0#1 ++ h ++ m ++ 0#1 ++ q ++ 0#4 ++ a ++ d ++ g ++ 93#7)
  | .compress p q b a d g => .word (0#4 ++ p ++ 1#1 ++ q ++ b ++ a ++ d ++ g ++ 93#7)
  | .mma u k j z q b a g => .word (u ++ 0#1 ++ k ++ j ++ z ++ q ++ b ++ a ++ 0#4 ++ g ++ 95#7)
  | .mmas u k j z q b a d g => .word (u ++ 1#1 ++ k ++ j ++ z ++ q ++ b ++ a ++ d ++ g ++ 95#7)
  | .mzero z q g => .word (0#2 ++ z ++ 0#2 ++ q ++ 0#12 ++ g ++ 97#7)
  | .mldacc z q a g => .word (0#2 ++ z ++ 1#2 ++ q ++ 0#4 ++ a ++ 0#4 ++ g ++ 97#7)
  | .mstacc z q d g => .word (0#2 ++ z ++ 2#2 ++ q ++ 0#8 ++ d ++ g ++ 97#7)
  | .bfpa q b a d g => .word (0#6 ++ q ++ b ++ a ++ d ++ g ++ 99#7)
  | .resize a g => .word (0#6 ++ 0#5 ++ a ++ 0#5 ++ g ++ 101#7)
  | .volalloc a d g => .word (1#6 ++ 0#5 ++ a ++ d ++ g ++ 101#7)
  | .volfree b a g => .word (2#6 ++ b ++ a ++ 0#5 ++ g ++ 101#7)
  | .stash b a g => .word (3#6 ++ b ++ a ++ 0#5 ++ g ++ 101#7)
  | .unstash a d g => .word (4#6 ++ 0#5 ++ a ++ d ++ g ++ 101#7)
  | .flq b a g => .word (5#6 ++ b ++ a ++ 0#5 ++ g ++ 101#7)
  | .trap a g => .word (0#6 ++ 0#5 ++ a ++ 0#5 ++ g ++ 103#7)
  | .tret g => .word (1#6 ++ 0#15 ++ g ++ 103#7)
  | .ctxkill a g => .word (2#6 ++ 0#5 ++ a ++ 0#5 ++ g ++ 103#7)
  | .csrr c d g => .word (c ++ 0#5 ++ d ++ g ++ 105#7)
  | .csrw c a g => .word (c ++ a ++ 0#5 ++ g ++ 107#7)
  | .csrx c a d g => .word (c ++ a ++ d ++ g ++ 109#7)
  | .cIll x => .half (x ++ 0#4 ++ 0#1)
  | .cNop => .half (0#11 ++ 1#4 ++ 0#1)
  | .cMov a d => .half (0#3 ++ a ++ d ++ 2#4 ++ 0#1)
  | .cAdd a d => .half (0#3 ++ a ++ d ++ 3#4 ++ 0#1)
  | .cSub a d => .half (0#3 ++ a ++ d ++ 4#4 ++ 0#1)
  | .cAddi i d => .half (i ++ d ++ 5#4 ++ 0#1)
  | .cShli s d => .half (0#1 ++ s ++ d ++ 6#4 ++ 0#1)
  | .cLdw i a d => .half (i ++ a ++ d ++ 7#4 ++ 0#1)
  | .cStw i a d => .half (i ++ a ++ d ++ 8#4 ++ 0#1)
  | .cLdd i a d => .half (i ++ a ++ d ++ 9#4 ++ 0#1)
  | .cStd i a d => .half (i ++ a ++ d ++ 10#4 ++ 0#1)
  | .cBr i => .half (i ++ 0#4 ++ 11#4 ++ 0#1)
  | .cBnz i d => .half (i ++ d ++ 12#4 ++ 0#1)
  | .cCall a => .half (0#3 ++ a ++ 0#4 ++ 13#4 ++ 0#1)
  | .cRet => .half (0#11 ++ 14#4 ++ 0#1)
  | .cTend => .half (0#11 ++ 15#4 ++ 0#1)
  | .vadd t b a d m => .word (0#6 ++ t ++ b ++ a ++ d ++ m ++ 113#7)
  | .vsub t b a d m => .word (1#6 ++ t ++ b ++ a ++ d ++ m ++ 113#7)
  | .vmul t b a d m => .word (2#6 ++ t ++ b ++ a ++ d ++ m ++ 113#7)
  | .vfma t b a d m => .word (3#6 ++ t ++ b ++ a ++ d ++ m ++ 113#7)
  | .vfms t b a d m => .word (4#6 ++ t ++ b ++ a ++ d ++ m ++ 113#7)
  | .vmin t b a d m => .word (5#6 ++ t ++ b ++ a ++ d ++ m ++ 113#7)
  | .vmax t b a d m => .word (6#6 ++ t ++ b ++ a ++ d ++ m ++ 113#7)
  | .vabs t a d m => .word (7#6 ++ t ++ 0#4 ++ a ++ d ++ m ++ 113#7)
  | .vneg t a d m => .word (8#6 ++ t ++ 0#4 ++ a ++ d ++ m ++ 113#7)
  | .vmov t a d m => .word (9#6 ++ t ++ 0#4 ++ a ++ d ++ m ++ 113#7)
  | .vand t b a d m => .word (0#6 ++ t ++ b ++ a ++ d ++ m ++ 115#7)
  | .vor t b a d m => .word (1#6 ++ t ++ b ++ a ++ d ++ m ++ 115#7)
  | .vxor t b a d m => .word (2#6 ++ t ++ b ++ a ++ d ++ m ++ 115#7)
  | .vshl t b a d m => .word (3#6 ++ t ++ b ++ a ++ d ++ m ++ 115#7)
  | .vshr t b a d m => .word (4#6 ++ t ++ b ++ a ++ d ++ m ++ 115#7)
  | .vsra t b a d m => .word (5#6 ++ t ++ b ++ a ++ d ++ m ++ 115#7)
  | .vcmpEq t b a d m => .word (0#6 ++ t ++ b ++ a ++ 0#1 ++ d ++ m ++ 117#7)
  | .vcmpNe t b a d m => .word (8#6 ++ t ++ b ++ a ++ 0#1 ++ d ++ m ++ 117#7)
  | .vcmpLt t b a d m => .word (16#6 ++ t ++ b ++ a ++ 0#1 ++ d ++ m ++ 117#7)
  | .vcmpLe t b a d m => .word (24#6 ++ t ++ b ++ a ++ 0#1 ++ d ++ m ++ 117#7)
  | .vcmpGt t b a d m => .word (32#6 ++ t ++ b ++ a ++ 0#1 ++ d ++ m ++ 117#7)
  | .vcmpGe t b a d m => .word (40#6 ++ t ++ b ++ a ++ 0#1 ++ d ++ m ++ 117#7)
  | .vcmpUn t b a d m => .word (48#6 ++ t ++ b ++ a ++ 0#1 ++ d ++ m ++ 117#7)
  | .vcmpOrd t b a d m => .word (56#6 ++ t ++ b ++ a ++ 0#1 ++ d ++ m ++ 117#7)
  | .vsel b a d s => .word (1#6 ++ 0#3 ++ b ++ a ++ d ++ s ++ 117#7)
  | .vmand b a d => .word (2#6 ++ 0#4 ++ b ++ 0#1 ++ a ++ 0#1 ++ d ++ 0#4 ++ 117#7)
  | .vmor b a d => .word (3#6 ++ 0#4 ++ b ++ 0#1 ++ a ++ 0#1 ++ d ++ 0#4 ++ 117#7)
  | .vmnot a d => .word (4#6 ++ 0#8 ++ a ++ 0#1 ++ d ++ 0#4 ++ 117#7)
  | .vld a d m => .word (0#6 ++ 0#7 ++ a ++ d ++ m ++ 119#7)
  | .vst a d m => .word (1#6 ++ 0#7 ++ a ++ d ++ m ++ 119#7)
  | .vlds b a d m => .word (2#6 ++ 0#3 ++ b ++ a ++ d ++ m ++ 119#7)
  | .vsts b a d m => .word (3#6 ++ 0#3 ++ b ++ a ++ d ++ m ++ 119#7)
  | .vgath b a d m => .word (4#6 ++ 0#3 ++ b ++ a ++ d ++ m ++ 119#7)
  | .vscat b a d m => .word (5#6 ++ 0#3 ++ b ++ a ++ d ++ m ++ 119#7)
  | .vldq q d m => .word (0#6 ++ 0#8 ++ q ++ d ++ m ++ 121#7)
  | .vstq a q m => .word (1#6 ++ 0#7 ++ a ++ 0#1 ++ q ++ m ++ 121#7)
  | .vbcq q d m => .word (2#6 ++ 0#8 ++ q ++ d ++ m ++ 121#7)
  | .vend f s => .word (3#6 ++ 0#6 ++ f ++ s ++ 0#8 ++ 121#7)
  | .vredAdd t a d m => .word (0#6 ++ t ++ 0#4 ++ a ++ d ++ m ++ 123#7)
  | .vredMin t a d m => .word (4#6 ++ t ++ 0#4 ++ a ++ d ++ m ++ 123#7)
  | .vredMax t a d m => .word (8#6 ++ t ++ 0#4 ++ a ++ d ++ m ++ 123#7)
  | .vredAnd t a d m => .word (12#6 ++ t ++ 0#4 ++ a ++ d ++ m ++ 123#7)
  | .vredOr t a d m => .word (16#6 ++ t ++ 0#4 ++ a ++ d ++ m ++ 123#7)
  | .vredXor t a d m => .word (20#6 ++ t ++ 0#4 ++ a ++ d ++ m ++ 123#7)
  | .vscanAdd t a d m => .word (1#6 ++ t ++ 0#4 ++ a ++ d ++ m ++ 123#7)
  | .vscanMin t a d m => .word (5#6 ++ t ++ 0#4 ++ a ++ d ++ m ++ 123#7)
  | .vscanMax t a d m => .word (9#6 ++ t ++ 0#4 ++ a ++ d ++ m ++ 123#7)
  | .vscanAnd t a d m => .word (13#6 ++ t ++ 0#4 ++ a ++ d ++ m ++ 123#7)
  | .vscanOr t a d m => .word (17#6 ++ t ++ 0#4 ++ a ++ d ++ m ++ 123#7)
  | .vscanXor t a d m => .word (21#6 ++ t ++ 0#4 ++ a ++ d ++ m ++ 123#7)
  | .vperm b a d m => .word (2#6 ++ 0#3 ++ b ++ a ++ d ++ m ++ 123#7)
  | .vbcast a d m => .word (3#6 ++ 0#7 ++ a ++ d ++ m ++ 123#7)
  | .vcvt r t s a d m => .word (0#1 ++ r ++ 0#2 ++ t ++ 0#1 ++ s ++ a ++ d ++ m ++ 125#7)
  | .vrnd k x a d m => .word (k ++ 1#2 ++ 0#5 ++ x ++ a ++ d ++ m ++ 125#7)
  | .vthresh t b a d m => .word (0#4 ++ 2#2 ++ t ++ b ++ a ++ d ++ m ++ 125#7)
  | .vexp a d m => .word (0#6 ++ 0#7 ++ a ++ d ++ m ++ 127#7)
  | .vlog a d m => .word (1#6 ++ 0#7 ++ a ++ d ++ m ++ 127#7)
  | .vrcp a d m => .word (2#6 ++ 0#7 ++ a ++ d ++ m ++ 127#7)
  | .vrsq a d m => .word (3#6 ++ 0#7 ++ a ++ d ++ m ++ 127#7)
  | .streamBr d m => .word (d ++ m ++ 63#7)
  | .streamLoop i q m => .word (i ++ 1#2 ++ q ++ 0#5 ++ m ++ 69#7)
  | .killRecord _ => .none
  | .inlineBlock _ => .none
  | .routineClassMessage _ => .none
  | .launch _ => .none
  | .launchComplete _ => .none
  | .cancel _ => .none
  | .decMessage _ => .none
  | .spawnMessage _ => .none
  | .spawnReply _ => .none
  | .taskStart _ => .none
  | .deficitReplenish _ => .none
  | .creditGrant _ => .none
  | .amo _ => .none
  | .casMessage _ => .none
  | .atomicReply _ => .none
  | .postedAtomicAck _ => .none
  | .electRequest _ => .none
  | .phaseDeclaration _ => .none
  | .phaseComplete _ _ => .none
  | .phdone _ => .none
  | .trapev _ => .none
  | .landingPlain _ => .none
  | .landingConv _ => .none
  | .landingAdd _ => .none
  | .landingSetf _ => .none
  | .landingTrans _ => .none
  | .gathreq _ => .none
  | .scatreq _ => .none
  | .kaggreq _ => .none
  | .kbcastreq _ => .none
  | .changeLogAppend _ => .none
  | .mcmd _ => .none
  | .xform _ => .none
  | .fldone _ => .none
  | .commandComplete _ => .none
  | .lateFault _ => .none
  | .groupWatchdog _ => .none
  | .queueWaitTimeout _ => .none
  | .ldfServe _ => .none
  | .ldfRetry _ => .none
  | .writeRequest _ => .none
  | .heldWriteResume _ => .none
  | .registration _ => .none
  | .revoke _ => .none
  | .lineFill _ => .none
  | .forwardedRead _ => .none
  | .fillArrival _ => .none
  | .writeBack _ => .none
  | .strongAccess _ => .none
  | .placedAccess _ => .none
  | .speculativeReplay _ => .none
  | .tileAllocation _ => .none
  | .clbShootdown _ => .none
  | .budgetExpiry _ => .none
  | .taskTermination _ => .none
  | .leaveSave _ _ => .none
  | .epochAdvance _ => .none
  | .randRead _ _ _ _ => .none
  | .tctlRead _ _ _ _ => .none
  | .cvstatRead _ _ _ _ => .none
  | .fnselWrite _ _ _ _ => .none
  | .bfmtWrite _ _ _ _ _ => .none
  | .bdropWrite _ _ _ _ _ => .none
  | .budgetWrite _ _ _ _ => .none
  | .phslotWrite _ _ _ _ => .none
  | .gselWrite _ _ _ _ => .none
  | .grantWrite _ _ _ _ => .none
  | .grantLeave _ _ _ _ => .none
  | .grantRestore _ _ _ _ => .none
  | .tokenIssue _ _ _ _ => .none
  | .mkeyWrite _ _ _ _ => .none
  | .lwadd _ _ _ _ => .none
  | .lwmaxn _ _ _ _ => .none
  | .lwfmax _ _ _ _ => .none
  | .pqcfgWrite _ _ _ _ => .none
  | .pqpop _ _ _ _ => .none
  | .stashbWrite _ _ _ _ => .none
  | .stashlWrite _ _ _ _ => .none
  | .pcapWrite _ _ _ _ => .none
  | .csrWrite _ _ _ _ _ => .none
  | .map _ => .none
  | .unmap _ => .none
  | .rights _ => .none
  | .clean _ => .none
  | .logtail _ => .none
  | .ctxset _ => .none
  | .kring _ => .none
  | .hostlist _ => .none
  | .slice _ => .none
  | .sliceStart _ _ => .none
  | .gangGraceExpiry _ _ => .none
  | .sliceEnd _ _ => .none
  | .glaunch _ => .none
  | .ack _ => .none
  | .gangAckTimeout _ _ => .none
  | .late _ => .none
  | .stop _ => .none
  | .tileFence _ _ => .none
  | .eccCorrected _ _ => .none
  | .linkRetryExhausted _ _ => .none
  | .powerStep _ _ => .none
  | .thermalLimit _ _ _ => .none
  | .functionReady _ _ => .none
  | .imageVerification _ _ => .none
  | .managementWrite _ _ _ => .none
  | .managementRead _ _ => .none
  | .attestationRequest _ _ _ => .none
  | .coreReset _ => .none
  | .tileReset _ => .none
  | .packageReset _ => .none
  | .trainingFailure _ _ => .none
  | .recallRequest _ => .none

/-- Why bytes are no instruction (R54, check 2, and R47). -/
inductive Reject where
  /-- Fewer bytes than the first halfword, or than the second one of a 32-bit word. -/
  | short
  /-- A compact halfword whose form, or a must-be-zero bit, is not assigned (R48). -/
  | illegalHalf (h : BitVec 16)
  /-- A 32-bit word whose major, selector or must-be-zero bits are not assigned, or whose fields R50 calls illegal. -/
  | illegalWord (w : BitVec 32)
  deriving DecidableEq, Repr

/-- A compact halfword, refused when it is not well formed. -/
def decode16 (h : BitVec 16) : Option Instr := (decodeRaw16 h).filter Instr.wf

/-- A 32-bit word, refused when it is not well formed. -/
noncomputable def decode32 (stream : Bool) (w : BitVec 32) : Option Instr := (decodeRaw32 stream w).filter Instr.wf

/-- Two bytes as a little-endian halfword (R47). -/
def halfOf (lo hi : BitVec 8) : BitVec 16 := hi ++ lo

/-- The first instruction of a list of bytes, with the bytes after it. -/
noncomputable def decodeBytes (stream : Bool) : List (BitVec 8) → Except Reject (Instr × List (BitVec 8))
  | b0 :: b1 :: rest =>
    if b0.extractLsb' 0 1 = 0#1 then
      match decode16 (halfOf b0 b1) with
      | some i => .ok (i, rest)
      | none => .error (.illegalHalf (halfOf b0 b1))
    else
      match rest with
      | b2 :: b3 :: rest =>
        match decode32 stream (halfOf b2 b3 ++ halfOf b0 b1) with
        | some i => .ok (i, rest)
        | none => .error (.illegalWord (halfOf b2 b3 ++ halfOf b0 b1))
      | _ => .error .short
  | _ => .error .short

/-- The bytes of an encoding, the first halfword at the lower address and each halfword low byte first (R47). -/
def Encoded.bytes : Encoded → List (BitVec 8)
  | .none => []
  | .half h => [h.extractLsb' 0 8, h.extractLsb' 8 8]
  | .word w => [w.extractLsb' 0 8, w.extractLsb' 8 8, w.extractLsb' 16 8, w.extractLsb' 24 8]

/-- The bytes of an instruction in memory. -/
def encodeBytes (i : Instr) : List (BitVec 8) := (encode i).bytes

/-- How many bytes an instruction takes: 2 or 4, and none for a step of the device. -/
def Instr.length (i : Instr) : Nat := (encodeBytes i).length

/-- True for the two rows that are read only in a vector stream. -/
def Instr.streamForm : Instr → Bool
  | .streamBr _ _ => true
  | .streamLoop _ _ _ => true
  | _ => false

/-- The value an ILLEGAL or PRIV trap reports: the word, or the halfword zero-extended (R54). -/
def Encoded.value : Encoded → BitVec 64
  | .none => 0
  | .half h => h.setWidth 64
  | .word w => w.setWidth 64

/-- The bytes of a table word: the low halfword first, at least one 32-bit word of them. -/
def tableBytes (nbits w : Nat) : List (BitVec 8) :=
  let x := BitVec.ofNat 32 (w % 2 ^ nbits)
  [x.extractLsb' 0 8, x.extractLsb' 8 8, x.extractLsb' 16 8, x.extractLsb' 24 8]

/-- The instruction the scalar decoder reads from a word of spec/opcode_table.json. The words of STREAM_BR and
STREAM_LOOP are read here as a scalar core reads them: as BR, and as LOOP on a register g8 to g15. -/
noncomputable def decodeTableWord (nbits w : Nat) : Option Instr :=
  match decodeBytes false (tableBytes nbits w) with
  | .ok (i, _) => some i
  | .error _ => none

end Sys2Proof
end

