-- ==== Sys2Proof/Machine/Num.lean ====
section
/-!
DEFINITION. Sys2Proof/Machine/Num.lean: numbers to the bit (spec/02_number_formats.md, R27 to R46).
A value is held exactly, as a sign, a magnitude and a power of two; a format decodes patterns into such values, and
`roundTo` is the RoundTo of R37. A quotient, a root or a transcendental value is held to enough bits with the rest folded
into one lower bit, so that rounding it once gives what rounding the exact value gives.
-/

namespace Sys2Proof.Machine

/-- A number: not a number, an infinity, or (-1)^neg × mag × 2^exp. -/
inductive Num where
  | nan
  | inf (neg : Bool)
  | fin (neg : Bool) (mag : Nat) (exp : Int)
  deriving DecidableEq, Repr

/-- A floating format FN(e, m, bias, mode), the IEEE formats among them (R29, R30). -/
structure Fmt where
  ebits : Nat
  mbits : Nat
  bias : Nat
  /-- Mode F: no infinity, no negative zero, one NaN code (R30). -/
  modeF : Bool
  deriving DecidableEq, Repr

def f32 : Fmt := { ebits := 8, mbits := 23, bias := 127, modeF := false }
def f16 : Fmt := { ebits := 5, mbits := 10, bias := 15, modeF := false }
def b16 : Fmt := { ebits := 8, mbits := 7, bias := 127, modeF := false }

/-- The width 1 + e + m of a format. -/
def fmtWidth (f : Fmt) : Nat := 1 + f.ebits + f.mbits

/-- The format an FN parameter field names: MODE [16], M [10:8], E [7:6], BIAS [5:0] (R15, R28). -/
def fnFmt (p : BitVec 17) : Fmt :=
  { ebits := (p.extractLsb' 6 2).toNat + 2, mbits := (p.extractLsb' 8 3).toNat,
    bias := (p.extractLsb' 0 6).toNat, modeF := p.getLsbD 16 }

/-- The parameter field names a format: width 4 to 8, M at most 5, and mode I only with a mantissa bit (R15, R30). -/
def fnValid (p : BitVec 17) : Bool :=
  let f := fnFmt p
  decide (4 ≤ fmtWidth f) && decide (fmtWidth f ≤ 8) && decide (f.mbits ≤ 5) && (f.modeF || decide (1 ≤ f.mbits))

/-- Bits [15:11] are zero, which every field but FNSEL itself requires (R28). -/
def fnReservedZero (p : BitVec 17) : Bool := p.extractLsb' 11 5 == 0#5

/-- The value of a pattern, whose bits above the width are ignored (R29, R30). -/
def decodeFlt (f : Fmt) (x : Nat) : Num :=
  let m := x % 2 ^ f.mbits
  let e := x / 2 ^ f.mbits % 2 ^ f.ebits
  let s := decide (x / 2 ^ (f.mbits + f.ebits) % 2 = 1)
  if f.modeF && s && e == 0 && m == 0 then .nan
  else if !f.modeF && e == 2 ^ f.ebits - 1 then (if m == 0 then .inf s else .nan)
  else if e == 0 then .fin s m (1 - (f.bias : Int) - f.mbits)
  else .fin s (2 ^ f.mbits + m) ((e : Int) - f.bias - f.mbits)

/-- The largest finite magnitude's pattern, without its sign. -/
def maxFinite (f : Fmt) : Nat :=
  if f.modeF then 2 ^ (f.ebits + f.mbits) - 1 else (2 ^ f.ebits - 1) * 2 ^ f.mbits - 1

/-- The canonical NaN, or the NaN code of mode F (R30, R32). -/
def nanPattern (f : Fmt) : Nat :=
  if f.modeF then 2 ^ (f.ebits + f.mbits) else (2 ^ f.ebits - 1) * 2 ^ f.mbits + 2 ^ (f.mbits - 1)

/-- A magnitude pattern with its sign; mode F has no negative zero. -/
def signPattern (f : Fmt) (neg : Bool) (mag : Nat) : Nat :=
  if neg && !(f.modeF && mag == 0) then 2 ^ (f.ebits + f.mbits) + mag else mag

/-- An infinity: the NaN code in mode F (R30). -/
def infPattern (f : Fmt) (neg : Bool) : Nat :=
  if f.modeF then nanPattern f else signPattern f neg ((2 ^ f.ebits - 1) * 2 ^ f.mbits)

/-- A rounding of R37: a mode of Table 4, whether the transfer rule SAT applies, and the bits of SR(k). -/
inductive Mode where
  | rne | rtz | rup | rdn | rna
  /-- SR(k) with its k random bits. -/
  | sr (k rho : Nat)
  deriving DecidableEq, Repr

/-- The mode of a rounding code 0 to 4 (R35, Table 4). -/
def modeOf (c : Nat) : Mode :=
  match c with
  | 0 => .rne
  | 1 => .rtz
  | 2 => .rup
  | 3 => .rdn
  | _ => .rna

/-- A rounded pattern with its conditions in the layout of TCTL[4:0]: 4 inexact, 3 underflow, 2 overflow, 1 divide by
zero, 0 invalid (R37, R92), and whether a nonzero value became zero (R41). -/
structure Rounded where
  bits : Nat
  flags : BitVec 5
  lostToZero : Bool := false
  deriving DecidableEq, Repr

def flagInexact : BitVec 5 := 16#5
def flagUnderflow : BitVec 5 := 8#5
def flagOverflow : BitVec 5 := 4#5
def flagDivZero : BitVec 5 := 2#5
def flagInvalid : BitVec 5 := 1#5

/-- Whether a magnitude n + rem / 2^d of sign neg goes to n + 1 under a mode (R35, R39). A tie of RNE goes to the even
significand, hidden bit included: between two normals of a format with no mantissa bit, where neither mantissa is odd, that
is away from zero (DESIGN CHOICE, log 76). -/
def roundsUp (mode : Mode) (neg : Bool) (n rem d : Nat) : Bool :=
  match mode with
  | .rne => decide (2 * rem > 2 ^ d) || (decide (2 * rem = 2 ^ d) && decide (n % 2 = 1))
  | .rtz => false
  | .rup => !neg && decide (rem ≠ 0)
  | .rdn => neg && decide (rem ≠ 0)
  | .rna => decide (2 * rem ≥ 2 ^ d)
  | .sr k rho => decide (rho < rem * 2 ^ k / 2 ^ d)

/-- Rounds mag × 2^exp onto the grid 2^q: the integer and whether it is inexact. -/
def roundGrid (mode : Mode) (neg : Bool) (mag : Nat) (exp q : Int) : Nat × Bool :=
  if q ≤ exp then (mag * 2 ^ (exp - q).toNat, false)
  else
    let d := (q - exp).toNat
    let n := mag / 2 ^ d
    let rem := mag % 2 ^ d
    (if roundsUp mode neg n rem d then n + 1 else n, decide (rem ≠ 0))

/-- The pattern of an overflow (R37, Table 5; R39 for SR). -/
def overflowPattern (f : Fmt) (mode : Mode) (sat neg : Bool) : Nat :=
  let big := signPattern f neg (maxFinite f)
  if sat then big
  else match mode with
    | .rtz => big
    | .rup => if neg then big else infPattern f neg
    | .rdn => if neg then infPattern f neg else big
    | _ => infPattern f neg

/-- RoundTo(fmt, x, mode) of R37, with `sat` for mode.SAT. An infinity that a saturating mode turns into the largest finite value
raises neither overflow nor inexact, though the result differs from it: R101 says only that it is without invalid (DESIGN CHOICE,
log 102). -/
def roundTo (f : Fmt) (mode : Mode) (sat : Bool) (x : Num) : Rounded :=
  match x with
  | .nan => { bits := nanPattern f, flags := 0#5 }
  | .inf s =>
    if f.modeF then
      if sat then { bits := signPattern f s (maxFinite f), flags := 0#5 }
      else { bits := nanPattern f, flags := flagInvalid }
    else { bits := infPattern f s, flags := 0#5 }
  | .fin s mag exp =>
    if mag = 0 then { bits := signPattern f s 0, flags := 0#5 }
    else
      let qmin : Int := 1 - (f.bias : Int) - f.mbits
      let q : Int := max (exp + Nat.log2 mag - f.mbits) qmin
      let r := roundGrid mode s mag exp q
      let code : Nat := (q - qmin).toNat * 2 ^ f.mbits + r.1
      if code > maxFinite f then
        { bits := overflowPattern f mode sat s, flags := flagOverflow ||| flagInexact }
      else
        { bits := signPattern f s code,
          flags := (if r.2 then flagInexact else 0#5) |||
            (if r.2 && decide (code < 2 ^ f.mbits) then flagUnderflow else 0#5),
          lostToZero := decide (code = 0) }

/-- RoundTo(F32, x, RNE) as a word. -/
def roundF32 (x : Num) : Word := BitVec.ofNat 32 (roundTo f32 .rne false x).bits

/-- The value of an F32 word. -/
def f32Val (w : Word) : Num := decodeFlt f32 w.toNat

/-- The canonical NaN of F32. -/
def nanF32 : Word := 0x7FC00000#32

/-! ### Exact arithmetic -/

/-- The integer mag × 2^(exp - base) with its sign, for base at most exp. -/
def scaled (neg : Bool) (mag : Nat) (exp base : Int) : Int :=
  let v : Int := (mag * 2 ^ (exp - base).toNat : Nat)
  if neg then -v else v

/-- An integer times a power of two as a number; zero takes the given sign. -/
def ofScaled (v : Int) (base : Int) (zneg : Bool) : Num :=
  if v = 0 then .fin zneg 0 0 else .fin (decide (v < 0)) v.natAbs base

/-- An integer as a number; zero is +0. -/
def numOfInt (v : Int) : Num := ofScaled v 0 false

/-- The exact sum; opposite infinities give a NaN, an exact zero is +0 unless both terms are −0 (R95). -/
def numAdd (a b : Num) : Num :=
  match a, b with
  | .nan, _ => .nan
  | _, .nan => .nan
  | .inf s, .inf t => if s = t then .inf s else .nan
  | .inf s, .fin _ _ _ => .inf s
  | .fin _ _ _, .inf t => .inf t
  | .fin s m e, .fin t n d =>
    let base := min e d
    let v := scaled s m e base + scaled t n d base
    if v = 0 then .fin (s && t && decide (m = 0)) 0 0 else ofScaled v base false

/-- The exact negation. -/
def numNeg (a : Num) : Num :=
  match a with
  | .nan => .nan
  | .inf s => .inf !s
  | .fin s m e => .fin (!s) m e

/-- The exact magnitude. -/
def numAbs (a : Num) : Num :=
  match a with
  | .nan => .nan
  | .inf _ => .inf false
  | .fin _ m e => .fin false m e

/-- The exact product; zero times infinity gives a NaN. -/
def numMul (a b : Num) : Num :=
  match a, b with
  | .nan, _ => .nan
  | _, .nan => .nan
  | .inf s, .inf t => .inf (s != t)
  | .inf s, .fin t n _ => if n = 0 then .nan else .inf (s != t)
  | .fin s m _, .inf t => if m = 0 then .nan else .inf (s != t)
  | .fin s m e, .fin t n d => .fin (s != t) (m * n) (e + d)

/-- num / den as a magnitude times a power of two, to at least `bits` bits, inexactness folded into a last bit. -/
def quotient (num den : Nat) (bits : Nat) : Nat × Int :=
  let sh := bits + Nat.log2 den + 1
  let q := num * 2 ^ sh / den
  if num * 2 ^ sh % den = 0 then (q, -(sh : Int)) else (2 * q + 1, -(sh : Int) - 1)

/-- The integer square root of n, of at most k bits, by trial of each bit. -/
def isqrtBits : Nat → Nat → Nat → Nat
  | 0, _, r => r
  | k + 1, n, r => isqrtBits k n (if (r + 2 ^ k) * (r + 2 ^ k) ≤ n then r + 2 ^ k else r)

/-- The integer square root. -/
def isqrt (n : Nat) : Nat := isqrtBits (Nat.log2 n / 2 + 1) n 0

/-- The exact quotient, folded as `quotient` does. -/
def numDiv (a b : Num) : Num :=
  match a, b with
  | .nan, _ => .nan
  | _, .nan => .nan
  | .inf _, .inf _ => .nan
  | .inf s, .fin t _ _ => .inf (s != t)
  | .fin s _ _, .inf t => .fin (s != t) 0 0
  | .fin s m e, .fin t n d =>
    if n = 0 then (if m = 0 then .nan else .inf (s != t))
    else if m = 0 then .fin (s != t) 0 0
    else
      let q := quotient m n 64
      .fin (s != t) q.1 (q.2 + e - d)

/-- The exact square root, folded; a value below zero other than −0 gives a NaN. -/
def numSqrt (a : Num) : Num :=
  match a with
  | .nan => .nan
  | .inf s => if s then .nan else .inf false
  | .fin s m e =>
    if m = 0 then .fin s 0 0
    else if s then .nan
    else
      let sh : Nat := if e % 2 = 0 then 128 else 129
      let n := m * 2 ^ sh
      let r := isqrt n
      let h : Int := (e - sh) / 2
      if r * r = n then .fin false r h else .fin false (2 * r + 1) (h - 1)

/-- 1 / √x of R172, folded. -/
def numRsqrt (a : Num) : Num :=
  match a with
  | .nan => .nan
  | .inf s => if s then .nan else .fin false 0 0
  | .fin s m e =>
    if m = 0 then .inf s
    else if s then .nan
    else
      -- 1/√(m·2^e) = √(2^(2n) / m') · 2^(-n - e'/2), with m·2^e = m'·2^e' and e' even
      let m' := if e % 2 = 0 then m else 2 * m
      let e' := if e % 2 = 0 then e else e - 1
      let n := 64 + Nat.log2 m'
      let r := isqrt (2 ^ (2 * n) / m')
      let h : Int := -(n : Int) - e' / 2
      if r * r * m' = 2 ^ (2 * n) then .fin false r h else .fin false (2 * r + 1) (h - 1)

/-- How two numbers compare; none when either is a NaN. Zeros of either sign are equal. -/
def numCmp (a b : Num) : Option Ordering :=
  match a, b with
  | .nan, _ => none
  | _, .nan => none
  | .inf s, .inf t => some (if s = t then .eq else if s then .lt else .gt)
  | .inf s, .fin _ _ _ => some (if s then .lt else .gt)
  | .fin _ _ _, .inf t => some (if t then .gt else .lt)
  | .fin s m e, .fin t n d =>
    let base := min e d
    some (compare (scaled s m e base) (scaled t n d base))

/-- The number is a NaN. -/
def numIsNan (a : Num) : Bool := a == .nan

/-- The number is an infinity. -/
def numIsInf (a : Num) : Bool :=
  match a with
  | .inf _ => true
  | _ => false

/-- The number is a zero of either sign. -/
def numIsZero (a : Num) : Bool :=
  match a with
  | .fin _ m _ => m == 0
  | _ => false

/-- The sign of a number; false for a NaN. -/
def numNegative (a : Num) : Bool :=
  match a with
  | .nan => false
  | .inf s => s
  | .fin s _ _ => s

/-- |x| < 2^t for a finite x (R42). -/
def numBelow (a : Num) (t : Int) : Bool :=
  match a with
  | .fin _ m e => m == 0 || decide (e + Nat.log2 m < t)
  | _ => false

/-- floor(log2 |x|) of a finite nonzero number. -/
def numLog2 (a : Num) : Int :=
  match a with
  | .fin _ m e => e + Nat.log2 m
  | _ => 0

/-- The number times a power of two. -/
def numScale (a : Num) (k : Int) : Num :=
  match a with
  | .fin s m e => .fin s m (e + k)
  | x => x

/-! ### Operations of the floating instructions, with their conditions (R94 to R98) -/

/-- A result that rounds an exact value, and raises `bad` besides. -/
def finishFlt (f : Fmt) (bad : BitVec 5) (x : Num) : Rounded :=
  let r := roundTo f .rne false x
  { r with flags := r.flags ||| bad }

/-- a + b in a format (R95). -/
def fltAdd (f : Fmt) (a b : Num) : Rounded :=
  finishFlt f (if numIsInf a && numIsInf b && a != b then flagInvalid else 0#5) (numAdd a b)

/-- a − b in a format (R95); a NaN stays one. -/
def fltSub (f : Fmt) (a b : Num) : Rounded := fltAdd f a (numNeg b)

/-- a × b in a format (R95). -/
def fltMul (f : Fmt) (a b : Num) : Rounded :=
  finishFlt f (if (numIsInf a && numIsZero b) || (numIsZero a && numIsInf b) then flagInvalid else 0#5) (numMul a b)

/-- a / b in a format (R95). An infinity that mode F lacks is that format's own matter; F32 is the only caller. -/
def fltDiv (f : Fmt) (a b : Num) : Rounded :=
  let bad :=
    if (numIsInf a && numIsInf b) || (numIsZero a && numIsZero b) then flagInvalid
    else if numIsZero b && !numIsInf a && !numIsNan a then flagDivZero
    else 0#5
  finishFlt f bad (numDiv a b)

/-- √a in a format (R95). -/
def fltSqrt (f : Fmt) (a : Num) : Rounded :=
  finishFlt f (if numNegative a && !numIsZero a && !numIsNan a then flagInvalid else 0#5) (numSqrt a)

/-- ±(a × b ± c) in one rounding (R98): `sub` negates the addend, `neg` the exact value. A NaN is never negated. -/
def fltFma (f : Fmt) (sub neg : Bool) (a b c : Num) : Rounded :=
  let p := numMul a b
  let t := if sub then numNeg c else c
  let badProduct := (numIsInf a && numIsZero b) || (numIsZero a && numIsInf b)
  let anyNan := numIsNan a || numIsNan b || numIsNan c
  let bad := badProduct || (!anyNan && numIsInf p && numIsInf t && p != t)
  let e := numAdd p t
  finishFlt f (if bad then flagInvalid else 0#5) (if neg then numNeg e else e)

/-- The minimum (R96): −0 below +0, a single NaN gives the other operand. -/
def numMin (a b : Num) : Num :=
  match numCmp a b with
  | none => if numIsNan a then b else a
  | some .lt => a
  | some .gt => b
  | some .eq => if numNegative a then a else b

/-- The maximum (R96). -/
def numMax (a b : Num) : Num :=
  match numCmp a b with
  | none => if numIsNan a then b else a
  | some .lt => b
  | some .gt => a
  | some .eq => if numNegative a then b else a

/-- The pattern of a value already on the format's grid, a NaN as the format's own. -/
def exactPattern (f : Fmt) (a : Num) : Nat := (roundTo f .rne false a).bits

/-- FCLASS's mask for an F32 word (R97, Table 3). -/
def classMask (w : Word) : Nat :=
  match f32Val w with
  | .nan => 2 ^ 8
  | .inf s => if s then 2 ^ 0 else 2 ^ 7
  | .fin s m _ =>
    if m = 0 then (if s then 2 ^ 3 else 2 ^ 4)
    else if m < 2 ^ 23 then (if s then 2 ^ 2 else 2 ^ 5)
    else (if s then 2 ^ 1 else 2 ^ 6)

/-! ### Integer targets (R38) -/

/-- The bounds of an integer format. -/
def intMin (width : Nat) (signed : Bool) : Int := if signed then -(2 ^ (width - 1) : Int) else 0
def intMax (width : Nat) (signed : Bool) : Int := if signed then 2 ^ (width - 1) - 1 else 2 ^ width - 1

/-- An integer clamped to a format: the value, and whether it was outside. -/
def clampInt (width : Nat) (signed : Bool) (v : Int) : Int × Bool :=
  if v < intMin width signed then (intMin width signed, true)
  else if v > intMax width signed then (intMax width signed, true)
  else (v, false)

/-- The value rounded and saturated into an integer format, with its conditions (R38, R100). -/
def roundInt (width : Nat) (signed : Bool) (mode : Mode) (x : Num) : Int × BitVec 5 :=
  match x with
  | .nan => (0, flagInvalid)
  | .inf s => (if s then intMin width signed else intMax width signed, flagInvalid)
  | .fin s mag exp =>
    let r := roundGrid mode s mag exp 0
    let v : Int := if s then -(r.1 : Int) else r.1
    let c := clampInt width signed v
    (c.1, if c.2 then flagInvalid else if r.2 then flagInexact else 0#5)

/-! ### Element formats (R28, Table 2) -/

/-- An element format of a bank, a map or an instruction. -/
inductive Elem where
  | int (width : Nat) (signed : Bool)
  | flt (f : Fmt)
  deriving DecidableEq, Repr

/-- The element format of a format code with its FN parameter field; none for a reserved code, code 0xC, or a parameter
field that names no format (R28). -/
def elemOf (code : BitVec 4) (fnp : BitVec 17) : Option Elem :=
  match code.toNat with
  | 0 => some (.int 8 true)
  | 1 => some (.int 16 true)
  | 2 => some (.int 32 true)
  | 3 => some (.int 64 true)
  | 4 => some (.int 8 false)
  | 5 => some (.int 16 false)
  | 6 => some (.int 32 false)
  | 7 => some (.int 64 false)
  | 8 => some (.flt f32)
  | 9 => some (.flt f16)
  | 10 => some (.flt b16)
  | 11 => if fnValid fnp && fnReservedZero fnp then some (.flt (fnFmt fnp)) else none
  | _ => none

/-- Bits an element takes in memory: a width-4 narrow format packs two to a byte, widths 5 to 8 take a byte (R31). -/
def elemBits (e : Elem) : Nat :=
  match e with
  | .int w _ => w
  | .flt f => if fmtWidth f = 4 then 4 else if fmtWidth f ≤ 8 then 8 else fmtWidth f

/-- The value of an element's pattern. -/
def elemVal (e : Elem) (x : Nat) : Num :=
  match e with
  | .int w signed => numOfInt (if signed then (BitVec.ofNat w x).toInt else x % 2 ^ w)
  | .flt f => decodeFlt f x

/-- An element rounded into a format. An integer's pattern is its two's complement in the width. -/
def elemRound (e : Elem) (mode : Mode) (sat : Bool) (x : Num) : Rounded :=
  match e with
  | .int w signed =>
    let r := roundInt w signed mode x
    { bits := (BitVec.ofInt w r.1).toNat, flags := r.2 }
  | .flt f => roundTo f mode sat x

/-- An element of a transfer is offending (R41). -/
def offending (e : Elem) (x : Num) (r : Rounded) : Bool :=
  match e with
  | .int _ _ => r.flags.getLsbD 0
  | .flt f =>
    numIsNan x || (numIsInf x && f.modeF) || r.flags.getLsbD 2 || (r.lostToZero && !numIsZero x)

/-- The transfer rule: RoundTo(dst, x, RNE.SAT), or SR(k) with SAT; integers round RNE (R40, R41). -/
def transferRound (e : Elem) (mode : Mode) (x : Num) : Rounded :=
  match e with
  | .int _ _ => elemRound e .rne true x
  | .flt _ => elemRound e mode true x

/-! ### Block scales (R33, R34) -/

/-- The largest exponent Emax of a format (R34). -/
def elemEmax (e : Elem) : Int :=
  match e with
  | .int w signed => if signed then (w : Int) - 2 else (w : Int) - 1
  | .flt f => numLog2 (decodeFlt f (maxFinite f))

/-- The value of an element under its block's scale byte; 0xFF marks the block a NaN (R33). -/
def blockVal (e : Elem) (scale : Byte) (x : Nat) : Num :=
  if scale = 0xFF#8 then .nan else numScale (elemVal e x) ((scale.toNat : Int) - 127)

/-- The scale byte of a block of values (R34). -/
def blockScale (e : Elem) (xs : List Num) : Byte :=
  if xs.any (fun x => numIsNan x || numIsInf x) then 0xFF#8
  else
    let nz := xs.filter (fun x => !numIsZero x)
    match nz with
    | [] => 127#8
    | x :: rest =>
      let top := rest.foldl (fun t y => max t (numLog2 y)) (numLog2 x)
      BitVec.ofInt 8 (min 254 (max 1 (top - elemEmax e + 127)))

/-- An element written into a block of scale s, and whether it counts as a conversion error: a negative value into an N
format (R34), a nonzero value that becomes zero in a floating one (R41), a NaN or an infinity; an overflow does not. -/
def blockRound (e : Elem) (s : Byte) (x : Num) : Nat × Bool :=
  if s = 0xFF#8 then (0, numIsNan x || numIsInf x)
  else
    let y := numScale x (127 - (s.toNat : Int))
    match e with
    | .int _ signed =>
      let r := elemRound e .rne true y
      if !signed && numNegative y && !numIsZero y then (0, true) else (r.bits, false)
    | .flt f =>
      let r := roundTo f .rne true y
      (r.bits, r.lostToZero && !numIsZero y)

/-! ### The approximations of R172, held to 256 bits -/

/-- Working precision of the series, in bits. -/
def seriesBits : Nat := 320

/-- ln 2 × 2^seriesBits, by the sum of 1 / (k 2^k). -/
def ln2Sum : Nat → Nat
  | 0 => 0
  | k + 1 => ln2Sum k + 2 ^ seriesBits / ((k + 1) * 2 ^ (k + 1))

def ln2Fixed : Nat := ln2Sum 330

/-- The sum of t^k / k! in fixed point: `term` is the k-th term, `t` the argument. -/
def expSeries : Nat → Nat → Nat → Nat → Nat → Nat
  | 0, _, _, _, acc => acc
  | n + 1, k, t, term, acc => expSeries n (k + 1) t (term * t / 2 ^ seriesBits / (k + 1)) (acc + term)

/-- The sum of z^(2j+1) / (2j+1) in fixed point: `term` is z^(2j+1), `z2` the square of z. -/
def atanhSeries : Nat → Nat → Nat → Nat → Nat → Nat
  | 0, _, _, _, acc => acc
  | n + 1, j, z2, term, acc =>
    atanhSeries n (j + 1) z2 (term * z2 / 2 ^ seriesBits) (acc + term / (2 * j + 1))

/-- A fixed-point magnitude of seriesBits fraction bits, its last 32 bits folded, times 2^k. -/
def foldFixed (neg : Bool) (v : Nat) (k : Int) : Num :=
  .fin neg (2 * (v / 2 ^ 32) + 1) (k - ((seriesBits : Int) - 32) - 1)

/-- 2^x, exact or folded (R172). -/
def numExp2 (x : Num) : Num :=
  match x with
  | .nan => .nan
  | .inf s => if s then .fin false 0 0 else .inf false
  | .fin s m e =>
    if m = 0 then .fin false 1 0
    else if e + Nat.log2 m ≥ 8 then (if s then .fin false 1 (-400) else .fin false 1 400)
    else if e + Nat.log2 m < -40 then
      (if s then .fin false (2 ^ 60 - 1) (-60) else .fin false (2 ^ 60 + 1) (-60))
    else
      let v : Int := scaled s m e (-(seriesBits : Int))
      let whole : Int := v / 2 ^ seriesBits
      let frac : Nat := (v % 2 ^ seriesBits).toNat
      if frac = 0 then .fin false 1 whole
      else
        let t := frac * ln2Fixed / 2 ^ seriesBits
        foldFixed false (expSeries 100 0 t (2 ^ seriesBits) 0) whole

/-- log2 x, exact or folded (R172). -/
def numLogTwo (x : Num) : Num :=
  match x with
  | .nan => .nan
  | .inf s => if s then .nan else .inf false
  | .fin s m e =>
    if m = 0 then .inf true
    else if s then .nan
    else
      let l := Nat.log2 m
      if m = 2 ^ l then numOfInt (e + l)
      else
        let z := (m - 2 ^ l) * 2 ^ seriesBits / (m + 2 ^ l)
        let ln := 2 * atanhSeries 110 0 (z * z / 2 ^ seriesBits) z 0
        let v : Int := (e + l) * 2 ^ seriesBits + (ln * 2 ^ seriesBits / ln2Fixed : Nat)
        foldFixed (decide (v < 0)) v.natAbs 0

/-- 1 / x (R172). -/
def numRecip (x : Num) : Num := numDiv (.fin false 1 0) x

end Sys2Proof.Machine
end

