-- ==== Sys2Proof/Machine/State.lean ====
section
/-!
DEFINITION. Sys2Proof/Machine/State.lean: the state of a domain of MZK-1024 packages, as plain data.

Keys. A tile of the domain is numbered pkg × 1024 + tile; a core is tile × 16 + n, with n 0 to 3 the task cores, 4 Dray,
5 Setter, 6 Press, and 8 to 11 the post cores of the link the tile anchors (R103, R249, R359); a slot is core × 16 + n,
with n 0 to 7 the task slots and 8 the handler context (R103), and tile × 256 + 111 is the tile's vector stream (R148).
-/

namespace Sys2Proof.Machine

/-- A trap cause code (R338, Table 2). -/
abbrev Cause := BitVec 8

/-! ### Waiting -/

/-- What a slot can wait for (R123, R340). A request that goes to a home names the access; a wait on the slot's own tile
names the object. -/
inductive Want where
  /-- The row line at `line` (a multiple of 32), with a write grant when `grant` (R201, R204). -/
  | fill (line : Nat) (grant : Bool)
  /-- A strong load (R199). -/
  | strongLoad (va size : Nat)
  /-- A strong store (R214). -/
  | strongStore (va size : Nat) (data : BitVec 64)
  /-- A load, or a TESTF (`op` 1), of placed memory of another tile (R215, R228). -/
  | placedLoad (va size op : Nat)
  /-- A strong store (`op` 0), SETF (1) or SETE (2) to placed memory (R215, R228). -/
  | placedStore (va size op : Nat) (data : BitVec 64)
  /-- An LDF, emptying when `take` (R226). -/
  | ldf (va size : Nat) (take : Bool)
  /-- A non-posted atomic of operation `op`, 16 for CAS with `cmp` its expected value (R217, R223). -/
  | atomic (va size op : Nat) (data cmp : BitVec 64)
  /-- The allocation of the tree entry at `entry`: a node of level `level`, or a tile block at level 1 (R241). -/
  | alloc (entry level handle : Nat)
  /-- An election of `key` (R140). -/
  | elect (key : BitVec 64)
  /-- A remote SPAWN of class `cls` (R137). -/
  | spawn (dst cls : Nat)
  /-- A credit of class `cls` at core `dst` (R110). -/
  | credit (dst cls : Nat)
  /-- Semaphore `n` of the tile (R251). -/
  | sem (n : Nat)
  /-- An entry of queue `q`, or a free place in it when `push` (R152). -/
  | queue (q : Nat) (push : Bool)
  /-- A free place in the dispatch ring (R254). -/
  | ring
  /-- A release, or earlier work of the task (R207, R221, R231, R147, R179, R268). -/
  | earlier
  /-- A free spawn-queue entry (R138). -/
  | spawnQueue
  /-- The end of the running vector stream (R148). -/
  | stream
  /-- A firmware call `n` (R352). -/
  | firmware (n : Nat)
  /-- The kill record of a context (R354). -/
  | kill (ctx : Nat)
  /-- The acceptance of phase declarations, or the cancel of a level, everywhere (R142, R144). -/
  | broadcast (n : Nat)
  /-- An entry of the block queue (R361). -/
  | blockQueue
  deriving DecidableEq, Repr

/-- A reply: the cause of the trap it brings, or 0, and its data. -/
structure Reply where
  cause : Cause
  val : BitVec 64
  data : List (BitVec 64)
  deriving DecidableEq, Repr

/-- The wait of a slot: what for, the packet that carries its request, and the replies its instruction has had. An
instruction that waits runs again from its start when it is picked, and finds here what it was answered. -/
structure Pend where
  want : Option Want
  req : Nat
  log : List (Want × Reply)
  /-- The word of an instruction whose halfwords lie in two blocks: it stays as it was fetched (R17). -/
  word : Option (BitVec 32)
  deriving DecidableEq, Repr

/-- Nothing is waited for. -/
def Pend.idle : Pend := { want := none, req := 0, log := [], word := none }

/-! ### Tasks -/

/-- A weak store, or posted atomic, not yet acknowledged (R201, R207, R215, R221). -/
structure Outstanding where
  id : Nat
  va : Nat
  /-- 0 registration, 1 store to another tile's placed memory, 2 posted atomic. -/
  kind : Nat
  deriving DecidableEq, Repr

/-- An open publication point (R231): the outstanding stores and posted atomics it waits for; words whose registration it
waited for was refused; and whether a posted atomic it waited for was (R216, R221). -/
structure Point where
  waits : List Nat
  lost : List Nat
  refused : Bool
  deriving DecidableEq, Repr

/-- The inline block a handler context runs (R56, R57). -/
structure Inline where
  code : List Byte
  index : Nat
  header : BitVec 64
  sender : BitVec 23
  sslot : BitVec 3
  slaunch : Word
  deriving DecidableEq, Repr

/-- A task context: the registers of R9, the CSRs of R11 and R335, and what the device keeps for the task. -/
structure Task where
  /-- Which start this is, of all starts. -/
  uid : Nat
  ctx : BitVec 11
  priv : BitVec 2
  launch : Word
  g : Vector Dword 32
  f : Vector Word 32
  /-- p7 to p0; bit 0 is always 1 (R9). -/
  p : BitVec 8
  pc : Addr
  /-- The bits of a transfer's target above the 48 of pc, which the fetch of the target looks at (R16, R86). -/
  pcOver : BitVec 16
  gcount : Nat
  fcount : Nat
  tlev : BitVec 2
  tvec : Dword
  tcause1 : Cause
  tcause2 : Cause
  tepc1 : Dword
  tepc2 : Dword
  tval1 : Dword
  tval2 : Dword
  tsave1 : Dword
  tsave2 : Dword
  tctl : BitVec 17
  sbase : Dword
  slim : Dword
  fnsel : BitVec 17
  lstart : Dword
  lend : Dword
  lcount : Dword
  budget : Nat
  granted : Nat
  /-- BUDGET is pending (R341). -/
  budgetDue : Bool
  /-- Cycles of grace left, once BUDGET has been raised (R341). -/
  grace : Option Nat
  taskid : Word
  /-- The phase tag: [4] none, [3:0] slot (R336). -/
  tag : BitVec 5
  sender : BitVec 23
  sslot : BitVec 3
  slaunch : Word
  /-- How the task started: 0 LAUNCH, 1 message, 2 spawn queue, 3 record, 4 PHDONE (R141). -/
  how : Nat
  cls : Nat
  /-- The fetch buffer: a 32-byte block number and its bytes (R17). -/
  fetch : Option (Nat × List Byte)
  /-- Active SPAWN fallbacks, the newest first: the gd of each (R138). -/
  fbDest : List (BitVec 5)
  fbFrame : Dword
  cvstat : Dword
  drsel : BitVec 12
  /-- RTAB, as the grant gave it when the task started (R335). -/
  rtab : BitVec 20
  /-- The valid tensor-map registers (R250, R252). -/
  tms : Table (BitVec 256)
  /-- Queue bindings: queue to g register (R280). -/
  binds : Table Nat
  outs : List Outstanding
  /-- Words whose registration was refused (R216). -/
  lost : List Nat
  /-- The first refusal of a posted atomic: its cause and address (R221). -/
  refused : Option (Cause × Dword)
  /-- Open publication points, the oldest first. -/
  pubs : List Point
  /-- Registers whose value an uncorrectable error has spoilt: gn as n, fn as 32 + n, pn as 64 + n (R338). -/
  spoilt : List Nat
  pend : Pend
  /-- The inline block, in the handler context. -/
  inl : Option Inline
  deriving DecidableEq, Repr

/-! ### Cores -/

/-- Who owns an L1 word: no one, this core once the home records it, or this core (R201); `leaving` is a registered word of an
evicted line whose write-back is on its way (R213). -/
inductive Own where
  | clean | inFlight | registered | leaving
  deriving DecidableEq, Repr

/-- A word of global memory in an L1, under the contexts whose fills brought it (R186, R193, R201), and the lines that hold a
copy of it: a row line, a column line, or both. -/
structure L1Word where
  ctxs : List Nat
  val : Word
  own : Own
  row : Bool
  column : Bool
  deriving DecidableEq, Repr

/-- A fill in flight to a core (R204, R212). -/
structure Fill where
  id : Nat
  line : Nat
  ctx : Nat
  grant : Bool
  /-- An acquire, INVR, revoke or rights change has reached the line since. -/
  stale : Bool
  deriving DecidableEq, Repr

/-- A volume entry of a CLB, or the geometry read from a descriptor (R234, R235, R239). -/
structure Volume where
  ctx : Nat
  handle : Nat
  rank : Nat
  clog2 : Nat
  strict : Bool
  oobbg : Bool
  levels : Nat
  root : Nat
  ext : List Nat
  ts : List Nat
  bg : Dword
  pool : Nat
  plog2 : Nat
  hot : Nat
  deriving DecidableEq, Repr

/-- A tile entry of a CLB: the block's address, or 0 for unallocated (R239). -/
structure ClbTile where
  ctx : Nat
  handle : Nat
  tile : Nat
  block : Nat
  deriving DecidableEq, Repr

/-- A start entry: a task that waits to be started (R113, R114, R125, R348). -/
structure Entry where
  /-- Creation order. -/
  order : Nat
  ctx : BitVec 11
  launch : Word
  how : Nat
  cls : Nat
  pri : Nat
  gcode : BitVec 2
  fcode : BitVec 2
  bexp : Nat
  entry : Nat
  /-- Record offset, for a record's firing. -/
  record : Nat
  payload : List Dword
  sender : BitVec 23
  sslot : BitVec 3
  slaunch : Word
  tag : BitVec 5
  /-- The start acquires (R126, R131, R135). -/
  acquire : Bool
  /-- The tile whose credit the entry holds, with the class; none for a record or a spawn. -/
  credit : Option (Nat × Nat)
  deriving DecidableEq, Repr

/-- A command in a dispatch ring (R254 to R258). -/
structure Command where
  seq : BitVec 8
  word : Word
  /-- Tensor maps d, a and b. -/
  mapD : BitVec 256
  mapA : BitVec 256
  mapB : BitVec 256
  state : Nat
  kind : BitVec 8
  addr : Dword
  elem : Nat
  sword : Word
  origin : Dword
  uid : Nat
  /-- The slot that issued it. -/
  slot : Nat
  ctx : BitVec 11
  launch : Word
  tag : BitVec 5
  fnsel : BitVec 17
  /-- Operand values the command takes from g registers (STASH, UNSTASH, FLQ). -/
  args : List Dword
  /-- How far the command has come: 0 before its checks, then one more than the next element. -/
  done : Nat
  /-- Source values read and not used yet. -/
  got : List Num
  /-- Values that wait for the rest of their block (R34). -/
  outbox : List Num
  /-- What the command has noted as it went. -/
  notes : List Nat
  /-- Words of placed memory read whole under FB 2 or 3, by storage key, while elements of them are still to be used (R256). -/
  words : Table Nat
  /-- Packets of the issuing task's earlier stores and posted atomics that were in flight at issue (R254). -/
  after : List Nat
  /-- An MCMD or XFORM: the record to decrement, the sender and its slot and launch (R265, R275). -/
  remote : Option (Dword × BitVec 23 × BitVec 3 × Word)
  /-- The token's first way and number of ways (R264). -/
  window : Option (Nat × Nat)
  /-- The issuing task has yet to take the fault, or the XLATE of a suspension (R255, R258). -/
  unreported : Bool
  /-- A faulted entry keeps its ring place until the task's handler returns or the task ends (R255, R257). -/
  held : Bool
  deriving DecidableEq, Repr

/-- A staged KAGG.O element (R324). -/
structure Staged where
  ctx : Nat
  handle : Nat
  /-- Address of its cell, the key and the stripe. -/
  cell : Nat
  key : Nat
  stripe : Nat
  /-- The source tile's key, and the order of arrival. -/
  srcTile : Nat
  order : Nat
  data : List Word
  deriving DecidableEq, Repr

/-- A core: its L1, CLB, queues, ring and counts. -/
structure Core where
  l1 : Table L1Word
  grants : List (Nat × Nat)
  fills : List Fill
  vols : List Volume
  clb : List ClbTile
  entries : List Entry
  /-- Credits lent: sending tile, class, how many (R110). -/
  lent : List (Nat × Nat × Nat)
  /-- Requests for credits, the oldest first: slot and class. -/
  wanted : List (Nat × Nat)
  ring : List Command
  nextSeq : BitVec 8
  lastSlot : Nat
  handlerRun : Nat
  inlineViol : Nat
  malformed : Nat
  stray : Nat
  landDisc : Nat
  starts : Table Nat
  staged : List Staged
  /-- State.cyc when the core was reset. -/
  cycBase : Nat
  deriving DecidableEq, Repr

/-! ### Tiles -/

/-- A grant (R345). -/
structure Grant where
  dw0 : Dword
  dw1 : Dword
  dw2 : Dword
  leaving : Bool
  /-- The save has begun (R348). -/
  saving : Bool
  /-- Start entries that a save has counted (R348). -/
  saved : Option Nat
  deficit : Int
  deriving DecidableEq, Repr

/-- A phase slot of a tile (R119 to R122, R142, R143, R362). -/
structure Phase where
  decl : Bool
  remain : Int
  ovr : Bool
  seq : Word
  succ : Nat
  core : Nat
  launch : Word
  ctx : BitVec 11
  /-- The tiles the merged declarations list. -/
  tiles : List Nat
  /-- Status bits gathered here: transfer error, overrun, cancel, owner lost. -/
  status : BitVec 4
  cancelled : Bool
  done : BitVec 8
  lstat : BitVec 4
  /-- The line word, and the operation that first contributed: 0 none, 1 add, 2 MAXN, 3 FMAX (R362). -/
  lword : Dword
  lop : Nat
  lwres : Dword
  deriving DecidableEq, Repr

/-- A waiting LDF (R227). -/
structure LdfWait where
  slot : Nat
  req : Nat
  key : Nat
  size : Nat
  take : Bool
  deriving DecidableEq, Repr

/-- The running vector stream (R148, R149). -/
structure Stream where
  pc : Addr
  ctx : BitVec 11
  fn : BitVec 17
  seq : BitVec 8
  uid : Nat
  launch : Word
  tag : BitVec 5
  lstart : Dword
  lend : Dword
  lcount : Dword
  fetch : Option (Nat × List Byte)
  /-- The word of an instruction that waits: it stays as it was fetched (R17). -/
  word : Option (BitVec 32)
  /-- DIRECT vault ways that the stream has accessed (R184). -/
  ways : BitVec 16
  /-- Cycles waited on an unchanged queue, and which (R152). -/
  qwait : Nat
  waiting : Option Nat
  deriving DecidableEq, Repr

/-- A flash Read that a Dray core has submitted and whose completion has not come (R365, R366): its queue pair and command
identifier, where its data begins in State.flash, and where it goes. -/
structure FlashRead where
  pair : Nat
  cid : Nat
  /-- The key of its first byte in State.flash. -/
  at_ : Nat
  /-- The data pages: virtual address, storage key and bytes. -/
  pages : List (Nat × Nat × Nat)
  /-- The UNSTASH whose read it is, by sequence number; none for an FLQ. -/
  reader : Option (BitVec 8)
  deriving DecidableEq, Repr

/-- A stash entry's index: tag, and where it is: ring offset and length, DDR, flash or a recompute marker (R281 to R283,
R367). -/
structure StashTag where
  ctx : Nat
  tag : Word
  /-- 0 ring, 1 DDR, 2 flash, 3 marker. -/
  where_ : Nat
  offset : Nat
  length : Nat
  deriving DecidableEq, Repr

/-- What the Dray core holds for a context (R281, R364, R367). -/
structure DrayCtx where
  stashb : Dword
  stashl : Dword
  spillb : Dword
  spillf : Dword
  flqt : Dword
  tags : List StashTag
  /-- Where the ring and the spill area take their next entry, and the flash region its next block (R282, R367). -/
  head : Nat
  spillHead : Nat
  flashNext : Nat
  /-- Queue pairs: submission tail, entries not completed, completion tail (R284, R365, R366). -/
  pairs : Table (Nat × Nat × Nat)
  /-- Reads submitted and not completed, oldest first. -/
  reads : List FlashRead
  deriving DecidableEq, Repr

/-- A post buffer's block waiting in the block queue (R361). -/
structure Block where
  off : Nat
  slot : Nat
  deriving DecidableEq, Repr

/-- A registry entry at a home: a 128-byte line, an owner core and a 32-bit mask, in order of creation (R202). -/
structure RegEntry where
  line : Nat
  owner : Nat
  mask : Word
  deriving DecidableEq, Repr

/-- A tile: what its cores share, its home slice and its network interface. -/
structure Tile where
  vway : BitVec 32
  bfmt : Vector Dword 16
  bdrop : Vector Word 16
  sems : Vector (BitVec 16) 16
  semOvf : BitVec 16
  /-- Waiting SEMPs, in order of arrival: slot and semaphore (R251). -/
  semWait : List (Nat × Nat)
  grants : Vector Grant 4
  gsel : BitVec 4
  gsave : Dword
  /-- The last replenishing period whose deficits have been added (R124). -/
  period : Nat
  phases : Vector Phase 16
  trapevDrops : Nat
  /-- Hidden data of each record, by LM offset: the context, tag and acquire of its next firing (R113, R120, R131). -/
  records : Table (BitVec 11 × BitVec 5 × Bool)
  /-- Cancel marks: level, context, identifier (R118). -/
  cancels : List (Nat × Nat × Nat)
  /-- Contexts whose state the tile has saved and not copied back (R346, R348). -/
  away : List (BitVec 11)
  /-- Those of them that have been killed since (R346). -/
  awayKilled : List (BitVec 11)
  /-- Elections held: context, launch, key (R140). -/
  elections : List (Nat × Nat × BitVec 64)
  ldfs : List LdfWait
  registry : List RegEntry
  /-- Words marked lost, by address (R216), and words whose value is poisoned (R379). -/
  lostWords : List Nat
  poisoned : List Nat
  /-- Attach sets of the volumes whose descriptor is homed here: handle and tiles (R247). -/
  attached : Table (List Nat)
  fenced : Bool
  /-- The error lies in the slice's registry or translation cache (R379). -/
  sliceBad : Bool
  dray : Table DrayCtx
  queues : Vector (List Dword) 8
  qclosed : BitVec 8
  v : Vector (BitVec 2048) 16
  m : Vector (BitVec 64) 8
  /-- The context of the last stream (R148). -/
  vctx : Option (BitVec 11)
  stream : Option Stream
  z : Vector (BitVec 131072) 4
  zowner : Vector (Option (BitVec 11)) 4
  /-- How often the Press core's key has been drawn (R262). -/
  keyDraw : Nat
  mepoch : BitVec 7
  /-- The last 2^20 ns of the fabric time base that MEPOCH has counted (R262). -/
  mepochAt : Nat
  mcrej : Word
  watchdog : Nat
  pqcfg : Dword
  pqctx : BitVec 11
  blocks : List Block
  /-- The run queue the post cores share (R112, R359). -/
  postq : List Entry
  deriving DecidableEq, Repr

/-! ### Packages and the domain -/

/-- A gang's slice at a package (R370 to R373). -/
structure Gang where
  ctx : Nat
  /-- Fabric times of the slice's start and end, in ns. -/
  start : Nat
  finish : Nat
  /-- Grace in ns; 0 once it is spent. -/
  grace : Nat
  /-- 0 waiting for its start, 1 running, 2 late, 3 no slice under way. -/
  state : Nat
  /-- Address of the gang table. -/
  table_ : Nat
  members : List Nat
  /-- Members whose acknowledgement of the launch has come, and when the wait for it ends; 0 when there is none. -/
  acks : List Nat
  deadline : Nat
  /-- Members that have said they are late. -/
  late : List Nat
  /-- Statuses that the coordinator has still to write to the table: a full dirty log holds them (R196). -/
  owed : List Nat
  deriving DecidableEq, Repr

/-- A package of the domain (R356 to R363, R375 to R381). -/
structure Pkg where
  present : Bool
  /-- READY0 to READY2. -/
  ready : Vector Dword 3
  /-- Functions whose training has failed, and links whose retries have (R376, R380): the number of the readiness bit, 64 to
  127 in READY1 and 128 to 191 in READY2. -/
  failed : List Nat
  /-- The image has failed verification (R378). -/
  recovery : Bool
  /-- Clock steps, four bits a die (R381). -/
  dstep : BitVec 16
  pcap : Dword
  pwr : Dword
  eccc : Word
  /-- The fused floor of the image's version (R377). -/
  version : Nat
  excluded : List Nat
  /-- The fabric time base's offset from State.ftime, in ns. -/
  ftimeOff : Nat
  gangs : Table Gang
  /-- The firmware image the device holds: offset and doubleword (R377, R378). -/
  image : Table Dword
  /-- Frames the firmware has taken for page tables (R193, R352). -/
  tables : List Nat
  deriving DecidableEq, Repr

/-- A context (R334). -/
structure Ctx where
  part : BitVec 6
  priv : BitVec 2
  root : Nat
  tvec : Dword
  dead : Bool
  deriving DecidableEq, Repr

/-- A partition (R196, R334, R344, R363). -/
structure Part where
  /-- The supervisor context. -/
  sup : Option Nat
  /-- Physical address of the dirty-log descriptor; none while not set. -/
  log : Option Nat
  /-- Package and physical address of the kill-ring descriptor; none while not set. -/
  kring : Option (Nat × Nat)
  hosts : List Nat
  exitSent : Bool
  deriving DecidableEq, Repr

/-- A frame-map entry (R193, Table 5). -/
structure Frame where
  dirty : Bool
  part : Nat
  vpn : Nat
  deriving DecidableEq, Repr

/-- A launch (R115 to R117). -/
structure Launch where
  counter : Nat
  record : Dword
  status : Nat
  /-- Core where its first task started, by its LAUNCH or from a record. -/
  core : Option Nat
  error : Bool
  cancelled : Bool
  killed : Bool
  sender : BitVec 23
  sslot : BitVec 3
  slaunch : Word
  deriving DecidableEq, Repr

/-- An ended task whose stores or commands are not all settled (R139, R342). `task` is one whose TEND has freed its slot and whose
release is not made yet, as it was at that TEND. -/
structure Ending where
  uid : Nat
  ctx : BitVec 11
  launch : Word
  slot : Nat
  task : Option Task
  deriving DecidableEq, Repr

/-- A kill in progress, or its record held (R343, R344). -/
structure Kill where
  ctx : Nat
  record : List Dword
  others : Nat
  deriving DecidableEq, Repr

/-! ### Messages and requests in flight -/

/-- What a packet carries. -/
inductive Body where
  /-- A message of R105: header and payload; `scope` marks a start that acquires (R131). -/
  | msg (header : BitVec 64) (payload : List Dword)
  /-- A message the device itself made (R113), with the DEC's context and tile. -/
  | own (header : BitVec 64) (payload : List Dword)
  /-- A fill request for a line, or a write request when `grant`, which asks for the grant alone when the line is `present`
  (R201, R204); `held` once it waits for a full dirty log (R196). -/
  | fill (line ctx : Nat) (priv : BitVec 2) (grant present held : Bool)
  /-- A forwarded read of the registered words of a line (R204), with the words gathered so far. -/
  | forward (line ctx : Nat) (grant : Bool) (got : List (Nat × Word)) (slot req : Nat)
  /-- The fill on its way back, with each word's value and 1 where it is lost or 2 where poisoned, or its failure. -/
  | filled (line ctx : Nat) (grant : Bool) (words : List (Nat × Word × Nat)) (cause : Cause) (slot req : Nat)
  /-- A registration of a word (R201). -/
  | reg (va ctx : Nat) (slot uid : Nat) (tag : BitVec 5)
  /-- A revoke of a word (R202). -/
  | revoke (va : Nat)
  /-- A recall of words; `drop` for a strong access (R203, R214). -/
  | recall (line : Nat) (mask : Word) (drop : Bool)
  /-- A write-back of words (R213). -/
  | writeBack (words : List (Nat × Word))
  /-- A strong load or store (R214). -/
  | strong (va size ctx : Nat) (priv : BitVec 2) (store : Bool) (data : Dword)
  /-- An access to placed memory (R215, R228): `op` 0 load or store, 1 TESTF or SETF, 2 SETE; `weak` for a weak store. -/
  | placed (vault : Bool) (tile off size ctx : Nat) (store weak : Bool) (op : Nat) (data : Dword) (tag : BitVec 5)
  /-- An LDF (R226). -/
  | ldf (vault : Bool) (tile off size ctx : Nat) (take : Bool)
  /-- An atomic (R217) on the word at `va`, of global memory, or of placed memory when a place is given (vault, tile,
  offset): the CAS operation is 16. -/
  | atomic (place : Option (Bool × Nat × Nat)) (va size ctx : Nat) (priv : BitVec 2) (op : Nat) (data cmp : Dword) (posted : Bool) (tag : BitVec 5)
  /-- Any reply to the request of a slot. -/
  | reply (req : Nat) (r : Reply)
  /-- The acknowledgement of a posted atomic, or of a weak placed store (R207, R221). -/
  | ack (id uid : Nat) (cause : Cause) (va : Dword)
  /-- An allocation (R241). -/
  | alloc (entry level handle ctx : Nat) (priv : BitVec 2)
  /-- An election (R140). -/
  | elect (ctx launch : Nat) (key : BitVec 64)
  /-- A declaration (R142). -/
  | declare (slot : Nat) (count : Nat) (seq : Word) (succ core : Nat) (launch : Word) (ctx : BitVec 11) (tiles : List Nat)
  /-- A cancel to a tile (R118, R144). -/
  | cancel (level ctx ident : Nat)
  /-- A change-log entry on its way to the home of its galley's extension; its cell is held until it is made, and `times`
  elements log it (R315, R327). -/
  | logEntry (handle ctx key cell times : Nat) (stamp : Word)
  /-- A CLB shootdown of the tiles of a volume, or of all when `whole`, with the blocks that are freed: address and size
  (R248). -/
  | shootdown (handle : Nat) (tiles : List Nat) (whole : Bool) (blocks : List (Nat × Nat))
  /-- A posted count of a volume's descriptor: EMPTY 0, OOB 1, or EMPTYU of a galley 2 (R243, R307); `held` once it waits for a
  full dirty log (R196). -/
  | volCount (handle ctx which : Nat) (held : Bool)
  deriving DecidableEq, Repr

/-- A packet: its number, the slot that sent it, the core it goes to. -/
structure Packet where
  id : Nat
  src : Nat
  dst : Nat
  /-- Launch of the sending task, which the NI adds (R105). -/
  launch : Word
  body : Body
  deriving DecidableEq, Repr

/-- Who moves next, and how much time that takes: data that stand for what the device is free to choose. -/
inductive Who where
  | core (core : Nat)
  | stream (tile : Nat)
  | event (e : Instr)
  deriving DecidableEq, Repr

/-- A turn: who moves, the arithmetic-clock cycles it takes, and the nanoseconds. -/
structure Turn where
  who : Who
  cycles : Nat
  ns : Nat
  deriving DecidableEq, Repr

/-- The machine. -/
structure State where
  /-- Bytes of LM, vault and DDR storage, by storage key, in canonical form. -/
  mem : List Host.Cell
  /-- Bytes of the controllers' flash, in the same form: by controller, namespace, logical block and byte (R364 to R367). -/
  flash : List Host.Cell
  /-- Storage keys of the words whose full bit is set, rising (R225). -/
  full : List Nat
  /-- Storage keys of words of placed memory whose value an uncorrectable error has spoilt (R338, R379). -/
  spoilt : List Nat
  tasks : Table Task
  cores : Table Core
  tiles : Table Tile
  pkgs : Table Pkg
  ctxs : Table Ctx
  parts : Table Part
  /-- Mapped frames by package × 2^28 + frame number (R193). -/
  frames : Table Frame
  /-- Live launches by context × 2^32 + identifier (R116). -/
  launches : Table Launch
  ending : List Ending
  kills : List Kill
  net : List Packet
  /-- What has arrived at the hosts: host package and payload (R146, R363). -/
  inbox : List (Nat × List Dword)
  /-- What the M-level partition manager has been sent: the partition, and a kill record, or nothing for an exit event (R196,
  R344). -/
  manager : List (Nat × List Dword)
  nextId : Nat
  /-- How many free values have been drawn (R13, R40, R262). -/
  draws : Nat
  /-- Cycles of the arithmetic clock, and nanoseconds of the fabric time base (R11, R358). -/
  cyc : Nat
  ftime : Nat
  /-- The slot whose instruction executes. -/
  here : Nat
  /-- Turns that are laid down; when none is left the default order moves. -/
  agenda : List Turn
  /-- The default order's place in its round of the cores. -/
  round : Nat
  deriving DecidableEq, Repr

/-! ### Reset -/

def Grant.reset : Grant := { dw0 := 0, dw1 := 0, dw2 := 0, leaving := false, saving := false, saved := none, deficit := 0 }

def Phase.reset : Phase :=
  { decl := false, remain := 0, ovr := false, seq := 0, succ := 0, core := 0, launch := 0, ctx := 0, tiles := [],
    status := 0, cancelled := false, done := 0, lstat := 0, lword := 0, lop := 0, lwres := 0 }

/-- BFMTn at reset: FMT 8 and FNP 0x1_0387 (R177, Table 2). -/
def bfmtReset : Dword := 0x103878#64

/-- A tile at reset: VWAY all OFF (R181), semaphores 0 (R251), no grant, queues empty and open (R151). -/
def Tile.reset : Tile :=
  { vway := 0, bfmt := Vector.replicate 16 bfmtReset, bdrop := Vector.replicate 16 0,
    sems := Vector.replicate 16 0, semOvf := 0, semWait := [], grants := Vector.replicate 4 Grant.reset,
    gsel := 0, gsave := 0, period := 0, phases := Vector.replicate 16 Phase.reset, trapevDrops := 0, records := [],
    cancels := [], away := [], awayKilled := [], elections := [], ldfs := [], registry := [], lostWords := [], poisoned := [],
    attached := [], fenced := false, sliceBad := false,
    dray := [], queues := Vector.replicate 8 [], qclosed := 0, v := Vector.replicate 16 0,
    m := Vector.replicate 8 0, vctx := none, stream := none, z := Vector.replicate 4 0,
    zowner := Vector.replicate 4 none, keyDraw := 0, mepoch := 0, mepochAt := 0, mcrej := 0, watchdog := 0, pqcfg := 0, pqctx := 0,
    blocks := [], postq := [] }

/-- A core at reset. -/
def Core.reset : Core :=
  { l1 := [], grants := [], fills := [], vols := [], clb := [], entries := [], lent := [], wanted := [], ring := [],
    nextSeq := 0, lastSlot := 0, handlerRun := 0, inlineViol := 0, malformed := 0, stray := 0,
    landDisc := 0, starts := [], staged := [], cycBase := 0 }

/-- A package at reset: nothing ready, SEC 0 (R375 to R378). -/
def Pkg.reset : Pkg :=
  { present := true, ready := Vector.replicate 3 0, failed := [], recovery := false, dstep := 0,
    pcap := 2000, pwr := 0, eccc := 0, version := 0, excluded := [], ftimeOff := 0, gangs := [],
    image := [], tables := [] }

def DrayCtx.reset : DrayCtx :=
  { stashb := 0, stashl := 0, spillb := 0, spillf := 0, flqt := 0, tags := [], head := 0, spillHead := 0, flashNext := 0,
    pairs := [], reads := [] }

/-- The machine right after reset: one package, no context, no task, no byte written. -/
def State.reset : State :=
  { mem := [], flash := [], full := [], spoilt := [], tasks := [], cores := [], tiles := [], pkgs := [(0, Pkg.reset)], ctxs := [], parts := [],
    frames := [], launches := [], ending := [], kills := [], net := [], inbox := [], manager := [], nextId := 1, draws := 0, cyc := 0,
    ftime := 0, here := 0, agenda := [], round := 0 }

/-! ### Stops -/

/-- Why the machine stops. -/
inductive Fault where
  /-- Raised by a scalar instruction executed for a slot that holds no task. No turn of `step` does so: it is the answer
  `exec` gives outside the machine's own runs. Safe. -/
  | noTask
  /-- Raised by a vector instruction executed as the stream of a tile that runs none. Safe, as `noTask`. -/
  | noStream
  deriving DecidableEq, Repr

/-- Why an instruction has no meaning here. -/
inductive Refusal where
  /-- Raised by an arm of `exec` whose instruction has not been modelled yet, under its mnemonic. Safe. -/
  | notModelled (mnemonic : String)
  deriving DecidableEq, Repr

end Sys2Proof.Machine
end

