-- ==== Sys2Proof/Config.lean ====
section
/-!
DEFINITION. Sys2Proof/Config.lean: the sizes the spec fixes, and the free values it leaves open.
A free value has no body: no proof can know it, and a statement that mentions it holds whatever it is.
-/

namespace Sys2Proof.Config

/-- Tiles of a package (R3, R189). -/
def tilesPerPackage : Nat := 1024
/-- Words a byte of storage that nothing has written reads as (log 1). -/
def emptyByte : Byte := 0#8
/-- Cycles of a step that no turn of the agenda states (log 3). -/
def defaultCycles : Nat := 1
/-- Nanoseconds of such a step (log 3). -/
def defaultNs : Nat := 1

/-- The n-th draw of 64 fresh entropy bits, for RAND, stochastic rounding and keys (R13, R39, R40, R262; log 5). -/
opaque entropy : Nat → BitVec 64
/-- The first 24 bits of HMAC-SHA-384 under the k-th key of the Press core of a tile, of bytes 3 to 7 of a token (R261,
R262; log 13). -/
opaque tokenCheck : (tile keyDraw : Nat) → BitVec 40 → BitVec 24
/-- SHA-384 of bytes (R377, R378; log 13). -/
opaque sha384 : List (BitVec 8) → BitVec 384
/-- The verifying key accepts a signature r, s of a digest (R377; log 13). -/
opaque signatureGood : (digest r s : BitVec 384) → Bool
/-- The signature, r above s, that the identity key of a package makes of a digest (R378; log 13). -/
opaque identitySign : (pkg : Nat) → (digest : BitVec 384) → BitVec 768
/-- The tile of a package that a key's hash picks as its election home (R140; log 17). -/
opaque electionTile : (ctx launch : Nat) → BitVec 64 → BitVec 10
/-- How an atomic's operation, size, operand and expected value stand in the payload of a class-5 or class-6 message that
a program builds itself: the operation from 0 to 16, whether it is a doubleword, operand, expected value (log 14). -/
opaque atomicOp : List (BitVec 64) → BitVec 5
opaque atomicWide : List (BitVec 64) → Bool
opaque atomicOperand : List (BitVec 64) → BitVec 64
opaque atomicExpected : List (BitVec 64) → BitVec 64

/-- The n-th value the spec does not state, drawn in the order of use (log 18). -/
opaque openValue : Nat → BitVec 64
/-- Whether a package number of the domain is a host's (R352, R363; log 19). -/
opaque isHost : Nat → Bool
/-- The DDR channel group, 0 to 15, that the hash of R187 gives a 256-byte granule of a package, named by pa[39:8] (R376;
log 19). -/
opaque ddrGroup : (pkg granule : Nat) → BitVec 4

end Sys2Proof.Config
end

