-- ==== Sys2Proof/Machine/Table.lean ====
section
/-!
DEFINITION. Sys2Proof/Machine/Table.lean: finite tables, sorted sets of numbers, and storage in canonical form.
-/

namespace Sys2Proof.Machine

/-- The value of a key. -/
def tget {α : Type} : Table α → Nat → Option α
  | [], _ => none
  | (j, v) :: r, k => if j = k then some v else tget r k

/-- Sets the value of a key, keys in rising order. -/
def tput {α : Type} : Table α → Nat → α → Table α
  | [], k, v => [(k, v)]
  | (j, w) :: r, k, v =>
    if k = j then (k, v) :: r else if k < j then (k, v) :: (j, w) :: r else (j, w) :: tput r k v

/-- Removes a key. -/
def tdel {α : Type} (t : Table α) (k : Nat) : Table α := t.filter (fun x => x.1 != k)

/-- Adds a number to a rising list. -/
def nput : List Nat → Nat → List Nat
  | [], k => [k]
  | j :: r, k => if k = j then j :: r else if k < j then k :: j :: r else j :: nput r k

/-- Removes a number. -/
def ndel (l : List Nat) (k : Nat) : List Nat := l.filter (fun x => x != k)

/-! ### Storage -/

/-- A byte of storage; one that is not listed reads as `Config.emptyByte`. -/
def cellGet : List (Nat × Byte) → Nat → Byte
  | [], _ => Config.emptyByte
  | (j, v) :: r, k => if j = k then v else cellGet r k

/-- Writes a byte of storage, keeping keys rising and no entry equal to what an unlisted byte reads as. -/
def cellPut : List (Nat × Byte) → Nat → Byte → List (Nat × Byte)
  | [], k, v => if v = Config.emptyByte then [] else [(k, v)]
  | (j, w) :: r, k, v =>
    if k = j then (if v = Config.emptyByte then r else (k, v) :: r)
    else if k < j then (if v = Config.emptyByte then (j, w) :: r else (k, v) :: (j, w) :: r)
    else (j, w) :: cellPut r k v

/-- Every listed key is above `lo`, keys rise strictly, and no entry equals an unlisted byte. -/
def cellsAbove : Nat → List (Nat × Byte) → Bool
  | _, [] => true
  | lo, (j, v) :: r => decide (lo ≤ j) && decide (v ≠ Config.emptyByte) && cellsAbove (j + 1) r

/-- The canonical form of storage. -/
def Memory.wf (m : List (Nat × Byte)) : Bool := cellsAbove 0 m

/-- n bytes from a key up, the lowest key in the lowest bits. -/
def cellsGet (m : List (Nat × Byte)) (k : Nat) : Nat → Nat
  | 0 => 0
  | n + 1 => (cellGet m k).toNat + 256 * cellsGet m (k + 1) n

/-- Writes n bytes from a key up, little-endian. -/
def cellsPut (m : List (Nat × Byte)) (k : Nat) : Nat → Nat → List (Nat × Byte)
  | 0, _ => m
  | n + 1, v => cellsPut (cellPut m k (BitVec.ofNat 8 v)) (k + 1) n (v / 256)

end Sys2Proof.Machine
end

