-- ==== Sys2Proof/Machine/Ops.lean ====
section
/-!
DEFINITION. Sys2Proof/Machine/Ops.lean: the named operations over registers, storage, messages and tasks; the end and the
kill of work; taking a trap and returning from one; and the frame every scalar instruction runs in.
-/

namespace Sys2Proof.Machine

/-- What an instruction or a step of the device answers. -/
abbrev Result := Host.Outcome State Fault Refusal

/-- The instruction a 32-bit word of a task encodes. -/
def taskWord (w : Word) : Option Instr := (decodeScalar w).filter Instr.wf

/-- The word is that of a VGO (R148). -/
def isVgo (w : Word) : Bool :=
  match taskWord w with
  | some (.vgo _ _) => true
  | _ => false

/-! Cause codes (R338, Table 2). -/
def causeIllegal : Cause := 0x01#8
def causePriv : Cause := 0x02#8
def causeMisalign : Cause := 0x03#8
def causeStacklim : Cause := 0x04#8
def causeDivz : Cause := 0x05#8
def causeXlate : Cause := 0x06#8
def causeProt : Cause := 0x07#8
def causeCow : Cause := 0x08#8
def causeOwnerlost : Cause := 0x09#8
def causeVolalloc : Cause := 0x0A#8
def causeVolbounds : Cause := 0x0B#8
def causeBudget : Cause := 0x0C#8
def causeEngine : Cause := 0x0D#8
def causeFpexc : Cause := 0x10#8
def causeSyscall : Cause := 0x11#8
def causeQueue : Cause := 0x12#8
def causeMcheck : Cause := 0x13#8

/-! ### Keys (State.lean) -/

def slotCore (k : Nat) : Nat := k / 16
def slotTile (k : Nat) : Nat := k / 256
def coreTile (c : Nat) : Nat := c / 16
def coreNum (c : Nat) : Nat := c % 16
def tilePkg (t : Nat) : Nat := t / 1024
def tileKey (pkg tile : Nat) : Nat := pkg * 1024 + tile % 1024
def coreKey (tile n : Nat) : Nat := tile * 16 + n
def slotKey (core n : Nat) : Nat := core * 16 + n
/-- The key of the handler context of a core. -/
def handlerKey (core : Nat) : Nat := slotKey core 8
/-- The network interface of a tile, as the sender of what the device itself makes. -/
def niKey (tile : Nat) : Nat := slotKey (coreKey tile 15) 15
/-- The home slice of a tile, as a destination. -/
def homeCore (tile : Nat) : Nat := coreKey tile 12
/-- The slot key of a tile's vector stream. -/
def streamKey (tile : Nat) : Nat := slotKey (coreKey tile 6) 15

/-- Package << 13 | core id (R6); the core id is tile × 8 + n, and a post core answers with that of its tile's NI. -/
def fabricAddr (core : Nat) : BitVec 23 :=
  BitVec.ofNat 23 (tilePkg (coreTile core) * 2 ^ 13 + coreTile core % 1024 * 8 +
    (if 8 ≤ coreNum core then 7 else coreNum core))

/-- The core of a fabric address. -/
def coreOfFabric (a : Nat) : Nat := coreKey (tileKey (a / 2 ^ 13) (a / 8 % 1024)) (a % 8)

/-! ### Reading and changing parts of the state -/

def taskAt (s : State) (k : Nat) : Option Task := tget s.tasks k
def putTask (s : State) (k : Nat) (t : Task) : State := { s with tasks := tput s.tasks k t }
def dropTask (s : State) (k : Nat) : State := { s with tasks := tdel s.tasks k }
/-- Changes the task of a slot, if there is one. -/
def modTask (s : State) (k : Nat) (f : Task → Task) : State :=
  match taskAt s k with
  | some t => putTask s k (f t)
  | none => s
def coreAt (s : State) (c : Nat) : Core := (tget s.cores c).getD Core.reset
def putCore (s : State) (c : Nat) (x : Core) : State := { s with cores := tput s.cores c x }
def modCore (s : State) (c : Nat) (f : Core → Core) : State := putCore s c (f (coreAt s c))
def tileAt (s : State) (t : Nat) : Tile := (tget s.tiles t).getD Tile.reset
def putTile (s : State) (t : Nat) (x : Tile) : State := { s with tiles := tput s.tiles t x }
def modTile (s : State) (t : Nat) (f : Tile → Tile) : State := putTile s t (f (tileAt s t))
def pkgAt (s : State) (p : Nat) : Pkg := (tget s.pkgs p).getD { Pkg.reset with present := false }
def putPkg (s : State) (p : Nat) (x : Pkg) : State := { s with pkgs := tput s.pkgs p x }
def modPkg (s : State) (p : Nat) (f : Pkg → Pkg) : State := putPkg s p (f (pkgAt s p))
def ctxAt (s : State) (c : Nat) : Option Ctx := tget s.ctxs c
def partAt (s : State) (p : Nat) : Part :=
  (tget s.parts p).getD { sup := none, log := none, kring := none, hosts := [], exitSent := false }

/-- The package is part of the domain. -/
def pkgPresent (s : State) (p : Nat) : Bool := (pkgAt s p).present
/-- The context exists and is not dead (R343). -/
def ctxLive (s : State) (c : Nat) : Bool :=
  match ctxAt s c with
  | some x => !x.dead
  | none => false
def ctxPriv (s : State) (c : Nat) : BitVec 2 := ((ctxAt s c).map (·.priv)).getD 0
def ctxPart (s : State) (c : Nat) : Nat := ((ctxAt s c).map (·.part.toNat)).getD 0

/-- The task whose instruction executes. -/
def hereTask (s : State) : Option Task := taskAt s s.here
def hereCore (s : State) : Nat := slotCore s.here
def hereTile (s : State) : Nat := slotTile s.here

/-- The fabric time base of a package, in ns (R358). -/
def fabricTime (s : State) (pkg : Nat) : Nat := s.ftime + (pkgAt s pkg).ftimeOff

/-- A draw of 64 fresh bits (R13). -/
def drawBits (s : State) : BitVec 64 × State := (Config.entropy s.draws, { s with draws := s.draws + 1 })

/-- A value the spec does not state. -/
def drawOpen (s : State) : Dword × State := (Config.openValue s.draws, { s with draws := s.draws + 1 })

/-! ### Registers (R9, R69) -/

/-- G(n): g0 reads as 0. -/
def gGet (t : Task) (n : BitVec 5) : Dword := if n = 0#5 then 0#64 else t.g[n.toNat]'(n.isLt)
/-- G(n) := v: a write of g0 is discarded. -/
def gSet (t : Task) (n : BitVec 5) (v : Dword) : Task :=
  if n = 0#5 then t else { t with g := t.g.set n.toNat v n.isLt, spoilt := ndel t.spoilt n.toNat }
def fGet (t : Task) (n : BitVec 5) : Word := t.f[n.toNat]'(n.isLt)
def fSet (t : Task) (n : BitVec 5) (v : Word) : Task :=
  { t with f := t.f.set n.toNat v n.isLt, spoilt := ndel t.spoilt (32 + n.toNat) }
/-- P(n): p0 reads as true. -/
def pGet (t : Task) (n : BitVec 3) : Bool := if n = 0#3 then true else t.p.getLsbD n.toNat
/-- P(n) := v: a write of p0 is discarded. -/
def pSet (t : Task) (n : BitVec 3) (v : Bool) : Task :=
  if n = 0#3 then t
  else { t with p := if v then t.p ||| (1#8 <<< n.toNat) else t.p &&& ~~~(1#8 <<< n.toNat)
                spoilt := ndel t.spoilt (64 + n.toNat) }
/-- The guard of R10: bit 3 negates, bits [2:0] pick a predicate. -/
def guardHolds (t : Task) (g : BitVec 4) : Bool := pGet t (g.extractLsb' 0 3) != g.getLsbD 3

/-! ### The program counter (R9, R16, R86) -/

/-- pc := a: 48 bits of it, the bits above kept for the fetch. -/
def setPc (t : Task) (a : Dword) : Task := { t with pc := a.setWidth 48, pcOver := a.extractLsb' 48 16 }
/-- The address a task is at, the bits above pc's 48 included. -/
def wholePc (t : Task) : Dword := t.pcOver ++ t.pc

/-! ### Storage -/

/-- Storage key of an LM offset, a vault offset and a physical address (R176, R182, R187). -/
def lmKey (tile off : Nat) : Nat := tile * 2 ^ 20 + off
def vaultKey (tile off : Nat) : Nat := 2 ^ 44 + tile * 2 ^ 23 + off
def ddrKey (pkg pa : Nat) : Nat := 2 ^ 50 + pkg * 2 ^ 40 + pa

def storeGet (s : State) (k n : Nat) : Nat := cellsGet s.mem k n
/-- Writes n bytes; a word written whole is no longer spoilt. -/
def storePut (s : State) (k n v : Nat) : State :=
  { s with mem := cellsPut s.mem k n v, spoilt := s.spoilt.filter (fun w => !(decide (k ≤ w) && decide (w + 4 ≤ k + n))) }
def lmGet (s : State) (tile off n : Nat) : Nat := storeGet s (lmKey tile off) n
def lmPut (s : State) (tile off n v : Nat) : State := storePut s (lmKey tile off) n v
def lmDword (s : State) (tile off : Nat) : Dword := BitVec.ofNat 64 (lmGet s tile off 8)
/-- n bytes of storage, the lowest first. -/
def storeBytes (s : State) (k : Nat) : Nat → List Byte
  | 0 => []
  | n + 1 => cellGet s.mem k :: storeBytes s (k + 1) n
/-- Fills n bytes of storage with the byte an unlisted one reads as. -/
def storeClear (s : State) (k n : Nat) : State :=
  { s with mem := s.mem.filter (fun c => !(decide (k ≤ c.1) && decide (c.1 < k + n)))
           spoilt := s.spoilt.filter (fun w => !(decide (k ≤ w) && decide (w + 4 ≤ k + n))) }
/-- A word of the n bytes of storage is spoilt. -/
def spoiltAt (s : State) (k n : Nat) : Bool := s.spoilt.any (fun w => decide (w < k + n) && decide (k < w + 4))

/-- The full bit of the word at a storage key (R225). -/
def fullGet (s : State) (k : Nat) : Bool := s.full.contains k
def fullSet (s : State) (k : Nat) : State := { s with full := nput s.full k }
def fullClear (s : State) (k : Nat) : State := { s with full := ndel s.full k }
def fullClearRange (s : State) (k n : Nat) : State :=
  { s with full := s.full.filter (fun x => !(decide (k ≤ x) && decide (x < k + n))) }

/-! ### Grants (R345) -/

def grantValid (g : Grant) : Bool := g.dw0.getLsbD 63
def grantCtx (g : Grant) : BitVec 11 := g.dw0.extractLsb' 52 11
/-- The context's valid grant on a tile, with its number. -/
def grantOf (s : State) (tile : Nat) (ctx : BitVec 11) : Option (Nat × Grant) :=
  let gs := (tileAt s tile).grants.toList
  (List.range 4).zip gs |>.find? (fun x => grantValid x.2 && grantCtx x.2 == ctx)
def grantBanks (g : Grant) : BitVec 16 := g.dw1.extractLsb' 48 16
def grantWays (g : Grant) : BitVec 16 := g.dw0.extractLsb' 16 16
def grantSems (g : Grant) : BitVec 16 := g.dw0.extractLsb' 0 16
def grantLines (g : Grant) : BitVec 16 := g.dw2.extractLsb' 0 16
def grantRtab (g : Grant) : Nat := (g.dw1.extractLsb' 8 20).toNat
def grantCbase (g : Grant) : Dword := (g.dw2.extractLsb' 16 48).setWidth 64
def grantWeight (g : Grant) : Nat := (g.dw0.extractLsb' 44 8).toNat
def grantPre (g : Grant) : Bool := g.dw0.getLsbD 43
/-- Changes the context's grant on a tile. -/
def modGrant (s : State) (tile n : Nat) (f : Grant → Grant) : State :=
  modTile s tile (fun t => { t with grants := t.grants.setIfInBounds n (f (t.grants.getD n Grant.reset)) })
/-- What a mask of the context's grant holds; false without a valid grant. -/
def granted (s : State) (tile : Nat) (ctx : BitVec 11) (mask : Grant → BitVec 16) (n : Nat) : Bool :=
  match grantOf s tile ctx with
  | some (_, g) => (mask g).getLsbD n
  | none => false
def bankHeld (s : State) (tile : Nat) (ctx : BitVec 11) (off : Nat) : Bool :=
  granted s tile ctx grantBanks (off / 2 ^ 16)
/-- The role of a way: 0 OFF, 1 CACHE, 2 DIRECT (R181). -/
def wayRole (s : State) (tile way : Nat) : Nat := ((tileAt s tile).vway.extractLsb' (2 * way) 2).toNat
def wayHeld (s : State) (tile : Nat) (ctx : BitVec 11) (off : Nat) : Bool :=
  granted s tile ctx grantWays (off / 2 ^ 19)
def rtabOf (s : State) (tile : Nat) (ctx : BitVec 11) : Nat :=
  ((grantOf s tile ctx).map (fun x => grantRtab x.2)).getD 0
/-- Charges a context's deficit on a tile (R124). -/
def charge (s : State) (tile : Nat) (ctx : BitVec 11) (n : Nat) : State :=
  match grantOf s tile ctx with
  | some (i, _) => modGrant s tile i (fun g => { g with deficit := g.deficit - n })
  | none => s

/-! ### Packets (R105, R110, R111) -/

/-- Adds a packet to those in flight. -/
def post (s : State) (src dst : Nat) (launch : Word) (b : Body) : State :=
  { s with net := s.net ++ [{ id := s.nextId, src := src, dst := dst, launch := launch, body := b }],
           nextId := s.nextId + 1 }

/-- Packets whose order from one slot to one core R111 and R215 keep. -/
def keepsOrder (b : Body) : Bool :=
  match b with
  | .msg _ _ => true
  | .placed _ _ _ _ _ _ _ _ _ _ => true
  | .ldf _ _ _ _ _ _ => true
  | .atomic _ _ _ _ _ _ _ _ _ _ => true
  | .writeBack _ => true
  | _ => false

/-- A packet may arrive: no packet before it in flight goes the same way in order (R111). -/
def deliverable : List Packet → Nat → Bool
  | [], _ => false
  | p :: r, id =>
    if p.id = id then true
    else deliverable r id &&
      !(r.any (fun q => q.id == id && q.src == p.src && q.dst == p.dst && keepsOrder q.body && keepsOrder p.body))

/-- A packet leaves its package. -/
def leaves (p : Packet) : Bool := tilePkg (slotTile p.src) != tilePkg (coreTile p.dst)
/-- The bits of READY2 that Table 1 of R375 gives a function; the others read as 0 (R4). -/
def readyMask : Dword := 0x83FFFFFFFFFFFFFF
/-- READYn as it is read. -/
def readyWord (p : Pkg) (n : Nat) : Dword := if n = 2 then p.ready.getD 2 0 &&& readyMask else p.ready.getD n 0
/-- A link of a package is up (R375); a host's own links are outside. -/
def linkUp (s : State) (pkg : Nat) : Bool := !pkgPresent s pkg || ((pkgAt s pkg).ready.getD 2 0).extractLsb' 0 36 != 0#36
/-- No link of a package is up, and none will be: each has failed (R357, R380). -/
def cutOff (s : State) (pkg : Nat) : Bool :=
  !linkUp s pkg && (List.range 36).all (fun n => (pkgAt s pkg).failed.contains (128 + n))
/-- A message that has left its package has no working route (R357). -/
def stranded (s : State) (p : Packet) : Bool :=
  leaves p && (cutOff s (tilePkg (slotTile p.src)) || cutOff s (tilePkg (coreTile p.dst))) &&
    match p.body with
    | .msg _ _ => true
    | .own _ _ => true
    | .atomic _ _ _ _ _ _ _ _ _ _ => true
    | .cancel _ _ _ => true
    | _ => false
/-- A packet between packages travels once both have a link (R357, R376). -/
def routed (s : State) (p : Packet) : Bool :=
  !leaves p || (linkUp s (tilePkg (slotTile p.src)) && linkUp s (tilePkg (coreTile p.dst)))

/-- The packet that arrives, if it may, or the message that is lost. -/
def arriving (s : State) (id : Nat) : Option Packet :=
  if deliverable s.net id then (s.net.find? (fun p => p.id == id)).filter (fun p => routed s p || stranded s p) else none
def dropPacket (s : State) (id : Nat) : State := { s with net := s.net.filter (fun p => p.id != id) }
def setPacket (s : State) (p : Packet) : State :=
  { s with net := s.net.map (fun q => if q.id = p.id then p else q) }

/-! ### Headers (R105, Table 1) -/

def hdrClass (h : Dword) : Nat := (h.extractLsb' 46 8).toNat
def hdrCtx (h : Dword) : BitVec 11 := h.extractLsb' 35 11
def hdrTag (h : Dword) : BitVec 5 := if h.getLsbD 30 then (h.extractLsb' 31 4).setWidth 5 else 16#5
def hdrXf (h : Dword) : Nat := (h.extractLsb' 27 3).toNat
def hdrNlog (h : Dword) : Nat := (h.extractLsb' 25 2).toNat
def hdrRel (h : Dword) : Bool := h.getLsbD 24
def hdrHome (h : Dword) : Bool := h.getLsbD 23
def hdrDst (h : Dword) : Nat := (h.extractLsb' 0 23).toNat
/-- A header of the device's own making. -/
def mkHeader (cls : Nat) (ctx : BitVec 11) (tag : BitVec 5) (nlog : Nat) (rel : Bool) (dst : Nat) : Dword :=
  BitVec.ofNat 64 (cls * 2 ^ 46 + ctx.toNat * 2 ^ 35 + (if tag.getLsbD 4 then 0 else tag.toNat * 2 ^ 31 + 2 ^ 30) +
    nlog * 2 ^ 25 + (if rel then 2 ^ 24 else 0) + dst)

/-! ### TRAPEV (R145, R146) -/

/-- Sends a TRAPEV of a kind to the sender of what is reported: doubleword 0 of Table 8, the value, the header, and the
sender's launch and slot. -/
def report (s : State) (reporter : Nat) (sender : BitVec 23) (ctx : BitVec 11) (kind : Nat) (cause : Cause)
    (index : Nat) (value header : Dword) (launch : Word) (slot : BitVec 3) : State :=
  let d0 := BitVec.ofNat 64 (2 ^ 63 + kind * 2 ^ 48 + cause.toNat * 2 ^ 40 + index * 2 ^ 32 +
    (fabricAddr reporter).toNat)
  let d3 := BitVec.ofNat 64 (launch.toNat * 2 ^ 32 + slot.toNat)
  post s (niKey (coreTile reporter)) (coreOfFabric sender.toNat) launch
    (.own (mkHeader 15 ctx 16#5 2 false sender.toNat) [d0, value, header, d3])

/-- A counter of 32 bits that saturates (R141). -/
def satInc (n : Nat) : Nat := min (n + 1) (2 ^ 32 - 1)

/-! ### Launches (R115, R116) -/

def launchKey (ctx : BitVec 11) (id : Word) : Nat := ctx.toNat * 2 ^ 32 + id.toNat
def Launch.fresh : Launch :=
  { counter := 0, record := 0, status := 0, core := none, error := false, cancelled := false, killed := false,
    sender := 0, sslot := 0, slaunch := 0 }
def launchAt (s : State) (ctx : BitVec 11) (id : Word) : Launch :=
  (tget s.launches (launchKey ctx id)).getD Launch.fresh
def modLaunch (s : State) (ctx : BitVec 11) (id : Word) (f : Launch → Launch) : State :=
  { s with launches := tput s.launches (launchKey ctx id) (f (launchAt s ctx id)) }
def launchUp (s : State) (ctx : BitVec 11) (id : Word) : State :=
  modLaunch s ctx id (fun l => { l with counter := l.counter + 1 })
def launchDown (s : State) (ctx : BitVec 11) (id : Word) : State :=
  modLaunch s ctx id (fun l => { l with counter := l.counter - 1 })

/-! ### Phases (R119 to R122) -/

def phaseAt (t : Tile) (n : Nat) : Phase := t.phases.getD n Phase.reset
def modPhase (s : State) (tile n : Nat) (f : Phase → Phase) : State :=
  modTile s tile (fun t => { t with phases := t.phases.setIfInBounds n (f (phaseAt t n)) })
/-- An arrival tagged on a tile: 1 off the slot's count, or the overrun marker (R120, R121). -/
def phaseArrive (s : State) (tile : Nat) (tag : BitVec 5) : State :=
  if tag.getLsbD 4 then s
  else modPhase s tile tag.toNat (fun p =>
    if p.decl && decide (p.remain ≤ 0) then { p with ovr := true } else { p with remain := p.remain - 1 })
/-- Sets a status bit of a tagged slot's phase (R122). -/
def phaseMark (s : State) (tile : Nat) (tag : BitVec 5) (bits : BitVec 4) : State :=
  if tag.getLsbD 4 then s else modPhase s tile tag.toNat (fun p => { p with status := p.status ||| bits })

/-! ### Commands of a task -/

/-- A command is complete or was discarded, for R139. -/
def cmdDone (c : Command) : Bool := c.state == 3 || c.state == 4 || c.state == 6
/-- The task has commands whose writes are tracked still (R254). -/
def cmdsPending (s : State) (uid : Nat) : Bool :=
  s.cores.any (fun x => x.2.ring.any (fun c => c.uid == uid && !cmdDone c))
/-- A task of the launch has been terminated: the counter falls, at once or when its last command is complete (R342). -/
def endLaunch (s : State) (t : Task) : State :=
  if cmdsPending s t.uid then
    { s with ending := s.ending ++ [{ uid := t.uid, ctx := t.ctx, launch := t.launch, slot := 0, task := none }] }
  else launchDown s t.ctx t.launch
/-- An ended task still has commands, or the stores that its TEND releases, or a refusal of one of them to take (R139, R207). -/
def Ending.open_ (s : State) (e : Ending) : Bool :=
  cmdsPending s e.uid ||
    match e.task with
    | some t => !t.outs.isEmpty || t.refused.isSome || !t.lost.isEmpty
    | none => false
/-- Counters of ended tasks whose stores and commands are now settled. -/
def settleEnding (s : State) : State :=
  let ready := s.ending.filter (fun e => !e.open_ s)
  ready.foldl (fun s e => launchDown s e.ctx e.launch)
    { s with ending := s.ending.filter (fun e => e.open_ s) }
/-- The TEND of a task whose slot has been freed at once: the release follows, and the counter falls with it (R139). -/
def endRelease (s : State) (k : Nat) (t : Task) : State :=
  settleEnding { s with
    ending := s.ending ++ [{ uid := t.uid, ctx := t.ctx, launch := t.launch, slot := k, task := some { t with pend := .idle } }] }

/-! ### Late faults of commands (R255, R257, R258) -/

def cmdAt (s : State) (core : Nat) (seq : BitVec 8) : Option Command :=
  (coreAt s core).ring.find? (fun e => e.seq == seq)
def modCmd (s : State) (core : Nat) (seq : BitVec 8) (f : Command → Command) : State :=
  modCore s core (fun c => { c with ring := c.ring.map (fun e => if e.seq = seq then f e else e) })

/-- The VALUE of KIND 7: sequence number, core id, fault kind (R255). -/
def lateValue (core : Nat) (seq kind : BitVec 8) : Dword :=
  BitVec.ofNat 64 (kind.toNat * 2 ^ 32 + (fabricAddr core).toNat % 2 ^ 13 * 2 ^ 8 + seq.toNat)
/-- The cause of a late fault: QUEUE for kind 9, ENGINE otherwise (R255). -/
def lateCause (kind : BitVec 8) : Cause := if kind = 9#8 then causeQueue else causeEngine

/-- A fault of a command whose task has ended: the KIND 7 event, the launch's status, the phase's mark; the entry
retires (R255). -/
def reportLate (s : State) (core : Nat) (c : Command) (kind : BitVec 8) : State :=
  let s := report s core (fabricAddr core) c.ctx 7 (lateCause kind) 0 (lateValue core c.seq kind) 0 c.launch
    (BitVec.ofNat 3 (c.slot % 16))
  let s := modLaunch s c.ctx c.launch (fun l => { l with error := true })
  let s := phaseMark s (coreTile core) c.tag 1#4
  modCmd s core c.seq (fun e => { e with unreported := false, held := false })

/-- Later commands of the same task are discarded (R255). -/
def discardLater (s : State) (core : Nat) (c : Command) : State :=
  modCore s core (fun x =>
    { x with ring := x.ring.map (fun e =>
        if e.uid = c.uid ∧ e.remote.isNone ∧ e.state = 1 ∧ (e.seq - c.seq).toNat < 128 then { e with state := 6 } else e) })

/-- A task has ended: its faulted commands are reported and released, a suspended one and what follows it are discarded; the
KIND 7 event stands in for an XLATE that the task has not taken (R255, R258). -/
def reportEnded (s : State) (core : Nat) (uid : Nat) : State :=
  (coreAt s core).ring.foldl (fun s e =>
    if e.uid = uid ∧ e.unreported ∧ e.state = 4 then reportLate s core e e.kind
    else if e.uid = uid ∧ e.state = 5 then
      let s := discardLater (modCmd s core e.seq (fun x => { x with state := 6, unreported := false })) core e
      if e.unreported then reportLate s core e 1 else s
    else if e.uid = uid ∧ e.held then modCmd s core e.seq (fun x => { x with held := false })
    else s) s

/-! ### The end of a slot's work -/

/-- Takes a slot out of every list it waits in, and gives back a credit it was granted and did not use (R340). -/
def unwait (s : State) (k : Nat) : State :=
  let t := slotTile k
  let s := modTile s t (fun x => { x with semWait := x.semWait.filter (fun w => w.1 != k) })
  { s with cores := s.cores.map (fun c =>
      (c.1, { c.2 with wanted := c.2.wanted.filter (fun w => w.1 != k) })) }

/-- One credit less lent to a sending tile for a class (R110). -/
def returnCredit (s : State) (core tile cls : Nat) : State :=
  modCore s core (fun c =>
    { c with lent := c.lent.filterMap (fun x =>
        if x.1 = tile ∧ x.2.1 = cls then (if x.2.2 ≤ 1 then none else some (x.1, x.2.1, x.2.2 - 1)) else some x) })

/-- Abandons the wait of a slot (R340): the requests in flight stay, their replies will be discarded. -/
def abandon (s : State) (k : Nat) : State :=
  match taskAt s k with
  | none => s
  | some t =>
    let s := unwait s k
    let s := t.pend.log.foldl (fun s x =>
      match x.1 with
      | .credit dst cls => returnCredit s dst (slotTile k) cls
      | _ => s) s
    modTask s k (fun t => { t with pend := .idle })

/-- The task's commands that have not begun, and a suspended one, are discarded (R258, R342). -/
def discardQueued (s : State) (uid : Nat) : State :=
  { s with cores := s.cores.map (fun c =>
      (c.1, { c.2 with ring := c.2.ring.map (fun e =>
        if e.uid = uid ∧ (e.state = 1 ∨ e.state = 5) then { e with state := 6 } else e) })) }

/-- The context's stack top of a slot on a tile (R345). -/
def stackTop (g : Grant) (core slot : Nat) : Dword :=
  let ssz := (g.dw0.extractLsb' 32 4).toNat
  let n := if core < 8 then 8 * core + slot else 56 + 8 * (core - 8) + slot
  BitVec.ofNat 64 ((g.dw1.extractLsb' 28 20).toNat + (n + 1) * 2 ^ (11 + ssz))

/-- Frees a slot: its registers, trap state, loop and bindings go (R139, R342). -/
def freeSlot (s : State) (k : Nat) : State :=
  let uid := ((taskAt s k).map (·.uid)).getD 0
  reportEnded (dropTask (abandon s k) k) (slotCore k) uid

/-- Terminates the task of a slot (R342); `tell` sends the TRAPEV of KIND 11. -/
def terminate (s : State) (k : Nat) (tell : Bool) : State :=
  match taskAt s k with
  | none => s
  | some t =>
    let s := freeSlot s k
    let s := discardQueued s t.uid
    let s := modLaunch s t.ctx t.launch (fun l => { l with killed := true })
    let s := endLaunch s t
    let s := phaseMark s (slotTile k) t.tag 4#4
    if tell then
      report s (slotCore k) (fabricAddr (slotCore k)) t.ctx 11 0x0C#8 0 (t.taskid.setWidth 64) 0 t.launch
        (BitVec.ofNat 3 (k % 16))
    else s

/-! ### Kill (R343) -/

/-- A record of a tile, if it is armed, is made spent: COUNT and RELOAD 0 (R144, R343). -/
def spendRecord (s : State) (tile off : Nat) : State :=
  if lmGet s tile (off + 4) 4 = 0 then s else lmPut (lmPut s tile (off + 4) 4 0) tile (off + 12) 4 0

/-- Steps 1 to 4 of R343 on one tile, after its tasks have gone, and the context's post buffer (R360). Of a context whose state is
saved the tile notes the kill, and spends its records at the restore (R346). -/
def killTile (s : State) (ctx : BitVec 11) (tile : Nat) : State :=
  let t := tileAt s tile
  let away := t.away.contains ctx
  let s := t.records.foldl (fun s r =>
    if r.2.1 = ctx ∧ bankHeld s tile ctx r.1 then spendRecord s tile r.1 else s) s
  modTile s tile (fun t =>
    { t with
      records := if away then t.records else t.records.filter (fun r => r.2.1 != ctx)
      awayKilled := if away && !t.awayKilled.contains ctx then ctx :: t.awayKilled else t.awayKilled
      pqcfg := if t.pqctx = ctx then 0 else t.pqcfg
      blocks := if t.pqctx = ctx then [] else t.blocks
      postq := t.postq.filter (fun e => e.ctx != ctx)
      stream := match t.stream with
        | some x => if x.ctx = ctx then none else some x
        | none => none
      ldfs := t.ldfs.filter (fun l =>
        match taskAt s l.slot with
        | some x => x.pend.req == l.req && x.pend.want.isSome
        | none => false)
      phases := t.phases.map (fun p =>
        if p.decl && p.ctx == ctx then { p with decl := false, remain := 0, ovr := false, status := 0, cancelled := false }
        else p) })

/-- The credits of the entries that leave the cores' queues go back to their senders (R110). -/
def creditsBack (s : State) (leaves : Entry → Bool) : State :=
  s.cores.foldl (fun (s : State) (c : Nat × Core) =>
    c.2.entries.foldl (fun s e =>
      match e.credit with
      | some (tile, cls) => if leaves e then returnCredit s c.1 tile cls else s
      | none => s) s) s

/-- Steps 1 and 3 of R343 on the queues and rings of one core. -/
def killCore (ctx : BitVec 11) (c : Core) : Core :=
  { c with
    entries := c.entries.filter (fun e => e.ctx != ctx)
    staged := c.staged.filter (fun e => e.ctx != ctx.toNat)
    ring := c.ring.map (fun e => if e.ctx = ctx ∧ !cmdDone e then { e with state := 6, unreported := false }
      else if e.ctx = ctx then { e with unreported := false } else e) }

/-- The kill of a context: what every tile does, the launches marked, the record kept until it can be appended. The task of
slot `but` stays until then (R354). -/
def killContext (s : State) (ctx : BitVec 11) (record : List Dword) (but : Option Nat) : State :=
  match ctxAt s ctx.toNat with
  | none => s
  | some x =>
    if x.dead then s
    else
      let s := { s with ctxs := tput s.ctxs ctx.toNat { x with dead := true } }
      let s := creditsBack s (fun e => e.ctx == ctx)
      let s := { s with cores := s.cores.map (fun (c : Nat × Core) => (c.1, killCore ctx c.2)) }
      let s := s.tasks.foldl (fun (s : State) (t : Nat × Task) => if t.2.ctx = ctx ∧ some t.1 ≠ but then terminate s t.1 false else s) s
      let s := { s with ending := s.ending.map (fun (e : Ending) => if e.ctx = ctx then { e with task := none } else e) }
      let s := s.tiles.foldl (fun (s : State) (t : Nat × Tile) => killTile s ctx t.1) (settleEnding s)
      { s with
        launches := s.launches.map (fun l =>
          if l.1 / 2 ^ 32 = ctx.toNat then (l.1, { l.2 with killed := true }) else l)
        kills := s.kills ++ [{ ctx := ctx.toNat, record := record, others := 0 }] }

/-- The kill record of Table 3 (R344) for a third trap of a task. -/
def killRecord (s : State) (k : Nat) (t : Task) (cause : Cause) (epc val : Dword) : List Dword :=
  [BitVec.ofNat 64 (t.ctx.toNat * 2 ^ 41 + cause.toNat * 2 ^ 32 + t.taskid.toNat), epc, val,
   t.tcause1.setWidth 64, t.tepc1, t.tval1, t.tsave1, t.tcause2.setWidth 64, t.tepc2, t.tval2, t.tsave2,
   t.launch.setWidth 64, (fabricAddr (slotCore k)).setWidth 64,
   BitVec.ofNat 64 (fabricTime s (tilePkg (slotTile k))), 0, 0]

/-- A task takes a trap at level 2: its context is killed, or, when the kill is under way, the task is terminated and
counted (R21, R343). -/
def thirdTrap (s : State) (k : Nat) (t : Task) (cause : Cause) (epc val : Dword) : State :=
  match ctxAt s t.ctx.toNat with
  | none => s
  | some x =>
    if x.dead then
      { terminate s k false with
        kills := s.kills.map (fun q => if q.ctx = t.ctx.toNat then { q with others := q.others + 1 } else q) }
    else killContext s t.ctx (killRecord s k t cause epc val) none

/-! ### Traps (R21 to R23) -/

/-- Trap entry at level TLEV + 1 (R21): the cause, the return address and the value saved, the level raised, pc at the
handler. At level 2 the task is left as it is: its context is killed instead. -/
def trapTask (t : Task) (cause : Cause) (epc val : Dword) : Task :=
  if t.tlev = 0#2 then
    setPc { t with tcause1 := cause, tepc1 := epc &&& ~~~1#64, tval1 := val, tlev := 1#2, pend := .idle } t.tvec
  else
    setPc { t with tcause2 := cause, tepc2 := epc &&& ~~~1#64, tval2 := val, tlev := 2#2, pend := .idle }
      (t.tvec + 0x100#64)

/-- The handler context stops its block at the instruction (R57, R58): a TRAPEV of KIND 2, and the violation counted. -/
def stopBlock (s : State) (k : Nat) (t : Task) (b : Inline) (cause : Cause) (val : Dword) : State :=
  let s := returnCredit (freeSlot s k) (slotCore k) (coreTile (coreOfFabric b.sender.toNat)) 0
  let s := modCore s (slotCore k) (fun c => { c with inlineViol := satInc c.inlineViol })
  report s (slotCore k) b.sender t.ctx 2 cause b.index val b.header b.slaunch b.sslot

/-- Takes a trap at the slot `s.here`, with `epc` for TEPC: the shared operation of every trap (R21, R22, R340). A third one
records the address of the instruction that raised it (R344, R355). -/
def takeTrapAt (cause : Cause) (epc val : Dword) (s : State) : State :=
  match hereTask s with
  | none => s
  | some t =>
    match t.inl with
    | some b => stopBlock s s.here t b cause val
    | none =>
      if t.tlev.toNat ≥ 2 then thirdTrap s s.here t cause (wholePc t) val
      else modTask (abandon s s.here) s.here (fun t => trapTask t cause epc val)

/-- Takes a precise trap of the instruction at pc. -/
def takeTrap (cause : Cause) (val : Dword) (s : State) : State :=
  match hereTask s with
  | none => s
  | some t => takeTrapAt cause (wholePc t) val s

/-! ### The program counter and the loop (R85 to R90) -/

/-- The address lies in [LSTART, LEND) of an active loop. -/
def inLoop (t : Task) (a : Nat) : Bool :=
  t.lcount != 0#64 && decide (t.lstart.toNat ≤ a) && decide (a < t.lend.toNat)

/-- pc moves past an instruction of `len` bytes that took no transfer, with the loop-back of R89. -/
def stepPc (t : Task) (len : Nat) : Task :=
  let nxt := t.pc + BitVec.ofNat 48 len
  if inLoop t t.pc.toNat then
    if nxt.setWidth 64 = t.lend then
      if t.lcount = 1#64 then { t with lcount := 0#64, pc := nxt }
      else setPc { t with lcount := t.lcount - 1#64 } t.lstart
    else if t.lend.toNat < nxt.toNat then { t with lcount := 0#64, pc := nxt }
    else { t with pc := nxt }
  else { t with pc := nxt }

/-- A taken transfer to `target`; one that leaves the loop body ends the loop unless it is a call (R90). -/
def jumpPc (t : Task) (target : Dword) (call : Bool) : Task :=
  if inLoop t t.pc.toNat && !inLoop t target.toNat && !call then setPc { t with lcount := 0#64 } target
  else setPc t target

/-- TRET at level 1 or 2 (R23): pc from TEPC, the level lowered. It is a taken transfer, and ends the loop it leaves (R90). -/
def returnTask (t : Task) : Task :=
  if t.tlev = 1#2 then jumpPc { t with tlev := 0#2 } t.tepc1 false
  else jumpPc { t with tlev := 1#2 } t.tepc2 false

/-! ### Publication points (R210, R216, R221, R231) -/

/-- Nothing of the point is left to wait for or to report. -/
def Point.over (p : Point) : Bool := p.waits.isEmpty && p.lost.isEmpty && !p.refused
/-- All that the point waited for is acknowledged: it holds no place any more, though a refusal may still be to report. -/
def Point.closed (p : Point) : Bool := p.waits.isEmpty
/-- The places of the oldest points that are over are free again. -/
def closePoints (l : List Point) : List Point := l.dropWhile Point.over
def modPoints (t : Task) (f : Point → Point) : Task := { t with pubs := closePoints (t.pubs.map f) }
/-- The refusal of a posted atomic has been taken as a trap (R221). -/
def forgetRefusal (t : Task) : Task := modPoints { t with refused := none } (fun p => { p with refused := false })

/-! ### Exit events (R196) -/

/-- A write is held on a partition's full dirty log: the first one sends the partition manager one event. -/
def noteExit (s : State) (part : Nat) : State :=
  if (partAt s part).exitSent then s
  else { s with parts := tput s.parts part { partAt s part with exitSent := true }, manager := s.manager ++ [(part, [])] }

/-! ### The monad of an instruction's effect -/

/-- Why an effect does not come about now: a precise trap, or a wait, with the request it sends the first time. -/
inductive Stop where
  | trap (cause : Cause) (val : Dword)
  | wait (w : Want) (send : Option (Nat × Body))
  /-- FPEXC: the raised conditions are set in TCTL before the trap is taken (R92); the random bits drawn so far stay
  consumed (R13, R40). -/
  | fpexc (raised : BitVec 5) (draws : Nat)
  /-- The refusal of a posted atomic, reported as a trap and forgotten (R221). -/
  | refusal (cause : Cause) (val : Dword)
  /-- A wait that keeps what the instruction has done so far. -/
  | hold (w : Want) (s : State)
  /-- A wait for room in the full dirty log of a partition (R196). -/
  | logFull (part : Nat)
  deriving DecidableEq, Repr

/-- An effect over the state. A trap or a wait leaves the state as it was before the instruction. -/
abbrev M := StateT State (Except Stop)

def trapM {α : Type} (cause : Cause) (val : Dword) : M α := throw (.trap cause val)
def waitM {α : Type} (w : Want) : M α := throw (.wait w none)
def guardM (ok : Bool) (cause : Cause) (val : Dword) : M Unit := if ok then pure () else trapM cause val
/-- Waits, as long as the condition does not hold. -/
def awaitM (ok : Bool) (w : Want) : M Unit := if ok then pure () else waitM w

/-- The task that executes; its absence is ruled out before an effect begins. -/
def thisTask : M Task := do
  match hereTask (← get) with
  | some t => pure t
  | none => waitM .earlier
def putThis (t : Task) : M Unit := modify (fun s => putTask s s.here t)
def modThis (f : Task → Task) : M Unit := modify (fun s => modTask s s.here f)

/-- The reply to a request of this instruction: had already, or asked for now. -/
def ask (w : Want) (dst : Nat) (b : Body) : M Reply := do
  let t ← thisTask
  match t.pend.log.lookup w with
  | some r => pure r
  | none => throw (.wait w (some (dst, b)))

/-- Where pc goes after the effect. -/
inductive Flow where
  | seq
  | jump (target : Dword) (call : Bool)
  /-- The slot no longer runs this instruction's task, or its pc is already set. -/
  | stay
  deriving DecidableEq, Repr

/-! Credits (R110): 64 entries for classes 1 to 31, 192 for the others, at most 4 for a pair of sending tile and class. -/

def systemClass (cls : Nat) : Bool := decide (1 ≤ cls) && decide (cls ≤ 31)
/-- Credits lent of one part of the input queue. -/
def lentIn (c : Core) (system : Bool) : Nat :=
  ((c.lent.filter (fun x => systemClass x.2.1 == system)).map (·.2.2)).sum
/-- Credits lent to a tile for a class. -/
def lentTo (c : Core) (tile cls : Nat) : Nat :=
  ((c.lent.filter (fun x => x.1 == tile && x.2.1 == cls)).map (·.2.2)).sum
def canLend (c : Core) (tile cls : Nat) : Bool :=
  decide (lentIn c (systemClass cls) < (if systemClass cls then 64 else 192)) && decide (lentTo c tile cls < 4)
/-- One credit more lent. -/
def lend (s : State) (core tile cls : Nat) : State :=
  modCore s core (fun c =>
    if c.lent.any (fun x => x.1 == tile && x.2.1 == cls) then
      { c with lent := c.lent.map (fun x => if x.1 = tile ∧ x.2.1 = cls then (x.1, x.2.1, x.2.2 + 1) else x) }
    else { c with lent := c.lent ++ [(tile, cls, 1)] })
/-- The readiness bit of a tile's group, and whether the group has failed (R375, R376). -/
def groupBit (tile : Nat) : Nat := tile % 1024 / 16
def groupReady (s : State) (tile : Nat) : Bool :=
  !pkgPresent s (tilePkg tile) || ((pkgAt s (tilePkg tile)).ready.getD 0 0).getLsbD (groupBit tile)
def groupFailed (s : State) (tile : Nat) : Bool :=
  (pkgAt s (tilePkg tile)).failed.contains (groupBit tile) && !groupReady s tile
/-- The firmware has been verified: cores may fetch (R376). -/
def pkgSec (s : State) (pkg : Nat) : Bool := ((pkgAt s pkg).ready.getD 2 0).getLsbD 57
/-- An entry of a package's host list (R363). -/
def hostName (pkg host : Nat) : Nat := pkg * 1024 + host

/-- Credits of a tile's cores are lent: its group is ready, or has failed, and a message or an atomic to it is refused there
(R376). -/
def lends (s : State) (tile : Nat) : Bool := groupReady s tile || groupFailed s tile

/-- A credit can be lent now, and no older request could take it. -/
def creditFree (s : State) (core tile cls : Nat) : Bool :=
  let c := coreAt s core
  lends s (coreTile core) && canLend c tile cls && !(c.wanted.any (fun w => canLend c (slotTile w.1) w.2))

/-- A reply to a slot: kept in its log when it is what the slot still waits for, discarded otherwise (R340). -/
def giveReply (s : State) (k req : Nat) (r : Reply) : State :=
  modTask s k (fun t =>
    if t.pend.req = req then
      match t.pend.want with
      | some w => { t with pend := { t.pend with want := none, log := (w, r) :: t.pend.log } }
      | none => t
    else t)

def Reply.ok : Reply := { cause := 0, val := 0, data := [] }
def Reply.trap (c : Cause) (v : Dword) : Reply := { cause := c, val := v, data := [] }
def Reply.value (v : Dword) : Reply := { cause := 0, val := v, data := [] }

/-- What a new wait of the slot `k` leaves with the object it waits for: a fill in flight (R212), a credit request (R110),
a place in a semaphore's order (R251). -/
def joinQueue (w : Want) (k req : Nat) (t : Task) (s : State) : State :=
  match w with
  | .fill line grant =>
    modCore s (slotCore k) (fun c =>
      { c with fills := c.fills ++ [{ id := req, line := line, ctx := t.ctx.toNat, grant := grant, stale := false }] })
  | .credit dst cls =>
    if creditFree s dst (slotTile k) cls then giveReply (lend s dst (slotTile k) cls) k req Reply.ok
    else modCore s dst (fun c => { c with wanted := c.wanted ++ [(k, cls)] })
  | .sem n => modTile s (slotTile k) (fun t => { t with semWait := t.semWait ++ [(k, n)] })
  | _ => s

/-- A credit of the log, which a request that is sent uses up. -/
def isCredit (x : Want × Reply) : Bool :=
  match x.1 with
  | .credit _ _ => true
  | _ => false

/-- A request that travels as a message, on a credit (R110). -/
def usesCredit (b : Body) : Bool :=
  match b with
  | .msg _ _ => true
  | .atomic _ _ _ _ _ _ _ _ _ _ => true
  | _ => false

/-- A remote SPAWN that is sent counts with its launch (R116). -/
def countSent (s : State) (b : Body) (launch : Word) : State :=
  match b with
  | .msg h _ => launchUp s (hdrCtx h) launch
  | _ => s

/-- A slot begins to wait, or waits on: a new request is sent once (R123, R340). -/
def beginWait (w : Want) (send : Option (Nat × Body)) (s : State) : State :=
  match hereTask s with
  | none => s
  | some t =>
    if t.pend.want = some w then s
    else
      let req := s.nextId
      let s := modTask s s.here (fun t => { t with pend := { t.pend with want := some w, req := req } })
      let s :=
        match send with
        | some (dst, b) =>
          post (modTask (countSent s b t.launch) s.here (fun t => if usesCredit b then
            { t with pend := { t.pend with log := t.pend.log.filter (fun x => !isCredit x) } } else t)) s.here dst t.launch b
        | none => { s with nextId := s.nextId + 1 }
      joinQueue w s.here req t s

/-- TCTL with the raised conditions added to FINV to FINX (R14, R92). -/
def raiseFlags (t : Task) (raised : BitVec 5) : Task := { t with tctl := t.tctl ||| raised.setWidth 17 }

/-- The effect's end: pc moves, the replies are done with; or the trap is taken; or the slot waits. -/
def finish (len : Nat) (m : M Flow) (s : State) : State :=
  match m s with
  | .ok (.seq, s') => modTask s' s'.here (fun t => { stepPc t len with pend := .idle })
  | .ok (.jump target call, s') => modTask s' s'.here (fun t => { jumpPc t target call with pend := .idle })
  | .ok (.stay, s') => s'
  | .error (.trap c v) => takeTrap c v s
  | .error (.wait w send) => beginWait w send s
  | .error (.hold w s') => beginWait w none (modTask s' s'.here (fun t => { t with pend := { t.pend with want := none } }))
  | .error (.logFull part) => beginWait (.broadcast 8) none (noteExit s part)
  | .error (.refusal c v) => takeTrap c v (modTask s s.here forgetRefusal)
  | .error (.fpexc r n) =>
    takeTrap causeFpexc (r.setWidth 64) (modTask { s with draws := n } s.here (fun t => raiseFlags t r))

end Sys2Proof.Machine
end

