-- ==== Sys2Proof/Machine/Order.lean ====
section
/-!
DEFINITION. Sys2Proof/Machine/Order.lean: acquires, releases and publication points (R206, R207, R210, R221, R231), and the
queue registers (R151 to R153, R280).
-/

namespace Sys2Proof.Machine

/-! ### Where a word of global memory is homed, and who has it registered (R189, R202) -/

/-- The package where a global address is homed, for an access from a package (R174). -/
def homePkg (pkg va : Nat) : Nat := if 2 ^ 47 ≤ va then va / 2 ^ 37 % 1024 else pkg
/-- The fold of R189: the exclusive-or of the 10-bit chunks of H. -/
def foldSlice (h : Nat) : Nat :=
  (h % 1024) ^^^ (h / 2 ^ 10 % 1024) ^^^ (h / 2 ^ 20 % 1024) ^^^ (h / 2 ^ 30 % 32)
/-- The first tile from n on, modulo 1,024, that is not excluded. -/
def nextTile (excluded : List Nat) : Nat → Nat → Nat
  | 0, n => n
  | fuel + 1, n => if excluded.contains n then nextTile excluded fuel ((n + 1) % 1024) else n
/-- The home tile of a global address. -/
def homeTile (s : State) (pkg va : Nat) : Nat :=
  let h := if 2 ^ 47 ≤ va then va / 2 ^ 12 % 2 ^ 25 else va / 2 ^ 12 % 2 ^ 35
  let hp := homePkg pkg va
  tileKey hp (nextTile (pkgAt s hp).excluded 1024 (foldSlice h))

def lineOf (va : Nat) : Nat := va / 128 * 128
def maskBit (va : Nat) : Word := 1#32 <<< (va % 128 / 4)
def regHas (e : RegEntry) (va : Nat) : Bool := e.line == lineOf va && (e.mask &&& maskBit va) != 0#32
/-- The core a word is registered to at its home. -/
def ownerOf (s : State) (home va : Nat) : Option Nat := ((tileAt s home).registry.find? (fun e => regHas e va)).map (·.owner)

/-! ### Acquire (R206, R212, R240) -/

/-- The core keeps an L1 word through an acquire: its registration is on the way, or its home has it registered to the core
still (R206). -/
def keepsWord (s : State) (core va : Nat) (own : Own) : Bool :=
  match own with
  | .clean => false
  | .inFlight => true
  | _ => ownerOf s (homeTile s (tilePkg (coreTile core)) va) va == some core

/-- The L1 words of a core that meet a predicate on their address go, but for those the core keeps; fills in flight over them
will not be installed. -/
def dropWords (c : Core) (keeps : Nat → Own → Bool) (meets : Nat → Bool) : Core :=
  let l1 := c.l1.filter (fun w => !(meets w.1) || keeps w.1 w.2.own)
  { c with
    l1 := l1
    grants := c.grants.filter (fun g => l1.any (fun w => w.2.row && w.1 / 32 * 32 == g.1))
    fills := c.fills.map (fun f =>
      if (List.range 8).any (fun i => meets (f.line + 4 * i)) then { f with stale := true } else f) }

/-- Unallocated CLB entries go at an acquire and at every INVR (R240). -/
def dropUnallocated (c : Core) : Core := { c with clb := c.clb.filter (fun e => e.block != 0) }

/-- The self-invalidation of an acquire by a party of a core. -/
def acquireCore (s : State) (core : Nat) : State :=
  modCore s core (fun c => dropUnallocated (dropWords c (keepsWord s core) (fun _ => true)))

def acquireM : M Unit := modify (fun s => acquireCore s (hereCore s))

/-! ### Release (R207) -/

/-- The task's weak stores, posted atomics and tracked engine writes are settled. -/
def settled (s : State) (t : Task) : Bool := t.outs.isEmpty && !cmdsPending s t.uid

/-- The trap an instruction takes that waits for the task's stores: the first refusal of a posted atomic (R221), or a
refused registration (R216). -/
def refusedM (t : Task) : M Unit :=
  match t.refused with
  | some (c, v) => throw (.refusal c v)
  | none =>
    match t.lost with
    | va :: _ => trapM causeOwnerlost (BitVec.ofNat 64 va)
    | [] => pure ()

/-- The task's commands, other than a VGO, that are in a ring and not complete (R147, R254). -/
def commandsOf (s : State) (uid : Nat) : Bool :=
  s.cores.any (fun x => x.2.ring.any (fun c => c.uid == uid && !isVgo c.word && !cmdDone c))

/-- A release of the task: waits until it can be made, or takes the trap that stops it (R207, R216, R221). -/
def releaseM : M Unit := do
  let s ← get
  let t ← thisTask
  refusedM t
  awaitM (settled s t) .earlier

/-- What a push into a queue releases: the task's stores, and its engine commands but for the streams it has started, which
may wait for that very push (R153, R207). -/
def pushReleaseM : M Unit := do
  let s ← get
  let t ← thisTask
  refusedM t
  awaitM (t.outs.isEmpty && !commandsOf s t.uid) .earlier

/-- The open publication points: later strong accesses, releases, sends and decrements wait at them, and take the refusal of a
posted atomic or of a registration that a point has waited for (R216, R221, R231). -/
def publishedM : M Unit := do
  let t ← thisTask
  if t.pubs.all Point.over then pure ()
  else
    match (if t.pubs.any (·.refused) then t.refused else none) with
    | some (c, v) => throw (.refusal c v)
    | none =>
      match t.pubs.flatMap (·.lost) with
      | va :: _ => trapM causeOwnerlost (BitVec.ofNat 64 va)
      | [] => waitM .earlier

/-- An outstanding store or posted atomic is acknowledged: it leaves the task's list and every publication point. -/
def settleOut (t : Task) (id : Nat) : Task :=
  modPoints { t with outs := t.outs.filter (fun o => o.id != id) }
    (fun p => { p with waits := p.waits.filter (fun x => x != id) })

/-- The refusal of a posted atomic, or of a weak store to placed memory, is kept for the first instruction that waits for it
(R221). -/
def refuseOut (c : Cause) (va : Dword) (id : Nat) (t : Task) : Task :=
  settleOut (modPoints { t with refused := if t.refused.isNone then some (c, va) else t.refused }
    (fun p => if p.waits.contains id then { p with refused := true } else p)) id

/-- A registration has been refused: the word is lost to the task, until a later registration of it is recorded (R216). -/
def loseOut (va id : Nat) (t : Task) : Task :=
  settleOut (modPoints { t with lost := t.lost ++ [va] }
    (fun p => if p.waits.contains id then { p with lost := p.lost ++ [va] } else p)) id

/-- A registration of a word has been recorded and acknowledged (R201). -/
def registeredOut (va id : Nat) (t : Task) : Task :=
  settleOut (modPoints { t with lost := t.lost.filter (fun x => x != va) }
    (fun p => { p with lost := p.lost.filter (fun x => x != va) })) id

/-- The slots of a core whose task started as `uid`. -/
def modUid (s : State) (uid : Nat) (f : Task → Task) : State :=
  { s with tasks := s.tasks.map (fun (x : Nat × Task) => if x.2.uid = uid then (x.1, f x.2) else x) }

/-! ### Queue registers -/

def queueAt (s : State) (tile q : Nat) : List Dword := (tileAt s tile).queues.getD q []
def queueClosed (s : State) (tile q : Nat) : Bool := (tileAt s tile).qclosed.getLsbD q
/-- A queue has changed: a stream that waits on it waits anew (R152). -/
def queueChanged (t : Tile) (q : Nat) : Tile :=
  { t with stream := t.stream.map (fun x => if x.waiting = some q then { x with qwait := 0 } else x) }
def setQueue (s : State) (tile q : Nat) (l : List Dword) : State :=
  modTile s tile (fun t => queueChanged { t with queues := t.queues.setIfInBounds q l } q)

/-- The entries of a queue that instructions of the tile's Press core hold reserved, by their places in it (R280). -/
def reservedAt (s : State) (tile q : Nat) : List Nat :=
  (List.range 4).flatMap (fun n =>
    match taskAt s (slotKey (coreKey tile 6) n) with
    | some t => (((t.pend.log.lookup (.queue q false)).map (·.data)).getD []).map (·.toNat)
    | none => [])

/-- The place of the oldest entry that is not reserved. -/
def firstFree (s : State) (tile q : Nat) : Option Nat :=
  (List.range (queueAt s tile q).length).find? (fun i => !(reservedAt s tile q).contains i)

/-- A reservation of a queue's entry once the entry at a place before it has left. -/
def shiftReserved (q i : Nat) (t : Task) : Task :=
  { t with pend := { t.pend with log := t.pend.log.map (fun x =>
      if x.1 = .queue q false then (x.1, { x.2 with data := x.2.data.map (fun d => if i < d.toNat then d - 1 else d) }) else x) } }

/-- The entry at a place leaves its queue; reservations keep their entries. -/
def takeQueue (s : State) (tile q i : Nat) : State :=
  (List.range 4).foldl (fun s n => modTask s (slotKey (coreKey tile 6) n) (shiftReserved q i))
    (setQueue s tile q ((queueAt s tile q).eraseIdx i))

/-- Pops a queue for the vector stream: the oldest entry that is not reserved, or 0 from an empty closed queue; none while it must
wait (R152, R280). -/
def popQueue (s : State) (tile q : Nat) : Option (Dword × State) :=
  match firstFree s tile q with
  | some i => some ((queueAt s tile q).getD i 0, acquireCore (takeQueue s tile q i) (coreKey tile 6))
  | none =>
    if queueClosed s tile q && (queueAt s tile q).isEmpty then some (0, acquireCore s (coreKey tile 6)) else none

/-- Pushes an entry; none while the queue is full (R152). -/
def pushQueue (s : State) (tile q : Nat) (v : Dword) : Option State :=
  let l := queueAt s tile q
  if l.length < 16 then some (setQueue s tile q (l ++ [v])) else none

end Sys2Proof.Machine
end

