-- ==== Sys2Proof/Machine/Operands.lean ====
section
/-!
DEFINITION. Sys2Proof/Machine/Operands.lean: which registers an instruction names, where it may execute (R9, R50, R52 to
R54), its effective addresses and immediates, and the frame every scalar instruction runs in.
-/

namespace Sys2Proof.Machine

/-- The g registers an instruction reads (R50 and the chapter of each member). -/
def gSources : Instr → List Nat
  | .add _ b a _ _ => [a.toNat, b.toNat]
  | .sub _ b a _ _ => [a.toNat, b.toNat]
  | .mul _ b a _ _ => [a.toNat, b.toNat]
  | .mulh _ b a _ _ => [a.toNat, b.toNat]
  | .mulhn _ b a _ _ => [a.toNat, b.toNat]
  | .div _ b a _ _ => [a.toNat, b.toNat]
  | .divn _ b a _ _ => [a.toNat, b.toNat]
  | .rem _ b a _ _ => [a.toNat, b.toNat]
  | .remn _ b a _ _ => [a.toNat, b.toNat]
  | .and b a _ _ => [a.toNat, b.toNat]
  | .or b a _ _ => [a.toNat, b.toNat]
  | .xor b a _ _ => [a.toNat, b.toNat]
  | .andn b a _ _ => [a.toNat, b.toNat]
  | .shl _ b a _ _ => [a.toNat, b.toNat]
  | .shr _ b a _ _ => [a.toNat, b.toNat]
  | .sra _ b a _ _ => [a.toNat, b.toNat]
  | .rot _ b a _ _ => [a.toNat, b.toNat]
  | .min b a _ _ => [a.toNat, b.toNat]
  | .max b a _ _ => [a.toNat, b.toNat]
  | .minn b a _ _ => [a.toNat, b.toNat]
  | .maxn b a _ _ => [a.toNat, b.toNat]
  | .sel b a _ _ => [a.toNat, b.toNat]
  | .addi _ a _ _ => [a.toNat]
  | .andi _ a _ _ => [a.toNat]
  | .ori _ a _ _ => [a.toNat]
  | .xori _ a _ _ => [a.toNat]
  | .shli _ _ a _ _ => [a.toNat]
  | .shri _ _ a _ _ => [a.toNat]
  | .srai _ _ a _ _ => [a.toNat]
  | .roti _ _ a _ _ => [a.toNat]
  | .movi _ _ _ => []
  | .movs _ d _ => [d.toNat]
  | .abs a _ _ => [a.toNat]
  | .neg a _ _ => [a.toNat]
  | .not a _ _ => [a.toNat]
  | .clz a _ _ => [a.toNat]
  | .ctz a _ _ => [a.toNat]
  | .popc a _ _ => [a.toNat]
  | .sxb a _ _ => [a.toNat]
  | .sxh a _ _ => [a.toNat]
  | .sxw a _ _ => [a.toNat]
  | .zxb a _ _ => [a.toNat]
  | .zxh a _ _ => [a.toNat]
  | .zxw a _ _ => [a.toNat]
  | .bswap a _ _ => [a.toNat]
  | .bfx _ _ a _ _ => [a.toNat]
  | .bfi _ _ a d _ => [a.toNat, d.toNat]
  | .cmpEq _ b a _ _ _ => [a.toNat, b.toNat]
  | .cmpNe _ b a _ _ _ => [a.toNat, b.toNat]
  | .cmpLt _ b a _ _ _ => [a.toNat, b.toNat]
  | .cmpLe _ b a _ _ _ => [a.toNat, b.toNat]
  | .cmpGt _ b a _ _ _ => [a.toNat, b.toNat]
  | .cmpGe _ b a _ _ _ => [a.toNat, b.toNat]
  | .cmpLtn _ b a _ _ _ => [a.toNat, b.toNat]
  | .cmpLen _ b a _ _ _ => [a.toNat, b.toNat]
  | .cmpGtn _ b a _ _ _ => [a.toNat, b.toNat]
  | .cmpGen _ b a _ _ _ => [a.toNat, b.toNat]
  | .cmpiEq _ _ a _ _ _ => [a.toNat]
  | .cmpiNe _ _ a _ _ _ => [a.toNat]
  | .cmpiLt _ _ a _ _ _ => [a.toNat]
  | .cmpiLe _ _ a _ _ _ => [a.toNat]
  | .cmpiGt _ _ a _ _ _ => [a.toNat]
  | .cmpiGe _ _ a _ _ _ => [a.toNat]
  | .cmpiLtn _ _ a _ _ _ => [a.toNat]
  | .cmpiLen _ _ a _ _ _ => [a.toNat]
  | .cmpiGtn _ _ a _ _ _ => [a.toNat]
  | .cmpiGen _ _ a _ _ _ => [a.toNat]
  | .pand _ _ _ _ => []
  | .por _ _ _ _ => []
  | .pxor _ _ _ _ => []
  | .pandn _ _ _ _ => []
  | .pnot _ _ _ => []
  | .pmov _ _ _ => []
  | .ppack _ _ => []
  | .punpk a _ => [a.toNat]
  | .lea _ _ b a _ _ => [a.toNat, b.toNat]
  | .fadd _ _ _ _ => []
  | .fsub _ _ _ _ => []
  | .fmul _ _ _ _ => []
  | .fdiv _ _ _ _ => []
  | .fsqrt _ _ _ => []
  | .fmin _ _ _ _ => []
  | .fmax _ _ _ _ => []
  | .fabs _ _ _ => []
  | .fneg _ _ _ => []
  | .fmov _ _ _ => []
  | .fclass _ _ _ => []
  | .fmvg _ _ _ => []
  | .fmvf a _ _ => [a.toNat]
  | .fma _ _ _ _ _ => []
  | .fms _ _ _ _ _ => []
  | .fnma _ _ _ _ _ => []
  | .fnms _ _ _ _ _ => []
  | .fcvt s _ _ a _ _ => if 4 ≤ s.toNat then [a.toNat] else []
  | .frnd _ _ _ _ _ => []
  | .fcmpEq _ _ _ _ _ => []
  | .fcmpNe _ _ _ _ _ => []
  | .fcmpLt _ _ _ _ _ => []
  | .fcmpLe _ _ _ _ _ => []
  | .fcmpUn _ _ _ _ _ => []
  | .fcmpOrd _ _ _ _ _ => []
  | .ld _ _ _ _ a _ _ => [a.toNat]
  | .st _ _ _ _ a d _ => [a.toNat, d.toNat]
  | .ldf _ _ _ a _ _ => [a.toNat]
  | .ldfE _ _ _ a _ _ => [a.toNat]
  | .setf a _ => [a.toNat]
  | .sete a _ => [a.toNat]
  | .testf a _ _ => [a.toNat]
  | .amoAdd _ _ b a _ _ => [a.toNat, b.toNat]
  | .amoAnd _ _ b a _ _ => [a.toNat, b.toNat]
  | .amoOr _ _ b a _ _ => [a.toNat, b.toNat]
  | .amoXor _ _ b a _ _ => [a.toNat, b.toNat]
  | .amoMin _ _ b a _ _ => [a.toNat, b.toNat]
  | .amoMax _ _ b a _ _ => [a.toNat, b.toNat]
  | .amoMinn _ _ b a _ _ => [a.toNat, b.toNat]
  | .amoMaxn _ _ b a _ _ => [a.toNat, b.toNat]
  | .amoXchg _ _ b a _ _ => [a.toNat, b.toNat]
  | .amoFadd _ b a _ _ => [a.toNat, b.toNat]
  | .amoFmin _ b a _ _ => [a.toNat, b.toNat]
  | .amoFmax _ b a _ _ => [a.toNat, b.toNat]
  | .cas _ b a d _ => [a.toNat, b.toNat, d.toNat]
  | .ldc _ _ b a _ _ => [a.toNat, b.toNat]
  | .stc _ _ b a d _ => [a.toNat, b.toNat, d.toNat]
  | .amocAdd _ b a d _ => [a.toNat, b.toNat, d.toNat]
  | .amocFadd _ b a d _ => [a.toNat, b.toNat, d.toNat]
  | .amocMin _ b a d _ => [a.toNat, b.toNat, d.toNat]
  | .amocMax _ b a d _ => [a.toNat, b.toNat, d.toNat]
  | .amocFmax _ b a d _ => [a.toNat, b.toNat, d.toNat]
  | .amocXchg _ b a d _ => [a.toNat, b.toNat, d.toNat]
  | .fenceA _ _ => []
  | .fenceL _ _ => []
  | .fenceAl _ _ => []
  | .invr b a _ => [a.toNat, b.toNat]
  | .pubr b a _ => [a.toNat, b.toNat]
  | .isync _ => []
  | .pref a _ => [a.toNat]
  | .clbinv a _ => [a.toNat]
  | .br _ _ => []
  | .jal _ _ => []
  | .jalr _ a _ _ => [a.toNat]
  | .loop _ a _ => [a.toNat]
  | .send _ _ n b a _ => a.toNat :: (List.range (2 ^ n.toNat)).map (fun i => b.toNat + i)
  | .sendx n b a _ => a.toNat :: (List.range (2 ^ n.toNat)).map (fun i => b.toNat + i)
  | .spawn b a _ _ => [a.toNat, b.toNat]
  | .trec b a _ _ => [a.toNat, b.toNat]
  | .dec a _ => [a.toNat]
  | .decL a _ => [a.toNat]
  | .tarm b a _ => [a.toNat, b.toNat]
  | .tend _ => []
  | .elect a _ _ => [a.toNat]
  | .tinfo a _ _ => [a.toNat]
  | .phdecl a _ => [a.toNat]
  | .phstat a _ _ => [a.toNat]
  | .cancelLaunch a _ => [a.toNat]
  | .cancelGraph a _ => [a.toNat]
  | .cancelPhase a _ => [a.toNat]
  | .cancelJob a _ => [a.toNat]
  | .qtest _ _ _ => []
  | .qclose _ _ => []
  | .qbind _ _ _ => []
  | .semp _ _ => []
  | .sempServe _ _ => []
  | .semv _ _ => []
  | .vgo a _ => [a.toNat]
  | .tmset a _ _ => [a.toNat]
  | .tmget a _ _ => [a.toNat]
  | .tmofs a _ _ => [a.toNat]
  | .copy _ _ _ _ => []
  | .gath _ _ _ _ _ => []
  | .scat _ _ _ _ _ => []
  | .scatAdd _ _ _ _ _ => []
  | .kagg _ _ _ _ _ => []
  | .kaggO _ _ _ _ _ => []
  | .kbcast _ _ _ _ _ => []
  | .kisect _ _ _ _ _ => []
  | .kfold _ _ _ _ => []
  | .kdirty _ _ _ _ => []
  | .convt _ _ _ _ _ _ => []
  | .compress _ _ _ _ _ _ => []
  | .mma _ _ _ _ _ _ _ _ => []
  | .mmas _ _ _ _ _ _ _ _ _ => []
  | .mzero _ _ _ => []
  | .mldacc _ _ _ _ => []
  | .mstacc _ _ _ _ => []
  | .bfpa _ _ _ _ _ => []
  | .resize a _ => [a.toNat]
  | .volalloc a _ _ => [a.toNat]
  | .volfree b a _ => [a.toNat, b.toNat]
  | .stash b a _ => [a.toNat, b.toNat]
  | .unstash a _ _ => [a.toNat]
  | .flq b a _ => [a.toNat, b.toNat]
  | .trap a _ => [a.toNat]
  | .tret _ => []
  | .ctxkill a _ => [a.toNat]
  | .csrr _ _ _ => []
  | .csrw _ a _ => [a.toNat]
  | .csrx _ a _ _ => [a.toNat]
  | .cIll _ => []
  | .cNop => []
  | .cMov a _ => [a.toNat]
  | .cAdd a d => [a.toNat, d.toNat]
  | .cSub a d => [a.toNat, d.toNat]
  | .cAddi _ d => [d.toNat]
  | .cShli _ d => [d.toNat]
  | .cLdw _ a _ => [a.toNat]
  | .cStw _ a d => [a.toNat, d.toNat]
  | .cLdd _ a _ => [a.toNat]
  | .cStd _ a d => [a.toNat, d.toNat]
  | .cBr _ => []
  | .cBnz _ d => [d.toNat]
  | .cCall a => [a.toNat]
  | .cRet => [1]
  | .cTend => []
  | .vadd _ _ _ _ _ => []
  | .vsub _ _ _ _ _ => []
  | .vmul _ _ _ _ _ => []
  | .vfma _ _ _ _ _ => []
  | .vfms _ _ _ _ _ => []
  | .vmin _ _ _ _ _ => []
  | .vmax _ _ _ _ _ => []
  | .vabs _ _ _ _ => []
  | .vneg _ _ _ _ => []
  | .vmov _ _ _ _ => []
  | .vand _ _ _ _ _ => []
  | .vor _ _ _ _ _ => []
  | .vxor _ _ _ _ _ => []
  | .vshl _ _ _ _ _ => []
  | .vshr _ _ _ _ _ => []
  | .vsra _ _ _ _ _ => []
  | .vcmpEq _ _ _ _ _ => []
  | .vcmpNe _ _ _ _ _ => []
  | .vcmpLt _ _ _ _ _ => []
  | .vcmpLe _ _ _ _ _ => []
  | .vcmpGt _ _ _ _ _ => []
  | .vcmpGe _ _ _ _ _ => []
  | .vcmpUn _ _ _ _ _ => []
  | .vcmpOrd _ _ _ _ _ => []
  | .vsel _ _ _ _ => []
  | .vmand _ _ _ => []
  | .vmor _ _ _ => []
  | .vmnot _ _ => []
  | .vld _ _ _ => []
  | .vst _ _ _ => []
  | .vlds _ _ _ _ => []
  | .vsts _ _ _ _ => []
  | .vgath _ _ _ _ => []
  | .vscat _ _ _ _ => []
  | .vldq _ _ _ => []
  | .vstq _ _ _ => []
  | .vbcq _ _ _ => []
  | .vend _ _ => []
  | .vredAdd _ _ _ _ => []
  | .vredMin _ _ _ _ => []
  | .vredMax _ _ _ _ => []
  | .vredAnd _ _ _ _ => []
  | .vredOr _ _ _ _ => []
  | .vredXor _ _ _ _ => []
  | .vscanAdd _ _ _ _ => []
  | .vscanMin _ _ _ _ => []
  | .vscanMax _ _ _ _ => []
  | .vscanAnd _ _ _ _ => []
  | .vscanOr _ _ _ _ => []
  | .vscanXor _ _ _ _ => []
  | .vperm _ _ _ _ => []
  | .vbcast _ _ _ => []
  | .vcvt _ _ _ _ _ _ => []
  | .vrnd _ _ _ _ _ => []
  | .vthresh _ _ _ _ _ => []
  | .vexp _ _ _ => []
  | .vlog _ _ _ => []
  | .vrcp _ _ _ => []
  | .vrsq _ _ _ => []
  | .streamBr _ _ => []
  | .streamLoop _ _ _ => []
  | .killRecord _ => []
  | .inlineBlock _ => []
  | .routineClassMessage _ => []
  | .launch _ => []
  | .launchComplete _ => []
  | .cancel _ => []
  | .decMessage _ => []
  | .spawnMessage _ => []
  | .spawnReply _ => []
  | .taskStart _ => []
  | .deficitReplenish _ => []
  | .creditGrant _ => []
  | .amo _ => []
  | .casMessage _ => []
  | .atomicReply _ => []
  | .postedAtomicAck _ => []
  | .electRequest _ => []
  | .phaseDeclaration _ => []
  | .phaseComplete _ _ => []
  | .phdone _ => []
  | .trapev _ => []
  | .landingPlain _ => []
  | .landingConv _ => []
  | .landingAdd _ => []
  | .landingSetf _ => []
  | .landingTrans _ => []
  | .gathreq _ => []
  | .scatreq _ => []
  | .kaggreq _ => []
  | .kbcastreq _ => []
  | .changeLogAppend _ => []
  | .mcmd _ => []
  | .xform _ => []
  | .fldone _ => []
  | .commandComplete _ => []
  | .lateFault _ => []
  | .groupWatchdog _ => []
  | .queueWaitTimeout _ => []
  | .ldfServe _ => []
  | .ldfRetry _ => []
  | .writeRequest _ => []
  | .heldWriteResume _ => []
  | .registration _ => []
  | .revoke _ => []
  | .lineFill _ => []
  | .forwardedRead _ => []
  | .fillArrival _ => []
  | .writeBack _ => []
  | .strongAccess _ => []
  | .placedAccess _ => []
  | .speculativeReplay _ => []
  | .tileAllocation _ => []
  | .clbShootdown _ => []
  | .budgetExpiry _ => []
  | .taskTermination _ => []
  | .leaveSave _ _ => []
  | .epochAdvance _ => []
  | .randRead m a _ _ => if m = 0#2 then [] else [a.toNat]
  | .tctlRead m a _ _ => if m = 0#2 then [] else [a.toNat]
  | .cvstatRead m a _ _ => if m = 0#2 then [] else [a.toNat]
  | .fnselWrite m a _ _ => if m = 0#2 then [] else [a.toNat]
  | .bfmtWrite _ m a _ _ => if m = 0#2 then [] else [a.toNat]
  | .bdropWrite _ m a _ _ => if m = 0#2 then [] else [a.toNat]
  | .budgetWrite m a _ _ => if m = 0#2 then [] else [a.toNat]
  | .phslotWrite m a _ _ => if m = 0#2 then [] else [a.toNat]
  | .gselWrite m a _ _ => if m = 0#2 then [] else [a.toNat]
  | .grantWrite m a _ _ => if m = 0#2 then [] else [a.toNat]
  | .grantLeave m a _ _ => if m = 0#2 then [] else [a.toNat]
  | .grantRestore m a _ _ => if m = 0#2 then [] else [a.toNat]
  | .tokenIssue m a _ _ => if m = 0#2 then [] else [a.toNat]
  | .mkeyWrite m a _ _ => if m = 0#2 then [] else [a.toNat]
  | .lwadd m a _ _ => if m = 0#2 then [] else [a.toNat]
  | .lwmaxn m a _ _ => if m = 0#2 then [] else [a.toNat]
  | .lwfmax m a _ _ => if m = 0#2 then [] else [a.toNat]
  | .pqcfgWrite m a _ _ => if m = 0#2 then [] else [a.toNat]
  | .pqpop m a _ _ => if m = 0#2 then [] else [a.toNat]
  | .stashbWrite m a _ _ => if m = 0#2 then [] else [a.toNat]
  | .stashlWrite m a _ _ => if m = 0#2 then [] else [a.toNat]
  | .pcapWrite m a _ _ => if m = 0#2 then [] else [a.toNat]
  | .csrWrite _ m a _ _ => if m = 0#2 then [] else [a.toNat]
  | .map _ => []
  | .unmap _ => []
  | .rights _ => []
  | .clean _ => []
  | .logtail _ => []
  | .ctxset _ => []
  | .kring _ => []
  | .hostlist _ => []
  | .slice _ => []
  | .sliceStart _ _ => []
  | .gangGraceExpiry _ _ => []
  | .sliceEnd _ _ => []
  | .glaunch _ => []
  | .ack _ => []
  | .gangAckTimeout _ _ => []
  | .late _ => []
  | .stop _ => []
  | .tileFence _ _ => []
  | .eccCorrected _ _ => []
  | .linkRetryExhausted _ _ => []
  | .powerStep _ _ => []
  | .thermalLimit _ _ _ => []
  | .functionReady _ _ => []
  | .imageVerification _ _ => []
  | .managementWrite _ _ _ => []
  | .managementRead _ _ => []
  | .attestationRequest _ _ _ => []
  | .coreReset _ => []
  | .tileReset _ => []
  | .packageReset _ => []
  | .trainingFailure _ _ => []
  | .recallRequest _ => []

/-- The g registers an instruction writes. -/
def gDests : Instr → List Nat
  | .add _ _ _ d _ => [d.toNat]
  | .sub _ _ _ d _ => [d.toNat]
  | .mul _ _ _ d _ => [d.toNat]
  | .mulh _ _ _ d _ => [d.toNat]
  | .mulhn _ _ _ d _ => [d.toNat]
  | .div _ _ _ d _ => [d.toNat]
  | .divn _ _ _ d _ => [d.toNat]
  | .rem _ _ _ d _ => [d.toNat]
  | .remn _ _ _ d _ => [d.toNat]
  | .and _ _ d _ => [d.toNat]
  | .or _ _ d _ => [d.toNat]
  | .xor _ _ d _ => [d.toNat]
  | .andn _ _ d _ => [d.toNat]
  | .shl _ _ _ d _ => [d.toNat]
  | .shr _ _ _ d _ => [d.toNat]
  | .sra _ _ _ d _ => [d.toNat]
  | .rot _ _ _ d _ => [d.toNat]
  | .min _ _ d _ => [d.toNat]
  | .max _ _ d _ => [d.toNat]
  | .minn _ _ d _ => [d.toNat]
  | .maxn _ _ d _ => [d.toNat]
  | .sel _ _ d _ => [d.toNat]
  | .addi _ _ d _ => [d.toNat]
  | .andi _ _ d _ => [d.toNat]
  | .ori _ _ d _ => [d.toNat]
  | .xori _ _ d _ => [d.toNat]
  | .shli _ _ _ d _ => [d.toNat]
  | .shri _ _ _ d _ => [d.toNat]
  | .srai _ _ _ d _ => [d.toNat]
  | .roti _ _ _ d _ => [d.toNat]
  | .movi _ d _ => [d.toNat]
  | .movs _ d _ => [d.toNat]
  | .abs _ d _ => [d.toNat]
  | .neg _ d _ => [d.toNat]
  | .not _ d _ => [d.toNat]
  | .clz _ d _ => [d.toNat]
  | .ctz _ d _ => [d.toNat]
  | .popc _ d _ => [d.toNat]
  | .sxb _ d _ => [d.toNat]
  | .sxh _ d _ => [d.toNat]
  | .sxw _ d _ => [d.toNat]
  | .zxb _ d _ => [d.toNat]
  | .zxh _ d _ => [d.toNat]
  | .zxw _ d _ => [d.toNat]
  | .bswap _ d _ => [d.toNat]
  | .bfx _ _ _ d _ => [d.toNat]
  | .bfi _ _ _ d _ => [d.toNat]
  | .cmpEq _ _ _ _ _ _ => []
  | .cmpNe _ _ _ _ _ _ => []
  | .cmpLt _ _ _ _ _ _ => []
  | .cmpLe _ _ _ _ _ _ => []
  | .cmpGt _ _ _ _ _ _ => []
  | .cmpGe _ _ _ _ _ _ => []
  | .cmpLtn _ _ _ _ _ _ => []
  | .cmpLen _ _ _ _ _ _ => []
  | .cmpGtn _ _ _ _ _ _ => []
  | .cmpGen _ _ _ _ _ _ => []
  | .cmpiEq _ _ _ _ _ _ => []
  | .cmpiNe _ _ _ _ _ _ => []
  | .cmpiLt _ _ _ _ _ _ => []
  | .cmpiLe _ _ _ _ _ _ => []
  | .cmpiGt _ _ _ _ _ _ => []
  | .cmpiGe _ _ _ _ _ _ => []
  | .cmpiLtn _ _ _ _ _ _ => []
  | .cmpiLen _ _ _ _ _ _ => []
  | .cmpiGtn _ _ _ _ _ _ => []
  | .cmpiGen _ _ _ _ _ _ => []
  | .pand _ _ _ _ => []
  | .por _ _ _ _ => []
  | .pxor _ _ _ _ => []
  | .pandn _ _ _ _ => []
  | .pnot _ _ _ => []
  | .pmov _ _ _ => []
  | .ppack d _ => [d.toNat]
  | .punpk _ _ => []
  | .lea _ _ _ _ d _ => [d.toNat]
  | .fadd _ _ _ _ => []
  | .fsub _ _ _ _ => []
  | .fmul _ _ _ _ => []
  | .fdiv _ _ _ _ => []
  | .fsqrt _ _ _ => []
  | .fmin _ _ _ _ => []
  | .fmax _ _ _ _ => []
  | .fabs _ _ _ => []
  | .fneg _ _ _ => []
  | .fmov _ _ _ => []
  | .fclass _ d _ => [d.toNat]
  | .fmvg _ d _ => [d.toNat]
  | .fmvf _ _ _ => []
  | .fma _ _ _ _ _ => []
  | .fms _ _ _ _ _ => []
  | .fnma _ _ _ _ _ => []
  | .fnms _ _ _ _ _ => []
  | .fcvt _ t _ _ d _ => if 4 ≤ t.toNat then [d.toNat] else []
  | .frnd _ _ _ _ _ => []
  | .fcmpEq _ _ _ _ _ => []
  | .fcmpNe _ _ _ _ _ => []
  | .fcmpLt _ _ _ _ _ => []
  | .fcmpLe _ _ _ _ _ => []
  | .fcmpUn _ _ _ _ _ => []
  | .fcmpOrd _ _ _ _ _ => []
  | .ld _ _ _ _ _ d _ => [d.toNat]
  | .st _ _ _ _ _ _ _ => []
  | .ldf _ _ _ _ d _ => [d.toNat]
  | .ldfE _ _ _ _ d _ => [d.toNat]
  | .setf _ _ => []
  | .sete _ _ => []
  | .testf _ d _ => [d.toNat]
  | .amoAdd _ _ _ _ d _ => [d.toNat]
  | .amoAnd _ _ _ _ d _ => [d.toNat]
  | .amoOr _ _ _ _ d _ => [d.toNat]
  | .amoXor _ _ _ _ d _ => [d.toNat]
  | .amoMin _ _ _ _ d _ => [d.toNat]
  | .amoMax _ _ _ _ d _ => [d.toNat]
  | .amoMinn _ _ _ _ d _ => [d.toNat]
  | .amoMaxn _ _ _ _ d _ => [d.toNat]
  | .amoXchg _ _ _ _ d _ => [d.toNat]
  | .amoFadd _ _ _ d _ => [d.toNat]
  | .amoFmin _ _ _ d _ => [d.toNat]
  | .amoFmax _ _ _ d _ => [d.toNat]
  | .cas _ _ _ d _ => [d.toNat]
  | .ldc _ _ _ _ d _ => [d.toNat]
  | .stc _ _ _ _ _ _ => []
  | .amocAdd _ _ _ d _ => [d.toNat]
  | .amocFadd _ _ _ d _ => [d.toNat]
  | .amocMin _ _ _ d _ => [d.toNat]
  | .amocMax _ _ _ d _ => [d.toNat]
  | .amocFmax _ _ _ d _ => [d.toNat]
  | .amocXchg _ _ _ d _ => [d.toNat]
  | .fenceA _ _ => []
  | .fenceL _ _ => []
  | .fenceAl _ _ => []
  | .invr _ _ _ => []
  | .pubr _ _ _ => []
  | .isync _ => []
  | .pref _ _ => []
  | .clbinv _ _ => []
  | .br _ _ => []
  | .jal _ _ => []
  | .jalr _ _ d _ => [d.toNat]
  | .loop _ _ _ => []
  | .send _ _ _ _ _ _ => []
  | .sendx _ _ _ _ => []
  | .spawn _ _ d _ => [d.toNat]
  | .trec _ _ d _ => [d.toNat]
  | .dec _ _ => []
  | .decL _ _ => []
  | .tarm _ _ _ => []
  | .tend _ => []
  | .elect _ d _ => [d.toNat]
  | .tinfo _ d _ => [d.toNat]
  | .phdecl _ _ => []
  | .phstat _ d _ => [d.toNat]
  | .cancelLaunch _ _ => []
  | .cancelGraph _ _ => []
  | .cancelPhase _ _ => []
  | .cancelJob _ _ => []
  | .qtest _ d _ => [d.toNat]
  | .qclose _ _ => []
  | .qbind _ _ _ => []
  | .semp _ _ => []
  | .sempServe _ _ => []
  | .semv _ _ => []
  | .vgo _ _ => []
  | .tmset _ _ _ => []
  | .tmget _ _ _ => []
  | .tmofs _ _ _ => []
  | .copy _ _ _ _ => []
  | .gath _ _ _ _ _ => []
  | .scat _ _ _ _ _ => []
  | .scatAdd _ _ _ _ _ => []
  | .kagg _ _ _ _ _ => []
  | .kaggO _ _ _ _ _ => []
  | .kbcast _ _ _ _ _ => []
  | .kisect _ _ _ _ _ => []
  | .kfold _ _ _ _ => []
  | .kdirty _ _ _ _ => []
  | .convt _ _ _ _ _ _ => []
  | .compress _ _ _ _ _ _ => []
  | .mma _ _ _ _ _ _ _ _ => []
  | .mmas _ _ _ _ _ _ _ _ _ => []
  | .mzero _ _ _ => []
  | .mldacc _ _ _ _ => []
  | .mstacc _ _ _ _ => []
  | .bfpa _ _ _ _ _ => []
  | .resize _ _ => []
  | .volalloc _ d _ => [d.toNat]
  | .volfree _ _ _ => []
  | .stash _ _ _ => []
  | .unstash _ d _ => [d.toNat]
  | .flq _ _ _ => []
  | .trap _ _ => []
  | .tret _ => []
  | .ctxkill _ _ => []
  | .csrr _ d _ => [d.toNat]
  | .csrw _ _ _ => []
  | .csrx _ _ d _ => [d.toNat]
  | .cIll _ => []
  | .cNop => []
  | .cMov _ d => [d.toNat]
  | .cAdd _ d => [d.toNat]
  | .cSub _ d => [d.toNat]
  | .cAddi _ d => [d.toNat]
  | .cShli _ d => [d.toNat]
  | .cLdw _ _ d => [d.toNat]
  | .cStw _ _ _ => []
  | .cLdd _ _ d => [d.toNat]
  | .cStd _ _ _ => []
  | .cBr _ => []
  | .cBnz _ _ => []
  | .cCall _ => []
  | .cRet => []
  | .cTend => []
  | .vadd _ _ _ _ _ => []
  | .vsub _ _ _ _ _ => []
  | .vmul _ _ _ _ _ => []
  | .vfma _ _ _ _ _ => []
  | .vfms _ _ _ _ _ => []
  | .vmin _ _ _ _ _ => []
  | .vmax _ _ _ _ _ => []
  | .vabs _ _ _ _ => []
  | .vneg _ _ _ _ => []
  | .vmov _ _ _ _ => []
  | .vand _ _ _ _ _ => []
  | .vor _ _ _ _ _ => []
  | .vxor _ _ _ _ _ => []
  | .vshl _ _ _ _ _ => []
  | .vshr _ _ _ _ _ => []
  | .vsra _ _ _ _ _ => []
  | .vcmpEq _ _ _ _ _ => []
  | .vcmpNe _ _ _ _ _ => []
  | .vcmpLt _ _ _ _ _ => []
  | .vcmpLe _ _ _ _ _ => []
  | .vcmpGt _ _ _ _ _ => []
  | .vcmpGe _ _ _ _ _ => []
  | .vcmpUn _ _ _ _ _ => []
  | .vcmpOrd _ _ _ _ _ => []
  | .vsel _ _ _ _ => []
  | .vmand _ _ _ => []
  | .vmor _ _ _ => []
  | .vmnot _ _ => []
  | .vld _ _ _ => []
  | .vst _ _ _ => []
  | .vlds _ _ _ _ => []
  | .vsts _ _ _ _ => []
  | .vgath _ _ _ _ => []
  | .vscat _ _ _ _ => []
  | .vldq _ _ _ => []
  | .vstq _ _ _ => []
  | .vbcq _ _ _ => []
  | .vend _ _ => []
  | .vredAdd _ _ _ _ => []
  | .vredMin _ _ _ _ => []
  | .vredMax _ _ _ _ => []
  | .vredAnd _ _ _ _ => []
  | .vredOr _ _ _ _ => []
  | .vredXor _ _ _ _ => []
  | .vscanAdd _ _ _ _ => []
  | .vscanMin _ _ _ _ => []
  | .vscanMax _ _ _ _ => []
  | .vscanAnd _ _ _ _ => []
  | .vscanOr _ _ _ _ => []
  | .vscanXor _ _ _ _ => []
  | .vperm _ _ _ _ => []
  | .vbcast _ _ _ => []
  | .vcvt _ _ _ _ _ _ => []
  | .vrnd _ _ _ _ _ => []
  | .vthresh _ _ _ _ _ => []
  | .vexp _ _ _ => []
  | .vlog _ _ _ => []
  | .vrcp _ _ _ => []
  | .vrsq _ _ _ => []
  | .streamBr _ _ => []
  | .streamLoop _ _ _ => []
  | .killRecord _ => []
  | .inlineBlock _ => []
  | .routineClassMessage _ => []
  | .launch _ => []
  | .launchComplete _ => []
  | .cancel _ => []
  | .decMessage _ => []
  | .spawnMessage _ => []
  | .spawnReply _ => []
  | .taskStart _ => []
  | .deficitReplenish _ => []
  | .creditGrant _ => []
  | .amo _ => []
  | .casMessage _ => []
  | .atomicReply _ => []
  | .postedAtomicAck _ => []
  | .electRequest _ => []
  | .phaseDeclaration _ => []
  | .phaseComplete _ _ => []
  | .phdone _ => []
  | .trapev _ => []
  | .landingPlain _ => []
  | .landingConv _ => []
  | .landingAdd _ => []
  | .landingSetf _ => []
  | .landingTrans _ => []
  | .gathreq _ => []
  | .scatreq _ => []
  | .kaggreq _ => []
  | .kbcastreq _ => []
  | .changeLogAppend _ => []
  | .mcmd _ => []
  | .xform _ => []
  | .fldone _ => []
  | .commandComplete _ => []
  | .lateFault _ => []
  | .groupWatchdog _ => []
  | .queueWaitTimeout _ => []
  | .ldfServe _ => []
  | .ldfRetry _ => []
  | .writeRequest _ => []
  | .heldWriteResume _ => []
  | .registration _ => []
  | .revoke _ => []
  | .lineFill _ => []
  | .forwardedRead _ => []
  | .fillArrival _ => []
  | .writeBack _ => []
  | .strongAccess _ => []
  | .placedAccess _ => []
  | .speculativeReplay _ => []
  | .tileAllocation _ => []
  | .clbShootdown _ => []
  | .budgetExpiry _ => []
  | .taskTermination _ => []
  | .leaveSave _ _ => []
  | .epochAdvance _ => []
  | .randRead m _ d _ => if m = 1#2 then [] else [d.toNat]
  | .tctlRead m _ d _ => if m = 1#2 then [] else [d.toNat]
  | .cvstatRead m _ d _ => if m = 1#2 then [] else [d.toNat]
  | .fnselWrite m _ d _ => if m = 1#2 then [] else [d.toNat]
  | .bfmtWrite _ m _ d _ => if m = 1#2 then [] else [d.toNat]
  | .bdropWrite _ m _ d _ => if m = 1#2 then [] else [d.toNat]
  | .budgetWrite m _ d _ => if m = 1#2 then [] else [d.toNat]
  | .phslotWrite m _ d _ => if m = 1#2 then [] else [d.toNat]
  | .gselWrite m _ d _ => if m = 1#2 then [] else [d.toNat]
  | .grantWrite m _ d _ => if m = 1#2 then [] else [d.toNat]
  | .grantLeave m _ d _ => if m = 1#2 then [] else [d.toNat]
  | .grantRestore m _ d _ => if m = 1#2 then [] else [d.toNat]
  | .tokenIssue m _ d _ => if m = 1#2 then [] else [d.toNat]
  | .mkeyWrite m _ d _ => if m = 1#2 then [] else [d.toNat]
  | .lwadd m _ d _ => if m = 1#2 then [] else [d.toNat]
  | .lwmaxn m _ d _ => if m = 1#2 then [] else [d.toNat]
  | .lwfmax m _ d _ => if m = 1#2 then [] else [d.toNat]
  | .pqcfgWrite m _ d _ => if m = 1#2 then [] else [d.toNat]
  | .pqpop m _ d _ => if m = 1#2 then [] else [d.toNat]
  | .stashbWrite m _ d _ => if m = 1#2 then [] else [d.toNat]
  | .stashlWrite m _ d _ => if m = 1#2 then [] else [d.toNat]
  | .pcapWrite m _ d _ => if m = 1#2 then [] else [d.toNat]
  | .csrWrite _ m _ d _ => if m = 1#2 then [] else [d.toNat]
  | .map _ => []
  | .unmap _ => []
  | .rights _ => []
  | .clean _ => []
  | .logtail _ => []
  | .ctxset _ => []
  | .kring _ => []
  | .hostlist _ => []
  | .slice _ => []
  | .sliceStart _ _ => []
  | .gangGraceExpiry _ _ => []
  | .sliceEnd _ _ => []
  | .glaunch _ => []
  | .ack _ => []
  | .gangAckTimeout _ _ => []
  | .late _ => []
  | .stop _ => []
  | .tileFence _ _ => []
  | .eccCorrected _ _ => []
  | .linkRetryExhausted _ _ => []
  | .powerStep _ _ => []
  | .thermalLimit _ _ _ => []
  | .functionReady _ _ => []
  | .imageVerification _ _ => []
  | .managementWrite _ _ _ => []
  | .managementRead _ _ => []
  | .attestationRequest _ _ _ => []
  | .coreReset _ => []
  | .tileReset _ => []
  | .packageReset _ => []
  | .trainingFailure _ _ => []
  | .recallRequest _ => []

/-- The f registers an instruction names. -/
def fFields : Instr → List Nat
  | .add _ _ _ _ _ => []
  | .sub _ _ _ _ _ => []
  | .mul _ _ _ _ _ => []
  | .mulh _ _ _ _ _ => []
  | .mulhn _ _ _ _ _ => []
  | .div _ _ _ _ _ => []
  | .divn _ _ _ _ _ => []
  | .rem _ _ _ _ _ => []
  | .remn _ _ _ _ _ => []
  | .and _ _ _ _ => []
  | .or _ _ _ _ => []
  | .xor _ _ _ _ => []
  | .andn _ _ _ _ => []
  | .shl _ _ _ _ _ => []
  | .shr _ _ _ _ _ => []
  | .sra _ _ _ _ _ => []
  | .rot _ _ _ _ _ => []
  | .min _ _ _ _ => []
  | .max _ _ _ _ => []
  | .minn _ _ _ _ => []
  | .maxn _ _ _ _ => []
  | .sel _ _ _ _ => []
  | .addi _ _ _ _ => []
  | .andi _ _ _ _ => []
  | .ori _ _ _ _ => []
  | .xori _ _ _ _ => []
  | .shli _ _ _ _ _ => []
  | .shri _ _ _ _ _ => []
  | .srai _ _ _ _ _ => []
  | .roti _ _ _ _ _ => []
  | .movi _ _ _ => []
  | .movs _ _ _ => []
  | .abs _ _ _ => []
  | .neg _ _ _ => []
  | .not _ _ _ => []
  | .clz _ _ _ => []
  | .ctz _ _ _ => []
  | .popc _ _ _ => []
  | .sxb _ _ _ => []
  | .sxh _ _ _ => []
  | .sxw _ _ _ => []
  | .zxb _ _ _ => []
  | .zxh _ _ _ => []
  | .zxw _ _ _ => []
  | .bswap _ _ _ => []
  | .bfx _ _ _ _ _ => []
  | .bfi _ _ _ _ _ => []
  | .cmpEq _ _ _ _ _ _ => []
  | .cmpNe _ _ _ _ _ _ => []
  | .cmpLt _ _ _ _ _ _ => []
  | .cmpLe _ _ _ _ _ _ => []
  | .cmpGt _ _ _ _ _ _ => []
  | .cmpGe _ _ _ _ _ _ => []
  | .cmpLtn _ _ _ _ _ _ => []
  | .cmpLen _ _ _ _ _ _ => []
  | .cmpGtn _ _ _ _ _ _ => []
  | .cmpGen _ _ _ _ _ _ => []
  | .cmpiEq _ _ _ _ _ _ => []
  | .cmpiNe _ _ _ _ _ _ => []
  | .cmpiLt _ _ _ _ _ _ => []
  | .cmpiLe _ _ _ _ _ _ => []
  | .cmpiGt _ _ _ _ _ _ => []
  | .cmpiGe _ _ _ _ _ _ => []
  | .cmpiLtn _ _ _ _ _ _ => []
  | .cmpiLen _ _ _ _ _ _ => []
  | .cmpiGtn _ _ _ _ _ _ => []
  | .cmpiGen _ _ _ _ _ _ => []
  | .pand _ _ _ _ => []
  | .por _ _ _ _ => []
  | .pxor _ _ _ _ => []
  | .pandn _ _ _ _ => []
  | .pnot _ _ _ => []
  | .pmov _ _ _ => []
  | .ppack _ _ => []
  | .punpk _ _ => []
  | .lea _ _ _ _ _ _ => []
  | .fadd b a d _ => [a.toNat, b.toNat, d.toNat]
  | .fsub b a d _ => [a.toNat, b.toNat, d.toNat]
  | .fmul b a d _ => [a.toNat, b.toNat, d.toNat]
  | .fdiv b a d _ => [a.toNat, b.toNat, d.toNat]
  | .fsqrt a d _ => [a.toNat, d.toNat]
  | .fmin b a d _ => [a.toNat, b.toNat, d.toNat]
  | .fmax b a d _ => [a.toNat, b.toNat, d.toNat]
  | .fabs a d _ => [a.toNat, d.toNat]
  | .fneg a d _ => [a.toNat, d.toNat]
  | .fmov a d _ => [a.toNat, d.toNat]
  | .fclass a _ _ => [a.toNat]
  | .fmvg a _ _ => [a.toNat]
  | .fmvf _ d _ => [d.toNat]
  | .fma c b a d _ => [a.toNat, b.toNat, c.toNat, d.toNat]
  | .fms c b a d _ => [a.toNat, b.toNat, c.toNat, d.toNat]
  | .fnma c b a d _ => [a.toNat, b.toNat, c.toNat, d.toNat]
  | .fnms c b a d _ => [a.toNat, b.toNat, c.toNat, d.toNat]
  | .fcvt s t _ a d _ => (if 4 ≤ s.toNat then [] else [a.toNat]) ++ (if 4 ≤ t.toNat then [] else [d.toNat])
  | .frnd _ _ a d _ => [a.toNat, d.toNat]
  | .fcmpEq b a _ _ _ => [a.toNat, b.toNat]
  | .fcmpNe b a _ _ _ => [a.toNat, b.toNat]
  | .fcmpLt b a _ _ _ => [a.toNat, b.toNat]
  | .fcmpLe b a _ _ _ => [a.toNat, b.toNat]
  | .fcmpUn b a _ _ _ => [a.toNat, b.toNat]
  | .fcmpOrd b a _ _ _ => [a.toNat, b.toNat]
  | .ld _ _ _ _ _ _ _ => []
  | .st _ _ _ _ _ _ _ => []
  | .ldf _ _ _ _ _ _ => []
  | .ldfE _ _ _ _ _ _ => []
  | .setf _ _ => []
  | .sete _ _ => []
  | .testf _ _ _ => []
  | .amoAdd _ _ _ _ _ _ => []
  | .amoAnd _ _ _ _ _ _ => []
  | .amoOr _ _ _ _ _ _ => []
  | .amoXor _ _ _ _ _ _ => []
  | .amoMin _ _ _ _ _ _ => []
  | .amoMax _ _ _ _ _ _ => []
  | .amoMinn _ _ _ _ _ _ => []
  | .amoMaxn _ _ _ _ _ _ => []
  | .amoXchg _ _ _ _ _ _ => []
  | .amoFadd _ _ _ _ _ => []
  | .amoFmin _ _ _ _ _ => []
  | .amoFmax _ _ _ _ _ => []
  | .cas _ _ _ _ _ => []
  | .ldc _ _ _ _ _ _ => []
  | .stc _ _ _ _ _ _ => []
  | .amocAdd _ _ _ _ _ => []
  | .amocFadd _ _ _ _ _ => []
  | .amocMin _ _ _ _ _ => []
  | .amocMax _ _ _ _ _ => []
  | .amocFmax _ _ _ _ _ => []
  | .amocXchg _ _ _ _ _ => []
  | .fenceA _ _ => []
  | .fenceL _ _ => []
  | .fenceAl _ _ => []
  | .invr _ _ _ => []
  | .pubr _ _ _ => []
  | .isync _ => []
  | .pref _ _ => []
  | .clbinv _ _ => []
  | .br _ _ => []
  | .jal _ _ => []
  | .jalr _ _ _ _ => []
  | .loop _ _ _ => []
  | .send _ _ _ _ _ _ => []
  | .sendx _ _ _ _ => []
  | .spawn _ _ _ _ => []
  | .trec _ _ _ _ => []
  | .dec _ _ => []
  | .decL _ _ => []
  | .tarm _ _ _ => []
  | .tend _ => []
  | .elect _ _ _ => []
  | .tinfo _ _ _ => []
  | .phdecl _ _ => []
  | .phstat _ _ _ => []
  | .cancelLaunch _ _ => []
  | .cancelGraph _ _ => []
  | .cancelPhase _ _ => []
  | .cancelJob _ _ => []
  | .qtest _ _ _ => []
  | .qclose _ _ => []
  | .qbind _ _ _ => []
  | .semp _ _ => []
  | .sempServe _ _ => []
  | .semv _ _ => []
  | .vgo _ _ => []
  | .tmset _ _ _ => []
  | .tmget _ _ _ => []
  | .tmofs _ _ _ => []
  | .copy _ _ _ _ => []
  | .gath _ _ _ _ _ => []
  | .scat _ _ _ _ _ => []
  | .scatAdd _ _ _ _ _ => []
  | .kagg _ _ _ _ _ => []
  | .kaggO _ _ _ _ _ => []
  | .kbcast _ _ _ _ _ => []
  | .kisect _ _ _ _ _ => []
  | .kfold _ _ _ _ => []
  | .kdirty _ _ _ _ => []
  | .convt _ _ _ _ _ _ => []
  | .compress _ _ _ _ _ _ => []
  | .mma _ _ _ _ _ _ _ _ => []
  | .mmas _ _ _ _ _ _ _ _ _ => []
  | .mzero _ _ _ => []
  | .mldacc _ _ _ _ => []
  | .mstacc _ _ _ _ => []
  | .bfpa _ _ _ _ _ => []
  | .resize _ _ => []
  | .volalloc _ _ _ => []
  | .volfree _ _ _ => []
  | .stash _ _ _ => []
  | .unstash _ _ _ => []
  | .flq _ _ _ => []
  | .trap _ _ => []
  | .tret _ => []
  | .ctxkill _ _ => []
  | .csrr _ _ _ => []
  | .csrw _ _ _ => []
  | .csrx _ _ _ _ => []
  | .cIll _ => []
  | .cNop => []
  | .cMov _ _ => []
  | .cAdd _ _ => []
  | .cSub _ _ => []
  | .cAddi _ _ => []
  | .cShli _ _ => []
  | .cLdw _ _ _ => []
  | .cStw _ _ _ => []
  | .cLdd _ _ _ => []
  | .cStd _ _ _ => []
  | .cBr _ => []
  | .cBnz _ _ => []
  | .cCall _ => []
  | .cRet => []
  | .cTend => []
  | .vadd _ _ _ _ _ => []
  | .vsub _ _ _ _ _ => []
  | .vmul _ _ _ _ _ => []
  | .vfma _ _ _ _ _ => []
  | .vfms _ _ _ _ _ => []
  | .vmin _ _ _ _ _ => []
  | .vmax _ _ _ _ _ => []
  | .vabs _ _ _ _ => []
  | .vneg _ _ _ _ => []
  | .vmov _ _ _ _ => []
  | .vand _ _ _ _ _ => []
  | .vor _ _ _ _ _ => []
  | .vxor _ _ _ _ _ => []
  | .vshl _ _ _ _ _ => []
  | .vshr _ _ _ _ _ => []
  | .vsra _ _ _ _ _ => []
  | .vcmpEq _ _ _ _ _ => []
  | .vcmpNe _ _ _ _ _ => []
  | .vcmpLt _ _ _ _ _ => []
  | .vcmpLe _ _ _ _ _ => []
  | .vcmpGt _ _ _ _ _ => []
  | .vcmpGe _ _ _ _ _ => []
  | .vcmpUn _ _ _ _ _ => []
  | .vcmpOrd _ _ _ _ _ => []
  | .vsel _ _ _ _ => []
  | .vmand _ _ _ => []
  | .vmor _ _ _ => []
  | .vmnot _ _ => []
  | .vld _ _ _ => []
  | .vst _ _ _ => []
  | .vlds _ _ _ _ => []
  | .vsts _ _ _ _ => []
  | .vgath _ _ _ _ => []
  | .vscat _ _ _ _ => []
  | .vldq _ _ _ => []
  | .vstq _ _ _ => []
  | .vbcq _ _ _ => []
  | .vend _ _ => []
  | .vredAdd _ _ _ _ => []
  | .vredMin _ _ _ _ => []
  | .vredMax _ _ _ _ => []
  | .vredAnd _ _ _ _ => []
  | .vredOr _ _ _ _ => []
  | .vredXor _ _ _ _ => []
  | .vscanAdd _ _ _ _ => []
  | .vscanMin _ _ _ _ => []
  | .vscanMax _ _ _ _ => []
  | .vscanAnd _ _ _ _ => []
  | .vscanOr _ _ _ _ => []
  | .vscanXor _ _ _ _ => []
  | .vperm _ _ _ _ => []
  | .vbcast _ _ _ => []
  | .vcvt _ _ _ _ _ _ => []
  | .vrnd _ _ _ _ _ => []
  | .vthresh _ _ _ _ _ => []
  | .vexp _ _ _ => []
  | .vlog _ _ _ => []
  | .vrcp _ _ _ => []
  | .vrsq _ _ _ => []
  | .streamBr _ _ => []
  | .streamLoop _ _ _ => []
  | .killRecord _ => []
  | .inlineBlock _ => []
  | .routineClassMessage _ => []
  | .launch _ => []
  | .launchComplete _ => []
  | .cancel _ => []
  | .decMessage _ => []
  | .spawnMessage _ => []
  | .spawnReply _ => []
  | .taskStart _ => []
  | .deficitReplenish _ => []
  | .creditGrant _ => []
  | .amo _ => []
  | .casMessage _ => []
  | .atomicReply _ => []
  | .postedAtomicAck _ => []
  | .electRequest _ => []
  | .phaseDeclaration _ => []
  | .phaseComplete _ _ => []
  | .phdone _ => []
  | .trapev _ => []
  | .landingPlain _ => []
  | .landingConv _ => []
  | .landingAdd _ => []
  | .landingSetf _ => []
  | .landingTrans _ => []
  | .gathreq _ => []
  | .scatreq _ => []
  | .kaggreq _ => []
  | .kbcastreq _ => []
  | .changeLogAppend _ => []
  | .mcmd _ => []
  | .xform _ => []
  | .fldone _ => []
  | .commandComplete _ => []
  | .lateFault _ => []
  | .groupWatchdog _ => []
  | .queueWaitTimeout _ => []
  | .ldfServe _ => []
  | .ldfRetry _ => []
  | .writeRequest _ => []
  | .heldWriteResume _ => []
  | .registration _ => []
  | .revoke _ => []
  | .lineFill _ => []
  | .forwardedRead _ => []
  | .fillArrival _ => []
  | .writeBack _ => []
  | .strongAccess _ => []
  | .placedAccess _ => []
  | .speculativeReplay _ => []
  | .tileAllocation _ => []
  | .clbShootdown _ => []
  | .budgetExpiry _ => []
  | .taskTermination _ => []
  | .leaveSave _ _ => []
  | .epochAdvance _ => []
  | .randRead _ _ _ _ => []
  | .tctlRead _ _ _ _ => []
  | .cvstatRead _ _ _ _ => []
  | .fnselWrite _ _ _ _ => []
  | .bfmtWrite _ _ _ _ _ => []
  | .bdropWrite _ _ _ _ _ => []
  | .budgetWrite _ _ _ _ => []
  | .phslotWrite _ _ _ _ => []
  | .gselWrite _ _ _ _ => []
  | .grantWrite _ _ _ _ => []
  | .grantLeave _ _ _ _ => []
  | .grantRestore _ _ _ _ => []
  | .tokenIssue _ _ _ _ => []
  | .mkeyWrite _ _ _ _ => []
  | .lwadd _ _ _ _ => []
  | .lwmaxn _ _ _ _ => []
  | .lwfmax _ _ _ _ => []
  | .pqcfgWrite _ _ _ _ => []
  | .pqpop _ _ _ _ => []
  | .stashbWrite _ _ _ _ => []
  | .stashlWrite _ _ _ _ => []
  | .pcapWrite _ _ _ _ => []
  | .csrWrite _ _ _ _ _ => []
  | .map _ => []
  | .unmap _ => []
  | .rights _ => []
  | .clean _ => []
  | .logtail _ => []
  | .ctxset _ => []
  | .kring _ => []
  | .hostlist _ => []
  | .slice _ => []
  | .sliceStart _ _ => []
  | .gangGraceExpiry _ _ => []
  | .sliceEnd _ _ => []
  | .glaunch _ => []
  | .ack _ => []
  | .gangAckTimeout _ _ => []
  | .late _ => []
  | .stop _ => []
  | .tileFence _ _ => []
  | .eccCorrected _ _ => []
  | .linkRetryExhausted _ _ => []
  | .powerStep _ _ => []
  | .thermalLimit _ _ _ => []
  | .functionReady _ _ => []
  | .imageVerification _ _ => []
  | .managementWrite _ _ _ => []
  | .managementRead _ _ => []
  | .attestationRequest _ _ _ => []
  | .coreReset _ => []
  | .tileReset _ => []
  | .packageReset _ => []
  | .trainingFailure _ _ => []
  | .recallRequest _ => []

/-- The f registers an instruction reads: those it names, but for the destination, which is named last (R91, R103). -/
def fSources (i : Instr) : List Nat :=
  match i with
  | .fclass a _ _ | .fmvg a _ _ => [a.toNat]
  | .fmvf _ _ _ => []
  | .fcvt s _ _ a _ _ => if 4 ≤ s.toNat then [] else [a.toNat]
  | .fcmpEq b a _ _ _ | .fcmpNe b a _ _ _ | .fcmpLt b a _ _ _ | .fcmpLe b a _ _ _ | .fcmpUn b a _ _ _
    | .fcmpOrd b a _ _ _ => [a.toNat, b.toNat]
  | i => (fFields i).dropLast

/-- The predicates an instruction reads, its guard apart: the selector, the members of the logic, the old value of a condition
that is combined, and all of them (R50, R73, R79, R80). -/
def pSources (i : Instr) : List Nat :=
  match i with
  | .sel _ _ _ g => [g.toNat % 8]
  | .ppack _ _ => List.range 8
  | .pand b a _ _ | .por b a _ _ | .pxor b a _ _ | .pandn b a _ _ => [a.toNat, b.toNat]
  | .pnot a _ _ | .pmov a _ _ => [a.toNat]
  | .cmpEq _ _ _ o d _ | .cmpNe _ _ _ o d _ | .cmpLt _ _ _ o d _ | .cmpLe _ _ _ o d _ | .cmpGt _ _ _ o d _
    | .cmpGe _ _ _ o d _ | .cmpLtn _ _ _ o d _ | .cmpLen _ _ _ o d _ | .cmpGtn _ _ _ o d _ | .cmpGen _ _ _ o d _
    | .cmpiEq _ _ _ o d _ | .cmpiNe _ _ _ o d _ | .cmpiLt _ _ _ o d _ | .cmpiLe _ _ _ o d _ | .cmpiGt _ _ _ o d _
    | .cmpiGe _ _ _ o d _ | .cmpiLtn _ _ _ o d _ | .cmpiLen _ _ _ o d _ | .cmpiGtn _ _ _ o d _ | .cmpiGen _ _ _ o d _
    | .fcmpEq _ _ o d _ | .fcmpNe _ _ o d _ | .fcmpLt _ _ o d _ | .fcmpLe _ _ o d _ | .fcmpUn _ _ o d _
    | .fcmpOrd _ _ o d _ => if o = 0#2 then [] else [d.toNat]
  | _ => []

/-- Where an instruction may execute (R52, Table 4). -/
inductive Where where
  | scalar | dray | setter | press | engines | maps | bfpa | stream | device
  deriving DecidableEq, Repr

/-- The row of Table 4 an instruction stands in; `device` for a step of the device. -/
def whereOf : Instr → Where
  | .add _ _ _ _ _ => .scalar
  | .sub _ _ _ _ _ => .scalar
  | .mul _ _ _ _ _ => .scalar
  | .mulh _ _ _ _ _ => .scalar
  | .mulhn _ _ _ _ _ => .scalar
  | .div _ _ _ _ _ => .scalar
  | .divn _ _ _ _ _ => .scalar
  | .rem _ _ _ _ _ => .scalar
  | .remn _ _ _ _ _ => .scalar
  | .and _ _ _ _ => .scalar
  | .or _ _ _ _ => .scalar
  | .xor _ _ _ _ => .scalar
  | .andn _ _ _ _ => .scalar
  | .shl _ _ _ _ _ => .scalar
  | .shr _ _ _ _ _ => .scalar
  | .sra _ _ _ _ _ => .scalar
  | .rot _ _ _ _ _ => .scalar
  | .min _ _ _ _ => .scalar
  | .max _ _ _ _ => .scalar
  | .minn _ _ _ _ => .scalar
  | .maxn _ _ _ _ => .scalar
  | .sel _ _ _ _ => .scalar
  | .addi _ _ _ _ => .scalar
  | .andi _ _ _ _ => .scalar
  | .ori _ _ _ _ => .scalar
  | .xori _ _ _ _ => .scalar
  | .shli _ _ _ _ _ => .scalar
  | .shri _ _ _ _ _ => .scalar
  | .srai _ _ _ _ _ => .scalar
  | .roti _ _ _ _ _ => .scalar
  | .movi _ _ _ => .scalar
  | .movs _ _ _ => .scalar
  | .abs _ _ _ => .scalar
  | .neg _ _ _ => .scalar
  | .not _ _ _ => .scalar
  | .clz _ _ _ => .scalar
  | .ctz _ _ _ => .scalar
  | .popc _ _ _ => .scalar
  | .sxb _ _ _ => .scalar
  | .sxh _ _ _ => .scalar
  | .sxw _ _ _ => .scalar
  | .zxb _ _ _ => .scalar
  | .zxh _ _ _ => .scalar
  | .zxw _ _ _ => .scalar
  | .bswap _ _ _ => .scalar
  | .bfx _ _ _ _ _ => .scalar
  | .bfi _ _ _ _ _ => .scalar
  | .cmpEq _ _ _ _ _ _ => .scalar
  | .cmpNe _ _ _ _ _ _ => .scalar
  | .cmpLt _ _ _ _ _ _ => .scalar
  | .cmpLe _ _ _ _ _ _ => .scalar
  | .cmpGt _ _ _ _ _ _ => .scalar
  | .cmpGe _ _ _ _ _ _ => .scalar
  | .cmpLtn _ _ _ _ _ _ => .scalar
  | .cmpLen _ _ _ _ _ _ => .scalar
  | .cmpGtn _ _ _ _ _ _ => .scalar
  | .cmpGen _ _ _ _ _ _ => .scalar
  | .cmpiEq _ _ _ _ _ _ => .scalar
  | .cmpiNe _ _ _ _ _ _ => .scalar
  | .cmpiLt _ _ _ _ _ _ => .scalar
  | .cmpiLe _ _ _ _ _ _ => .scalar
  | .cmpiGt _ _ _ _ _ _ => .scalar
  | .cmpiGe _ _ _ _ _ _ => .scalar
  | .cmpiLtn _ _ _ _ _ _ => .scalar
  | .cmpiLen _ _ _ _ _ _ => .scalar
  | .cmpiGtn _ _ _ _ _ _ => .scalar
  | .cmpiGen _ _ _ _ _ _ => .scalar
  | .pand _ _ _ _ => .scalar
  | .por _ _ _ _ => .scalar
  | .pxor _ _ _ _ => .scalar
  | .pandn _ _ _ _ => .scalar
  | .pnot _ _ _ => .scalar
  | .pmov _ _ _ => .scalar
  | .ppack _ _ => .scalar
  | .punpk _ _ => .scalar
  | .lea _ _ _ _ _ _ => .scalar
  | .fadd _ _ _ _ => .scalar
  | .fsub _ _ _ _ => .scalar
  | .fmul _ _ _ _ => .scalar
  | .fdiv _ _ _ _ => .scalar
  | .fsqrt _ _ _ => .scalar
  | .fmin _ _ _ _ => .scalar
  | .fmax _ _ _ _ => .scalar
  | .fabs _ _ _ => .scalar
  | .fneg _ _ _ => .scalar
  | .fmov _ _ _ => .scalar
  | .fclass _ _ _ => .scalar
  | .fmvg _ _ _ => .scalar
  | .fmvf _ _ _ => .scalar
  | .fma _ _ _ _ _ => .scalar
  | .fms _ _ _ _ _ => .scalar
  | .fnma _ _ _ _ _ => .scalar
  | .fnms _ _ _ _ _ => .scalar
  | .fcvt _ _ _ _ _ _ => .scalar
  | .frnd _ _ _ _ _ => .scalar
  | .fcmpEq _ _ _ _ _ => .scalar
  | .fcmpNe _ _ _ _ _ => .scalar
  | .fcmpLt _ _ _ _ _ => .scalar
  | .fcmpLe _ _ _ _ _ => .scalar
  | .fcmpUn _ _ _ _ _ => .scalar
  | .fcmpOrd _ _ _ _ _ => .scalar
  | .ld _ _ _ _ _ _ _ => .scalar
  | .st _ _ _ _ _ _ _ => .scalar
  | .ldf _ _ _ _ _ _ => .engines
  | .ldfE _ _ _ _ _ _ => .engines
  | .setf _ _ => .scalar
  | .sete _ _ => .scalar
  | .testf _ _ _ => .scalar
  | .amoAdd _ _ _ _ _ _ => .scalar
  | .amoAnd _ _ _ _ _ _ => .scalar
  | .amoOr _ _ _ _ _ _ => .scalar
  | .amoXor _ _ _ _ _ _ => .scalar
  | .amoMin _ _ _ _ _ _ => .scalar
  | .amoMax _ _ _ _ _ _ => .scalar
  | .amoMinn _ _ _ _ _ _ => .scalar
  | .amoMaxn _ _ _ _ _ _ => .scalar
  | .amoXchg _ _ _ _ _ _ => .scalar
  | .amoFadd _ _ _ _ _ => .scalar
  | .amoFmin _ _ _ _ _ => .scalar
  | .amoFmax _ _ _ _ _ => .scalar
  | .cas _ _ _ _ _ => .scalar
  | .ldc _ _ _ _ _ _ => .scalar
  | .stc _ _ _ _ _ _ => .scalar
  | .amocAdd _ _ _ _ _ => .scalar
  | .amocFadd _ _ _ _ _ => .scalar
  | .amocMin _ _ _ _ _ => .scalar
  | .amocMax _ _ _ _ _ => .scalar
  | .amocFmax _ _ _ _ _ => .scalar
  | .amocXchg _ _ _ _ _ => .scalar
  | .fenceA _ _ => .scalar
  | .fenceL _ _ => .scalar
  | .fenceAl _ _ => .scalar
  | .invr _ _ _ => .scalar
  | .pubr _ _ _ => .scalar
  | .isync _ => .scalar
  | .pref _ _ => .scalar
  | .clbinv _ _ => .scalar
  | .br _ _ => .scalar
  | .jal _ _ => .scalar
  | .jalr _ _ _ _ => .scalar
  | .loop _ _ _ => .scalar
  | .send _ _ _ _ _ _ => .scalar
  | .sendx _ _ _ _ => .scalar
  | .spawn _ _ _ _ => .scalar
  | .trec _ _ _ _ => .scalar
  | .dec _ _ => .scalar
  | .decL _ _ => .scalar
  | .tarm _ _ _ => .scalar
  | .tend _ => .scalar
  | .elect _ _ _ => .scalar
  | .tinfo _ _ _ => .scalar
  | .phdecl _ _ => .scalar
  | .phstat _ _ _ => .scalar
  | .cancelLaunch _ _ => .scalar
  | .cancelGraph _ _ => .scalar
  | .cancelPhase _ _ => .scalar
  | .cancelJob _ _ => .scalar
  | .qtest _ _ _ => .press
  | .qclose _ _ => .press
  | .qbind _ _ _ => .press
  | .semp _ _ => .engines
  | .sempServe _ _ => .device
  | .semv _ _ => .engines
  | .vgo _ _ => .press
  | .tmset _ _ _ => .maps
  | .tmget _ _ _ => .maps
  | .tmofs _ _ _ => .maps
  | .copy _ _ _ _ => .dray
  | .gath _ _ _ _ _ => .dray
  | .scat _ _ _ _ _ => .dray
  | .scatAdd _ _ _ _ _ => .dray
  | .kagg _ _ _ _ _ => .dray
  | .kaggO _ _ _ _ _ => .dray
  | .kbcast _ _ _ _ _ => .dray
  | .kisect _ _ _ _ _ => .dray
  | .kfold _ _ _ _ => .dray
  | .kdirty _ _ _ _ => .dray
  | .convt _ _ _ _ _ _ => .setter
  | .compress _ _ _ _ _ _ => .setter
  | .mma _ _ _ _ _ _ _ _ => .press
  | .mmas _ _ _ _ _ _ _ _ _ => .press
  | .mzero _ _ _ => .press
  | .mldacc _ _ _ _ => .press
  | .mstacc _ _ _ _ => .press
  | .bfpa _ _ _ _ _ => .bfpa
  | .resize _ _ => .scalar
  | .volalloc _ _ _ => .scalar
  | .volfree _ _ _ => .scalar
  | .stash _ _ _ => .dray
  | .unstash _ _ _ => .dray
  | .flq _ _ _ => .dray
  | .trap _ _ => .scalar
  | .tret _ => .scalar
  | .ctxkill _ _ => .scalar
  | .csrr _ _ _ => .scalar
  | .csrw _ _ _ => .scalar
  | .csrx _ _ _ _ => .scalar
  | .cIll _ => .scalar
  | .cNop => .scalar
  | .cMov _ _ => .scalar
  | .cAdd _ _ => .scalar
  | .cSub _ _ => .scalar
  | .cAddi _ _ => .scalar
  | .cShli _ _ => .scalar
  | .cLdw _ _ _ => .scalar
  | .cStw _ _ _ => .scalar
  | .cLdd _ _ _ => .scalar
  | .cStd _ _ _ => .scalar
  | .cBr _ => .scalar
  | .cBnz _ _ => .scalar
  | .cCall _ => .scalar
  | .cRet => .scalar
  | .cTend => .scalar
  | .vadd _ _ _ _ _ => .stream
  | .vsub _ _ _ _ _ => .stream
  | .vmul _ _ _ _ _ => .stream
  | .vfma _ _ _ _ _ => .stream
  | .vfms _ _ _ _ _ => .stream
  | .vmin _ _ _ _ _ => .stream
  | .vmax _ _ _ _ _ => .stream
  | .vabs _ _ _ _ => .stream
  | .vneg _ _ _ _ => .stream
  | .vmov _ _ _ _ => .stream
  | .vand _ _ _ _ _ => .stream
  | .vor _ _ _ _ _ => .stream
  | .vxor _ _ _ _ _ => .stream
  | .vshl _ _ _ _ _ => .stream
  | .vshr _ _ _ _ _ => .stream
  | .vsra _ _ _ _ _ => .stream
  | .vcmpEq _ _ _ _ _ => .stream
  | .vcmpNe _ _ _ _ _ => .stream
  | .vcmpLt _ _ _ _ _ => .stream
  | .vcmpLe _ _ _ _ _ => .stream
  | .vcmpGt _ _ _ _ _ => .stream
  | .vcmpGe _ _ _ _ _ => .stream
  | .vcmpUn _ _ _ _ _ => .stream
  | .vcmpOrd _ _ _ _ _ => .stream
  | .vsel _ _ _ _ => .stream
  | .vmand _ _ _ => .stream
  | .vmor _ _ _ => .stream
  | .vmnot _ _ => .stream
  | .vld _ _ _ => .stream
  | .vst _ _ _ => .stream
  | .vlds _ _ _ _ => .stream
  | .vsts _ _ _ _ => .stream
  | .vgath _ _ _ _ => .stream
  | .vscat _ _ _ _ => .stream
  | .vldq _ _ _ => .stream
  | .vstq _ _ _ => .stream
  | .vbcq _ _ _ => .stream
  | .vend _ _ => .stream
  | .vredAdd _ _ _ _ => .stream
  | .vredMin _ _ _ _ => .stream
  | .vredMax _ _ _ _ => .stream
  | .vredAnd _ _ _ _ => .stream
  | .vredOr _ _ _ _ => .stream
  | .vredXor _ _ _ _ => .stream
  | .vscanAdd _ _ _ _ => .stream
  | .vscanMin _ _ _ _ => .stream
  | .vscanMax _ _ _ _ => .stream
  | .vscanAnd _ _ _ _ => .stream
  | .vscanOr _ _ _ _ => .stream
  | .vscanXor _ _ _ _ => .stream
  | .vperm _ _ _ _ => .stream
  | .vbcast _ _ _ => .stream
  | .vcvt _ _ _ _ _ _ => .stream
  | .vrnd _ _ _ _ _ => .stream
  | .vthresh _ _ _ _ _ => .stream
  | .vexp _ _ _ => .stream
  | .vlog _ _ _ => .stream
  | .vrcp _ _ _ => .stream
  | .vrsq _ _ _ => .stream
  | .streamBr _ _ => .stream
  | .streamLoop _ _ _ => .stream
  | .killRecord _ => .device
  | .inlineBlock _ => .device
  | .routineClassMessage _ => .device
  | .launch _ => .device
  | .launchComplete _ => .device
  | .cancel _ => .device
  | .decMessage _ => .device
  | .spawnMessage _ => .device
  | .spawnReply _ => .device
  | .taskStart _ => .device
  | .deficitReplenish _ => .device
  | .creditGrant _ => .device
  | .amo _ => .device
  | .casMessage _ => .device
  | .atomicReply _ => .device
  | .postedAtomicAck _ => .device
  | .electRequest _ => .device
  | .phaseDeclaration _ => .device
  | .phaseComplete _ _ => .device
  | .phdone _ => .device
  | .trapev _ => .device
  | .landingPlain _ => .device
  | .landingConv _ => .device
  | .landingAdd _ => .device
  | .landingSetf _ => .device
  | .landingTrans _ => .device
  | .gathreq _ => .device
  | .scatreq _ => .device
  | .kaggreq _ => .device
  | .kbcastreq _ => .device
  | .changeLogAppend _ => .device
  | .mcmd _ => .device
  | .xform _ => .device
  | .fldone _ => .device
  | .commandComplete _ => .device
  | .lateFault _ => .device
  | .groupWatchdog _ => .device
  | .queueWaitTimeout _ => .device
  | .ldfServe _ => .device
  | .ldfRetry _ => .device
  | .writeRequest _ => .device
  | .heldWriteResume _ => .device
  | .registration _ => .device
  | .revoke _ => .device
  | .lineFill _ => .device
  | .forwardedRead _ => .device
  | .fillArrival _ => .device
  | .writeBack _ => .device
  | .strongAccess _ => .device
  | .placedAccess _ => .device
  | .speculativeReplay _ => .device
  | .tileAllocation _ => .device
  | .clbShootdown _ => .device
  | .budgetExpiry _ => .device
  | .taskTermination _ => .device
  | .leaveSave _ _ => .device
  | .epochAdvance _ => .device
  | .randRead _ _ _ _ => .scalar
  | .tctlRead _ _ _ _ => .scalar
  | .cvstatRead _ _ _ _ => .scalar
  | .fnselWrite _ _ _ _ => .scalar
  | .bfmtWrite _ _ _ _ _ => .scalar
  | .bdropWrite _ _ _ _ _ => .scalar
  | .budgetWrite _ _ _ _ => .scalar
  | .phslotWrite _ _ _ _ => .scalar
  | .gselWrite _ _ _ _ => .scalar
  | .grantWrite _ _ _ _ => .scalar
  | .grantLeave _ _ _ _ => .scalar
  | .grantRestore _ _ _ _ => .scalar
  | .tokenIssue _ _ _ _ => .scalar
  | .mkeyWrite _ _ _ _ => .scalar
  | .lwadd _ _ _ _ => .scalar
  | .lwmaxn _ _ _ _ => .scalar
  | .lwfmax _ _ _ _ => .scalar
  | .pqcfgWrite _ _ _ _ => .scalar
  | .pqpop _ _ _ _ => .scalar
  | .stashbWrite _ _ _ _ => .scalar
  | .stashlWrite _ _ _ _ => .scalar
  | .pcapWrite _ _ _ _ => .scalar
  | .csrWrite _ _ _ _ _ => .scalar
  | .map _ => .device
  | .unmap _ => .device
  | .rights _ => .device
  | .clean _ => .device
  | .logtail _ => .device
  | .ctxset _ => .device
  | .kring _ => .device
  | .hostlist _ => .device
  | .slice _ => .device
  | .sliceStart _ _ => .device
  | .gangGraceExpiry _ _ => .device
  | .sliceEnd _ _ => .device
  | .glaunch _ => .device
  | .ack _ => .device
  | .gangAckTimeout _ _ => .device
  | .late _ => .device
  | .stop _ => .device
  | .tileFence _ _ => .device
  | .eccCorrected _ _ => .device
  | .linkRetryExhausted _ _ => .device
  | .powerStep _ _ => .device
  | .thermalLimit _ _ _ => .device
  | .functionReady _ _ => .device
  | .imageVerification _ _ => .device
  | .managementWrite _ _ _ => .device
  | .managementRead _ _ => .device
  | .attestationRequest _ _ _ => .device
  | .coreReset _ => .device
  | .tileReset _ => .device
  | .packageReset _ => .device
  | .trainingFailure _ _ => .device
  | .recallRequest _ => .device

/-- The g registers an instruction names, those it reads or writes and the one QBIND binds. -/
def gNamed (i : Instr) : List Nat :=
  match i with
  | .qbind b _ _ => [b.toNat]
  | i => gSources i ++ gDests i

/-- The core, by its number on its tile, may execute the instruction (R52). -/
def coreAllows (i : Instr) (n : Nat) : Bool :=
  match whereOf i with
  | .scalar => true
  | .dray => n == 4
  | .setter => n == 5
  | .press => n == 6
  | .engines => n == 4 || n == 5 || n == 6
  | .maps => decide (4 ≤ n)
  | .bfpa => n == 5 || decide (8 ≤ n)
  | .stream => false
  | .device => false

/-! ### Which CSR exists where, and who may reach it (R12, R335, R349) -/

/-- The core, by its number on its tile, has the CSR (Table 2a). -/
def csrExists (n c : Nat) : Bool :=
  let engine := decide (4 ≤ c) && decide (c ≤ 6)
  let post := decide (8 ≤ c)
  if n ≤ 0x00A ∨ (0x010 ≤ n ∧ n ≤ 0x014) ∨ (0x020 ≤ n ∧ n ≤ 0x02D) ∨ n = 0x030 ∨ (0x040 ≤ n ∧ n ≤ 0x060) ∨
      (0x080 ≤ n ∧ n ≤ 0x083) ∨ (0x0A0 ≤ n ∧ n ≤ 0x0A6) then true
  else if n = 0x070 then engine
  else if n = 0x071 ∨ n = 0x072 ∨ n = 0x077 then engine || post
  else if 0x073 ≤ n ∧ n ≤ 0x076 then c == 6
  else if 0x078 ≤ n ∧ n ≤ 0x07C then c == 4
  else if n = 0x090 ∨ n = 0x091 then post
  else false

/-- Any access at U takes PRIV. -/
def csrSupervisor (n : Nat) : Bool :=
  (decide (0x080 ≤ n) && decide (n ≤ 0x083)) || (decide (0x0A0 ≤ n) && decide (n ≤ 0x0A6)) || n == 0x075

/-- The lowest privilege that may read a CSR. -/
def csrReads (n : Nat) : BitVec 2 := if csrSupervisor n then 1 else 0
/-- The lowest privilege that may write a CSR: one that its table marks RO at a privilege, and RW at a higher one, is refused
there; one that is RO at every privilege ignores the write (R349). -/
def csrWrites (n : Nat) : BitVec 2 :=
  if n = 0x0A4 ∨ n = 0x0A6 then 3
  else if csrSupervisor n ∨ n = 0x001 ∨ n = 0x022 ∨ (0x07A ≤ n ∧ n ≤ 0x07C) then 1
  else 0

/-- The lowest privilege that may execute an instruction on a core (R53): three members need S, and an access of a CSR that the
core has needs what the CSR's own rule says. -/
def needsPriv (core : Nat) : Instr → BitVec 2
  | .resize _ _ => 1
  | .volfree _ _ _ => 1
  | .ctxkill _ _ => 1
  | .csrr c _ _ => if csrExists c.toNat core then csrReads c.toNat else 0
  | .csrw c _ _ => if csrExists c.toNat core then csrWrites c.toNat else 0
  | .csrx c _ _ _ => if csrExists c.toNat core then csrWrites c.toNat else 0
  | _ => 0

/-- The value of the instruction's own word, for TVAL (R54). -/
def wordOf (i : Instr) : Dword := (encode i).value

/-- Checks 2 to 4 of R54 on a decoded instruction: register counts, core, privilege. None of them looks at the guard. -/
def checks (i : Instr) (t : Task) (core : Nat) : Option (Cause × Dword) :=
  if (gNamed i).any (fun n => decide (t.gcount ≤ n)) || (fFields i).any (fun n => decide (t.fcount ≤ n)) then
    some (causeIllegal, wordOf i)
  else if !coreAllows i core then some (causeIllegal, wordOf i)
  else if t.priv.ult (needsPriv core i) then some (causePriv, wordOf i)
  else none

/-- A register is bound to a queue: its own contents are neither read nor written (R280). -/
def isBound (t : Task) (n : Nat) : Bool := t.binds.any (fun b => b.2 == n)

/-- The instruction consumes a register whose value an uncorrectable error has spoilt: its guard, or, when the guard holds, a
source that its word names (R338). `soundM` looks at the others. -/
def consumesSpoilt (i : Instr) (g : BitVec 4) (t : Task) : Bool :=
  t.spoilt.contains (64 + g.toNat % 8) ||
    (guardHolds t g && t.spoilt.any (fun n =>
      ((gSources i).contains n && !isBound t n) || ((fSources i).map (32 + ·)).contains n || ((pSources i).map (64 + ·)).contains n))

/-- MCHECK where one of the g registers that an effect consumes without naming it in its word is spoilt (R338). -/
def soundM (t : Task) (regs : List Nat) : M Unit :=
  guardM (!(regs.any (fun n => t.spoilt.contains n && !isBound t n))) causeMcheck 0

/-! ### Bound queue registers (R280) -/

/-- The queues bound to registers of a list. -/
def boundIn (t : Task) (regs : List Nat) : List (Nat × Nat) := t.binds.filter (fun b => regs.contains b.2)

/-- The registers of a coordinate operand: the volume's handle, and the first of the coordinates (R244, R248). -/
def coordRegs : Instr → Option (BitVec 5 × BitVec 5)
  | .ldc _ _ b a _ _ => some (a, b)
  | .stc _ _ b a _ _ => some (a, b)
  | .amocAdd _ b a _ _ => some (a, b)
  | .amocFadd _ b a _ _ => some (a, b)
  | .amocMin _ b a _ _ => some (a, b)
  | .amocMax _ b a _ _ => some (a, b)
  | .amocFmax _ b a _ _ => some (a, b)
  | .amocXchg _ b a _ _ => some (a, b)
  | .volfree b a _ => if b = 0#5 then none else some (a, b)
  | _ => none

/-- What a source register gives the instruction: the reserved entry of a bound one. -/
def sourceValue (t : Task) (n : BitVec 5) : Dword :=
  match t.binds.find? (fun b => b.2 == n.toNat) with
  | some b => ((t.pend.log.lookup (.queue b.1 false)).map (·.val)).getD 0
  | none => gGet t n

/-- The g registers an instruction reads: those its word names, and, for coordinates of a volume whose entry the core holds with
rank 3 or 4, the register after the named one (R244). -/
def gReads (s : State) (t : Task) (i : Instr) : List Nat :=
  gSources i ++
    match coordRegs i with
    | some (a, b) =>
      if (coreAt s (hereCore s)).vols.any (fun v =>
          v.ctx == t.ctx.toNat && v.handle == (sourceValue t a).toNat && decide (3 ≤ v.rank)) then [(b + 1#5).toNat] else []
    | none => []

/-- Reserves the head entries that the instruction's sources name, or says which queue it must wait for. An empty closed queue
gives the instruction its 0, and that stays what it gives it (R152). The reply of a reservation holds the entry's place. -/
def reserve : List (Nat × Nat) → State → State ⊕ Want
  | [], s => .inl s
  | (q, _) :: r, s =>
    match hereTask s with
    | none => .inl s
    | some t =>
      match t.pend.log.lookup (.queue q false) with
      | some _ => reserve r s
      | none =>
        match firstFree s (hereTile s) q with
        | some n =>
          let entry : Reply := { cause := 0, val := (queueAt s (hereTile s) q).getD n 0, data := [BitVec.ofNat 64 n] }
          reserve r (modTask s s.here (fun t => { t with pend := { t.pend with log := (.queue q false, entry) :: t.pend.log } }))
        | none =>
          if queueClosed s (hereTile s) q && (queueAt s (hereTile s) q).isEmpty then
            reserve r (modTask s s.here (fun t =>
              { t with pend := { t.pend with log := (.queue q false, { cause := 0, val := 0, data := [] }) :: t.pend.log } }))
          else .inr (.queue q false)

/-- Writes a register of the file whatever is bound. -/
def setRaw (t : Task) (n : Nat) (v : Dword) : Task := { t with g := t.g.setIfInBounds n v }

/-- The bound registers of a task as they were in another state of it: their own contents, spoilt or not. -/
def ownBack (t u : Task) : Task :=
  { t.binds.foldl (fun (u : Task) (b : Nat × Nat) => setRaw u b.2 (t.g.getD b.2 0)) u with
    spoilt := (t.spoilt.filter (isBound t)).foldl nput (u.spoilt.filter (fun n => !isBound t n)) }

/-- Removes a reserved entry from its queue, if there is one; the pop acquires (R153, R279). -/
def popReserved (q : Nat) : M Unit := do
  let t ← thisTask
  let s ← get
  match ((t.pend.log.lookup (.queue q false)).map (·.data)).getD [] with
  | n :: _ => set (takeQueue s (hereTile s) q n.toNat)
  | [] => pure ()
  acquireM

/-- A wait that keeps what the instruction has done gives the bound registers their own contents back. -/
def keepOwn (t : Task) (m : M Flow) : M Flow := fun s =>
  match m s with
  | .error (.hold w s') => .error (.hold w (modTask s' s'.here (ownBack t)))
  | x => x

/-- An effect whose task has queues bound: sources read the reserved entries, a destination is pushed, and the registers'
own contents stay (R280). -/
def throughQueues (i : Instr) (body : Task → M Flow) : M Flow := do
  let t ← thisTask
  let srcs := boundIn t (gReads (← get) t i)
  let dsts := boundIn t (gDests i)
  let shown := srcs.foldl (fun (u : Task) (b : Nat × Nat) =>
    setRaw u b.2 (((t.pend.log.lookup (.queue b.1 false)).map (·.val)).getD 0)) t
  putThis shown
  let flow ← keepOwn t (body shown)
  match hereTask (← get) with
  | none => pure flow
  | some after =>
    srcs.forM (fun b => popReserved b.1)
    dsts.forM (fun b => do
      pushReleaseM
      let s ← get
      match pushQueue s (hereTile s) b.1 (after.g.getD b.2 0) with
      | some s' => set s'
      | none => waitM (.queue b.1 true))
    modThis (ownBack t)
    pure flow

/-- The effect of an instruction whose checks and guard have passed. -/
def effect (i : Instr) (t : Task) (body : Task → M Flow) (s : State) : State :=
  if t.binds.isEmpty then finish i.length (body t) s
  else
    match reserve (boundIn t (gSources i)) s with
    | .inr w => beginWait w none s
    | .inl s =>
      let t := (hereTask s).getD t
      match reserve (boundIn t (gReads s t i)) s with
      | .inr w => beginWait w none s
      | .inl s => finish i.length (throughQueues i body) s

/-- The frame of every scalar instruction (R10, R54, R338): checks 2 to 4, the MCHECK of a spoilt register, then the guard, then
the effect. A false guard only moves pc. -/
def scalar (i : Instr) (g : BitVec 4) (s : State) (body : Task → M Flow) : Result :=
  match hereTask s with
  | none => .fault .noTask
  | some t =>
    match checks i t (coreNum (hereCore s)) with
    | some (c, v) => .next (takeTrap c v s)
    | none =>
      if consumesSpoilt i g t then .next (takeTrap causeMcheck 0 s)
      else if guardHolds t g then .next (effect i t body s)
      else .next (modTask s s.here (fun t => { stepPc t i.length with pend := .idle }))

/-- The unguarded form of a guard: p0, not negated (R10). -/
def always : BitVec 4 := 0#4

/-- An effect on the task's own registers alone. -/
def onTask (f : Task → Task) : Task → M Flow := fun _ => do
  modThis f
  pure .seq

/-- The result of a computation over the task's registers, written to gd. -/
def toG (d : BitVec 5) (v : Task → Dword) : Task → M Flow := onTask (fun t => gSet t d (v t))
/-- The same, written to fd. -/
def toF (d : BitVec 5) (v : Task → Word) : Task → M Flow := onTask (fun t => fSet t d (v t))
/-- The same, written to pd. -/
def toP (d : BitVec 3) (v : Task → Bool) : Task → M Flow := onTask (fun t => pSet t d (v t))

/-- A computed result, or the trap it takes instead. -/
def toGOr (d : BitVec 5) (v : Task → Dword ⊕ (Cause × Dword)) : Task → M Flow := fun t =>
  match v t with
  | .inl x => onTask (fun t => gSet t d x) t
  | .inr (c, val) => trapM c val

/-- A register field of a compact form (R48). -/
def cReg (n : BitVec 4) : BitVec 5 := n.setWidth 5

/-- The effective address of the M format: G(a) + SignExt(off5) × 2^size (R50, R82). -/
def effAddr (t : Task) (a o : BitVec 5) (size : Nat) : Dword := gGet t a + (o.signExtend 64) <<< size

end Sys2Proof.Machine
end

