-- ==== Sys2Proof/Machine/Flags.lean ====
section
/-!
DEFINITION. Sys2Proof/Machine/Flags.lean: conditions into predicates, and the floating conditions of TCTL.
-/

namespace Sys2Proof.Machine

/-- The comb field of the P format: 0 set, 1 and, 2 or (R50, R79). -/
def combine (comb : BitVec 2) (old c : Bool) : Bool :=
  if comb = 0#2 then c else if comb = 1#2 then old && c else old || c

/-- The condition c combined into pd (R79, R102). -/
def setPred (t : Task) (d : BitVec 3) (comb : BitVec 2) (c : Bool) : Task := pSet t d (combine comb (pGet t d) c)

/-- An integer condition of Table 5 (R79) on operands of one width. -/
inductive Cond where
  | eq | ne | lt | le | gt | ge | ltn | len | gtn | gen
  deriving DecidableEq, Repr

def condHolds {w : Nat} (c : Cond) (a b : BitVec w) : Bool :=
  match c with
  | .eq => a == b
  | .ne => a != b
  | .lt => a.slt b
  | .le => a.sle b
  | .gt => b.slt a
  | .ge => b.sle a
  | .ltn => a.ult b
  | .len => a.ule b
  | .gtn => b.ult a
  | .gen => b.ule a

/-- The same, a .W form on the low 32 bits only. -/
def condWide (w : BitVec 1) (c : Cond) (a b : Dword) : Bool :=
  if w = 1#1 then condHolds c (a.setWidth 32) (b.setWidth 32) else condHolds c a b

/-- The condition compares unsigned, so CMPI extends its immediate with zeros (R79). -/
def condUnsigned (c : Cond) : Bool :=
  match c with
  | .ltn | .len | .gtn | .gen => true
  | _ => false

/-- CMPI's immediate (R79). -/
def condImm (c : Cond) (i : BitVec 5) : Dword := if condUnsigned c then i.setWidth 64 else i.signExtend 64

/-! ### Floating conditions (R14, R92) -/

/-- A raised condition has its enable bit set. -/
def enabled (t : Task) (raised : BitVec 5) : Bool := (raised &&& t.tctl.extractLsb' 8 5) != 0#5

/-- The end of a floating instruction (R92): the flags are set, and then either FPEXC is taken, the destination unwritten,
or the destination is written. -/
def finishFp (raised : BitVec 5) (write : Task → Task) : Task → M Flow := fun t =>
  if enabled t raised then do throw (.fpexc raised (← get).draws)
  else onTask (fun u => write (raiseFlags u raised)) t

/-- TCTL.DZ (R14). -/
def divTraps (t : Task) : Bool := t.tctl.getLsbD 16

end Sys2Proof.Machine
end

