-- ==== Sys2Proof/Machine/Alu.lean ====
section
/-!
DEFINITION. Sys2Proof/Machine/Alu.lean: integer and predicate instructions, majors 0x00 to 0x0E and their compact forms
(spec/05_integer_control_instructions.md, R69 to R81; R48).
-/

namespace Sys2Proof.Machine

/-- An operation in its 64-bit form, or its .W form on the low 32 bits with the result sign-extended (R69). -/
def wide (w : BitVec 1) (f64 : Dword → Dword → Dword) (f32 : Word → Word → Word) (a b : Dword) : Dword :=
  if w = 1#1 then (f32 (a.setWidth 32) (b.setWidth 32)).signExtend 64 else f64 a b

/-- The high half of the signed product (R71, MULH). -/
def mulHigh {n : Nat} (a b : BitVec n) : BitVec n := BitVec.ofInt n (a.toInt * b.toInt / 2 ^ n)
/-- The high half of the unsigned product (R71, MULHN). -/
def mulHighN {n : Nat} (a b : BitVec n) : BitVec n := BitVec.ofNat n (a.toNat * b.toNat / 2 ^ n)

/-- The quotient of R72: all ones for a zero divisor, the minimum for the minimum by −1, else rounded toward zero. -/
def quotS {n : Nat} (x y : BitVec n) : BitVec n :=
  if y = 0#n then BitVec.allOnes n else BitVec.ofInt n (x.toInt.tdiv y.toInt)
def quotN {n : Nat} (x y : BitVec n) : BitVec n :=
  if y = 0#n then BitVec.allOnes n else BitVec.ofNat n (x.toNat / y.toNat)
/-- The remainder of R72: the dividend for a zero divisor, else with the dividend's sign. -/
def remS {n : Nat} (x y : BitVec n) : BitVec n :=
  if y = 0#n then x else BitVec.ofInt n (x.toInt.tmod y.toInt)
def remN {n : Nat} (x y : BitVec n) : BitVec n :=
  if y = 0#n then x else BitVec.ofNat n (x.toNat % y.toNat)

/-- The divisor a divide member reads is zero (R69, R72). -/
def divisorZero (w : BitVec 1) (b : Dword) : Bool := if w = 1#1 then b.setWidth 32 == 0#32 else b == 0#64

/-- A divide member: DIVZ for a zero divisor with TCTL.DZ set, else the result (R72). -/
def divide (w : BitVec 1) (b a d : BitVec 5) (f64 : Dword → Dword → Dword) (f32 : Word → Word → Word) :
    Task → M Flow :=
  toGOr d (fun t =>
    if divisorZero w (gGet t b) && divTraps t then .inr (causeDivz, 0#64)
    else .inl (wide w f64 f32 (gGet t a) (gGet t b)))

/-- Shifts by the low 6 bits of the amount, or the low 5 in a .W form (R71). -/
def shl64 (a b : Dword) : Dword := a <<< (b.toNat % 64)
def shl32 (a b : Word) : Word := a <<< (b.toNat % 32)
def shr64 (a b : Dword) : Dword := a >>> (b.toNat % 64)
def shr32 (a b : Word) : Word := a >>> (b.toNat % 32)
def sra64 (a b : Dword) : Dword := a.sshiftRight (b.toNat % 64)
def sra32 (a b : Word) : Word := a.sshiftRight (b.toNat % 32)
def rot64 (a b : Dword) : Dword := a.rotateRight (b.toNat % 64)
def rot32 (a b : Word) : Word := a.rotateRight (b.toNat % 32)

/-- Leading zeros, trailing zeros and ones of a doubleword (R77). -/
def clzFrom : Nat → Dword → Nat
  | 0, _ => 64
  | n + 1, a => if a.getLsbD n then 63 - n else clzFrom n a
def clz (a : Dword) : Dword := BitVec.ofNat 64 (clzFrom 64 a)
def ctzFrom : Nat → Dword → Nat
  | 0, _ => 64
  | n + 1, a => if a.getLsbD (63 - n) then 63 - n else ctzFrom n a
def ctz (a : Dword) : Dword := BitVec.ofNat 64 (ctzFrom 64 a)
def onesBelow : Nat → Dword → Nat
  | 0, _ => 0
  | n + 1, a => onesBelow n a + (if a.getLsbD n then 1 else 0)
def popc (a : Dword) : Dword := BitVec.ofNat 64 (onesBelow 64 a)
/-- The bytes in reverse order (R77). -/
def byteSwap (a : Dword) : Dword :=
  a.extractLsb' 0 8 ++ a.extractLsb' 8 8 ++ a.extractLsb' 16 8 ++ a.extractLsb' 24 8 ++ a.extractLsb' 32 8 ++
    a.extractLsb' 40 8 ++ a.extractLsb' 48 8 ++ a.extractLsb' 56 8

/-- The mask 2^len − 1 of BFX and BFI, len the field plus 1 (R78). -/
def fieldMask (l : BitVec 5) : Dword := BitVec.ofNat 64 (2 ^ (l.toNat + 1) - 1)
def bitExtract (a : Dword) (p : BitVec 6) (l : BitVec 5) : Dword := (a >>> p.toNat) &&& fieldMask l
def bitInsert (d a : Dword) (p : BitVec 6) (l : BitVec 5) : Dword :=
  (d &&& ~~~(fieldMask l <<< p.toNat)) ||| ((a &&& fieldMask l) <<< p.toNat)

/-- LEA's index, from the low 32 bits in the .W form (R81). -/
def leaIndex (w : BitVec 1) (b : Dword) : Dword := if w = 1#1 then (b.setWidth 32).signExtend 64 else b


/-- a + b (R71). -/
def execAdd (w : BitVec 1) (b a d : BitVec 5) (g : BitVec 4) (s : State) : Result :=
  scalar (.add w b a d g) g s (toG d (fun t => wide w (· + ·) (· + ·) (gGet t a) (gGet t b)))

/-- a − b (R71). -/
def execSub (w : BitVec 1) (b a d : BitVec 5) (g : BitVec 4) (s : State) : Result :=
  scalar (.sub w b a d g) g s (toG d (fun t => wide w (· - ·) (· - ·) (gGet t a) (gGet t b)))

/-- The low half of a × b (R71). -/
def execMul (w : BitVec 1) (b a d : BitVec 5) (g : BitVec 4) (s : State) : Result :=
  scalar (.mul w b a d g) g s (toG d (fun t => wide w (· * ·) (· * ·) (gGet t a) (gGet t b)))

/-- The high half of the signed product (R71). -/
def execMulh (w : BitVec 1) (b a d : BitVec 5) (g : BitVec 4) (s : State) : Result :=
  scalar (.mulh w b a d g) g s (toG d (fun t => wide w mulHigh mulHigh (gGet t a) (gGet t b)))

/-- The high half of the unsigned product (R71). -/
def execMulhn (w : BitVec 1) (b a d : BitVec 5) (g : BitVec 4) (s : State) : Result :=
  scalar (.mulhn w b a d g) g s (toG d (fun t => wide w mulHighN mulHighN (gGet t a) (gGet t b)))

/-- a << amount (R71). -/
def execShl (w : BitVec 1) (b a d : BitVec 5) (g : BitVec 4) (s : State) : Result :=
  scalar (.shl w b a d g) g s (toG d (fun t => wide w shl64 shl32 (gGet t a) (gGet t b)))

/-- Logical right shift (R71). -/
def execShr (w : BitVec 1) (b a d : BitVec 5) (g : BitVec 4) (s : State) : Result :=
  scalar (.shr w b a d g) g s (toG d (fun t => wide w shr64 shr32 (gGet t a) (gGet t b)))

/-- Arithmetic right shift (R71). -/
def execSra (w : BitVec 1) (b a d : BitVec 5) (g : BitVec 4) (s : State) : Result :=
  scalar (.sra w b a d g) g s (toG d (fun t => wide w sra64 sra32 (gGet t a) (gGet t b)))

/-- Rotate right (R71). -/
def execRot (w : BitVec 1) (b a d : BitVec 5) (g : BitVec 4) (s : State) : Result :=
  scalar (.rot w b a d g) g s (toG d (fun t => wide w rot64 rot32 (gGet t a) (gGet t b)))

/-- Signed quotient (R72). -/
def execDiv (w : BitVec 1) (b a d : BitVec 5) (g : BitVec 4) (s : State) : Result :=
  scalar (.div w b a d g) g s (divide w b a d quotS quotS)

/-- Unsigned quotient (R72). -/
def execDivn (w : BitVec 1) (b a d : BitVec 5) (g : BitVec 4) (s : State) : Result :=
  scalar (.divn w b a d g) g s (divide w b a d quotN quotN)

/-- Signed remainder (R72). -/
def execRem (w : BitVec 1) (b a d : BitVec 5) (g : BitVec 4) (s : State) : Result :=
  scalar (.rem w b a d g) g s (divide w b a d remS remS)

/-- Unsigned remainder (R72). -/
def execRemn (w : BitVec 1) (b a d : BitVec 5) (g : BitVec 4) (s : State) : Result :=
  scalar (.remn w b a d g) g s (divide w b a d remN remN)

/-- a & b (R71). -/
def execAnd (b a d : BitVec 5) (g : BitVec 4) (s : State) : Result :=
  scalar (.and b a d g) g s (toG d (fun t => gGet t a &&& gGet t b))

/-- a | b (R71). -/
def execOr (b a d : BitVec 5) (g : BitVec 4) (s : State) : Result :=
  scalar (.or b a d g) g s (toG d (fun t => gGet t a ||| gGet t b))

/-- a ^ b (R71). -/
def execXor (b a d : BitVec 5) (g : BitVec 4) (s : State) : Result :=
  scalar (.xor b a d g) g s (toG d (fun t => gGet t a ^^^ gGet t b))

/-- a & ~b (R71). -/
def execAndn (b a d : BitVec 5) (g : BitVec 4) (s : State) : Result :=
  scalar (.andn b a d g) g s (toG d (fun t => gGet t a &&& ~~~gGet t b))

/-- Signed minimum (R71). -/
def execMin (b a d : BitVec 5) (g : BitVec 4) (s : State) : Result :=
  scalar (.min b a d g) g s (toG d (fun t => if (gGet t b).slt (gGet t a) then gGet t b else gGet t a))

/-- Signed maximum (R71). -/
def execMax (b a d : BitVec 5) (g : BitVec 4) (s : State) : Result :=
  scalar (.max b a d g) g s (toG d (fun t => if (gGet t a).slt (gGet t b) then gGet t b else gGet t a))

/-- Unsigned minimum (R71). -/
def execMinn (b a d : BitVec 5) (g : BitVec 4) (s : State) : Result :=
  scalar (.minn b a d g) g s (toG d (fun t => if (gGet t b).ult (gGet t a) then gGet t b else gGet t a))

/-- Unsigned maximum (R71). -/
def execMaxn (b a d : BitVec 5) (g : BitVec 4) (s : State) : Result :=
  scalar (.maxn b a d g) g s (toG d (fun t => if (gGet t a).ult (gGet t b) then gGet t b else gGet t a))

/-- Selects a or b by the guard field; always executes (R73). -/
def execSel (b a d : BitVec 5) (sl : BitVec 4) (s : State) : Result :=
  scalar (.sel b a d sl) always s (toG d (fun t => if guardHolds t sl then gGet t a else gGet t b))

/-- a + immediate (R74). -/
def execAddi (i : BitVec 11) (a d : BitVec 5) (g : BitVec 4) (s : State) : Result :=
  scalar (.addi i a d g) g s (toG d (fun t => gGet t a + i.signExtend 64))

/-- a & immediate (R74). -/
def execAndi (i : BitVec 11) (a d : BitVec 5) (g : BitVec 4) (s : State) : Result :=
  scalar (.andi i a d g) g s (toG d (fun t => gGet t a &&& i.signExtend 64))

/-- a | immediate (R74). -/
def execOri (i : BitVec 11) (a d : BitVec 5) (g : BitVec 4) (s : State) : Result :=
  scalar (.ori i a d g) g s (toG d (fun t => gGet t a ||| i.signExtend 64))

/-- a ^ immediate (R74). -/
def execXori (i : BitVec 11) (a d : BitVec 5) (g : BitVec 4) (s : State) : Result :=
  scalar (.xori i a d g) g s (toG d (fun t => gGet t a ^^^ i.signExtend 64))

/-- a << amount by the amount in the word (R75). -/
def execShli (w : BitVec 1) (n : BitVec 6) (a d : BitVec 5) (g : BitVec 4) (s : State) : Result :=
  scalar (.shli w n a d g) g s (toG d (fun t => wide w shl64 shl32 (gGet t a) (n.setWidth 64)))

/-- Logical right shift by the amount in the word (R75). -/
def execShri (w : BitVec 1) (n : BitVec 6) (a d : BitVec 5) (g : BitVec 4) (s : State) : Result :=
  scalar (.shri w n a d g) g s (toG d (fun t => wide w shr64 shr32 (gGet t a) (n.setWidth 64)))

/-- Arithmetic right shift by the amount in the word (R75). -/
def execSrai (w : BitVec 1) (n : BitVec 6) (a d : BitVec 5) (g : BitVec 4) (s : State) : Result :=
  scalar (.srai w n a d g) g s (toG d (fun t => wide w sra64 sra32 (gGet t a) (n.setWidth 64)))

/-- Rotate right by the amount in the word (R75). -/
def execRoti (w : BitVec 1) (n : BitVec 6) (a d : BitVec 5) (g : BitVec 4) (s : State) : Result :=
  scalar (.roti w n a d g) g s (toG d (fun t => wide w rot64 rot32 (gGet t a) (n.setWidth 64)))

/-- The immediate, sign-extended (R76). -/
def execMovi (i : BitVec 16) (d : BitVec 5) (g : BitVec 4) (s : State) : Result :=
  scalar (.movi i d g) g s (toG d (fun _ => i.signExtend 64))

/-- G(d) << 16 | immediate (R76). -/
def execMovs (i : BitVec 16) (d : BitVec 5) (g : BitVec 4) (s : State) : Result :=
  scalar (.movs i d g) g s (toG d (fun t => (gGet t d <<< 16) ||| i.setWidth 64))

/-- Magnitude (R77). -/
def execAbs (a d : BitVec 5) (g : BitVec 4) (s : State) : Result :=
  scalar (.abs a d g) g s (toG d (fun t => if (gGet t a).slt 0#64 then 0#64 - gGet t a else gGet t a))

/-- 0 − a (R77). -/
def execNeg (a d : BitVec 5) (g : BitVec 4) (s : State) : Result :=
  scalar (.neg a d g) g s (toG d (fun t => 0#64 - gGet t a))

/-- ~a (R77). -/
def execNot (a d : BitVec 5) (g : BitVec 4) (s : State) : Result :=
  scalar (.not a d g) g s (toG d (fun t => ~~~gGet t a))

/-- Leading zeros (R77). -/
def execClz (a d : BitVec 5) (g : BitVec 4) (s : State) : Result :=
  scalar (.clz a d g) g s (toG d (fun t => clz (gGet t a)))

/-- Trailing zeros (R77). -/
def execCtz (a d : BitVec 5) (g : BitVec 4) (s : State) : Result :=
  scalar (.ctz a d g) g s (toG d (fun t => ctz (gGet t a)))

/-- Count of ones (R77). -/
def execPopc (a d : BitVec 5) (g : BitVec 4) (s : State) : Result :=
  scalar (.popc a d g) g s (toG d (fun t => popc (gGet t a)))

/-- Byte sign-extended (R77). -/
def execSxb (a d : BitVec 5) (g : BitVec 4) (s : State) : Result :=
  scalar (.sxb a d g) g s (toG d (fun t => ((gGet t a).setWidth 8).signExtend 64))

/-- Halfword sign-extended (R77). -/
def execSxh (a d : BitVec 5) (g : BitVec 4) (s : State) : Result :=
  scalar (.sxh a d g) g s (toG d (fun t => ((gGet t a).setWidth 16).signExtend 64))

/-- Word sign-extended (R77). -/
def execSxw (a d : BitVec 5) (g : BitVec 4) (s : State) : Result :=
  scalar (.sxw a d g) g s (toG d (fun t => ((gGet t a).setWidth 32).signExtend 64))

/-- Byte zero-extended (R77). -/
def execZxb (a d : BitVec 5) (g : BitVec 4) (s : State) : Result :=
  scalar (.zxb a d g) g s (toG d (fun t => ((gGet t a).setWidth 8).setWidth 64))

/-- Halfword zero-extended (R77). -/
def execZxh (a d : BitVec 5) (g : BitVec 4) (s : State) : Result :=
  scalar (.zxh a d g) g s (toG d (fun t => ((gGet t a).setWidth 16).setWidth 64))

/-- Word zero-extended (R77). -/
def execZxw (a d : BitVec 5) (g : BitVec 4) (s : State) : Result :=
  scalar (.zxw a d g) g s (toG d (fun t => ((gGet t a).setWidth 32).setWidth 64))

/-- Bytes reversed (R77). -/
def execBswap (a d : BitVec 5) (g : BitVec 4) (s : State) : Result :=
  scalar (.bswap a d g) g s (toG d (fun t => byteSwap (gGet t a)))

/-- Bit field, zero-extended (R78). -/
def execBfx (l : BitVec 5) (p : BitVec 6) (a d : BitVec 5) (g : BitVec 4) (s : State) : Result :=
  scalar (.bfx l p a d g) g s (toG d (fun t => bitExtract (gGet t a) p l))

/-- Bit field inserted into gd (R78). -/
def execBfi (l : BitVec 5) (p : BitVec 6) (a d : BitVec 5) (g : BitVec 4) (s : State) : Result :=
  scalar (.bfi l p a d g) g s (toG d (fun t => bitInsert (gGet t d) (gGet t a) p l))

/-- Compares ga with gb, EQ (R79). -/
def execCmpEq (w : BitVec 1) (b a : BitVec 5) (o : BitVec 2) (d : BitVec 3) (g : BitVec 4) (s : State) : Result :=
  scalar (.cmpEq w b a o d g) g s (onTask (fun t => setPred t d o (condWide w .eq (gGet t a) (gGet t b))))

/-- Compares ga with gb, NE (R79). -/
def execCmpNe (w : BitVec 1) (b a : BitVec 5) (o : BitVec 2) (d : BitVec 3) (g : BitVec 4) (s : State) : Result :=
  scalar (.cmpNe w b a o d g) g s (onTask (fun t => setPred t d o (condWide w .ne (gGet t a) (gGet t b))))

/-- Compares ga with gb, LT (R79). -/
def execCmpLt (w : BitVec 1) (b a : BitVec 5) (o : BitVec 2) (d : BitVec 3) (g : BitVec 4) (s : State) : Result :=
  scalar (.cmpLt w b a o d g) g s (onTask (fun t => setPred t d o (condWide w .lt (gGet t a) (gGet t b))))

/-- Compares ga with gb, LE (R79). -/
def execCmpLe (w : BitVec 1) (b a : BitVec 5) (o : BitVec 2) (d : BitVec 3) (g : BitVec 4) (s : State) : Result :=
  scalar (.cmpLe w b a o d g) g s (onTask (fun t => setPred t d o (condWide w .le (gGet t a) (gGet t b))))

/-- Compares ga with gb, GT (R79). -/
def execCmpGt (w : BitVec 1) (b a : BitVec 5) (o : BitVec 2) (d : BitVec 3) (g : BitVec 4) (s : State) : Result :=
  scalar (.cmpGt w b a o d g) g s (onTask (fun t => setPred t d o (condWide w .gt (gGet t a) (gGet t b))))

/-- Compares ga with gb, GE (R79). -/
def execCmpGe (w : BitVec 1) (b a : BitVec 5) (o : BitVec 2) (d : BitVec 3) (g : BitVec 4) (s : State) : Result :=
  scalar (.cmpGe w b a o d g) g s (onTask (fun t => setPred t d o (condWide w .ge (gGet t a) (gGet t b))))

/-- Compares ga with gb, LTN (R79). -/
def execCmpLtn (w : BitVec 1) (b a : BitVec 5) (o : BitVec 2) (d : BitVec 3) (g : BitVec 4) (s : State) : Result :=
  scalar (.cmpLtn w b a o d g) g s (onTask (fun t => setPred t d o (condWide w .ltn (gGet t a) (gGet t b))))

/-- Compares ga with gb, LEN (R79). -/
def execCmpLen (w : BitVec 1) (b a : BitVec 5) (o : BitVec 2) (d : BitVec 3) (g : BitVec 4) (s : State) : Result :=
  scalar (.cmpLen w b a o d g) g s (onTask (fun t => setPred t d o (condWide w .len (gGet t a) (gGet t b))))

/-- Compares ga with gb, GTN (R79). -/
def execCmpGtn (w : BitVec 1) (b a : BitVec 5) (o : BitVec 2) (d : BitVec 3) (g : BitVec 4) (s : State) : Result :=
  scalar (.cmpGtn w b a o d g) g s (onTask (fun t => setPred t d o (condWide w .gtn (gGet t a) (gGet t b))))

/-- Compares ga with gb, GEN (R79). -/
def execCmpGen (w : BitVec 1) (b a : BitVec 5) (o : BitVec 2) (d : BitVec 3) (g : BitVec 4) (s : State) : Result :=
  scalar (.cmpGen w b a o d g) g s (onTask (fun t => setPred t d o (condWide w .gen (gGet t a) (gGet t b))))

/-- Compares ga with the immediate, EQ (R79). -/
def execCmpiEq (w : BitVec 1) (i a : BitVec 5) (o : BitVec 2) (d : BitVec 3) (g : BitVec 4) (s : State) : Result :=
  scalar (.cmpiEq w i a o d g) g s (onTask (fun t => setPred t d o (condWide w .eq (gGet t a) (condImm .eq i))))

/-- Compares ga with the immediate, NE (R79). -/
def execCmpiNe (w : BitVec 1) (i a : BitVec 5) (o : BitVec 2) (d : BitVec 3) (g : BitVec 4) (s : State) : Result :=
  scalar (.cmpiNe w i a o d g) g s (onTask (fun t => setPred t d o (condWide w .ne (gGet t a) (condImm .ne i))))

/-- Compares ga with the immediate, LT (R79). -/
def execCmpiLt (w : BitVec 1) (i a : BitVec 5) (o : BitVec 2) (d : BitVec 3) (g : BitVec 4) (s : State) : Result :=
  scalar (.cmpiLt w i a o d g) g s (onTask (fun t => setPred t d o (condWide w .lt (gGet t a) (condImm .lt i))))

/-- Compares ga with the immediate, LE (R79). -/
def execCmpiLe (w : BitVec 1) (i a : BitVec 5) (o : BitVec 2) (d : BitVec 3) (g : BitVec 4) (s : State) : Result :=
  scalar (.cmpiLe w i a o d g) g s (onTask (fun t => setPred t d o (condWide w .le (gGet t a) (condImm .le i))))

/-- Compares ga with the immediate, GT (R79). -/
def execCmpiGt (w : BitVec 1) (i a : BitVec 5) (o : BitVec 2) (d : BitVec 3) (g : BitVec 4) (s : State) : Result :=
  scalar (.cmpiGt w i a o d g) g s (onTask (fun t => setPred t d o (condWide w .gt (gGet t a) (condImm .gt i))))

/-- Compares ga with the immediate, GE (R79). -/
def execCmpiGe (w : BitVec 1) (i a : BitVec 5) (o : BitVec 2) (d : BitVec 3) (g : BitVec 4) (s : State) : Result :=
  scalar (.cmpiGe w i a o d g) g s (onTask (fun t => setPred t d o (condWide w .ge (gGet t a) (condImm .ge i))))

/-- Compares ga with the immediate, LTN (R79). -/
def execCmpiLtn (w : BitVec 1) (i a : BitVec 5) (o : BitVec 2) (d : BitVec 3) (g : BitVec 4) (s : State) : Result :=
  scalar (.cmpiLtn w i a o d g) g s (onTask (fun t => setPred t d o (condWide w .ltn (gGet t a) (condImm .ltn i))))

/-- Compares ga with the immediate, LEN (R79). -/
def execCmpiLen (w : BitVec 1) (i a : BitVec 5) (o : BitVec 2) (d : BitVec 3) (g : BitVec 4) (s : State) : Result :=
  scalar (.cmpiLen w i a o d g) g s (onTask (fun t => setPred t d o (condWide w .len (gGet t a) (condImm .len i))))

/-- Compares ga with the immediate, GTN (R79). -/
def execCmpiGtn (w : BitVec 1) (i a : BitVec 5) (o : BitVec 2) (d : BitVec 3) (g : BitVec 4) (s : State) : Result :=
  scalar (.cmpiGtn w i a o d g) g s (onTask (fun t => setPred t d o (condWide w .gtn (gGet t a) (condImm .gtn i))))

/-- Compares ga with the immediate, GEN (R79). -/
def execCmpiGen (w : BitVec 1) (i a : BitVec 5) (o : BitVec 2) (d : BitVec 3) (g : BitVec 4) (s : State) : Result :=
  scalar (.cmpiGen w i a o d g) g s (onTask (fun t => setPred t d o (condWide w .gen (gGet t a) (condImm .gen i))))

/-- And of predicates (R80). -/
def execPand (b a d : BitVec 3) (g : BitVec 4) (s : State) : Result :=
  scalar (.pand b a d g) g s (toP d (fun t => pGet t a && pGet t b))

/-- Or of predicates (R80). -/
def execPor (b a d : BitVec 3) (g : BitVec 4) (s : State) : Result :=
  scalar (.por b a d g) g s (toP d (fun t => pGet t a || pGet t b))

/-- Exclusive or of predicates (R80). -/
def execPxor (b a d : BitVec 3) (g : BitVec 4) (s : State) : Result :=
  scalar (.pxor b a d g) g s (toP d (fun t => pGet t a != pGet t b))

/-- And not of predicates (R80). -/
def execPandn (b a d : BitVec 3) (g : BitVec 4) (s : State) : Result :=
  scalar (.pandn b a d g) g s (toP d (fun t => pGet t a && !pGet t b))

/-- Negation of a predicate (R80). -/
def execPnot (a d : BitVec 3) (g : BitVec 4) (s : State) : Result :=
  scalar (.pnot a d g) g s (toP d (fun t => !pGet t a))

/-- A predicate moved (R80). -/
def execPmov (a d : BitVec 3) (g : BitVec 4) (s : State) : Result :=
  scalar (.pmov a d g) g s (toP d (fun t => pGet t a))

/-- p7 to p0 as bits, bit 0 always 1 (R80). -/
def execPpack (d : BitVec 5) (g : BitVec 4) (s : State) : Result :=
  scalar (.ppack d g) g s (toG d (fun t => (t.p ||| 1#8).setWidth 64))

/-- p7 to p1 from the bits of ga (R80). -/
def execPunpk (a : BitVec 5) (g : BitVec 4) (s : State) : Result :=
  scalar (.punpk a g) g s (onTask (fun t =>
    { t with p := (gGet t a).setWidth 8 ||| 1#8, spoilt := t.spoilt.filter (fun n => decide (n < 64)) }))

/-- ga plus a scaled index (R81). -/
def execLea (w : BitVec 1) (n : BitVec 2) (b a d : BitVec 5) (g : BitVec 4) (s : State) : Result :=
  scalar (.lea w n b a d g) g s (toG d (fun t => gGet t a + (leaIndex w (gGet t b) <<< n.toNat)))

/-- Every halfword with op4 = 0 is illegal (R48, R54): the trap carries the halfword. -/
def execCIll (x : BitVec 11) (s : State) : Result :=
  match hereTask s with
  | none => .fault .noTask
  | some _ => .next (takeTrap causeIllegal (wordOf (.cIll x)) s)

/-- No effect (R48). -/
def execCNop  (s : State) : Result :=
  scalar (.cNop) always s (onTask (fun t => t))

/-- ADD gd, ga, g0 (R48). -/
def execCMov (a d : BitVec 4) (s : State) : Result :=
  scalar (.cMov a d) always s (toG (cReg d) (fun t => gGet t (cReg a)))

/-- ADD gd, gd, ga (R48). -/
def execCAdd (a d : BitVec 4) (s : State) : Result :=
  scalar (.cAdd a d) always s (toG (cReg d) (fun t => gGet t (cReg d) + gGet t (cReg a)))

/-- SUB gd, gd, ga (R48). -/
def execCSub (a d : BitVec 4) (s : State) : Result :=
  scalar (.cSub a d) always s (toG (cReg d) (fun t => gGet t (cReg d) - gGet t (cReg a)))

/-- ADDI gd, gd, imm (R48). -/
def execCAddi (i : BitVec 7) (d : BitVec 4) (s : State) : Result :=
  scalar (.cAddi i d) always s (toG (cReg d) (fun t => gGet t (cReg d) + i.signExtend 64))

/-- SHLI gd, gd, amount (R48). -/
def execCShli (n : BitVec 6) (d : BitVec 4) (s : State) : Result :=
  scalar (.cShli n d) always s (toG (cReg d) (fun t => shl64 (gGet t (cReg d)) (n.setWidth 64)))

end Sys2Proof.Machine
end

