-- ==== Sys2Proof/Machine/Fetch.lean ====
section
/-!
DEFINITION. Sys2Proof/Machine/Fetch.lean: instruction fetch through a slot's fetch buffer (R16, R17, R47, R176), and the
check and layout of inline blocks (R56).
-/

namespace Sys2Proof.Machine

/-- A fetch buffer: the number of a 32-byte block of LM and its bytes. -/
abbrev Buffer := Option (Nat × List Byte)

/-- A halfword of a list of bytes. -/
def halfAt (bytes : List Byte) (off : Nat) : BitVec 16 := halfOf (bytes.getD off 0) (bytes.getD (off + 1) 0)

/-- One halfword at an LM address through a buffer: XLATE outside LM, PROT in a bank the context does not hold. -/
def fetchHalf (s : State) (tile : Nat) (ctx : BitVec 11) (buf : Buffer) (a : Nat) :
    Except (Cause × Nat) (BitVec 16 × Buffer) :=
  if 2 ^ 20 ≤ a then .error (causeXlate, a)
  else
    match buf with
    | some (b, bytes) =>
      if b = a / 32 then .ok (halfAt bytes (a % 32), buf)
      else if bankHeld s tile ctx a then
        let bytes := storeBytes s (lmKey tile (a / 32 * 32)) 32
        .ok (halfAt bytes (a % 32), some (a / 32, bytes))
      else .error (causeProt, a)
    | none =>
      if bankHeld s tile ctx a then
        let bytes := storeBytes s (lmKey tile (a / 32 * 32)) 32
        .ok (halfAt bytes (a % 32), some (a / 32, bytes))
      else .error (causeProt, a)

/-- One instruction at an LM address: both halves of a 32-bit word in turn (R17); a second half that cannot be fetched takes
XLATE, and leaves the buffer that the first has filled (R17, R47). -/
def fetchAt (s : State) (tile : Nat) (ctx : BitVec 11) (buf : Buffer) (a : Nat) :
    Except (Cause × Nat × Buffer) (Encoded × Buffer) :=
  match fetchHalf s tile ctx buf a with
  | .error (c, a) => .error (c, a, buf)
  | .ok (lo, buf) =>
    if lo.extractLsb' 0 1 = 0#1 then .ok (.half lo, buf)
    else
      match fetchHalf s tile ctx buf (a + 2) with
      | .error _ => .error (causeXlate, a + 2, buf)
      | .ok (hi, buf) => .ok (.word (hi ++ lo), buf)

/-- The next instruction's bits of a task or of an inline block; those of an instruction that waits are as they were
fetched. -/
def fetchTask (s : State) (k : Nat) (t : Task) : Except (Cause × Nat × Buffer) (Encoded × Buffer) :=
  match t.inl with
  | some b =>
    let a := t.pc.toNat
    if (halfAt b.code a).extractLsb' 0 1 = 0#1 then .ok (.half (halfAt b.code a), none)
    else .ok (.word (halfAt b.code (a + 2) ++ halfAt b.code a), none)
  | none =>
    match t.pend.word with
    | some w => .ok (.word w, t.fetch)
    | none => fetchAt s (slotTile k) t.ctx t.fetch (wholePc t).toNat

/-- The instruction a task's bits encode. -/
def taskInstr : Encoded → Option Instr
  | .half h => decode16 h
  | .word w => taskWord w
  | .none => none

/-- The instruction a slot's task is at. -/
def currentInstr (s : State) (k : Nat) : Option Instr :=
  match taskAt s k with
  | none => none
  | some t =>
    match fetchTask s k t with
    | .ok (e, _) => taskInstr e
    | .error _ => none

/-! ### Inline blocks (R56) -/

/-- The instructions an inline block may hold, branches apart. -/
def inlineAllows : Instr → Bool
  | .add _ _ _ _ _ | .sub _ _ _ _ _ | .mul _ _ _ _ _ | .mulh _ _ _ _ _ | .mulhn _ _ _ _ _ | .div _ _ _ _ _
  | .divn _ _ _ _ _ | .rem _ _ _ _ _ | .remn _ _ _ _ _ | .and _ _ _ _ | .or _ _ _ _ | .xor _ _ _ _ | .andn _ _ _ _
  | .shl _ _ _ _ _ | .shr _ _ _ _ _ | .sra _ _ _ _ _ | .rot _ _ _ _ _ | .min _ _ _ _ | .max _ _ _ _ | .minn _ _ _ _
  | .maxn _ _ _ _ | .sel _ _ _ _ => true
  | .addi _ _ _ _ | .andi _ _ _ _ | .ori _ _ _ _ | .xori _ _ _ _ | .shli _ _ _ _ _ | .shri _ _ _ _ _ | .srai _ _ _ _ _
  | .roti _ _ _ _ _ | .movi _ _ _ | .movs _ _ _ => true
  | .cmpEq _ _ _ _ _ _ | .cmpNe _ _ _ _ _ _ | .cmpLt _ _ _ _ _ _ | .cmpLe _ _ _ _ _ _ | .cmpGt _ _ _ _ _ _
  | .cmpGe _ _ _ _ _ _ | .cmpLtn _ _ _ _ _ _ | .cmpLen _ _ _ _ _ _ | .cmpGtn _ _ _ _ _ _ | .cmpGen _ _ _ _ _ _ => true
  | .cmpiEq _ _ _ _ _ _ | .cmpiNe _ _ _ _ _ _ | .cmpiLt _ _ _ _ _ _ | .cmpiLe _ _ _ _ _ _ | .cmpiGt _ _ _ _ _ _
  | .cmpiGe _ _ _ _ _ _ | .cmpiLtn _ _ _ _ _ _ | .cmpiLen _ _ _ _ _ _ | .cmpiGtn _ _ _ _ _ _ | .cmpiGen _ _ _ _ _ _ => true
  | .ld _ _ _ _ _ _ _ | .st _ _ _ _ _ _ _ => true
  | .amoAdd _ _ _ _ _ _ | .amoAnd _ _ _ _ _ _ | .amoOr _ _ _ _ _ _ | .amoXor _ _ _ _ _ _ | .amoMin _ _ _ _ _ _
  | .amoMax _ _ _ _ _ _ | .amoMinn _ _ _ _ _ _ | .amoMaxn _ _ _ _ _ _ | .amoXchg _ _ _ _ _ _ | .amoFadd _ _ _ _ _
  | .amoFmin _ _ _ _ _ | .amoFmax _ _ _ _ _ | .cas _ _ _ _ _ => true
  | .ldc _ _ _ _ _ _ | .stc _ _ _ _ _ _ | .amocAdd _ _ _ _ _ | .amocFadd _ _ _ _ _ | .amocMin _ _ _ _ _
  | .amocMax _ _ _ _ _ | .amocFmax _ _ _ _ _ | .amocXchg _ _ _ _ _ => true
  | .send _ _ _ _ _ _ | .dec _ _ | .decL _ _ | .tend _ => true
  | .cNop | .cMov _ _ | .cAdd _ _ | .cSub _ _ | .cAddi _ _ | .cShli _ _ | .cLdw _ _ _ | .cStw _ _ _ | .cLdd _ _ _
  | .cStd _ _ _ | .cTend => true
  | _ => false

/-- The displacement in halfwords of a branch a block may hold. -/
def branchDisp : Instr → Option Int
  | .br d _ => some d.toInt
  | .cBr i => some i.toInt
  | .cBnz i _ => some i.toInt
  | _ => none

/-- Decodes a block from an offset on: the offset and instruction of each position, and where the block ends. -/
def parseBlock (bytes : List Byte) : Nat → Nat → Option (List (Nat × Instr) × Nat)
  | 0, off => if halfAt bytes off = 0#16 then some ([], off) else none
  | fuel + 1, off =>
    if halfAt bytes off = 0#16 then some ([], off)
    else
      let i? := if (halfAt bytes off).extractLsb' 0 1 = 0#1 then decode16 (halfAt bytes off)
        else taskWord (halfAt bytes (off + 2) ++ halfAt bytes off)
      match i? with
      | none => none
      | some i => (parseBlock bytes fuel (off + i.length)).map (fun r => ((off, i) :: r.1, r.2))

/-- A payload is a block that may run (R56): its instructions and its length. -/
def inlineBlock (bytes : List Byte) : Option (List (Nat × Instr) × Nat) :=
  match parseBlock bytes 6 0 with
  | none => none
  | some (l, end_) =>
    let sends := (l.filter (fun x => match x.2 with
      | .send _ _ _ _ _ _ => true
      | _ => false)).length
    let branchOk (x : Nat × Instr) : Bool :=
      match branchDisp x.2 with
      | none => inlineAllows x.2
      | some d => decide (0 < d) && (l.any (fun y => (y.1 : Int) == x.1 + 2 * d) || (end_ : Int) == x.1 + 2 * d)
    if 1 ≤ l.length ∧ sends ≤ 1 ∧ end_ ≤ bytes.length ∧ l.all branchOk ∧
        l.all (fun x => !((gNamed x.2).any (fun n => decide (16 ≤ n)) || (fFields x.2).any (fun n => decide (8 ≤ n)))) ∧
        (bytes.drop end_).all (fun b => b == 0#8) then some (l, end_)
    else none

/-- The position, 0 to 5, of the instruction at an offset of a block. -/
def blockIndex (bytes : List Byte) (off : Nat) : Nat :=
  match parseBlock bytes 6 0 with
  | some (l, _) => (l.filter (fun x => decide (x.1 < off))).length
  | none => 0

end Sys2Proof.Machine
end

