-- ==== Sys2Proof/Machine/Home.lean ====
section
/-!
DEFINITION. Sys2Proof/Machine/Home.lean: where an address lies (spec/11_memory_levels.md), its translation and its checks,
the dirty log, and the registry of a home slice (spec/12_registration_ordering.md).
-/

namespace Sys2Proof.Machine

/-! ### The address map (R174, R175, R182) -/

/-- Where a virtual address lies. -/
inductive Place where
  /-- Placed memory: LM, or the vault when `vault`, of a tile at an offset. -/
  | placed (vault : Bool) (tile off : Nat)
  | global
  | hole
  deriving DecidableEq, Repr

/-- Table 1, for an access from a tile. An own-vault way that is not DIRECT is a hole; a vault way of another tile is
judged where it lies. -/
def placeOf (s : State) (tile va : Nat) : Place :=
  let window (vault : Bool) (t off : Nat) : Place :=
    let k := tileKey (tilePkg tile) t
    if vault && k == tile && wayRole s tile (off / 2 ^ 19) != 2 then .hole else .placed vault k off
  if va < 0x100000 then .placed false tile va
  else if 0x800000 ≤ va ∧ va < 0x1000000 then window true (tile % 1024) (va % 2 ^ 23)
  else if 0x40000000 ≤ va ∧ va < 0x80000000 then window false (va / 2 ^ 20 % 1024) (va % 2 ^ 20)
  else if 0x200000000 ≤ va ∧ va < 0x400000000 then window true (va / 2 ^ 23 % 1024) (va % 2 ^ 23)
  else if 0x1000000000 ≤ va ∧ va < 2 ^ 48 then .global
  else .hole

/-- Storage key of a placed byte. -/
def placeKey (vault : Bool) (tile off : Nat) : Nat := if vault then vaultKey tile off else lmKey tile off

/-- The check of placed memory for a context (R175, R176, R182): fenced, a hole, not assigned. -/
def placedCause (s : State) (ctx : BitVec 11) (vault : Bool) (tile off : Nat) : Option Cause :=
  if (tileAt s tile).fenced then some causeOwnerlost
  else if vault then
    if wayRole s tile (off / 2 ^ 19) != 2 then some causeXlate
    else if wayHeld s tile ctx off then none else some causeProt
  else if bankHeld s tile ctx off then none else some causeProt

/-- A RESIZE that waits is to change the role of a way: new accesses to it wait (R184). -/
def resizing (s : State) (tile way : Nat) : Bool :=
  s.tasks.any (fun x => slotTile x.1 == tile &&
    match x.2.pend.log.lookup (.broadcast 7) with
    | some r => wayRole s tile way != r.val.toNat / 2 ^ (2 * way) % 4
    | none => false)
/-- The own-vault way that an address names, in either window, for an access from a tile. -/
def ownWay (tile va : Nat) : Option Nat :=
  if 0x800000 ≤ va ∧ va < 0x1000000 then some (va % 2 ^ 23 / 2 ^ 19)
  else if 0x200000000 ≤ va ∧ va < 0x400000000 ∧ va / 2 ^ 23 % 1024 = tile % 1024 then some (va % 2 ^ 23 / 2 ^ 19)
  else none
/-- An access from a tile to its own vault waits for a RESIZE, whatever the way's role still is (R184). -/
def ownResizing (s : State) (tile va : Nat) : Bool := (ownWay tile va).any (resizing s tile)
/-- The access of a packet to a way waits for a RESIZE. -/
def resizeHolds (s : State) (b : Body) : Bool :=
  match b with
  | .placed true tile off _ _ _ _ _ _ _ => resizing s tile (off / 2 ^ 19)
  | .ldf true tile off _ _ _ => resizing s tile (off / 2 ^ 19)
  | .atomic (some (true, tile, off)) _ _ _ _ _ _ _ _ _ => resizing s tile (off / 2 ^ 19)
  | _ => false

/-! ### Translation (R190 to R192) -/

/-- A leaf: the physical address of the byte, and the rights. -/
structure Leaf where
  pa : Nat
  sup : Bool
  r : Bool
  w : Bool
  cow : Bool
  deriving DecidableEq, Repr

/-- One entry of a table is well formed at a level (R191, Table 4). -/
def pteValid (e : Dword) (level : Nat) : Bool :=
  let pfn := (e.extractLsb' 12 28).toNat
  e.getLsbD 0 && e.extractLsb' 40 24 == 0#24 && e.extractLsb' 7 5 == 0#5 && !e.getLsbD 5 &&
    (if e.getLsbD 4 then
       level != 4 && !(e.getLsbD 3 && !e.getLsbD 2) &&
         (if level = 3 then pfn % 2 ^ 18 == 0 else if level = 2 then pfn % 2 ^ 9 == 0 else true)
     else level != 1 && !e.getLsbD 2 && !e.getLsbD 3 && !e.getLsbD 6)

/-- The walk of R190 from a table of a level, in the DDR memory of a package. -/
def walk (s : State) (pkg va : Nat) : Nat → Nat → Option Leaf
  | 0, _ => none
  | level + 1, base =>
    let e : Dword := BitVec.ofNat 64 (storeGet s (ddrKey pkg (base + 8 * (va / 2 ^ (12 + 9 * level) % 512))) 8)
    if pteValid e (level + 1) then
      let next := (e.extractLsb' 12 28).toNat * 4096
      if e.getLsbD 4 then
        some { pa := next + va % 2 ^ (12 + 9 * level), sup := e.getLsbD 1, r := e.getLsbD 2, w := e.getLsbD 3,
               cow := e.getLsbD 6 }
      else walk s pkg va level next
    else none

/-- The leaf of a global address under a context; none takes XLATE. -/
def translate (s : State) (pkg va ctx : Nat) : Option Leaf :=
  match ctxAt s ctx with
  | some c => walk s (homePkg pkg va) va 4 c.root
  | none => none

/-- The checks of R192: the first that fails. -/
def rightsCause (l : Leaf) (priv : BitVec 2) (write : Bool) : Option Cause :=
  if l.sup && priv == 0#2 then some causeProt
  else if write then (if l.w then none else if l.cow then some causeCow else some causeProt)
  else if l.r then none else some causeProt

/-! Channel groups of DDR memory (R376): READY2 [51:36]. -/

/-- Every group is ready. -/
def ddrAll (s : State) (pkg : Nat) : Bool := ((pkgAt s pkg).ready.getD 2 0).extractLsb' 36 16 == 0xFFFF#16
def ddrBit (pkg pa : Nat) : Nat := 36 + (Config.ddrGroup pkg (pa / 2 ^ 8 % 2 ^ 32)).toNat
/-- The group of a physical address has failed. -/
def ddrFailed (s : State) (pkg pa : Nat) : Bool :=
  !ddrAll s pkg && !(((pkgAt s pkg).ready.getD 2 0).getLsbD (ddrBit pkg pa)) && (pkgAt s pkg).failed.contains (128 + ddrBit pkg pa)
/-- The group of a global address is not ready yet: an access to it waits at the home. -/
def ddrWaits (s : State) (pkg va ctx : Nat) : Bool :=
  !ddrAll s (homePkg pkg va) &&
    match translate s pkg va ctx with
    | some l =>
      !(((pkgAt s (homePkg pkg va)).ready.getD 2 0).getLsbD (ddrBit (homePkg pkg va) l.pa)) &&
        !ddrFailed s (homePkg pkg va) l.pa
    | none => false
/-- One of the granules of a range waits for its group. -/
def spanWaits (s : State) (pkg va n ctx : Nat) : Bool :=
  !ddrAll s (homePkg pkg va) && (List.range (n / 256 + 1)).any (fun i => ddrWaits s pkg (va + 256 * i) ctx)
/-- A packet waits at its home for a channel group. -/
def ddrHolds (s : State) (p : Packet) : Bool :=
  let pkg := tilePkg (coreTile p.dst)
  match p.body with
  | .fill line ctx _ _ _ _ => ddrWaits s pkg line ctx
  | .strong va _ ctx _ _ _ => ddrWaits s pkg va ctx
  | .atomic none va _ ctx _ _ _ _ _ _ => ddrWaits s pkg va ctx
  | .alloc entry _ _ ctx _ => ddrWaits s pkg entry ctx
  | _ => false

/-- Translation and rights of one access: its storage key, or the cause of its trap. A package that is not present is refused at
the sending NI (R357), with PROT (DEDUCED, log 89). -/
def globalKey (s : State) (pkg va ctx : Nat) (priv : BitVec 2) (write : Bool) : Except Cause Nat :=
  if pkgPresent s (homePkg pkg va) then
    match translate s pkg va ctx with
    | none => .error causeXlate
    | some l =>
      match rightsCause l priv write with
      | some c => .error c
      | none =>
        if (tileAt s (homeTile s pkg va)).sliceBad || ddrFailed s (homePkg pkg va) l.pa then .error causeMcheck
        else .ok (ddrKey (homePkg pkg va) l.pa)
  else .error causeProt

/-- The storage key of a word some context maps, whatever its rights: for data the device itself moves. -/
def mappedKey (s : State) (pkg va : Nat) (ctxs : List Nat) : Option Nat :=
  ctxs.findSome? (fun c => (translate s pkg va c).map (fun l => ddrKey (homePkg pkg va) l.pa))

/-- The aligned words an access meets (R197). -/
def wordsOf (va size : Nat) : List Nat :=
  (List.range ((va % 4 + size + 3) / 4)).map (fun i => va / 4 * 4 + 4 * i)

/-! ### The dirty log (R195, R196) -/

/-- Fields of the dirty-log descriptor of a package, by its physical address (R196, Table 6). -/
def logBase (s : State) (pkg d : Nat) : Nat := storeGet s (ddrKey pkg d) 8 % 2 ^ 40 / 8 * 8
def logSize (s : State) (pkg d : Nat) : Nat := storeGet s (ddrKey pkg (d + 8)) 8 % 32
def logHead (s : State) (pkg d : Nat) : Nat := storeGet s (ddrKey pkg (d + 16)) 8
def logTail (s : State) (pkg d : Nat) : Nat := storeGet s (ddrKey pkg (d + 24)) 8
def logFull (s : State) (pkg d : Nat) : Bool := (logHead s pkg d + 2 ^ 64 - logTail s pkg d) % 2 ^ 64 == 2 ^ logSize s pkg d

/-- The frame of a storage key of DDR memory. -/
def frameOf (key : Nat) : Nat := (key - 2 ^ 50) / 2 ^ 40 * 2 ^ 28 + (key - 2 ^ 50) % 2 ^ 40 / 2 ^ 12
def framePkg (frame : Nat) : Nat := frame / 2 ^ 28

/-- The dirty-log step of a write to a granule: the state with the entry appended, or the partition whose full log holds the
write (R195, R196). -/
def dirtyStep (s : State) (key va ctx : Nat) : Except Nat State :=
  let fr := frameOf key
  match tget s.frames fr with
  | none => .ok s
  | some f =>
    if f.dirty then .ok s
    else
      let marked : State := { s with frames := tput s.frames fr { f with dirty := true } }
      match (partAt s f.part).log with
      | none => .ok marked
      | some d =>
        let pkg := framePkg fr
        if logFull s pkg d then .error f.part
        else
          let at_ := logBase s pkg d + 8 * (logHead s pkg d % 2 ^ logSize s pkg d)
          let e := va / 4096 * 4096 + 2 ^ 11 + ctx % 2 ^ 11
          .ok (storePut (storePut marked (ddrKey pkg at_) 8 e) (ddrKey pkg (d + 16)) 8 ((logHead s pkg d + 1) % 2 ^ 64))

/-! ### The registry (R202, R203) -/

/-- Words of a mask leave an owner's entry; an empty entry goes. -/
def unregister (s : State) (home line owner : Nat) (mask : Word) : State :=
  modTile s home (fun t =>
    { t with registry := t.registry.filterMap (fun e =>
        if e.line = line ∧ e.owner = owner then
          (if e.mask &&& ~~~mask = 0#32 then none else some { e with mask := e.mask &&& ~~~mask })
        else some e) })
/-- A word is added to an owner's entry. -/
def register (s : State) (home va owner : Nat) : State :=
  modTile s home (fun t =>
    if t.registry.any (fun e => e.line == lineOf va && e.owner == owner) then
      { t with registry := t.registry.map (fun e =>
          if e.line = lineOf va ∧ e.owner = owner then { e with mask := e.mask ||| maskBit va } else e) }
    else { t with registry := t.registry ++ [{ line := lineOf va, owner := owner, mask := maskBit va }] })
/-- The words of a 128-byte line whose mask bit is set. -/
def maskWords (line : Nat) (mask : Word) : List Nat :=
  ((List.range 32).filter (fun i => mask.getLsbD i)).map (fun i => line + 4 * i)

def isLost (s : State) (home va : Nat) : Bool := (tileAt s home).lostWords.contains va
/-- An uncorrectable error has been found in the word's value (R379). -/
def isPoisoned (s : State) (home va : Nat) : Bool := (tileAt s home).poisoned.contains va
/-- New values replace poisoned ones. -/
def dropPoison (s : State) (home : Nat) (words : List Nat) : State :=
  modTile s home (fun t => { t with poisoned := t.poisoned.filter (fun w => !words.contains w) })
/-- What stops a read of words: OWNERLOST, then MCHECK. -/
def wordsCause (s : State) (home : Nat) (words : List Nat) : Option Cause :=
  if words.any (isLost s home) then some causeOwnerlost
  else if words.any (isPoisoned s home) then some causeMcheck
  else none

/-! ### L1 words of a core -/

def l1Get (s : State) (core va : Nat) : Option L1Word := tget (coreAt s core).l1 va
/-- Changes an L1 word; one that no line holds any more, and that is not on its way home, goes (R213). -/
def l1Mod (s : State) (core va : Nat) (f : L1Word → L1Word) : State :=
  match l1Get s core va with
  | some w =>
    let x := f w
    modCore s core (fun c =>
      { c with l1 := if x.own = .clean ∧ !x.row ∧ !x.column then tdel c.l1 va else tput c.l1 va x })
  | none => s
def l1Drop (s : State) (core va : Nat) : State :=
  modCore s core (fun c =>
    { c with
      l1 := tdel c.l1 va
      fills := c.fills.map (fun f => if f.line = va / 32 * 32 then { f with stale := true } else f) })
/-- Fills in flight of a word's line will not be installed: an older value must not replace what the core has seen of it
since (R205). -/
def staleLine (s : State) (core va : Nat) : State :=
  if (coreAt s core).fills.any (fun f => f.line == va / 32 * 32) then
    modCore s core (fun c =>
      { c with fills := c.fills.map (fun f => if f.line = va / 32 * 32 then { f with stale := true } else f) })
  else s
/-- A hit needs the same context (R193). -/
def l1Hit (s : State) (core ctx va : Nat) : Option Word :=
  match l1Get s core va with
  | some w => if w.ctxs.contains ctx then some w.val else none
  | none => none

/-! Lines of an L1 (R1, R185, R186, R213): 512 of 32 bytes. A line's number is even for a row, odd for a column. -/

def rowLine (va : Nat) : Nat := 2 * (va / 32)
def columnLine (va : Nat) : Nat := 2 * (va / 1024 * 32 + va % 1024 / 256 * 8 + va % 32 / 4) + 1
/-- The L1 word lies in a line. -/
def inLine (n : Nat) (w : Nat × L1Word) : Bool := (w.2.row && rowLine w.1 == n) || (w.2.column && columnLine w.1 == n)
/-- A list without the repeats that stand side by side. -/
def squeeze : List Nat → List Nat
  | [] => []
  | x :: r => if r.head? = some x then squeeze r else x :: squeeze r
/-- The lines an L1 holds. -/
def linesOf (c : Core) : List Nat :=
  squeeze ((c.l1.filter (·.2.row)).map (fun w => rowLine w.1)) ++
    ((c.l1.filter (·.2.column)).map (fun w => columnLine w.1)).eraseDups

/-- A core sends a word of its own home (R213). -/
def sendHome (s : State) (core va : Nat) (v : Word) : State :=
  post s (slotKey core 14) (homeCore (homeTile s (tilePkg (coreTile core)) va)) 0 (.writeBack [(va, v)])

/-- A write-back of a word by a core has yet to reach its home. -/
def writeBackOut (s : State) (core va : Nat) : Bool :=
  s.net.any (fun p => slotCore p.src == core &&
    match p.body with
    | .writeBack words => words.any (fun w => w.1 == va)
    | _ => false)

/-- An L1 evicts a line: words of it that are registered to the core are sent home, and the core reads them as before until the
home has them; the others go, unless another line holds them (R213). -/
def evictLine (s : State) (core n : Nat) : State :=
  let s := ((coreAt s core).l1.filter (inLine n)).foldl (fun (s : State) (w : Nat × L1Word) =>
    let x := if n % 2 = 0 then { w.2 with row := false } else { w.2 with column := false }
    if x.row || x.column then l1Mod s core w.1 (fun _ => x)
    else if x.own = .registered then sendHome (l1Mod s core w.1 (fun _ => { x with own := .leaving })) core w.1 x.val
    else l1Mod s core w.1 (fun _ => x)) s
  modCore s core (fun c =>
    { c with
      grants := c.grants.filter (fun g => rowLine g.1 != n)
      fills := c.fills.map (fun f => if f.grant && rowLine f.line == n then { f with stale := true } else f) })

/-- Room in an L1 for a line: a line of the device's choice is evicted when 512 others are held, but none with a store on its
way to its home or a word that a fill in flight brings; none while every line has one (log 10). -/
def l1Room (s : State) (core n : Nat) : Option State :=
  let c := coreAt s core
  if c.l1.length < 256 then some s
  else
    let ls := linesOf c
    if ls.contains n || decide (ls.length < 512) then some s
    else
      let free := ls.filter (fun m => !(c.l1.any (fun w =>
        inLine m w && (w.2.own == .inFlight || c.fills.any (fun f => f.line == w.1 / 32 * 32)))))
      if free.isEmpty then none
      else
        let (v, s) := drawOpen s
        some (evictLine s core (free.getD (v.toNat % free.length) 0))

/-- The value of a word as its home serves it: the owner's, or storage (R199, R204). -/
def homeWord (s : State) (home va key : Nat) : Word :=
  match (ownerOf s home va).bind (fun o => l1Get s o va) with
  | some w => w.val
  | none => BitVec.ofNat 32 (storeGet s key 4)

/-- An owner's values of registered words reach storage at the home, and the words leave its mask; the owner keeps its
copies, unregistered, or drops them (R203, R213, R214). -/
def takeBack (s : State) (home owner : Nat) (words : List Nat) (drop : Bool) : State :=
  words.foldl (fun s va =>
    if ownerOf s home va = some owner then
      let s :=
        match l1Get s owner va with
        | some w =>
          match mappedKey s (tilePkg home) va w.ctxs with
          | some k => storePut s k 4 w.val.toNat
          | none => s
        | none => s
      let s := unregister s home (lineOf va) owner (maskBit va)
      if drop then l1Drop s owner va else staleLine (l1Mod s owner va (fun w => { w with own := .clean })) owner va
    else s) s

/-- An access of a core has been performed at the home of its words: the core's older copies serve no later access (R205),
but for words registered to it or on the way to be. -/
def seenWords (s : State) (home core : Nat) (words : List Nat) : State :=
  words.foldl (fun s w =>
    match l1Get s core w with
    | some x =>
      if x.own = .inFlight ∨ ownerOf s home w = some core then staleLine s core w else l1Drop s core w
    | none => staleLine s core w) s

/-- The words of a list that are registered to a core other than `but`. -/
def foreignWords (s : State) (home : Nat) (words : List Nat) (but : Option Nat) : List (Nat × Nat) :=
  words.filterMap (fun va =>
    match ownerOf s home va with
    | some o => if some o = but then none else some (va, o)
    | none => none)

/-- Sends a recall of a word to its owner, unless one is under way (R203, R214). -/
def recallWord (s : State) (home va owner : Nat) (drop : Bool) : State :=
  let b := Body.recall (lineOf va) (maskBit va) drop
  if s.net.any (fun p => p.dst == owner && p.body == b) then s else post s (niKey home) owner 0 b
def recallAll (s : State) (home : Nat) (ws : List (Nat × Nat)) : State :=
  ws.foldl (fun s w => recallWord s home w.1 w.2 true) s

/-! ### Strong accesses performed at the home (R214) -/

/-- What a home answers an access with: nothing yet (a recall or a full log is in its way, R196, R214), a trap, or a value. -/
inductive Served where
  | later (s : State)
  | trap (c : Cause) (val : Dword) (s : State)
  | done (v : Dword) (s : State)

/-- The bytes an access of one word or two reads, with each word as its home serves it. -/
def readWords (s : State) (home va key size : Nat) : Dword :=
  let ws := wordsOf va size
  let all := ws.foldr (fun w acc => (homeWord s home w (key + w - va)).toNat + 2 ^ 32 * acc) 0
  BitVec.ofNat 64 (all / 2 ^ (8 * (va % 4)) % 2 ^ (8 * size))

/-- A strong load at the home (R199, R204, R214, R216). -/
def serveLoad (s : State) (home va size ctx : Nat) (priv : BitVec 2) : Served :=
  match globalKey s (tilePkg home) va ctx priv false with
  | .error c => .trap c (BitVec.ofNat 64 va) s
  | .ok key =>
    match wordsCause s home (wordsOf va size) with
    | some c => .trap c (BitVec.ofNat 64 va) s
    | none => .done (readWords s home va (key) size) s

/-- A write of the home to a word, after which no core has it registered; a copy in the requester's own L1 is updated
(R205, R214). -/
def writeWords (s : State) (home va key size : Nat) (core : Option Nat) (v : Dword) : State :=
  let s := storePut s key size (v.toNat % 2 ^ (8 * size))
  let s := if 4 ≤ size then dropPoison s home (wordsOf va size) else s
  match core with
  | none => s
  | some c =>
    (wordsOf va size).foldl (fun s w =>
      let s := if ownerOf s home w = some c then unregister s home (lineOf w) c (maskBit w) else s
      let v := BitVec.ofNat 32 (storeGet s (key + w - va) 4)
      staleLine (l1Mod s c w (fun x => if x.own = .inFlight then x else { x with own := .clean, val := v })) c w) s

/-- Brings the requester's own registered words to storage, so that a narrower or partial write merges with them. -/
def settleOwn (s : State) (home va key size core : Nat) : State :=
  (wordsOf va size).foldl (fun s w =>
    if ownerOf s home w = some core then
      match l1Get s core w with
      | some x => storePut s (key + w - va) 4 x.val.toNat
      | none => s
    else s) s

/-- A write at the home: checks, recall of words of other cores, the dirty log, then `f` of the value found. `own` is the
core whose registered copy is updated instead of recalled; `reads` says that the value found is consumed, so that a poisoned
one takes MCHECK; a compare that fails writes nothing and logs nothing. -/
def serveWrite (s : State) (home va size ctx : Nat) (priv : BitVec 2) (own : Option Nat) (reads : Bool)
    (f : Dword → Option Dword) : Served :=
  match globalKey s (tilePkg home) va ctx priv true with
  | .error c => .trap c (BitVec.ofNat 64 va) s
  | .ok key =>
    if (wordsOf va size).any (isLost s home) then .trap causeOwnerlost (BitVec.ofNat 64 va) s
    else if reads && (wordsOf va size).any (isPoisoned s home) then .trap causeMcheck (BitVec.ofNat 64 va) s
    else
      match foreignWords s home (wordsOf va size) own with
      | [] =>
        let old := readWords s home va key size
        match f old with
        | none => .done old s
        | some v =>
          match dirtyStep s key va ctx with
          | .error part => .later (noteExit s part)
          | .ok s =>
            let s := match own with
              | some c => settleOwn s home va key size c
              | none => s
            .done old (writeWords s home va key size own v)
      | ws => .later (recallAll s home ws)

/-! ### What the device itself reads and writes at a home, at once (R195, R196, R214, R216) -/

/-- Why such an access is not made: a full dirty log of a partition holds it; it waits at its home for a channel group (R376); or it
fails at an address. -/
inductive HStop where
  | held (part : Nat)
  | waits
  | fails (cause : Cause) (va : Nat)
  deriving DecidableEq, Repr

/-- Accesses at homes, all of them made or none. -/
abbrev HM := StateT State (Except HStop)

def failH {α : Type} (c : Cause) (va : Nat) : HM α := throw (.fails c va)

/-- The dirty-log step of a write. -/
def dirtyH (key va ctx : Nat) : HM Unit := fun s =>
  match dirtyStep s key va ctx with
  | .ok s => .ok ((), s)
  | .error part => .error (.held part)

/-- Bytes as their homes serve them, whatever the rights; 0 where nothing is mapped. -/
def peek (s : State) (pkg va ctx size : Nat) : Nat :=
  match mappedKey s pkg va [ctx] with
  | some k => (readWords s (homeTile s pkg va) va k size).toNat
  | none => 0

/-- A read under a context's rights (R191, R192, R216). -/
def readHome (s : State) (pkg va ctx : Nat) (priv : BitVec 2) (size : Nat) : Except Cause Nat :=
  match globalKey s pkg va ctx priv false with
  | .error c => .error c
  | .ok k =>
    let home := homeTile s pkg va
    match wordsCause s home (wordsOf va size) with
    | some c => .error c
    | none => .ok (readWords s home va k size).toNat

/-- Brings every registered word of an access back to storage, its owner's copy dropped (R214). -/
def takeAway (s : State) (home : Nat) (words : List Nat) : State :=
  words.foldl (fun s w =>
    match ownerOf s home w with
    | some o => takeBack s home o [w] true
    | none => s) s

/-- Takes every registered word of a range back from its owner, at the homes of the range (R194, R214). -/
def takeRange (s : State) (pkg lo n : Nat) : State :=
  s.tiles.foldl (fun s t =>
    if tilePkg t.1 = homePkg pkg lo then
      t.2.registry.foldl (fun s e =>
        takeBack s t.1 e.owner ((maskWords e.line e.mask).filter (fun w => decide (lo ≤ w) && decide (w < lo + n))) true) s
    else s) s

/-- The access waits while the channel group that it needs is not ready (R376). -/
def ddrH (pkg va ctx : Nat) : HM Unit := do
  if ddrWaits (← get) pkg va ctx then throw .waits

/-- A strong read. -/
def readH (pkg va ctx : Nat) (priv : BitVec 2) (size : Nat) : HM Nat := do
  match readHome (← get) pkg va ctx priv size with
  | .ok v => do
    ddrH pkg va ctx
    pure v
  | .error c => failH c va

/-- The storage key of a write that its home lets pass: its rights, then its words (R192, R216). -/
def writableH (pkg va ctx : Nat) (priv : BitVec 2) (size : Nat) : HM Nat := do
  let s ← get
  match globalKey s pkg va ctx priv true with
  | .error c => failH c va
  | .ok k =>
    if (wordsOf va size).any (isLost s (homeTile s pkg va)) then failH causeOwnerlost va
    else do
      ddrH pkg va ctx
      pure k

/-- What a strong store does once it is let pass, its storage key found: the dirty log, the recall, the write. -/
def putH (pkg va k ctx size v : Nat) : HM Unit := do
  dirtyH k va ctx
  modify (fun s =>
    let home := homeTile s pkg va
    let s := storePut (takeAway s home (wordsOf va size)) k size (v % 2 ^ (8 * size))
    if 4 ≤ size then dropPoison s home (wordsOf va size) else s)

/-- A strong store: its checks, the dirty log, the recall, the write. -/
def writeH (pkg va ctx : Nat) (priv : BitVec 2) (size v : Nat) : HM Unit := do
  let k ← writableH pkg va ctx priv size
  putH pkg va k ctx size v

/-- Reads, and writes what a function makes of the value, as an atomic of R218: the write's checks come first. -/
def updateH (pkg va ctx : Nat) (priv : BitVec 2) (size : Nat) (f : Nat → Nat) : HM Nat := do
  let k ← writableH pkg va ctx priv size
  let s ← get
  if (wordsOf va size).any (isPoisoned s (homeTile s pkg va)) then failH causeMcheck va
  let old := (readWords s (homeTile s pkg va) va k size).toNat
  writeH pkg va ctx priv size (f old)
  pure old

/-- What an access of the device answers as a step: its result, or the state with the exit event of a full log noted. -/
def runH {α : Type} (x : HM α) (s : State) : Except (State ⊕ (Cause × Nat)) (α × State) :=
  match x s with
  | .ok r => .ok r
  | .error (.held part) => .error (.inl (noteExit s part))
  | .error .waits => .error (.inl s)
  | .error (.fails c va) => .error (.inr (c, va))

/-- An access at a home for an instruction: it waits for a full log, or takes the trap. -/
def homeM {α : Type} (x : HM α) : M α := fun s =>
  match x s with
  | .ok r => .ok r
  | .error (.held part) => .error (.logFull part)
  | .error .waits => .error (.wait .earlier none)
  | .error (.fails c va) => .error (.trap c (BitVec.ofNat 64 va))

end Sys2Proof.Machine
end

