-- ==== Sys2Proof/Machine/Access.lean ====
section
/-!
DEFINITION. Sys2Proof/Machine/Access.lean: the routes of an access from a slot to LM, a vault, an L1 or a home
(R82, R83, R175, R199 to R201, R204, R206, R207, R215 to R224).
-/

namespace Sys2Proof.Machine

/-- The checks of an effective address before any place is looked at: STACKLIM, then MISALIGN (R19, R82); an inline block
checks MISALIGN, then that the address lies in the tile's LM (R57). -/
def checkAddr (t : Task) (a : BitVec 5) (ea : Dword) (size : Nat) : M Unit :=
  if t.inl.isSome then do
    guardM (ea.toNat % size == 0) causeMisalign ea
    guardM (decide (ea.toNat < 2 ^ 20)) causeProt ea
  else do
    guardM (!(a == 2#5 && ea.ult t.slim)) causeStacklim ea
    guardM (ea.toNat % size == 0) causeMisalign ea

/-- The core and tile the instruction runs on, and its package. -/
def herePkg (s : State) : Nat := tilePkg (hereTile s)

/-- The check of placed memory made where the access is performed at once. -/
def checkPlaced (ctx : BitVec 11) (vault : Bool) (tile off : Nat) (ea : Dword) : M Unit := do
  awaitM (!vault || !resizing (← get) tile (off / 2 ^ 19)) .earlier
  match placedCause (← get) ctx vault tile off with
  | some c => trapM c ea
  | none => pure ()

/-- An access to the tile's own vault waits for a RESIZE of the way (R184). -/
def unresizedM (va : Nat) : M Unit := do
  let s ← get
  awaitM (!ownResizing s (hereTile s) va) .earlier

/-- The value a reply brings, or its trap. -/
def replyVal (r : Reply) : M Dword := if r.cause = 0#8 then pure r.val else trapM r.cause r.val

/-- The home core of a global address, for an access from here. -/
def homeFor (s : State) (va : Nat) : Nat := homeCore (homeTile s (herePkg s) va)

/-! ### Weak loads and stores of global memory -/

/-- Bytes of an access out of the values of the words it meets. -/
def fromWords (va size : Nat) (ws : List Word) : Dword :=
  let all := ws.foldr (fun w acc => w.toNat + 2 ^ 32 * acc) 0
  BitVec.ofNat 64 (all / 2 ^ (8 * (va % 4)) % 2 ^ (8 * size))

/-- The words of an access with a value stored over them, as far as it reaches. -/
def mergeWord (va size w : Nat) (old : Word) (v : Dword) : Word :=
  let bytes := (List.range 4).map (fun i =>
    let at_ := w + i
    if va ≤ at_ ∧ at_ < va + size then v.toNat / 2 ^ (8 * (at_ - va)) % 256 else old.toNat / 2 ^ (8 * i) % 256)
  BitVec.ofNat 32 (bytes.foldr (fun b acc => b + 256 * acc) 0)

/-- Word i of a fill's reply: its value, bit 32 when the word is lost, bit 33 when it is poisoned (R216,
R379). -/
def fillWord (r : Reply) (line va : Nat) : Dword := r.data.getD ((va - line) / 4) 0

/-- The row line of an address is in the L1 under a context, with every word that an access of less than a word meets (R201). -/
def linePresent (s : State) (core ctx va size : Nat) : Bool :=
  (coreAt s core).l1.any (fun w => inLine (rowLine va) w && w.2.ctxs.contains ctx) &&
    (decide (4 ≤ size) || (wordsOf va size).all (fun w => (l1Hit s core ctx w).isSome))

/-- A weak load of global memory: the L1, or a fill (R198, R204). A trap's TVAL is the effective address (R82; log 79). -/
def weakLoad (t : Task) (va size : Nat) : M Dword := do
  let s ← get
  let ws := wordsOf va size
  let hits := ws.map (l1Hit s (hereCore s) t.ctx.toNat)
  if hits.all (·.isSome) then pure (fromWords va size (hits.map (fun h => h.getD 0)))
  else
    let line := va / 32 * 32
    let r ← ask (.fill line false) (homeFor s va) (.fill line t.ctx.toNat t.priv false false false)
    if r.cause = 0#8 then
      let vals := ws.map (fun w => match l1Hit s (hereCore s) t.ctx.toNat w with
        | some v => v.setWidth 64
        | none => fillWord r line w)
      guardM (vals.all (fun v => !v.getLsbD 32)) causeOwnerlost (BitVec.ofNat 64 va)
      guardM (vals.all (fun v => !v.getLsbD 33)) causeMcheck (BitVec.ofNat 64 va)
      pure (fromWords va size (vals.map (fun v => v.setWidth 32)))
    else trapM r.cause (BitVec.ofNat 64 va)

/-- The number of the registration of a word that is on its way from a core. -/
def regInFlight (s : State) (core va : Nat) : Option Nat :=
  (s.net.find? (fun p => match p.body with
    | .reg w _ _ _ _ => w == va && slotCore p.src == core
    | _ => false)).map (·.id)

/-- The task's outstanding store `id` of a word is noted once. -/
def addOut (id va kind : Nat) (t : Task) : Task :=
  if t.outs.any (fun o => o.id == id) then t else { t with outs := t.outs ++ [{ id := id, va := va, kind := kind }] }

/-- Steps 3 and 4 of R201 for one word. A word whose write-back is on its way is written once its home has that (R213). -/
def writeL1 (t : Task) (va : Nat) (v : Word) : M Unit := do
  let core := hereCore (← get)
  let some s := l1Room (← get) core (rowLine va) | waitM .earlier
  let old := l1Get s core va
  let ctxs := ((old.map (·.ctxs)).getD []) |> fun l => if l.contains t.ctx.toNat then l else t.ctx.toNat :: l
  let col := (old.map (·.column)).getD false
  let put (s : State) (own : Own) : State :=
    modCore s core (fun c => { c with l1 := tput c.l1 va { ctxs := ctxs, val := v, own := own, row := true, column := col } })
  match (old.map (·.own)).getD .clean with
  | .leaving => waitM .earlier
  | .registered => set (put s .registered)
  | .inFlight =>
    let s := put s .inFlight
    match regInFlight s core va with
    | some id => set (modTask s s.here (addOut id va 0))
    | none => set s
  | .clean =>
    awaitM (!writeBackOut s core va) .earlier
    let id := s.nextId
    let s := put s .inFlight
    let s := post s s.here (homeFor s va) t.launch (.reg va t.ctx.toNat s.here t.uid t.tag)
    set (modTask s s.here (addOut id va 0))

/-- A weak store of global memory (R201). One of less than a word merges into the word as the L1 holds it, or as the fill
brought it, a lost word's too (log 80); a poisoned one takes MCHECK. -/
def weakStore (t : Task) (va size : Nat) (v : Dword) : M Unit := do
  let s ← get
  let core := hereCore s
  let line := va / 32 * 32
  let ws := wordsOf va size
  let known (w : Nat) : Option Word :=
    (l1Get s core w).bind (fun x => if x.own != .clean || x.ctxs.contains t.ctx.toNat then some x.val else none)
  let granted := (coreAt s core).grants.contains (line, t.ctx.toNat)
  if granted && (decide (4 ≤ size) || ws.all (fun w => (known w).isSome)) then
    ws.forM (fun w => writeL1 t w (mergeWord va size w ((known w).getD 0) v))
  else
    let r := (t.pend.log.lookup (.fill line true)).getD { cause := 0, val := 0, data := [] }
    if r.cause ≠ 0#8 then trapM r.cause (BitVec.ofNat 64 va)
    else if granted && r.data.length == 8 then do
      guardM (ws.all (fun w => (known w).isSome || !(fillWord r line w).getLsbD 33)) causeMcheck (BitVec.ofNat 64 va)
      ws.forM (fun w => writeL1 t w (mergeWord va size w ((known w).getD ((fillWord r line w).setWidth 32)) v))
    else throw (.wait (.fill line true) (some (homeFor s va,
      .fill line t.ctx.toNat t.priv true (linePresent s core t.ctx.toNat va size) false)))

/-- No registration by the task, or of a value that the core's slots can read already, is in flight of a word that a strong
access of the task meets (R84, R205). -/
def ownSettled (s : State) (t : Task) (va size : Nat) : Bool :=
  !(t.outs.any (fun o => o.kind == 0 && (wordsOf va size).contains o.va)) &&
    (wordsOf va size).all (fun w => (l1Get s (hereCore s) w).map (·.own) != some .inFlight)

/-- The doubleword of memory an address lies in, whatever window names it. -/
def sameDword (s : State) (a b : Nat) : Bool :=
  match placeOf s (hereTile s) (a / 8 * 8), placeOf s (hereTile s) (b / 8 * 8) with
  | .global, .global => a / 8 == b / 8
  | p, q => p == q

/-- A posted atomic (`kind` 2) or a weak store to another tile's placed memory (1) of the task, not acknowledged yet, meets the
access, which waits for it: a task never reads a value earlier than its own last write (R84, R205, R215). -/
def ownOut (s : State) (t : Task) (kind va size : Nat) : Bool :=
  t.outs.any (fun o => o.kind == kind && (wordsOf va size).any (fun w => sameDword s w o.va))

def unpostedM (t : Task) (va size : Nat) : M Unit := do
  let s ← get
  awaitM (!ownOut s t 2 va size) .earlier

/-- The task's weak stores to the words are performed: for an access that does not travel the way they do (R215). -/
def unstoredM (t : Task) (va size : Nat) : M Unit := do
  let s ← get
  awaitM (ownSettled s t va size && !ownOut s t 1 va size) .earlier

/-- A read of placed memory consumes a value that an uncorrectable error has spoilt (R338). -/
def checkSpoilt (key size : Nat) (ea : Dword) : M Unit := do
  guardM (!spoiltAt (← get) key size) causeMcheck ea

/-! ### LD and ST (R82, R83) -/

/-- Mem.Read: kind 0 weak, 1 strong, 2 acquire. -/
def memRead (t : Task) (ea : Dword) (size kind : Nat) : M Dword := do
  let s ← get
  let va := ea.toNat
  unresizedM va
  let place := placeOf s (hereTile s) va
  if place = .hole then trapM causeXlate ea
  if kind ≠ 0 then publishedM
  unpostedM t va size
  let v ←
    match place with
    | .hole => trapM causeXlate ea
    | .placed vault tile off =>
      if tile = hereTile s then do
        checkPlaced t.ctx vault tile off ea
        checkSpoilt (placeKey vault tile off) size ea
        pure (BitVec.ofNat 64 (storeGet s (placeKey vault tile off) size))
      else do
        let r ← ask (.placedLoad va size 0) (homeCore tile) (.placed vault tile off size t.ctx.toNat false false 0 0 16#5)
        if r.cause = 0#8 then pure r.val else trapM r.cause ea
    | .global =>
      if kind = 0 then weakLoad t va size
      else do
        awaitM (ownSettled s t va size) .earlier
        let r ← ask (.strongLoad va size) (homeFor s va) (.strong va size t.ctx.toNat t.priv false 0)
        if r.cause = 0#8 then pure r.val else trapM r.cause ea
  if kind = 2 then acquireM
  pure v

/-- Mem.Write: kind 0 weak, 1 strong, 3 release. A store to placed memory is performed whole (log 81). -/
def memWrite (t : Task) (ea : Dword) (size kind : Nat) (v : Dword) : M Unit := do
  let s ← get
  let va := ea.toNat
  unresizedM va
  let place := placeOf s (hereTile s) va
  if place = .hole then trapM causeXlate ea
  match place with
  | .placed vault tile off => if tile = hereTile s || kind = 0 then checkPlaced t.ctx vault tile off ea
  | _ => pure ()
  if kind = 3 then releaseM
  else if kind ≠ 0 then publishedM
  unpostedM t va size
  match place with
  | .hole => trapM causeXlate ea
  | .placed vault tile off =>
    let v := v.toNat % 2 ^ (8 * size)
    if tile = hereTile s then set (storePut s (placeKey vault tile off) size v)
    else if kind = 0 then
      let id := s.nextId
      let s := post s s.here (homeCore tile) t.launch
        (.placed vault tile off size t.ctx.toNat true true 0 (BitVec.ofNat 64 v) t.tag)
      set (modTask s s.here (addOut id va 1))
    else do
      let r ← ask (.placedStore va size 0 (BitVec.ofNat 64 v)) (homeCore tile)
        (.placed vault tile off size t.ctx.toNat true false 0 (BitVec.ofNat 64 v) t.tag)
      if r.cause = 0#8 then pure () else trapM r.cause ea
  | .global =>
    if kind = 0 then weakStore t va size v
    else do
      awaitM (ownSettled s t va size) .earlier
      let r ← ask (.strongStore va size v) (homeFor s va) (.strong va size t.ctx.toNat t.priv true v)
      if r.cause = 0#8 then pure () else trapM r.cause ea

/-! ### Atomics (R217 to R224) -/

/-- The operations of Table 2 of R220 on an operand of `w` bits; the floating ones on words. -/
def amoNew (op w : Nat) (old b : Dword) : Dword :=
  let x := BitVec.ofNat w old.toNat
  let y := BitVec.ofNat w b.toNat
  let r : BitVec w :=
    match op with
    | 0 => x + y
    | 1 => x &&& y
    | 2 => x ||| y
    | 3 => x ^^^ y
    | 4 => if y.slt x then y else x
    | 5 => if x.slt y then y else x
    | 6 => if y.ult x then y else x
    | 7 => if x.ult y then y else x
    | 8 => y
    | 9 => BitVec.ofNat w (roundF32 (numAdd (f32Val (x.setWidth 32)) (f32Val (y.setWidth 32)))).toNat
    | 10 => BitVec.ofNat w (exactPattern f32 (numMin (f32Val (x.setWidth 32)) (f32Val (y.setWidth 32))))
    | _ => BitVec.ofNat w (exactPattern f32 (numMax (f32Val (x.setWidth 32)) (f32Val (y.setWidth 32))))
  r.setWidth 64

/-- What an atomic writes over a value: always something, but for a CAS (16) whose comparison fails (R220, R223). -/
def atomicNew (op size : Nat) (b cmp old : Dword) : Option Dword :=
  if op = 16 then
    if old = BitVec.ofNat 64 (cmp.toNat % 2 ^ (8 * size)) then some (BitVec.ofNat 64 (b.toNat % 2 ^ (8 * size))) else none
  else some (amoNew op (8 * size) old b)

/-- An atomic on placed memory, whole (R218): the old value and the state after. A spoilt value is refused before. -/
def atomicPlaced (s : State) (key size op : Nat) (b cmp : Dword) : Dword × State :=
  let old : Dword := BitVec.ofNat 64 (storeGet s key size)
  match atomicNew op size b cmp old with
  | some v => (old, storePut s key size v.toNat)
  | none => (old, s)

/-- Waits for a credit (R110): one in the log, or one to be had. -/
def creditM (dst cls : Nat) : M Unit := do
  let t ← thisTask
  match t.pend.log.lookup (.credit dst cls) with
  | some _ => pure ()
  | none => waitM (.credit dst cls)

/-- Takes a credit for a message sent in this step, waiting for it when none is free. -/
def creditNowM (dst cls : Nat) : M Unit := do
  let t ← thisTask
  match t.pend.log.lookup (.credit dst cls) with
  | some _ => pure ()
  | none =>
    let s ← get
    if creditFree s dst (hereTile s) cls then set (lend s dst (hereTile s) cls) else waitM (.credit dst cls)

/-- The request has been sent, or answered, already. -/
def asked (t : Task) (w : Want) : Bool := t.pend.want == some w || (t.pend.log.lookup w).isSome

/-- The reply of a request that has been sent completes the access, whatever has become of its place since: it is no new access
(R184). Otherwise the access begins. -/
def answerM (t : Task) (w : Want) (ea : Dword) (begin_ : M Dword) : M Dword :=
  match t.pend.log.lookup w with
  | some r => if r.cause = 0#8 then pure r.val else trapM r.cause ea
  | none => if t.pend.want = some w then waitM w else begin_

/-- The core of the performing handler (R217). -/
def performing (home va : Nat) : Nat := coreKey home (va / 128 % 4)

/-- Where an atomic is performed: the place, for placed memory, and the home tile. -/
def atomicHome (s : State) (va : Nat) : Option (Option (Bool × Nat × Nat) × Nat) :=
  match placeOf s (hereTile s) va with
  | .hole => none
  | .placed vault tile off => some (some (vault, tile, off), tile)
  | .global => some (none, homeTile s (herePkg s) va)

/-- A non-posted atomic at an address that has been checked: the old value (R217 to R219, R224). -/
def atomicM (t : Task) (ea : Dword) (size op : Nat) (b cmp : Dword) : M Dword := answerM t (.atomic ea.toNat size op b cmp) ea do
  let s ← get
  let va := ea.toNat
  match atomicHome s va with
  | none => do
    unresizedM va
    trapM causeXlate ea
  | some (place, home) =>
    if t.inl.isSome && home == hereTile s && place.isSome then do
      checkPlaced t.ctx false home va ea
      checkSpoilt (lmKey home va) size ea
      let (old, s') := atomicPlaced s (lmKey home va) size op b cmp
      set s'
      pure old
    else do
      publishedM
      unstoredM t va size
      unpostedM t va size
      let dst := performing home va
      creditM dst (if op = 16 then 6 else 5)
      let r ← ask (.atomic va size op b cmp) dst (.atomic place va size t.ctx.toNat t.priv op b cmp false t.tag)
      if r.cause = 0#8 then pure r.val else trapM r.cause ea

/-- A posted atomic (R221): up to 16 unacknowledged for a slot. -/
def postedM (t : Task) (ea : Dword) (size op : Nat) (b : Dword) : M Unit := do
  let s ← get
  let va := ea.toNat
  match atomicHome s va with
  | none => do
    unresizedM va
    trapM causeXlate ea
  | some (place, home) =>
    if t.inl.isSome && home == hereTile s && place.isSome then do
      checkPlaced t.ctx false home va ea
      checkSpoilt (lmKey home va) size ea
      set (atomicPlaced s (lmKey home va) size op b 0).2
    else do
      publishedM
      unstoredM t va size
      awaitM (decide ((t.outs.filter (fun o => o.kind == 2)).length < 16)) .earlier
      creditNowM (performing home va) 5
      let s ← get
      let id := s.nextId
      let s := post s s.here (performing home va) t.launch
        (.atomic place va size t.ctx.toNat t.priv op b 0 true t.tag)
      set (modTask s s.here (addOut id va 2))

end Sys2Proof.Machine
end

