-- ==== Sys2Proof/Machine/Start.lean ====
section
/-!
DEFINITION. Sys2Proof/Machine/Start.lean: routine tables, start entries and the start of a task, records and their firing,
cancels, and the state of a phase line (spec/08_tasks_scheduling.md; R18, R107, R112 to R126).
-/

namespace Sys2Proof.Machine

/-! ### Routine tables (R107, Table 2a) -/

def routineOk (e : Dword) : Bool :=
  let bexp := (e.extractLsb' 48 5).toNat
  e.getLsbD 63 && e.extractLsb' 53 4 == 0#4 && e.extractLsb' 20 28 == 0#28 && e.extractLsb' 0 2 == 0#2 &&
    (decide (bexp = 0) || (decide (12 ≤ bexp) && decide (bexp ≤ 30)))
/-- The valid entry of a class in a context's table on a tile. -/
def routineEntry (s : State) (tile : Nat) (ctx : BitVec 11) (cls : Nat) : Option Dword :=
  match grantOf s tile ctx with
  | none => none
  | some (_, g) =>
    let e := lmDword s tile (grantRtab g + 8 * (cls - 31))
    if 32 ≤ cls ∧ cls ≤ 255 ∧ routineOk e then some e else none
/-- Budget of a BEXP field (R107, R125). -/
def budgetOf (bexp : Nat) : Nat := if 12 ≤ bexp ∧ bexp ≤ 30 then 2 ^ bexp else 2 ^ 20
/-- BEXP of the lowest class whose valid entry has this ENTRY, for a record's task (R125). -/
def recordBexp (s : State) (tile : Nat) (ctx : BitVec 11) (entry : Nat) : Nat :=
  (((List.range 224).findSome? (fun i =>
    (routineEntry s tile ctx (32 + i)).bind (fun e =>
      if (e.extractLsb' 0 20).toNat = entry then some (e.extractLsb' 48 5).toNat else none)))).getD 0

/-! ### Start entries -/

/-- An entry for a routine's task, from its table entry. -/
def entryOf (order : Nat) (ctx : BitVec 11) (launch : Word) (how cls : Nat) (e : Dword) (payload : List Dword)
    (sender : BitVec 23) (sslot : BitVec 3) (slaunch : Word) (tag : BitVec 5) (acquire : Bool)
    (credit : Option (Nat × Nat)) : Entry :=
  { order := order, ctx := ctx, launch := launch, how := how, cls := cls, pri := (e.extractLsb' 61 2).toNat,
    gcode := e.extractLsb' 59 2, fcode := e.extractLsb' 57 2, bexp := (e.extractLsb' 48 5).toNat,
    entry := (e.extractLsb' 0 20).toNat, record := 0, payload := payload, sender := sender, sslot := sslot,
    slaunch := slaunch, tag := tag, acquire := acquire, credit := credit }

/-- Queues an entry on a core; the launch's counter counts it already. -/
def enqueue (s : State) (core : Nat) (e : Entry) : State :=
  { modCore s core (fun c => { c with entries := c.entries ++ [{ e with order := s.nextId }] }) with nextId := s.nextId + 1 }

/-- Start entries of a context queued on a tile (R348). -/
def queuedOn (s : State) (tile : Nat) (ctx : BitVec 11) : Nat :=
  (s.cores.map (fun c => if coreTile c.1 = tile then (c.2.entries.filter (fun e => e.ctx == ctx)).length else 0)).sum +
    ((tileAt s tile).postq.filter (fun e => e.ctx == ctx)).length
/-- Tasks of a context resident on a tile. -/
def residentOn (s : State) (tile : Nat) (ctx : BitVec 11) : Nat :=
  (s.tasks.filter (fun t => slotTile t.1 == tile && t.2.ctx == ctx && t.2.inl.isNone)).length
/-- A context's messages are accepted on a tile: it holds a valid grant there whose save has not begun (R346, R348). -/
def accepts (s : State) (tile : Nat) (ctx : BitVec 11) : Bool :=
  match grantOf s tile ctx with
  | some (_, g) => !g.saving
  | none => false
/-- Entries of a core's spawn queue (R114). -/
def spawnQueued (s : State) (core : Nat) : Nat := ((coreAt s core).entries.filter (fun e => e.how == 2)).length

/-! ### Starting a task (R18, R107, R125, R126) -/

/-- Slots of a core (R103). -/
def slotsOf (core : Nat) : Nat := if 4 ≤ coreNum core ∧ coreNum core ≤ 6 then 4 else 8
/-- An ended task comes back to the slot that its TEND has freed: a store that its release waited for has been refused (R216,
R221). -/
def returning (s : State) (k : Nat) : Bool :=
  s.ending.any (fun e => e.slot == k && e.task.any (fun t => t.refused.isSome || !t.lost.isEmpty))
/-- The lowest free slot of a core. -/
def freeSlotOf (s : State) (core : Nat) : Option Nat :=
  (List.range (slotsOf core)).find? (fun n => (taskAt s (slotKey core n)).isNone && !returning s (slotKey core n))

/-- LM offset of a slot's message area (R107). -/
def msgArea (g : Grant) (core slot : Nat) : Nat :=
  grantRtab g + 3072 + 64 * ((if coreNum core < 8 then 8 * coreNum core else 56 + 8 * (coreNum core - 8)) + slot)

/-- A task context at its start (R9, R11, R14, R15, R18, R335). -/
def freshTask (uid : Nat) (ctx : BitVec 11) (priv : BitVec 2) (tvec : Dword) (launch : Word) (entry : Nat)
    (gcount fcount : Nat) (sbase g3 cbase : Dword) (args : List Dword) (budget : Nat) (taskid : Word) (tag : BitVec 5) :
    Task :=
  let g0 : Vector Dword 32 := Vector.replicate 32 0
  let g1 := ((g0.set 2 sbase).set 3 g3).set 31 cbase
  { uid := uid, ctx := ctx, priv := priv, launch := launch,
    g := (List.range 6).foldl (fun g i => g.setIfInBounds (4 + i) (args.getD i 0)) g1,
    f := Vector.replicate 32 0, p := 1#8, pc := BitVec.ofNat 48 entry, pcOver := 0, gcount := gcount, fcount := fcount,
    tlev := 0, tvec := tvec, tcause1 := 0, tcause2 := 0, tepc1 := 0, tepc2 := 0, tval1 := 0, tval2 := 0,
    tsave1 := 0, tsave2 := 0, tctl := 0, sbase := sbase, slim := sbase - 2048#64, fnsel := 0x10387#17,
    lstart := 0, lend := 0, lcount := 0, budget := budget, granted := budget, budgetDue := false, grace := none,
    taskid := taskid, tag := tag, sender := 0, sslot := 0, slaunch := 0, how := 0, cls := 0, fetch := none,
    fbDest := [], fbFrame := 0, cvstat := 0, drsel := 0, rtab := 0, tms := [], binds := [], outs := [], lost := [],
    refused := none, pubs := [], spoilt := [], pend := .idle, inl := none }

/-- Writes doublewords to LM from an offset on. -/
def lmPutAll (s : State) (tile off : Nat) : List Dword → State
  | [] => s
  | d :: r => lmPutAll (lmPut s tile off 8 d.toNat) tile (off + 8) r

/-- Makes an entry's task resident in a slot: the start of R125. It begins at ENTRY, odd or not (log 95), and what its message area
holds past the payload is 0 (log 96). -/
def startEntry (s : State) (core slot : Nat) (e : Entry) : State :=
  let tile := coreTile core
  match grantOf s tile e.ctx with
  | none => s
  | some (_, g) =>
    let area := msgArea g core slot
    let fromRecord := e.how == 3
    let args :=
      if fromRecord then (List.range 6).map (fun i => lmDword s tile (e.record + 16 + 8 * i))
      else if e.how = 0 then [e.payload.getD 3 0]
      else if e.how = 2 then (e.payload.drop 1).take 6
      else if e.how = 4 then e.payload
      else e.payload.take 6
    let launch := if fromRecord then BitVec.ofNat 32 (lmGet s tile (e.record + 8) 4) else e.launch
    let s := if launch = e.launch then s else launchUp (launchDown s e.ctx e.launch) e.ctx launch
    let budget := budgetOf (if fromRecord then recordBexp s tile e.ctx e.entry else e.bexp)
    let n := ((tget (coreAt s core).starts slot).getD 0 + 1) % 2 ^ 16
    let s := modCore s core (fun c => { c with starts := tput c.starts slot n })
    let taskid := BitVec.ofNat 32 (n * 2 ^ 16 + (fabricAddr core).toNat % 2 ^ 13 * 8 + slot)
    let t := freshTask s.nextId e.ctx (ctxPriv s e.ctx.toNat) (((ctxAt s e.ctx.toNat).map (·.tvec)).getD 0) launch e.entry
      (8 * (e.gcode.toNat + 1)) (8 * (e.fcode.toNat + 1)) (stackTop g (coreNum core) slot)
      (BitVec.ofNat 64 (if fromRecord then e.record else area)) (grantCbase g) args budget taskid e.tag
    let t := { t with
      sender := e.sender, sslot := e.sslot, slaunch := e.slaunch, how := e.how, cls := e.cls
      rtab := BitVec.ofNat 20 (grantRtab g) }
    let s := { putTask s (slotKey core slot) t with nextId := s.nextId + 1 }
    let s := if fromRecord then s else lmPutAll s tile area ((e.payload ++ List.replicate 8 0).take 8)
    let s := modLaunch s e.ctx launch (fun l => { l with core := l.core.orElse (fun _ => some core) })
    let s := match e.credit with
      | some (from_, cls) => returnCredit s core from_ cls
      | none => s
    if e.acquire then acquireCore s core else s

/-- A context may start tasks on a tile: it holds a valid grant there with no pre-emption request, and is not dead (R125
step 1, R343, R347, R348). -/
def mayStart (s : State) (tile : Nat) (ctx : BitVec 11) : Bool :=
  match grantOf s tile ctx with
  | some (_, g) => !grantPre g && !g.leaving && ctxLive s ctx.toNat
  | none => false
/-- The context is not in deficit on a tile (R124). -/
def eligible (s : State) (tile : Nat) (ctx : BitVec 11) : Bool :=
  match grantOf s tile ctx with
  | some (_, g) => decide (0 ≤ g.deficit)
  | none => false

/-- The post run queue serves the lowest-numbered post core with a free slot (R359). -/
def postTurn (s : State) (core : Nat) : Bool :=
  decide (8 ≤ coreNum core) &&
    (List.range (coreNum core - 8)).all (fun i => (freeSlotOf s (coreKey (coreTile core) (8 + i))).isNone)

/-- Entries a core could start now. -/
def candidates (s : State) (core : Nat) : List Entry :=
  let all := (coreAt s core).entries ++ (if postTurn s core then (tileAt s (coreTile core)).postq else [])
  all.filter (fun e => mayStart s (coreTile core) e.ctx)

/-- The better of two entries: the higher priority, then the older (R125 step 3). -/
def better (a b : Entry) : Entry :=
  if a.pri > b.pri then a else if b.pri > a.pri then b else if a.order ≤ b.order then a else b
/-- The best of a list. -/
def best : List Entry → Option Entry
  | [] => none
  | e :: r => match best r with
    | none => some e
    | some x => some (better e x)

/-- The entry that starts next (R125): among contexts not in deficit, or, when none of those has one, among all. -/
def pickEntry (s : State) (core : Nat) : Option Entry :=
  match best ((candidates s core).filter (fun e => eligible s (coreTile core) e.ctx)) with
  | some e => some e
  | none => best (candidates s core)

/-- Takes an entry out of the queues of a core. -/
def takeEntry (s : State) (core : Nat) (e : Entry) : State :=
  let s := modCore s core (fun c => { c with entries := c.entries.filter (fun x => x.order != e.order) })
  modTile s (coreTile core) (fun t => { t with postq := t.postq.filter (fun x => x.order != e.order) })

/-! ### Cancels (R118) -/

/-- Work of a context, launch and tag belongs to the level: launch 0, graph 1, phase 2, job 3. -/
def ofLevel (level ident : Nat) (launch : Word) (tag : BitVec 5) : Bool :=
  match level with
  | 0 => launch.toNat == ident
  | 1 => launch.toNat / 2 ^ 16 == ident
  | 2 => !tag.getLsbD 4 && tag.toNat == ident
  | _ => true
/-- A cancel mark of the tile covers the work. -/
def cancelled (s : State) (tile : Nat) (ctx : BitVec 11) (launch : Word) (tag : BitVec 5) : Bool :=
  (tileAt s tile).cancels.any (fun c => c.2.1 == ctx.toNat && ofLevel c.1 c.2.2 launch tag)

/-- A phase is in progress on a tile (R118). -/
def phaseLive (p : Phase) : Bool := p.decl || p.remain != 0

/-- Discards one queued entry: the launch's counter, the credit and the status of a phase in progress follow (R118). -/
def discardEntry (s : State) (core : Nat) (e : Entry) : State :=
  let s := launchDown s e.ctx e.launch
  let s := match e.credit with
    | some (from_, cls) => returnCredit s core from_ cls
    | none => s
  if phaseLive (phaseAt (tileAt s (coreTile core)) e.tag.toNat) then phaseMark s (coreTile core) e.tag 4#4 else s

/-- The next start of a core, when a slot is free (R125). A record's task of a level that is cancelled is not created (R118). -/
def startNext (s : State) (core : Nat) : State :=
  match freeSlotOf s core, pickEntry s core with
  | some slot, some e =>
    let launch := if e.how = 3 then BitVec.ofNat 32 (lmGet s (coreTile core) (e.record + 8) 4) else e.launch
    if cancelled s (coreTile core) e.ctx launch e.tag then discardEntry (takeEntry s core e) core e
    else startEntry (takeEntry s core e) core slot e
  | _, _ => s

/-- Applies a cancel on one tile (R118, R144). The mark of a launch lasts until the launch completes, those of a graph and of a
job until CTXSET creates or revives the context (log 82). Records of a context that is away lie in banks it does not hold: they
are spent at its restore (R346). -/
def applyCancel (s : State) (tile level ctx ident : Nat) : State :=
  let c11 : BitVec 11 := BitVec.ofNat 11 ctx
  let hits (e : Entry) : Bool := e.ctx == c11 && ofLevel level ident e.launch e.tag
  let inProgress := phaseLive (phaseAt (tileAt s tile) ident)
  let s := if level = 2 then
      (if inProgress then
        modPhase (modTile s tile (fun t => { t with cancels := (2, ctx, ident) :: t.cancels })) tile ident
          (fun p => { p with cancelled := true, status := p.status ||| 4#4 })
      else s)
    else modTile s tile (fun t => { t with cancels := (level, ctx, ident) :: t.cancels })
  let s := s.cores.foldl (fun s c =>
    if coreTile c.1 = tile then
      let s := (c.2.entries.filter hits).foldl (fun s e => discardEntry s c.1 e) s
      modCore s c.1 (fun x => { x with entries := x.entries.filter (fun e => !hits e) })
    else s) s
  let s := ((tileAt s tile).postq.filter hits).foldl (fun s e => discardEntry s (coreKey tile 8) e) s
  let s := modTile s tile (fun t => { t with postq := t.postq.filter (fun e => !hits e) })
  let s := (tileAt s tile).records.foldl (fun s r =>
    if r.2.1 = c11 ∧ bankHeld s tile c11 r.1 ∧ ofLevel level ident (BitVec.ofNat 32 (lmGet s tile (r.1 + 8) 4)) r.2.2.1 then
      spendRecord s tile r.1
    else s) s
  if level = 2 then s
  else
    { s with launches := s.launches.map (fun l =>
        if l.1 / 2 ^ 32 = ctx ∧ ofLevel level ident (BitVec.ofNat 32 l.1) 16#5 then (l.1, { l.2 with cancelled := true })
        else l) }

/-- Tiles on which a context holds a grant, a task, an entry, a record or saved state. -/
def workTiles (s : State) (ctx : BitVec 11) : List Nat :=
  let byTile := (s.tiles.filter (fun t =>
    t.2.grants.toList.any (fun g => grantValid g && grantCtx g == ctx) || t.2.records.any (fun r => r.2.1 == ctx) ||
      t.2.postq.any (fun e => e.ctx == ctx) || t.2.away.contains ctx)).map (·.1)
  let byCore := (s.cores.filter (fun c => c.2.entries.any (fun e => e.ctx == ctx))).map (fun c => coreTile c.1)
  let byTask := (s.tasks.filter (fun t => t.2.ctx == ctx)).map (fun t => slotTile t.1)
  (byTile ++ byCore ++ byTask).eraseDups

/-! ### Records (R112, R113, R133) -/

/-- A record name of Table 3 other than 0. -/
def nameOk (n : Dword) : Bool :=
  n.extractLsb' 40 24 == 0#24 && n.extractLsb' 0 20 != 0#20 && n.extractLsb' 0 6 == 0#6
def nameTile (n : Dword) : Nat := tileKey (n.extractLsb' 30 10).toNat (n.extractLsb' 20 10).toNat
def nameOff (n : Dword) : Nat := (n.extractLsb' 0 20).toNat
/-- Core 0 of a record's tile, to which its DECs go. -/
def nameCore (n : Dword) : Nat := coreKey (nameTile n) 0

/-- A DEC that the device makes itself (R113), with release when `rel`. -/
def deviceDec (s : State) (tile : Nat) (name : Dword) (ctx : BitVec 11) (tag : BitVec 5) (rel : Bool) : State :=
  if name = 0#64 ∨ !nameOk name then s
  else post s (niKey tile) (nameCore name) 0 (.own (mkHeader 3 ctx tag 0 rel (fabricAddr (nameCore name)).toNat) [name])

/-- The hidden data of a record: its context, tag and acquire; those of the DEC where none is kept. -/
def recordData (s : State) (tile off : Nat) (ctx : BitVec 11) : BitVec 11 × BitVec 5 × Bool :=
  (tget (tileAt s tile).records off).getD (ctx, 16#5, false)

/-- RECORD_FIRING (R113): a start entry for the record is linked onto its home core's run queue, unless the record's level is
cancelled on the tile (R118). -/
def fireRecord (s : State) (tile off : Nat) (d : BitVec 11 × BitVec 5 × Bool) : State :=
  let w := lmDword s tile off
  let launch : Word := BitVec.ofNat 32 (lmGet s tile (off + 8) 4)
  let e : Entry :=
    { order := s.nextId, ctx := d.1, launch := launch, how := 3, cls := 0, pri := (w.extractLsb' 28 2).toNat,
      gcode := w.extractLsb' 24 2, fcode := w.extractLsb' 26 2, bexp := 0, entry := (w.extractLsb' 0 20).toNat,
      record := off, payload := [], sender := 0, sslot := 0, slaunch := 0, tag := d.2.1, acquire := d.2.2, credit := none }
  if cancelled s tile d.1 launch d.2.1 then phaseMark s tile d.2.1 4#4
  else
  let s := launchUp { s with nextId := s.nextId + 1 } d.1 launch
  let h := (w.extractLsb' 21 3).toNat
  if h = 7 then modTile s tile (fun t => { t with postq := t.postq ++ [e] })
  else modCore s (coreKey tile h) (fun c => { c with entries := c.entries ++ [e] })

/-- An arrival at a record that is armed: COUNT falls, and at 0 the record fires and is re-armed (R113). -/
def decRecord (s : State) (tile off : Nat) (ctx : BitVec 11) (rel : Bool) : State :=
  let d := recordData s tile off ctx
  let d := (d.1, d.2.1, d.2.2 || rel)
  let count := lmGet s tile (off + 4) 4 - 1
  if count = 0 then
    let s := fireRecord s tile off d
    let s := lmPut s tile (off + 4) 4 (lmGet s tile (off + 12) 4)
    modTile s tile (fun t => { t with records := tput t.records off (d.1, d.2.1, false) })
  else
    modTile (lmPut s tile (off + 4) 4 count) tile (fun t => { t with records := tput t.records off d })

/-! ### Phase lines (R121) -/

/-- Something tagged n that a tile has sent is not yet acknowledged: a registration, or a store to another tile, weak or strong. -/
def taggedInFlight (s : State) (tile n : Nat) : Bool :=
  s.net.any (fun p => slotTile p.src == tile &&
    match p.body with
    | .reg _ _ _ _ tag => tag.toNat == n
    | .placed _ _ _ _ _ true _ _ _ tag => tag.toNat == n
    | _ => false)
/-- Work tagged n is resident, queued or in a ring on a tile. -/
def taggedWork (s : State) (tile n : Nat) : Bool :=
  s.tasks.any (fun t => slotTile t.1 == tile && t.2.tag.toNat == n && t.2.inl.isNone) ||
    s.cores.any (fun c => coreTile c.1 == tile &&
      (c.2.entries.any (fun e => e.tag.toNat == n) || c.2.ring.any (fun x => x.tag.toNat == n && !cmdDone x))) ||
    (tileAt s tile).postq.any (fun e => e.tag.toNat == n)
/-- The tile drives line n high (R121); a declared slot of a context with no valid grant drives it low (R348), and so does
the context of a gang that is late in the package (R371). -/
def lineHigh (s : State) (tile n : Nat) : Bool :=
  let p := phaseAt (tileAt s tile) n
  if p.decl then
    decide (p.remain = 0) && !taggedInFlight s tile n && !taggedWork s tile n && (grantOf s tile p.ctx).isSome &&
      !((pkgAt s (tilePkg tile)).gangs.any (fun g => g.2.ctx == p.ctx.toNat && g.2.state == 2))
  else true

end Sys2Proof.Machine
end

