-- ==== Sys2Proof/Machine/Sync.lean ====
section
/-!
DEFINITION. Sys2Proof/Machine/Sync.lean: atomics, full bits, fences and range operations, majors 0x17 to 0x1A and 0x1E
(spec/13_memory_instructions.md).
-/

namespace Sys2Proof.Machine

/-! ### AMO and CAS -/

/-- Effect of AMO (R217, R220, R221): `wide` a doubleword, `posted` the posted form. -/
def amoEffect (op : Nat) (posted wide : BitVec 1) (b a d : BitVec 5) : Task → M Flow := fun t => do
  let size := if wide = 1#1 then 8 else 4
  let ea := gGet t a
  checkAddr t a ea size
  if posted = 1#1 then postedM t ea size op (gGet t b)
  else do
    let v ← atomicM t ea size op (gGet t b) 0
    modThis (fun u => gSet u d v)
  pure .seq

/-- AMO.ADD (R220). -/
def execAmoAdd (p sz : BitVec 1) (b a d : BitVec 5) (g : BitVec 4) (s : State) : Result :=
  scalar (.amoAdd p sz b a d g) g s (amoEffect 0 p sz b a d)

/-- AMO.AND (R220). -/
def execAmoAnd (p sz : BitVec 1) (b a d : BitVec 5) (g : BitVec 4) (s : State) : Result :=
  scalar (.amoAnd p sz b a d g) g s (amoEffect 1 p sz b a d)

/-- AMO.OR (R220). -/
def execAmoOr (p sz : BitVec 1) (b a d : BitVec 5) (g : BitVec 4) (s : State) : Result :=
  scalar (.amoOr p sz b a d g) g s (amoEffect 2 p sz b a d)

/-- AMO.XOR (R220). -/
def execAmoXor (p sz : BitVec 1) (b a d : BitVec 5) (g : BitVec 4) (s : State) : Result :=
  scalar (.amoXor p sz b a d g) g s (amoEffect 3 p sz b a d)

/-- AMO.MIN (R220). -/
def execAmoMin (p sz : BitVec 1) (b a d : BitVec 5) (g : BitVec 4) (s : State) : Result :=
  scalar (.amoMin p sz b a d g) g s (amoEffect 4 p sz b a d)

/-- AMO.MAX (R220). -/
def execAmoMax (p sz : BitVec 1) (b a d : BitVec 5) (g : BitVec 4) (s : State) : Result :=
  scalar (.amoMax p sz b a d g) g s (amoEffect 5 p sz b a d)

/-- AMO.MINN (R220). -/
def execAmoMinn (p sz : BitVec 1) (b a d : BitVec 5) (g : BitVec 4) (s : State) : Result :=
  scalar (.amoMinn p sz b a d g) g s (amoEffect 6 p sz b a d)

/-- AMO.MAXN (R220). -/
def execAmoMaxn (p sz : BitVec 1) (b a d : BitVec 5) (g : BitVec 4) (s : State) : Result :=
  scalar (.amoMaxn p sz b a d g) g s (amoEffect 7 p sz b a d)

/-- AMO.XCHG (R220). -/
def execAmoXchg (p sz : BitVec 1) (b a d : BitVec 5) (g : BitVec 4) (s : State) : Result :=
  scalar (.amoXchg p sz b a d g) g s (amoEffect 8 p sz b a d)

/-- AMO.FADD (R220). -/
def execAmoFadd (p : BitVec 1) (b a d : BitVec 5) (g : BitVec 4) (s : State) : Result :=
  scalar (.amoFadd p b a d g) g s (amoEffect 9 p 0#1 b a d)

/-- AMO.FMIN (R220). -/
def execAmoFmin (p : BitVec 1) (b a d : BitVec 5) (g : BitVec 4) (s : State) : Result :=
  scalar (.amoFmin p b a d g) g s (amoEffect 10 p 0#1 b a d)

/-- AMO.FMAX (R220). -/
def execAmoFmax (p : BitVec 1) (b a d : BitVec 5) (g : BitVec 4) (s : State) : Result :=
  scalar (.amoFmax p b a d g) g s (amoEffect 11 p 0#1 b a d)

/-- CAS (R223): gd holds the expected value and receives the old one. -/
def execCas (sz : BitVec 1) (b a d : BitVec 5) (g : BitVec 4) (s : State) : Result :=
  scalar (.cas sz b a d g) g s (fun t => do
    let size := if sz = 1#1 then 8 else 4
    let ea := gGet t a
    checkAddr t a ea size
    let v ← atomicM t ea size 16 (gGet t b) (gGet t d)
    modThis (fun u => gSet u d v)
    pure .seq)

/-! ### LDF (R226, R227) -/

/-- Every word of an access is full. -/
def allFull (s : State) (key size : Nat) : Bool := (wordsOf key size).all (fullGet s)
/-- A waiting LDF of the tile's list meets a word of the access. -/
def ldfAhead (s : State) (tile key size : Nat) : Bool :=
  (tileAt s tile).ldfs.any (fun l => (wordsOf l.key l.size).any (fun w => (wordsOf key size).contains w))
/-- What an LDF that is served reads and leaves: the value, with the full bits cleared when it empties. -/
def takeFull (s : State) (key size : Nat) (take : Bool) : Dword × State :=
  (BitVec.ofNat 64 (storeGet s key size),
   if take then (wordsOf key size).foldl (fun s w => fullClear s w) s else s)

/-- Effect of LDF: the words full, on this tile at once, elsewhere by a request to the home tile; then an acquire. -/
def ldfEffect (o : BitVec 5) (sz : BitVec 1) (a d : BitVec 5) (take : Bool) : Task → M Flow := fun t => do
  let size := if sz = 1#1 then 8 else 4
  let ea := effAddr t a o (if sz = 1#1 then 3 else 2)
  checkAddr t a ea size
  let v ← answerM t (.ldf ea.toNat size take) ea (ldfBegin t ea size take)
  acquireM
  modThis (fun u => gSet u d v)
  pure .seq
where
  /-- The access begins: served at once, or asked of the home tile. -/
  ldfBegin (t : Task) (ea : Dword) (size : Nat) (take : Bool) : M Dword := do
    unresizedM ea.toNat
    let s ← get
    match placeOf s (hereTile s) ea.toNat with
    | .hole => trapM causeXlate ea
    | .global => trapM causeProt ea
    | .placed vault tile off =>
      publishedM
      unstoredM t ea.toNat size
      unpostedM t ea.toNat size
      let key := placeKey vault tile off
      if tile = hereTile s then checkPlaced t.ctx vault tile off ea
      if tile = hereTile s && allFull s key size && !ldfAhead s tile key size then
        checkSpoilt key size ea
        let (v, s') := takeFull s key size take
        set s'
        pure v
      else do
        let r ← ask (.ldf ea.toNat size take) (homeCore tile) (.ldf vault tile off size t.ctx.toNat take)
        if r.cause = 0#8 then pure r.val else trapM r.cause ea

/-- LDF, keeping the words full. -/
def execLdf (o : BitVec 5) (p : BitVec 2) (sz : BitVec 1) (a d : BitVec 5) (g : BitVec 4) (s : State) : Result :=
  scalar (.ldf o p sz a d g) g s (ldfEffect o sz a d false)

/-- LDF.E, emptying the words. -/
def execLdfE (o : BitVec 5) (p : BitVec 2) (sz : BitVec 1) (a d : BitVec 5) (g : BitVec 4) (s : State) : Result :=
  scalar (.ldfE o p sz a d g) g s (ldfEffect o sz a d true)

/-! ### FEOP (R228) -/

/-- The place of a full-bit operation, after its checks. -/
def feopPlace (t : Task) (a : BitVec 5) : M (Bool × Nat × Nat) := do
  let ea := gGet t a
  guardM (ea.toNat % 4 == 0) causeMisalign ea
  unresizedM ea.toNat
  let s ← get
  match placeOf s (hereTile s) ea.toNat with
  | .hole => trapM causeXlate ea
  | .global => trapM causeProt ea
  | .placed vault tile off => do
    if tile = hereTile s then checkPlaced t.ctx vault tile off ea
    pure (vault, tile, off)

/-- SETF and SETE: 1 sets the full bit, 2 clears it. -/
def feopWrite (a : BitVec 5) (op : Nat) : Task → M Flow := fun t => do
  let ea := gGet t a
  let (vault, tile, off) ← feopPlace t a
  if op = 1 then releaseM else publishedM
  let s ← get
  if tile = hereTile s then
    let key := placeKey vault tile off
    set (if op = 1 then fullSet s key else fullClear s key)
  else do
    let r ← ask (.placedStore ea.toNat 4 op 0) (homeCore tile) (.placed vault tile off 4 t.ctx.toNat true false op 0 t.tag)
    unless r.cause = 0#8 do trapM r.cause ea
  pure .seq

/-- SETF: releases, then sets the full bit. -/
def execSetf (a : BitVec 5) (g : BitVec 4) (s : State) : Result := scalar (.setf a g) g s (feopWrite a 1)

/-- SETE: clears the full bit. -/
def execSete (a : BitVec 5) (g : BitVec 4) (s : State) : Result := scalar (.sete a g) g s (feopWrite a 2)

/-- TESTF: G(d) := 1 if the word is full. -/
def execTestf (a d : BitVec 5) (g : BitVec 4) (s : State) : Result :=
  scalar (.testf a d g) g s (fun t => do
    let ea := gGet t a
    let (vault, tile, off) ← feopPlace t a
    publishedM
    let s ← get
    if tile = hereTile s then
      modThis (fun u => gSet u d (if fullGet s (placeKey vault tile off) then 1 else 0))
    else do
      let r ← ask (.placedLoad ea.toNat 4 1) (homeCore tile) (.placed vault tile off 4 t.ctx.toNat false false 1 0 16#5)
      if r.cause = 0#8 then modThis (fun u => gSet u d r.val) else trapM r.cause ea
    pure .seq)

/-! ### MEMCTL (R229 to R233) -/

/-- FENCE.A: an acquire (R230). -/
def execFenceA (sc : BitVec 2) (g : BitVec 4) (s : State) : Result :=
  scalar (.fenceA sc g) g s (fun _ => do acquireM; pure .seq)

/-- FENCE.L: a release (R230). -/
def execFenceL (sc : BitVec 2) (g : BitVec 4) (s : State) : Result :=
  scalar (.fenceL sc g) g s (fun _ => do releaseM; pure .seq)

/-- FENCE.AL: the release, then the acquire (R230). -/
def execFenceAl (sc : BitVec 2) (g : BitVec 4) (s : State) : Result :=
  scalar (.fenceAl sc g) g s (fun _ => do releaseM; acquireM; pure .seq)

/-- The checks of a range: its length, then its end (R231). -/
def checkRange (base len : Dword) : M Unit := do
  guardM (decide (len.toNat ≤ 0x100000)) causeProt len
  guardM (decide (base.toNat + len.toNat ≤ 2 ^ 48)) causeProt base

/-- A word meets the byte range. -/
def meetsRange (base len : Dword) (w : Nat) : Bool :=
  decide (len.toNat ≠ 0) && decide (w < base.toNat + len.toNat) && decide (base.toNat < w + 4)

/-- INVR: the acquire confined to a range; CLB entries marked unallocated go too (R210, R231, R240). -/
def execInvr (b a : BitVec 5) (g : BitVec 4) (s : State) : Result :=
  scalar (.invr b a g) g s (fun t => do
    checkRange (gGet t a) (gGet t b)
    let s ← get
    set (modCore s (hereCore s) (fun c =>
      dropUnallocated (dropWords c (keepsWord s (hereCore s)) (meetsRange (gGet t a) (gGet t b)))))
    pure .seq)

/-- A publication point over a range: it waits for the weak stores of global memory in it and for posted atomics (R231); what
has been refused of them already is to be reported at it (R216, R221). -/
def pointOf (t : Task) (base len : Dword) : Point :=
  { waits := (t.outs.filter (fun o => o.kind == 2 || (o.kind == 0 && meetsRange base len o.va))).map (·.id)
    lost := t.lost.filter (meetsRange base len)
    refused := t.refused.isSome }

/-- A fifth PUBR waits until the oldest of four points closes; what that point has been refused is its to report (R216, R221,
R231). -/
def oldestM (t : Task) : M Unit :=
  match t.pubs with
  | p :: _ =>
    if t.pubs.length < 4 then pure ()
    else if !p.closed then waitM .earlier
    else
      match (if p.refused then t.refused else none), p.lost with
      | some (c, v), _ => throw (.refusal c v)
      | none, va :: _ => trapM causeOwnerlost (BitVec.ofNat 64 va)
      | none, [] => pure ()
  | [] => pure ()

/-- PUBR: records a publication point; with four held, it waits until the oldest closes (R231). -/
def execPubr (b a : BitVec 5) (g : BitVec 4) (s : State) : Result :=
  scalar (.pubr b a g) g s (fun t => do
    checkRange (gGet t a) (gGet t b)
    let point := pointOf t (gGet t a) (gGet t b)
    if gGet t b = 0#64 then pure .seq
    else do
      oldestM t
      unless point.over do modThis (fun u => { u with pubs := u.pubs ++ [point] })
      pure .seq)

/-- ISYNC: waits for the task's own commands, then empties the fetch buffer (R147). Stores to the tile's own LM are
performed when they execute (R83). -/
def execIsync (g : BitVec 4) (s : State) : Result :=
  scalar (.isync g) g s (fun t => do
    awaitM (!commandsOf (← get) t.uid) .earlier
    modThis (fun u => { u with fetch := none })
    pure .seq)

/-- PREF: a weak fill of the row line that holds G(a), for which nothing waits (R232). -/
def execPref (a : BitVec 5) (g : BitVec 4) (s : State) : Result :=
  scalar (.pref a g) g s (fun t => do
    let s ← get
    let va := (gGet t a).toNat
    let line := va / 32 * 32
    let core := hereCore s
    let present := (List.range 8).all (fun i => (l1Hit s core t.ctx.toNat (line + 4 * i)).isSome)
    let under := (coreAt s core).fills.any (fun f => f.line == line && f.ctx == t.ctx.toNat && !f.stale)
    if placeOf s (hereTile s) va = .global && !present && !under then
      let id := s.nextId
      let s := post s s.here (homeFor s va) t.launch (.fill line t.ctx.toNat t.priv false false false)
      set (modCore s core (fun c =>
        { c with fills := c.fills ++ [{ id := id, line := line, ctx := t.ctx.toNat, grant := false, stale := false }] }))
    pure .seq)

/-- CLBINV: the volume's entries go, or all for handle 0 (R233); of a handle's those of the executing context (DEDUCED, log 104). -/
def execClbinv (a : BitVec 5) (g : BitVec 4) (s : State) : Result :=
  scalar (.clbinv a g) g s (fun t => do
    let s ← get
    let h := (gGet t a).toNat
    let stays (ctx handle : Nat) : Bool := !(decide (h = 0) || (ctx == t.ctx.toNat && handle == h))
    set (modCore s (hereCore s) (fun c =>
      { c with
        vols := c.vols.filter (fun v => stays v.ctx v.handle)
        clb := c.clb.filter (fun e => stays e.ctx e.handle) }))
    pure .seq)

end Sys2Proof.Machine
end

