-- ==== Sys2Proof/Machine/Coherence.lean ====
section
/-!
DEFINITION. Sys2Proof/Machine/Coherence.lean: what home slices, L1s and home tiles do with the requests that reach them
(R196, R201 to R204, R212 to R216, R227).
-/

namespace Sys2Proof.Machine

/-- A message of the device's own has a credit at its destination (R110): it takes one as it arrives, and is handled at once. -/
def ownCredit (s : State) (p : Packet) : Bool :=
  match p.body with
  | .own h _ => creditFree s p.dst (slotTile p.src) (hdrClass h)
  | _ => true

/-- The header and payload of a message, and whether the device made it. -/
def msgOf (b : Body) : Option (Dword × List Dword × Bool) :=
  match b with
  | .msg h pl => some (h, pl, false)
  | .own h pl => some (h, pl, true)
  | _ => none

/-- The message's credit returns (R110); a message of the device held none. -/
def creditBack (s : State) (p : Packet) (h : Dword) (dev : Bool) : State :=
  if dev then s else returnCredit s p.dst (slotTile p.src) (hdrClass h)

/-- The launch counter counts the message until its task is over (R116). -/
def counted (h : Dword) : Bool := hdrClass h == 4 || decide (32 ≤ hdrClass h)

/-- Takes a message off the network and hands its credit back. -/
def consume (s : State) (p : Packet) (h : Dword) (dev : Bool) : State := creditBack (dropPacket s p.id) p h dev

/-- The sender is a host, whose messages no launch counts before they arrive (R363). -/
def fromHost (s : State) (p : Packet) : Bool := !pkgPresent s (tilePkg (slotTile p.src))

/-- A discard: the message is gone, and a task that it counted for with it. -/
def discardMsg (s : State) (p : Packet) (h : Dword) (dev : Bool) : State :=
  let s := consume s p h dev
  if counted h && !fromHost s p then launchDown s (hdrCtx h) p.launch else s

/-- The sender's fabric address and slot (R105). -/
def senderOf (p : Packet) : BitVec 23 := fabricAddr (slotCore p.src)
def senderSlot (p : Packet) : BitVec 3 := BitVec.ofNat 3 (p.src % 16)

/-- A message that no route can carry any more is discarded and reported to its sender (R357, R380). An atomic and a cancel travel
as messages too, each on a credit; the slot that sent one gets no answer (log 92). -/
def loseRoute (s : State) (p : Packet) : State :=
  let tell (s : State) (ctx : BitVec 11) (h : Dword) : State :=
    report s (slotCore p.src) (senderOf p) ctx 12 causeMcheck 0 0 h p.launch (senderSlot p)
  let lost (cls : Nat) (ctx : BitVec 11) (tag : BitVec 5) : State :=
    tell (returnCredit (dropPacket s p.id) p.dst (slotTile p.src) cls) ctx
      (mkHeader cls ctx tag 0 false (fabricAddr p.dst).toNat)
  match p.body with
  | .atomic _ _ _ ctx _ op _ _ _ tag => lost (if op = 16 then 6 else 5) (BitVec.ofNat 11 ctx) tag
  | .cancel _ ctx _ => lost 2 (BitVec.ofNat 11 ctx) 16#5
  | b =>
    match msgOf b with
    | some (h, _, dev) => tell (discardMsg s p h dev) (hdrCtx h) h
    | none => s

/-- A discarded message that is counted as a malformed arrival and reported (R107, R145). -/
def malformed (s : State) (p : Packet) (h : Dword) (dev : Bool) (kind : Nat) (value : Dword) : State :=
  let s := discardMsg s p h dev
  let s := modCore s p.dst (fun c => { c with malformed := satInc c.malformed })
  report s p.dst (senderOf p) (hdrCtx h) kind causeIllegal 0 value h p.launch (senderSlot p)

/-- A message to a tile whose group has failed is malformed (R376); a TRAPEV to one is lost without another. -/
def refuseFailed (s : State) (p : Packet) : State :=
  match msgOf p.body with
  | some (h, _, dev) =>
    if hdrClass h = 15 then discardMsg s p h dev
    else malformed (phaseArrive s (coreTile p.dst) (hdrTag h)) p h dev 3 (BitVec.ofNat 64 (hdrClass h))
  | none => s

/-- What a packet that has come waits for: its channel group, or for a message its tile's group, to be ready (R376), a RESIZE of the
way it reaches (R184), or a credit for a message of the device's own (R110). -/
def heldBack (s : State) (p : Packet) : Bool :=
  ddrHolds s p || resizeHolds s p.body || !ownCredit s p || ((msgOf p.body).isSome && !groupReady s (coreTile p.dst))

/-- A step of the device on a packet that may arrive; nothing happens when it may not, a message without a route is lost, and one
to a tile whose group has failed is refused. -/
def onPacket (s : State) (id : Nat) (f : Packet → State) : Result :=
  match arriving s id with
  | some p =>
    if stranded s p then .next (loseRoute s p)
    else if (msgOf p.body).isSome && groupFailed s (coreTile p.dst) then .next (refuseFailed s p)
    else .next (if heldBack s p then s else f p)
  | none => .next s

/-- The answer to the sender of a request: its slot's log, or, for a host, its inbox (R363). -/
def answer (s : State) (p : Packet) (r : Reply) : State :=
  let pkg := tilePkg (slotTile p.src)
  if pkgPresent s pkg then giveReply s p.src p.id r
  else { s with inbox := s.inbox ++ [(pkg, [r.cause.setWidth 64, r.val])] }

/-- A store or atomic is acknowledged to every task that has it outstanding, an ended one whose release is to come included; the
release may then be made (R139). -/
def acknowledge (s : State) (id : Nat) (f : Task → Task) : State :=
  let hear (t : Task) : Task := if t.outs.any (fun o => o.id == id) then f t else t
  let s := { s with tasks := s.tasks.map (fun (x : Nat × Task) => (x.1, hear x.2)) }
  if s.ending.isEmpty then s
  else settleEnding { s with ending := s.ending.map (fun e => { e with task := e.task.map hear }) }

/-! ### Fills (R201, R204, R212) -/

/-- A core, other than the reader's, that has a word of the line registered which is not gathered yet. -/
def nextOwner (s : State) (home line : Nat) (got : List (Nat × Word)) (reader : Nat) : Option Nat :=
  (List.range 8).findSome? (fun i =>
    if (got.lookup (line + 4 * i)).isSome then none
    else (ownerOf s home (line + 4 * i)).filter (fun o => o != reader && (l1Get s o (line + 4 * i)).isSome))

/-- Sends the line to the reader: words gathered from other owners, and the rest as the home serves them, a word of the reader's own
from the reader (R204, R213). -/
def sendLine (s : State) (home line ctx : Nat) (grant : Bool) (got : List (Nat × Word)) (slot req : Nat) : State :=
  let words := (List.range 8).map (fun i =>
    let va := line + 4 * i
    let v := match got.lookup va with
      | some v => v
      | none =>
        match mappedKey s (tilePkg home) va [ctx] with
        | some k => homeWord s home va k
        | none => 0
    (va, v, if isLost s home va then 1 else if isPoisoned s home va then 2 else 0))
  let cause := if (translate s (tilePkg home) line ctx).isSome then 0#8 else causeXlate
  post s (niKey home) (slotCore slot) 0 (.filled line ctx grant words cause slot req)

/-- Builds a line: forwards a read to the owner of a word that is still wanted, as the registry has it now, or sends the line
when every word is there. -/
def buildLine (s : State) (home line ctx : Nat) (grant : Bool) (got : List (Nat × Word)) (slot req : Nat) : State :=
  match nextOwner s home line got (slotCore slot) with
  | some o => post s (niKey home) o 0 (.forward line ctx grant got slot req)
  | none => sendLine s home line ctx grant got slot req

/-- A fill or write request that its home refuses. -/
def refuseFill (s : State) (p : Packet) (line ctx : Nat) (grant : Bool) (c : Cause) : State :=
  post (dropPacket s p.id) (niKey (coreTile p.dst)) (slotCore p.src) 0 (.filled line ctx grant [] c p.src p.id)

/-- A load's fill at the home (R204): LINE_FILL. -/
def execLineFill (p : Nat) (s : State) : Result :=
  onPacket s p (fun p =>
    match p.body with
    | .fill line ctx priv false _ _ =>
      let home := coreTile p.dst
      match globalKey s (tilePkg home) line ctx priv false with
      | .error c => refuseFill s p line ctx false c
      | .ok _ => buildLine (dropPacket s p.id) home line ctx false [] p.src p.id
    | _ => s)

/-- A write request at the home: the checks of a write, the dirty log, the line with its grant, or the grant alone when the line
is present; a full log holds it (R196, R201). -/
def serveGrant (s : State) (p : Packet) (line ctx : Nat) (priv : BitVec 2) (present : Bool) : State :=
  let home := coreTile p.dst
  match globalKey s (tilePkg home) line ctx priv true with
  | .error c => refuseFill s p line ctx true c
  | .ok key =>
    match dirtyStep s key line ctx with
    | .error part => setPacket (noteExit s part) { p with body := .fill line ctx priv true present true }
    | .ok s =>
      let s := dropPacket s p.id
      if present then post s (niKey home) (slotCore p.src) 0 (.filled line ctx true [] 0 p.src p.id)
      else buildLine s home line ctx true [] p.src p.id

/-- WRITE_REQUEST (R201). -/
def execWriteRequest (p : Nat) (s : State) : Result :=
  onPacket s p (fun p =>
    match p.body with
    | .fill line ctx priv true present _ => serveGrant s p line ctx priv present
    | _ => s)

/-- FORWARDED_READ: the owner adds the values of the words it still has registered, and the read goes to the next owner or back
(R204). -/
def execForwardedRead (p : Nat) (s : State) : Result :=
  onPacket s p (fun p =>
    match p.body with
    | .forward line ctx grant got slot req =>
      let home := slotTile p.src
      let mine := (List.range 8).filterMap (fun i =>
        let va := line + 4 * i
        if ownerOf s home va = some p.dst then (l1Get s p.dst va).map (fun w => (va, w.val)) else none)
      buildLine (dropPacket s p.id) home line ctx grant (got ++ mine) slot req
    | _ => s)

/-- The line is installed, with its grant, but for lost and poisoned words and words of the reader's own (R204). A grant alone
brings no word. -/
def installLine (s : State) (core ctx line : Nat) (grant : Bool) (words : List (Nat × Word × Nat)) : State :=
  let s := words.foldl (fun s w =>
    if w.2.2 ≠ 0 then s
    else
      let x := match l1Get s core w.1 with
        | some x =>
          { x with ctxs := if x.ctxs.contains ctx then x.ctxs else ctx :: x.ctxs
                   val := if x.own = .clean then w.2.1 else x.val, row := true }
        | none => { ctxs := [ctx], val := w.2.1, own := .clean, row := true, column := false }
      modCore s core (fun c => { c with l1 := tput c.l1 w.1 x })) s
  if grant then
    modCore s core (fun c =>
      { c with grants := if c.grants.contains (line, ctx) then c.grants else c.grants ++ [(line, ctx)] })
  else s

/-- What the waiting access is given: the value of each word, with bit 32 set for a lost one and bit 33 for a poisoned one. -/
def fillReply (s : State) (core : Nat) (words : List (Nat × Word × Nat)) : Reply :=
  { cause := 0, val := 0, data := words.map (fun w =>
      match l1Get s core w.1 with
      | some x => if x.own = .clean then w.2.1.setWidth 64 + BitVec.ofNat 64 (w.2.2 * 2 ^ 32) else x.val.setWidth 64
      | none => w.2.1.setWidth 64 + BitVec.ofNat 64 (w.2.2 * 2 ^ 32)) }

/-- FILL_ARRIVAL (R212): the line is installed unless something has reached it since; the accesses that waited are served
once, and other fills of it in flight are not installed after it (R205). A write request whose line was dropped on the way is
made again. While the L1 has no line to give up, the fill waits. -/
def execFillArrival (p : Nat) (s : State) : Result :=
  onPacket s p (fun p =>
    match p.body with
    | .filled line ctx grant words cause slot req =>
      let core := p.dst
      let stale := ((coreAt s core).fills.find? (fun f => f.id == req)).all (·.stale)
      match (if stale ∨ cause ≠ 0#8 then some s else l1Room s core (rowLine line)) with
      | none => s
      | some s =>
        let s := modCore (dropPacket s p.id) core (fun c => { c with fills := c.fills.filter (fun f => f.id != req) })
        if cause ≠ 0#8 then giveReply s slot req (Reply.trap cause 0)
        else if stale && grant then
          match taskAt s slot with
          | some t =>
            if t.pend.req = req then
              let id := s.nextId
              let s := modTask s slot (fun t => { t with pend := { t.pend with req := id } })
              let s := modCore s core (fun c =>
                { c with fills := c.fills ++ [{ id := id, line := line, ctx := ctx, grant := true, stale := false }] })
              post s slot (homeCore (slotTile p.src)) t.launch (.fill line ctx t.priv true false false)
            else s
          | none => s
        else
          let r := fillReply s core words
          let s := if stale then s else installLine s core ctx line grant words
          giveReply (staleLine s core line) slot req r
    | _ => s)

/-! ### Registration (R201 to R203, R216) -/

/-- The registration of a word is refused: the word is lost (R216). -/
def refuseReg (s : State) (p : Packet) (va : Nat) (tag : BitVec 5) : State :=
  let s := acknowledge (dropPacket s p.id) p.id (loseOut va p.id)
  let s := l1Mod s (slotCore p.src) va (fun w => { w with own := .clean })
  phaseMark s (slotTile p.src) tag 8#4

/-- The word is registered to no core any more, and is marked lost (R216). -/
def loseWord (s : State) (home va : Nat) : State :=
  let s := match ownerOf s home va with
    | some o => post (unregister s home (lineOf va) o (maskBit va)) (niKey home) o 0 (.revoke va)
    | none => s
  modTile s home (fun t => { t with lostWords := nput t.lostWords va })

/-- The home cannot use its registry: the store's task takes MCHECK where it waits for the store (R379). -/
def brokenReg (s : State) (p : Packet) (va : Nat) : State :=
  let s := acknowledge (dropPacket s p.id) p.id (refuseOut causeMcheck (BitVec.ofNat 64 va) p.id)
  l1Mod s (slotCore p.src) va (fun w => { w with own := .clean })

/-- The registration is recorded and acknowledged (R201 step 5, R202). -/
def recordReg (s : State) (p : Packet) (home va : Nat) : State :=
  let core := slotCore p.src
  let s :=
    match ownerOf s home va with
    | some o => if o = core then s else post (unregister s home (lineOf va) o (maskBit va)) (niKey home) o 0 (.revoke va)
    | none => s
  let s := dropPoison (register s home va core) home [va]
  let s := acknowledge (dropPacket s p.id) p.id (registeredOut va p.id)
  l1Mod s core va (fun w => { w with own := if w.own = .inFlight then .registered else w.own })

/-- REGISTRATION: recorded, refused, or held until the earliest of four other entries has been recalled (R203). One on its way from a
tile that has been fenced since leaves the word lost (R216, R379; log 62). -/
def execRegistration (p : Nat) (s : State) : Result :=
  onPacket s p (fun p =>
    match p.body with
    | .reg va _ _ _ tag =>
      let home := coreTile p.dst
      let core := slotCore p.src
      if (tileAt s home).sliceBad then brokenReg s p va
      else if (tileAt s (slotTile p.src)).fenced then refuseReg (loseWord s home va) p va tag
      else if isLost s home va then refuseReg s p va tag
      else
        let others := (tileAt s home).registry.filter (fun e =>
          e.line == lineOf va && e.owner != core && (e.mask &&& ~~~(maskBit va)) != 0#32)
        let mine := (tileAt s home).registry.any (fun e => e.line == lineOf va && e.owner == core)
        match others with
        | e :: _ =>
          if others.length ≥ 4 ∧ !mine then
            let b := Body.recall e.line e.mask false
            if s.net.any (fun q => q.dst == e.owner && q.body == b) then s else post s (niKey home) e.owner 0 b
          else recordReg s p home va
        | [] => recordReg s p home va
    | _ => s)

/-- REVOKE: the word leaves the L1, unless the core has come to own it again since (R202); a fill of its line in flight is not
installed (R212). -/
def execRevoke (p : Nat) (s : State) : Result :=
  onPacket s p (fun p =>
    match p.body with
    | .revoke va =>
      let s := dropPacket s p.id
      if ownerOf s (slotTile p.src) va = some p.dst ∨ (l1Get s p.dst va).map (·.own) = some .inFlight then staleLine s p.dst va
      else l1Drop s p.dst va
    | _ => s)

/-- RECALL_REQUEST: the owner's values reach the home; it keeps the words unregistered, or drops them (R203, R214). -/
def execRecallRequest (p : Nat) (s : State) : Result :=
  onPacket s p (fun p =>
    match p.body with
    | .recall line mask drop => takeBack (dropPacket s p.id) (slotTile p.src) p.dst (maskWords line mask) drop
    | _ => s)

/-- WRITE_BACK: the home keeps the words still registered to the sender, they leave its mask, and the sender's L1 is free of them
(R213). A fill of the line that was built before is not installed (R205). -/
def execWriteBack (p : Nat) (s : State) : Result :=
  onPacket s p (fun p =>
    match p.body with
    | .writeBack words =>
      let home := coreTile p.dst
      let core := slotCore p.src
      words.foldl (fun s w =>
        let s :=
          if ownerOf s home w.1 = some core then
            let s := match mappedKey s (tilePkg home) w.1 (s.ctxs.map (·.1)) with
              | some k => storePut s k 4 w.2.toNat
              | none => s
            unregister s home (lineOf w.1) core (maskBit w.1)
          else s
        staleLine (l1Mod s core w.1 (fun x => { x with own := if x.own = .leaving then .clean else x.own })) core w.1)
        (dropPacket s p.id)
    | _ => s)

/-! ### Strong and placed accesses (R214, R215) -/

/-- A strong access at the home, a host's included. -/
def serveStrong (s : State) (p : Packet) (va size ctx : Nat) (priv : BitVec 2) (store : Bool) (data : Dword) : State :=
  let home := coreTile p.dst
  let r := if store then serveWrite s home va size ctx priv (some (slotCore p.src)) false (fun _ => some data)
    else serveLoad s home va size ctx priv
  match r with
  | .later s => s
  | .trap c v s => answer (dropPacket s p.id) p (Reply.trap c v)
  | .done v s =>
    let s := if store then s else seenWords s home (slotCore p.src) (wordsOf va size)
    answer (dropPacket s p.id) p (Reply.value (if store then 0 else v))

/-- The host that sends an access must be on its context's partition's list (R363). -/
def hostListed (s : State) (pkg src ctx : Nat) : Bool :=
  pkgPresent s (tilePkg (slotTile src)) ||
    (partAt s (ctxPart s ctx)).hosts.contains (hostName pkg (tilePkg (slotTile src)))

/-- What a host may access: a fabric-global address, under a context whose partition lists the host (R363). -/
def hostMay (s : State) (p : Packet) (va ctx : Nat) : Bool :=
  pkgPresent s (tilePkg (slotTile p.src)) ||
    (hostListed s (tilePkg (coreTile p.dst)) p.src ctx && decide (2 ^ 47 ≤ va) && decide (va < 2 ^ 48))
/-- A host's access that is refused as malformed: the host receives a TRAPEV (R145, R363). -/
def refuseHost (s : State) (p : Packet) (ctx : Nat) (va : Dword) : State :=
  let s := modCore (dropPacket s p.id) p.dst (fun c => { c with malformed := satInc c.malformed })
  report s p.dst (fabricAddr (slotCore p.src)) (BitVec.ofNat 11 ctx) 3 causeIllegal 0 va 0 p.launch (BitVec.ofNat 3 (p.src % 16))

/-- STRONG_ACCESS (R214). -/
def execStrongAccess (p : Nat) (s : State) : Result :=
  onPacket s p (fun p =>
    match p.body with
    | .strong va size ctx priv store data =>
      if hostMay s p va ctx then serveStrong s p va size ctx priv store data else refuseHost s p ctx (BitVec.ofNat 64 va)
    | _ => s)

/-- A store to placed memory, a weak one acknowledged at once (R215, R228). -/
def servePlaced (s : State) (p : Packet) (key size : Nat) (store weak : Bool) (op : Nat) (data : Dword) : State :=
  let s := dropPacket s p.id
  if store then
    let s := if op = 0 then storePut s key size data.toNat else if op = 1 then fullSet s key else fullClear s key
    if weak then acknowledge s p.id (fun t => settleOut t p.id) else answer s p Reply.ok
  else if op = 0 then
    answer s p (if spoiltAt s key size then Reply.trap causeMcheck 0 else Reply.value (BitVec.ofNat 64 (storeGet s key size)))
  else answer s p (Reply.value (if fullGet s key then 1 else 0))

/-- The refusal of a weak store that is already retired: kept for the first instruction that waits for it. -/
def refuseWeak (s : State) (p : Packet) (c : Cause) : State :=
  acknowledge (dropPacket s p.id) p.id (fun t =>
    let va := ((t.outs.find? (fun o => o.id == p.id)).map (·.va)).getD 0
    refuseOut c (BitVec.ofNat 64 va) p.id t)

/-- An LDF at its home tile (R226, R227): served, listed, or, when the list is full, refused. -/
def serveLdf (s : State) (p : Packet) (tile key size : Nat) (take : Bool) : State :=
  let s := dropPacket s p.id
  if allFull s key size && !ldfAhead s tile key size then
    if spoiltAt s key size then answer s p (Reply.trap causeMcheck 0)
    else
      let (v, s) := takeFull s key size take
      answer s p (Reply.value v)
  else if (tileAt s tile).ldfs.length < 64 then
    modTile s tile (fun t =>
      { t with ldfs := t.ldfs ++ [{ slot := p.src, req := p.id, key := key, size := size, take := take }] })
  else s

/-- PLACED_ACCESS (R215). A host may access fabric-global memory only (R363). -/
def execPlacedAccess (p : Nat) (s : State) : Result :=
  onPacket s p (fun p =>
    match p.body with
    | .placed vault tile off size ctx store weak op data _ =>
      if fromHost s p then refuseHost s p ctx (BitVec.ofNat 64 off)
      else match placedCause s (BitVec.ofNat 11 ctx) vault tile off with
      | some c => if weak then refuseWeak s p c else answer (dropPacket s p.id) p (Reply.trap c 0)
      | none => servePlaced s p (placeKey vault tile off) size store weak op data
    | .ldf vault tile off size ctx take =>
      if fromHost s p then refuseHost s p ctx (BitVec.ofNat 64 off)
      else match placedCause s (BitVec.ofNat 11 ctx) vault tile off with
      | some c => answer (dropPacket s p.id) p (Reply.trap c 0)
      | none => serveLdf s p tile (placeKey vault tile off) size take
    | _ => s)

/-- A waiting LDF still has a slot that waits for it. -/
def ldfLive (s : State) (l : LdfWait) : Bool :=
  match taskAt s l.slot with
  | some t => t.pend.req == l.req && t.pend.want.isSome
  | none => false

/-- LDF_SERVE: waiting LDFs are served in list order, each only if its words are full still (R227). -/
def execLdfServe (tile : Nat) (s : State) : Result :=
  .next ((tileAt s tile).ldfs.foldl (fun s l =>
    if !ldfLive s l then modTile s tile (fun t => { t with ldfs := t.ldfs.erase l })
    else if allFull s l.key l.size then
      let s := modTile s tile (fun t => { t with ldfs := t.ldfs.erase l })
      if spoiltAt s l.key l.size then giveReply s l.slot l.req (Reply.trap causeMcheck 0)
      else
        let (v, s) := takeFull s l.key l.size l.take
        giveReply s l.slot l.req (Reply.value v)
    else s) s)

/-- LDF_RETRY: a refused request is sent again (R227). -/
def execLdfRetry (slot : Nat) (s : State) : Result :=
  match taskAt s slot with
  | none => .next s
  | some t =>
    match t.pend.want with
    | some (.ldf va size take) =>
      let waits := s.tiles.any (fun x => x.2.ldfs.any (fun l => l.slot == slot && l.req == t.pend.req))
      if waits || s.net.any (fun p => p.id == t.pend.req) then .next s
      else
        match placeOf s (slotTile slot) va with
        | .placed vault tile off =>
          let s' := modTask s slot (fun t => { t with pend := { t.pend with req := s.nextId } })
          .next (post s' slot (homeCore tile) t.launch (.ldf vault tile off size t.ctx.toNat take))
        | _ => .next s
    | _ => .next s

/-- SPECULATIVE_REPLAY: the sweep of an acquire is one step here, so no load is ever left speculative (R211). -/
def execSpeculativeReplay (_slot : Nat) (s : State) : Result := .next s

end Sys2Proof.Machine
end

