-- ==== Sys2Proof/Machine/Volume.lean ====
section
/-!
DEFINITION. Sys2Proof/Machine/Volume.lean: coordinate-addressed sparse volumes: descriptors, pools, walks, the CLB, and the
instructions LDC, STC, AMOC, VOLALLOC and VOLFREE (spec/14_sparse_volumes.md).
-/

namespace Sys2Proof.Machine

/-! ### Filling a block (R241, R242) -/

/-- Stores the same doubleword n times from a storage key on. -/
def fillDwords (s : State) (k v : Nat) : Nat → State
  | 0 => s
  | n + 1 => fillDwords (storePut s k 8 v) (k + 8) v n

/-- A word of a range that is marked lost at its home (R216). -/
def lostIn (s : State) (pkg lo n : Nat) : Option Nat :=
  s.tiles.findSome? (fun t =>
    if tilePkg t.1 = homePkg pkg lo then t.2.lostWords.find? (fun w => decide (lo ≤ w) && decide (w < lo + n)) else none)

/-- Fills up to `pages` 4 KiB granules of a block that has `bytes` left. -/
def fillPages (pkg ctx : Nat) (priv : BitVec 2) (v : Nat) : Nat → Nat → Nat → HM Unit
  | 0, _, _ => pure ()
  | pages + 1, va, bytes => do
    let n := min bytes (4096 - va % 4096)
    if n ≠ 0 then
      let k ← writableH pkg va ctx priv 4
      dirtyH k va ctx
      modify (fun s => if v = 0 then storeClear s k n else if n < 8 then storePut s k n v else fillDwords s k v (n / 8))
      fillPages pkg ctx priv v pages (va + n) (bytes - n)

/-- Fills a block with a doubleword pattern: strong stores at each line's home (R214). -/
def fillBlock (pkg ctx : Nat) (priv : BitVec 2) (va bytes v : Nat) : HM Unit := do
  match lostIn (← get) pkg va bytes with
  | some w => failH causeOwnerlost w
  | none => pure ()
  modify (fun s => takeRange s pkg va bytes)
  fillPages pkg ctx priv v (bytes / 4096 + 2) va bytes
  modify (fun s =>
    { s with tiles := s.tiles.map (fun (t : Nat × Tile) =>
        if tilePkg t.1 = homePkg pkg va then
          (t.1, { t.2 with poisoned := t.2.poisoned.filter (fun w => !(decide (va ≤ w) && decide (w < va + bytes))) })
        else t) })

/-! ### Geometry (R234, R235, R237) -/

/-- The least w with n ≤ 2^w. -/
def ceilLog2 (n : Nat) : Nat := if n ≤ 1 then 0 else Nat.log2 (n - 1) + 1
/-- The tile-number width of one dimension. -/
def tileWidth (ext ts : Nat) : Nat := ceilLog2 ((ext + 2 ^ ts - 1) / 2 ^ ts)
def volWidths (v : Volume) : List Nat := (v.ext.zip v.ts).map (fun x => tileWidth x.1 x.2)
def volBits (v : Volume) : Nat := (volWidths v).sum
/-- The tree's levels (R235). -/
def volDepth (v : Volume) : Nat := max 1 ((volBits v + 11) / 12)
def tileBytes (v : Volume) : Nat := 2 ^ (v.ts.sum + v.clog2)
def cellBytes (v : Volume) : Nat := 2 ^ v.clog2

/-- Fields one after another, the first in the lowest bits. -/
def packFields : List (Nat × Nat) → Nat
  | [] => 0
  | (v, w) :: r => v + 2 ^ w * packFields r

/-- The tile number and the position of a cell; none out of bounds (R237). -/
def locate (v : Volume) (coords : List Nat) : Option (Nat × Nat) :=
  let cs := (coords.take v.rank).zip (v.ext.zip v.ts)
  if cs.all (fun x => decide (x.1 < x.2.1)) then
    some (packFields (cs.map (fun x => (x.1 / 2 ^ x.2.2, tileWidth x.2.1 x.2.2))),
          packFields (cs.map (fun x => (x.1 % 2 ^ x.2.2, x.2.2))))
  else none

/-- Volume from the doublewords of its descriptor (Table 1). -/
def volOf (ctx handle : Nat) (d : List Nat) : Volume :=
  let dw (i : Nat) : Nat := d.getD i 0
  let rank := dw 0 / 2 ^ 62 % 4 + 1
  { ctx := ctx, handle := handle, rank := rank, clog2 := dw 0 / 2 ^ 58 % 16, strict := (dw 0).testBit 57,
    oobbg := (dw 0).testBit 53, levels := dw 0 / 2 ^ 54 % 4 + 1, root := dw 0 / 2 ^ 15 % 2 ^ 33 * 2 ^ 15,
    ext := [dw 1 % 2 ^ 32, dw 1 / 2 ^ 32, dw 2 % 2 ^ 32, dw 2 / 2 ^ 32].take rank,
    ts := [dw 3 / 2 ^ 48 % 16, dw 3 / 2 ^ 52 % 16, dw 3 / 2 ^ 56 % 16, dw 3 / 2 ^ 60 % 16].take rank,
    bg := BitVec.ofNat 64 (dw 4), pool := dw 5 / 8 % 2 ^ 45 * 8, plog2 := dw 0 / 2 ^ 48 % 32,
    hot := dw 3 / 8 % 2 ^ 45 * 8 }

/-- The eight doublewords of a descriptor. -/
def descWords (s : State) (pkg handle ctx : Nat) : List Nat := (List.range 8).map (fun i => peek s pkg (handle + 8 * i) ctx 8)
def descLive (d : List Nat) : Bool := (d.getD 0 0).testBit 56

/-- A descriptor's fields keep R234 to R236. -/
def descValid (d : List Nat) : Bool :=
  let dw (i : Nat) : Nat := d.getD i 0
  let v := volOf 0 0 d
  let exts := [dw 1 % 2 ^ 32, dw 1 / 2 ^ 32, dw 2 % 2 ^ 32, dw 2 / 2 ^ 32]
  let tss := [dw 3 / 2 ^ 48 % 16, dw 3 / 2 ^ 52 % 16, dw 3 / 2 ^ 56 % 16, dw 3 / 2 ^ 60 % 16]
  decide (2 ≤ v.clog2) && decide (v.clog2 ≤ 12) && decide (1 ≤ v.plog2) && decide (v.plog2 ≤ 24) &&
    dw 0 % 2 ^ 15 == 0 && dw 3 % 8 == 0 && dw 5 % 8 == 0 && decide (dw 5 < 2 ^ 48) &&
    v.ext.all (fun e => decide (0 < e)) && (exts.drop v.rank).all (fun e => e == 0) &&
    (tss.drop v.rank).all (fun e => e == 0) && decide (v.ts.sum ≤ 12) && decide (volBits v ≤ 48) &&
    decide (dw 6 % 2 ^ 32 ≤ dw 6 / 2 ^ 32) && decide (dw 6 / 2 ^ 32 ≤ 2 ^ v.plog2)

/-- The address lies in global memory (R174). -/
def isGlobal (va : Nat) : Bool := decide (0x1000000000 ≤ va) && decide (va < 2 ^ 48)

/-! ### The pool (R236) -/

/-- The package in which a volume's descriptor is homed, for an access from `pkg`: the volume is performed there (R247). -/
def volPkg (pkg : Nat) (v : Volume) : Nat := homePkg pkg v.handle

/-- Pops a node block (`node`) or a tile block, as an atomic on the doubleword at +48: the block, or the reason of the
failure. -/
def popBlock (pkg ctx : Nat) (priv : BitVec 2) (v : Volume) (node : Bool) : HM (Except Nat Nat) := do
  let _ ← writableH pkg (v.handle + 48) ctx priv 8
  let x ← readH pkg (v.handle + 48) ctx priv 8
  let tf := x % 2 ^ 32
  let nf := x / 2 ^ 32
  if node then
    if nf = 2 ^ v.plog2 then pure (.error 2)
    else do
      let a ← readH pkg (v.pool + 8 * nf) ctx priv 8
      if isGlobal a && a % 2 ^ 15 == 0 then do
        writeH pkg (v.handle + 48) ctx priv 8 (x + 2 ^ 32)
        pure (.ok a)
      else pure (.error 4)
  else if tf = 0 then pure (.error 1)
  else do
    let a ← readH pkg (v.pool + 8 * (tf - 1)) ctx priv 8
    if isGlobal a && a % min (tileBytes v) 4096 == 0 then do
      writeH pkg (v.handle + 48) ctx priv 8 (x - 1)
      pure (.ok a)
    else pure (.error 4)

/-- Pushes a block back, as an atomic on the doubleword at +48. -/
def pushBlock (pkg ctx : Nat) (priv : BitVec 2) (v : Volume) (node : Bool) (a : Nat) : HM Unit := do
  let _ ← writableH pkg (v.handle + 48) ctx priv 8
  let x ← readH pkg (v.handle + 48) ctx priv 8
  if node then do
    writeH pkg (v.pool + 8 * (x / 2 ^ 32 - 1)) ctx priv 8 a
    writeH pkg (v.handle + 48) ctx priv 8 (x - 2 ^ 32)
  else do
    writeH pkg (v.pool + 8 * (x % 2 ^ 32)) ctx priv 8 a
    writeH pkg (v.handle + 48) ctx priv 8 (x + 1)

/-- Adds 1, saturating, to a count of a volume: EMPTY 0, OOB 1, or EMPTYU of a galley 2. -/
def countH (s : State) (pkg ctx handle which : Nat) : HM Unit := do
  let va := handle + (if which = 0 then 60 else if which = 1 then 56 else 100)
  let _ ← updateH pkg va ctx (ctxPriv s ctx) 4 (fun n => min (n + 1) (2 ^ 32 - 1))

/-- A posted count at the descriptor's home (R241, R243, R307): nothing waits for it; one that a full dirty log holds, or that
waits for its channel group, is made later (R196, R376), and one that its home refuses is not made. -/
def countVol (s : State) (pkg ctx handle which : Nat) : State :=
  match countH s pkg ctx handle which s with
  | .ok (_, s) => s
  | .error (.held part) => later (noteExit s part)
  | .error .waits => later s
  | .error (.fails _ _) => s
where
  /-- The count is kept as a packet at the descriptor's home. -/
  later (s : State) : State :=
    let home := homeTile s pkg handle
    post s (niKey home) (homeCore home) 0 (.volCount handle ctx which true)

/-- HELD_WRITE_RESUME: a write held on a full dirty log is tried again (R196). -/
def execHeldWriteResume (p : Nat) (s : State) : Result :=
  onPacket s p (fun p =>
    match p.body with
    | .fill line ctx priv true present true => serveGrant s p line ctx priv present
    | .strong va size ctx priv true data => serveStrong s p va size ctx priv true data
    | .volCount handle ctx which _ =>
      match countH s (tilePkg (coreTile p.dst)) ctx handle which s with
      | .ok (_, s) => dropPacket s p.id
      | .error (.held part) => noteExit s part
      | .error .waits => s
      | .error (.fails _ _) => dropPacket s p.id
    | _ => s)

/-! ### The CLB (R239, R240, R247) -/

/-- Adds a volume entry; the oldest of eight goes, with its tile entries. -/
def addVol (c : Core) (v : Volume) : Core :=
  match c.vols with
  | o :: r =>
    if c.vols.length < 8 then { c with vols := c.vols ++ [v] }
    else { c with vols := r ++ [v], clb := c.clb.filter (fun e => !(e.ctx == o.ctx && e.handle == o.handle)) }
  | [] => { c with vols := [v] }

/-- Adds a tile entry; the oldest of 64 goes. -/
def addClb (c : Core) (e : ClbTile) : Core :=
  let l := c.clb.filter (fun x => !(x.ctx == e.ctx && x.handle == e.handle && x.tile == e.tile))
  { c with clb := (if l.length < 64 then l else l.drop 1) ++ [e] }

/-- A tile is attached to a volume at the descriptor's home (R247). -/
def attach (s : State) (pkg handle tile : Nat) : State :=
  modTile s (homeTile s pkg handle) (fun t =>
    match tget t.attached handle with
    | some l => { t with attached := tput t.attached handle (if l.contains tile then l else tile :: l) }
    | none => { t with attached := tput t.attached handle [tile] })

/-- The volume entry of a handle in a core's CLB (R239). -/
def volEntry (s : State) (core ctx handle : Nat) : Option Volume :=
  (coreAt s core).vols.find? (fun v => v.ctx == ctx && v.handle == handle)

/-- A miss on a volume entry reads the descriptor at its home, and attaches the tile (R239, R247). -/
def readVol (s : State) (core ctx : Nat) (priv : BitVec 2) (handle : Nat) : Except (Cause × Nat) (Volume × State) :=
  let pkg := tilePkg (coreTile core)
  if !isGlobal handle || handle % 64 != 0 then .error (causeProt, handle)
  else
    match readHome s pkg handle ctx priv 64 with
    | .error c => .error (c, handle)
    | .ok _ =>
      let d := descWords s pkg handle ctx
      if descLive d then
        let v := volOf ctx handle d
        .ok (v, modCore (attach s pkg handle (coreTile core)) core (fun c => addVol c v))
      else .error (causeProt, handle)

/-! ### The walk (R237, R238) -/

/-- Where a walk ends. -/
inductive Walked where
  /-- A tile block, and the address of its entry. -/
  | block (a entry : Nat)
  /-- Unallocated: the address and the level of the entry that is 0. -/
  | absent (entry level : Nat)
  | trap (c : Cause) (val : Nat)
  /-- An entry waits at its home for a channel group (R376). -/
  | waits
  deriving DecidableEq, Repr

/-- The walk from a node of a level down, which entry `from_` holds; `known` gives children that were answered already. -/
def walkFrom (s : State) (pkg ctx : Nat) (priv : BitVec 2) (tile : Nat) (known : Nat → Option Nat) : Nat → Nat → Nat → Walked
  | 0, from_, a => .block a from_
  | level + 1, _, node =>
    let entry := node + 8 * (tile / 2 ^ (12 * level) % 4096)
    match readHome s pkg entry ctx priv 8 with
    | .error c => .trap c entry
    | .ok a =>
      if ddrWaits s pkg entry ctx then .waits
      else if a ≠ 0 then walkFrom s pkg ctx priv tile known level entry (a % 2 ^ 48)
      else
        match known entry with
        | some b => walkFrom s pkg ctx priv tile known level entry b
        | none => .absent entry (level + 1)

/-- The walk of a volume's tile number. -/
def walkVol (s : State) (pkg ctx : Nat) (priv : BitVec 2) (tile : Nat) (known : Nat → Option Nat) (v : Volume) : Walked :=
  walkFrom s pkg ctx priv tile known v.levels v.handle v.root

/-- A walk has found the block of a tile: the core's stale words of it go, and the entry is kept (R240). -/
def mapTile (s : State) (core : Nat) (v : Volume) (tile block : Nat) : State :=
  modCore s core (fun c =>
    addClb (dropWords c (keepsWord s core) (fun w => decide (block ≤ w) && decide (w < block + tileBytes v)))
      { ctx := v.ctx, handle := v.handle, tile := tile, block := block })

/-! ### LDC, STC and AMOC (R244) -/

/-- The coordinates an instruction names (R244). -/
def coordsOf (t : Task) (b : BitVec 5) : List Nat :=
  let lo := gGet t b
  let hi := gGet t (b + 1#5)
  [(lo.setWidth 32).toNat, lo.toNat / 2 ^ 32, (hi.setWidth 32).toNat, hi.toNat / 2 ^ 32]

/-- The volume a task names, which lies in its own package (R247): its entry, or, on a miss, a wait in which the descriptor is read;
the entry and the attachment stay, whatever the access then waits for. -/
def volumeM (t : Task) (handle : Dword) : M Volume := do
  let s ← get
  guardM (!isGlobal handle.toNat || homePkg (herePkg s) handle.toNat == herePkg s) causeProt handle
  match volEntry s (hereCore s) t.ctx.toNat handle.toNat with
  | some v => pure v
  | none =>
    awaitM (!(isGlobal handle.toNat && spanWaits s (herePkg s) handle.toNat 64 t.ctx.toNat)) .earlier
    match readVol s (hereCore s) t.ctx.toNat t.priv handle.toNat with
    | .error (c, v) => trapM c (BitVec.ofNat 64 v)
    | .ok (_, s) => throw (.hold .earlier s)

/-- The background bytes of an element (R234, R241). -/
def background (v : Volume) (e size : Nat) : Dword := BitVec.ofNat 64 (v.bg.toNat / 2 ^ (8 * (e % 8)) % 2 ^ (8 * size))

/-- The address of a cell of a volume for a task: none out of bounds or, for a read, unallocated. -/
inductive Cell where
  | at_ (va : Nat)
  | outside
  | empty
  deriving DecidableEq, Repr

/-- The register of a third and a fourth coordinate is one of the task's, and holds no spoilt value (R244, R338). -/
def secondM (t : Task) (i : Instr) (b : BitVec 5) : M Unit := do
  if b.toNat + 1 ≥ t.gcount then trapM causeIllegal (wordOf i)
  soundM t [b.toNat + 1]

/-- Checks of an access by coordinates, and the way to its cell: `e` and `size` the element, `write` when it allocates
(R241, R243, R244). A walk is waited for, and leaves its tile entry. -/
def cellM (t : Task) (i : Instr) (v : Volume) (b : BitVec 5) (e size : Nat) (write : Bool) : M Cell := do
  if v.rank ≥ 3 then secondM t i b
  let handle : Dword := BitVec.ofNat 64 v.handle
  guardM (decide (e + size ≤ cellBytes v)) causeVolbounds (handle ||| 2#64)
  let s ← get
  let core := hereCore s
  let pkg := herePkg s
  match locate v (coordsOf t b) with
  | none =>
    if v.strict then trapM causeVolbounds (handle ||| 1#64)
    else do
      set (countVol s pkg t.ctx.toNat v.handle 1)
      pure .outside
  | some (tile, q) =>
    let off := q * cellBytes v + e
    match (coreAt s core).clb.find? (fun x => x.ctx == t.ctx.toNat && x.handle == v.handle && x.tile == tile) with
    | some x =>
      if x.block ≠ 0 then return .at_ (x.block + off)
      else if !write then
        set (countVol s pkg t.ctx.toNat v.handle 0)
        return .empty
    | none => pure ()
    let known (entry : Nat) : Option Nat :=
      t.pend.log.findSome? (fun x =>
        match x.1 with
        | .alloc en _ h => if en = entry ∧ h = v.handle ∧ x.2.cause = 0#8 then some x.2.val.toNat else none
        | _ => none)
    match walkVol s pkg t.ctx.toNat t.priv tile known v with
    | .waits => waitM .earlier
    | .trap c val => trapM c (BitVec.ofNat 64 val)
    | .block a _ => throw (.hold .earlier (mapTile s core v tile a))
    | .absent entry level =>
      if write then do
        let r ← ask (.alloc entry level v.handle) (homeFor s entry) (.alloc entry level v.handle t.ctx.toNat t.priv)
        trapM r.cause r.val
      else do
        set (countVol (modCore s core (fun c => addClb c { ctx := t.ctx.toNat, handle := v.handle, tile := tile, block := 0 }))
          pkg t.ctx.toNat v.handle 0)
        pure .empty

/-- LDC (R244). -/
def execLdc (im : BitVec 4) (sz : BitVec 2) (b a d : BitVec 5) (g : BitVec 4) (s : State) : Result :=
  scalar (.ldc im sz b a d g) g s (fun t => do
    let size := 2 ^ sz.toNat
    let e := im.toNat * size
    let v ← volumeM t (gGet t a)
    let x ← match (← cellM t (.ldc im sz b a d g) v b e size false) with
      | .at_ va => do
        unpostedM t va size
        weakLoad t va size
      | .outside => pure (background v e size)
      | .empty => pure (background v e size)
    modThis (fun u => gSet u d x)
    pure .seq)

/-- STC (R244). -/
def execStc (im : BitVec 4) (sz : BitVec 2) (b a d : BitVec 5) (g : BitVec 4) (s : State) : Result :=
  scalar (.stc im sz b a d g) g s (fun t => do
    let size := 2 ^ sz.toNat
    let v ← volumeM t (gGet t a)
    match (← cellM t (.stc im sz b a d g) v b (im.toNat * size) size true) with
    | .at_ va => do
      unpostedM t va size
      weakStore t va size (gGet t d)
    | .outside => pure ()
    | .empty => pure ()
    pure .seq)

/-- The answer to the atomic of this instruction, with its address: it has been performed, and is not performed anew wherever
a walk would lead now. -/
def atomicDone (t : Task) : Option (Nat × Reply) :=
  t.pend.log.findSome? (fun x =>
    match x.1 with
    | .atomic va _ _ _ _ => some (va, x.2)
    | _ => none)

/-- The atomic of this instruction has been sent, and its answer has not come. -/
def atomicSent (t : Task) : Bool :=
  match t.pend.want with
  | some (.atomic _ _ _ _ _) => true
  | _ => false

/-- The effect of AMOC with an operation of Table 2 of R220 (R244, Table 2). -/
def amocEffect (i : Instr) (op : Nat) (w : BitVec 3) (b a d : BitVec 5) : Task → M Flow := fun t => do
  let e := 4 * w.toNat
  let x ←
    match atomicDone t with
    | some (va, r) => if r.cause = 0#8 then pure r.val else trapM r.cause (BitVec.ofNat 64 va)
    | none => do
      if atomicSent t then waitM (t.pend.want.getD .earlier)
      let v ← volumeM t (gGet t a)
      match (← cellM t i v b e 4 true) with
      | .at_ va => atomicM t (BitVec.ofNat 64 va) 4 op ((gGet t d).setWidth 32 |>.setWidth 64) 0
      | .outside => pure (background v e 4)
      | .empty => pure (background v e 4)
  modThis (fun u => gSet u d x)
  pure .seq

/-- AMOC.ADD. -/
def execAmocAdd (w : BitVec 3) (b a d : BitVec 5) (g : BitVec 4) (s : State) : Result :=
  scalar (.amocAdd w b a d g) g s (amocEffect (.amocAdd w b a d g) 0 w b a d)
/-- AMOC.FADD. -/
def execAmocFadd (w : BitVec 3) (b a d : BitVec 5) (g : BitVec 4) (s : State) : Result :=
  scalar (.amocFadd w b a d g) g s (amocEffect (.amocFadd w b a d g) 9 w b a d)
/-- AMOC.MIN. -/
def execAmocMin (w : BitVec 3) (b a d : BitVec 5) (g : BitVec 4) (s : State) : Result :=
  scalar (.amocMin w b a d g) g s (amocEffect (.amocMin w b a d g) 4 w b a d)
/-- AMOC.MAX. -/
def execAmocMax (w : BitVec 3) (b a d : BitVec 5) (g : BitVec 4) (s : State) : Result :=
  scalar (.amocMax w b a d g) g s (amocEffect (.amocMax w b a d g) 5 w b a d)
/-- AMOC.FMAX. -/
def execAmocFmax (w : BitVec 3) (b a d : BitVec 5) (g : BitVec 4) (s : State) : Result :=
  scalar (.amocFmax w b a d g) g s (amocEffect (.amocFmax w b a d g) 11 w b a d)
/-- AMOC.XCHG. -/
def execAmocXchg (w : BitVec 3) (b a d : BitVec 5) (g : BitVec 4) (s : State) : Result :=
  scalar (.amocXchg w b a d g) g s (amocEffect (.amocXchg w b a d g) 8 w b a d)

/-- The pattern of a tile: byte j of every cell is BG byte j mod 8 (R234). -/
def tilePattern (v : Volume) : Nat := if v.clog2 = 2 then v.bg.toNat % 2 ^ 32 * (2 ^ 32 + 1) else v.bg.toNat

/-- Allocates the block of an entry that is 0: the block, or the reason of the failure (R241). -/
def allocate (pkg ctx : Nat) (priv : BitVec 2) (v : Volume) (entry level : Nat) : HM (Except Nat Nat) := do
  match (← popBlock pkg ctx priv v (level ≠ 1)) with
  | .error n => pure (.error n)
  | .ok a => do
    if level = 1 then fillBlock pkg ctx priv a (tileBytes v) (tilePattern v) else fillBlock pkg ctx priv a 0x8000 0
    writeH pkg entry ctx priv 8 a
    pure (.ok a)

/-- TILE_ALLOCATION: requests for an entry are served one at a time: a block is popped, filled and linked for the first,
and the others are answered with it (R241, R242). The volume is that of the sender's package (R247). -/
def execTileAllocation (p : Nat) (s : State) : Result :=
  onPacket s p (fun p =>
    match p.body with
    | .alloc entry level handle ctx priv =>
      let pkg := tilePkg (slotTile p.src)
      let old := peek s pkg entry ctx 8
      if old ≠ 0 then answer (dropPacket s p.id) p (Reply.value (BitVec.ofNat 64 (old % 2 ^ 48)))
      else
        match runH (allocate pkg ctx priv (volOf ctx handle (descWords s pkg handle ctx)) entry level) s with
        | .error (.inl s) => s
        | .error (.inr (c, va)) => answer (dropPacket s p.id) p (Reply.trap c (BitVec.ofNat 64 va))
        | .ok (.error n, _) => answer (dropPacket s p.id) p (Reply.trap causeVolalloc (BitVec.ofNat 64 (handle ||| n)))
        | .ok (.ok a, s) => answer (dropPacket s p.id) p (Reply.value (BitVec.ofNat 64 a))
    | _ => s)

/-! ### VOLALLOC (R246) -/

/-- VOLALLOC: the descriptor's checks and its opening, one atomic at the home, whose last store is the release. -/
def execVolalloc (a d : BitVec 5) (g : BitVec 4) (s : State) : Result :=
  scalar (.volalloc a d g) g s (fun t => do
    let handle := (gGet t a).toNat
    let ctx := t.ctx.toNat
    guardM (handle % 64 == 0 && isGlobal handle) causeProt (gGet t a)
    let s ← get
    let pkg := homePkg (herePkg s) handle
    for write in [false, true] do
      match globalKey s pkg handle ctx t.priv write with
      | .error c => trapM c (gGet t a)
      | .ok _ => pure ()
    let home := homeTile s pkg handle
    guardM (!((List.range 16).any (fun i => isLost s home (handle + 4 * i)))) causeOwnerlost (gGet t a)
    awaitM (!spanWaits s pkg handle 64 ctx) .earlier
    let desc := descWords s pkg handle ctx
    guardM (!descLive desc && descValid desc) causeProt (gGet t a)
    guardM (decide ((tileAt s home).attached.length < 64)) causeVolalloc (gGet t a ||| 3#64)
    let v := volOf ctx handle desc
    match (← homeM (popBlock pkg ctx t.priv v true)) with
    | .error n => trapM causeVolalloc (gGet t a ||| BitVec.ofNat 64 n)
    | .ok node =>
      let w0 := desc.getD 0 0
      let w0 := w0 / 2 ^ 57 * 2 ^ 57 + 2 ^ 56 + (volDepth v - 1) * 2 ^ 54 + w0 / 2 ^ 48 % 2 ^ 6 * 2 ^ 48 + node % 2 ^ 48
      homeM (do
        fillBlock pkg ctx t.priv node 0x8000 0
        writeH pkg (handle + 56) ctx t.priv 8 0)
      releaseM
      homeM (writeH pkg handle ctx t.priv 8 w0)
      modify (fun s => modTile s home (fun x => { x with attached := tput x.attached handle [] }))
      modThis (fun u => gSet u d (gGet t a))
      pure .seq)

/-! ### VOLFREE (R248) -/

/-- The blocks below a node of a level, with the entry that holds each: entry, level of the block (0 a tile), block, tile
number. -/
def blocksBelow (s : State) (pkg ctx : Nat) : Nat → Nat → Nat → List (Nat × Nat × Nat × Nat)
  | 0, _, _ => []
  | level + 1, node, base =>
    (List.range 4096).flatMap (fun i =>
      let entry := node + 8 * i
      let a := peek s pkg entry ctx 8
      if a = 0 then []
      else (entry, level, a, base + i * 2 ^ (12 * level)) :: blocksBelow s pkg ctx level a (base + i * 2 ^ (12 * level)))

/-- A node below waits at its home for a channel group (R376). -/
def blocksWait (s : State) (pkg ctx : Nat) : Nat → Nat → Bool
  | 0, _ => false
  | level + 1, node =>
    spanWaits s pkg node 0x8000 ctx ||
      (List.range 4096).any (fun i =>
        let a := peek s pkg (node + 8 * i) ctx 8
        a != 0 && blocksWait s pkg ctx level a)

/-- Sends the shootdown to every attached tile (R248). -/
def shootdown (s : State) (pkg handle : Nat) (tiles : List Nat) (whole : Bool) (blocks : List (Nat × Nat)) : State :=
  ((tget (tileAt s (homeTile s pkg handle)).attached handle).getD []).foldl (fun s t =>
    post s s.here (homeCore t) 0 (.shootdown handle tiles whole blocks)) s

/-- Acknowledgements of a slot's shootdowns that are still out. -/
def shootdownOut (s : State) : Bool :=
  s.net.any (fun p => p.src == s.here &&
    match p.body with
    | .shootdown _ _ _ _ => true
    | _ => false)

/-- The freed blocks as plain data: level and address in turn. -/
def blockData (l : List (Nat × Nat × Nat × Nat)) : List Dword :=
  l.flatMap (fun x => [BitVec.ofNat 64 x.2.1, BitVec.ofNat 64 x.2.2.1])

/-- Pushes freed blocks, given as plain data. -/
def pushAll (pkg ctx : Nat) (priv : BitVec 2) (v : Volume) : List Dword → HM Unit
  | lv :: a :: r => do
    pushBlock pkg ctx priv v (lv ≠ 0) a.toNat
    pushAll pkg ctx priv v r
  | _ => pure ()

/-- Where freed blocks lie: address and size. -/
def spansOf (v : Volume) : List Dword → List (Nat × Nat)
  | lv :: a :: r => (a.toNat, if lv = 0 then tileBytes v else 0x8000) :: spansOf v r
  | _ => []

/-- Staged elements of the cells of freed blocks are discarded (R324). -/
def dropStaged (s : State) (pkg : Nat) (spans : List (Nat × Nat)) : State :=
  { s with cores := s.cores.map (fun (c : Nat × Core) =>
      if tilePkg (coreTile c.1) = pkg then
        (c.1, { c.2 with staged := c.2.staged.filter (fun e =>
          !(spans.any (fun b => decide (b.1 ≤ e.cell) && decide (e.cell < b.1 + b.2)))) })
      else c) }

/-- Another slot's VOLFREE of the volume is under way (R248): its first half is done and noted, under the handle. -/
def freeingElsewhere (s : State) (handle : Nat) : Bool :=
  s.tasks.any (fun x =>
    x.1 != s.here && homePkg (tilePkg (slotTile x.1)) handle == homePkg (herePkg s) handle &&
      match x.2.pend.log.lookup (.broadcast 0) with
      | some r => r.val.toNat == handle
      | none => false)

/-- The first half of VOLFREE: the entries of the freed blocks go, the shootdown is sent, and the slot waits. -/
def freeBegin (t : Task) (v : Volume) (blocks : List (Nat × Nat × Nat × Nat)) (whole : Bool) : M Flow := do
  let pkg := herePkg (← get)
  homeM (blocks.forM (fun x => writeH pkg x.1 v.ctx t.priv 8 0))
  let s ← get
  let spans := spansOf v (blockData blocks)
  let s := dropStaged s pkg spans
  let s := shootdown s pkg v.handle (blocks.map (fun x => x.2.2.2)) whole spans
  let root := if whole then [BitVec.ofNat 64 1, BitVec.ofNat 64 v.root] else []
  let note : Reply := { cause := 0, val := BitVec.ofNat 64 v.handle, data := blockData blocks ++ root }
  throw (.hold (.broadcast 1) (modTask s s.here (fun t =>
    { t with pend := { t.pend with log := (.broadcast 0, note) :: t.pend.log } })))

/-- A core drops its mappings of freed tiles, and answers already given to its slots about them. -/
def dropMappings (s : State) (core handle : Nat) (tiles : List Nat) (whole : Bool) : State :=
  let s := modCore s core (fun c =>
    { c with
      vols := if whole then c.vols.filter (fun v => v.handle != handle) else c.vols
      clb := c.clb.filter (fun e => !(e.handle == handle && (whole || tiles.contains e.tile))) })
  { s with tasks := s.tasks.map (fun (x : Nat × Task) =>
      if slotCore x.1 = core then
        (x.1, { x.2 with pend := { x.2.pend with log := x.2.pend.log.filter (fun y =>
          match y.1 with
          | .alloc _ _ h => h != handle
          | _ => true) } })
      else x) }

/-- A volume is closed: no core of its package keeps a mapping that it has made anew since the shootdown. -/
def forgetVolume (s : State) (pkg handle : Nat) : State :=
  s.cores.foldl (fun (s : State) (c : Nat × Core) =>
    if tilePkg (coreTile c.1) = pkg then dropMappings s c.1 handle [] true else s) s

/-- VOLFREE: one tile, or, with b = g0, the whole volume, which must be live at its home when its turn comes. Once every core has
acknowledged, elements staged for the freed cells in between are discarded too, and the blocks reach the pool (R248, R324). -/
def execVolfree (b a : BitVec 5) (g : BitVec 4) (s : State) : Result :=
  scalar (.volfree b a g) g s (fun t => do
    let handle := (gGet t a).toNat
    let s0 ← get
    let pkg := herePkg s0
    let ctx := t.ctx.toNat
    match t.pend.log.lookup (.broadcast 0) with
    | some r =>
      awaitM (!shootdownOut s0) (.broadcast 1)
      let v := volOf ctx handle (descWords s0 pkg handle ctx)
      if b = 0#5 then releaseM
      set (dropStaged s0 pkg (spansOf v r.data))
      homeM (do
        pushAll pkg ctx t.priv v r.data
        if b = 0#5 then do
          let _ ← updateH pkg handle ctx t.priv 8 (fun w0 => if w0.testBit 56 then w0 - 2 ^ 56 else w0)
          fillBlock pkg ctx t.priv v.root 0x8000 0)
      if b = 0#5 then
        modify (fun s => modTile (forgetVolume s pkg handle) (homeTile s pkg handle) (fun x =>
          { x with attached := tdel x.attached handle }))
      pure .seq
    | none =>
      awaitM (!freeingElsewhere s0 handle) .earlier
      let v ← volumeM t (gGet t a)
      let s ← get
      guardM (descLive (descWords s pkg handle ctx)) causeProt (gGet t a)
      if b = 0#5 then
        awaitM (!blocksWait s pkg ctx v.levels v.root) .earlier
        freeBegin t v (blocksBelow s pkg ctx v.levels v.root 0) true
      else do
        if v.rank ≥ 3 then secondM t (.volfree b a g) b
        match locate v (coordsOf t b) with
        | none => trapM causeVolbounds (gGet t a ||| 1#64)
        | some (tile, _) =>
          match walkVol s pkg ctx t.priv tile (fun _ => none) v with
          | .waits => waitM .earlier
          | .trap c val => trapM c (BitVec.ofNat 64 val)
          | .absent _ _ => pure .seq
          | .block blk entry => freeBegin t v [(entry, 0, blk, tile)] false)

/-- An address lies in one of the blocks. -/
def inBlocks (blocks : List (Nat × Nat)) (va : Nat) : Bool := blocks.any (fun b => decide (b.1 ≤ va) && decide (va < b.1 + b.2))

/-- An access in flight from a tile meets one of the blocks: a store, an atomic, or an allocation in a node that is freed. -/
def blockInUse (s : State) (tile : Nat) (blocks : List (Nat × Nat)) : Bool :=
  s.net.any (fun p => slotTile p.src == tile &&
    match p.body with
    | .reg va _ _ _ _ => inBlocks blocks va
    | .atomic none va _ _ _ _ _ _ _ _ => inBlocks blocks va
    | .alloc entry _ _ _ _ => inBlocks blocks entry
    | _ => false)

/-- Commands of a tile that have found a row in one of the blocks, and not moved all of it, find it anew. -/
def dropRows (s : State) (tile : Nat) (blocks : List (Nat × Nat)) : State :=
  { s with cores := s.cores.map (fun (c : Nat × Core) =>
      if coreTile c.1 = tile then
        (c.1, { c.2 with ring := c.2.ring.map (fun e =>
          match e.notes with
          | [1, va] => if inBlocks blocks va then { e with notes := [] } else e
          | _ => e) })
      else c) }

/-- CLB_SHOOTDOWN: every core of the tile drops the mappings; the tile acknowledges once their accesses are performed
(R248). -/
def execClbShootdown (p : Nat) (s : State) : Result :=
  onPacket s p (fun p =>
    match p.body with
    | .shootdown handle tiles whole blocks =>
      let tile := coreTile p.dst
      let s := dropRows ((List.range 12).foldl (fun s n => dropMappings s (coreKey tile n) handle tiles whole) s) tile blocks
      if blockInUse s tile blocks then s else dropPacket s p.id
    | _ => s)

end Sys2Proof.Machine
end

