-- ==== Sys2Proof/Machine/Tasks.lean ====
section
/-!
DEFINITION. Sys2Proof/Machine/Tasks.lean: task and message instructions, majors 0x23 to 0x27 and C.TEND
(spec/09_task_instructions.md, R127 to R144).
-/

namespace Sys2Proof.Machine

/-! ### SEND and SENDX (R129 to R132) -/

/-- Bytes of an element of a landing's data by its format code (R28, R31). -/
def codeBytes (code : Nat) : Nat :=
  match code with
  | 0 | 4 | 11 => 1
  | 1 | 5 | 9 | 10 => 2
  | 2 | 6 | 8 => 4
  | _ => 8

/-- A landing word keeps its own rules for a transform (R109, Table 2b). -/
def landingOk (w : Dword) (xf dataBytes : Nat) : Bool :=
  !w.getLsbD 63 && !w.getLsbD 52 && w.extractLsb' 24 8 == 0#8 &&
    decide ((w.extractLsb' 20 4).toNat ≤ 11) &&
    (w.extractLsb' 32 20 == 0#20 || w.extractLsb' 32 6 == 0#6) &&
    (if xf = 4 then w.extractLsb' 0 10 == 0#10 && decide ((w.extractLsb' 58 5).toNat + dataBytes ≤ 32)
     else (w.extractLsb' 0 20).toNat % codeBytes (w.extractLsb' 20 4).toNat == 0)

/-- A supervisor may act on a context: one of its partition, or any at M (R334). -/
def inPartition (s : State) (t : Task) (ctx : Nat) : Bool :=
  t.priv == 3#2 || ((ctxAt s ctx).isSome && ctxPart s ctx == ctxPart s t.ctx.toNat)

/-- The NLOG a class asks for (R109, R117, R132, R263, R275, R370). -/
def nlogOk (cls n : Nat) : Bool :=
  match cls with
  | 1 => n == 2
  | 2 => n == 1
  | 3 => n == 0
  | 4 => n == 3
  | 9 => decide (1 ≤ n)
  | 12 => n == 2
  | 16 => n == 2
  | 17 => n == 2
  | _ => true

/-- The payload a class asks of a program (R109, R117, R130, R132, R144). -/
def payloadOk (s : State) (t : Task) (h : Dword) (payload : List Dword) : Bool :=
  let p (i : Nat) : Dword := payload.getD i 0
  let n := hdrNlog h
  match hdrClass h with
  | 1 => (p 0).extractLsb' 40 24 == 0#24
  | 2 =>
    let lv := (p 0).toNat
    decide (lv ≤ 3) && decide ((p 1).toNat < 2 ^ (if lv = 0 then 32 else if lv = 1 then 16 else if lv = 2 then 4 else 11)) &&
      !(lv == 1 && p 1 == 0#64) &&
      (lv != 3 || (p 1).toNat == t.ctx.toNat || (t.priv != 0#2 && inPartition s t (p 1).toNat))
  | 3 => nameOk (p 0) && nameTile (p 0) == coreTile (coreOfFabric (hdrDst h))
  | 4 => decide (32 ≤ (p 0).toNat) && decide ((p 0).toNat ≤ 255) && p 7 == 0#64
  | 9 => landingOk (p 0) (hdrXf h) (8 * (2 ^ n - 1))
  | _ => true

/-- A core may be the target of a class (R6, R106, Table 2). -/
def targetOk (cls core : Nat) : Bool :=
  let n := coreNum core
  if n = 7 then false
  else if cls = 0 ∨ cls = 1 ∨ cls = 4 ∨ 32 ≤ cls ∨ cls = 5 ∨ cls = 6 then n ≤ 3 || decide (8 ≤ n)
  else if cls = 12 then n == 6
  else if cls = 17 then n == 4
  else if cls = 16 then n == 0 && coreTile core % 1024 == 0
  else true

/-- The home tile of an address, as a sender on a tile sees it (R189, R217). -/
def homeOf (s : State) (tile va : Nat) : Nat :=
  match placeOf s tile va with
  | .placed _ t _ => t
  | _ => homeTile s (tilePkg tile) va

/-- Where a header's message goes, for a sender on a tile (R105, R217). With HOME 1 payload doubleword 0 is an address as the
sender's tile reads it, of a DEC too: a record name of tile 0 of package 0 is then an offset in the sender's own LM, whose record is
decremented (R132; DEDUCED, log 103). -/
def destOf (s : State) (tile : Nat) (h : Dword) (payload : List Dword) : Nat :=
  if hdrHome h then
    let va := (payload.getD 0 0).toNat
    performing (homeOf s tile va) va
  else coreOfFabric (hdrDst h)

/-- The sending NI accepts a program's header (R105 to R109, R132, R357, R363): with HOME 1, or for an atomic, payload doubleword
0 is an address of the sender's map, and an atomic goes to the word's home tile. -/
def headerOk (s : State) (tile : Nat) (t : Task) (h : Dword) (payload : List Dword) : Bool :=
  let cls := hdrClass h
  let dst := destOf s tile h payload
  let va := (payload.getD 0 0).toNat
  let sameCtx := hdrCtx h == t.ctx
  let ctxOk := if t.priv = 0#2 then sameCtx
    else if t.priv = 1#2 then (ctxAt s (hdrCtx h).toNat).isSome && ctxPart s (hdrCtx h).toNat == ctxPart s t.ctx.toNat
    else true
  let classOk := !((18 ≤ cls && cls ≤ 31 : Bool) || [7, 8, 10, 11, 13, 14, 15].contains cls || (cls == 16 && t.priv == 0#2))
  let xfOk := hdrXf h == 0 || (cls == 9 && decide (hdrXf h ≤ 4))
  let atomic := cls == 5 || cls == 6
  h.extractLsb' 54 10 == 0#10 && ctxOk && classOk && xfOk && nlogOk cls (hdrNlog h) && payloadOk s t h payload &&
    (!hdrHome h || hdrDst h == 0) && (!(hdrHome h || atomic) || placeOf s tile va != .hole) &&
    (if pkgPresent s (tilePkg (coreTile dst)) then
       targetOk cls dst && !groupFailed s (coreTile dst) && (!atomic || coreTile dst == homeOf s tile va)
     else !hdrHome h && decide (32 ≤ cls) && hdrDst h % 2 ^ 13 == 0 &&
       (partAt s (ctxPart s (hdrCtx h).toNat)).hosts.contains (hostName (tilePkg tile) (hdrDst h / 2 ^ 13)))

/-- The payload registers of a send. -/
def payloadOf (t : Task) (b : BitVec 5) (n : BitVec 2) : List Dword :=
  (List.range (2 ^ n.toNat)).map (fun i => gGet t (b + BitVec.ofNat 5 i))

/-- Sends a message once its NI holds a credit at the destination (R110, R116, R346, R348). -/
def sendM (t : Task) (h : Dword) (payload : List Dword) : M Unit := do
  let s ← get
  let cls := hdrClass h
  let dst := destOf s (hereTile s) h payload
  if pkgPresent s (tilePkg (coreTile dst)) then
    awaitM (cls == 2 || (accepts s (coreTile dst) (hdrCtx h) &&
      (decide (cls < 32) || decide (queuedOn s (coreTile dst) (hdrCtx h) < 65535)))) .earlier
  creditNowM dst cls
  let s ← get
  let s := post s s.here dst t.launch (.msg h payload)
  set (if 32 ≤ cls ∨ cls = 4 then launchUp s (hdrCtx h) t.launch else s)

/-- A header with the sending task's phase tag, if it has one (R130). -/
def tagHeader (t : Task) (h : Dword) : Dword :=
  if t.tag.getLsbD 4 then h else (h &&& ~~~0x7C0000000#64) ||| BitVec.ofNat 64 (t.tag.toNat * 2 ^ 31 + 2 ^ 30)

/-- The end of SEND and SENDX: tag, checks, release, send (R130). -/
def sendEffect (h : Dword) (payload : List Dword) : Task → M Flow := fun t => do
  let h := tagHeader t h
  guardM (headerOk (← get) (hereTile (← get)) t h payload) causeProt h
  if hdrRel h then releaseM else publishedM
  sendM t h payload
  pure .seq

/-- SEND (R129, Table 1): a header that the table's reserved bits break is refused whole. -/
def execSend (c : BitVec 8) (r : BitVec 1) (n : BitVec 2) (b a : BitVec 5) (g : BitVec 4) (s : State) : Result :=
  scalar (.send c r n b a g) g s (fun t => do
    let x := gGet t a
    let h := BitVec.ofNat 64 (c.toNat * 2 ^ 46 + t.ctx.toNat * 2 ^ 35 + (x.extractLsb' 27 3).toNat * 2 ^ 27 +
      n.toNat * 2 ^ 25 + r.toNat * 2 ^ 24 + (x.extractLsb' 0 24).toNat)
    guardM (x.extractLsb' 30 34 == 0#34 && x.extractLsb' 24 3 == 0#3) causeProt (tagHeader t h)
    sendEffect h (payloadOf t b n) t)

/-- SENDX (R129): the whole header from ga, with the word's NLOG. -/
def execSendx (n : BitVec 2) (b a : BitVec 5) (g : BitVec 4) (s : State) : Result :=
  scalar (.sendx n b a g) g s (fun t => do
    let h := (gGet t a &&& ~~~0x6000000#64) ||| BitVec.ofNat 64 (n.toNat * 2 ^ 25)
    sendEffect h (payloadOf t b n) t)

/-! ### Records: TREC, DEC, TARM (R133 to R136) -/

/-- The check of a record's offset (R134). -/
def checkRecord (off : Dword) : M Unit :=
  guardM (off != 0#64 && off.toNat % 64 == 0 && decide (off.toNat ≤ 0xFFFC0)) causeProt off

/-- A tile anchors a link (R359, Table 1). -/
def anchors (tile : Nat) : Bool :=
  let die := tile / 256 % 4
  let y := tile / 16 % 16
  let x := tile % 16
  ((y == 0 || y == 15) && x % 4 == 1) || (y == 7 && (if die % 2 = 0 then x == 15 else x == 0))

/-- The image of a record's first doubleword keeps Table 4 (R134). -/
def imageOk (tile : Nat) (w : Dword) : Bool :=
  w.extractLsb' 30 2 == 0#2 && !w.getLsbD 20 && w.extractLsb' 0 2 == 0#2 && (w.extractLsb' 21 3 != 7#3 || anchors tile)

/-- TREC (R134). -/
def execTrec (b a d : BitVec 5) (g : BitVec 4) (s : State) : Result :=
  scalar (.trec b a d g) g s (fun t => do
    checkRecord (gGet t a)
    let s ← get
    let tile := hereTile s
    guardM (imageOk tile (gGet t b)) causeProt (gGet t b)
    let off := (gGet t a).toNat
    checkPlaced t.ctx false tile off (gGet t a)
    releaseM
    if lmGet s tile (off + 4) 4 ≠ 0 then modThis (fun u => gSet u d 1)
    else do
      let s := lmPut s tile off 8 (gGet t b).toNat
      let s := if lmGet s tile (off + 8) 4 = 0 then lmPut s tile (off + 8) 4 t.launch.toNat else s
      set (modTile s tile (fun x => { x with records := tput x.records off (t.ctx, t.tag, false) }))
      modThis (fun u => gSet u d 0)
    pure .seq)

/-- The effect of DEC and DEC.L (R135). -/
def decEffect (a : BitVec 5) (rel : Bool) : Task → M Flow := fun t => do
  let name := gGet t a
  let s ← get
  guardM (name == 0#64 || (nameOk name && pkgPresent s (tilePkg (nameTile name)) && !groupFailed s (nameTile name))) causeProt
    name
  if rel then releaseM else publishedM
  awaitM (!cmdsPending s t.uid) .earlier
  if name ≠ 0#64 then
    sendM t (mkHeader 3 t.ctx t.tag 0 rel (fabricAddr (nameCore name)).toNat) [name]
  pure .seq

/-- DEC (R135). -/
def execDec (a : BitVec 5) (g : BitVec 4) (s : State) : Result := scalar (.dec a g) g s (decEffect a false)
/-- DEC.L (R135). -/
def execDecL (a : BitVec 5) (g : BitVec 4) (s : State) : Result := scalar (.decL a g) g s (decEffect a true)

/-- TARM (R136). -/
def execTarm (b a : BitVec 5) (g : BitVec 4) (s : State) : Result :=
  scalar (.tarm b a g) g s (fun t => do
    checkRecord (gGet t a)
    guardM ((gGet t b).extractLsb' 32 32 == 0#32) causeProt (gGet t b)
    let s ← get
    let tile := hereTile s
    let off := (gGet t a).toNat
    checkPlaced t.ctx false tile off (gGet t a)
    let n := (gGet t b).toNat
    let s := lmPut s tile (off + 12) 4 n
    set (if lmGet s tile (off + 4) 4 = 0 then armRecord (lmPut s tile (off + 4) 4 n) tile off n t else s)
    pure .seq)
where
  /-- A spent record that is armed anew is armed by this task: its firings carry the task's tag (R120). -/
  armRecord (s : State) (tile off n : Nat) (t : Task) : State :=
    if n = 0 then s else modTile s tile (fun x => { x with records := tput x.records off (t.ctx, t.tag, false) })

/-! ### SPAWN (R137, R138) -/

/-- SPAWN's operand that names the executing core. -/
def ownCore : Dword := 0x800000#64

/-- The inline fallback (R138): the routine is called in the spawner's own slot. -/
def fallback (t : Task) (d : BitVec 5) (e : Dword) : M Flow := do
  soundM t [1, 2, 3]
  let frame := gGet t 2#5 - 32#64
  checkAddr t 2#5 frame 8
  memWrite t frame 8 0 (t.pc.setWidth 64 + 4#64)
  memWrite t (frame + 8#64) 8 0 (gGet t 1#5)
  memWrite t (frame + 16#64) 8 0 (gGet t 3#5)
  memWrite t (frame + 24#64) 8 0 t.fbFrame
  modThis (fun u =>
    { gSet (gSet (gSet u 2#5 frame) 1#5 0) 3#5 0 with fbDest := d :: u.fbDest, fbFrame := frame })
  pure (.jump ((e.extractLsb' 0 20).setWidth 64) true)

/-- The fallback cannot run: the routine's counts exceed the spawner's, or the depth is 15 (R138). -/
def noFallback (t : Task) (e : Dword) : Bool :=
  decide (t.gcount < 8 * ((e.extractLsb' 59 2).toNat + 1)) || decide (t.fcount < 8 * ((e.extractLsb' 57 2).toNat + 1)) ||
    decide (15 ≤ t.fbDest.length)

/-- The registers that a spawn's payload takes (R132, Table 2) hold no spoilt value (R338). -/
def spawnSound (t : Task) : M Unit := soundM t [4, 5, 6, 7, 8, 9]
/-- The payload of a spawn (R132, Table 2). -/
def spawnPayload (t : Task) (cls : Dword) : List Dword :=
  [cls] ++ (List.range 6).map (fun i => gGet t (BitVec.ofNat 5 (4 + i))) ++ [0]

/-- A local SPAWN (R137). -/
def spawnHere (t : Task) (d : BitVec 5) (cls : Dword) : M Flow := do
  let s ← get
  let core := hereCore s
  match routineEntry s (hereTile s) t.ctx cls.toNat with
  | none => trapM causeProt cls
  | some e =>
    if cancelled s (hereTile s) t.ctx t.launch t.tag then do
      modThis (fun u => gSet u d 3)
      pure .seq
    else if slotsOf core = 4 then
      if noFallback t e then trapM causeProt cls else fallback t d e
    else if spawnQueued s core < 64 ∧ queuedOn s (hereTile s) t.ctx < 65535 then do
      spawnSound t
      let x := entryOf s.nextId t.ctx t.launch 2 4 e (spawnPayload t cls) (fabricAddr core)
        (BitVec.ofNat 3 (s.here % 16)) t.launch t.tag false none
      set (enqueue (launchUp s t.ctx t.launch) core x)
      modThis (fun u => gSet u d 0)
      pure .seq
    else if noFallback t e then waitM .spawnQueue
    else fallback t d e

/-- A remote SPAWN (R137): asks the named core, then acts on its reply. Where the fallback would use an entry of the own tile that
is invalid, it takes PROT with G(b) (log 83); where the fallback cannot run, it asks again until an entry is free (R138,
log 84). -/
def spawnThere (t : Task) (d : BitVec 5) (cls : Dword) (dst : Nat) : M Flow := do
  let s ← get
  let w := Want.spawn dst cls.toNat
  unless asked t w do
    spawnSound t
    awaitM (accepts s (coreTile dst) t.ctx) .earlier
    creditM dst 4
  let h := mkHeader 4 t.ctx t.tag 3 false (fabricAddr dst).toNat
  let r ← ask w dst (.msg h (spawnPayload t cls))
  if r.val = 0#64 then do
    modThis (fun u => gSet u d 1)
    pure .seq
  else if r.val = 3#64 then do
    modThis (fun u => gSet u d 3)
    pure .seq
  else
    match routineEntry s (hereTile s) t.ctx cls.toNat with
    | none => trapM causeProt cls
    | some e =>
      if noFallback t e then
        throw (.hold .spawnQueue (modTask s s.here (fun u =>
          { u with pend := { u.pend with log := u.pend.log.filter (fun x => x.1 != w) } })))
      else fallback t d e

/-- SPAWN (R137). -/
def execSpawn (b a d : BitVec 5) (g : BitVec 4) (s : State) : Result :=
  scalar (.spawn b a d g) g s (fun t => do
    let x := gGet t a
    let cls := gGet t b
    let s ← get
    let remote := x.extractLsb' 23 41 == 0#41 && decide ((x.extractLsb' 0 3).toNat ≤ 3) &&
      pkgPresent s (x.extractLsb' 13 10).toNat && !groupFailed s (coreTile (coreOfFabric x.toNat))
    guardM (x == ownCore || remote) causeProt x
    guardM (decide (32 ≤ cls.toNat) && decide (cls.toNat ≤ 255)) causeProt cls
    if x = ownCore ∨ coreOfFabric x.toNat = hereCore s then spawnHere t d cls
    else spawnThere t d cls (coreOfFabric x.toNat))

/-! ### TEND, ELECT, TINFO (R138 to R141) -/

/-- The return from an inline fallback (R138), to an even address (R16). -/
def fallbackReturn (t : Task) (d : BitVec 5) : M Flow := do
  let frame := t.fbFrame
  let pc ← memRead t frame 8 0
  let g1 ← memRead t (frame + 8#64) 8 0
  let g3 ← memRead t (frame + 16#64) 8 0
  let prev ← memRead t (frame + 24#64) 8 0
  guardM (pc.toNat % 2 == 0) causeMisalign pc
  modThis (fun u =>
    let u := gSet (gSet (gSet u 1#5 g1) 3#5 g3) 2#5 (frame + 32#64)
    gSet { u with fbDest := u.fbDest.drop 1, fbFrame := prev } d 2)
  pure (.jump pc false)

/-- The end of a handler context's block: its registers go, and the message's credit returns. -/
def endBlock (s : State) (k : Nat) (b : Inline) : State :=
  returnCredit (freeSlot s k) (slotCore k) (coreTile (coreOfFabric b.sender.toNat)) 0

/-- The end of a task (R25, R139): the slot frees at once; the release follows, and the launch's counter falls when it is made and the
last tracked engine write is complete. A store that has been refused already keeps the task resident with the trap taken (R216,
R221; log 11). -/
def endTask : Task → M Flow := fun t =>
  match t.inl with
  | some b => do
    modify (fun s => endBlock s s.here b)
    pure .stay
  | none =>
    match t.fbDest with
    | d :: _ => fallbackReturn t d
    | [] => do
      refusedM t
      modify (fun s => endRelease (freeSlot s s.here) s.here t)
      pure .stay

/-- TEND. -/
def execTend (g : BitVec 4) (s : State) : Result := scalar (.tend g) g s endTask
/-- C.TEND (R48). -/
def execCTend (s : State) : Result := scalar .cTend always s endTask

/-- The tile that decides an election: in the package where the launch's first task started (R140). -/
def electHome (s : State) (ctx : BitVec 11) (launch : Word) (key : Dword) : Nat :=
  tileKey (tilePkg (coreTile ((launchAt s ctx launch).core.getD 0))) (Config.electionTile ctx.toNat launch.toNat key).toNat

/-- ELECT (R140). -/
def execElect (a d : BitVec 5) (g : BitVec 4) (s : State) : Result :=
  scalar (.elect a d g) g s (fun t => do
    let key := gGet t a
    let r ← ask (.elect key) (homeCore (electHome (← get) t.ctx t.launch key)) (.elect t.ctx.toNat t.launch.toNat key)
    modThis (fun u => gSet u d r.val)
    pure .seq)

/-- TINFO's values (R141, Table 5). -/
def tinfo (s : State) (t : Task) (sel : Nat) : Dword :=
  let c := coreAt s (hereCore s)
  let tile := hereTile s
  match sel with
  | 0 => t.sender.setWidth 64
  | 1 => t.sslot.setWidth 64
  | 2 => t.slaunch.setWidth 64
  | 3 => BitVec.ofNat 64 t.how
  | 4 => BitVec.ofNat 64 t.cls
  | 5 => BitVec.ofNat 64 (tilePkg tile * 2 ^ 30 + tile % 1024 * 2 ^ 20)
  | 6 => if t.tag.getLsbD 4 then 0 else t.tag.setWidth 64 ||| 16#64
  | 7 => BitVec.ofNat 64 c.inlineViol
  | 8 => BitVec.ofNat 64 c.malformed
  | 9 => BitVec.ofNat 64 c.stray
  | 10 => BitVec.ofNat 64 c.landDisc
  | 11 => if slotsOf (hereCore s) = 4 then 0 else BitVec.ofNat 64 (64 - spawnQueued s (hereCore s))
  | 12 => BitVec.ofNat 64 t.budget
  | 13 => BitVec.ofNat 64 (tileAt s tile).trapevDrops
  | _ => ~~~0#64

/-- TINFO (R141). -/
def execTinfo (a d : BitVec 5) (g : BitVec 4) (s : State) : Result :=
  scalar (.tinfo a d g) g s (fun t => do
    let s ← get
    modThis (fun u => gSet u d (tinfo s t (gGet t a).toNat))
    pure .seq)

/-! ### Phases (R142, R143) -/

/-- A doubleword of a header in global memory, as the task sees it: its own core's words first. -/
def readSelf (t : Task) (va : Nat) : M Dword := do
  let s ← get
  match (if isGlobal va then readHome s (herePkg s) va t.ctx.toNat t.priv 8 else .error causeXlate) with
  | .error c => trapM c (BitVec.ofNat 64 va)
  | .ok v =>
    awaitM (!ddrWaits s (herePkg s) va t.ctx.toNat) .earlier
    let word (w : Nat) (dflt : Nat) : Nat :=
      match l1Get s (hereCore s) w with
      | some x => if x.own = .clean then dflt else x.val.toNat
      | none => dflt
    pure (BitVec.ofNat 64 (word va (v % 2 ^ 32) + 2 ^ 32 * word (va + 4) (v / 2 ^ 32)))

/-- One entry of a phase header (R119, Table 5): tile, core, count. -/
def phaseEntry (w : Dword) : Nat × Nat × Nat :=
  (tileKey (w.extractLsb' 10 10).toNat (w.extractLsb' 0 10).toNat, (w.extractLsb' 20 3).toNat, (w.extractLsb' 32 32).toNat)

/-- Entries of one tile summed, with the core of its first. -/
def mergeEntries (l : List (Nat × Nat × Nat)) : List (Nat × Nat × Nat) :=
  l.foldl (fun acc e =>
    if acc.any (fun x => x.1 == e.1) then
      acc.map (fun x => if x.1 = e.1 then (x.1, x.2.1, x.2.2 + e.2.2) else x)
    else acc ++ [e]) []

/-- A declaration of this slot has yet to be accepted by its tile. -/
def declareOut (s : State) : Bool :=
  s.net.any (fun p => p.src == s.here &&
    match p.body with
    | .declare _ _ _ _ _ _ _ _ => true
    | _ => false)

/-- PHDECL (R142). -/
def execPhdecl (a : BitVec 5) (g : BitVec 4) (s : State) : Result :=
  scalar (.phdecl a g) g s (fun t => do
    if (t.pend.log.lookup (.broadcast 5)).isSome then do
      awaitM (!declareOut (← get)) (.broadcast 6)
      return .seq
    let va := gGet t a
    let place := placeOf (← get) (hereTile (← get)) va.toNat
    guardM (va.toNat % 8 == 0 && (place == .global || place == .hole)) causeProt va
    let h ← readSelf t va.toNat
    let n := (h.extractLsb' 16 16).toNat
    let slot := (h.extractLsb' 8 4).toNat
    let succ := (h.extractLsb' 0 8).toNat
    let ws ← (List.range n).mapM (fun i => readSelf t (va.toNat + 8 * (i + 1)))
    let s ← get
    let es := ws.map phaseEntry
    let ok := decide (1 ≤ n) && h.extractLsb' 12 4 == 0#4 && (decide (succ = 0) || decide (32 ≤ succ)) &&
      ws.all (fun w => w.extractLsb' 23 9 == 0#9 && decide ((w.extractLsb' 20 3).toNat ≤ 6) &&
        pkgPresent s (w.extractLsb' 10 10).toNat) &&
      es.all (fun e => granted s e.1 t.ctx grantLines slot)
    guardM ok causeProt va
    acquireM
    let merged := mergeEntries es
    let tiles := merged.map (·.1)
    let s := merged.foldl (fun s e => post s s.here (homeCore e.1) t.launch
      (.declare slot e.2.2 (h.extractLsb' 32 32) succ e.2.1 t.launch t.ctx tiles)) (← get)
    throw (.hold (.broadcast 6) (modTask s s.here (fun u =>
      { u with pend := { u.pend with log := (.broadcast 5, Reply.ok) :: u.pend.log } }))))

/-- PHSTAT (R143, Table 6). -/
def execPhstat (a d : BitVec 5) (g : BitVec 4) (s : State) : Result :=
  scalar (.phstat a d g) g s (fun t => do
    let n := (gGet t a).toNat
    let s ← get
    let tile := hereTile s
    guardM (decide (n < 16) && granted s tile t.ctx grantLines n) causeProt (gGet t a)
    let p := phaseAt (tileAt s tile) n
    let bit (x : Bool) (k : Nat) : Nat := if x then 2 ^ k else 0
    let v := (BitVec.ofInt 32 p.remain).toNat * 2 ^ 32 + p.done.toNat * 2 ^ 24 + p.lstat.toNat * 2 ^ 8 + bit p.ovr 2 +
      bit (p.decl && lineHigh s tile n) 1 + bit p.decl 0
    modThis (fun u => gSet u d (BitVec.ofNat 64 v))
    pure .seq)

/-! ### CANCEL (R144) -/

/-- A cancel of this slot has yet to reach a tile. -/
def cancelOut (s : State) : Bool :=
  s.net.any (fun p => p.src == s.here &&
    match p.body with
    | .cancel _ _ _ => true
    | _ => false)

/-- Sends the cancel to the tiles of a list, as far as the core 0 of each lends a credit, or the task has been granted it (R110): the
tiles that are left, and the state. -/
def sendCancels (t : Task) (level ctx ident : Nat) : List Nat → State → List Nat × State
  | [], s => ([], s)
  | tile :: r, s =>
    let dst := coreKey tile 0
    let send (s : State) : State := post s s.here dst t.launch (.cancel level ctx ident)
    if (t.pend.log.lookup (.credit dst 2)).isSome then sendCancels t level ctx ident r (send s)
    else if creditFree s dst (hereTile s) 2 then sendCancels t level ctx ident r (send (lend s dst (hereTile s) 2))
    else (tile :: r, s)

/-- Sends the cancel to every tile with work of the context, and waits until all have applied it. The tiles it has yet to be sent to
are kept in the slot's log. -/
def cancelM (level ctx ident : Nat) : M Flow := do
  let t ← thisTask
  let s ← get
  let noted := (t.pend.log.lookup (.broadcast 2)).map (fun r => r.data.map (·.toNat))
  let todo := noted.getD (workTiles s (BitVec.ofNat 11 ctx))
  let (left, s') := sendCancels t level ctx ident todo s
  let want : Want := match left with
    | [] => .broadcast 3
    | tile :: _ => .credit (coreKey tile 0) 2
  if noted = some left then
    awaitM (left.isEmpty && !cancelOut s) want
    pure .seq
  else
    let note : Reply := { cause := 0, val := 0, data := left.map (BitVec.ofNat 64) }
    throw (.hold want (modTask s' s'.here (fun u =>
      { u with pend := { u.pend with
          log := (.broadcast 2, note) :: u.pend.log.filter (fun x => !isCredit x && x.1 != .broadcast 2) } })))

/-- CANCEL at launch level. -/
def execCancelLaunch (a : BitVec 5) (g : BitVec 4) (s : State) : Result :=
  scalar (.cancelLaunch a g) g s (fun t => do
    guardM ((gGet t a).extractLsb' 32 32 == 0#32) causeProt (gGet t a)
    cancelM 0 t.ctx.toNat (gGet t a).toNat)

/-- CANCEL at graph level. -/
def execCancelGraph (a : BitVec 5) (g : BitVec 4) (s : State) : Result :=
  scalar (.cancelGraph a g) g s (fun t => do
    guardM (decide (1 ≤ (gGet t a).toNat) && decide ((gGet t a).toNat < 2 ^ 16)) causeProt (gGet t a)
    cancelM 1 t.ctx.toNat (gGet t a).toNat)

/-- CANCEL at phase level. -/
def execCancelPhase (a : BitVec 5) (g : BitVec 4) (s : State) : Result :=
  scalar (.cancelPhase a g) g s (fun t => do
    let s ← get
    guardM (decide ((gGet t a).toNat < 16) && granted s (hereTile s) t.ctx grantLines (gGet t a).toNat) causeProt (gGet t a)
    cancelM 2 t.ctx.toNat (gGet t a).toNat)

/-- CANCEL at job level: with a = g0 the task's own context, otherwise, at S or M, the context in G(a). -/
def execCancelJob (a : BitVec 5) (g : BitVec 4) (s : State) : Result :=
  scalar (.cancelJob a g) g s (fun t => do
    if a = 0#5 then cancelM 3 t.ctx.toNat 0
    else do
      let s ← get
      guardM (t.priv != 0#2 && decide ((gGet t a).toNat < 2 ^ 11) && inPartition s t (gGet t a).toNat) causeProt (gGet t a)
      cancelM 3 (gGet t a).toNat 0)

end Sys2Proof.Machine
end

