-- ==== Sys2Proof/Machine/Messages.lean ====
section
/-!
DEFINITION. Sys2Proof/Machine/Messages.lean: what arriving messages do, and the device's steps over launches, starts,
credits, elections and phases (spec/08_tasks_scheduling.md, spec/09_task_instructions.md; R57, R218 to R223).
-/

namespace Sys2Proof.Machine

/-! ### Arrival -/

/-- The core is a target of the message, and its NLOG is that of its class: a task's NI has checked both, a host's has not
(R106, R363). -/
def wellAimed (p : Packet) (h : Dword) (dev : Bool) : Bool :=
  dev || (targetOk (hdrClass h) p.dst && nlogOk (hdrClass h) (hdrNlog h))

/-- A step on an arriving message of a class, where `dead` is what becomes of a message of a dead context. One that is ill aimed,
or of a host that the context's partition does not list, is malformed (R106, R363); one to a host is delivered into its inbox;
one of a dead context, or one that a cancel
covers, is discarded (R118, R343); one whose context holds no grant here waits (R346); otherwise `f` handles it. Every arrival
counts for its phase slot (R120). Of the device's own messages a cancel covers a gang's LAUNCH (R372). -/
def onMessageOr (s : State) (id : Nat) (cls : Nat → Bool) (dead : Packet → Dword → Bool → State → State)
    (f : Packet → Dword → List Dword → Bool → State → State) : Result :=
  onPacket s id (fun p =>
    match msgOf p.body with
    | none => s
    | some (h, pl, dev) =>
      if !cls (hdrClass h) then s
      else
        let tile := coreTile p.dst
        let ctx := hdrCtx h
        let launch := if hdrClass h = 1 then (pl.getD 0 0).setWidth 32 else p.launch
        if !pkgPresent s (tilePkg tile) then
          let s := discardMsg s p h dev
          { s with inbox := s.inbox ++ [(tilePkg tile, h :: pl)] }
        else if !hostListed s (tilePkg tile) p.src ctx.toNat || !wellAimed p h dev then
          malformed (phaseArrive s tile (hdrTag h)) p h dev 3 (BitVec.ofNat 64 (hdrClass h))
        else if !ctxLive s ctx.toNat then
          let s := phaseArrive s tile (hdrTag h)
          if hdrClass h = 1 then malformed s p h dev 5 ((pl.getD 0 0).setWidth 32 |>.setWidth 64) else dead p h dev s
        else if !accepts s tile ctx then s
        else
          let s' := phaseArrive s tile (hdrTag h)
          if cancelled s tile ctx launch (hdrTag h) && (!dev || hdrClass h == 1) then phaseMark (discardMsg s' p h dev) tile (hdrTag h) 4#4
          else f p h pl dev s')

/-- The same, where a message of a dead context is discarded in silence (R343). -/
def onMessage (s : State) (id : Nat) (cls : Nat → Bool) (f : Packet → Dword → List Dword → Bool → State → State) : Result :=
  onMessageOr s id cls (fun p h dev s => discardMsg s p h dev) f

/-- The handler context of a core is free (R104). -/
def handlerFree (s : State) (core : Nat) : Bool := (taskAt s (handlerKey core)).isNone

/-! ### Inline blocks (R56 to R58) -/

/-- The bytes of a payload, lowest first. -/
def payloadBytes (pl : List Dword) : List Byte :=
  pl.flatMap (fun d => (List.range 8).map (fun i => d.extractLsb' (8 * i) 8))

/-- INLINE_BLOCK: the block is checked whole; one that passes occupies the handler context, one that fails is discarded and
reported (R57, R58, R108). -/
def execInlineBlock (p : Nat) (s : State) : Result :=
  onMessage s p (fun c => c == 0) (fun p h pl dev s' =>
    if !handlerFree s p.dst then s
    else
      let tile := coreTile p.dst
      let ctx := hdrCtx h
      let bytes := payloadBytes pl
      let s := charge s' tile ctx 2
      match inlineBlock bytes with
      | none =>
        let s := modCore (consume s p h dev) p.dst (fun c => { c with inlineViol := satInc c.inlineViol })
        report s p.dst (senderOf p) ctx 1 0x0E#8 0 ((halfAt bytes 0).setWidth 64) h p.launch (senderSlot p)
      | some (_, end_) =>
        let g := ((grantOf s tile ctx).map (·.2)).getD Grant.reset
        let t := freshTask s.nextId ctx (ctxPriv s ctx.toNat) 0 p.launch 0 16 8 0 (lmDword s tile (grantRtab g)) (grantCbase g)
          [] 0 0 16#5
        let t := { t with rtab := BitVec.ofNat 20 (grantRtab g) }
        let b : Inline := { code := bytes.take end_, index := 0, header := h, sender := senderOf p, sslot := senderSlot p,
                            slaunch := p.launch }
        let t := { t with slim := 0, sender := senderOf p, sslot := senderSlot p, slaunch := p.launch, inl := some b }
        { putTask (dropPacket s p.id) (handlerKey p.dst) t with nextId := s.nextId + 1 })

/-! ### Routine classes, spawns and launches (R107, R114, R117) -/

/-- A launch counts the task of a host's message from its arrival on (R116). -/
def arrivedTask (s : State) (p : Packet) (h : Dword) : State := if fromHost s p then launchUp s (hdrCtx h) p.launch else s

/-- ROUTINE_CLASS_MESSAGE: queued for a start, or discarded on an invalid entry (R107); one that would pass 65,535 start entries
waits (R348). -/
def execRoutineClassMessage (p : Nat) (s0 : State) : Result :=
  onMessage s0 p (fun c => decide (32 ≤ c)) (fun p h pl dev s =>
    let tile := coreTile p.dst
    match routineEntry s tile (hdrCtx h) (hdrClass h) with
    | none => malformed s p h dev 3 (BitVec.ofNat 64 (hdrClass h))
    | some e =>
      if 65535 ≤ queuedOn s tile (hdrCtx h) then s0
      else
        let x := entryOf 0 (hdrCtx h) p.launch 1 (hdrClass h) e pl (senderOf p) (senderSlot p) p.launch (hdrTag h) (hdrRel h)
          (if dev then none else some (slotTile p.src, hdrClass h))
        enqueue (arrivedTask (dropPacket s p.id) p h) p.dst x)

/-- Answers a spawn: 0 placed, 1 refused, 2 discarded under R107, 3 cancelled (R137). -/
def spawnAnswer (s : State) (p : Packet) (v : Dword) : State :=
  post s (niKey (coreTile p.dst)) (slotCore p.src) 0 (.reply p.id (Reply.value v))

/-- SPAWN_MESSAGE: placed in the target's spawn queue, refused, or discarded (R114, R118, R137). Its launch counts it since it was
sent (R116). At 65,535 start entries of its context on the tile it is refused, as R348 has a local SPAWN fall back (DEDUCED,
log 106). -/
def execSpawnMessage (p : Nat) (s : State) : Result :=
  onPacket s p (fun p =>
    match msgOf p.body with
    | none => s
    | some (h, pl, dev) =>
      let tile := coreTile p.dst
      let ctx := hdrCtx h
      let cls := (pl.getD 0 0).toNat
      if hdrClass h ≠ 4 then s
      else if !hostListed s (tilePkg tile) p.src ctx.toNat || !wellAimed p h dev then
        malformed (phaseArrive s tile (hdrTag h)) p h dev 3 4
      else if !ctxLive s ctx.toNat then phaseArrive (discardMsg s p h dev) tile (hdrTag h)
      else if !accepts s tile ctx then s
      else
        let s := phaseArrive s tile (hdrTag h)
        if cancelled s tile ctx p.launch (hdrTag h) then
          spawnAnswer (phaseMark (discardMsg s p h dev) tile (hdrTag h) 4#4) p 3
        else
          match routineEntry s tile ctx cls with
          | none => spawnAnswer (malformed s p h dev 3 (BitVec.ofNat 64 cls)) p 2
          | some e =>
            if spawnQueued s p.dst < 64 ∧ queuedOn s tile ctx < 65535 then
              let x := entryOf 0 ctx p.launch 2 4 e pl (senderOf p) (senderSlot p) p.launch (hdrTag h) (hdrRel h) none
              spawnAnswer (enqueue (arrivedTask (consume s p h dev) p h) p.dst x) p 0
            else spawnAnswer (discardMsg s p h dev) p 1)

/-- LAUNCH: the handler context starts the first task of a launch, and the message's credit returns (R110, R117). -/
def execLaunch (p : Nat) (s : State) : Result :=
  onMessage s p (fun c => c == 1) (fun p h pl dev s' =>
    if !handlerFree s p.dst || decide (65535 ≤ queuedOn s (coreTile p.dst) (hdrCtx h)) then s
    else
      let tile := coreTile p.dst
      let ctx := hdrCtx h
      let d0 := pl.getD 0 0
      let id : Word := d0.setWidth 32
      let cls := (d0.extractLsb' 32 8).toNat
      let s := charge s' tile ctx 8
      if (tget s.launches (launchKey ctx id)).isSome then malformed s p h dev 5 (id.setWidth 64)
      else
        match routineEntry s tile ctx cls with
        | none => malformed s p h dev 3 (BitVec.ofNat 64 cls)
        | some e =>
          let l : Launch := { Launch.fresh with
            counter := 1, record := pl.getD 1 0, status := (pl.getD 2 0).toNat, core := some p.dst, sender := senderOf p,
            sslot := senderSlot p, slaunch := p.launch }
          let s := { consume s p h dev with launches := tput s.launches (launchKey ctx id) l }
          let x := entryOf 0 ctx id 0 1 e pl (senderOf p) (senderSlot p) p.launch (hdrTag h) true none
          enqueue s p.dst x)

/-- What the completion of a launch leaves: its key, elections and cancel marks go, and its record is decremented. -/
def closeLaunch (s : State) (key : Nat) (l : Launch) : State :=
  let ctx := key / 2 ^ 32
  let id := key % 2 ^ 32
  let s := { s with
    launches := tdel s.launches key
    tiles := s.tiles.map (fun (t : Nat × Tile) =>
      (t.1, { t.2 with
        elections := t.2.elections.filter (fun e => !(e.1 == ctx && e.2.1 == id))
        cancels := t.2.cancels.filter (fun c => !(c.1 == 0 && c.2.1 == ctx && c.2.2 == id)) })) }
  deviceDec s (coreTile (l.core.getD 0)) l.record (BitVec.ofNat 11 ctx) 16#5 true

/-- LAUNCH_COMPLETE: at counter 0 the status doubleword is written under the context's rights, or the fault is reported, and
the completion record is decremented (R117, R342, R343). The report has no discarded message, and 0 for its header (log 86). -/
def execLaunchComplete (key : Nat) (s : State) : Result :=
  match tget s.launches key with
  | none => .next s
  | some l =>
    let ctx := key / 2 ^ 32
    if l.counter ≠ 0 ∨ s.kills.any (fun k => k.ctx == ctx) then .next s
    else
      let status : Dword := if l.killed then 3 else if l.error then 2 else if l.cancelled then 1 else 0
      if l.status = 0 then .next (closeLaunch s key l)
      else
        let core := l.core.getD 0
        let tile := coreTile core
        let home := homeTile s (tilePkg tile) l.status
        if ddrWaits s (tilePkg tile) l.status ctx then .next s
        else match serveWrite s home l.status 8 ctx (ctxPriv s ctx) none false (fun _ => some status) with
        | .later s => .next s
        | .done _ s => .next (closeLaunch s key l)
        | .trap c _ s =>
          let d0 := BitVec.ofNat 64 (2 ^ 63 + 13 * 2 ^ 48 + c.toNat * 2 ^ 40 + (fabricAddr core).toNat)
          let d3 := BitVec.ofNat 64 (key % 2 ^ 32 * 2 ^ 32)
          let s := post s (niKey tile) core 0
            (.own (mkHeader 15 (BitVec.ofNat 11 ctx) 16#5 2 false (fabricAddr core).toNat)
              [d0, BitVec.ofNat 64 l.status, 0, d3])
          .next (closeLaunch s key l)

/-! ### Cancels, decrements, starts -/

/-- CANCEL: the arriving cancel is applied on its tile, and a program's or a host's message on every tile that holds work
of the context (R118, R144). -/
def execCancel (p : Nat) (s : State) : Result :=
  onPacket s p (fun p =>
    match p.body with
    | .cancel level ctx ident =>
      applyCancel (returnCredit (dropPacket s p.id) p.dst (slotTile p.src) 2) (coreTile p.dst) level ctx ident
    | b =>
      match msgOf b with
      | none => s
      | some (h, pl, dev) =>
        if hdrClass h ≠ 2 then s
        else if !hostListed s (tilePkg (coreTile p.dst)) p.src (hdrCtx h).toNat then
          malformed (phaseArrive s (coreTile p.dst) (hdrTag h)) p h dev 3 2
        else
          let s := phaseArrive (consume s p h dev) (coreTile p.dst) (hdrTag h)
          let level := (pl.getD 0 0).toNat
          let ctx := if level = 3 then (pl.getD 1 0).toNat else (hdrCtx h).toNat
          let ident := if level = 3 then 0 else (pl.getD 1 0).toNat
          (workTiles s (BitVec.ofNat 11 ctx)).foldl (fun s tile => applyCancel s tile level ctx ident) s)

/-- A stray decrement: counted at the core, and reported to the sender, or, for a DEC of the device's own, into the ring of
its context on the record's tile (R113). -/
def strayDec (s : State) (p : Packet) (h name : Dword) (dev : Bool) : State :=
  let s := modCore (consume s p h dev) p.dst (fun c => { c with stray := satInc c.stray })
  if dev then report s p.dst (fabricAddr p.dst) (hdrCtx h) 4 0 0 name h 0 0
  else report s p.dst (senderOf p) (hdrCtx h) 4 0 0 name h p.launch (senderSlot p)

/-- DEC_MESSAGE: a decrement reaches a record (R113). One whose firing would pass 65,535 start entries waits (R348). -/
def execDecMessage (p : Nat) (s : State) : Result :=
  onMessage s p (fun c => c == 3) (fun p h pl dev s' =>
    let tile := coreTile p.dst
    let name := pl.getD 0 0
    let off := nameOff name
    let count := lmGet s tile (off + 4) 4
    let d := recordData s tile off (hdrCtx h)
    if count = 0 then strayDec s' p h name dev
    else if count = 1 ∧ 65535 ≤ queuedOn s tile d.1 then s
    else decRecord (consume s' p h dev) tile off (hdrCtx h) (hdrRel h))

/-- TASK_START: a core starts its next eligible entry in a free slot (R125). -/
def execTaskStart (core : Nat) (s : State) : Result := .next (startNext s core)

/-- The contexts with a queued or resident task on a tile, by grant. -/
def activeGrant (s : State) (tile : Nat) (g : Grant) : Bool :=
  grantValid g && (decide (0 < queuedOn s tile (grantCtx g)) || decide (0 < residentOn s tile (grantCtx g)))

/-- DEFICIT_REPLENISH: a share for every 100 µs of fabric time that has gone by (R124). -/
def execDeficitReplenish (tile : Nat) (s : State) : Result :=
  let now := fabricTime s (tilePkg tile) / 100000
  let t := tileAt s tile
  if now ≤ t.period then .next s
  else
    let total := ((t.grants.toList.filter (activeGrant s tile)).map grantWeight).sum
    .next (modTile s tile (fun t =>
      { t with
        period := now
        grants := t.grants.map (fun g =>
          if activeGrant s tile g then
            let share : Int := 980000 * grantWeight g / total
            { g with deficit := min (g.deficit + share * ((now - t.period : Nat) : Int)) (2 * share) }
          else g) }))

/-- CREDIT_GRANT: a free input-queue entry is lent to the oldest request that can have it (R110). -/
def execCreditGrant (core : Nat) (s : State) : Result :=
  let c := coreAt s core
  match if lends s (coreTile core) then c.wanted.find? (fun w => canLend c (slotTile w.1) w.2) else none with
  | none => .next s
  | some w =>
    let s := modCore s core (fun c => { c with wanted := c.wanted.erase w })
    match taskAt s w.1 with
    | some t =>
      if t.pend.want = some (.credit core w.2) then
        .next (giveReply (lend s core (slotTile w.1) w.2) w.1 t.pend.req Reply.ok)
      else .next s
    | none => .next s

/-! ### Atomics at the handler (R217 to R224) -/

/-- Cycles of the performing handler (R218). -/
def atomicCycles (op : Nat) : Nat := if op = 9 ∨ op = 10 ∨ op = 11 then 6 else 2

/-- An atomic performed for a packet: nothing yet, or its cause and old value. -/
def performAtomic (s : State) (p : Packet) (place : Option (Bool × Nat × Nat)) (va size ctx : Nat) (priv : BitVec 2)
    (op : Nat) (data cmp : Dword) : Served :=
  match place with
  | some (vault, tile, off) =>
    match placedCause s (BitVec.ofNat 11 ctx) vault tile off with
    | some c => .trap c (BitVec.ofNat 64 va) s
    | none =>
      if spoiltAt s (placeKey vault tile off) size then .trap causeMcheck (BitVec.ofNat 64 va) s
      else
        let (old, s) := atomicPlaced s (placeKey vault tile off) size op data cmp
        .done old s
  | none =>
    match serveWrite s (coreTile p.dst) va size ctx priv none true (atomicNew op size data cmp) with
    | .done old s => .done old (seenWords s (coreTile p.dst) (slotCore p.src) (wordsOf va size))
    | r => r

/-- The acknowledgement or reply of an atomic. -/
def atomicAnswer (s : State) (p : Packet) (posted : Bool) (cause : Cause) (old va : Dword) : State :=
  let ni := niKey (coreTile p.dst)
  let uid := ((taskAt s p.src).map (·.uid)).getD 0
  if posted then post s ni (slotCore p.src) 0 (.ack p.id uid cause va)
  else if pkgPresent s (tilePkg (slotTile p.src)) then
    post s ni (slotCore p.src) 0 (.reply p.id { cause := cause, val := old, data := [] })
  else answer s p { cause := cause, val := old, data := [] }

/-- The phase of a tagged arrival that was answered as lost (R216). -/
def lostMark (s : State) (tile : Nat) (c : Cause) (tag : BitVec 5) : State :=
  if c = causeOwnerlost then phaseMark s tile tag 8#4 else s

/-- An atomic at its performing handler: an arrival of its phase slot (R374), then R218. One of a dead context is discarded (R343), a
host's to a tile whose group has failed is refused (R376), and one that finds a lost word marks its phase (R216). While the handler
runs a block it is not free: an AMOC of that very block to a word that this handler performs waits without end (DEDUCED, log 105). -/
def runAtomic (s : State) (p : Packet) (cas : Bool) : State :=
  if !handlerFree s p.dst then s
  else
    match p.body with
    | .atomic place va size ctx priv op data cmp posted tag =>
      if cas != (op == 16) then s
      else if !hostMay s p va ctx || (fromHost s p && groupFailed s (coreTile p.dst)) then
        refuseHost s p ctx (BitVec.ofNat 64 va)
      else if fromHost s p && !groupReady s (coreTile p.dst) then s
      else
        let tile := coreTile p.dst
        let after (s : State) (ok : Bool) : State :=
          let s := returnCredit (dropPacket s p.id) p.dst (slotTile p.src) (if cas then 6 else 5)
          let s := phaseArrive s tile tag
          if ok then charge s tile (BitVec.ofNat 11 ctx) (atomicCycles op) else s
        if !ctxLive s ctx then after s false
        else match performAtomic s p place va size ctx priv op data cmp with
        | .later s => s
        | .trap c _ s => atomicAnswer (lostMark (after s false) tile c tag) p posted c 0 (BitVec.ofNat 64 va)
        | .done old s => atomicAnswer (after s true) p posted 0 old (BitVec.ofNat 64 va)
    | _ => s

/-- An atomic in a message that a program has built, of class 5 or 6: its arrival counts once, when it is performed, and its
cycles are charged to its context (R104, R120, R218). -/
def runBuiltAtomic (s0 : State) (id cls : Nat) : Result :=
  onMessage s0 id (fun c => c == cls) (fun p h pl dev s =>
    if !handlerFree s0 p.dst then s0
    else
      let va := (pl.getD 0 0).toNat
      let tile := coreTile p.dst
      let size := if Config.atomicWide pl then 8 else 4
      let op := if cls = 6 then 16 else min (Config.atomicOp pl).toNat 11
      let place := match placeOf s tile va with
        | .placed vault tile off => some (vault, tile, off)
        | _ => none
      if place.isNone && ddrWaits s0 (tilePkg tile) va (hdrCtx h).toNat then s0
      else match performAtomic s p place va size (hdrCtx h).toNat (ctxPriv s (hdrCtx h).toNat) op
          (Config.atomicOperand pl) (Config.atomicExpected pl) with
      | .later _ =>
        match performAtomic s0 p place va size (hdrCtx h).toNat (ctxPriv s (hdrCtx h).toNat) op
            (Config.atomicOperand pl) (Config.atomicExpected pl) with
        | .later s => s
        | _ => s0
      | .trap c _ s => lostMark (consume s p h dev) tile c (hdrTag h)
      | .done _ s => charge (consume s p h dev) tile (hdrCtx h) (atomicCycles op))

/-- The packet of an instruction's atomic, or a message that a program has built. -/
def isAtomic (s : State) (id : Nat) : Bool :=
  match arriving s id with
  | none => false
  | some p =>
    match p.body with
    | .atomic _ _ _ _ _ _ _ _ _ _ => true
    | _ => false

/-- AMO (R218, R220). -/
def execAmo (p : Nat) (s : State) : Result :=
  if isAtomic s p then onPacket s p (fun p => runAtomic s p false) else runBuiltAtomic s p 5
/-- CAS_MESSAGE (R223). -/
def execCasMessage (p : Nat) (s : State) : Result :=
  if isAtomic s p then onPacket s p (fun p => runAtomic s p true) else runBuiltAtomic s p 6

/-- The instruction that waited for a reply runs on with it: an atomic, an update by coordinates, or a SPAWN. -/
def resumeInstr (i : Instr) (s : State) : Result :=
  match i with
  | .amoAdd p z b a d g => execAmoAdd p z b a d g s
  | .amoAnd p z b a d g => execAmoAnd p z b a d g s
  | .amoOr p z b a d g => execAmoOr p z b a d g s
  | .amoXor p z b a d g => execAmoXor p z b a d g s
  | .amoMin p z b a d g => execAmoMin p z b a d g s
  | .amoMax p z b a d g => execAmoMax p z b a d g s
  | .amoMinn p z b a d g => execAmoMinn p z b a d g s
  | .amoMaxn p z b a d g => execAmoMaxn p z b a d g s
  | .amoXchg p z b a d g => execAmoXchg p z b a d g s
  | .amoFadd p b a d g => execAmoFadd p b a d g s
  | .amoFmin p b a d g => execAmoFmin p b a d g s
  | .amoFmax p b a d g => execAmoFmax p b a d g s
  | .cas z b a d g => execCas z b a d g s
  | .amocAdd w b a d g => execAmocAdd w b a d g s
  | .amocFadd w b a d g => execAmocFadd w b a d g s
  | .amocMin w b a d g => execAmocMin w b a d g s
  | .amocMax w b a d g => execAmocMax w b a d g s
  | .amocFmax w b a d g => execAmocFmax w b a d g s
  | .amocXchg w b a d g => execAmocXchg w b a d g s
  | .spawn b a d g => execSpawn b a d g s
  | _ => .next s

/-- A block whose pc has reached its end is over (R57). -/
def leaveBlock (k : Nat) (s : State) : State :=
  match taskAt s k with
  | none => s
  | some t =>
    match t.inl with
    | none => s
    | some b => if b.code.length ≤ t.pc.toNat then endBlock s k b else s

/-- A reply arrives: it is discarded when the slot no longer waits for it (R340), and otherwise the waiting instruction
completes with it, and a block whose last instruction that was ends (R57, R245). -/
def arriveReply (s : State) (p : Packet) (slot req : Nat) (r : Reply) : Result :=
  let s := dropPacket s p.id
  match taskAt s slot with
  | none => .next s
  | some t =>
    if t.pend.req ≠ req then .next s
    else
      let s := { giveReply s slot req r with here := slot }
      match currentInstr s slot with
      | some i =>
        match resumeInstr i s with
        | .next s => .next (leaveBlock slot s)
        | r => r
      | none => .next s

/-- The slot of a core that waits for a request. -/
def waiterOf (s : State) (core req : Nat) : Nat :=
  (((List.range 9).map (slotKey core)).find? (fun k =>
    match taskAt s k with
    | some t => t.pend.req == req && t.pend.want.isSome
    | none => false)).getD (slotKey core 15)

/-- A reply of an atomic or a spawn, at the core that waits. -/
def onReply (s : State) (id : Nat) : Result :=
  match arriving s id with
  | none => .next s
  | some p =>
    match p.body with
    | .reply req r => arriveReply s p (waiterOf s p.dst req) req r
    | _ => .next s

/-- ATOMIC_REPLY: gd is written, or the trap is taken, at the issuing core (R219). -/
def execAtomicReply (p : Nat) (s : State) : Result := onReply s p
/-- SPAWN_REPLY: the SPAWN completes, or starts the fallback (R137). -/
def execSpawnReply (p : Nat) (s : State) : Result := onReply s p

/-- POSTED_ATOMIC_ACK: the atomic is settled; the first refusal is kept for the next instruction that waits (R221). -/
def execPostedAtomicAck (p : Nat) (s : State) : Result :=
  onPacket s p (fun p =>
    match p.body with
    | .ack id _ cause va =>
      acknowledge (dropPacket s p.id) id (fun t => if cause ≠ 0#8 then refuseOut cause va id t else settleOut t id)
    | _ => s)

/-! ### Elections (R140) -/

/-- ELECT_REQUEST: 1 for the first request of a key, 0 for others; delayed while the home holds 256 other keys. -/
def execElectRequest (p : Nat) (s : State) : Result :=
  onPacket s p (fun p =>
    match p.body with
    | .elect ctx launch key =>
      let tile := coreTile p.dst
      let l := (tileAt s tile).elections
      if l.contains (ctx, launch, key) then answer (dropPacket s p.id) p (Reply.value 0)
      else if l.length < 256 then
        answer (modTile (dropPacket s p.id) tile (fun t => { t with elections := t.elections ++ [(ctx, launch, key)] })) p
          (Reply.value 1)
      else s
    | _ => s)

/-! ### Phases (R119 to R122, R126, R142, R362) -/

/-- The identity of a line-word operation (R362, Table 3). -/
def lineIdentity (op : Nat) : Dword := if op = 3 then 0xFF800000 else 0
/-- Two line words combined (R362). -/
def lineCombine (op : Nat) (a b : Dword) : Dword :=
  match op with
  | 1 => a + b
  | 2 => if a.ult b then b else a
  | 3 => BitVec.ofNat 64 (exactPattern f32 (numMax (f32Val (a.setWidth 32)) (f32Val (b.setWidth 32))))
  | _ => a

/-- PHASE_DECLARATION (R120, R142): the first declares the slot, a later one merges. -/
def execPhaseDeclaration (p : Nat) (s : State) : Result :=
  onPacket s p (fun p =>
    match p.body with
    | .declare slot count seq succ core launch ctx tiles =>
      let tile := coreTile p.dst
      let s := dropPacket s p.id
      if !ctxLive s ctx.toNat then s
      else modPhase s tile slot (fun q =>
        let total := q.remain + count
        let q := { q with remain := max total 0, ovr := q.ovr || decide (total < 0) }
        if q.decl then { q with ovr := true, tiles := (q.tiles ++ tiles).eraseDups }
        else { q with decl := true, seq := seq, succ := succ, core := core, launch := launch, ctx := ctx, tiles := tiles })
    | _ => s)

/-- A list of tiles with all that the declarations on them list, and so on. -/
def joinTiles (s : State) (n : Nat) : Nat → List Nat → List Nat
  | 0, l => l
  | k + 1, l => joinTiles s n k (l ++ l.flatMap (fun t => (phaseAt (tileAt s t) n).tiles)).eraseDups

/-- The tiles of the phase that is in progress on a tile's slot, merged declarations included (R142). -/
def phaseTiles (s : State) (tile n : Nat) : List Nat :=
  joinTiles s n s.tiles.length (phaseAt (tileAt s tile) n).tiles

/-- The line is high in every package of the phase (R121, R122). -/
def phaseOver (s : State) (tile n : Nat) : Bool :=
  let ts := phaseTiles s tile n
  let pkgs := (ts.map tilePkg).eraseDups
  (phaseAt (tileAt s tile) n).decl && ts.all (fun t => (phaseAt (tileAt s t) n).decl && lineHigh s t n) &&
    s.tiles.all (fun t => !pkgs.contains (tilePkg t.1) || lineHigh s t.1 n)

/-- A phase's status on one tile (R122). -/
def tileStatus (p : Phase) : BitVec 4 := p.status ||| (if p.ovr then 2#4 else 0)

/-- One tile clears its slot, records the completion, and sends its PHDONE (R122, R126). -/
def clearPhase (status : BitVec 4) (op : Nat) (word : Dword) (n : Nat) (s : State) (tile : Nat) : State :=
  let p := phaseAt (tileAt s tile) n
  let s := modPhase s tile n (fun q =>
    { Phase.reset with done := q.done + 1, lstat := status, lwres := if op = 0 then 0 else word })
  let s := modTile s tile (fun t =>
    { t with cancels := t.cancels.filter (fun c => !(c.1 == 2 && c.2.2 == n && c.2.1 == p.ctx.toNat)) })
  if p.succ = 0 then s
  else
    let core := coreKey tile p.core
    post s (niKey tile) core p.launch
      (.own (mkHeader 13 p.ctx 16#5 2 true (fabricAddr core).toNat)
        [status.setWidth 64, p.seq.setWidth 64, BitVec.ofNat 64 n, if op = 0 then 0 else word, BitVec.ofNat 64 p.succ])

/-- PHASE_COMPLETE: with the line high in every listed package, every listed tile clears the slot (R122, R362). -/
def execPhaseComplete (tile : Nat) (n : BitVec 4) (s : State) : Result :=
  if !phaseOver s tile n.toNat then .next s
  else
    let ts := phaseTiles s tile n.toNat
    let ps := ts.map (fun t => phaseAt (tileAt s t) n.toNat)
    let status := ps.foldl (fun a p => a ||| tileStatus p) 0#4
    let op := (ps.find? (fun p => p.lop ≠ 0)).map (·.lop) |>.getD 0
    let word := ps.foldl (fun a p => if p.lop = op then lineCombine op a p.lword else a) (lineIdentity op)
    .next (ts.foldl (clearPhase status op word n.toNat) s)

/-- PHDONE: the successor's routine is queued on the entry's core, which starts it when it can; an invalid entry is
reported on the tile itself (R122, R126). One whose context is cancelled or dead starts nothing (R118, R343), and one whose
context holds no grant there, or has 65,535 start entries, waits (R346, R348). The task's sender is the tile (log 85). -/
def execPhdone (core : Nat) (s0 : State) : Result :=
  let s := s0
  let mine (p : Packet) : Bool := p.dst == core &&
    match p.body with
    | .own h _ => hdrClass h == 13
    | _ => false
  match s.net.find? mine with
  | none => .next s
  | some p =>
    match p.body with
    | .own h pl =>
      let tile := coreTile core
      let ctx := hdrCtx h
      let s := dropPacket s p.id
      let cls := (pl.getD 4 0).toNat
      if !ctxLive s ctx.toNat || cancelled s tile ctx p.launch 16#5 then .next s
      else if !accepts s tile ctx || decide (65535 ≤ queuedOn s tile ctx) || !ownCredit s0 p then .next s0
      else
        match routineEntry s tile ctx cls with
        | none =>
          let s := modCore s core (fun c => { c with malformed := satInc c.malformed })
          .next (report s core (fabricAddr core) ctx 3 causeIllegal 0 (BitVec.ofNat 64 cls) h p.launch 0)
        | some e =>
          let x := entryOf 0 ctx p.launch 4 13 e ((pl.take 3) ++ [pl.getD 3 0]) (fabricAddr (coreKey tile 7)) 0 p.launch 16#5 true
            none
          .next (startNext (enqueue (launchUp s ctx p.launch) core x) core)
    | _ => .next s

/-! ### TRAPEV (R146) -/

/-- TRAPEV: written into the context's event ring on the tile, or dropped; for a host, into its inbox (R146). -/
def execTrapev (p : Nat) (s : State) : Result :=
  onPacket s p (fun p =>
    match msgOf p.body with
    | none => s
    | some (h, pl, _) =>
      if hdrClass h ≠ 15 then s
      else
        let tile := coreTile p.dst
        let s := dropPacket s p.id
        if !pkgPresent s (tilePkg tile) then { s with inbox := s.inbox ++ [(tilePkg tile, pl)] }
        else
          match grantOf s tile (hdrCtx h) with
          | none => modTile s tile (fun t => { t with trapevDrops := satInc t.trapevDrops })
          | some (_, g) =>
            let rt := grantRtab g
            let idx := lmGet s tile (rt + 1800) 4 % 32
            let drops := lmGet s tile (rt + 1804) 4
            let at_ := rt + 2048 + 32 * idx
            if (lmDword s tile at_).getLsbD 63 then lmPut s tile (rt + 1804) 4 ((drops + 1) % 2 ^ 32)
            else lmPut (lmPutAll s tile at_ pl) tile (rt + 1800) 4 ((idx + 1) % 32))

end Sys2Proof.Machine
end

