-- ==== Sys2Proof/Machine/Float.lean ====
section
/-!
DEFINITION. Sys2Proof/Machine/Float.lean: floating-point instructions, majors 0x0F to 0x14
(spec/06_float_instructions.md, R91 to R102).
-/

namespace Sys2Proof.Machine

/-- F(n) read as F32 (R91). -/
def fNum (t : Task) (n : BitVec 5) : Num := f32Val (fGet t n)

/-- A rounded result to fd, with its conditions (R92). -/
def roundedToF (d : BitVec 5) (r : Task → Rounded) : Task → M Flow := fun t =>
  finishFp (r t).flags (fun u => fSet u d (BitVec.ofNat 32 (r t).bits)) t

/-- The format of an FCVT floating code 0 to 3 (R99, Table 5). -/
def fcvtFmt (t : Task) (code : Nat) : Fmt :=
  match code with
  | 0 => f32
  | 1 => f16
  | 2 => b16
  | _ => fnFmt t.fnsel

/-- The exact value of an FCVT source (R99, Table 5). -/
def fcvtSource (t : Task) (code : Nat) (a : BitVec 5) : Num :=
  match code with
  | 4 => numOfInt ((gGet t a).setWidth 32).toInt
  | 5 => numOfInt ((gGet t a).setWidth 32).toNat
  | 6 => numOfInt (gGet t a).toInt
  | 7 => numOfInt (gGet t a).toNat
  | c => decodeFlt (fcvtFmt t c) (fGet t a).toNat

/-- An integer destination of FCVT (R99, Table 5). -/
def fcvtInt (code : Nat) (v : Int) : Dword :=
  match code with
  | 4 => (BitVec.ofInt 32 v).signExtend 64
  | 5 => (BitVec.ofInt 32 v).setWidth 64
  | _ => BitVec.ofInt 64 v

/-- Width and sign of an FCVT integer code. -/
def fcvtWidth (code : Nat) : Nat := if code = 4 ∨ code = 5 then 32 else 64
def fcvtSigned (code : Nat) : Bool := code == 4 || code == 6

/-- The effect of FCVT (R99, R100). -/
def convert (sc tc r : Nat) (a d : BitVec 5) : Task → M Flow := fun t =>
  let x := fcvtSource t sc a
  if tc < 4 then roundedToF d (fun t => roundTo (fcvtFmt t tc) (modeOf r) false x) t
  else
    let q := roundInt (fcvtWidth tc) (fcvtSigned tc) (modeOf r) x
    finishFp q.2 (fun u => gSet u d (fcvtInt tc q.1)) t

/-- The target of FRND: B16, F16, FN, or FN with SAT (R101). -/
def frndFmt (t : Task) (target : Nat) : Fmt :=
  match target with
  | 0 => b16
  | 1 => f16
  | _ => fnFmt t.fnsel

/-- The effect of FRND, rho the k fresh bits (R39, R101). -/
def stochastic (target k : Nat) (a d : BitVec 5) : Task → M Flow := fun t => do
  let s ← get
  let (bits, s') := drawBits s
  set s'
  let r := roundTo (frndFmt t target) (.sr k (bits.toNat % 2 ^ k)) (target == 3) (fNum t a)
  roundedToF d (fun _ => r) t

/-- FCMP's conditions (R102, Table 7). -/
inductive FCond where
  | eq | ne | lt | le | un | ord
  deriving DecidableEq, Repr

def fcondHolds (c : FCond) (a b : Num) : Bool :=
  match c, numCmp a b with
  | .eq, some .eq => true
  | .ne, some .eq => false
  | .ne, _ => true
  | .lt, some .lt => true
  | .le, some .lt => true
  | .le, some .eq => true
  | .un, none => true
  | .ord, some _ => true
  | _, _ => false

/-- LT and LE raise invalid on a NaN operand (R102). -/
def fcondRaises (c : FCond) (a b : Num) : BitVec 5 :=
  if (c = .lt ∨ c = .le) ∧ numCmp a b = none then flagInvalid else 0#5

/-- The effect of FCMP (R102). -/
def compareF (c : FCond) (a b : BitVec 5) (o : BitVec 2) (d : BitVec 3) : Task → M Flow := fun t =>
  finishFp (fcondRaises c (fNum t a) (fNum t b))
    (fun u => setPred u d o (fcondHolds c (fNum t a) (fNum t b))) t


/-- a + b (R94, R95). -/
def execFadd (b a d : BitVec 5) (g : BitVec 4) (s : State) : Result :=
  scalar (.fadd b a d g) g s (roundedToF d (fun t => fltAdd f32 (fNum t a) (fNum t b)))

/-- a − b (R94, R95). -/
def execFsub (b a d : BitVec 5) (g : BitVec 4) (s : State) : Result :=
  scalar (.fsub b a d g) g s (roundedToF d (fun t => fltSub f32 (fNum t a) (fNum t b)))

/-- a × b (R94, R95). -/
def execFmul (b a d : BitVec 5) (g : BitVec 4) (s : State) : Result :=
  scalar (.fmul b a d g) g s (roundedToF d (fun t => fltMul f32 (fNum t a) (fNum t b)))

/-- a / b (R94, R95). -/
def execFdiv (b a d : BitVec 5) (g : BitVec 4) (s : State) : Result :=
  scalar (.fdiv b a d g) g s (roundedToF d (fun t => fltDiv f32 (fNum t a) (fNum t b)))

/-- √a (R94, R95). -/
def execFsqrt (a d : BitVec 5) (g : BitVec 4) (s : State) : Result :=
  scalar (.fsqrt a d g) g s (roundedToF d (fun t => fltSqrt f32 (fNum t a)))

/-- The minimum (R96). -/
def execFmin (b a d : BitVec 5) (g : BitVec 4) (s : State) : Result :=
  scalar (.fmin b a d g) g s (toF d (fun t => BitVec.ofNat 32 (exactPattern f32 (numMin (fNum t a) (fNum t b)))))

/-- The maximum (R96). -/
def execFmax (b a d : BitVec 5) (g : BitVec 4) (s : State) : Result :=
  scalar (.fmax b a d g) g s (toF d (fun t => BitVec.ofNat 32 (exactPattern f32 (numMax (fNum t a) (fNum t b)))))

/-- Bit 31 cleared (R94). -/
def execFabs (a d : BitVec 5) (g : BitVec 4) (s : State) : Result :=
  scalar (.fabs a d g) g s (toF d (fun t => if numIsNan (fNum t a) then nanF32 else fGet t a &&& 0x7FFFFFFF#32))

/-- Bit 31 inverted (R94). -/
def execFneg (a d : BitVec 5) (g : BitVec 4) (s : State) : Result :=
  scalar (.fneg a d g) g s (toF d (fun t => if numIsNan (fNum t a) then nanF32 else fGet t a ^^^ 0x80000000#32))

/-- The bits of fa (R94). -/
def execFmov (a d : BitVec 5) (g : BitVec 4) (s : State) : Result :=
  scalar (.fmov a d g) g s (toF d (fun t => fGet t a))

/-- The class of fa (R97). -/
def execFclass (a d : BitVec 5) (g : BitVec 4) (s : State) : Result :=
  scalar (.fclass a d g) g s (toG d (fun t => BitVec.ofNat 64 (classMask (fGet t a))))

/-- The bits of fa into gd (R94). -/
def execFmvg (a d : BitVec 5) (g : BitVec 4) (s : State) : Result :=
  scalar (.fmvg a d g) g s (toG d (fun t => (fGet t a).setWidth 64))

/-- The low bits of ga into fd (R94). -/
def execFmvf (a d : BitVec 5) (g : BitVec 4) (s : State) : Result :=
  scalar (.fmvf a d g) g s (toF d (fun t => (gGet t a).setWidth 32))

/-- a × b + c, rounded once (R98). -/
def execFma (c b a d : BitVec 5) (g : BitVec 4) (s : State) : Result :=
  scalar (.fma c b a d g) g s (roundedToF d (fun t => fltFma f32 false false (fNum t a) (fNum t b) (fNum t c)))

/-- a × b − c, rounded once (R98). -/
def execFms (c b a d : BitVec 5) (g : BitVec 4) (s : State) : Result :=
  scalar (.fms c b a d g) g s (roundedToF d (fun t => fltFma f32 true false (fNum t a) (fNum t b) (fNum t c)))

/-- −(a × b + c), rounded once (R98). -/
def execFnma (c b a d : BitVec 5) (g : BitVec 4) (s : State) : Result :=
  scalar (.fnma c b a d g) g s (roundedToF d (fun t => fltFma f32 false true (fNum t a) (fNum t b) (fNum t c)))

/-- −(a × b − c), rounded once (R98). -/
def execFnms (c b a d : BitVec 5) (g : BitVec 4) (s : State) : Result :=
  scalar (.fnms c b a d g) g s (roundedToF d (fun t => fltFma f32 true true (fNum t a) (fNum t b) (fNum t c)))

/-- Converts between formats (R99, R100). -/
def execFcvt (sc tc : BitVec 3) (r a d : BitVec 5) (g : BitVec 4) (s : State) : Result :=
  scalar (.fcvt sc tc r a d g) g s (convert sc.toNat tc.toNat r.toNat a d)

/-- Rounds with SR(k) (R101). -/
def execFrnd (x : BitVec 2) (k : BitVec 4) (a d : BitVec 5) (g : BitVec 4) (s : State) : Result :=
  scalar (.frnd x k a d g) g s (stochastic x.toNat (k.toNat + 1) a d)

/-- Compares fa with fb, EQ (R102). -/
def execFcmpEq (b a : BitVec 5) (o : BitVec 2) (d : BitVec 3) (g : BitVec 4) (s : State) : Result :=
  scalar (.fcmpEq b a o d g) g s (compareF .eq a b o d)

/-- Compares fa with fb, NE (R102). -/
def execFcmpNe (b a : BitVec 5) (o : BitVec 2) (d : BitVec 3) (g : BitVec 4) (s : State) : Result :=
  scalar (.fcmpNe b a o d g) g s (compareF .ne a b o d)

/-- Compares fa with fb, LT (R102). -/
def execFcmpLt (b a : BitVec 5) (o : BitVec 2) (d : BitVec 3) (g : BitVec 4) (s : State) : Result :=
  scalar (.fcmpLt b a o d g) g s (compareF .lt a b o d)

/-- Compares fa with fb, LE (R102). -/
def execFcmpLe (b a : BitVec 5) (o : BitVec 2) (d : BitVec 3) (g : BitVec 4) (s : State) : Result :=
  scalar (.fcmpLe b a o d g) g s (compareF .le a b o d)

/-- Compares fa with fb, UN (R102). -/
def execFcmpUn (b a : BitVec 5) (o : BitVec 2) (d : BitVec 3) (g : BitVec 4) (s : State) : Result :=
  scalar (.fcmpUn b a o d g) g s (compareF .un a b o d)

/-- Compares fa with fb, ORD (R102). -/
def execFcmpOrd (b a : BitVec 5) (o : BitVec 2) (d : BitVec 3) (g : BitVec 4) (s : State) : Result :=
  scalar (.fcmpOrd b a o d g) g s (compareF .ord a b o d)

end Sys2Proof.Machine
end

