-- ==== Sys2Proof/Machine/Ring.lean ====
section
/-!
DEFINITION. Sys2Proof/Machine/Ring.lean: semaphores, and the dispatch rings with their completions and late faults
(R251, R254 to R258, R265, R275).
-/

namespace Sys2Proof.Machine

/-! ### Semaphores (R251) -/

def semAt (s : State) (tile n : Nat) : BitVec 16 := (tileAt s tile).sems.getD n 0
/-- An increment: at 65,535 it is lost and noted in SEMSTAT. -/
def semInc (s : State) (tile n : Nat) : State :=
  modTile s tile (fun t =>
    if t.sems.getD n 0 = 0xFFFF#16 then { t with semOvf := t.semOvf ||| (1#16 <<< n) }
    else { t with sems := t.sems.setIfInBounds n (t.sems.getD n 0 + 1) })
/-- A decrement of a count that is at least 1. -/
def semDec (s : State) (tile n : Nat) : State :=
  modTile s tile (fun t => { t with sems := t.sems.setIfInBounds n (t.sems.getD n 0 - 1) })

/-! ### Ring entries (R254, R257) -/

/-- The entry keeps its ring place: queued, running, suspended, or faulted and held. -/
def placeTaken (e : Command) : Bool := e.state == 1 || e.state == 2 || e.state == 5 || (e.state == 4 && e.held)
/-- The place of the next sequence number is free. -/
def ringFree (c : Core) : Bool :=
  !(c.ring.any (fun e => e.seq.toNat % 64 == c.nextSeq.toNat % 64 && placeTaken e))
/-- A command enters the ring under the next sequence number. -/
def pushCmd (s : State) (core : Nat) (e : Command) : State :=
  modCore s core (fun c =>
    { c with ring := c.ring.filter (fun x => x.seq.toNat % 64 != c.nextSeq.toNat % 64) ++ [{ e with seq := c.nextSeq }]
             nextSeq := c.nextSeq + 1 })

/-- A command of a task. -/
def newCmd (s : State) (t : Task) (word : Word) (mapD mapA mapB : BitVec 256) (args : List Dword) : Command :=
  { seq := 0, word := word, mapD := mapD, mapA := mapA, mapB := mapB, state := 1, kind := 0, addr := 0, elem := 0,
    sword := 0, origin := 0, uid := t.uid, slot := s.here, ctx := t.ctx, launch := t.launch, tag := t.tag,
    fnsel := t.fnsel, args := args, done := 0, got := [], outbox := [], notes := [], words := [],
    after := t.outs.map (·.id), remote := none, window := none, unreported := false, held := false }

/-! ### Completion and late faults -/

/-- The task of a start is still resident. -/
def uidResident (s : State) (uid : Nat) : Bool := s.tasks.any (fun t => t.2.uid == uid)

/-- What follows the end of a remote command: the DEC to its record (R265, R275). -/
def remoteDec (s : State) (core : Nat) (c : Command) : State :=
  match c.remote with
  | some (rec_, _, _, _) => deviceDecTo s (coreTile core) rec_ c.ctx
  | none => s
where
  /-- A DEC with release of the device's own; record names are checked on acceptance. -/
  deviceDecTo (s : State) (tile : Nat) (name : Dword) (ctx : BitVec 11) : State :=
    if name = 0#64 then s
    else
      let core := coreKey (tileKey (name.extractLsb' 30 10).toNat (name.extractLsb' 20 10).toNat) 0
      post s (niKey tile) core 0 (.own (mkHeader 3 ctx 16#5 0 true (fabricAddr core).toNat) [name])

/-- A command takes a late fault (R255): a task's discards what follows of that task; a remote one is reported to its sender,
with the rest of what R255 gives a fault of no resident task, and its DEC is still made (R265, R275). -/
def faultCmd (s : State) (core : Nat) (seq kind : BitVec 8) (addr : Dword) (elem : Nat) : State :=
  match cmdAt s core seq with
  | none => s
  | some c =>
    let own := c.remote.isNone
    let s := modCmd s core seq (fun e =>
      { e with state := 4, kind := kind, addr := addr, elem := min elem (2 ^ 32 - 1), unreported := own, held := own })
    match c.remote with
    | some (_, sender, sslot, slaunch) =>
      let s := report s core sender c.ctx (if coreNum core = 6 then 9 else 10) (lateCause kind) 0
        (lateValue core seq kind) 0 slaunch sslot
      let s := phaseMark s (coreTile core) c.tag 1#4
      let s := if (tget s.launches (launchKey c.ctx c.launch)).isSome then
        modLaunch s c.ctx c.launch (fun l => { l with error := true }) else s
      remoteDec s core c
    | none =>
      let s := discardLater s core c
      settleEnding (if uidResident s c.uid then s else reportLate s core c kind)

/-- A command is suspended at an element (R258); the task of one that has ended gets the KIND 7 event instead, and its
commands are discarded. -/
def suspendCmd (s : State) (core : Nat) (seq : BitVec 8) (addr : Dword) (elem : Nat) : State :=
  match cmdAt s core seq with
  | none => s
  | some c =>
    if c.remote.isNone && uidResident s c.uid then
      modCmd s core seq (fun e =>
        { e with state := 5, kind := 1, addr := addr, elem := min elem (2 ^ 32 - 1), unreported := true })
    else faultCmd s core seq 1 addr elem

/-- The command's completion signal, if its word names one (R50, R251). -/
def signalOf (w : Word) : Nat := (w.extractLsb' 23 3).toNat

/-- A command is complete: its signal, its remote DEC, and the launches that waited for it (R139, R251, R254). -/
def completeCmd (s : State) (core : Nat) (seq : BitVec 8) (signal : Bool) : State :=
  match cmdAt s core seq with
  | none => s
  | some c =>
    let s := modCmd s core seq (fun e => { e with state := 3 })
    let s := if signal ∧ signalOf c.word ≠ 0 then semInc s (coreTile core) (8 + signalOf c.word) else s
    settleEnding (remoteDec s core c)

/-- A handler of the task has returned to TLEV 0, or the task has ended: faulted entries are released, and a suspended
command goes on (R255, R258, R353). -/
def releaseHeld (s : State) (uid : Nat) : State :=
  { s with cores := s.cores.map (fun (c : Nat × Core) =>
      (c.1, { c.2 with ring := c.2.ring.map (fun e =>
        if e.uid = uid ∧ !e.unreported then
          { e with held := false, state := if e.state = 5 then 2 else e.state }
        else e) })) }

end Sys2Proof.Machine
end

