-- ==== Sys2Proof/Machine/Stream.lean ====
section
/-!
DEFINITION. Sys2Proof/Machine/Stream.lean: the vector sequencer: its start, queues, control flow and stops
(spec/10_vector_sequencer.md, R148 to R158, R165, R173; R279, R280), and the lanes its instructions work on.
-/

namespace Sys2Proof.Machine

/-- The Press core of a tile. -/
def pressOf (tile : Nat) : Nat := coreKey tile 6

/-! ### The control stream: VGO, QTEST, QCLOSE, QBIND -/

/-- VGO (R148). -/
def execVgo (a : BitVec 5) (g : BitVec 4) (s : State) : Result :=
  scalar (.vgo a g) g s (fun t => do
    let v := gGet t a
    guardM (v.extractLsb' 20 44 == 0#44 && v.extractLsb' 0 2 == 0#2) causeProt v
    let s ← get
    let tile := hereTile s
    let core := hereCore s
    awaitM (tileAt s tile).stream.isNone .stream
    awaitM (ringFree (coreAt s core)) .ring
    let seq := (coreAt s core).nextSeq
    let s := pushCmd s core { newCmd s t ((wordOf (.vgo a g)).setWidth 32) 0 0 0 [] with state := 2, origin := v }
    let st : Stream :=
      { pc := v.setWidth 48, ctx := t.ctx, fn := t.fnsel, seq := seq, uid := t.uid, launch := t.launch, tag := t.tag,
        lstart := 0, lend := 0, lcount := 0, fetch := none, word := none, ways := 0, qwait := 0, waiting := none }
    let other : Bool := (tileAt s tile).vctx.any (fun c => c != t.ctx)
    set (modTile s tile (fun x =>
      { x with
        v := if other then Vector.replicate 16 0 else x.v
        m := if other then Vector.replicate 8 0 else x.m
        vctx := some t.ctx
        qclosed := 0
        stream := some st }))
    pure .seq)

/-- QTEST (R279). -/
def execQtest (q : BitVec 3) (d : BitVec 5) (g : BitVec 4) (s : State) : Result :=
  scalar (.qtest q d g) g s (fun _ => do
    let s ← get
    let n := (queueAt s (hereTile s) q.toNat).length
    let c := if queueClosed s (hereTile s) q.toNat then 32 else 0
    modThis (fun u => gSet u d (BitVec.ofNat 64 (n + c)))
    pure .seq)

/-- QCLOSE: a release as a push makes it, then the closed flag is set (R279). -/
def execQclose (q : BitVec 3) (g : BitVec 4) (s : State) : Result :=
  scalar (.qclose q g) g s (fun _ => do
    pushReleaseM
    let s ← get
    set (modTile s (hereTile s) (fun t => queueChanged { t with qclosed := t.qclosed ||| (1#8 <<< q.toNat) } q.toNat))
    pure .seq)

/-- QBIND: one binding for a queue, one queue for a register; b = 0 unbinds (R280). -/
def execQbind (b : BitVec 5) (q : BitVec 3) (g : BitVec 4) (s : State) : Result :=
  scalar (.qbind b q g) g s (fun _ => do
    modThis (fun u =>
      let rest := u.binds.filter (fun x => x.1 != q.toNat && x.2 != b.toNat)
      { u with binds := if b = 0#5 then rest else rest ++ [(q.toNat, b.toNat)] })
    pure .seq)

/-! ### The frame of a stream's instruction -/

/-- Why a stream does not go on: it waits on a queue, or for a RESIZE of a way (R184), or a late fault stops it, with its kind and
failing address. -/
inductive VStop where
  | wait (q : Nat)
  | resize
  | fault (kind : BitVec 8) (addr : Dword)
  deriving DecidableEq, Repr

abbrev VM := StateT State (Except VStop)

/-- Where the stream goes after an instruction. -/
inductive VFlow where
  | seq
  | jump (target : Dword)
  /-- LOOP: n passes of a body of `len` halfwords (R88, R158). -/
  | loop (n : Dword) (len : BitVec 11)
  | ended
  deriving DecidableEq, Repr

def modStream (s : State) (tile : Nat) (f : Stream → Stream) : State :=
  modTile s tile (fun t => { t with stream := t.stream.map f })

/-- The stream ends, and its ring entry is complete (R150). -/
def endStream (s : State) (tile : Nat) (st : Stream) : State :=
  let s := modCmd s (pressOf tile) st.seq (fun e => { e with origin := st.pc.setWidth 64 })
  completeCmd (modTile s tile (fun t => { t with stream := none })) (pressOf tile) st.seq false

/-- A late fault stops the stream (R173): WORD stays the VGO's, ORIGIN is the stream's pc, SWORD the offending word. -/
def stopStream (s : State) (tile : Nat) (st : Stream) (kind : BitVec 8) (addr : Dword) (sword : Word) : State :=
  let s := modTile s tile (fun t => { t with stream := none })
  let s := modCmd s (pressOf tile) st.seq (fun e => { e with sword := sword, origin := st.pc.setWidth 64 })
  faultCmd s (pressOf tile) st.seq kind addr 0

/-- The same for a stop that the spec ties to no address, an illegal word or a wait on a queue: ADDR is a free value (log 18). -/
def stopUntied (s : State) (tile : Nat) (st : Stream) (kind : BitVec 8) (sword : Word) : State :=
  let (a, s) := drawOpen s
  stopStream s tile st kind a sword

/-- The address lies in the body of the stream's active loop. -/
def streamIn (st : Stream) (a : Nat) : Bool :=
  st.lcount != 0#64 && decide (st.lstart.toNat ≤ a) && decide (a < st.lend.toNat)

/-- pc past one instruction, with the loop-back of R89. -/
def streamNext (st : Stream) : Stream :=
  let nxt := st.pc + 4#48
  if streamIn st st.pc.toNat then
    if nxt.setWidth 64 = st.lend then
      if st.lcount = 1#64 then { st with lcount := 0, pc := nxt }
      else { st with lcount := st.lcount - 1, pc := st.lstart.setWidth 48 }
    else if st.lend.toNat < nxt.toNat then { st with lcount := 0, pc := nxt }
    else { st with pc := nxt }
  else { st with pc := nxt }

/-- A taken BR; one that leaves the loop's body ends the loop (R90). -/
def streamJump (st : Stream) (target : Dword) : Stream :=
  if streamIn st st.pc.toNat && !streamIn st target.toNat then { st with lcount := 0, pc := target.setWidth 48 }
  else { st with pc := target.setWidth 48 }

/-- The loop registers after the stream's LOOP (R88, R158). -/
def streamLoop (st : Stream) (n : Dword) (len : BitVec 11) : Stream :=
  let start := st.pc.setWidth 64 + 4#64
  let stop := start + (len.setWidth 64 <<< 1)
  { st with lstart := start, lend := stop, lcount := n, pc := (if n = 0#64 then stop else start).setWidth 48 }

/-- The bits at the stream's pc; those of an instruction that waits are as they were fetched (R17). -/
def fetchStream (s : State) (tile : Nat) (st : Stream) : Except (Cause × Nat × Buffer) (Encoded × Buffer) :=
  match st.word with
  | some w => .ok (.word w, st.fetch)
  | none => fetchAt s tile st.ctx st.fetch st.pc.toNat
/-- The word at the stream's pc. -/
def streamWord (s : State) (tile : Nat) (st : Stream) : Word :=
  match fetchStream s tile st with
  | .ok (.word w, _) => w
  | .ok (.half h, _) => h.setWidth 32
  | _ => 0

/-- The effect's end. A stopping instruction has no effect (R173). -/
def finishStream (tile : Nat) (st : Stream) (m : VM VFlow) (s : State) : State :=
  match m s with
  | .ok (.seq, s) => modStream s tile (fun x => { streamNext x with word := none, waiting := none, qwait := 0 })
  | .ok (.jump target, s) => modStream s tile (fun x => { streamJump x target with word := none, waiting := none, qwait := 0 })
  | .ok (.loop n len, s) => modStream s tile (fun x => { streamLoop x n len with word := none, waiting := none, qwait := 0 })
  | .ok (.ended, s) => endStream s tile st
  | .error (.wait q) =>
    modStream s tile (fun x =>
      { x with waiting := some q, qwait := if x.waiting = some q then x.qwait else 0 })
  | .error .resize => s
  | .error (.fault kind addr) => stopStream s tile st kind addr (streamWord s tile st)

/-- The bits at a task's pc, for TVAL. -/
def bitsHere (s : State) (t : Task) : Dword :=
  match fetchTask s s.here t with
  | .ok (e, _) => e.value
  | .error _ => 0

/-- The frame of every instruction of the stream: it runs for the stream of the tile; a task may not execute it (R52). -/
def vector (s : State) (body : Nat → Stream → VM VFlow) : Result :=
  if s.here = streamKey (hereTile s) then
    match (tileAt s (hereTile s)).stream with
    | none => .fault .noStream
    | some st => .next (finishStream (hereTile s) st (body (hereTile s) st) s)
  else
    match hereTask s with
    | none => .fault .noStream
    | some t => .next (takeTrap causeIllegal (bitsHere s t) s)

/-! ### Queues of the stream (R152, R153) -/

def popM (tile q : Nat) : VM Dword := do
  match popQueue (← get) tile q with
  | some (v, s) => set s; pure v
  | none => throw (.wait q)

def pushM (tile q : Nat) (v : Dword) : VM Unit := do
  match pushQueue (← get) tile q v with
  | some s => set s
  | none => throw (.wait q)

/-! ### Lanes, types and masks (R154 to R156) -/

/-- A register's 64 lanes. -/
def lanesOf (x : BitVec 2048) : List Word := (List.range 64).map (fun i => x.extractLsb' (32 * i) 32)
/-- The lower 64 lanes packed. -/
def packLanes (l : List Word) : BitVec 2048 := BitVec.ofNat 2048 (l.foldr (fun w acc => w.toNat + 2 ^ 32 * acc) 0)
def vGet (s : State) (tile : Nat) (n : BitVec 4) : List Word := lanesOf ((tileAt s tile).v[n.toNat]'n.isLt)
def vSet (s : State) (tile : Nat) (n : BitVec 4) (l : List Word) : State :=
  modTile s tile (fun t => { t with v := t.v.set n.toNat (packLanes l) n.isLt })
/-- m0 reads as all ones. -/
def mGet (s : State) (tile : Nat) (n : BitVec 3) : BitVec 64 :=
  if n = 0#3 then ~~~0#64 else (tileAt s tile).m[n.toNat]'n.isLt
/-- A write of m0 is discarded. -/
def mSet (s : State) (tile : Nat) (n : BitVec 3) (v : BitVec 64) : State :=
  if n = 0#3 then s else modTile s tile (fun t => { t with m := t.m.set n.toNat v n.isLt })
/-- The enabled lanes of a mask guard (R155). -/
def lanesOn (s : State) (tile : Nat) (g : BitVec 4) : List Bool :=
  let m := mGet s tile (g.extractLsb' 0 3)
  (List.range 64).map (fun i => m.getLsbD i != g.getLsbD 3)
/-- Writes the enabled lanes of a register. -/
def writeLanes (s : State) (tile : Nat) (d : BitVec 4) (on : List Bool) (l : List Word) : State :=
  vSet s tile d ((on.zip (l.zip (vGet s tile d))).map (fun x => if x.1 then x.2.1 else x.2.2))

/-- The format of an element of a type (R154, Table 2). -/
def laneElem (fn : BitVec 17) (t : BitVec 3) : Elem :=
  match t.toNat with
  | 0 => .flt f32
  | 1 => .int 32 true
  | 2 => .int 32 false
  | 3 => .flt b16
  | 4 => .flt f16
  | 5 => .int 16 true
  | 6 => .int 8 true
  | _ => .flt (fnFmt fn)
/-- Elements of a lane. -/
def perLane (t : BitVec 3) : Nat :=
  match t.toNat with
  | 0 | 1 | 2 => 1
  | 3 | 4 | 5 => 2
  | _ => 4
/-- Bits of an element's pattern; the bits of a byte above a narrow format are ignored. -/
def elemWidth (e : Elem) : Nat :=
  match e with
  | .int w _ => w
  | .flt f => fmtWidth f
/-- The elements of a lane, the first in the lowest bits. -/
def subs (k : Nat) (w : Word) : List Nat := (List.range k).map (fun j => w.toNat / 2 ^ (32 / k * j) % 2 ^ (32 / k))
/-- A lane of elements. -/
def joinSubs (k : Nat) (l : List Nat) : Word :=
  BitVec.ofNat 32 (l.foldr (fun x acc => x % 2 ^ (32 / k) + 2 ^ (32 / k) * acc) 0)
def lane0 (l : List Word) : Word := l.getD 0 0

end Sys2Proof.Machine
end

