-- ==== Sys2Proof/Machine/Csr.lean ====
section
/-!
DEFINITION. Sys2Proof/Machine/Csr.lean: the control and status registers and their accesses, majors 0x34 to 0x36 and the
rows that name one register's access (R11 to R15, R177 to R181, R251, R257, R262, R268, R281, R335 to R337, R345, R346,
R349, R350, R358 to R362, R364, R367, R375, R381).
-/

namespace Sys2Proof.Machine

/-! ### Grants (R345 to R348) -/

def gselSlot (t : Tile) : Nat := (t.gsel.extractLsb' 0 2).toNat
def gselWord (t : Tile) : Nat := (t.gsel.extractLsb' 2 2).toNat
def grantAt (s : State) (tile n : Nat) : Grant := (tileAt s tile).grants.getD n Grant.reset
/-- Doubleword n of a grant. -/
def grantWord (g : Grant) (n : Nat) : Dword := match n with
  | 0 => g.dw0
  | 1 => g.dw1
  | _ => g.dw2
def setGrantWord (g : Grant) (n : Nat) (v : Dword) : Grant := match n with
  | 0 => { g with dw0 := v }
  | 1 => { g with dw1 := v }
  | _ => { g with dw2 := v }

/-- GSTAT.IDLE: no resident task, and no command or stream of the context in a ring or running (R347). -/
def grantIdle (s : State) (tile : Nat) (ctx : BitVec 11) : Bool :=
  residentOn s tile ctx == 0 &&
    !(s.cores.any (fun c => coreTile c.1 == tile && c.2.ring.any (fun e => e.ctx == ctx && !cmdDone e))) &&
    !((tileAt s tile).stream.any (fun x => x.ctx == ctx))

/-- A range of LM lies in banks of a mask. -/
def inBanks (banks : BitVec 16) (off len : Nat) : Bool :=
  decide (off + len ≤ 2 ^ 20) &&
    (List.range 16).all (fun b => !(decide (off < (b + 1) * 65536) && decide (b * 65536 < off + len)) || banks.getLsbD b)

/-- The checks of R346 on the grant that would result of a write of doubleword `dw`; `m` at M. Until a slot holds a valid grant,
its doublewords are written one by one: its areas are checked once one write makes or finds it valid, and its CTX by that
write and by every write of doubleword 0 (log 44). STKBASE and RTAB are taken as they are written, multiples of 4,096 and of 8 or
not (log 93). -/
def grantOk (s : State) (tile n dw : Nat) (g : Grant) (own : BitVec 11) (m : Bool) : Bool :=
  let old := grantAt s tile n
  let live := grantValid g || grantValid old
  let mine (g : Grant) : Bool :=
    m || ((ctxAt s (grantCtx g).toNat).isSome && ctxPart s (grantCtx g).toNat == ctxPart s own.toNat)
  let ssz := (g.dw0.extractLsb' 32 4).toNat
  let anchor := anchors tile
  let others := ((List.range 4).filter (fun i => i != n)).map (grantAt s tile)
  let free (mask : Grant → BitVec 16) : Bool := others.all (fun o => !grantValid o || (mask o &&& mask g) == 0#16)
  let keeps (mask : Grant → BitVec 16) : Bool := (mask old &&& ~~~(mask g)) == 0#16
  g.dw0.extractLsb' 36 6 == 0#6 && g.dw1.extractLsb' 0 8 == 0#8 && decide (ssz ≤ 4) &&
    (!(live || dw == 0) || mine g) && (!grantValid old || mine old) &&
    (!live || (inBanks (grantBanks g) (g.dw1.extractLsb' 28 20).toNat ((if anchor then 88 else 56) * 2 ^ (11 + ssz)) &&
      inBanks (grantBanks g) (grantRtab g) (if anchor then 8704 else 6656))) &&
    free grantBanks && free grantWays && free grantSems && free grantLines &&
    (List.range 16).all (fun w => !(grantWays g).getLsbD w || wayRole s tile w == 2) &&
    (!grantValid g ||
      (decide (grantWeight g ≠ 0) &&
        (!grantValid old || grantIdle s tile (grantCtx old) ||
          (keeps grantBanks && keeps grantWays && keeps grantSems && keeps grantLines && grantCtx g == grantCtx old))))

/-- The bytes of a doubleword list, as one number, the first doubleword lowest. -/
def dwordsNat : List Nat → Nat
  | [] => 0
  | d :: r => d % 2 ^ 64 + 2 ^ 64 * dwordsNat r

/-- The contexts under which the device finds a page that any of them maps (R193). -/
def allCtxs (s : State) : List Nat := s.ctxs.map (·.1)

/-- A doubleword of the save area, as its home serves it. -/
def saveRead (s : State) (pkg va : Nat) : Nat :=
  match mappedKey s pkg va (allCtxs s) with
  | some k => (readWords s (homeTile s pkg va) va k 8).toNat
  | none => 0

/-- Copies n bytes within storage, to a destination that does not overlap. -/
def copyCells (s : State) (src dst n : Nat) : State :=
  let cells := s.mem.filter (fun c => decide (src ≤ c.1) && decide (c.1 < src + n))
  let s := storeClear s dst n
  { s with mem := cells.foldl (fun m c => cellPut m (dst + (c.1 - src)) c.2) s.mem }

/-- Full bits of 64 words from a key on, as a doubleword. -/
def fullWord (s : State) (k : Nat) : Nat :=
  (List.range 64).foldl (fun acc i => if fullGet s (k + 4 * i) then acc + 2 ^ i else acc) 0
/-- Sets the full bits of 64 words from a key on. -/
def setFullWord (s : State) (k v : Nat) : State :=
  (List.range 64).foldl (fun s i => if v.testBit i then fullSet s (k + 4 * i) else fullClear s (k + 4 * i)) s

/-- What a grant's images hold, in the order of the save area: storage key and bytes (R348, Table 5). -/
def imagesOf (tile : Nat) (g : Grant) : List (Nat × Nat) :=
  ((List.range 16).filter (fun b => (grantBanks g).getLsbD b)).map (fun b => (lmKey tile (b * 65536), 65536)) ++
    ((List.range 16).filter (fun w => (grantWays g).getLsbD w)).map (fun w => (vaultKey tile (w * 2 ^ 19), 2 ^ 19))

/-- Offsets of the images, and where they end. -/
def imageOffsets : Nat → List (Nat × Nat) → List (Nat × Nat × Nat)
  | _, [] => []
  | off, (k, n) :: r => (off, k, n) :: imageOffsets (off + n) r

/-- Puts the entries of a saved context back on their cores, without credits (R348). -/
def requeue (s : State) (tile : Nat) (ctx : BitVec 11) (dw : Nat → Dword) : State :=
  let d0 := dw 0
  let how := (d0.extractLsb' 56 8).toNat
  let cls := (d0.extractLsb' 48 8).toNat
  let core := (d0.extractLsb' 45 3).toNat
  let off := (dw 1).toNat % 2 ^ 20
  let d2 := dw 2
  let tag := d2.extractLsb' 27 5
  let payload := (List.range 8).map (fun i => dw (4 + i))
  let slaunch := (dw 3).setWidth 32
  let put (s : State) (e : Entry) : State :=
    if core = 7 then modTile { s with nextId := s.nextId + 1 } tile (fun t => { t with postq := t.postq ++ [{ e with order := s.nextId }] })
    else enqueue s (coreKey tile core) e
  if how = 3 then
    let w := lmDword s tile off
    put s { order := 0, ctx := ctx, launch := BitVec.ofNat 32 (lmGet s tile (off + 8) 4), how := 3, cls := cls,
            pri := (d0.extractLsb' 43 2).toNat, gcode := w.extractLsb' 24 2, fcode := w.extractLsb' 26 2, bexp := 0,
            entry := (w.extractLsb' 0 20).toNat, record := off, payload := [], sender := 0, sslot := 0, slaunch := 0,
            tag := tag, acquire := true, credit := none }
  else
    let rcls := if how = 0 then ((payload.getD 0 0).extractLsb' 32 8).toNat else if how = 2 then (payload.getD 0 0).toNat else cls
    let launch := if how = 0 then (payload.getD 0 0).setWidth 32 else slaunch
    match routineEntry s tile ctx rcls with
    | none => s
    | some e =>
      put s (entryOf 0 ctx launch how (if how = 0 then 1 else if how = 2 then 4 else if how = 4 then 13 else cls) e payload (d2.extractLsb' 0 23)
        (d2.extractLsb' 24 3) slaunch tag true none)

/-- Applies to the restored state the kill of its context, though it may have been revived since, and the cancels that came while it
was away (R346): entries that must not start go, and armed records that must not fire are spent. -/
def dropCancelled (s : State) (tile : Nat) (ctx : BitVec 11) : State :=
  let killed := !ctxLive s ctx.toNat || (tileAt s tile).awayKilled.contains ctx
  let hits (e : Entry) : Bool := e.ctx == ctx && (killed || cancelled s tile ctx e.launch e.tag)
  let s := s.cores.foldl (fun s c =>
    if coreTile c.1 = tile then
      let s := (c.2.entries.filter hits).foldl (fun s e => discardEntry s c.1 e) s
      modCore s c.1 (fun x => { x with entries := x.entries.filter (fun e => !hits e) })
    else s) s
  let s := ((tileAt s tile).postq.filter hits).foldl (fun s e => discardEntry s (coreKey tile 8) e) s
  let s := modTile s tile (fun t => { t with postq := t.postq.filter (fun e => !hits e) })
  let s := (tileAt s tile).records.foldl (fun s r =>
    if r.2.1 = ctx ∧ (killed ∨ cancelled s tile ctx (BitVec.ofNat 32 (lmGet s tile (r.1 + 8) 4)) r.2.2.1) then
      spendRecord s tile r.1
    else s) s
  forgetAway s tile ctx killed
where
  /-- The context is not away any more; of one that has been killed the records' hidden data go. -/
  forgetAway (s : State) (tile : Nat) (ctx : BitVec 11) (drop : Bool) : State :=
    modTile s tile (fun t =>
      { t with
        records := if drop then t.records.filter (fun r => r.2.1 != ctx) else t.records
        away := t.away.filter (fun c => c != ctx)
        awayKilled := t.awayKilled.filter (fun c => c != ctx) })

/-- The restore of a context on a tile (R348), one step. -/
def restoreGrant (s : State) (tile n : Nat) : State :=
  let pkg := tilePkg tile
  let g := grantAt s tile n
  let ctx := grantCtx g
  let base := (tileAt s tile).gsave.toNat / 4096 * 4096
  let rd (s : State) (off : Nat) : Nat := saveRead s pkg (base + off)
  let count := rd s 24
  let b := rd s 32
  let l := rd s 40
  let sems := (List.range 16).map (fun i => rd s (48 + 8 * (i / 4)) / 2 ^ (16 * (i % 4)) % 2 ^ 16)
  let imgs := imageOffsets 0x10000 (imagesOf tile g)
  let maps := 0x10000 + (imgs.map (fun x => x.2.2)).sum
  let s := imgs.foldl (fun s x =>
    (List.range (x.2.2 / 4096)).foldl (fun s i =>
      match mappedKey s pkg (base + x.1 + 4096 * i) (allCtxs s) with
      | some k => copyCells (takeRange s pkg (base + x.1 + 4096 * i) 4096) k (x.2.1 + 4096 * i) 4096
      | none => s) s) s
  let words := imgs.flatMap (fun x => (List.range (x.2.2 / 256)).map (fun i => x.2.1 + 256 * i))
  let s := (words.zip (List.range words.length)).foldl (fun s x => setFullWord s x.1 (rd s (maps + 8 * x.2))) s
  let ents := maps + 8 * words.length
  let s := modTile s tile (fun t =>
    { t with
      sems := Vector.ofFn (fun (i : Fin 16) =>
        if (grantSems g).getLsbD i then BitVec.ofNat 16 (sems.getD i 0) else t.sems.getD i 0)
      dray := tput t.dray ctx.toNat { (tget t.dray ctx.toNat).getD DrayCtx.reset with
        stashb := BitVec.ofNat 64 b, stashl := BitVec.ofNat 64 l } })
  let s := (List.range (min count 65535)).foldl (fun s i =>
    requeue s tile ctx (fun k => BitVec.ofNat 64 (rd s (ents + 96 * i + 8 * k)))) s
  dropCancelled s tile ctx

/-- A part of the save area waits at its home for a channel group (R376). -/
def areaWaits (s : State) (tile n : Nat) : Bool :=
  let pkg := tilePkg tile
  let base := (tileAt s tile).gsave.toNat / 4096 * 4096
  let bytes := ((imagesOf tile (grantAt s tile n)).map (·.2)).sum
  !ddrAll s (homePkg pkg base) && (allCtxs s).any (fun c =>
    spanWaits s pkg base (0x10000 + bytes + bytes / 32 + 96 * min (saveRead s pkg (base + 24)) 65535) c)

/-- A write of GDATA (R345, R346, R348). What a context that comes without a restore has left here as it went is not its own any
more (log 94). -/
def writeGrant (t : Task) (v : Dword) : M Unit := do
  let s ← get
  let tile := hereTile s
  let x := tileAt s tile
  let n := gselSlot x
  let dw := gselWord x
  let old := grantAt s tile n
  let g := setGrantWord old dw (if dw = 0 then v &&& ~~~0x40000000000#64 else v)
  guardM (grantOk s tile n dw g t.ctx (t.priv == 3#2)) causeProt v
  if grantValid old && !grantValid g then
    set (modGrant s tile n (fun o => { o with dw0 := o.dw0 ||| 0x80000000000#64, leaving := true }))
  else
    let fresh := grantValid g && (!grantValid old || grantCtx g != grantCtx old)
    let g := { g with
      deficit := if fresh then 0 else old.deficit
      leaving := old.leaving && grantValid g
      saving := old.saving && grantValid g
      saved := if fresh || grantCtx g != grantCtx old then none else old.saved }
    let s := modGrant s tile n (fun _ => g)
    if dw = 0 && v.getLsbD 42 && grantValid g then
      awaitM (!areaWaits s tile n) .earlier
      set (restoreGrant s tile n)
    else
      let gone := fresh && (tileAt s tile).away.contains (grantCtx g)
      set (if gone then dropCancelled.forgetAway s tile (grantCtx g) true else s)

/-! ### Reads -/

/-- The Dray core's registers of a context. -/
def drayOf (s : State) (tile : Nat) (ctx : BitVec 11) : DrayCtx := (tget (tileAt s tile).dray ctx.toNat).getD DrayCtx.reset
def modDray (s : State) (tile : Nat) (ctx : BitVec 11) (f : DrayCtx → DrayCtx) : State :=
  modTile s tile (fun t => { t with dray := tput t.dray ctx.toNat (f ((tget t.dray ctx.toNat).getD DrayCtx.reset)) })

/-- DRDATA (R257, Table 5). -/
def drData (s : State) (t : Task) : Dword :=
  match cmdAt s (hereCore s) (t.drsel.extractLsb' 0 8) with
  | none => 0
  | some c =>
    if c.ctx ≠ t.ctx then 0
    else
      let k := (t.drsel.extractLsb' 8 4).toNat
      match k with
      | 0 => BitVec.ofNat 64 (c.kind.toNat * 2 ^ 48 + c.state * 2 ^ 40 + c.seq.toNat * 2 ^ 32 + c.word.toNat)
      | 1 => c.addr
      | 2 => BitVec.ofNat 64 (c.elem * 2 ^ 32 + c.sword.toNat)
      | 3 =>
        match (tileAt s (hereTile s)).stream with
        | some st => if hereCore s = pressOf (hereTile s) ∧ isVgo c.word ∧ c.state = 2 then st.pc.setWidth 64 else c.origin
        | none => c.origin
      | _ =>
        let m := if k < 8 then c.mapD else if k < 12 then c.mapA else c.mapB
        m.extractLsb' (64 * (k % 4)) 64

/-- SEMSTAT (R251, Table 2). -/
def semStat (t : Tile) : Dword :=
  (List.range 16).foldl (fun acc i => if t.sems.getD i 0 = 0#16 then acc else acc ||| (0x10000#64 <<< i))
    (t.semOvf.setWidth 64)

/-- GSTAT of the selected slot (R335). -/
def gstat (s : State) (tile : Nat) : Dword :=
  let g := grantAt s tile (gselSlot (tileAt s tile))
  let bit (x : Bool) (k : Nat) : Nat := if x then 2 ^ k else 0
  BitVec.ofNat 64 (g.saved.getD (queuedOn s tile (grantCtx g)) % 2 ^ 16 * 2 ^ 32 + residentOn s tile (grantCtx g) % 2 ^ 16 * 2 ^ 16 +
    bit g.leaving 2 + bit (grantIdle s tile (grantCtx g)) 1 + bit (grantValid g) 0)

/-- A command of the task ahead of no suspended one is still to complete (R268). -/
def cvstatWaits (ring : List Command) (uid : Nat) : Bool :=
  (ring.takeWhile (fun e => e.state != 5)).any (fun e => e.uid == uid && !cmdDone e)

/-- PQPOP (R361): waits for an entry, and acquires with it. -/
def popBlockQueue (t : Task) : M Dword := do
  let s ← get
  let tile := hereTile s
  let x := tileAt s tile
  if !x.pqcfg.getLsbD 63 || x.pqctx != t.ctx then pure 0
  else
    match x.blocks with
    | [] => waitM .blockQueue
    | b :: r => do
      set (modTile s tile (fun x => { x with blocks := r }))
      acquireM
      pure (BitVec.ofNat 64 (2 ^ 63 + b.slot % 1024 * 2 ^ 48 + b.off))

/-- The value of a CSR that exists here. -/
def csrRead (n : Nat) (t : Task) : M Dword := do
  let s ← get
  let tile := hereTile s
  let core := hereCore s
  let x := tileAt s tile
  let p := pkgAt s (tilePkg tile)
  let d := drayOf s tile t.ctx
  match n with
  | 0x000 => pure (t.tlev.setWidth 64)
  | 0x001 => pure t.tvec
  | 0x002 => pure (t.tcause1.setWidth 64)
  | 0x003 => pure (t.tcause2.setWidth 64)
  | 0x004 => pure t.tepc1
  | 0x005 => pure t.tepc2
  | 0x006 => pure t.tval1
  | 0x007 => pure t.tval2
  | 0x008 => pure t.tsave1
  | 0x009 => pure t.tsave2
  | 0x00A => pure (t.tctl.setWidth 64)
  | 0x010 => pure t.sbase
  | 0x011 => pure t.slim
  | 0x012 => pure t.lstart
  | 0x013 => pure t.lend
  | 0x014 => pure t.lcount
  | 0x020 => pure (BitVec.ofNat 64 (s.cyc - (coreAt s core).cycBase))
  | 0x021 => do
    let (v, s) := drawBits s
    set s
    pure v
  | 0x022 => pure (BitVec.ofNat 64 t.budget)
  | 0x023 => pure (t.taskid.setWidth 64)
  | 0x024 => pure (t.launch.setWidth 64)
  | 0x025 => pure (if t.tag.getLsbD 4 then 0x10 else t.tag.setWidth 64)
  | 0x026 => pure (t.rtab.setWidth 64)
  | 0x027 => pure (t.ctx.setWidth 64)
  | 0x028 => pure (t.priv.setWidth 64)
  | 0x029 => pure (BitVec.ofNat 64 (fabricTime s (tilePkg tile)))
  | 0x02D =>
    if t.tag.getLsbD 4 then do
      let (v, s) := drawOpen s
      set s
      pure v
    else pure (phaseAt x t.tag.toNat).lwres
  | 0x030 => pure (t.fnsel.setWidth 64)
  | 0x060 => pure (x.vway.setWidth 64)
  | 0x070 => pure (semStat x)
  | 0x071 => pure (t.drsel.setWidth 64)
  | 0x072 => pure (drData s t)
  | 0x074 => pure (x.mepoch.setWidth 64)
  | 0x076 => pure (x.mcrej.setWidth 64)
  | 0x077 => do
    awaitM (!cvstatWaits (coreAt s core).ring t.uid) .earlier
    pure t.cvstat
  | 0x078 => pure d.stashb
  | 0x079 => pure d.stashl
  | 0x07A => pure d.spillb
  | 0x07B => pure d.spillf
  | 0x07C => pure d.flqt
  | 0x080 => pure (x.gsel.setWidth 64)
  | 0x081 => pure (grantWord (grantAt s tile (gselSlot x)) (gselWord x))
  | 0x082 => pure x.gsave
  | 0x083 => pure (gstat s tile)
  | 0x090 => pure x.pqcfg
  | 0x091 => popBlockQueue t
  | 0x0A0 => pure (readyWord p 0)
  | 0x0A1 => pure (readyWord p 1)
  | 0x0A2 => pure (readyWord p 2)
  | 0x0A3 => pure (p.dstep.setWidth 64)
  | 0x0A4 => pure p.pcap
  | 0x0A5 => pure p.pwr
  | 0x0A6 => pure (p.eccc.setWidth 64)
  | n =>
    if 0x040 ≤ n ∧ n < 0x050 then pure (x.bfmt.getD (n - 0x040) 0)
    else if 0x050 ≤ n ∧ n < 0x060 then pure ((x.bdrop.getD (n - 0x050) 0).setWidth 64)
    else pure 0

/-! ### Writes -/

/-- The commands of the tile's rings that run or are suspended (R179). -/
def runningOn (s : State) (tile : Nat) : List Dword :=
  s.cores.flatMap (fun c =>
    if coreTile c.1 = tile then
      (c.2.ring.filter (fun e => e.state == 2 || e.state == 5)).map (fun e => BitVec.ofNat 64 (c.1 * 256 + e.seq.toNat))
    else [])

/-- Waits for what of a list was there when the instruction first looked: it keeps, under a name of its own, what of that is there
still, with a value. -/
def awaitThese (name : Want) (v : Dword) (now : List Dword) : M Unit := do
  let t ← thisTask
  let left := match t.pend.log.lookup name with
    | some r => r.data.filter now.contains
    | none => now
  if left.isEmpty then pure ()
  else if (t.pend.log.lookup name).any (fun r => r.data == left) then waitM .earlier
  else
    let s ← get
    let keep (l : List (Want × Reply)) : List (Want × Reply) :=
      (name, { cause := 0, val := v, data := left }) :: l.filter (fun x => x.1 != name)
    throw (.hold .earlier (modTask s s.here (fun u => { u with pend := { u.pend with log := keep u.pend.log } })))

/-- Waits for the commands that ran when the access was issued (R179). No command of the tile starts meanwhile. -/
def awaitRunning : M Unit := do
  let s ← get
  awaitThese (.broadcast 4) 0 (runningOn s (hereTile s))

/-- A write of BFMTn or BDROPn at the Setter core; RO elsewhere (R177, R179, R180). -/
def writeBank (n : Nat) (word : Dword) (t : Task) (v : Dword) : M Unit := do
  let s ← get
  let tile := hereTile s
  let bank := n % 16
  if coreNum (hereCore s) ≠ 5 then pure ()
  else do
    guardM (granted s tile t.ctx grantBanks bank) causeProt v
    if n ≥ 0x050 then set (modTile s tile (fun x => { x with bdrop := x.bdrop.setIfInBounds bank (v.setWidth 32) }))
    else do
      guardM (elemOf (v.extractLsb' 0 4) (v.extractLsb' 4 17)).isSome causeIllegal word
      awaitRunning
      set (modTile (← get) tile (fun x => { x with bfmt := x.bfmt.setIfInBounds bank (v &&& 0xFFFC0000001FFFFF#64) }))

/-- A contribution to the line word of the task's slot (R362): 1 LWADD, 2 LWMAXN, 3 LWFMAX. -/
def lineWrite (op : Nat) (t : Task) (v : Dword) : M Unit := do
  if t.tag.getLsbD 4 then guardM (t.priv != 0#2) causeProt v
  else do
    let s ← get
    let tile := hereTile s
    let n := t.tag.toNat
    let p := phaseAt (tileAt s tile) n
    guardM (op != 3 || v.extractLsb' 32 32 == 0#32) causeProt v
    guardM (p.lop == 0 || p.lop == op) causeProt v
    let old := if p.lop = 0 then (if op = 3 then 0xFF800000 else 0) else p.lword
    let new : Dword :=
      match op with
      | 1 => old + v
      | 2 => if old.ult v then v else old
      | _ => BitVec.ofNat 64 (exactPattern f32 (numMax (f32Val (old.setWidth 32)) (f32Val (v.setWidth 32))))
    set (modPhase s tile n (fun q => { q with lop := op, lword := new }))

/-- Every way that a stash ring meets is DIRECT and assigned to the context (R281). -/
def stashRingOk (s : State) (tile : Nat) (ctx : BitVec 11) (base len : Nat) : Bool :=
  decide (len = 0) || (decide (base + len ≤ 2 ^ 23) && (List.range 16).all (fun w =>
    !(decide (base < (w + 1) * 2 ^ 19) && decide (w * 2 ^ 19 < base + len)) ||
      (wayRole s tile w == 2 && granted s tile ctx grantWays w)))

/-- STASHB and STASHL (R281). -/
def writeStash (len : Bool) (t : Task) (v : Dword) : M Unit := do
  let s ← get
  let tile := hereTile s
  let d := drayOf s tile t.ctx
  let base := if len then d.stashb.toNat else v.toNat
  let n := if len then v.toNat else d.stashl.toNat
  guardM (decide (v.toNat < 2 ^ 23) && v.toNat % 1024 == 0 && stashRingOk s tile t.ctx base n) causeProt v
  set (modDray s tile t.ctx (fun d => if len then { d with stashl := v } else { d with stashb := v }))

/-- PQCFG (R360). -/
def writePq (t : Task) (v : Dword) : M Unit := do
  let s ← get
  let tile := hereTile s
  let x := tileAt s tile
  let cfg := v &&& 0x80000F00FFFFFFFF#64
  let on := x.pqcfg.getLsbD 63
  if v.getLsbD 63 then do
    let blog := (v.extractLsb' 40 4).toNat
    let buf := (v.extractLsb' 0 20).toNat
    let bytes := ((v.extractLsb' 20 12).toNat + 1) * 2 ^ blog
    let banks := ((grantOf s tile t.ctx).map (fun g => grantBanks g.2)).getD 0
    guardM ((!on || x.pqctx == t.ctx) && decide (5 ≤ blog) && decide (blog ≤ 10) && buf % 1024 == 0 && inBanks banks buf bytes)
      causeProt v
    set (modTile s tile (fun x => { x with pqcfg := cfg, pqctx := t.ctx }))
  else if !on || x.pqctx == t.ctx then set (modTile s tile (fun x => { x with pqcfg := cfg, blocks := [] }))
  else pure ()

/-- A capability token (R262). -/
def issueToken (t : Task) (v : Dword) : M Dword := do
  let s ← get
  let tile := hereTile s
  let way0 := (v.extractLsb' 4 4).toNat
  let nway := (v.extractLsb' 8 4).toNat
  guardM (v.extractLsb' 18 46 == 0#46 && decide (way0 + nway ≤ 15) &&
    (List.range (nway + 1)).all (fun i => wayRole s tile (way0 + i) == 2 && granted s tile t.ctx grantWays (way0 + i)))
    causeProt v
  let x := tileAt s tile
  let exp := ((x.mepoch.toNat + (v.extractLsb' 12 6).toNat) % 128)
  let top : BitVec 40 := BitVec.ofNat 40 (tile % 1024 * 2 ^ 30 + t.ctx.toNat * 2 ^ 19 + (v.extractLsb' 0 4).toNat * 2 ^ 15 +
    way0 * 2 ^ 11 + nway * 2 ^ 7 + exp)
  pure (top ++ Config.tokenCheck tile x.keyDraw top)

/-- FNSEL's writable bits (R15). -/
def fnselOf (v : Dword) : BitVec 17 := v.setWidth 17 &&& 0x107FF#17

/-- Writes a CSR that exists here, under its field rules; the running privilege may write it, or it is RO at every privilege and
the write is ignored (R5, R349). TVEC is the writing slot's own, and the context's for starts that come after (R11, R350; log
26). -/
def csrWrite (n : Nat) (word : Dword) (t : Task) (v : Dword) : M Unit := do
  let s ← get
  let tile := hereTile s
  match n with
  | 0x001 => do
    let tv := v &&& ~~~0x1FF#64
    set { s with
      ctxs := match ctxAt s t.ctx.toNat with
        | some c => tput s.ctxs t.ctx.toNat { c with tvec := tv }
        | none => s.ctxs }
    modThis (fun u => { u with tvec := tv })
  | 0x004 => modThis (fun u => { u with tepc1 := v &&& ~~~1#64 })
  | 0x005 => modThis (fun u => { u with tepc2 := v &&& ~~~1#64 })
  | 0x008 => modThis (fun u => { u with tsave1 := v })
  | 0x009 => modThis (fun u => { u with tsave2 := v })
  | 0x00A => modThis (fun u =>
      { u with tctl := (v.setWidth 17 &&& 0x11F00#17) ||| (u.tctl &&& 0x1F#17 &&& ~~~(v.setWidth 17)) })
  | 0x011 => modThis (fun u => { u with slim := v &&& ~~~7#64 })
  | 0x012 => modThis (fun u => { u with lstart := v &&& ~~~1#64 })
  | 0x013 => modThis (fun u => { u with lend := v &&& ~~~1#64 })
  | 0x014 => modThis (fun u => { u with lcount := v })
  | 0x022 => modThis (fun u => { u with budget := min v.toNat (2 ^ 30) })
  | 0x025 =>
    if v.getLsbD 4 then modThis (fun u => { u with tag := 16#5 })
    else do
      guardM (granted s tile t.ctx grantLines (v.extractLsb' 0 4).toNat) causeProt v
      modThis (fun u => { u with tag := (v.extractLsb' 0 4).setWidth 5 })
  | 0x02A => lineWrite 1 t v
  | 0x02B => lineWrite 2 t v
  | 0x02C => lineWrite 3 t v
  | 0x030 => do
    guardM (fnValid (fnselOf v)) causeIllegal word
    modThis (fun u => { u with fnsel := fnselOf v })
  | 0x070 => set (modTile s tile (fun x => { x with semOvf := x.semOvf &&& ~~~(v.setWidth 16) }))
  | 0x071 => modThis (fun u => { u with drsel := v.setWidth 12 })
  | 0x075 => set { modTile s tile (fun x => { x with keyDraw := s.draws + 1 }) with draws := s.draws + 1 }
  | 0x077 => if v.getLsbD 63 then modThis (fun u => { u with cvstat := 0 })
  | 0x078 => writeStash false t v
  | 0x079 => writeStash true t v
  | 0x07A => set (modDray s tile t.ctx (fun d => { d with spillb := v &&& 0xFC00FFFFFFFFFFFF#64 }))
  | 0x07B => set (modDray s tile t.ctx (fun d => { d with spillf := v }))
  | 0x07C => set (modDray s tile t.ctx (fun d => { d with flqt := v &&& 0xFFFFFFFFFFE0#64 }))
  | 0x080 => do
    guardM (v.extractLsb' 4 60 == 0#60 && v.extractLsb' 2 2 != 3#2) causeProt v
    set (modTile s tile (fun x => { x with gsel := v.setWidth 4 }))
  | 0x081 => writeGrant t v
  | 0x082 => set (modTile s tile (fun x => { x with gsave := v }))
  | 0x090 => writePq t v
  | 0x0A4 => do
    guardM (decide (800 ≤ v.toNat) && decide (v.toNat ≤ 2000)) causeProt v
    set (modPkg s (tilePkg tile) (fun p => { p with pcap := v }))
  | 0x0A6 => set (modPkg s (tilePkg tile) (fun p => { p with eccc := 0 }))
  | n => if 0x040 ≤ n ∧ n < 0x060 then writeBank n word t v

/-! ### CSRR, CSRW, CSRX (R349) -/

/-- The access of a CSR: `rd` reads into gd, `wr` writes G(a), both as one step. A number that names no CSR of the core is a
failure of the access itself; the privilege has been checked before the guard (R53, R54). -/
def csrEffect (i : Instr) (c : BitVec 11) (a d : BitVec 5) (rd wr : Bool) : Task → M Flow := fun t => do
  let s ← get
  let n := c.toNat
  guardM (csrExists n (coreNum (hereCore s)) && (n != 0x073 || (rd && wr))) causeIllegal (wordOf i)
  let v := gGet t a
  if n = 0x073 then do
    let tok ← issueToken t v
    modThis (fun u => gSet u d tok)
  else do
    let old ← if rd then csrRead n t else pure 0
    if wr then csrWrite n (wordOf i) t v
    if rd then modThis (fun u => gSet u d old)
  pure .seq

/-- CSRR. -/
def execCsrr (c : BitVec 11) (d : BitVec 5) (g : BitVec 4) (s : State) : Result :=
  scalar (.csrr c d g) g s (csrEffect (.csrr c d g) c 0 d true false)

/-- CSRW. -/
def execCsrw (c : BitVec 11) (a : BitVec 5) (g : BitVec 4) (s : State) : Result :=
  scalar (.csrw c a g) g s (csrEffect (.csrw c a g) c a 0 false true)

/-- CSRX. -/
def execCsrx (c : BitVec 11) (a d : BitVec 5) (g : BitVec 4) (s : State) : Result :=
  scalar (.csrx c a d g) g s (csrEffect (.csrx c a d g) c a d true true)

/-- The access of one register by number: m 0 CSRR, 1 CSRW, 2 and 3 CSRX. -/
def csrAccess (m : BitVec 2) (n : Nat) (a d : BitVec 5) (g : BitVec 4) (s : State) : Result :=
  let c : BitVec 11 := BitVec.ofNat 11 n
  if m = 0#2 then execCsrr c d g s else if m = 1#2 then execCsrw c a g s else execCsrx c a d g s

/-! ### Accesses of one register each -/

/-- RAND: fresh bits at every read (R13). -/
def execRandRead (m : BitVec 2) (a d : BitVec 5) (g : BitVec 4) (s : State) : Result := csrAccess m 0x021 a d g s

/-- TCTL (R93). -/
def execTctlRead (m : BitVec 2) (a d : BitVec 5) (g : BitVec 4) (s : State) : Result := csrAccess m 0x00A a d g s

/-- CVSTAT (R268). -/
def execCvstatRead (m : BitVec 2) (a d : BitVec 5) (g : BitVec 4) (s : State) : Result := csrAccess m 0x077 a d g s

/-- FNSEL (R15). -/
def execFnselWrite (m : BitVec 2) (a d : BitVec 5) (g : BitVec 4) (s : State) : Result := csrAccess m 0x030 a d g s

/-- BFMTn (R177, R179). -/
def execBfmtWrite (n : BitVec 4) (m : BitVec 2) (a d : BitVec 5) (g : BitVec 4) (s : State) : Result :=
  csrAccess m (0x040 + n.toNat) a d g s

/-- BDROPn (R180). -/
def execBdropWrite (n : BitVec 4) (m : BitVec 2) (a d : BitVec 5) (g : BitVec 4) (s : State) : Result :=
  csrAccess m (0x050 + n.toNat) a d g s

/-- BUDGET (R335). -/
def execBudgetWrite (m : BitVec 2) (a d : BitVec 5) (g : BitVec 4) (s : State) : Result := csrAccess m 0x022 a d g s

/-- PHSLOT (R336). -/
def execPhslotWrite (m : BitVec 2) (a d : BitVec 5) (g : BitVec 4) (s : State) : Result := csrAccess m 0x025 a d g s

/-- GSEL (R335). -/
def execGselWrite (m : BitVec 2) (a d : BitVec 5) (g : BitVec 4) (s : State) : Result := csrAccess m 0x080 a d g s

/-- GDATA: a grant is written (R346). -/
def execGrantWrite (m : BitVec 2) (a d : BitVec 5) (g : BitVec 4) (s : State) : Result := csrAccess m 0x081 a d g s

/-- GDATA: V 0 begins a leave (R348). -/
def execGrantLeave (m : BitVec 2) (a d : BitVec 5) (g : BitVec 4) (s : State) : Result := csrAccess m 0x081 a d g s

/-- GDATA: V 1 with RST 1 restores (R348). -/
def execGrantRestore (m : BitVec 2) (a d : BitVec 5) (g : BitVec 4) (s : State) : Result := csrAccess m 0x081 a d g s

/-- MTOK (R262). -/
def execTokenIssue (m : BitVec 2) (a d : BitVec 5) (g : BitVec 4) (s : State) : Result := csrAccess m 0x073 a d g s

/-- MKEY (R262). -/
def execMkeyWrite (m : BitVec 2) (a d : BitVec 5) (g : BitVec 4) (s : State) : Result := csrAccess m 0x075 a d g s

/-- LWADD (R362). -/
def execLwadd (m : BitVec 2) (a d : BitVec 5) (g : BitVec 4) (s : State) : Result := csrAccess m 0x02A a d g s

/-- LWMAXN (R362). -/
def execLwmaxn (m : BitVec 2) (a d : BitVec 5) (g : BitVec 4) (s : State) : Result := csrAccess m 0x02B a d g s

/-- LWFMAX (R362). -/
def execLwfmax (m : BitVec 2) (a d : BitVec 5) (g : BitVec 4) (s : State) : Result := csrAccess m 0x02C a d g s

/-- PQCFG (R360). -/
def execPqcfgWrite (m : BitVec 2) (a d : BitVec 5) (g : BitVec 4) (s : State) : Result := csrAccess m 0x090 a d g s

/-- PQPOP (R361). -/
def execPqpop (m : BitVec 2) (a d : BitVec 5) (g : BitVec 4) (s : State) : Result := csrAccess m 0x091 a d g s

/-- STASHB (R281). -/
def execStashbWrite (m : BitVec 2) (a d : BitVec 5) (g : BitVec 4) (s : State) : Result := csrAccess m 0x078 a d g s

/-- STASHL (R281). -/
def execStashlWrite (m : BitVec 2) (a d : BitVec 5) (g : BitVec 4) (s : State) : Result := csrAccess m 0x079 a d g s

/-- PCAP (R381). -/
def execPcapWrite (m : BitVec 2) (a d : BitVec 5) (g : BitVec 4) (s : State) : Result := csrAccess m 0x0A4 a d g s

/-- A CSR without behaviour of its own (R349). -/
def execCsrWrite (n : BitVec 11) (m : BitVec 2) (a d : BitVec 5) (g : BitVec 4) (s : State) : Result :=
  csrAccess m n.toNat a d g s

end Sys2Proof.Machine
end

