-- ==== Sys2Proof/Machine/Maps.lean ====
section
/-!
DEFINITION. Sys2Proof/Machine/Maps.lean: tensor maps, where their elements lie, and TMSET, TMGET and TMOFS
(spec/16_engine_cores.md R252, R253; spec/17_copy_convert_instructions.md R267, R269).
-/

namespace Sys2Proof.Machine

/-- A tensor map (R252, Table 3). -/
structure TMap where
  fmt : BitVec 4
  rank : Nat
  col : Bool
  fb : Nat
  /-- 0 DENSE, 1 VOLUME, 2 INDEX, 3 META. -/
  kind : Nat
  bs : Bool
  imode : Nat
  base : Nat
  /-- Extents of dimensions 0 to 3. -/
  ext : List Nat
  /-- Strides STR1 to STR3. -/
  str : List Int
  fnp : BitVec 17
  aux : Nat
  deriving DecidableEq, Repr

/-- A map from its 32 bytes. -/
def mapOf (w : BitVec 256) : TMap :=
  { fmt := w.extractLsb' 60 4, rank := (w.extractLsb' 58 2).toNat + 1, col := w.getLsbD 57,
    fb := (w.extractLsb' 55 2).toNat, kind := (w.extractLsb' 53 2).toNat, bs := w.getLsbD 52,
    imode := (w.extractLsb' 48 4).toNat, base := (w.extractLsb' 0 48).toNat,
    ext := (List.range 4).map (fun d => (w.extractLsb' (64 + 16 * d) 16).toNat + 1),
    str := (List.range 3).map (fun d => (w.extractLsb' (128 + 21 * d) 21).toInt),
    fnp := w.extractLsb' 239 17, aux := (w.extractLsb' 192 45).toNat * 8 }

def TMap.ext0 (m : TMap) : Nat := m.ext.getD 0 1
def TMap.ext1 (m : TMap) : Nat := m.ext.getD 1 1
def TMap.ext2 (m : TMap) : Nat := m.ext.getD 2 1
/-- How many elements the map has. -/
def TMap.count (m : TMap) : Nat := m.ext.foldl (fun a e => a * e) 1
/-- The element format the map names. -/
def TMap.elem (m : TMap) : Elem := (elemOf m.fmt m.fnp).getD (.int 8 false)

/-- The map is malformed (R253). -/
def malformedMap (w : BitVec 256) : Bool :=
  let m := mapOf w
  let above (d : Nat) : Bool := decide (m.rank ≤ d)
  w.getLsbD 191 || w.extractLsb' 237 2 != 0#2 || (m.fmt != 0xB#4 && m.fnp != 0#17) || (!m.bs && m.aux != 0) ||
    (elemOf m.fmt m.fnp).isNone ||
    (List.range 4).any (fun d => above d && (m.ext.getD d 1 != 1 || (decide (0 < d) && m.str.getD (d - 1) 0 != 0))) ||
    (m.col && m.rank == 1) || (m.imode != 0 && m.kind != 2) || decide (2 < m.imode) || (m.bs && m.kind != 0) ||
    (decide (2 ≤ m.fb) && isGlobal m.base) ||
    (8 * m.base % elemBits m.elem != 0) || (m.kind == 1 && m.base % 64 != 0)

/-! ### Elements (R253, R267) -/

/-- Indices of the k-th element in element order: i0 runs fastest. -/
def TMap.indices (m : TMap) (k : Nat) : List Nat :=
  [k % m.ext0, k / m.ext0 % m.ext1, k / (m.ext0 * m.ext1) % m.ext2, k / (m.ext0 * m.ext1 * m.ext2)]
/-- The place of indices in element order. -/
def TMap.order (m : TMap) (ix : List Nat) : Nat :=
  ix.getD 0 0 + m.ext0 * (ix.getD 1 0 + m.ext1 * (ix.getD 2 0 + m.ext2 * ix.getD 3 0))
/-- The element offset of indices under an orientation. -/
def TMap.offset (m : TMap) (col : Bool) (ix : List Nat) : Int :=
  let s1 := m.str.getD 0 0
  let s := [if col then s1 else 1, if col then 1 else s1, m.str.getD 1 0, m.str.getD 2 0]
  (ix.zip s).foldl (fun a x => a + (x.1 : Int) * x.2) 0

/-- Where an element lies: its address, the package whose memory that names, the bit of its byte, its width in bits, its place and
its format. -/
structure Spot where
  va : Nat
  pkg : Nat
  bit : Nat
  bits : Nat
  place : Place
  elem : Elem
  deriving DecidableEq, Repr

/-- BFMTn of the bank of an LM offset, and the format it names (R177). -/
def bankReg (s : State) (tile off : Nat) : Dword := (tileAt s tile).bfmt.getD (off / 2 ^ 16) bfmtReset
def bankElem (s : State) (tile off : Nat) : Elem :=
  (elemOf ((bankReg s tile off).extractLsb' 0 4) ((bankReg s tile off).extractLsb' 4 17)).getD (.flt f32)

/-- The format of an element at a place: the bank's in LM, the map's elsewhere (R267). -/
def placeElem (s : State) (m : TMap) (p : Place) : Elem :=
  match p with
  | .placed false t off => bankElem s t off
  | _ => m.elem

/-- Bits of the map's elements: the width of the bank of BASE for one in LM. -/
def mapBits (s : State) (tile : Nat) (m : TMap) : Nat :=
  if m.kind = 1 then elemBits m.elem else elemBits (placeElem s m (placeOf s tile m.base))

/-- The spot of a byte address. -/
def spotAt (s : State) (tile : Nat) (m : TMap) (va bit bits : Nat) : Spot :=
  let p := placeOf s tile va
  { va := va, pkg := tilePkg tile, bit := bit, bits := bits, place := p, elem := placeElem s m p }

/-- The spot of an element by its indices. -/
def spotOf (s : State) (tile : Nat) (m : TMap) (col : Bool) (ix : List Nat) : Spot :=
  let bits := mapBits s tile m
  let at_ : Int := 8 * (m.base : Int) + m.offset col ix * bits
  spotAt s tile m ((at_ / 8) % 2 ^ 64).toNat (at_ % 8).toNat bits

/-- The address of the scale byte of an element (R33): one a block, in block order. -/
def TMap.scaleAddr (m : TMap) (ix : List Nat) : Nat :=
  m.aux + ((ix.getD 3 0 * m.ext2 + ix.getD 2 0) * m.ext1 + ix.getD 1 0) * ((m.ext0 + 31) / 32) + ix.getD 0 0 / 32

/-! ### TMAP (R269) -/

/-- The map a task holds in a register. -/
def tmReg (t : Task) (n : BitVec 4) : Option (BitVec 256) := tget t.tms n.toNat

/-- The address checks of TMSET and TMGET. -/
def checkMapAddr (t : Task) (a : BitVec 5) : M Unit := do
  let ea := gGet t a
  guardM (!(a == 2#5 && ea.ult t.slim)) causeStacklim ea
  guardM (ea.toNat % 32 == 0) causeMisalign ea

/-- TMSET: four weak loads; a malformed image leaves the register as it was. -/
def execTmset (a : BitVec 5) (d g : BitVec 4) (s : State) : Result :=
  scalar (.tmset a d g) g s (fun t => do
    checkMapAddr t a
    let ea := gGet t a
    let ds ← (List.range 4).mapM (fun i => memRead t (ea + BitVec.ofNat 64 (8 * i)) 8 0)
    let w := BitVec.ofNat 256 (ds.foldr (fun d acc => d.toNat + 2 ^ 64 * acc) 0)
    guardM (!malformedMap w) causeProt ea
    modThis (fun u => { u with tms := tput u.tms d.toNat w })
    pure .seq)

/-- TMGET: four weak stores. -/
def execTmget (a : BitVec 5) (d g : BitVec 4) (s : State) : Result :=
  scalar (.tmget a d g) g s (fun t => do
    match tmReg t d with
    | none => trapM causeProt (wordOf (.tmget a d g))
    | some w => do
      checkMapAddr t a
      for i in List.range 4 do
        memWrite t (gGet t a + BitVec.ofNat 64 (8 * i)) 8 0 (w.extractLsb' (64 * i) 64)
      pure .seq)

/-- TMOFS: BASE moves by a signed count of elements of the map's FMT. -/
def execTmofs (a : BitVec 5) (d g : BitVec 4) (s : State) : Result :=
  scalar (.tmofs a d g) g s (fun t => do
    match tmReg t d with
    | none => trapM causeProt (wordOf (.tmofs a d g))
    | some w => do
      let m := mapOf w
      let n := (gGet t a).toInt
      let bits := elemBits m.elem
      let base : Int := (8 * (m.base : Int) + n * bits) / 8
      guardM (m.kind != 1 && !(bits == 4 && n % 2 != 0) && decide (0 ≤ base) && decide (base < 2 ^ 48)) causeProt (gGet t a)
      let w := (w &&& ~~~0xFFFFFFFFFFFF#256) ||| BitVec.ofInt 256 base
      guardM (!malformedMap w) causeProt (gGet t a)
      modThis (fun u => { u with tms := tput u.tms d.toNat w })
      pure .seq)

end Sys2Proof.Machine
end

