-- ==== Sys2Proof/Machine/System.lean ====
section
/-!
DEFINITION. Sys2Proof/Machine/System.lean: TRAP, TRET, CTXKILL and RESIZE, the firmware's calls, and the device's steps over
budgets, kills, leaves and epochs (spec/23_traps_preemption.md; R184, R193 to R196, R259, R262, R285).
-/

namespace Sys2Proof.Machine

/-! ### TRAP, TRET, CTXKILL (R351 to R354) -/

/-- The g registers that a firmware call takes its arguments from (R352, Table 7). -/
def callArgs (n : Nat) : List Nat :=
  match n with
  | 1 | 6 => [4, 5, 6, 7]
  | 3 => [4, 5, 6]
  | 2 | 8 => [4, 5]
  | 4 | 5 | 7 => [4]
  | _ => []

/-- TRAP: a system call of the program's own, whose TEPC is the next instruction (R22), or a firmware call (R351). -/
def execTrap (a : BitVec 5) (g : BitVec 4) (s : State) : Result :=
  scalar (.trap a g) g s (fun t => do
    let v := gGet t a
    if v.getLsbD 63 then do
      guardM (t.priv != 0#2) causePriv v
      let n := (v.extractLsb' 0 16).toNat
      soundM t (callArgs n)
      if v.extractLsb' 16 47 ≠ 0#47 ∨ n = 0 ∨ 8 < n then do
        modThis (fun u => gSet u 4#5 2)
        pure .seq
      else
        match t.pend.log.lookup (.firmware n) with
        | some r => do
          modThis (fun u => gSet u 4#5 r.val)
          pure .seq
        | none => waitM (.firmware n)
    else do
      modify (takeTrapAt causeSyscall (t.pc.setWidth 64 + 4#64) v)
      pure .stay)

/-- TRET (R23, R353): at TLEV 0 ILLEGAL; a return to TLEV 0 releases what the task's faulted commands held. -/
def execTret (g : BitVec 4) (s : State) : Result :=
  scalar (.tret g) g s (fun t => do
    guardM (t.tlev != 0#2) causeIllegal (wordOf (.tret g))
    modThis (fun u => { returnTask u with pend := .idle })
    if t.tlev = 1#2 then modify (fun s => releaseHeld s t.uid)
    pure .stay)

/-- The kill record of CTXKILL (R344, Table 3). -/
def ctxkillRecord (s : State) (k : Nat) (t : Task) (ctx : Nat) : List Dword :=
  [BitVec.ofNat 64 (ctx * 2 ^ 41 + 2 ^ 40 + t.taskid.toNat), 0, t.ctx.setWidth 64, 0, 0, 0, 0, 0, 0, 0, 0,
   t.launch.setWidth 64, (fabricAddr (slotCore k)).setWidth 64,
   BitVec.ofNat 64 (fabricTime s (tilePkg (slotTile k))), 0, 0]

/-- CTXKILL (R354): kills, and retires when it is answered that the record has been appended; a task of the killed context is
terminated then. A kill that is under way already is waited for in the same way (R343). -/
def execCtxkill (a : BitVec 5) (g : BitVec 4) (s : State) : Result :=
  scalar (.ctxkill a g) g s (fun t => do
    let v := gGet t a
    guardM (v.extractLsb' 11 53 == 0#53) causeProt v
    let s ← get
    let ctx := v.toNat
    guardM (inPartition s t ctx) causeProt v
    match t.pend.log.lookup (.kill ctx) with
    | some _ => pure .seq
    | none =>
      if s.kills.any (fun k => k.ctx == ctx) then waitM (.kill ctx)
      else if ctxLive s ctx then
        throw (.hold (.kill ctx) (killContext s (v.setWidth 11) (ctxkillRecord s s.here t ctx) (some s.here)))
      else pure .seq)

/-- A task that has killed its own context is terminated, after the record (R354). -/
def endKiller (s : State) (k : Nat) : State :=
  if s.tasks.any (fun x => x.2.ctx.toNat == k) then
    settleEnding (s.tasks.foldl (fun (s : State) (x : Nat × Task) =>
      if x.2.ctx.toNat = k then terminate s x.1 false else s) s)
  else s

/-- The CTXKILLs that waited for the record of a context retire (R354). -/
def answerKillers (s : State) (k : Nat) : State :=
  s.tasks.foldl (fun (s : State) (x : Nat × Task) =>
    if x.2.pend.want = some (.kill k) then giveReply s x.1 x.2.pend.req Reply.ok else s) s

/-- KILL_RECORD: once every packet of the context has been performed or discarded, the record is appended to the partition's
kill ring, or, with no ring, goes to the partition manager; then its launches complete (R343, R344). -/
def execKillRecord (k : Nat) (s : State) : Result :=
  match s.kills.find? (fun x => x.ctx == k) with
  | none => .next s
  | some x =>
    if s.net.any (fun p => bodyCtx p.body == some k) then .next s
    else
      let rec_ := (x.record.take 14) ++ [BitVec.ofNat 64 x.others, 0]
      let close (s : State) : State :=
        let s := answerKillers (endKiller s k) k
        { s with
          kills := s.kills.filter (fun y => y.ctx != k)
          launches := s.launches.map (fun l =>
            if l.1 / 2 ^ 32 = k then (l.1, { l.2 with killed := true, counter := 0 }) else l) }
      match (partAt s (ctxPart s k)).kring with
      | none => .next { close s with manager := s.manager ++ [(ctxPart s k, rec_)] }
      | some (pkg, d) =>
        if logFull s pkg d then .next s
        else
          let at_ := logBase s pkg d + 128 * (logHead s pkg d % 2 ^ logSize s pkg d)
          let s := (rec_.zip (List.range 16)).foldl (fun s w => storePut s (ddrKey pkg (at_ + 8 * w.2)) 8 w.1.toNat) s
          .next (close (storePut s (ddrKey pkg (d + 16)) 8 ((logHead s pkg d + 1) % 2 ^ 64)))
where
  /-- The context a packet names. -/
  bodyCtx (b : Body) : Option Nat :=
    match b with
    | .msg h _ => some (hdrCtx h).toNat
    | .own h _ => some (hdrCtx h).toNat
    | .fill _ ctx _ _ _ _ => some ctx
    | .reg _ ctx _ _ _ => some ctx
    | .strong _ _ ctx _ _ _ => some ctx
    | .placed _ _ _ _ ctx _ _ _ _ _ => some ctx
    | .ldf _ _ _ _ ctx _ => some ctx
    | .atomic _ _ _ ctx _ _ _ _ _ _ => some ctx
    | .alloc _ _ _ ctx _ => some ctx
    | .logEntry _ ctx _ _ _ _ => some ctx
    | .volCount _ ctx _ _ => some ctx
    | _ => none

/-! ### RESIZE (R184, R285) -/

def roleIn (v : Nat) (w : Nat) : Nat := v / 2 ^ (2 * w) % 4

/-- One way takes its new role: a way that becomes DIRECT holds zeros with empty full bits; one that stops being DIRECT is
withdrawn from every grant. -/
def changeWay (s : State) (tile w role : Nat) : State :=
  let k := vaultKey tile (w * 2 ^ 19)
  let withdraws := wayRole s tile w == 2
  let s := if role = 2 then fullClearRange (storeClear s k (2 ^ 19)) k (2 ^ 19) else s
  modTile s tile (fun t =>
    { t with
      vway := (t.vway &&& ~~~(3#32 <<< (2 * w))) ||| (BitVec.ofNat 32 role <<< (2 * w))
      grants := t.grants.map (fun g =>
        if !withdraws then g else { g with dw0 := g.dw0 &&& ~~~(0x10000#64 <<< w) }) })

/-- The lowest and the highest offset of a map's elements, in elements, under an orientation. -/
def TMap.span (m : TMap) (col : Bool) : Int × Int :=
  let s1 := m.str.getD 0 0
  let s := [if col then s1 else 1, if col then 1 else s1, m.str.getD 1 0, m.str.getD 2 0]
  (m.ext.zip s).foldl (fun a x =>
    let d := ((x.1 : Int) - 1) * x.2
    (a.1 + min d 0, a.2 + max d 0)) (0, 0)

/-- The ranges of addresses in which a map's elements and scale bytes lie, the first and the last of each. -/
def TMap.ranges (m : TMap) : List (Int × Int) :=
  let bits : Int := elemBits m.elem
  if m.kind = 1 then []
  else
    [false, true].map (fun c =>
      let r := m.span c
      ((m.base : Int) + r.1 * bits / 8, (m.base : Int) + (r.2 * bits + bits - 1) / 8)) ++
      (if m.bs then
        [((m.aux : Int), (m.aux : Int) + ((m.ext.drop 1).foldl (· * ·) 1 * ((m.ext0 + 31) / 32) : Nat) - 1)] else [])

/-- A range of addresses, seen from a tile, meets a vault way of a tile. -/
def meetsWay (origin tile way : Nat) (r : Int × Int) : Bool :=
  let windows : List Nat := (if origin = tile then [0x800000 + way * 2 ^ 19] else []) ++
    (if tilePkg origin = tilePkg tile then [0x200000000 + tile % 1024 * 2 ^ 23 + way * 2 ^ 19] else [])
  windows.any (fun w => decide (r.1 < (w : Int) + 2 ^ 19) && decide ((w : Int) ≤ r.2))

/-- A command uses a vault way of a tile (R184): its operands may lie in it, or the stash ring of its context does; a stream, when
it has accessed the way. -/
def cmdUses (s : State) (core : Nat) (c : Command) (tile way : Nat) : Bool :=
  if isVgo c.word then
    coreTile core == tile && (tileAt s tile).stream.any (fun st => st.seq == c.seq && st.ways.getLsbD way)
  else
    [c.mapD, c.mapA, c.mapB].any (fun w => (mapOf w).ranges.any (meetsWay (coreTile core) tile way)) ||
      (coreTile core == tile && !c.args.isEmpty &&
        let d := drayOf s tile c.ctx
        decide (d.stashb.toNat < (way + 1) * 2 ^ 19) && decide (way * 2 ^ 19 < d.stashb.toNat + d.stashl.toNat))

/-- What uses a way of a list already: the commands that run or are suspended, on any tile, and the LDFs that wait at the tile for
words of the way. -/
def usersOf (s : State) (tile : Nat) (ways : List Nat) : List Dword :=
  s.cores.flatMap (fun c =>
    (c.2.ring.filter (fun e => (e.state == 2 || e.state == 5) && ways.any (cmdUses s c.1 e tile))).map
      (fun e => BitVec.ofNat 64 (c.1 * 256 + e.seq.toNat))) ++
    ((tileAt s tile).ldfs.filter (fun l => ldfLive s l && ways.any (fun w =>
      decide (vaultKey tile (w * 2 ^ 19) ≤ l.key) && decide (l.key < vaultKey tile ((w + 1) * 2 ^ 19))))).map
        (fun l => BitVec.ofNat 64 (2 ^ 63 + l.req))

/-- A queued command does not start yet: a write of a bank's format is waited with on its tile (R179), or a RESIZE is to change a
way that it uses (R184). -/
def startHeld (s : State) (core : Nat) (c : Command) : Bool :=
  s.tasks.any (fun x =>
    (slotTile x.1 == coreTile core && (x.2.pend.log.lookup (.broadcast 4)).isSome) ||
      ((x.2.pend.log.lookup (.broadcast 7)).isSome &&
        (List.range 16).any (fun w => resizing s (slotTile x.1) w && cmdUses s core c (slotTile x.1) w)))

/-- RESIZE: new accesses to the ways that change wait, and so does RESIZE, for the commands and the LDFs that use them already; every
other access is performed in a step (R184). -/
def execResize (a : BitVec 5) (g : BitVec 4) (s : State) : Result :=
  scalar (.resize a g) g s (fun t => do
    let v := gGet t a
    let s ← get
    let tile := hereTile s
    let assigned (w : Nat) : Bool := (tileAt s tile).grants.toList.any (fun g => grantValid g && (grantWays g).getLsbD w)
    let bad (w : Nat) : Bool :=
      let old := wayRole s tile w
      let new := roleIn v.toNat w
      new == 3 || (assigned w && ((old == 2 && new == 0) || (old == 0 && new == 2)))
    guardM (v.extractLsb' 32 32 == 0#32 && !((List.range 16).any bad)) causeProt v
    let changing := (List.range 16).filter (fun w => wayRole s tile w != roleIn v.toNat w)
    awaitThese (.broadcast 7) v (usersOf s tile changing)
    set (changing.foldl (fun s w => changeWay s tile w (roleIn v.toNat w)) s)
    pure .seq)

/-! ### Firmware calls (R193 to R196, R352) -/

/-- The waiting TRAP of a slot has its answer. -/
def firmwareReply (s : State) (slot status : Nat) : Result :=
  match taskAt s slot with
  | none => .next s
  | some t =>
    let s := { giveReply s slot t.pend.req (Reply.value (BitVec.ofNat 64 status)) with here := slot }
    match currentInstr s slot with
    | some (.trap a g) => execTrap a g s
    | _ => .next s

/-- What a call answers: its status, and the state after. -/
abbrev Called := Nat × State

/-- A firmware call is made by a slot that waits for it; it is not complete while `f` answers nothing. -/
def firmware (n slot : Nat) (s : State) (f : Task → Option Called) : Result :=
  match taskAt s slot with
  | none => .next s
  | some t =>
    if t.pend.want = some (.firmware n) then
      match f t with
      | some (status, s') => firmwareReply s' slot status
      | none => .next s
    else .next s

/-- Page bytes of a size code. -/
def pageBytes (size : Nat) : Nat := 2 ^ (12 + 9 * size)
/-- A leaf entry of Table 4: rights bits [6:0] with V and LEAF set, at a physical address. -/
def leafEntry (pa rights : Nat) : Dword := BitVec.ofNat 64 (pa / 4096 * 4096) ||| BitVec.ofNat 64 (rights % 2 ^ 7) ||| 0x11#64

/-- The address of the table entry of an address at a level, and the entry met, walking down to level `stop`. -/
def findEntry (s : State) (pkg va : Nat) (stop : Nat) : Nat → Nat → Option (Nat × Dword × Nat)
  | 0, _ => none
  | level + 1, base =>
    let at_ := base + 8 * (va / 2 ^ (12 + 9 * level) % 512)
    let e : Dword := BitVec.ofNat 64 (storeGet s (ddrKey pkg at_) 8)
    if level + 1 ≤ stop then some (at_, e, level + 1)
    else if pteValid e (level + 1) && !e.getLsbD 4 then
      findEntry s pkg va stop level ((e.extractLsb' 12 28).toNat * 4096)
    else some (at_, e, level + 1)

/-- Frames that hold page tables: those the firmware has taken, and the contexts' roots. -/
def tableFrames (s : State) (pkg : Nat) : List Nat := (pkgAt s pkg).tables ++ s.ctxs.map (fun c => c.2.root / 4096)

/-- A frame for a page table: the highest that is neither mapped nor a table (log 20). -/
def freeFrame (s : State) (pkg : Nat) : Nat :=
  let used (f : Nat) : Bool := (tget s.frames (pkg * 2 ^ 28 + f)).isSome || (tableFrames s pkg).contains f
  ((List.range (s.frames.length + (tableFrames s pkg).length + 1)).map (fun i => 2 ^ 28 - 1 - i)).find? (fun f => !used f)
    |>.getD 0

/-- Makes the tables down to a level exist; the number of levels still to make bounds it. -/
def makeTables (s : State) (pkg va root stop : Nat) : Nat → State
  | 0 => s
  | n + 1 =>
    match findEntry s pkg va stop 4 root with
    | none => s
    | some (at_, e, level) =>
      if level ≤ stop ∨ e.getLsbD 0 then s
      else
        let f := freeFrame s pkg
        let s := storeClear s (ddrKey pkg (f * 4096)) 4096
        let s := storePut s (ddrKey pkg at_) 8 (f * 4096 + 1)
        makeTables (modPkg s pkg (fun p => { p with tables := f :: p.tables })) pkg va root stop n

/-- R194, step 2: the words of a page that any core has registered reach storage, and every core drops its lines, grants and
fills of the page. -/
def dropPage (s : State) (pkg va bytes : Nat) : State :=
  let s := takeRange s pkg va bytes
  let inPage (w : Nat) : Bool := decide (va ≤ w) && decide (w < va + bytes)
  { s with
    cores := s.cores.map (fun (c : Nat × Core) =>
      if va < 2 ^ 47 ∧ tilePkg (coreTile c.1) ≠ pkg then c
      else (c.1, { c.2 with
        l1 := c.2.l1.filter (fun w => !inPage w.1)
        grants := c.2.grants.filter (fun x => !inPage x.1)
        fills := c.2.fills.map (fun f => if inPage f.line then { f with stale := true } else f) }))
    tasks := s.tasks.map (fun (x : Nat × Task) =>
      (x.1, { x.2 with pend := { x.2.pend with log := x.2.pend.log.filter (fun y =>
        match y.1 with
        | .fill line _ => !inPage line
        | _ => true) } })) }

/-- The page of a call lies in global memory and is aligned. -/
def pageOk (va size : Nat) : Bool := isGlobal va && va % pageBytes size == 0

/-- The single-mapping rule would break (R193), or the page is another partition's (log 98). -/
def mappingBreaks (s : State) (pkg va pa count part : Nat) : Bool :=
  let vpn := va / 4096
  let pfn := pa / 4096
  s.frames.any (fun f =>
    let fr := f.1 % 2 ^ 28
    f.1 / 2 ^ 28 == pkg &&
      ((decide (pfn ≤ fr) && decide (fr < pfn + count) && (f.2.vpn != vpn + (fr - pfn) || f.2.part != part)) ||
        (decide (vpn ≤ f.2.vpn) && decide (f.2.vpn < vpn + count) && fr != pfn + (f.2.vpn - vpn)))) ||
    (tableFrames s pkg).any (fun f => decide (pfn ≤ f) && decide (f < pfn + count))

/-- A change of a leaf waits for the registrations of words of the page that are on their way to the home (R194, R201): what the
home has not recorded yet would be missed by step 2. -/
def afterRegs (s : State) (pkg va bytes : Nat) (x : Called) : Option Called :=
  let late (p : Packet) : Bool :=
    match p.body with
    | .reg w _ _ _ _ => decide (va ≤ w) && decide (w < va + bytes) && tilePkg (coreTile p.dst) == pkg
    | _ => false
  if s.net.any late then none else some x

/-- MAP (R352, Table 7). -/
def callMap (s : State) (slot : Nat) (t : Task) : Option Called :=
  let va := (gGet t 4#5).toNat
  let pa := (gGet t 5#5).toNat
  let g6 := (gGet t 6#5).toNat
  let ctx := (gGet t 7#5).toNat
  let size := g6 % 4
  let pkg := homePkg (tilePkg (slotTile slot)) va
  let e := leafEntry pa (g6 / 16)
  if size = 3 ∨ g6 / 4 % 4 ≠ 0 ∨ 2 ^ 11 ≤ g6 ∨ 2 ^ 11 ≤ ctx ∨ !pageOk va size ∨ pa % pageBytes size ≠ 0 ∨ 2 ^ 40 ≤ pa ∨
      !pteValid e (size + 1) ∨ !pkgPresent s pkg then some (2, s)
  else if !inPartition s t ctx ∨ (ctxAt s ctx).isNone then some (3, s)
  else
    let part := ctxPart s ctx
    let count := pageBytes size / 4096
    let root := ((ctxAt s ctx).map (·.root)).getD 0
    if mappingBreaks s pkg va pa count part then some (1, s)
    else
      let s' := makeTables s pkg va root (size + 1) 4
      match findEntry s' pkg va (size + 1) 4 root with
      | some (at_, old, level) =>
        if level ≠ size + 1 ∨ (old.getLsbD 0 && !old.getLsbD 4) then some (1, s)
        else
          let s := storePut s' (ddrKey pkg at_) 8 e.toNat
          let s := if old.getLsbD 0 then dropPage s pkg va (pageBytes size) else s
          afterRegs s pkg va (pageBytes size) (0, { s with frames := (List.range count).foldl (fun fr i =>
            let k := pkg * 2 ^ 28 + pa / 4096 + i
            match tget fr k with
            | some _ => fr
            | none => tput fr k { dirty := false, part := part, vpn := va / 4096 + i }) s.frames })
      | none => some (4, s)

/-- The leaf of an address under a context: where its entry lies, the entry, and its level. -/
def leafOf (s : State) (pkg va ctx : Nat) : Option (Nat × Dword × Nat) :=
  match findEntry s pkg va 1 4 (((ctxAt s ctx).map (·.root)).getD 0) with
  | some (at_, e, level) => if pteValid e level && e.getLsbD 4 then some (at_, e, level) else none
  | none => none

/-- UNMAP (R352, R369): the leaf goes; a 4 KiB page that no context maps any more leaves the frame map; lost marks of its words
are cleared. -/
def callUnmap (s : State) (slot : Nat) (t : Task) : Option Called :=
  let va := (gGet t 4#5).toNat
  let ctx := (gGet t 5#5).toNat
  let pkg := homePkg (tilePkg (slotTile slot)) va
  if 2 ^ 11 ≤ ctx ∨ !isGlobal va ∨ !pkgPresent s pkg then some (2, s)
  else if !inPartition s t ctx ∨ (ctxAt s ctx).isNone then some (3, s)
  else
    match leafOf s pkg va ctx with
    | none => some (2, s)
    | some (at_, e, level) =>
      let bytes := pageBytes (level - 1)
      let base := va / bytes * bytes
      let pfn := (e.extractLsb' 12 28).toNat
      let s := storePut (dropPage s pkg base bytes) (ddrKey pkg at_) 8 0
      let mapped (va : Nat) : Bool := (allCtxs s).any (fun c => (translate s pkg va c).isSome)
      let first := pkg * 2 ^ 28 + pfn
      let s := { s with frames := s.frames.filter (fun f =>
        !(decide (first ≤ f.1) && decide (f.1 < first + bytes / 4096)) || mapped (base + 4096 * (f.1 - first))) }
      afterRegs s pkg base bytes (0, { s with tiles := s.tiles.map (fun (x : Nat × Tile) =>
        if tilePkg x.1 = pkg then
          (x.1, { x.2 with lostWords := x.2.lostWords.filter (fun w => !(decide (base ≤ w) && decide (w < base + bytes))) })
        else x) })

/-- RIGHTS (R194, R352). -/
def callRights (s : State) (slot : Nat) (t : Task) : Option Called :=
  let va := (gGet t 4#5).toNat
  let ctx := (gGet t 5#5).toNat
  let g6 := (gGet t 6#5).toNat
  let pkg := homePkg (tilePkg (slotTile slot)) va
  if 2 ^ 11 ≤ ctx ∨ !isGlobal va ∨ !pkgPresent s pkg ∨ g6 / 4 % 4 ≠ 0 ∨ 2 ^ 11 ≤ g6 then some (2, s)
  else if !inPartition s t ctx ∨ (ctxAt s ctx).isNone then some (3, s)
  else
    match leafOf s pkg va ctx with
    | none => some (2, s)
    | some (at_, e, level) =>
      let new := leafEntry ((e.extractLsb' 12 28).toNat * 4096) (g6 / 16)
      if g6 % 4 ≠ level - 1 ∨ !pteValid new level then some (2, s)
      else
        let bytes := pageBytes (level - 1)
        afterRegs s pkg (va / bytes * bytes) bytes
          (0, storePut (dropPage s pkg (va / bytes * bytes) bytes) (ddrKey pkg at_) 8 new.toNat)

/-- CLEAN (R195, R352): the granule's DIRTY bit is cleared, with the steps of R194. -/
def callClean (s : State) (slot : Nat) (t : Task) : Option Called :=
  let va := (gGet t 4#5).toNat
  let pkg := homePkg (tilePkg (slotTile slot)) va
  if !isGlobal va ∨ va % 4096 ≠ 0 then some (2, s)
  else
    match s.frames.find? (fun f => f.1 / 2 ^ 28 == pkg && f.2.vpn == va / 4096) with
    | none => some (2, s)
    | some (k, f) =>
      if t.priv ≠ 3#2 ∧ f.part ≠ ctxPart s t.ctx.toNat then some (3, s)
      else
        let s := dropPage s pkg va 4096
        afterRegs s pkg va 4096 (0, { s with frames := tput s.frames k { f with dirty := false } })

/-- LOGTAIL (R196, R352): moves TAIL, at most up to HEAD and never back. -/
def callLogtail (s : State) (slot : Nat) (t : Task) : Called :=
  let pkg := tilePkg (slotTile slot)
  let part := ctxPart s t.ctx.toNat
  let v := (gGet t 4#5).toNat
  match (partAt s part).log with
  | none => (2, s)
  | some d =>
    if v < logTail s pkg d ∨ logHead s pkg d < v then (2, s)
    else if v = logTail s pkg d then (0, s)
    else
      (0, { storePut s (ddrKey pkg (d + 24)) 8 v with
        parts := tput s.parts part { partAt s part with exitSent := false } })

/-- The frame of a table root is one that R193 lets hold a page table: no context maps it in any package, and it is no inner table of
another. -/
def rootOk (s : State) (root : Nat) : Bool :=
  s.pkgs.all (fun p => !p.2.present ||
    ((tget s.frames (p.1 * 2 ^ 28 + root / 4096)).isNone && !p.2.tables.contains (root / 4096)))
/-- A new table root is an empty table, in every package; one that is a context's root already stays as it is (log 20). -/
def emptyRoot (s : State) (root : Nat) : State :=
  if s.ctxs.any (fun c => c.2.root == root) then s
  else s.pkgs.foldl (fun s p => if p.2.present then storeClear s (ddrKey p.1 root) 4096 else s) s

/-- CTXSET (R352): creates a context of the caller's partition, or revives a dead one, once the kill of it is over. A partition has
one supervisor (R334): another is malformed while the first lives (log 87), and so is a TVEC whose bits [8:0] are not 0 (log 97). -/
def callCtxset (s : State) (t : Task) : Option Called :=
  let ctx := (gGet t 4#5).toNat
  let priv := (gGet t 5#5).toNat
  let root := (gGet t 6#5).toNat
  let tvec := gGet t 7#5
  if 2 ^ 11 ≤ ctx ∨ 1 < priv ∨ root % 4096 ≠ 0 ∨ 2 ^ 40 ≤ root ∨ tvec.extractLsb' 0 9 ≠ 0#9 then some (2, s)
  else if ctxLive s ctx then some (1, s)
  else if (ctxAt s ctx).isSome ∧ !inPartition s t ctx then some (3, s)
  else if s.kills.any (fun k => k.ctx == ctx) then none
  else if priv = 1 ∧ (s.ctxs.any (fun c => c.2.priv == 1#2 && c.2.part.toNat == ctxPart s t.ctx.toNat && !c.2.dead)) then
    some (2, s)
  else if !rootOk s root then some (1, s)
  else
    let part := ctxPart s t.ctx.toNat
    let p := partAt s part
    let sup := if priv = 1 then some ctx else if p.sup = some ctx then none else p.sup
    let c : Ctx := { part := BitVec.ofNat 6 part, priv := BitVec.ofNat 2 priv, root := root, tvec := tvec, dead := false }
    some (0, { emptyRoot s root with
      ctxs := tput s.ctxs ctx c
      parts := if sup = p.sup then s.parts else tput s.parts part { p with sup := sup }
      tiles := s.tiles.map (fun (x : Nat × Tile) =>
        (x.1, { x.2 with cancels := x.2.cancels.filter (fun y => y.2.1 != ctx) })) })

/-- KRING (R344, R352). -/
def callKring (s : State) (slot : Nat) (t : Task) : Called :=
  let pa := (gGet t 4#5).toNat
  let part := ctxPart s t.ctx.toNat
  if pa % 8 ≠ 0 ∨ 2 ^ 40 ≤ pa then (2, s)
  else (0, { s with parts := tput s.parts part { partAt s part with kring := some (tilePkg (slotTile slot), pa) } })

/-- HOSTLIST (R352, R363): in every package of the domain. -/
def callHostlist (s : State) (t : Task) : Called :=
  let n := (gGet t 4#5).toNat
  let op := (gGet t 5#5).toNat
  let part := ctxPart s t.ctx.toNat
  if 1 < op ∨ 1024 ≤ n ∨ pkgPresent s n ∨ !Config.isHost n then (2, s)
  else
    let p := partAt s part
    let names := ((s.pkgs.filter (fun x => x.2.present)).map (fun x => hostName x.1 n))
    (0, { s with parts := tput s.parts part { p with
      hosts := names.foldl (fun l h => if op = 1 then nput l h else ndel l h) p.hosts } })

/-- MAP. -/
def execMap (slot : Nat) (s : State) : Result := firmware 1 slot s (callMap s slot)
/-- UNMAP. -/
def execUnmap (slot : Nat) (s : State) : Result := firmware 2 slot s (callUnmap s slot)
/-- RIGHTS. -/
def execRights (slot : Nat) (s : State) : Result := firmware 3 slot s (callRights s slot)
/-- CLEAN. -/
def execClean (slot : Nat) (s : State) : Result := firmware 4 slot s (callClean s slot)
/-- LOGTAIL. -/
def execLogtail (slot : Nat) (s : State) : Result := firmware 5 slot s (fun t => some (callLogtail s slot t))
/-- CTXSET. -/
def execCtxset (slot : Nat) (s : State) : Result := firmware 6 slot s (callCtxset s)
/-- KRING. -/
def execKring (slot : Nat) (s : State) : Result := firmware 7 slot s (fun t => some (callKring s slot t))
/-- HOSTLIST. -/
def execHostlist (slot : Nat) (s : State) : Result := firmware 8 slot s (fun t => some (callHostlist s t))

/-! ### Budgets (R26, R341, R342) -/

/-- The budget has reached 0: BUDGET becomes pending, and the grace begins. -/
def expire (t : Task) : Task :=
  if t.budget = 0 ∧ t.grace = none ∧ t.inl.isNone then { t with budgetDue := true, grace := some 65536 } else t

/-- BUDGET_EXPIRY. -/
def execBudgetExpiry (slot : Nat) (s : State) : Result := .next (modTask s slot expire)

/-- TASK_TERMINATION: a task whose grace has run out is terminated and reported. -/
def execTaskTermination (slot : Nat) (s : State) : Result :=
  match taskAt s slot with
  | none => .next s
  | some t => if t.grace = some 0 then .next (terminate s slot true) else .next s

/-! ### Leave (R347, R348) -/

/-- The class whose routine entry an entry was made from, for PHDONE starts. -/
def classOfEntry (s : State) (tile : Nat) (e : Entry) : Nat :=
  ((List.range 224).find? (fun i =>
    match routineEntry s tile e.ctx (32 + i) with
    | some w => (w.extractLsb' 0 20).toNat == e.entry && w.extractLsb' 59 2 == e.gcode && w.extractLsb' 57 2 == e.fcode &&
        (w.extractLsb' 48 5).toNat == e.bexp && (w.extractLsb' 61 2).toNat == e.pri
    | none => false)).elim 0 (32 + ·)

/-- A start entry as the save area holds it: twelve doublewords (R348). -/
def entryWords (s : State) (tile core : Nat) (e : Entry) : List Dword :=
  let cls := if e.how = 4 then classOfEntry s tile e else e.cls
  [BitVec.ofNat 64 (e.how * 2 ^ 56 + cls % 256 * 2 ^ 48 + core * 2 ^ 45 + e.pri * 2 ^ 43), BitVec.ofNat 64 e.record,
   BitVec.ofNat 64 (e.sender.toNat + e.sslot.toNat * 2 ^ 24 + e.tag.toNat * 2 ^ 27), e.slaunch.setWidth 64] ++
    (e.payload ++ List.replicate 8 0).take 8

/-- Insertion by the order of R125. -/
def insertEntry (e : Nat × Entry) : List (Nat × Entry) → List (Nat × Entry)
  | [] => [e]
  | x :: r =>
    if e.2.pri > x.2.pri ∨ (e.2.pri = x.2.pri ∧ e.2.order < x.2.order) then e :: x :: r else x :: insertEntry e r

/-- The start entries of a context on a tile, with their cores, in the order of R125. -/
def savedEntries (s : State) (tile : Nat) (ctx : BitVec 11) : List (Nat × Entry) :=
  let mine := s.cores.flatMap (fun c =>
    if coreTile c.1 = tile then (c.2.entries.filter (fun e => e.ctx == ctx)).map (fun e => (coreNum c.1, e)) else [])
  let post := ((tileAt s tile).postq.filter (fun e => e.ctx == ctx)).map (fun e => (7, e))
  (mine ++ post).foldr insertEntry []

/-- A context that maps an address, and the storage key it gives it. -/
def anyKey (s : State) (pkg va : Nat) : Option (Nat × Nat) :=
  (allCtxs s).findSome? (fun c => (mappedKey s pkg va [c]).map (fun k => (c, k)))

/-- Writes doublewords to global memory for the device (log 46). -/
def savePut (pkg : Nat) : Nat → List Dword → HM Unit
  | _, [] => pure ()
  | va, d :: r => do
    match anyKey (← get) pkg va with
    | none => pure ()
    | some (c, k) =>
      ddrH pkg va c
      dirtyH k va c
      modify (fun s =>
        let home := homeTile s pkg va
        dropPoison (storePut (takeAway s home (wordsOf va 8)) k 8 d.toNat) home (wordsOf va 8))
    savePut pkg (va + 8) r

/-- Copies one 4 KiB piece of an image to the save area. -/
def savePage (pkg va key : Nat) : HM Unit := do
  match anyKey (← get) pkg va with
  | none => pure ()
  | some (c, k) =>
    ddrH pkg va c
    dirtyH k va c
    modify (fun s => copyCells (takeRange s pkg va 4096) key k 4096)

/-- The save area's contents (R348, Table 5). -/
def saveGrant (tile : Nat) (g : Grant) : HM Unit := do
  let s ← get
  let pkg := tilePkg tile
  let base := (tileAt s tile).gsave.toNat / 4096 * 4096
  let ctx := grantCtx g
  let ents := savedEntries s tile ctx
  let d := drayOf s tile ctx
  let sems := (List.range 4).map (fun j => BitVec.ofNat 64 ((List.range 4).foldl (fun acc i =>
    acc + (if (grantSems g).getLsbD (4 * j + i) then (semAt s tile (4 * j + i)).toNat else 0) * 2 ^ (16 * i)) 0))
  let head := [g.dw0, g.dw1, g.dw2, BitVec.ofNat 64 ents.length, d.stashb, d.stashl] ++ sems ++ List.replicate 6 0
  let imgs := imageOffsets 0x10000 (imagesOf tile g)
  let maps := 0x10000 + (imgs.map (fun x => x.2.2)).sum
  let words := imgs.flatMap (fun x => (List.range (x.2.2 / 256)).map (fun i => x.2.1 + 256 * i))
  let full := words.map (fun k => BitVec.ofNat 64 (fullWord s k))
  let pages := imgs.flatMap (fun x => (List.range (x.2.2 / 4096)).map (fun i => (base + x.1 + 4096 * i, x.2.1 + 4096 * i)))
  let zeros := List.replicate ((0x10000 - 0x80) / 8) 0#64
  savePut pkg base (head ++ zeros)
  pages.forM (fun x => savePage pkg x.1 x.2)
  savePut pkg (base + maps) full
  savePut pkg (base + maps + 8 * words.length) (ents.flatMap (fun e => entryWords s tile e.1 e.2))

/-- The entries of a context leave a tile without any effect on their launches: they are saved. -/
def forgetEntries (s : State) (tile : Nat) (ctx : BitVec 11) : State :=
  let s := s.cores.foldl (fun s c =>
    if coreTile c.1 = tile then
      (c.2.entries.filter (fun e => e.ctx == ctx)).foldl (fun s e =>
        match e.credit with
        | some (from_, cls) => returnCredit s c.1 from_ cls
        | none => s) (modCore s c.1 (fun x => { x with entries := x.entries.filter (fun e => e.ctx != ctx) }))
    else s) s
  modTile s tile (fun t => { t with postq := t.postq.filter (fun e => e.ctx != ctx) })

/-- LEAVE_SAVE: with the leaving context idle, its save area is written, its semaphores are cleared, its resources are
released, and its post buffer is disabled (R348, R360). -/
def execLeaveSave (tile : Nat) (n : BitVec 2) (s : State) : Result :=
  let g := grantAt s tile n.toNat
  if !g.leaving || !grantIdle s tile (grantCtx g) then .next s
  else
    let count := g.saved.getD (queuedOn s tile (grantCtx g))
    let begun (s : State) : State := modGrant s tile n.toNat (fun g => { g with saving := true, saved := some count })
    match saveGrant tile g s with
    | .error (.held part) => .next (begun (noteExit s part))
    | .error .waits => .next (begun s)
    | .error (.fails _ _) => .next s
    | .ok (_, s) =>
      let s := forgetEntries s tile (grantCtx g)
      .next (modTile s tile (fun t =>
        { t with
          sems := Vector.ofFn (fun (i : Fin 16) => if (grantSems g).getLsbD i then 0 else t.sems.getD i 0)
          grants := t.grants.setIfInBounds n.toNat { g with
            dw0 := g.dw0 &&& ~~~0x80000000FFFF0000#64, dw1 := g.dw1 &&& 0xFFFFFFFFFFFF#64, leaving := false, saving := false,
            saved := some count }
          away := if t.away.contains (grantCtx g) then t.away else grantCtx g :: t.away
          pqcfg := if t.pqctx = grantCtx g then 0 else t.pqcfg
          blocks := if t.pqctx = grantCtx g then [] else t.blocks }))

/-- EPOCH_ADVANCE: MEPOCH advances by one for every 2^20 ns of the fabric time base that it has not counted (R262). -/
def execEpochAdvance (tile : Nat) (s : State) : Result :=
  let now := fabricTime s (tilePkg tile) / 2 ^ 20
  .next (modTile s tile (fun t => { t with mepoch := t.mepoch + BitVec.ofNat 7 (now - t.mepochAt), mepochAt := now }))

/-! ### The group watchdog (R259) -/

/-- The resident tasks of a tile's engine cores. -/
def engineTasks (s : State) (tile : Nat) : List (Nat × Task) :=
  s.tasks.filter (fun x => slotTile x.1 == tile && decide (4 ≤ coreNum (slotCore x.1)) && decide (coreNum (slotCore x.1) ≤ 6))
/-- TVAL of a wait that the watchdog ends; none for another wait. -/
def watchdogVal (s : State) (k : Nat) (t : Task) : Option Dword :=
  match t.pend.want with
  | some (.sem n) => some (BitVec.ofNat 64 n)
  | some (.ldf va _ _) => some (BitVec.ofNat 64 va)
  | some (.queue q _) => some (BitVec.ofNat 64 q)
  | some .ring =>
    let c := coreAt s (slotCore k)
    match c.ring.find? (fun e => e.seq.toNat % 64 == c.nextSeq.toNat % 64) with
    | some e => some (e.seq.setWidth 64)
    | none => some 0
  | _ => none
/-- A command of the tile's rings is in a state. -/
def tileRing (s : State) (tile state : Nat) : Bool :=
  s.cores.any (fun c => coreTile c.1 == tile && c.2.ring.any (fun e => e.state == state))
/-- Every resident engine-core slot waits, and no command runs: the watchdog counts. -/
def watchdogCounts (s : State) (tile : Nat) : Bool :=
  let ts := engineTasks s tile
  !ts.isEmpty && ts.all (fun x => (watchdogVal s x.1 x.2).isSome) && !tileRing s tile 2

/-- GROUP_WATCHDOG: at 2^22 cycles every waiting slot takes QUEUE. -/
def execGroupWatchdog (tile : Nat) (s : State) : Result :=
  if watchdogCounts s tile && decide (2 ^ 22 ≤ (tileAt s tile).watchdog) then
    let s := modTile s tile (fun t => { t with watchdog := 0 })
    .next ((engineTasks s tile).foldl (fun s x =>
      match watchdogVal s x.1 x.2 with
      | some v => takeTrap causeQueue v { s with here := x.1 }
      | none => s) s)
  else .next s

end Sys2Proof.Machine
end

