-- ==== Sys2Proof/Machine/Gang.lean ====
section
/-!
DEFINITION. Sys2Proof/Machine/Gang.lean: the coordinators of the packages: slices and launches of gangs
(spec/25_fabric_gangs.md R370 to R373).
-/

namespace Sys2Proof.Machine

/-! ### The gang table (R370) -/

def gangRead (s : State) (pkg ctx va : Nat) : Nat := peek s pkg va ctx 8
/-- Member packages, in the table's order. -/
def gangMembers (s : State) (pkg ctx tab : Nat) : List Nat :=
  (List.range (gangRead s pkg ctx tab % 2 ^ 16)).map (fun i => gangRead s pkg ctx (tab + 24 + 8 * i) % 1024)

def gangAt (s : State) (pkg gid : Nat) : Option Gang := tget (pkgAt s pkg).gangs gid
def putGang (s : State) (pkg gid : Nat) (g : Gang) : State :=
  modPkg s pkg (fun p => { p with gangs := tput p.gangs gid g })

/-- Writes the first status that a coordinator owes to the gang's table and, for one that ends the slice or the launch, decrements
the supervisor record; it stays owed while a full dirty log or a channel group holds the write (R196, R376), and one that its home
refuses is not written. -/
def payStatus (s : State) (pkg gid : Nat) (g : Gang) : State :=
  match g.owed with
  | [] => s
  | status :: r =>
    let paid (s : State) : State :=
      let s := putGang s pkg gid { g with owed := r }
      if status = 0 then s
      else deviceDec s (tileKey pkg 0) (BitVec.ofNat 64 (gangRead s pkg g.ctx (g.table_ + 16))) (BitVec.ofNat 11 g.ctx) 16#5 true
    if ddrWaits s pkg (g.table_ + 16) g.ctx then s
    else match writeH pkg (g.table_ + 8) g.ctx (ctxPriv s g.ctx) 8 status s with
    | .ok (_, s) => paid s
    | .error (.held part) => noteExit s part
    | .error .waits => s
    | .error (.fails _ _) => paid s
/-- The coordinator's status for a gang (R371 to R373), written at once when it can be. -/
def gangStatus (s : State) (pkg gid : Nat) (g : Gang) (status : Nat) : State :=
  let g := { g with owed := g.owed ++ [status] }
  payStatus (putGang s pkg gid g) pkg gid g

/-- A message from one coordinator to another: Table 6 with T and GRACE 0. -/
def gangSend (s : State) (pkg member gid ctx op arg tab : Nat) : State :=
  let src := coreKey (tileKey pkg 0) 0
  let dst := coreKey (tileKey member 0) 0
  post s (slotKey src 15) dst 0
    (.own (mkHeader 16 (BitVec.ofNat 11 ctx) 16#5 2 false (fabricAddr dst).toNat)
      [BitVec.ofNat 64 (gid * 2 ^ 32 + ctx * 2 ^ 8 + op), 0, BitVec.ofNat 64 arg, BitVec.ofNat 64 tab])

/-! ### Grants of a gang and of the incumbents (R371) -/

/-- Tiles of a package that hold a valid grant of a context, the lowest first. -/
def gangTiles (s : State) (pkg ctx : Nat) : List Nat :=
  (s.tiles.filter (fun t => tilePkg t.1 == pkg &&
    t.2.grants.toList.any (fun g => grantValid g && (grantCtx g).toNat == ctx))).map (·.1)

/-- Sets or clears PRE on the grants of a tile that belong to the gang's context, or, with `mine` false, to others. -/
def setPre (s : State) (tile ctx : Nat) (mine pre : Bool) : State :=
  modTile s tile (fun t =>
    { t with grants := t.grants.map (fun g =>
        if grantValid g && (((grantCtx g).toNat == ctx) == mine) then
          { g with dw0 := if pre then g.dw0 ||| 0x80000000000#64 else g.dw0 &&& ~~~0x80000000000#64 }
        else g) })
def gangPre (s : State) (pkg ctx : Nat) (pre : Bool) : State :=
  (gangTiles s pkg ctx).foldl (fun s t => setPre s t ctx true pre) s

/-- The coordinator installs a gang's grants on a tile of its package with PRE = 1: those that the grant registers hold for the
context with V = 0 (DEDUCED, log 60), where R346 lets them stand. What the context has left there is not its own any more (log 94). -/
def installGrants (s : State) (tile ctx : Nat) : State :=
  let c11 : BitVec 11 := BitVec.ofNat 11 ctx
  (List.range 4).foldl (fun s n =>
    let g := grantAt s tile n
    let g' := { g with
      dw0 := g.dw0 ||| 0x8000080000000000#64, leaving := false, saving := false, saved := none, deficit := 0 }
    if !grantValid g && grantCtx g == c11 && grantOk s tile n 0 g' c11 true then
      let s := modGrant s tile n (fun _ => g')
      if (tileAt s tile).away.contains c11 then dropCancelled.forgetAway s tile c11 true else s
    else s) s
def gangInstall (s : State) (pkg ctx : Nat) : State :=
  s.tiles.foldl (fun s t => if tilePkg t.1 = pkg then installGrants s t.1 ctx else s) s

/-- Contexts of other valid grants of a tile. -/
def incumbents (s : State) (tile ctx : Nat) : List (BitVec 11) :=
  ((tileAt s tile).grants.toList.filter (fun g => grantValid g && (grantCtx g).toNat != ctx)).map grantCtx
/-- Every incumbent of the package's gang tiles is idle. -/
def incumbentsIdle (s : State) (pkg ctx : Nat) : Bool :=
  (gangTiles s pkg ctx).all (fun t => (incumbents s t ctx).all (fun c => grantIdle s t c))

/-- Cancels the gang's job on the tiles of some packages (R144). -/
def gangCancel (s : State) (pkgs : List Nat) (ctx : Nat) : State :=
  ((workTiles s (BitVec.ofNat 11 ctx)).filter (fun t => pkgs.contains (tilePkg t))).foldl (fun s t => applyCancel s t 3 ctx 0) s

/-! ### Messages to a coordinator (R370, Table 6) -/

/-- Fields of the payload. -/
def gangId (pl : List Dword) : Nat := ((pl.getD 0 0).extractLsb' 32 32).toNat
def gangCtx (pl : List Dword) : Nat := ((pl.getD 0 0).extractLsb' 8 11).toNat
def gangOp (pl : List Dword) : Nat := ((pl.getD 0 0).extractLsb' 0 8).toNat
def gangTab (pl : List Dword) : Nat := (pl.getD 3 0).toNat
/-- The payload keeps the table. -/
def gangOk (h : Dword) (pl : List Dword) : Bool :=
  hdrNlog h == 2 && (pl.getD 0 0).extractLsb' 19 13 == 0#13 && decide (1 ≤ gangOp pl) && decide (gangOp pl ≤ 5) &&
    (gangOp pl == 1 || pl.getD 1 0 == 0#64) && (pl.getD 2 0).extractLsb' 48 16 == 0#16 && gangTab pl % 8 == 0

/-- A GANG message of an operation at its coordinator: the sender's package, and what the coordinator does. It arrives for its phase
slot (R120). One that breaks the table, that is addressed to another core than core 0 of tile 0, or that comes from a host which
the context's partition does not list, is discarded and reported (R106, R363, R370). One of a dead context is discarded (R343).
While the table waits at its home for a channel group, so does the message (R376). -/
def onGang (s : State) (id op : Nat) (f : Packet → Nat → List Dword → Bool → State → State) : Result :=
  onPacket s id (fun p =>
    match msgOf p.body with
    | none => s
    | some (h, pl, dev) =>
      let tile := coreTile p.dst
      let s' := phaseArrive s tile (hdrTag h)
      if hdrClass h ≠ 16 then s
      else if !gangOk h pl || p.dst != coreKey (tileKey (tilePkg tile) 0) 0 ||
          !hostListed s (tilePkg tile) p.src (hdrCtx h).toNat then malformed s' p h dev 3 16
      else if gangOp pl ≠ op then s
      else if !ctxLive s (hdrCtx h).toNat then discardMsg s' p h dev
      else if spanWaits s (tilePkg tile) (gangTab pl) 8216 (gangCtx pl) then s
      else f p (tilePkg tile) pl dev (consume s' p h dev))

/-- A gang as a payload names it, by context, table and members; what is known of its slice and its launch stays, and one that is
not known has no slice under way. -/
def newGang (s : State) (pkg : Nat) (pl : List Dword) : Gang :=
  let old := (gangAt s pkg (gangId pl)).getD
    { ctx := 0, start := 0, finish := 0, grace := 0, state := 3, table_ := 0, members := [], acks := [], deadline := 0, late := []
      owed := [] }
  { old with ctx := gangCtx pl, table_ := gangTab pl, members := gangMembers s pkg (gangCtx pl) (gangTab pl) }

/-- SLICE: PRE on every incumbent that shares a tile with the gang's grants, which are installed with PRE (R371). -/
def execSlice (p : Nat) (s : State) : Result :=
  onGang s p 1 (fun _ pkg pl _ s =>
    let ctx := gangCtx pl
    let d2 := pl.getD 2 0
    let grace := (d2.extractLsb' 32 16).toNat
    let t := (pl.getD 1 0).toNat
    let g : Gang := { newGang s pkg pl with
      start := t, finish := t + (d2.extractLsb' 0 32).toNat * 1000, grace := (if grace = 0 then 50 else grace) * 1000,
      state := 0, late := [] }
    let s := gangInstall s pkg ctx
    let s := (gangTiles s pkg ctx).foldl (fun s t => setPre (setPre s t ctx false true) t ctx true true) s
    putGang s pkg (gangId pl) g)

/-- SLICE_START: at T, and for a late package later on: with the incumbents idle the gang starts; otherwise the package is late
and says so to every member. At T the first member's coordinator writes status 0, running (R370; log 60). -/
def execSliceStart (pkg gang : Nat) (s : State) : Result :=
  match gangAt s pkg gang with
  | none => .next s
  | some g =>
    if fabricTime s pkg < g.start ∨ (g.state ≠ 0 ∧ g.state ≠ 2) then .next s
    else
      let begins (s : State) (g' : Gang) : State :=
        let s := putGang s pkg gang g'
        if g.state = 0 ∧ g.members.head? = some pkg then gangStatus s pkg gang g' 0 else s
      if incumbentsIdle s pkg g.ctx then .next (begins (gangPre s pkg g.ctx false) { g with state := 1 })
      else if g.state = 2 then .next s
      else
        let s := g.members.foldl (fun s m => gangSend s pkg m gang g.ctx 4 0 g.table_) s
        .next (begins s { g with state := 2 })

/-- GANG_GRACE_EXPIRY: at T + GRACE a late package's coordinator writes 0 to the BUDGET of every incumbent task. -/
def execGangGraceExpiry (pkg gang : Nat) (s : State) : Result :=
  match gangAt s pkg gang with
  | none => .next s
  | some g =>
    if g.state ≠ 2 ∨ g.grace = 0 ∨ fabricTime s pkg < g.start + g.grace then .next s
    else
      let tiles := gangTiles s pkg g.ctx
      let s := { s with tasks := s.tasks.map (fun (x : Nat × Task) =>
        if tiles.contains (slotTile x.1) && x.2.ctx.toNat != g.ctx then (x.1, expire { x.2 with budget := 0 }) else x) }
      .next (putGang s pkg gang { g with grace := 0 })

/-- SLICE_END: at the end every member sets PRE on the gang's grants; the first member writes status 1 and decrements the
supervisor record. A status that is still owed is written first. -/
def execSliceEnd (pkg gang : Nat) (s : State) : Result :=
  match gangAt s pkg gang with
  | none => .next s
  | some g =>
    if g.owed ≠ [] then .next (payStatus s pkg gang g)
    else if g.state = 3 ∨ fabricTime s pkg < g.finish then .next s
    else
      let g := { g with state := 3 }
      let s := putGang (gangPre s pkg g.ctx true) pkg gang g
      if g.members.head? = some pkg then .next (gangStatus s pkg gang g 1) else .next s

/-- GLAUNCH: the first member forwards it; each member performs the LAUNCH on core 0 of its lowest tile with a grant of the
gang, and acknowledges to the first member (R372). -/
def execGlaunch (p : Nat) (s : State) : Result :=
  onGang s p 2 (fun p pkg pl dev s =>
    let g := newGang s pkg pl
    let gid := gangId pl
    let arg := ((pl.getD 2 0).extractLsb' 0 32).toNat
    let first := g.members.head? == some pkg
    let s :=
      if first && !dev then
        let s := putGang s pkg gid { g with acks := [], deadline := fabricTime s pkg + 20000 }
        (g.members.filter (fun m => m != pkg)).foldl (fun s m => gangSend s pkg m gid g.ctx 2 arg g.table_) s
      else putGang s pkg gid g
    match gangTiles s pkg g.ctx, g.members.head? with
    | tile :: _, some m =>
      let core := coreKey tile 0
      let s := post s (slotKey (coreKey (tileKey pkg 0) 0) 15) core p.launch
        (.own (mkHeader 1 (BitVec.ofNat 11 g.ctx) 16#5 2 false (fabricAddr core).toNat)
          [BitVec.ofNat 64 (arg / 2 ^ 8 + arg % 2 ^ 8 * 2 ^ 32), 0, 0, 0])
      gangSend s pkg m gid g.ctx 3 0 g.table_
    | _, _ => s)

/-- ACK: the first member notes it; a late one is ignored. -/
def execAck (p : Nat) (s : State) : Result :=
  onGang s p 3 (fun p pkg pl _ s =>
    match gangAt s pkg (gangId pl) with
    | none => s
    | some g =>
      if g.deadline = 0 then s
      else putGang s pkg (gangId pl) { g with acks := tilePkg (slotTile p.src) :: g.acks })

/-- GANG_ACK_TIMEOUT: 20 µs after the forward, with an ACK missing, the job is cancelled on every member, status 2 is written and
the supervisor record decremented. -/
def execGangAckTimeout (pkg gang : Nat) (s : State) : Result :=
  match gangAt s pkg gang with
  | none => .next s
  | some g =>
    if g.deadline = 0 ∨ fabricTime s pkg < g.deadline then .next s
    else
      let g := { g with deadline := 0 }
      let s := putGang s pkg gang g
      if g.members.all (fun m => g.acks.contains m) then .next s
      else .next (gangStatus (gangCancel s g.members g.ctx) pkg gang g 2)

/-- LATE: a member learns that another is late. -/
def execLate (p : Nat) (s : State) : Result :=
  onGang s p 4 (fun p pkg pl _ s =>
    match gangAt s pkg (gangId pl) with
    | none => s
    | some g => putGang s pkg (gangId pl) { g with late := tilePkg (slotTile p.src) :: g.late })

/-- STOP: PRE on the gang's grants, and the job is cancelled; its slice, begun or still to begin, is over (R373). -/
def execStop (p : Nat) (s : State) : Result :=
  onGang s p 5 (fun _ pkg pl _ s =>
    let s := gangCancel (gangPre s pkg (gangCtx pl) true) [pkg] (gangCtx pl)
    match gangAt s pkg (gangId pl) with
    | some g => putGang s pkg (gangId pl) { g with state := 3 }
    | none => s)

/-- A tile of the package is fenced: for every gang with a grant on it, STOP goes to every member, status 3 is written with the
package and the tile, and the supervisor record is decremented (R373). -/
def gangFault (s : State) (tile : Nat) : State :=
  let pkg := tilePkg tile
  (pkgAt s pkg).gangs.foldl (fun s x =>
    if (gangTiles s pkg x.2.ctx).contains tile then
      let s := x.2.members.foldl (fun s m => gangSend s pkg m x.1 x.2.ctx 5 0 x.2.table_) s
      gangStatus s pkg x.1 x.2 (3 + pkg % 1024 * 2 ^ 16 + tile % 1024 * 2 ^ 32)
    else s) s

end Sys2Proof.Machine
end

