-- ==== Sys2Proof/Machine/Boot.lean ====
section
/-!
DEFINITION. Sys2Proof/Machine/Boot.lean: bring-up, the firmware image, attestation, errors and fencing, links, power, and resets
(spec/27_bringup_security.md R375 to R381; R151, R181, R189, R216, R225, R251, R262, R281, R293, R363).
-/

namespace Sys2Proof.Machine

/-! ### Readiness (R375, R376) -/

/-- Readiness bit n: 0 to 63 in READY0, 64 to 127 in READY1, 128 to 191 in READY2. -/
def readyBit (p : Pkg) (n : Nat) : Bool := (p.ready.getD (n / 64) 0).getLsbD (n % 64)
def setReady (p : Pkg) (n : Nat) (v : Bool) : Pkg :=
  let w := p.ready.getD (n / 64) 0
  { p with ready := p.ready.setIfInBounds (n / 64) (if v then w ||| (1#64 <<< (n % 64)) else w &&& ~~~(1#64 <<< (n % 64))) }
/-- The functions that train: tile and vault groups, links, channel groups, meshes, flash queues. -/
def functions : List Nat := (List.range 185)
/-- Every function is ready or has failed: the security complex has its image, or is in recovery. -/
def trainingOver (p : Pkg) : Bool :=
  functions.all (fun n => readyBit p n || p.failed.contains n) && (readyBit p 185 || p.recovery)
/-- The 16 tiles of a tile or vault group. -/
def groupTiles (pkg n : Nat) : List Nat := (List.range 16).map (fun x => tileKey pkg (n % 64 * 16 + x))
/-- Tiles of the groups that have failed. -/
def failedTiles (pkg : Nat) (p : Pkg) : List Nat :=
  (p.failed.filter (fun n => decide (n < 64))).flatMap (fun n => (groupTiles pkg n).map (fun t => t % 1024))

/-- Words of a tile's registry and its marks follow their homes, which have moved (R189). -/
def moveHome (s : State) (tile : Nat) : State :=
  let t := tileAt s tile
  let pkg := tilePkg tile
  let s := putTile s tile { t with registry := [], lostWords := [], poisoned := [], attached := [], elections := t.elections }
  let s := t.registry.foldl (fun s e =>
    modTile s (homeTile s pkg e.line) (fun x => { x with registry := x.registry ++ [e] })) s
  let s := t.lostWords.foldl (fun s w =>
    modTile s (homeTile s pkg w) (fun x => { x with lostWords := nput x.lostWords w })) s
  let s := t.poisoned.foldl (fun s w =>
    modTile s (homeTile s pkg w) (fun x => { x with poisoned := nput x.poisoned w })) s
  t.attached.foldl (fun s a =>
    modTile s (homeTile s pkg a.1) (fun x => { x with attached := tput x.attached a.1 a.2 })) s

/-- Tiles join the excluded set of a package (R189). -/
def exclude (s : State) (pkg : Nat) (tiles : List Nat) : State :=
  let new := (tiles.filter (fun t => !(pkgAt s pkg).excluded.contains t)).eraseDups
  let s := modPkg s pkg (fun p => { p with excluded := new.foldl nput p.excluded })
  new.foldl (fun s t => moveHome s (tileKey pkg t)) s

/-- DONE is set with the last function, and the tiles of failed groups are excluded from homing. -/
def noteDone (s : State) (pkg : Nat) : State :=
  let p := pkgAt s pkg
  if trainingOver p then exclude (putPkg s pkg (setReady p 191 true)) pkg (failedTiles pkg p) else s

/-- FUNCTION_READY: a trained function's bit is set; a tile group's only after its die's mesh bit; a vault group's ways become
CACHE. A bit of a failed function stays 0. -/
def execFunctionReady (pkg : Nat) (bit : BitVec 8) (s : State) : Result :=
  let n := bit.toNat
  let p := pkgAt s pkg
  if !p.present ∨ !functions.contains n ∨ p.failed.contains n ∨ readyBit p n ∨ (n < 64 ∧ !readyBit p (180 + n / 16)) then .next s
  else
    let s := putPkg s pkg (setReady p n true)
    let s := if 64 ≤ n ∧ n < 128 then
        (groupTiles pkg n).foldl (fun s t => modTile s t (fun x => { x with vway := 0x55555555#32 })) s
      else s
    .next (noteDone s pkg)

/-! ### Fencing (R379) -/

/-- Words registered to the cores of a tile become lost at their homes (R216). -/
def loseWords (s : State) (tile : Nat) : State :=
  { s with tiles := s.tiles.map (fun (x : Nat × Tile) =>
      let mine := x.2.registry.filter (fun e => coreTile e.owner == tile)
      (x.1, { x.2 with
        registry := x.2.registry.filter (fun e => coreTile e.owner != tile)
        lostWords := (mine.flatMap (fun e => maskWords e.line e.mask)).foldl nput x.2.lostWords })) }

/-- Work of a launch and a phase is lost with its tile: the launch completes with status 3, the phase with bit 3 (R379). -/
def loseWork (s : State) (tile : Nat) (ctx : BitVec 11) (launch : Word) (tag : BitVec 5) : State :=
  phaseMark (modLaunch s ctx launch (fun l => { l with killed := true })) tile tag 8#4

/-- A queued task of a fenced tile is discarded. -/
def loseEntry (core : Nat) (s : State) (e : Entry) : State :=
  loseWork (discardEntry s core e) (coreTile core) e.ctx e.launch e.tag

/-- The queued work of a fenced tile's core is discarded, and its ring commands are. -/
def stopCore (s : State) (core : Nat) : State :=
  let c := coreAt s core
  let s := c.entries.foldl (loseEntry core) s
  modCore s core (fun c =>
    { c with
      entries := [], l1 := [], grants := [], fills := [], vols := [], clb := [], staged := [], wanted := []
      ring := c.ring.map (fun e => if cmdDone e then e else { e with state := 6, unreported := false, held := false }) })

/-- The releases of tasks that have ended on a tile are not made any more. -/
def loseReleases (s : State) (tile : Nat) : State :=
  let gone (e : Ending) : Bool := e.task.isSome && slotTile e.slot == tile
  let s := (s.ending.filter gone).foldl (fun s e => loseWork s tile e.ctx e.launch ((e.task.map (·.tag)).getD 16#5)) s
  { s with ending := s.ending.map (fun e => if gone e then { e with task := none } else e) }

/-- The LDFs that wait at a tile are answered as lost (R216, R226). -/
def loseLdfs (s : State) (tile : Nat) : State :=
  let s' := (tileAt s tile).ldfs.foldl (fun s l => giveReply s l.slot l.req (Reply.trap causeOwnerlost 0)) s
  modTile s' tile (fun t => { t with ldfs := [] })

/-- Fences a tile: its cores stop, each resident task is terminated without a TRAPEV, its launches complete with status 3, its
tagged phases take status bit 3, and its words become lost. -/
def fenceTile (s : State) (tile : Nat) : State :=
  if (tileAt s tile).fenced then s
  else
    let s := s.tasks.foldl (fun (s : State) (x : Nat × Task) =>
      if slotTile x.1 = tile then
        match x.2.inl with
        | some _ => dropTask s x.1
        | none => phaseMark (terminate s x.1 false) tile x.2.tag 8#4
      else s) s
    let s := (List.range 12).foldl (fun s n => stopCore s (coreKey tile n)) s
    let s := (tileAt s tile).postq.foldl (loseEntry (coreKey tile 8)) s
    let s := modTile (loseWords (loseLdfs (loseReleases s tile) tile) tile) tile
      (fun t => { t with fenced := true, stream := none, postq := [], semWait := [] })
    settleEnding s

/-- What an address of an uncorrectable error names on a tile, beside global memory: a word of its LM or of its vault, by its
storage key, a register of a slot, each as a spoilt value, or neither (log 62). -/
inductive Faulty where
  | word (key : Nat)
  | register (slot n : Nat)
  | other
  deriving DecidableEq, Repr

def faultyAt (tile a : Nat) : Faulty :=
  if 0x800000000 ≤ a ∧ a < 0x800100000 then .word (lmKey tile (a % 2 ^ 20 / 4 * 4))
  else if 0x800800000 ≤ a ∧ a < 0x801000000 then .word (vaultKey tile (a % 2 ^ 23 / 4 * 4))
  else if 0xC00000000 ≤ a ∧ a < 0xC00010000 ∧ a % 256 < 72 then
    .register (slotKey (coreKey tile (a / 2 ^ 12 % 16)) (a / 2 ^ 8 % 16)) (a % 256)
  else .other

/-- A tile is fenced, once, and its gangs learn of it. -/
def fence (s : State) (tile : Nat) : State := if (tileAt s tile).fenced then s else gangFault (fenceTile s tile) tile

/-- TILE_FENCE: an uncorrectable error found at an address. One of global memory poisons that word at its home; one in a tile's LM,
vault, core state or registry fences the tile (R379). All ones mean the tile's registry or translation cache. Before the tile is
fenced for it, an error may spoil a value in LM, in the vault or in a register, and what consumes the value takes MCHECK (R338):
the event's address then has bit 35 set (DESIGN CHOICE, log 62). -/
def execTileFence (tile : Nat) (addr : BitVec 48) (s : State) : Result :=
  if addr = ~~~0#48 then .next (modTile (fence s tile) tile (fun t => { t with sliceBad := true }))
  else if isGlobal addr.toNat then
    let w := addr.toNat / 4 * 4
    .next (modTile s (homeTile s (tilePkg tile) w) (fun t => { t with poisoned := nput t.poisoned w }))
  else
    match faultyAt tile addr.toNat with
    | .word k => .next { s with spoilt := nput s.spoilt k }
    | .register slot n => .next (modTask s slot (fun t => { t with spoilt := nput t.spoilt n }))
    | .other => .next (fence s tile)

/-- ECC_CORRECTED: corrected errors are counted, and saturate. -/
def execEccCorrected (pkg : Nat) (bits : BitVec 32) (s : State) : Result :=
  .next (modPkg s pkg (fun p => { p with eccc := BitVec.ofNat 32 (min (p.eccc.toNat + bits.toNat) (2 ^ 32 - 1)) }))

/-- TRAINING_FAILURE: the function's bit stays 0; a failed tile group is fenced, and messages held for its tiles are refused as
malformed. -/
def execTrainingFailure (pkg : Nat) (bit : BitVec 8) (s : State) : Result :=
  let n := bit.toNat
  let p := pkgAt s pkg
  if !p.present ∨ !functions.contains n ∨ p.failed.contains n ∨ readyBit p n then .next s
  else
    let s := putPkg s pkg { p with failed := nput p.failed n }
    let s :=
      if n < 64 then
        let ts := groupTiles pkg n
        let s := ts.foldl fenceTile s
        s.net.foldl (fun s q =>
          if ts.contains (coreTile q.dst) then
            match msgOf q.body with
            | some (h, _, dev) => malformed (phaseArrive s (coreTile q.dst) (hdrTag h)) q h dev 3 (BitVec.ofNat 64 (hdrClass h))
            | none => s
          else s) s
      else s
    .next (noteDone s pkg)

/-! ### Links (R380) -/

/-- LINK_RETRY_EXHAUSTED: the link's bit is cleared; messages that are left without a route are lost, those in flight at
once and later ones as they would arrive. -/
def execLinkRetryExhausted (pkg : Nat) (link : BitVec 8) (s : State) : Result :=
  let n := 128 + link.toNat
  if 36 ≤ link.toNat ∨ !readyBit (pkgAt s pkg) n then .next s
  else
    let s := modPkg s pkg (fun p => { setReady p n false with failed := nput p.failed n })
    .next (s.net.foldl (fun s p => if stranded s p then loseRoute s p else s) s)

/-! ### Power (R369, R381) -/

/-- The clock step of a die. -/
def stepOfDie (p : Pkg) (d : Nat) : Nat := (p.dstep.extractLsb' (4 * d) 3).toNat
/-- All four dies' steps. -/
def packSteps (f : Nat → Nat) : BitVec 16 := BitVec.ofNat 16 (f 0 % 8 + 16 * (f 1 % 8) + 256 * (f 2 % 8) + 4096 * (f 3 % 8))

/-- The package is stopped: every valid grant asks for pre-emption, and its context is idle (R369). -/
def pkgStopped (s : State) (pkg : Nat) : Bool :=
  s.tiles.all (fun t => tilePkg t.1 != pkg ||
    t.2.grants.toList.all (fun g => !grantValid g || (grantPre g && grantIdle s t.1 (grantCtx g))))
/-- At a stop every tile that has been fenced joins the excluded set (R369). -/
def noteStop (s : State) (pkg : Nat) : State :=
  if pkgStopped s pkg then
    exclude s pkg ((s.tiles.filter (fun t => tilePkg t.1 == pkg && t.2.fenced)).map (fun t => t.1 % 1024))
  else s

/-- Every package that a step has stopped excludes its fenced tiles, before it can run again (R189, R369). -/
def noteStops (s : State) : State :=
  if s.tiles.any (fun t => t.2.fenced && !(pkgAt s (tilePkg t.1)).excluded.contains (t.1 % 1024)) then
    s.pkgs.foldl (fun s p => noteStop s p.1) s
  else s

/-- POWER_STEP: the last millisecond's power against the cap: above it every die goes one step slower, at least 5% below it one
step faster. -/
def execPowerStep (pkg : Nat) (milliwatts : BitVec 64) (s : State) : Result :=
  let p := pkgAt s pkg
  let cap := p.pcap.toNat * 1000
  let w := milliwatts.toNat
  let step (d : Nat) : Nat :=
    if cap < w then min (stepOfDie p d + 1) 7 else if w * 100 ≤ cap * 95 then stepOfDie p d - 1 else stepOfDie p d
  .next (putPkg s pkg { p with pwr := milliwatts, dstep := packSteps step })

/-- THERMAL_LIMIT: at 105 °C a die goes to step 7; at 115 °C the package stops: every grant gets a pre-emption request. -/
def execThermalLimit (pkg : Nat) (die celsius : BitVec 8) (s : State) : Result :=
  let p := pkgAt s pkg
  let s := if 105 ≤ celsius.toNat ∧ die.toNat < 4 then
      putPkg s pkg { p with dstep := packSteps (fun d => if d = die.toNat then 7 else stepOfDie p d) }
    else s
  let s := if 115 ≤ celsius.toNat then
      { s with tiles := s.tiles.map (fun (x : Nat × Tile) =>
          if tilePkg x.1 = pkg then
            (x.1, { x.2 with grants := x.2.grants.map (fun g =>
              if grantValid g then { g with dw0 := g.dw0 ||| 0x80000000000#64 } else g) })
          else x) }
    else s
  .next s

/-! ### The firmware image (R377, R378) -/

/-- Bytes of the image from an offset on. -/
def imageBytes (p : Pkg) (off n : Nat) : List Byte :=
  (List.range n).map (fun i => ((tget p.image ((off + i) / 8 * 8)).getD 0).extractLsb' (8 * ((off + i) % 8)) 8)
/-- A number of 48 bytes, the most significant first. -/
def bigEndian (l : List Byte) : BitVec 384 := l.foldl (fun a b => (a <<< 8) ||| b.setWidth 384) 0
def imageDword (p : Pkg) (off : Nat) : Dword := (tget p.image off).getD 0
def imageLength (p : Pkg) : Nat := (imageDword p 8).toNat
/-- The image is accepted: MAGIC, VERSION, LENGTH, the reserved bytes and the signature. -/
def imageAccepted (p : Pkg) : Bool :=
  (imageDword p 0).setWidth 32 == 0x4E484C4B#32 && decide (p.version ≤ (imageDword p 0).toNat / 2 ^ 32) &&
    imageLength p % 4096 == 0 && decide (imageLength p ≤ 2 ^ 26) && imageDword p 112 == 0#64 && imageDword p 120 == 0#64 &&
    Config.signatureGood (Config.sha384 (imageBytes p 0 16 ++ imageBytes p 128 (imageLength p)))
      (bigEndian (imageBytes p 16 48)) (bigEndian (imageBytes p 64 48))

/-- IMAGE_VERIFICATION: the image is verified: SEC, or recovery; the floor stays. On a package whose firmware runs, the event is that
firmware's raise of the floor to the operand, below which it never falls (R377; DESIGN CHOICE, log 99). -/
def execImageVerification (pkg : Nat) (image : BitVec 64) (s : State) : Result :=
  let p := pkgAt s pkg
  if !p.present then .next s
  else if readyBit p 185 then .next (putPkg s pkg { p with version := max p.version image.toNat })
  else if imageAccepted p then
    .next (noteDone (putPkg s pkg { setReady p 185 true with recovery := false }) pkg)
  else .next (noteDone (putPkg s pkg { p with recovery := true }) pkg)

/-- MANAGEMENT_WRITE: in recovery the host streams an image. -/
def execManagementWrite (pkg : Nat) (off value : BitVec 64) (s : State) : Result :=
  if (pkgAt s pkg).recovery then
    .next (modPkg s pkg (fun p => { p with image := tput p.image (off.toNat / 8 * 8) value }))
  else .next s

/-- MANAGEMENT_READ: the host reads a doubleword of the readiness map over a trained link. -/
def execManagementRead (pkg : Nat) (off : BitVec 64) (s : State) : Result :=
  let p := pkgAt s pkg
  if off.toNat < 24 ∧ off.toNat % 8 = 0 ∧ (p.ready.getD 2 0).extractLsb' 0 36 ≠ 0#36 then
    .next { s with inbox := s.inbox ++ [(pkg, [off, readyWord p (off.toNat / 8)])] }
  else .next s

/-- Doublewords of a wide number, the lowest first. -/
def dwordsOf (n : Nat) (k : Nat) : List Dword := (List.range k).map (fun i => BitVec.ofNat 64 (n / 2 ^ (64 * i)))
/-- The routine tables that a report covers, one after another: of every valid grant of the partition, by tile and then by slot. -/
def attestedTables (s : State) (pkg part : Nat) : List Byte :=
  (s.tiles.filter (fun t => tilePkg t.1 == pkg)).flatMap (fun t =>
    (t.2.grants.toList.filter (fun g => grantValid g && ctxPart s (grantCtx g).toNat == part)).flatMap (fun g =>
      storeBytes s (lmKey t.1 (grantRtab g)) 1800))

/-- ATTESTATION_REQUEST: the nonce, the firmware's digest, one digest of the tables, and their signature, returned to the host
(R378). -/
def execAttestationRequest (pkg part : Nat) (nonce : BitVec 384) (s : State) : Result :=
  let p := pkgAt s pkg
  let fw := Config.sha384 (imageBytes p 0 16 ++ imageBytes p 128 (imageLength p))
  let body := dwordsOf nonce.toNat 6 ++ dwordsOf fw.toNat 6 ++ dwordsOf (Config.sha384 (attestedTables s pkg part)).toNat 6
  let sig := Config.identitySign pkg (Config.sha384 (body.flatMap (fun d => (List.range 8).map (fun i => d.extractLsb' (8 * i) 8))))
  .next { s with inbox := s.inbox ++ [(pkg, body ++ dwordsOf sig.toNat 12)] }

/-! ### Resets -/

/-- A core at reset: nothing resident or queued on it, and CYC counts from now. -/
def resetCore (s : State) (core : Nat) : State :=
  let s := { s with tasks := s.tasks.filter (fun x => slotCore x.1 != core) }
  let s := putCore s core { Core.reset with cycBase := s.cyc }
  if coreNum core = 6 then
    modTile { s with draws := s.draws + 1 } (coreTile core) (fun t =>
      { t with
        queues := Vector.replicate 8 [], qclosed := 0, v := Vector.replicate 16 0, m := Vector.replicate 8 0, vctx := none
        stream := none, z := Vector.replicate 4 0, zowner := Vector.replicate 4 none, keyDraw := s.draws + 1, mepoch := 0
        mepochAt := fabricTime s (tilePkg (coreTile core)) / 2 ^ 20, mcrej := 0 })
  else if coreNum core = 4 then modTile s (coreTile core) (fun t => { t with dray := [] })
  else s

/-- CORE_RESET (R151, R262, R281, R293). -/
def execCoreReset (core : Nat) (s : State) : Result := .next (resetCore s core)

/-- A tile at reset: every core, the shared state, and every full bit of its LM (R181, R225, R251). -/
def resetTile (s : State) (tile : Nat) : State :=
  let s := putTile s tile Tile.reset
  let s := (List.range 12).foldl (fun s n => resetCore s (coreKey tile n)) s
  fullClearRange s (lmKey tile 0) (2 ^ 20)

/-- TILE_RESET. -/
def execTileReset (tile : Nat) (s : State) : Result := .next (resetTile s tile)

/-- PACKAGE_RESET: host lists empty, no tile ready, training anew; the image and the fused floor stay (R363, R377). -/
def execPackageReset (pkg : Nat) (s : State) : Result :=
  let p := pkgAt s pkg
  if !p.present then .next s
  else
    let s := (s.tiles.filter (fun t => tilePkg t.1 == pkg)).foldl (fun s t => resetTile s t.1) s
    let s := { s with
      net := s.net.filter (fun q => tilePkg (coreTile q.dst) != pkg)
      frames := s.frames.filter (fun f => framePkg f.1 != pkg)
      parts := s.parts.map (fun (x : Nat × Part) => (x.1, { x.2 with hosts := x.2.hosts.filter (fun h => h / 1024 != pkg) })) }
    .next (putPkg s pkg { Pkg.reset with image := p.image, version := p.version, ftimeOff := p.ftimeOff })

end Sys2Proof.Machine
end

