-- ==== Sys2Proof/Machine/Engine.lean ====
section
/-!
DEFINITION. Sys2Proof/Machine/Engine.lean: what every engine command shares: the checks at issue, reading and writing an
element, conversions, full bits, recorded errors (spec/16_engine_cores.md R254 to R258, spec/17_copy_convert_instructions.md
R266 to R268, R31 to R42). A command goes forward in small steps, one element at a time; what it has to keep from one step to
the next stands in its ring entry.
-/

namespace Sys2Proof.Machine

/-! ### Issue (R251, R254, R266) -/

/-- The maps an engine instruction names: PROT with the word for an invalid register, then PROT with 8 + n for a completion
signal that the context does not hold. -/
def namedMaps (t : Task) (word : Dword) (q : BitVec 3) (regs : List (BitVec 4)) : M (List (BitVec 256)) := do
  let ws ← regs.mapM (fun r => match tmReg t r with
    | some w => pure w
    | none => trapM causeProt word)
  let s ← get
  let n := 8 + q.toNat
  guardM (q == 0#3 || granted s (hereTile s) t.ctx grantSems n) causeProt (BitVec.ofNat 64 n)
  pure ws

/-- The command enters the ring once its place is free, and the instruction retires. -/
def pushM_ (t : Task) (word : Dword) (d a b : BitVec 256) (args : List Dword) : M Flow := do
  let s ← get
  awaitM (ringFree (coreAt s (hereCore s))) .ring
  set (pushCmd s (hereCore s) (newCmd s t (word.setWidth 32) d a b args))
  pure .seq

/-! ### Steps of a command -/

/-- Why a command stops in a step: it waits; it is held on a partition's full dirty log (R196); a late fault, with its kind, its failing address, if the spec states one, and
its element; or it is suspended at an element (R255, R258). -/
inductive EStop where
  | wait
  | held (part : Nat)
  | fault (kind : BitVec 8) (addr : Option Dword) (elem : Nat)
  | suspend (addr : Dword) (elem : Nat)
  deriving DecidableEq, Repr

/-- A step of a command. What it did before a fault stays done. -/
abbrev EM := ExceptT EStop (StateM State)

/-- The fault kind of a trap's cause (R255, Table 4). -/
def kindOf (c : Cause) : BitVec 8 :=
  if c = causeXlate then 1 else if c = causeCow then 3 else if c = causeOwnerlost then 4
  else if c = causeMisalign then 5 else if c = causeVolalloc then 10 else 2

def faultE {α : Type} (kind : BitVec 8) (va elem : Nat) : EM α := throw (.fault kind (some (BitVec.ofNat 64 va)) elem)
/-- A mismatch of shapes: kind 6 with ELEM 0, and no failing address that the spec states. -/
def shapeE (ok : Bool) : EM Unit := if ok then pure () else throw (.fault 6 none 0)
def waitE (ok : Bool) : EM Unit := if ok then pure () else throw .wait
/-- What a refused read of global memory does: XLATE suspends a Dray command (R258). -/
def readStop {α : Type} (core : Nat) (c : Cause) (va elem : Nat) : EM α :=
  if c = causeXlate ∧ coreNum core = 4 then throw (.suspend (BitVec.ofNat 64 va) elem) else faultE (kindOf c) va elem
/-- Accesses of the device at homes, for a command: they wait for a full dirty log or a channel group (R196, R376), or their refusal
is the command's fault. -/
def homeE {α : Type} (elem : Nat) (x : HM α) : EM α := do
  match x (← get) with
  | .ok (a, s) =>
    set s
    pure a
  | .error (.held part) => throw (.held part)
  | .error .waits => throw .wait
  | .error (.fails cause va) => faultE (kindOf cause) va elem

/-- Part of a command that is performed whole or not at all. -/
def wholeE {α : Type} (x : EM α) : EM α := ExceptT.mk (fun s =>
  match x.run s with
  | (.ok a, s') => (.ok a, s')
  | (.error e, _) => (.error e, s))

def modE (core : Nat) (c : Command) (f : Command → Command) : EM Unit := modify (fun s => modCmd s core c.seq f)
/-- The command goes on to its next element. -/
def advanceE (core : Nat) (c : Command) : EM Unit := modE core c (fun e => { e with done := c.done + 1 })
/-- The context's privilege and package, for a command of a core. -/
def cmdPriv (s : State) (c : Command) : BitVec 2 := ctxPriv s c.ctx.toNat
def corePkg (core : Nat) : Nat := tilePkg (coreTile core)

/-! ### Errors (R268) -/

/-- A recorded error: the task's CVSTAT when it holds none, the launch's status, the phase's mark. -/
def recordError (s : State) (core : Nat) (c : Command) (cause elem : Nat) : State :=
  let v := BitVec.ofNat 64 (2 ^ 63 + c.seq.toNat * 2 ^ 48 + cause * 2 ^ 40 + min elem (2 ^ 32 - 1))
  let s := modUid s c.uid (fun t => if t.cvstat.getLsbD 63 then t else { t with cvstat := v })
  let s := if (tget s.launches (launchKey c.ctx c.launch)).isSome then
    modLaunch s c.ctx c.launch (fun l => { l with error := true }) else s
  phaseMark s (coreTile core) c.tag 1#4

def errorE (core : Nat) (c : Command) (cause elem : Nat) : EM Unit := modify (fun s => recordError s core c cause elem)

/-! ### Bytes -/

/-- The words of the row line, or of the column line, that holds an address (R185). -/
def lineWords (va : Nat) (col : Bool) : List Nat :=
  if col then
    let sector := va / 1024 * 1024
    let row := va % 1024 / 256 * 8
    (List.range 8).map (fun i => sector + 32 * (row + i) + va % 32 / 4 * 4)
  else (List.range 8).map (fun i => va / 32 * 32 + 4 * i)

/-- An engine core's L1 takes a line that its read has missed, when it has room for it (R186, R204, R213). `key` is the storage key
of `va`. -/
def fillEngine (s : State) (core ctx home va key : Nat) (col : Bool) : State :=
  match l1Room s core (if col then columnLine va else rowLine va) with
  | none => s
  | some s =>
    (lineWords va col).foldl (fun s w =>
      if isLost s home w || isPoisoned s home w then s
      else
        let v := homeWord s home w (key + w - va)
        let x := match l1Get s core w with
          | some x =>
            { x with ctxs := if x.ctxs.contains ctx then x.ctxs else ctx :: x.ctxs
                     val := if x.own = .clean then v else x.val, row := x.row || !col, column := x.column || col }
          | none => { ctxs := [ctx], val := v, own := .clean, row := !col, column := col }
        staleLine (modCore s core (fun c => { c with l1 := tput c.l1 w x })) core w) s

/-- Reads bytes of global memory of another package, for a gather from a volume there: performed at the home (R247, R274); an
XLATE suspends the command (R258). -/
def farRead (pkg core : Nat) (c : Command) (va size elem : Nat) : EM Nat := do
  let s ← get
  match readHome s pkg va c.ctx.toNat (cmdPriv s c) size with
  | .error e => readStop core e va elem
  | .ok v => do
    waitE (!ddrWaits s pkg va c.ctx.toNat)
    pure v

/-- Reads bytes for a command (R267, R192, R216); a spoilt value is refused (R338). -/
def engineRead (core : Nat) (c : Command) (va size : Nat) (col : Bool) (elem : Nat) : EM Nat := do
  let s ← get
  let tile := coreTile core
  match placeOf s tile va with
  | .hole => faultE 1 va elem
  | .placed vault k off =>
    match placedCause s c.ctx vault k off with
    | some e => faultE (kindOf e) va elem
    | none => do
      if spoiltAt s (placeKey vault k off) size then faultE (kindOf causeMcheck) va elem
      pure (storeGet s (placeKey vault k off) size)
  | .global =>
    let ws := wordsOf va size
    let hits := ws.map (l1Hit s core c.ctx.toNat)
    if hits.all (·.isSome) then pure (fromWords va size (hits.map (·.getD 0))).toNat
    else
      match globalKey s (tilePkg tile) va c.ctx.toNat (cmdPriv s c) false with
      | .error e => readStop core e va elem
      | .ok key =>
        let home := homeTile s (tilePkg tile) va
        waitE (!ddrWaits s (tilePkg tile) va c.ctx.toNat)
        match wordsCause s home ws with
        | some e => faultE (kindOf e) va elem
        | none =>
          let vals := ws.map (fun w => (l1Hit s core c.ctx.toNat w).getD (homeWord s home w (key + w - va)))
          set (fillEngine s core c.ctx.toNat home va key col)
          pure (fromWords va size vals).toNat

/-- Writes bytes for a command: to placed memory with full bits under FB, to global memory of a package as a strong store at the
home (R214, R256, R267). A word of the core's own that is still on its way to its home is waited for. -/
def engineWriteIn (pkg core : Nat) (c : Command) (va size v fb elem : Nat) : EM Unit := do
  let s ← get
  let tile := coreTile core
  match placeOf s tile va with
  | .hole => faultE 1 va elem
  | .placed vault k off =>
    match placedCause s c.ctx vault k off with
    | some e => faultE (kindOf e) va elem
    | none =>
      let key := placeKey vault k off
      let s := storePut s key size (v % 2 ^ (8 * size))
      set (if fb = 1 then s else (wordsOf key size).foldl fullSet s)
  | .global => do
    let key ← homeE elem (writableH pkg va c.ctx.toNat (cmdPriv s c) size)
    waitE (!ddrWaits s pkg va c.ctx.toNat)
    let own := pkg == tilePkg tile
    waitE (!own || (wordsOf va size).all (fun w => ((l1Get s core w).map (·.own)) != some .inFlight))
    homeE elem (writeH pkg va c.ctx.toNat (cmdPriv s c) size v)
    if own then
      modify (fun s => (wordsOf va size).foldl (fun s w =>
        staleLine (l1Mod s core w (fun x => { x with val := BitVec.ofNat 32 (storeGet s (key + w - va) 4) })) core w) s)

/-- The same, in the core's own package. -/
def engineWrite (core : Nat) (c : Command) (va size v fb elem : Nat) : EM Unit :=
  engineWriteIn (corePkg core) core c va size v fb elem

/-! ### Elements -/

def Spot.bytes (p : Spot) : Nat := max 1 (p.bits / 8)

/-- Bytes of placed memory under FB 2 or 3: their word is read whole once it is full, acquired, and under 3 emptied, all
at once; it is kept until `last` has left it (R256). -/
def takeWord (core : Nat) (c : Command) (fb : Nat) (last : Bool) (key size : Nat) : EM Nat := do
  let at_ := if size < 4 then key / 4 * 4 else key
  let n := max 4 size
  let s ← get
  let word ←
    match (cmdAt s core c.seq).bind (fun e => tget e.words at_) with
    | some v => pure v
    | none => do
      waitE (allFull s at_ n)
      modify (fun s => acquireCore s core)
      if fb = 3 then modify (fun s => (wordsOf at_ n).foldl fullClear s)
      pure (storeGet s at_ n)
  modE core c (fun e => { e with words := if last then tdel e.words at_ else tput e.words at_ word })
  pure (word / 2 ^ (8 * (key - at_)) % 2 ^ (8 * size))

/-- Reads bytes of a map under its FB. -/
def readBytes (core : Nat) (c : Command) (fb : Nat) (last col : Bool) (elem va size : Nat) : EM Nat := do
  let v ← engineRead core c va size col elem
  match placeOf (← get) (coreTile core) va with
  | .placed vault k off => if 2 ≤ fb then takeWord core c fb last (placeKey vault k off) size else pure v
  | _ => pure v

/-- Reads an element's pattern; `last` when the next element lies in another word. -/
def readSpot (core : Nat) (c : Command) (fb : Nat) (last col : Bool) (elem : Nat) (p : Spot) : EM Nat := do
  unless p.va % p.bytes = 0 do faultE 5 p.va elem
  let v ← if p.pkg = corePkg core then readBytes core c fb last col elem p.va p.bytes else farRead p.pkg core c p.va p.bytes elem
  pure (v / 2 ^ p.bit % 2 ^ p.bits)

/-- The scale byte of an element's block. -/
def readScale (core : Nat) (c : Command) (m : TMap) (ix : List Nat) (last : Bool) (elem : Nat) : EM Byte := do
  let v ← readBytes core c m.fb last false elem (m.scaleAddr ix) 1
  pure (BitVec.ofNat 8 v)

/-- Reads the exact value of an element by its indices; `next` are those of the element read after it, if any (R33,
R267). -/
def readIx (core : Nat) (c : Command) (m : TMap) (col : Bool) (ix : List Nat) (next : Option (List Nat)) (elem : Nat) :
    EM Num := do
  let s ← get
  let spot (ix : List Nat) : Spot := spotOf s (coreTile core) m col ix
  let x ← readSpot core c m.fb (next.all (fun y => (spot y).va / 4 != (spot ix).va / 4)) col elem (spot ix)
  if m.bs then do
    let sc ← readScale core c m ix (next.all (fun y => m.scaleAddr y / 4 != m.scaleAddr ix / 4)) elem
    pure (blockVal (spot ix).elem sc x)
  else pure (elemVal (spot ix).elem x)

/-- Reads element k of a map in element order: elements of one word that follow each other are one read of the word. -/
def readElem (core : Nat) (c : Command) (m : TMap) (col : Bool) (k : Nat) : EM Num :=
  readIx core c m col (m.indices k) (if k + 1 < m.count then some (m.indices (k + 1)) else none) k

/-- How a value is converted: the transfer rule, a mode without saturation, or SR(8) with it, into integers too (R38, R41, R276). -/
inductive Conv where
  | rule
  | fixed (m : Mode)
  | sr8
  deriving DecidableEq, Repr

def isFlt : Elem → Bool
  | .flt _ => true
  | .int _ _ => false

/-- A bank's drop counter takes a magnitude (R42). -/
def addDrop (s : State) (tile off : Nat) (x : Num) : State :=
  let n := off / 2 ^ 16
  modTile s tile (fun t =>
    { t with bdrop := t.bdrop.setIfInBounds n (roundF32 (numAdd (f32Val (t.bdrop.getD n 0)) (numAbs x))) })

/-- The register of the bank an element lies in; 0 outside LM. -/
def spotBank (s : State) (p : Spot) : Dword :=
  match p.place with
  | .placed false t off => bankReg s t off
  | _ => 0

/-- The value is dropped under the bank's threshold; `th` applies it whatever TEN says (R42, R276). -/
def dropped (s : State) (p : Spot) (th : Bool) (x : Num) : Bool :=
  match p.place with
  | .placed false _ _ =>
    ((spotBank s p).getLsbD 55 || th) && numBelow x ((spotBank s p).extractLsb' 56 8).toInt
  | _ => false

/-- Notes a drop with the bank's counter. -/
def dropAt (s : State) (p : Spot) (x : Num) : State :=
  match p.place with
  | .placed false t off => addDrop s t off x
  | _ => s

/-- SR(k) with fresh bits (R39, R40). -/
def drawMode (k : Nat) (s : State) : Mode × State :=
  let (v, s) := drawBits s
  (.sr k (v.toNat % 2 ^ k), s)

/-- A value's pattern in an element's format, whether it is offending, and the state after a draw or a drop. -/
def convertTo (s : State) (p : Spot) (conv : Conv) (th : Bool) (x : Num) : Nat × Bool × State :=
  if dropped s p th x then (0, false, dropAt s p x)
  else
    let bank := spotBank s p
    match conv with
    | .rule =>
      if bank.getLsbD 54 && isFlt p.elem then
        let (m, s) := drawMode ((bank.extractLsb' 50 4).toNat + 1) s
        let r := transferRound p.elem m x
        (r.bits, offending p.elem x r, s)
      else
        let r := transferRound p.elem .rne x
        (r.bits, offending p.elem x r, s)
    | .fixed m =>
      let r := elemRound p.elem m false x
      (r.bits, offending p.elem x r, s)
    | .sr8 =>
      let (m, s) := drawMode 8 s
      let r := elemRound p.elem m true x
      (r.bits, offending p.elem x r, s)

/-- A converted element added into the word in place (R45, R109, R273). -/
def addInto (e : Elem) (old new : Nat) : Nat :=
  match e with
  | .int w _ => (old + new) % 2 ^ w
  | .flt f =>
    let x := numAdd (decodeFlt f old) (decodeFlt f new)
    if f = f32 then (roundF32 x).toNat else (roundTo f .rne true x).bits

/-- The bytes of an element as they stand, for a write that keeps or adds to some of them. -/
def oldBytes (s : State) (c : Command) (p : Spot) : Nat :=
  match p.place with
  | .global => peek s p.pkg p.va c.ctx.toNat p.bytes
  | .placed vault k off => storeGet s (placeKey vault k off) p.bytes
  | .hole => 0

/-- An add consumes the value it adds to: a spoilt or poisoned one is refused, once the write has passed its checks (R218, R338). -/
def soundE (c : Command) (elem : Nat) (p : Spot) : EM Unit := do
  let s ← get
  match p.place with
  | .global => do
    let _ ← homeE elem (writableH p.pkg p.va c.ctx.toNat (cmdPriv s c) p.bytes)
    if (wordsOf p.va p.bytes).any (isPoisoned s (homeTile s p.pkg p.va)) then faultE (kindOf causeMcheck) p.va elem
  | .placed vault k off =>
    if (placedCause s c.ctx vault k off).isNone && spoiltAt s (placeKey vault k off) p.bytes then
      faultE (kindOf causeMcheck) p.va elem
  | .hole => pure ()

/-- Writes an element's pattern; the other half of a byte is kept (R31). -/
def writeSpot (core : Nat) (c : Command) (fb elem : Nat) (p : Spot) (bits : Nat) : EM Unit := do
  unless p.va % p.bytes = 0 do faultE 5 p.va elem
  if p.bits < 8 then
    let old := oldBytes (← get) c p
    let other := if p.bit = 0 then old / 16 * 16 else old % 16
    engineWriteIn p.pkg core c p.va 1 (other + bits % 16 * 2 ^ p.bit) fb elem
  else engineWriteIn p.pkg core c p.va p.bytes bits fb elem

/-- The tile that an element of a gather or a scatter travels to; none for one that the executing tile accesses directly (R274). -/
def awayTile (s : State) (core : Nat) (p : Spot) : Option Nat :=
  match p.place with
  | .placed _ k _ => if k = coreTile core then none else some k
  | .global => some (homeTile s p.pkg p.va)
  | .hole => none

/-- An element that travels needs a credit of its class there, GATHREQ 7 or SCATREQ 9 (R110, R274). -/
def travelE (core : Nat) (p : Spot) (cls : Nat) : EM Unit := do
  let s ← get
  waitE ((awayTile s core p).all (fun home => creditFree s (performing home p.va) (coreTile core) cls))

/-- A scattered add is performed by the home's handler, which must be free; it costs an atomic's cycles (R218, R274). -/
def addAtHome (core : Nat) (c : Command) (p : Spot) : EM Unit := do
  let s ← get
  match awayTile s core p with
  | none => pure ()
  | some home => do
    waitE (handlerFree s (performing home p.va))
    set (charge s home c.ctx (if isFlt p.elem then 6 else 2))

/-- Stores a value at a spot, or adds it there. -/
def storeAt (core : Nat) (c : Command) (fb elem : Nat) (conv : Conv) (th add : Bool) (p : Spot) (x : Num) : EM Unit := do
  let s ← get
  let (bits, bad, s') := convertTo s p conv th x
  if add then do
    addAtHome core c p
    soundE c elem p
    writeSpot core c fb elem p (addInto p.elem (oldBytes (← get) c p / 2 ^ p.bit % 2 ^ p.bits) bits)
  else writeSpot core c fb elem p bits
  if s'.draws ≠ s.draws then modify (fun s => { s with draws := s'.draws })
  if dropped s p th x then modify (fun s => dropAt s p x)
  if bad then errorE core c 1 elem

/-- Writes a block of a block-scaled map: scale byte, then elements (R34). `k` is the first element's place in the map. The
scale is that of all the values, those the bank's threshold drops among them (DESIGN CHOICE, log 77), for the format of the
first element's bank; each element is rounded into its own bank's format (DESIGN CHOICE, log 78). -/
def flushBlock (core : Nat) (c : Command) (m : TMap) (k elem : Nat) (th : Bool) (xs : List Num) : EM Unit := do
  let s ← get
  let tile := coreTile core
  let sc := blockScale (spotOf s tile m m.col (m.indices k)).elem xs
  engineWrite core c (m.scaleAddr (m.indices k)) 1 sc.toNat m.fb elem
  for i in List.range xs.length do
    let x := xs.getD i .nan
    let s ← get
    let p := spotOf s tile m m.col (m.indices (k + i))
    if dropped s p th x then
      writeSpot core c m.fb (elem + i) p 0
      modify (fun s => dropAt s p x)
    else
      let (bits, bad) := blockRound p.elem sc x
      writeSpot core c m.fb (elem + i) p bits
      if bad then errorE core c 1 (elem + i)

/-- Element k of a destination gets a value, in its own turn or with the rest of its block; an error is recorded at `elem`. -/
def emit (core : Nat) (c : Command) (m : TMap) (k elem : Nat) (conv : Conv) (th : Bool) (x : Num) : EM Unit := do
  let s ← get
  if m.bs then
    let box := ((cmdAt s core c.seq).map (·.outbox)).getD [] ++ [x]
    let i0 := k % m.ext0
    if i0 % 32 = 31 ∨ i0 + 1 = m.ext0 then
      flushBlock core c m (k + 1 - box.length) (elem + 1 - box.length) th box
      modE core c (fun e => { e with outbox := [] })
    else modE core c (fun e => { e with outbox := box })
  else storeAt core c m.fb elem conv th false (spotOf s (coreTile core) m m.col (m.indices k)) x

/-- Elements in LM lie in banks of one element width (R267). -/
def widthsOk (s : State) (core : Nat) (m : TMap) (col : Bool) : Bool :=
  (List.range m.count).all (fun k =>
    let p := spotOf s (coreTile core) m col (m.indices k)
    match p.place with
    | .placed false _ _ => elemBits p.elem == p.bits
    | _ => true)

def widthsE (core : Nat) (m : TMap) : EM Unit := do
  shapeE (widthsOk (← get) core m m.col)

/-- A number that is a nonnegative integer below 2^32. -/
def numNat (x : Num) : Option Nat :=
  match x with
  | .fin neg m e =>
    let v := if 0 ≤ e then m * 2 ^ e.toNat else m / 2 ^ (-e).toNat
    if (e < 0 ∧ v * 2 ^ (-e).toNat ≠ m) ∨ (neg ∧ m ≠ 0) ∨ 2 ^ 32 ≤ v then none else some v
  | _ => none
/-- An index or key; one that is no N32 number lies outside everything. -/
def numIndex (x : Num) : Nat := (numNat x).getD (2 ^ 32)

end Sys2Proof.Machine
end

