-- ==== Sys2Proof/Machine/Transfer.lean ====
section
/-!
DEFINITION. Sys2Proof/Machine/Transfer.lean: COPY, GATH, SCAT, CONVT, COMPRESS and BFPA: what each checks at issue, and one
step of each command (spec/17_copy_convert_instructions.md R266 to R278). A step answers whether the command is complete.
-/

namespace Sys2Proof.Machine

/-! ### COPY and CONVT (R270, R276) -/

/-- One element of an elementwise command. -/
def stepCopy (core : Nat) (c : Command) (conv : Conv) (th : Bool) : EM Bool := do
  let src := mapOf c.mapA
  let dst := mapOf c.mapD
  if c.done = 0 then
    shapeE (src.rank == dst.rank && src.ext == dst.ext)
    widthsE core src
    widthsE core dst
    advanceE core c
    pure false
  else if src.count < c.done then pure true
  else
    let k := c.done - 1
    let x ← readElem core c src src.col k
    emit core c dst k k conv th x
    advanceE core c
    pure false

/-- The conversion of CONVT's mode field. -/
def convMode (m : BitVec 3) : Conv :=
  match m.toNat with
  | 0 => .rule
  | 6 => .sr8
  | n => .fixed (modeOf (n - 1))

/-- A map of a kind, where the format and mode of its kind are right. -/
def isKind (w : BitVec 256) (k : Nat) : Bool := (mapOf w).kind == k
/-- An INDEX map with FMT N32. -/
def isIndex (w : BitVec 256) : Bool := isKind w 2 && (mapOf w).fmt == 6#4

/-- COPY. -/
def execCopy (q : BitVec 3) (a d g : BitVec 4) (s : State) : Result :=
  scalar (.copy q a d g) g s (fun t => do
    let w := wordOf (.copy q a d g)
    match (← namedMaps t w q [d, a]) with
    | [md, ma] =>
      guardM (isKind md 0 && isKind ma 0) causeProt w
      pushM_ t w md ma 0 []
    | _ => pure .seq)

/-- CONVT: with .TH the destination lies in the own-tile LM row. -/
def execConvt (h : BitVec 1) (m q : BitVec 3) (a d g : BitVec 4) (s : State) : Result :=
  scalar (.convt h m q a d g) g s (fun t => do
    let w := wordOf (.convt h m q a d g)
    match (← namedMaps t w q [d, a]) with
    | [md, ma] =>
      guardM (isKind md 0 && isKind ma 0 && (h == 0#1 || decide ((mapOf md).base < 0x100000))) causeProt w
      pushM_ t w md ma 0 []
    | _ => pure .seq)

/-! ### Volumes for engine commands (R239, R241, R243) -/

/-- The volume of a handle, through the core's CLB; one of another package too (R247, R274). -/
def openE (core : Nat) (c : Command) (handle : Nat) : EM Volume := do
  let s ← get
  match volEntry s core c.ctx.toNat handle with
  | some v => pure v
  | none => do
    waitE (!(isGlobal handle && spanWaits s (corePkg core) handle 64 c.ctx.toNat))
    match readVol s core c.ctx.toNat (cmdPriv s c) handle with
    | .error (e, va) => readStop core e va 0
    | .ok (v, s) =>
      set s
      pure v

/-- The block of a tile, made where it is missing. -/
def allocE (core : Nat) (c : Command) (v : Volume) (tile elem : Nat) : Nat → EM Nat
  | 0 => throw .wait
  | fuel + 1 => do
    let s ← get
    let pkg := volPkg (corePkg core) v
    match walkVol s pkg c.ctx.toNat (cmdPriv s c) tile (fun _ => none) v with
    | .waits => throw .wait
    | .trap e va => readStop core e va elem
    | .block a _ => do
      set (mapTile s core v tile a)
      pure a
    | .absent entry level =>
      match (← homeE elem (allocate pkg c.ctx.toNat (cmdPriv s c) v entry level)) with
      | .error n => faultE 10 (v.handle ||| n) elem
      | .ok _ => allocE core c v tile elem fuel

/-- The cell at coordinates, for a gather or, with `alloc`, a scatter. -/
def cellE (core : Nat) (c : Command) (v : Volume) (coords : List Nat) (alloc : Bool) (elem : Nat) : EM Cell := do
  match locate v coords with
  | none => pure .outside
  | some (tile, q) =>
    let off := q * cellBytes v
    let s ← get
    let known := (coreAt s core).clb.find? (fun x => x.ctx == c.ctx.toNat && x.handle == v.handle && x.tile == tile)
    match known.map (·.block) with
    | some (n + 1) => pure (.at_ (n + 1 + off))
    | b =>
      if alloc then do
        let a ← allocE core c v tile elem 6
        pure (.at_ (a + off))
      else if b = some 0 then pure .empty
      else
        match walkVol s (volPkg (corePkg core) v) c.ctx.toNat (cmdPriv s c) tile (fun _ => none) v with
        | .waits => throw .wait
        | .trap e va => readStop core e va elem
        | .block a _ => do
          set (mapTile s core v tile a)
          pure (.at_ (a + off))
        | .absent _ _ => do
          set (modCore s core (fun x =>
            addClb x { ctx := c.ctx.toNat, handle := v.handle, tile := tile, block := 0 }))
          pure .empty

/-- One more of a volume's counts: EMPTY 0, OOB 1, EMPTYU 2. -/
def countE (core : Nat) (c : Command) (handle which : Nat) : EM Unit :=
  modify (fun s => countVol s (homePkg (corePkg core) handle) c.ctx.toNat handle which)

/-- The spot of an element of a volume's cell, which lies in the descriptor's package (R247). -/
def cellSpot (s : State) (core : Nat) (m : TMap) (va j : Nat) : Spot :=
  let bits := elemBits m.elem
  { spotAt s (coreTile core) m (va + j * bits / 8) (j * bits % 8) bits with pkg := homePkg (corePkg core) m.base }

/-! ### GATH and SCAT (R271 to R274) -/

/-- Elements of a row of a target. -/
def rowLen (m : TMap) : Nat := if m.kind ≠ 1 ∧ m.rank = 1 then 1 else m.ext0

/-- The indices where the row of an entry begins; none outside a DENSE target. -/
def denseRow (m : TMap) (imode : Nat) (e : List Nat) : Option (List Nat) :=
  let e0 := e.getD 0 0
  if m.rank = 1 then (if e0 < m.ext0 then some [e0, 0, 0, 0] else none)
  else
    let ix := if imode = 0 then [e0 % m.ext1, e0 / m.ext1 % m.ext2, e0 / (m.ext1 * m.ext2)]
      else [e0, e.getD 1 0, e.getD 2 0]
    if e.getD 3 0 = 0 ∧ (List.range 3).all (fun d => decide (ix.getD d 0 < m.ext.getD (d + 1) 1)) then some (0 :: ix)
    else none

/-- Finds row k of a target, and notes it: 0 with indices, 1 with the address of a cell, 2 background, 3 zeros (R271,
R243). -/
def findRow (core : Nat) (c : Command) (tgt idx : TMap) (k elem : Nat) (scatter : Bool) : EM Unit := do
  let g := 2 ^ idx.imode
  let e ← (List.range g).mapM (fun i => do
    let x ← readElem core c idx idx.col (k * g + i)
    pure (numIndex x))
  let note ←
    if tgt.kind = 1 then do
      let v ← openE core c tgt.base
      match (← cellE core c v e scatter elem) with
      | .at_ va => pure [1, va]
      | .empty => do
        countE core c tgt.base 0
        pure [2]
      | .outside => do
        countE core c tgt.base 1
        errorE core c 2 elem
        pure [if v.oobbg then 2 else 3]
    else
      match denseRow tgt idx.imode e with
      | some ix => pure (0 :: ix)
      | none => do
        let s ← get
        faultE 6 (spotOf s (coreTile core) idx idx.col (idx.indices (k * g))).va (k * g)
  modE core c (fun x => { x with notes := note })

/-- Element j of the background of a volume's cell. -/
def backElem (v : Volume) (m : TMap) (j : Nat) : Num :=
  elemVal m.elem (v.bg.toNat / 2 ^ (j * elemBits m.elem % 64) % 2 ^ elemBits m.elem)

/-- A block of a block-scaled map, with one of its elements replaced, or added to: for a row of a single element. -/
def patchBlock (core : Nat) (c : Command) (m : TMap) (k : Nat) (add : Bool) (x : Num) : EM Unit := do
  let m0 := { m with fb := 0 }
  let k0 := k - k % m.ext0 % 32
  let n := min 32 (m.ext0 - k0 % m.ext0)
  let xs ← (List.range n).mapM (fun i => do
    let old ← readIx core c m0 m.col (m.indices (k0 + i)) none (k0 + i)
    pure (if k0 + i = k then (if add then numAdd old x else x) else old))
  flushBlock core c m k0 k0 false xs

/-- Element p of a scatter reaches its row, whose place `note` gives. -/
def scatterOne (core : Nat) (c : Command) (tgt data : TMap) (p j : Nat) (note : List Nat) (add : Bool) : EM Unit := do
  match note with
  | 0 :: i0 :: rest => do
    let x ← readElem core c data data.col p
    let ix := (i0 + j) :: rest
    let te := tgt.order ix
    travelE core (spotOf (← get) (coreTile core) tgt tgt.col ix) 9
    if tgt.bs then
      if tgt.rank = 1 then patchBlock core c tgt te add x
      else do
        let old ← if add then readIx core c { tgt with fb := 0 } tgt.col ix none te else pure (.fin true 0 0)
        emit core c tgt te te .rule false (if add then numAdd old x else x)
    else storeAt core c tgt.fb te .rule false add (spotOf (← get) (coreTile core) tgt tgt.col ix) x
  | [1, va] => do
    let x ← readElem core c data data.col p
    travelE core (cellSpot (← get) core tgt va j) 9
    storeAt core c tgt.fb p .rule false add (cellSpot (← get) core tgt va j) x
  | _ => pure ()

/-- Element p of a gather. -/
def gatherOne (core : Nat) (c : Command) (tgt data : TMap) (p j rl : Nat) (note : List Nat) : EM Unit := do
  let s ← get
  let x ←
    match note with
    | 0 :: i0 :: rest => do
      travelE core (spotOf s (coreTile core) tgt tgt.col ((i0 + j) :: rest)) 7
      readIx core c tgt tgt.col ((i0 + j) :: rest) (if j + 1 < rl then some ((i0 + j + 1) :: rest) else none)
        (tgt.order ((i0 + j) :: rest))
    | [1, va] => do
      travelE core (cellSpot s core tgt va j) 7
      let r ← readSpot core c 0 true tgt.col p (cellSpot s core tgt va j)
      pure (elemVal tgt.elem r)
    | [2] => do
      let v ← openE core c tgt.base
      pure (backElem v tgt j)
    | _ => pure (.fin false 0 0)
  emit core c data p p .rule false x

/-- One step of GATH, SCAT or SCAT.ADD: a row is found, or one of its elements moves. -/
def stepRows (core : Nat) (c : Command) (scatter add : Bool) : EM Bool := do
  let tgt := mapOf (if scatter then c.mapD else c.mapA)
  let data := mapOf (if scatter then c.mapA else c.mapD)
  let idx := mapOf c.mapB
  let rl := rowLen tgt
  let n := idx.count / 2 ^ idx.imode
  if c.done = 0 then
    shapeE (idx.count % 2 ^ idx.imode == 0 && !(tgt.kind == 0 && tgt.rank == 1 && idx.imode != 0) && data.count == n * rl)
    if tgt.kind = 1 then do
      let v ← openE core c tgt.base
      shapeE (decide (rl * elemBits tgt.elem ≤ 8 * cellBytes v))
    else widthsE core tgt
    widthsE core data
    widthsE core idx
    advanceE core c
    pure false
  else if n * rl < c.done then pure true
  else
    let p := c.done - 1
    let j := p % rl
    if c.notes = [] then findRow core c tgt idx (p / rl) p scatter
    else do
      if scatter then scatterOne core c tgt data p j c.notes add
      else gatherOne core c tgt data p j rl c.notes
      advanceE core c
      if j + 1 = rl then modE core c (fun e => { e with notes := [] })
    pure false

/-- GATH. -/
def execGath (q : BitVec 3) (b a d g : BitVec 4) (s : State) : Result :=
  scalar (.gath q b a d g) g s (fun t => do
    let w := wordOf (.gath q b a d g)
    match (← namedMaps t w q [d, a, b]) with
    | [md, ma, mb] =>
      guardM (isKind md 0 && (isKind ma 0 || isKind ma 1) && isIndex mb) causeProt w
      pushM_ t w md ma mb []
    | _ => pure .seq)

/-- SCAT. -/
def execScat (q : BitVec 3) (b a d g : BitVec 4) (s : State) : Result :=
  scalar (.scat q b a d g) g s (fun t => do
    let w := wordOf (.scat q b a d g)
    match (← namedMaps t w q [d, a, b]) with
    | [md, ma, mb] =>
      guardM ((isKind md 0 || isKind md 1) && isKind ma 0 && isIndex mb) causeProt w
      pushM_ t w md ma mb []
    | _ => pure .seq)

/-- SCAT.ADD: into global memory or a volume only with I32, N32, I64, N64 or F32. -/
def execScatAdd (q : BitVec 3) (b a d g : BitVec 4) (s : State) : Result :=
  scalar (.scatAdd q b a d g) g s (fun t => do
    let w := wordOf (.scatAdd q b a d g)
    match (← namedMaps t w q [d, a, b]) with
    | [md, ma, mb] =>
      let m := mapOf md
      let far := m.kind == 1 || isGlobal m.base
      guardM ((isKind md 0 || isKind md 1) && isKind ma 0 && isIndex mb) causeProt w
      guardM (!far || [2, 3, 6, 7, 8].contains m.fmt.toNat) causeProt w
      pushM_ t w md ma mb []
    | _ => pure .seq)

/-! ### COMPRESS (R277) -/

/-- Element i of a group ranks before element j. -/
def ranksBefore (xs : List Num) (i j : Nat) : Bool :=
  let a := numAbs (xs.getD i .nan)
  let b := numAbs (xs.getD j .nan)
  match numCmp a b with
  | some .gt => true
  | some .lt => false
  | some .eq => decide (i < j)
  | none => if numIsNan a && numIsNan b then decide (i < j) else numIsNan a

/-- The indices a group keeps, ascending. -/
def keptOf (xs : List Num) (n : Nat) : List Nat :=
  (List.range xs.length).filter (fun j =>
    decide (((List.range xs.length).filter (fun i => i != j && ranksBefore xs i j)).length < n))

/-- The metadata element of the kept indices, `sh` bits each. -/
def metaOf (sh : Nat) : List Nat → Nat
  | [] => 0
  | j :: r => j + 2 ^ sh * metaOf sh r

/-- One step of COMPRESS: an element is read; the last of a group writes the kept ones and the metadata. -/
def stepCompress (core : Nat) (c : Command) (four : Bool) : EM Bool := do
  let src := mapOf c.mapA
  let dst := mapOf c.mapD
  let mt := mapOf c.mapB
  let m := if four then 8 else 4
  let n := m / 2
  if c.done = 0 then
    shapeE (src.ext0 % m == 0 && dst.count == src.count / 2 && mt.count == src.count / m)
    widthsE core src
    widthsE core dst
    widthsE core mt
    advanceE core c
    pure false
  else if src.count < c.done then pure true
  else
    let k := c.done - 1
    let x ← readElem core c src src.col k
    let xs := c.got ++ [x]
    if k % m = m - 1 then
      let grp := k / m
      let kept := keptOf xs n
      for i in List.range n do
        emit core c dst (grp * n + i) (grp * n + i) .rule false (xs.getD (kept.getD i 0) .nan)
      storeAt core c mt.fb grp .rule false false (spotOf (← get) (coreTile core) mt mt.col (mt.indices grp))
        (numOfInt (metaOf (if four then 3 else 2) kept))
      modE core c (fun e => { e with got := [] })
    else modE core c (fun e => { e with got := xs })
    advanceE core c
    pure false

/-- COMPRESS: the metadata map has FMT N8 for 2-in-4 and N16 for 4-in-8. -/
def execCompress (p : BitVec 1) (q : BitVec 3) (b a d g : BitVec 4) (s : State) : Result :=
  scalar (.compress p q b a d g) g s (fun t => do
    let w := wordOf (.compress p q b a d g)
    match (← namedMaps t w q [d, a, b]) with
    | [md, ma, mb] =>
      guardM (isKind md 0 && isKind ma 0 && isKind mb 3 && (mapOf mb).fmt == (if p = 1#1 then 5#4 else 4#4)) causeProt w
      pushM_ t w md ma mb []
    | _ => pure .seq)

/-! ### BFPA (R278) -/

/-- One block: both sources are read whole, added, and written. -/
def stepBfpa (core : Nat) (c : Command) : EM Bool := do
  let a := mapOf c.mapA
  let b := mapOf c.mapB
  let d := mapOf c.mapD
  if c.done = 0 then
    shapeE (a.rank == d.rank && b.rank == d.rank && a.ext == d.ext && b.ext == d.ext)
    widthsE core a
    widthsE core b
    widthsE core d
    advanceE core c
    pure false
  else
    let per := (d.ext0 + 31) / 32
    let n := c.done - 1
    if per * (d.count / d.ext0) ≤ n then pure true
    else
      let i0 := n % per * 32
      let k := n / per * d.ext0 + i0
      let block := List.range (min 32 (d.ext0 - i0))
      let xs ← block.mapM (fun i => readElem core c a a.col (k + i))
      let ys ← block.mapM (fun i => readElem core c b b.col (k + i))
      flushBlock core c d k k false ((xs.zip ys).map (fun x => numAdd x.1 x.2))
      advanceE core c
      pure false

/-- An address where BFPA may write: the own LM or DIRECT ways, or, on a post core, the context's post buffer. -/
def bfpaPlace (s : State) (ctx : BitVec 11) (core va : Nat) : Bool :=
  let tile := coreTile core
  match placeOf s tile va with
  | .placed vault k off =>
    k == tile &&
      (if coreNum core < 8 then true
       else
         let x := tileAt s tile
         let buf := (x.pqcfg.extractLsb' 0 20).toNat
         let bytes := ((x.pqcfg.extractLsb' 20 12).toNat + 1) * 2 ^ (x.pqcfg.extractLsb' 40 4).toNat
         !vault && x.pqcfg.getLsbD 63 && x.pqctx == ctx && decide (buf ≤ off) && decide (off < buf + bytes))
  | _ => false

/-- BFPA. -/
def execBfpa (q : BitVec 3) (b a d g : BitVec 4) (s : State) : Result :=
  scalar (.bfpa q b a d g) g s (fun t => do
    let w := wordOf (.bfpa q b a d g)
    match (← namedMaps t w q [d, a, b]) with
    | [md, ma, mb] =>
      guardM ([md, ma, mb].all (fun m => isKind m 0 && (mapOf m).bs)) causeProt w
      let s ← get
      guardM (bfpaPlace s t.ctx (hereCore s) (mapOf md).base && bfpaPlace s t.ctx (hereCore s) (mapOf md).aux) causeProt w
      pushM_ t w md ma mb []
    | _ => pure .seq)

end Sys2Proof.Machine
end

