-- ==== Sys2Proof/Machine/Matrix.lean ====
section
/-!
DEFINITION. Sys2Proof/Machine/Matrix.lean: the matrix array: MMA, MMAS, MZERO, MLDACC and MSTACC
(spec/18_matrix_unit.md R287 to R299; the sum order of R43).
-/

namespace Sys2Proof.Machine

/-! ### Accumulators (R293) -/

/-- z[i][j] of an accumulator. -/
def zAt (z : BitVec 131072) (i j : Nat) : Word := z.extractLsb' (32 * (64 * i + j)) 32
/-- An accumulator from its elements. -/
def zPack (f : Nat → Nat → Word) : BitVec 131072 :=
  BitVec.ofNat 131072 ((List.range 4096).foldr (fun n acc => (f (n / 64) (n % 64)).toNat + 2 ^ 32 * acc) 0)
def zGet (s : State) (tile : Nat) (n : BitVec 2) : BitVec 131072 := (tileAt s tile).z[n.toNat]'n.isLt
def zSet (s : State) (tile : Nat) (n : BitVec 2) (v : BitVec 131072) : State :=
  modTile s tile (fun t => { t with z := t.z.set n.toNat v n.isLt })
def zOwner (s : State) (tile : Nat) (n : BitVec 2) : Option (BitVec 11) := (tileAt s tile).zowner[n.toNat]'n.isLt
/-- An accumulator of another context is cleared before a command of `ctx` uses it, which becomes its owner. -/
def zClaim (s : State) (tile : Nat) (n : BitVec 2) (ctx : BitVec 11) : State :=
  if zOwner s tile n = some ctx then s
  else modTile (zSet s tile n 0) tile (fun t => { t with zowner := t.zowner.set n.toNat (some ctx) n.isLt })

/-! ### Operands (R287 to R292) -/

/-- The class of a format (R290, Table 2). -/
def classOf : Elem → Option Nat
  | .int w _ => if w = 8 then some 8 else none
  | .flt f => if f = f32 then some 32 else if f = f16 ∨ f = b16 then some 16 else if fmtWidth f ≤ 8 then some 8 else none

/-- The fault of an address for an operand in LM, or, for `vault`, in the vault; none when it may lie there (R287, R288). -/
def operandFault (s : State) (tile : Nat) (c : Command) (vault : Bool) (va : Nat) : Option (BitVec 8) :=
  match placeOf s tile va with
  | .placed v k off =>
    if v ≠ vault ∨ k ≠ tile then some (if vault then 1 else 2)
    else if vault then
      let way := off / 2 ^ 19
      let inWindow := match c.window with
        | some (w0, n) => decide (w0 ≤ way) && decide (way < w0 + n)
        | none => true
      if wayHeld s tile c.ctx off && inWindow then none else some 2
    else if bankHeld s tile c.ctx off then none else some 2
  | _ => some (if vault then 1 else 2)

/-- Checks the address of every element and scale byte of an operand. -/
def operandE (core : Nat) (c : Command) (m : TMap) (col vault : Bool) : EM Unit := do
  let s ← get
  let tile := coreTile core
  for k in List.range m.count do
    let ix := m.indices k
    let p := spotOf s tile m col ix
    match operandFault s tile c vault p.va with
    | some kind => faultE kind p.va k
    | none => pure ()
    if m.bs then
      if (operandFault s tile c vault (m.scaleAddr ix)).isSome then faultE 2 (m.scaleAddr ix) k

/-- Every element has a format of the class: its bank's in LM, the map's elsewhere (R267, R290). -/
def classesOk (s : State) (tile : Nat) (m : TMap) (col : Bool) (cl : Nat) : Bool :=
  (List.range m.count).all (fun k =>
    classOf (spotOf s tile m col (m.indices k)).elem == some cl)

/-! ### Sparse A (R295, R296) -/

/-- Bits of an index, group size and kept elements of a metadata format. -/
def sparseOf (m : TMap) : Nat × Nat × Nat := if m.fmt = 5#4 then (3, 8, 4) else (2, 4, 2)
/-- The indices a metadata element names. -/
def metaIndices (sh n x : Nat) : List Nat := (List.range n).map (fun t => x / 2 ^ (sh * t) % 2 ^ sh)
/-- Strictly ascending. -/
def ascending : List Nat → Bool
  | a :: b :: r => decide (a < b) && ascending (b :: r)
  | _ => true
/-- A metadata element that is not malformed. -/
def metaOk (sh n : Nat) (x : Num) : Bool :=
  match numNat x with
  | some v => decide (v < 2 ^ (sh * n)) && ascending (metaIndices sh n v)
  | none => false

/-! ### The product (R43) -/

/-- The exact sum of one block of 32 products; an exact zero is +0. -/
def blockSum (a b : Nat → Num) : Num :=
  (List.range 32).foldl (fun acc t => numAdd acc (numMul (a t) (b t))) (.fin false 0 0)

/-- One element after the blocks from kb on. -/
def sumBlocks (a b : Nat → Num) : Nat → Nat → Word → Word
  | 0, _, z => z
  | n + 1, kb, z =>
    let s := roundF32 (blockSum (fun t => a (32 * kb + t)) (fun t => b (32 * kb + t)))
    sumBlocks a b n (kb + 1) (roundF32 (numAdd (f32Val z) (f32Val s)))

/-- Element (k, i) of an operand read in element order; outside the extents +0. -/
def operandAt (m : TMap) (vals : Array Num) (k i : Nat) : Num :=
  if k < m.ext0 ∧ i < m.ext1 then vals.getD (k + m.ext0 * i) .nan else .fin false 0 0

/-- Element (k, i) of the decompressed A (R295). -/
def sparseAt (a d : TMap) (vals metas : Array Num) (k i : Nat) : Num :=
  let (sh, m, n) := sparseOf d
  let g := k / m
  if g < d.ext0 ∧ i < d.ext1 then
    let js := metaIndices sh n (numIndex (metas.getD (g + d.ext0 * i) .nan))
    match (List.range n).find? (fun t => js.getD t m == k % m) with
    | some t => operandAt a vals (n * g + t) i
    | none => .fin false 0 0
  else .fin false 0 0

/-- One step of MMA, or, with a metadata map, of MMAS: the checks, one operand element, or the product. -/
def stepMma (core : Nat) (c : Command) (sparse acc acol bcol : Bool) (z : BitVec 2) : EM Bool := do
  let a := mapOf c.mapA
  let b := mapOf c.mapB
  let d := mapOf c.mapD
  let (sh, m, n) := sparseOf d
  let tile := coreTile core
  let depth := if sparse then m * d.ext0 else a.ext0
  let nd := if sparse then d.count else 0
  if c.done = 0 then
    let s ← get
    shapeE (decide (a.rank ≤ 2) && decide (b.rank ≤ 2) && decide (a.ext1 ≤ 64) && decide (b.ext1 ≤ 64) &&
      !(acol && a.rank == 1) && !(bcol && b.rank == 1) && b.ext0 == depth && decide ((depth + 31) / 32 * 32 ≤ 4096))
    shapeE (!sparse || (decide (d.rank ≤ 2) && !(acol && d.rank == 1) && a.ext0 == n * d.ext0 && a.ext1 == d.ext1 && !a.bs))
    shapeE (widthsOk s core a acol && (!sparse || widthsOk s core d acol))
    match classOf b.elem with
    | some cl => shapeE (classesOk s tile a acol cl)
    | none => shapeE false
    operandE core c a acol false
    operandE core c b bcol true
    if sparse then operandE core c d acol false
    advanceE core c
    pure false
  else
    let k := c.done - 1
    if k < nd + a.count + b.count then
      let x ←
        if k < nd then do
          let x ← readElem core c d acol k
          unless metaOk sh n x do faultE 7 (spotOf (← get) tile d acol (d.indices k)).va k
          pure x
        else if k < nd + a.count then readElem core c a acol (k - nd)
        else readElem core c b bcol (k - nd - a.count)
      modE core c (fun e => { e with got := x :: c.got })
      advanceE core c
      pure false
    else
      let vals := c.got.reverse
      let metas := (vals.take nd).toArray
      let av := ((vals.drop nd).take a.count).toArray
      let bv := (vals.drop (nd + a.count)).toArray
      let s := zClaim (← get) tile z c.ctx
      let old := zGet s tile z
      let aAt (i k : Nat) : Num := if sparse then sparseAt a d av metas k i else operandAt a av k i
      set (zSet s tile z (zPack (fun i j =>
        sumBlocks (aAt i) (fun k => operandAt b bv k j) ((depth + 31) / 32) 0 (if acc then zAt old i j else 0))))
      modE core c (fun e => { e with got := [] })
      pure true

/-- MMA (R297). -/
def execMma (u k j : BitVec 1) (z : BitVec 2) (q : BitVec 3) (b a g : BitVec 4) (s : State) : Result :=
  scalar (.mma u k j z q b a g) g s (fun t => do
    let w := wordOf (.mma u k j z q b a g)
    match (← namedMaps t w q [a, b]) with
    | [ma, mb] =>
      guardM (isKind ma 0 && isKind mb 0) causeProt w
      pushM_ t w 0 ma mb []
    | _ => pure .seq)

/-- MMAS (R297). -/
def execMmas (u k j : BitVec 1) (z : BitVec 2) (q : BitVec 3) (b a d g : BitVec 4) (s : State) : Result :=
  scalar (.mmas u k j z q b a d g) g s (fun t => do
    let w := wordOf (.mmas u k j z q b a d g)
    match (← namedMaps t w q [d, a, b]) with
    | [md, ma, mb] =>
      guardM (isKind ma 0 && isKind mb 0 && isKind md 3 && ((mapOf md).fmt == 4#4 || (mapOf md).fmt == 5#4)) causeProt w
      pushM_ t w md ma mb []
    | _ => pure .seq)

/-! ### MZERO, MLDACC, MSTACC (R298, R299) -/

/-- MZERO's only step. -/
def stepMzero (core : Nat) (c : Command) (z : BitVec 2) : EM Bool := do
  let s ← get
  set (zSet (zClaim s (coreTile core) z c.ctx) (coreTile core) z 0)
  pure true

/-- The map of an accumulator move is small enough. -/
def accShape (m : TMap) : Bool := decide (m.rank ≤ 2) && decide (m.ext0 ≤ 64) && decide (m.ext1 ≤ 64)

/-- One step of MLDACC: an element is read, or, after the last, the accumulator written. -/
def stepMldacc (core : Nat) (c : Command) (z : BitVec 2) : EM Bool := do
  let m := mapOf c.mapA
  let tile := coreTile core
  if c.done = 0 then
    shapeE (accShape m)
    widthsE core m
    advanceE core c
    pure false
  else
    let k := c.done - 1
    if k < m.count then
      let x ← readElem core c m m.col k
      let r := roundTo f32 .rne true x
      if offending (.flt f32) x r then errorE core c 1 k
      modE core c (fun e => { e with got := x :: c.got })
      advanceE core c
      pure false
    else
      let vals := c.got.reverse.toArray
      let s := zClaim (← get) tile z c.ctx
      set (zSet s tile z (zPack (fun r col => BitVec.ofNat 32 (roundTo f32 .rne true (operandAt m vals col r)).bits)))
      modE core c (fun e => { e with got := [] })
      pure true

/-- One step of MSTACC: an element is stored. -/
def stepMstacc (core : Nat) (c : Command) (z : BitVec 2) : EM Bool := do
  let m := mapOf c.mapD
  let tile := coreTile core
  if c.done = 0 then
    shapeE (accShape m)
    widthsE core m
    modify (fun s => zClaim s tile z c.ctx)
    advanceE core c
    pure false
  else if m.count < c.done then pure true
  else
    let k := c.done - 1
    emit core c m k k .rule false (f32Val (zAt (zGet (← get) tile z) (k / m.ext0) (k % m.ext0)))
    advanceE core c
    pure false

/-- MZERO. -/
def execMzero (z : BitVec 2) (q : BitVec 3) (g : BitVec 4) (s : State) : Result :=
  scalar (.mzero z q g) g s (fun t => do
    let w := wordOf (.mzero z q g)
    let _ ← namedMaps t w q []
    pushM_ t w 0 0 0 [])

/-- MLDACC. -/
def execMldacc (z : BitVec 2) (q : BitVec 3) (a g : BitVec 4) (s : State) : Result :=
  scalar (.mldacc z q a g) g s (fun t => do
    let w := wordOf (.mldacc z q a g)
    match (← namedMaps t w q [a]) with
    | [ma] =>
      guardM (isKind ma 0) causeProt w
      pushM_ t w 0 ma 0 []
    | _ => pure .seq)

/-- MSTACC. -/
def execMstacc (z : BitVec 2) (q : BitVec 3) (d g : BitVec 4) (s : State) : Result :=
  scalar (.mstacc z q d g) g s (fun t => do
    let w := wordOf (.mstacc z q d g)
    match (← namedMaps t w q [d]) with
    | [md] =>
      guardM (isKind md 0) causeProt w
      pushM_ t w md 0 0 []
    | _ => pure .seq)

end Sys2Proof.Machine
end

