-- ==== Sys2Proof/Machine/Joins.lean ====
section
/-!
DEFINITION. Sys2Proof/Machine/Joins.lean: the join commands KAGG, KBCAST, KFOLD, KDIRTY and KISECT, the galleys they work
on, ordered staging and the change log (spec/20_factorised_joins.md R303 to R316, spec/21_join_instructions.md).
-/

namespace Sys2Proof.Machine

/-! ### Galleys (R303, R310, R321) -/

/-- A strong read of the Dray core at the home. -/
def strongE (core : Nat) (c : Command) (va size : Nat) : EM Nat := do
  let s ← get
  match readHome s (corePkg core) va c.ctx.toNat (cmdPriv s c) size with
  | .error e => readStop core e va 0
  | .ok v => do
    waitE (!ddrWaits s (corePkg core) va c.ctx.toNat)
    pure v

/-- The volume of a galley, which lies in the core's own package: only gathers and scatters reach another's (R247). -/
def openGalley (core : Nat) (c : Command) (handle : Nat) : EM Volume := do
  if isGlobal handle && homePkg (corePkg core) handle != corePkg core then faultE (kindOf causeProt) handle 0
  openE core c handle

/-- Entries of a hot-key list from n on: key and stripes in turn. -/
def hotEntries (core : Nat) (c : Command) (hot : Nat) : Nat → Nat → Option Nat → EM (List Nat)
  | 0, _, _ => pure []
  | left + 1, n, prev => do
    let va := hot + 8 * n
    let e ← strongE core c va 8
    let key := e / 2 ^ 32
    let low : Bool := match prev with | some p => decide (key ≤ p) | none => false
    if e / 16 % 2 ^ 28 ≠ 0 ∨ low = true then faultE 6 va 0
    let rest ← hotEntries core c hot left (n + 1) (some key)
    pure (key :: (e % 16 + 1) :: rest)

/-- What a command notes of its galley when it begins: W, CHG, then the hot keys with their stripes. A volume, an extension
or a list that breaks its rules takes kind 6. -/
def beginGalley (core : Nat) (c : Command) (handle : Nat) : EM Unit := do
  let v ← openGalley core c handle
  let x ← (List.range 8).mapM (fun i => strongE core c (handle + 64 + 8 * i) 8)
  let x0 := x.getD 0 0
  let w := x0 / 2 ^ 56 % 128
  let cs := x0 / 2 ^ 51 % 32
  let cb := x0 % 2 ^ 48
  let ok := handle % 128 == 0 && v.rank == 2 && v.ext.getD 1 0 == 16 && v.ts.getD 1 0 == 0 && v.bg == 0#64 &&
    decide (1 ≤ w) && decide (w ≤ 64) && decide (4 * (w + 2) ≤ cellBytes v) && decide (6 ≤ cs) && decide (cs ≤ 24) &&
    x0 / 2 ^ 48 % 8 == 0 && cb % 2 ^ (cs + 3) == 0 && x.getD 4 0 % 2 ^ 32 == 0 && (x.drop 5).all (fun d => d == 0)
  unless ok do faultE 6 handle 0
  let hot ←
    if v.hot = 0 then pure []
    else do
      let n ← strongE core c v.hot 8
      if 4096 < n then faultE 6 v.hot 0
      hotEntries core c v.hot n 1 none
  modE core c (fun e => { e with notes := w :: x0 / 2 ^ 63 :: hot })

/-- W of a command's galley. -/
def noteW (c : Command) : Nat := c.notes.getD 0 0
/-- Its change log is on. -/
def noteChg (c : Command) : Bool := c.notes.getD 1 0 == 1
/-- Stripes of a key in the list read at the start; 1 for a key that is not listed. -/
def stripesIn : List Nat → Nat → Nat
  | k :: n :: r, key => if k = key then n else stripesIn r key
  | _, _ => 1
def stripesOf (c : Command) (key : Nat) : Nat := stripesIn (c.notes.drop 2) key

/-- A pairs map fits the galley and the keys. -/
def pairsOk (m : TMap) (w keys : Nat) : Bool := m.rank == 2 && m.ext0 == w + 1 && m.ext1 == keys

/-! ### Cells at their owners (R304, R305) -/

/-- Word e of a pair in a cell: COUNT, then ROW. -/
def pairAddr (cell e : Nat) : Nat := if e = 0 then cell else cell + 4 + 4 * e
/-- The pair of a cell, read by its owner. -/
def cellPair (pkg ctx : Nat) (priv : BitVec 2) (cell w : Nat) : HM (List Word) :=
  (List.range (w + 1)).mapM (fun e => do
    let v ← readH pkg (pairAddr cell e) ctx priv 4
    pure (BitVec.ofNat 32 v))
/-- The owner of a cell. -/
def ownerCore (s : State) (pkg cell : Nat) : Nat := performing (homeTile s pkg cell) cell

/-- Adds a pair word by word from e on, each add rounded alone (R323, R45). -/
def addPair (pkg ctx : Nat) (priv : BitVec 2) (cell : Nat) : Nat → List Word → HM Unit
  | _, [] => pure ()
  | e, x :: r => do
    let _ ← updateH pkg (pairAddr cell e) ctx priv 4 (fun old =>
      (roundF32 (numAdd (f32Val (BitVec.ofNat 32 old)) (f32Val x))).toNat)
    addPair pkg ctx priv cell (e + 1) r

/-- Sets COUNT and ROW to +0; STAMP stays (R311). -/
def clearPair (pkg ctx : Nat) (priv : BitVec 2) (cell w : Nat) : HM Unit :=
  (List.range (w + 1)).forM (fun e => writeH pkg (pairAddr cell e) ctx priv 4 0)

/-- A cell whose log entry is still on its way is held (R322, R327). -/
def cellBusy (s : State) (cell : Nat) : Bool :=
  s.net.any (fun p =>
    match p.body with
    | .logEntry _ _ _ x _ _ => x == cell
    | _ => false)
/-- Log entries that a Dray core's elements wait for. -/
def logOut (s : State) (core : Nat) : Bool :=
  s.net.any (fun p => slotCore p.src == core &&
    match p.body with
    | .logEntry _ _ _ _ _ _ => true
    | _ => false)

/-- `times` elements of a key have changed stripe 0: unless STAMP shows it is listed in this epoch, the entry goes to the
extension's home (R315, R327). -/
def logKey (s : State) (core pkg ctx handle key cell times : Nat) : State :=
  let stamp := (peek s pkg (handle + 92) ctx 4 + 1) % 2 ^ 32
  if times = 0 ∨ peek s pkg (cell + 4) ctx 4 = stamp then s
  else
    post s (slotKey core 15) (performing (homeTile s pkg (handle + 64)) (handle + 64)) 0
      (.logEntry handle ctx key cell times (BitVec.ofNat 32 stamp))

/-- The change ring of a galley as its home finds it: full or not, the address of the next entry, and CHEAD. -/
def ringPlace (pkg ctx : Nat) (priv : BitVec 2) (handle : Nat) : HM (Bool × Nat × Nat) := do
  let x0 ← readH pkg (handle + 64) ctx priv 8
  let head ← readH pkg (handle + 72) ctx priv 8
  let tail ← readH pkg (handle + 80) ctx priv 8
  let size := 2 ^ (x0 / 2 ^ 51 % 32)
  pure ((head + 2 ^ 64 - tail) % 2 ^ 64 == size, x0 % 2 ^ 48 + 8 * (head % size), head)

/-- The accesses that logging a key will make are allowed at their homes: looked at before the element that logs is performed
(R330). -/
def mayLog (pkg ctx : Nat) (priv : BitVec 2) (handle cell : Nat) : HM Unit := do
  let epoch ← readH pkg (handle + 92) ctx priv 4
  let stamp ← readH pkg (cell + 4) ctx priv 4
  if stamp ≠ (epoch + 1) % 2 ^ 32 then
    let (full, entry, _) ← ringPlace pkg ctx priv handle
    if full then
      let _ ← writableH pkg (handle + 88) ctx priv 4
    else
      let _ ← writableH pkg entry ctx priv 8
      let _ ← writableH pkg (handle + 72) ctx priv 8
      let _ ← writableH pkg (cell + 4) ctx priv 4

/-- The full check, the entry and CHEAD, or CDROP, as one atomic of the extension's home; then the owner writes STAMP (R327).
True when an entry was made. -/
def appendLog (pkg ctx : Nat) (priv : BitVec 2) (handle key cell times : Nat) (stamp : Word) : HM Bool := do
  let (full, entry, head) ← ringPlace pkg ctx priv handle
  if full then
    let _ ← updateH pkg (handle + 88) ctx priv 4 (fun n => min (n + times) (2 ^ 32 - 1))
  else
    writeH pkg entry ctx priv 8 (key * 2 ^ 32 + stamp.toNat)
    writeH pkg (handle + 72) ctx priv 8 ((head + 1) % 2 ^ 64)
    writeH pkg (cell + 4) ctx priv 4 stamp.toNat
  pure (!full)

/-- CHANGE_LOG_APPEND: the entry is made, and the cell is free again; a full dirty log or a channel group holds it (R196, R327,
R376). One that its home refuses, the rights having changed since the element was let pass, is tried again while its context
lives: the change it reports is made, so it is not dropped (R316; DEDUCED, log 100). -/
def execChangeLogAppend (p : Nat) (s : State) : Result :=
  onPacket s p (fun p =>
    match p.body with
    | .logEntry handle ctx key cell times stamp =>
      let pkg := tilePkg (coreTile p.dst)
      if !handlerFree s p.dst then s
      else
        match appendLog pkg ctx (ctxPriv s ctx) handle key cell times stamp s with
        | .ok (made, s) =>
          let s := dropPacket s p.id
          if made then charge s (homeTile s pkg cell) (BitVec.ofNat 11 ctx) 4 else s
        | .error (.held part) => noteExit s part
        | .error .waits => s
        | .error (.fails _ _) => if ctxLive s ctx then s else dropPacket s p.id
    | _ => s)

/-! ### Ordered staging (R324) -/

/-- A staged element goes before another: package and tile, then arrival. -/
def stagedBefore (a b : Staged) : Bool :=
  decide (a.srcTile < b.srcTile) || (a.srcTile == b.srcTile && decide (a.order < b.order))
def insertStaged (e : Staged) : List Staged → List Staged
  | [] => [e]
  | x :: r => if stagedBefore e x then e :: x :: r else x :: insertStaged e r
/-- Bytes of the staging store an element takes. -/
def stagedBytes (e : Staged) : Nat := 8 + 4 * e.data.length

/-- The owner applies every staged element of a cell, in order. It answers how many of them the change log must have: those of
stripe 0 of a galley whose log is on, whose accesses are looked at first (R315, R330). -/
def applyStaged (pkg owner cell : Nat) : HM Nat := do
  let s ← get
  let mine := ((coreAt s owner).staged.filter (fun e => e.cell == cell)).foldr insertStaged []
  set (modCore s owner (fun x => { x with staged := x.staged.filter (fun e => e.cell != cell) }))
  match mine with
  | [] => pure 0
  | e :: _ => do
    let logs := e.stripe == 0 && peek s pkg (e.handle + 64) e.ctx 8 / 2 ^ 63 == 1
    if logs then mayLog pkg e.ctx (ctxPriv s e.ctx) e.handle cell
    mine.forM (fun x => addPair pkg x.ctx (ctxPriv s x.ctx) cell 0 x.data)
    pure (if logs then mine.length else 0)

/-- The oldest staged element of a store. -/
def oldestStaged : List Staged → Option Staged
  | [] => none
  | e :: r =>
    match oldestStaged r with
    | some x => if x.order < e.order then some x else some e
    | none => some e

/-- Makes room for an element of n bytes: cells with the oldest elements are applied early, and logged. True when one was. A
cell that is held is waited for. -/
def makeRoom (core owner n elem : Nat) : Nat → Bool → EM Bool
  | 0, early => pure early
  | fuel + 1, early => do
    let s ← get
    let l := (coreAt s owner).staged
    match (if (l.map stagedBytes).sum + n ≤ 16384 then none else oldestStaged l) with
    | none => pure early
    | some e => do
      waitE (!cellBusy s e.cell)
      let pkg := corePkg core
      let n' ← homeE elem (applyStaged pkg owner e.cell)
      modify (fun s => logKey s core pkg e.ctx e.handle e.key e.cell n')
      makeRoom core owner n elem fuel true

/-! ### Steps at the owner -/

/-- The owner takes a join step of the command, a KAGGREQ or, for a lookup, a KBCASTREQ, sent on a credit there (R110): it must be
free and the cell not held, and the home must allow the access (R322, R330). The cycles are charged to the context. -/
def ownerE (core : Nat) (c : Command) (cell elem : Nat) (write : Bool) : EM Nat := do
  let s ← get
  let pkg := corePkg core
  let owner := ownerCore s pkg cell
  waitE (handlerFree s owner && !cellBusy s cell && creditFree s owner (coreTile core) (if write then 10 else 11))
  match globalKey s pkg cell c.ctx.toNat (cmdPriv s c) write with
  | .error e => faultE (kindOf e) cell elem
  | .ok _ => pure ()
  if (List.range (noteW c + 2)).any (fun i => isLost s (homeTile s pkg cell) (cell + 4 * i)) then faultE 4 cell elem
  set (charge s (coreTile owner) c.ctx (2 + (noteW c + 2) / 2))
  pure owner

/-- Key k of an index map (an entry of IMODE 0). -/
def keyE (core : Nat) (c : Command) (k : Nat) : EM Nat := do
  let idx := mapOf c.mapB
  let x ← readElem core c idx idx.col k
  pure (numIndex x)

/-- Row k of a pairs map as F32 words; offending elements are recorded (R323). -/
def pairE (core : Nat) (c : Command) (k : Nat) : EM (List Word) := do
  let m := mapOf c.mapA
  (List.range (noteW c + 1)).mapM (fun e => do
    let n := k * (noteW c + 1) + e
    let x ← readElem core c m m.col n
    let r := roundTo f32 .rne true x
    if offending (.flt f32) x r then errorE core c 1 n
    pure (BitVec.ofNat 32 r.bits))

/-- The tile's number among the stripes. -/
def stripeOf (core n : Nat) : Nat := if 2 ≤ n then coreTile core % 1024 % n else 0

/-- One element of KAGG, or of KAGG.O. -/
def stepKagg (core : Nat) (c : Command) (ordered : Bool) : EM Bool := do
  let handle := (mapOf c.mapD).base
  let a := mapOf c.mapA
  let idx := mapOf c.mapB
  let pkg := corePkg core
  let ctx := c.ctx.toNat
  let priv := cmdPriv (← get) c
  waitE (!logOut (← get) core)
  if c.done = 0 then
    beginGalley core c handle
    let w := ((cmdAt (← get) core c.seq).map noteW).getD 0
    shapeE (pairsOk a w idx.count)
    widthsE core a
    widthsE core idx
    advanceE core c
    pure false
  else if idx.count < c.done then pure true
  else
    let k := c.done - 1
    let elem := k * (noteW c + 1)
    let key ← keyE core c k
    let row ← pairE core c k
    let v ← openE core c handle
    let st := stripeOf core (stripesOf c key)
    match (← cellE core c v [key, st] true elem) with
    | .at_ cell => do
      let owner ← ownerE core c cell elem true
      if ordered then do
        let early ← makeRoom core owner (8 + 4 * row.length) elem 16384 false
        let s ← get
        let e : Staged := { ctx := ctx, handle := handle, cell := cell, key := key, stripe := st,
                            srcTile := coreTile core, order := s.nextId, data := row }
        set (modCore { s with nextId := s.nextId + 1 } owner (fun x => { x with staged := x.staged ++ [e] }))
        if early then errorE core c 3 elem
      else do
        let logs := st == 0 && noteChg c
        if logs then homeE elem (mayLog pkg ctx priv handle cell)
        let n ← homeE elem (applyStaged pkg owner cell)
        homeE elem (addPair pkg ctx priv cell 0 row)
        modify (fun s => logKey s core pkg ctx handle key cell (n + if logs then 1 else 0))
    | _ => do
      countE core c handle 1
      errorE core c 2 elem
    advanceE core c
    pure false

/-- One lookup of KBCAST (R325). -/
def stepKbcast (core : Nat) (c : Command) : EM Bool := do
  let handle := (mapOf c.mapA).base
  let d := mapOf c.mapD
  let idx := mapOf c.mapB
  let pkg := corePkg core
  let ctx := c.ctx.toNat
  waitE (!logOut (← get) core)
  if c.done = 0 then
    beginGalley core c handle
    let w := ((cmdAt (← get) core c.seq).map noteW).getD 0
    shapeE (pairsOk d w idx.count)
    widthsE core d
    widthsE core idx
    advanceE core c
    pure false
  else if idx.count < c.done then pure true
  else
    let k := c.done - 1
    let w := noteW c
    let key ← keyE core c k
    let v ← openE core c handle
    let zeros := List.replicate (w + 1) (0#32)
    let row ←
      match (← cellE core c v [key, 0] false (k * (w + 1))) with
      | .outside => do
        countE core c handle 1
        errorE core c 2 (k * (w + 1))
        pure zeros
      | .empty => do
        countE core c handle 0
        countE core c handle 2
        pure zeros
      | .at_ cell => do
        let owner ← ownerE core c cell (k * (w + 1)) false
        let n ← homeE (k * (w + 1)) (applyStaged pkg owner cell)
        modify (fun s => logKey s core pkg ctx handle key cell n)
        let pair ← homeE (k * (w + 1)) (cellPair pkg ctx (cmdPriv (← get) c) cell w)
        if numIsZero (f32Val (pair.getD 0 0)) then do
          countE core c handle 2
          pure zeros
        else pure pair
    for e in List.range (w + 1) do
      emit core c d (k * (w + 1) + e) (k * (w + 1) + e) .rule false (f32Val (row.getD e 0))
    advanceE core c
    pure false

/-- Folds the stripes from n on into stripe 0, one at a time: a stripe's owner applies its staged elements, and its pair is added
to stripe 0, which is allocated for the first that holds a nonzero element, and cleared. True when one did (R311, R326). -/
def foldStripes (core : Nat) (c : Command) (v : Volume) (key elem : Nat) : Nat → Nat → EM Bool
  | 0, _ => pure false
  | left + 1, n => do
    let pkg := corePkg core
    let ctx := c.ctx.toNat
    let priv := cmdPriv (← get) c
    let w := noteW c
    let moved ←
      match (← cellE core c v [key, n] false elem) with
      | .at_ cell => do
        let owner ← ownerE core c cell elem true
        let _ ← homeE elem (applyStaged pkg owner cell)
        let pair ← homeE elem (cellPair pkg ctx priv cell w)
        let some_ := pair.any (fun x => !numIsZero (f32Val x))
        match (← cellE core c v [key, 0] some_ elem) with
        | .at_ cell0 => homeE elem (addPair pkg ctx priv cell0 0 pair)
        | _ => pure ()
        homeE elem (clearPair pkg ctx priv cell w)
        pure some_
      | _ => pure false
    let rest ← foldStripes core c v key elem left (n + 1)
    pure (moved || rest)

/-- Key k of KFOLD, at the owner of its stripe 0: what is staged there is applied, the other stripes are folded in, and the key
is logged when one of them held a nonzero element (R311, R315, R326). -/
def foldKey (core : Nat) (c : Command) (v : Volume) (key k : Nat) : EM Unit := do
  let pkg := corePkg core
  let ctx := c.ctx.toNat
  let priv := cmdPriv (← get) c
  let n ←
    match (← cellE core c v [key, 0] false k) with
    | .at_ cell => do
      let owner ← ownerE core c cell k true
      homeE k (applyStaged pkg owner cell)
    | _ => pure 0
  let moved ← foldStripes core c v key k (stripesOf c key - 1) 1
  match (← cellE core c v [key, 0] false k) with
  | .at_ cell => do
    if moved && noteChg c then homeE k (mayLog pkg ctx priv v.handle cell)
    modify (fun s => logKey s core pkg ctx v.handle key cell (n + if moved && noteChg c then 1 else 0))
  | _ => pure ()

/-- One key of KFOLD (R311, R326): performed whole, or, with a fault, not at all (R330). -/
def stepKfold (core : Nat) (c : Command) : EM Bool := do
  let handle := (mapOf c.mapD).base
  let idx := mapOf c.mapB
  waitE (!logOut (← get) core)
  if c.done = 0 then
    beginGalley core c handle
    widthsE core idx
    advanceE core c
    pure false
  else if idx.count < c.done then pure true
  else
    let k := c.done - 1
    let key ← keyE core c k
    let v ← openE core c handle
    if v.ext.getD 0 0 ≤ key then
      countE core c handle 1
      errorE core c 2 k
    else wholeE (foldKey core c v key k)
    advanceE core c
    pure false

/-! ### KDIRTY (R328) -/

/-- Another Dray core of the package has a KDIRTY of the galley, of whatever context, between its atomic and its write of CTAIL. -/
def kdirtyElsewhere (s : State) (core handle : Nat) : Bool :=
  s.cores.any (fun x => x.1 != core && corePkg x.1 == corePkg core && x.2.ring.any (fun e =>
    (e.state == 2 || e.state == 5) && decide (2 ≤ e.done) && (mapOf e.mapA).base == handle &&
      match taskWord e.word with
      | some (.kdirty _ _ _ _) => true
      | _ => false))

/-- Writes a whole number as element k of a map that is not block-scaled. -/
def putNum (core : Nat) (c : Command) (m : TMap) (k v : Nat) : EM Unit := do
  storeAt core c m.fb k .rule false false (spotOf (← get) (coreTile core) m m.col (m.indices k)) (numOfInt v)

/-- KDIRTY gives element k of its map the value v; n is the last element it writes. In a block-scaled map it is written with the
others of its block, under the scale of the values written (R34): block 0 with element 0, the last of all. -/
def putKey (core : Nat) (c : Command) (m : TMap) (n k v : Nat) : EM Unit := do
  if !m.bs then putNum core c m k v
  else if k = 0 then flushBlock core c m 0 0 false (numOfInt v :: c.got)
  else if k < 32 then modE core c (fun e => { e with got := c.got ++ [numOfInt v] })
  else
    let box := c.outbox ++ [numOfInt v]
    if k % 32 = 31 ∨ k = n then
      flushBlock core c m (k + 1 - box.length) (k + 1 - box.length) false box
      modE core c (fun e => { e with outbox := [] })
    else modE core c (fun e => { e with outbox := box })

/-- One step of KDIRTY: the atomic, one key, or the end. It notes CTAIL and the number of keys. -/
def stepKdirty (core : Nat) (c : Command) : EM Bool := do
  let handle := (mapOf c.mapA).base
  let d := mapOf c.mapD
  let pkg := corePkg core
  let ctx := c.ctx.toNat
  let priv := cmdPriv (← get) c
  let strong (va size v : Nat) : EM Unit := homeE 0 (writeH pkg va ctx priv size v)
  if c.done = 0 then
    beginGalley core c handle
    shapeE (d.rank == 1 && decide (2 ≤ d.ext0))
    widthsE core d
    advanceE core c
    pure false
  else if !noteChg c then
    putKey core c d 0 0 0
    pure true
  else if c.done = 1 then
    waitE (!kdirtyElsewhere (← get) core handle)
    let epoch ← strongE core c (handle + 92) 4
    let head ← strongE core c (handle + 72) 8
    let tail ← strongE core c (handle + 80) 8
    strong (handle + 92) 4 ((epoch + 1) % 2 ^ 32)
    modE core c (fun e =>
      { e with notes := c.notes.take 2 ++ [tail, min ((head + 2 ^ 64 - tail) % 2 ^ 64) (d.ext0 - 1)] })
    advanceE core c
    pure false
  else
    let tail := c.notes.getD 2 0
    let n := c.notes.getD 3 0
    let i := c.done - 2
    if i < n then
      let x0 ← strongE core c (handle + 64) 8
      let e ← strongE core c (x0 % 2 ^ 48 + 8 * ((tail + i) % 2 ^ (x0 / 2 ^ 51 % 32))) 8
      putKey core c d n (i + 1) (e / 2 ^ 32)
      advanceE core c
      pure false
    else
      putKey core c d n 0 n
      strong (handle + 80) 8 ((tail + n) % 2 ^ 64)
      pure true

/-! ### KISECT (R329) -/

/-- What a merge needs next. -/
inductive Need where
  | a | b | nothing
  deriving DecidableEq, Repr

/-- The first index past i whose entry differs from x, out of n; none while an entry that decides it has not been read. -/
def runEnd (l : List Nat) (n x : Nat) : Nat → Nat → Option Nat
  | 0, _ => none
  | fuel + 1, i =>
    if n ≤ i then some n
    else
      match l[i]? with
      | none => none
      | some y => if y = x then runEnd l n x fuel (i + 1) else some i

/-- The pairs that the entries read so far give, and what is read next. -/
def mergeRuns (ea eb : Nat) (a b : List Nat) : Nat → Nat → Nat → List (Nat × Nat) × Need
  | 0, _, _ => ([], .nothing)
  | fuel + 1, i, j =>
    if ea ≤ i ∨ eb ≤ j then ([], .nothing)
    else
      match a[i]?, b[j]? with
      | none, _ => ([], .a)
      | _, none => ([], .b)
      | some x, some y =>
        if x < y then mergeRuns ea eb a b fuel (i + 1) j
        else if y < x then mergeRuns ea eb a b fuel i (j + 1)
        else
          match runEnd a ea x (ea + 1) (i + 1) with
          | none => ([], .a)
          | some i1 =>
            match runEnd b eb x (eb + 1) (j + 1) with
            | none => ([], .b)
            | some j1 =>
              let here := (List.range (i1 - i)).flatMap (fun p => (List.range (j1 - j)).map (fun r => (i + p, j + r)))
              let r := mergeRuns ea eb a b fuel i1 j1
              (here ++ r.1, r.2)

/-- Reads entry n of a run as one number, its first element the highest; an entry below the one before takes kind 6. -/
def entryE (core : Nat) (c : Command) (m : TMap) (n : Nat) (before : Option Nat) : EM Nat := do
  let g := 2 ^ m.imode
  let xs ← (List.range g).mapM (fun i => do
    let x ← readElem core c m m.col (n * g + i)
    pure (numIndex x))
  let v := xs.foldl (fun acc x => acc * 2 ^ 33 + x) 0
  match before with
  | some p => if v < p then faultE 6 (spotOf (← get) (coreTile core) m m.col (m.indices (n * g))).va n
  | none => pure ()
  pure v

/-- One step of KISECT: a row is written, or an entry read, or row 0 closes the output. It notes the rows written, the
entries of a read, then those entries and those of b. -/
def stepKisect (core : Nat) (c : Command) : EM Bool := do
  let a := mapOf c.mapA
  let b := mapOf c.mapB
  let d := mapOf c.mapD
  let ea := a.count / 2 ^ a.imode
  let eb := b.count / 2 ^ b.imode
  let row (r x y : Nat) : EM Unit := do
    if d.bs then flushBlock core c d (2 * r) (2 * r) false [numOfInt x, numOfInt y]
    else
      putNum core c d (2 * r) x
      putNum core c d (2 * r + 1) y
  if c.done = 0 then
    shapeE (a.count % 2 ^ a.imode == 0 && b.count % 2 ^ b.imode == 0 && d.rank == 2 && d.ext0 == 2 && decide (2 ≤ d.ext1))
    widthsE core a
    widthsE core b
    widthsE core d
    modE core c (fun e => { e with notes := [0, 0] })
    advanceE core c
    pure false
  else
    let rows := c.notes.getD 0 0
    let na := c.notes.getD 1 0
    let la := (c.notes.drop 2).take na
    let lb := c.notes.drop (2 + na)
    let (pairs, need) := mergeRuns ea eb la lb (ea + eb + 1) 0 0
    let cap := d.ext1 - 1
    if rows < min cap pairs.length then
      let p := pairs.getD rows (0, 0)
      row (rows + 1) p.1 p.2
      modE core c (fun e => { e with notes := (rows + 1) :: c.notes.drop 1 })
      pure false
    else
      match need with
      | .a => do
        let v ← entryE core c a na la.getLast?
        modE core c (fun e => { e with notes := rows :: (na + 1) :: (la ++ [v] ++ lb) })
        pure false
      | .b => do
        let v ← entryE core c b lb.length lb.getLast?
        modE core c (fun e => { e with notes := rows :: na :: (la ++ lb ++ [v]) })
        pure false
      | .nothing => do
        row 0 (min pairs.length (2 ^ 32 - 1)) rows
        if rows < pairs.length then errorE core c 4 rows
        pure true

/-! ### Issue (R320) -/

/-- A key map: INDEX, N32, IMODE 0. -/
def isKeys (w : BitVec 256) : Bool := isIndex w && (mapOf w).imode == 0
/-- A DENSE map with FMT N32. -/
def isN32 (w : BitVec 256) : Bool := isKind w 0 && (mapOf w).fmt == 6#4

/-- KAGG. -/
def execKagg (q : BitVec 3) (b a d g : BitVec 4) (s : State) : Result :=
  scalar (.kagg q b a d g) g s (fun t => do
    let w := wordOf (.kagg q b a d g)
    match (← namedMaps t w q [d, a, b]) with
    | [md, ma, mb] =>
      guardM (isKind md 1 && isKind ma 0 && isKeys mb) causeProt w
      pushM_ t w md ma mb []
    | _ => pure .seq)

/-- KAGG.O. -/
def execKaggO (q : BitVec 3) (b a d g : BitVec 4) (s : State) : Result :=
  scalar (.kaggO q b a d g) g s (fun t => do
    let w := wordOf (.kaggO q b a d g)
    match (← namedMaps t w q [d, a, b]) with
    | [md, ma, mb] =>
      guardM (isKind md 1 && isKind ma 0 && isKeys mb) causeProt w
      pushM_ t w md ma mb []
    | _ => pure .seq)

/-- KBCAST. -/
def execKbcast (q : BitVec 3) (b a d g : BitVec 4) (s : State) : Result :=
  scalar (.kbcast q b a d g) g s (fun t => do
    let w := wordOf (.kbcast q b a d g)
    match (← namedMaps t w q [d, a, b]) with
    | [md, ma, mb] =>
      guardM (isKind md 0 && isKind ma 1 && isKeys mb) causeProt w
      pushM_ t w md ma mb []
    | _ => pure .seq)

/-- KISECT: two runs of equal IMODE. -/
def execKisect (q : BitVec 3) (b a d g : BitVec 4) (s : State) : Result :=
  scalar (.kisect q b a d g) g s (fun t => do
    let w := wordOf (.kisect q b a d g)
    match (← namedMaps t w q [d, a, b]) with
    | [md, ma, mb] =>
      guardM (isN32 md && isIndex ma && isIndex mb && (mapOf ma).imode == (mapOf mb).imode) causeProt w
      pushM_ t w md ma mb []
    | _ => pure .seq)

/-- KFOLD. -/
def execKfold (q : BitVec 3) (b d g : BitVec 4) (s : State) : Result :=
  scalar (.kfold q b d g) g s (fun t => do
    let w := wordOf (.kfold q b d g)
    match (← namedMaps t w q [d, b]) with
    | [md, mb] =>
      guardM (isKind md 1 && isKeys mb) causeProt w
      pushM_ t w md 0 mb []
    | _ => pure .seq)

/-- KDIRTY. -/
def execKdirty (q : BitVec 3) (a d g : BitVec 4) (s : State) : Result :=
  scalar (.kdirty q a d g) g s (fun t => do
    let w := wordOf (.kdirty q a d g)
    match (← namedMaps t w q [d, a]) with
    | [md, ma] =>
      guardM (isN32 md && isKind ma 1) causeProt w
      pushM_ t w md ma 0 []
    | _ => pure .seq)

end Sys2Proof.Machine
end

