-- ==== Sys2Proof/Machine/Stash.lean ====
section
/-!
DEFINITION. Sys2Proof/Machine/Stash.lean: the activation stash and its spill, STASH and UNSTASH, and the flash queues, FLQ and
FLDONE (spec/17_copy_convert_instructions.md R281 to R284, spec/25_fabric_gangs.md R364 to R367).
-/

namespace Sys2Proof.Machine

/-! ### Queue pairs (R364, Table 4) -/

/-- Doubleword i of a pair's entry in the context's pair table. -/
def pairWord (s : State) (core : Nat) (ctx : BitVec 11) (pair i : Nat) : Nat :=
  peek s (corePkg core) ((drayOf s (coreTile core) ctx).flqt.toNat + 32 * pair + 8 * i) ctx.toNat 8
def pairDepth (s : State) (core : Nat) (ctx : BitVec 11) (pair : Nat) : Nat := 2 ^ (pairWord s core ctx pair 0 / 2 ^ 56 % 16)
/-- Submission tail, entries not completed, completion tail. -/
def pairState (s : State) (core : Nat) (ctx : BitVec 11) (pair : Nat) : Nat × Nat × Nat :=
  (tget (drayOf s (coreTile core) ctx).pairs pair).getD (0, 0, 0)
def setPair (s : State) (core : Nat) (ctx : BitVec 11) (pair : Nat) (x : Nat × Nat × Nat) : State :=
  modDray s (coreTile core) ctx (fun d => { d with pairs := tput d.pairs pair x })
/-- A pair's entry in the table waits at its home for a channel group (R376). -/
def pairWaits (s : State) (core : Nat) (ctx : BitVec 11) (pair : Nat) : Bool :=
  ddrWaits s (corePkg core) ((drayOf s (coreTile core) ctx).flqt.toNat + 32 * pair) ctx.toNat
/-- Free places of a pair's submission queue. -/
def pairRoom (s : State) (core : Nat) (ctx : BitVec 11) (pair : Nat) : Nat :=
  pairDepth s core ctx pair - (pairState s core ctx pair).2.1

/-- Copies an entry of eight doublewords into a pair's submission queue and rings the doorbell, which the controller's package
receives (R284, R365). -/
def submitE (core : Nat) (c : Command) (pair : Nat) (entry : List Nat) : EM Unit := do
  let s ← get
  let (tail, out, done) := pairState s core c.ctx pair
  let sq := pairWord s core c.ctx pair 0 % 2 ^ 48
  for i in List.range 8 do
    engineWrite core c (sq + 64 * tail + 8 * i) 8 (entry.getD i 0) 1 0
  let next := (tail + 1) % pairDepth s core c.ctx pair
  let ctrl := pairWord s core c.ctx pair 2 % 2 ^ 23
  modify (fun s =>
    let s := setPair s core c.ctx pair (next, out + 1, done)
    { s with inbox := s.inbox ++ [(ctrl / 2 ^ 13, [BitVec.ofNat 64 ctrl, BitVec.ofNat 64 pair, BitVec.ofNat 64 next])] })

/-! ### Flash (R364, R365)

The flash of a controller holds the bytes that Write entries have put there. A Write's data is read when its entry is submitted, a
Read's data lands when its completion comes: a controller may take any moment between the two (DESIGN CHOICE, log 58). -/

/-- Where a logical block of a pair's namespace begins in State.flash: by controller, namespace, block and byte. -/
def flashKey (s : State) (core : Nat) (ctx : BitVec 11) (pair block : Nat) : Nat :=
  let x := pairWord s core ctx pair 2
  ((x % 2 ^ 23 * 2 ^ 32 + x / 2 ^ 32) * 2 ^ 64 + block) * 4096
/-- Bytes of flash; 0 where nothing has been written. -/
def flashBytes (s : State) (k n : Nat) : List Byte := (List.range n).map (fun i => cellGet s.flash (k + i))
/-- Puts bytes on flash. -/
def flashPut (s : State) (k : Nat) : List Byte → State
  | [] => s
  | b :: r => flashPut { s with flash := cellPut s.flash k b } (k + 1) r
/-- A Read that has been submitted waits for its completion. -/
def addRead (s : State) (core : Nat) (ctx : BitVec 11) (r : FlashRead) : State :=
  modDray s (coreTile core) ctx (fun d => { d with reads := d.reads ++ [r] })
/-- The Read that a completion closes: the oldest of the pair with its command identifier. -/
def readOf (s : State) (core : Nat) (ctx : BitVec 11) (pair cid : Nat) : Option FlashRead :=
  (drayOf s (coreTile core) ctx).reads.find? (fun r => r.pair == pair && r.cid == cid)
/-- The Read is no longer awaited. -/
def dropRead (s : State) (core : Nat) (ctx : BitVec 11) (r : FlashRead) : State :=
  modDray s (coreTile core) ctx (fun d => { d with reads := d.reads.erase r })

/-- A number's value as bytes, lowest first. -/
def bytesNat : List Byte → Nat
  | [] => 0
  | b :: r => b.toNat + 256 * bytesNat r

/-- The data of a page lands at the home slices, a word at a time, as strong stores counted for R195; a lost word is not written
(R216, R365). -/
def landPage (pkg ctx : Nat) : Nat × Nat × Nat → List Byte → HM Unit
  | (va, k, n), bytes => (List.range (n / 4)).forM (fun i => do
      ddrH pkg (va + 4 * i) ctx
      let s ← get
      unless isLost s (homeTile s pkg va) (va + 4 * i) do
        putH pkg (va + 4 * i) (k + 4 * i) ctx 4 (bytesNat ((bytes.drop (4 * i)).take 4)))

/-- The data of a Read lands, page after page. -/
def landPages (pkg ctx at_ : Nat) : List (Nat × Nat × Nat) → HM Unit
  | [] => pure ()
  | p :: r => do
    landPage pkg ctx p (flashBytes (← get) at_ p.2.2)
    landPages pkg ctx (at_ + p.2.2) r

/-! ### FLQ (R284, R365, R376) -/

/-- FLQ: the pair is held and the offset right, or PROT with the operand. -/
def execFlq (b a : BitVec 5) (g : BitVec 4) (s : State) : Result :=
  scalar (.flq b a g) g s (fun t => do
    let s ← get
    let x := gGet t a
    let y := gGet t b
    awaitM (x.extractLsb' 6 58 != 0#58 || !pairWaits s (hereCore s) t.ctx x.toNat) .earlier
    guardM (x.extractLsb' 6 58 == 0#58 && decide (2 ^ 63 ≤ pairWord s (hereCore s) t.ctx x.toNat 0)) causeProt x
    guardM (decide (y.toNat < 2 ^ 20) && y.toNat % 64 == 0) causeProt y
    pushM_ t (wordOf (.flq b a g)) 0 0 0 [x, y])

/-- An entry's fields keep R365, for a pair's namespace. -/
def nvmeOk (e : List Nat) (nsid : Nat) : Bool :=
  let d (i : Nat) : Nat := e.getD i 0
  let op := d 0 % 256
  let bytes := (d 6 % 2 ^ 16 + 1) * 4096
  decide (op ≤ 2) && d 0 / 2 ^ 14 % 4 == 0 && d 0 / 2 ^ 32 == nsid && d 2 == 0 &&
    (op == 0 || (decide (bytes ≤ 8192) && decide (d 3 % 4096 + bytes ≤ 8192)))

/-- A pointer of an entry translated: its storage key, whose low bits are the physical address. -/
def prpE (core : Nat) (c : Command) (write : Bool) (va : Nat) : EM Nat := do
  let s ← get
  match globalKey s (corePkg core) va c.ctx.toNat (cmdPriv s c) write with
  | .error e => faultE (kindOf e) va 0
  | .ok k => pure k

/-- The data of a Write, read at its home as an engine's reads, a word at a time (R274, R365). -/
def pageData (core : Nat) (c : Command) (va n : Nat) : EM (List Byte) := do
  let ws ← (List.range (n / 4)).mapM (fun i => do
    homeE 0 (readH (corePkg core) (va + 4 * i) c.ctx.toNat (cmdPriv (← get) c) 4))
  pure (ws.flatMap (fun w => (List.range 4).map (fun i => BitVec.ofNat 8 (w / 2 ^ (8 * i)))))

/-- The data pages of an entry: address and bytes; its pointers are of whole words (PRESUMED, log 58). -/
def prpPages (e : List Nat) : List (Nat × Nat) :=
  let va := e.getD 3 0 / 4 * 4
  let bytes := (e.getD 6 0 % 2 ^ 16 + 1) * 4096
  let n := min bytes (4096 - va % 4096)
  if n < bytes then [(va, n), (e.getD 4 0 / 4 * 4, bytes - n)] else [(va, n)]

/-- FLQ runs: flash queues ready and the submission queue not full, then the checks, the translations and the copy. A Write's data
goes to flash, a Read's waits for its completion (R365). -/
def stepFlq (core : Nat) (c : Command) : EM Bool := do
  let s ← get
  let pair := (c.args.getD 0 0).toNat
  let off := (c.args.getD 1 0).toNat
  waitE (((pkgAt s (corePkg core)).ready.getD 2 0).getLsbD 56)
  waitE (!pairWaits s core c.ctx pair)
  waitE (decide (0 < pairRoom s core c.ctx pair))
  let e ← (List.range 8).mapM (fun i => engineRead core c (off + 8 * i) 8 false 0)
  unless nvmeOk e (pairWord s core c.ctx pair 2 / 2 ^ 32) do faultE 2 off 0
  let op := e.getD 0 0 % 256
  if op = 0 then submitE core c pair e
  else do
    let pages ← (prpPages e).mapM (fun p => do pure (p.1, ← prpE core c (op == 2) p.1, p.2))
    let at_ := flashKey s core c.ctx pair (e.getD 5 0)
    let bytes ← if op = 1 then pages.mapM (fun p => pageData core c p.1 p.2.2) else pure []
    let phys (i : Nat) : Nat := ((pages[i]?).map (fun p => p.2.1 % 2 ^ 40)).getD (e.getD (3 + i) 0)
    submitE core c pair ((e.set 3 (phys 0)).set 4 (phys 1))
    if op = 1 then modify (fun s => flashPut s at_ bytes.flatten)
    else
      modify (fun s => addRead s core c.ctx
        { pair := pair, cid := e.getD 0 0 / 2 ^ 16 % 2 ^ 16, at_ := at_, pages := pages, reader := none })
  pure true

/-- FLDONE: a completion from the controller: pair and two doublewords. The data of a Read lands, unless the completion says that
it failed; the entry goes into the completion queue, and the pair's record is decremented (R365, R366). The place of the command
identifier and of the status in the entry is NVMe's (PRESUMED, log 58). A full dirty log or a channel group holds the completion
(R196, R376); an entry that its home refuses is not written (DESIGN CHOICE, log 57). -/
def execFldone (p : Nat) (s : State) : Result :=
  onMessage s p (fun c => c == 14) (fun p h pl dev s' =>
    let core := p.dst
    let ctx := hdrCtx h
    let pair := (pl.getD 0 0).toNat % 64
    let (tail, out, done) := pairState s core ctx pair
    let cq := pairWord s core ctx pair 1 % 2 ^ 48 + 16 * done
    let last := pl.getD 2 0
    let read := readOf s core ctx pair (last.extractLsb' 32 16).toNat
    let land : HM Unit := do
      match read with
      | some r => do
        if last.extractLsb' 49 15 = 0#15 then landPages (corePkg core) ctx.toNat r.at_ r.pages
        modify (fun s => dropRead s core ctx r)
      | none => pure ()
    let put : HM Unit := do
      writeH (corePkg core) cq ctx.toNat (ctxPriv s ctx.toNat) 8 (pl.getD 1 0).toNat
      writeH (corePkg core) (cq + 8) ctx.toNat (ctxPriv s ctx.toNat) 8 (pl.getD 2 0).toNat
    let close (s1 : State) : State :=
      deviceDec (setPair s1 core ctx pair (tail, out - 1, (done + 1) % pairDepth s core ctx pair)) (coreTile core)
        (BitVec.ofNat 64 (pairWord s core ctx pair 3)) ctx 16#5 true
    if pairWaits s core ctx pair then s
    else
      match land (consume s' p h dev) with
      | .error (.held part) => noteExit s part
      | .error _ => s
      | .ok (_, s0) =>
        match put s0 with
        | .ok (_, s1) => close s1
        | .error (.held part) => noteExit s part
        | .error .waits => s
        | .error (.fails _ _) => close s0)

/-! ### The stash (R281 to R283) -/

def modTags (s : State) (core : Nat) (ctx : BitVec 11) (f : List StashTag → List StashTag) : State :=
  modDray s (coreTile core) ctx (fun d => { d with tags := f d.tags })
def tagOf (s : State) (core : Nat) (ctx : BitVec 11) (tag : Word) : Option StashTag :=
  (drayOf s (coreTile core) ctx).tags.find? (fun x => x.tag == tag)
def dropTag (tag : Word) (l : List StashTag) : List StashTag := l.filter (fun x => x.tag != tag)
/-- The oldest entry held in a place. -/
def oldestIn (l : List StashTag) (where_ : Nat) : Option StashTag := l.find? (fun x => x.where_ == where_)
/-- Bytes a ring of `len` bytes has in use, from its oldest entry to where the next one goes. -/
def ringUsed (l : List StashTag) (where_ len head : Nat) : Nat :=
  match oldestIn l where_ with
  | none => 0
  | some e => if head = e.offset then len else (head + len - e.offset) % len

/-- Stash-ring pieces of an entry from an offset on: own-vault offset and bytes, in one piece or, around the end, two. -/
def ringPieces (base len off n : Nat) : List (Nat × Nat) :=
  if off + n ≤ len then [(base + off, n)] else [(base + off, len - off), (base, n - (len - off))]
/-- Bytes of a ring entry's piece, lowest first. -/
def ringBytes (s : State) (tile base len off n : Nat) : List Byte :=
  (ringPieces base len (off % len) n).flatMap (fun p => storeBytes s (vaultKey tile p.1) p.2)
/-- Stores bytes from a storage key on. -/
def putBytes (s : State) (k : Nat) : List Byte → State
  | [] => s
  | b :: r => putBytes { s with mem := cellPut s.mem k b } (k + 1) r
def putRing (s : State) (tile base len off : Nat) (bytes : List Byte) : State :=
  match ringPieces base len (off % len) bytes.length with
  | [(o, _)] => putBytes s (vaultKey tile o) bytes
  | (o, n) :: (o2, _) :: _ => putBytes (putBytes s (vaultKey tile o) (bytes.take n)) (vaultKey tile o2) (bytes.drop n)
  | [] => s

/-- The bytes of doublewords, lowest first. -/
def dwordBytes (l : List Nat) : List Byte :=
  l.flatMap (fun d => (List.range 8).map (fun i => BitVec.ofNat 8 (d / 2 ^ (8 * i))))
/-- A 32-byte header (R281). -/
def stashHeader (tag : Word) (n state : Nat) : List Nat := [tag.toNat * 2 ^ 32 + n, state, 0, 0]

/-- Every byte of an LM range may be reached: late fault 1 past the memory, 2 in a bank that is not held. -/
def lmRangeE (core : Nat) (c : Command) (off n : Nat) : EM Unit := do
  let s ← get
  for b in List.range 16 do
    if off < (b + 1) * 65536 ∧ b * 65536 < off + n then
      match placedCause s c.ctx false (coreTile core) (b * 65536) with
      | some e => faultE (kindOf e) (max off (b * 65536)) 0
      | none => pure ()
  if 2 ^ 20 < off + n then faultE 1 (2 ^ 20) 0

/-- Late fault 1 while the ring meets a way that is not DIRECT and the context's (R184). -/
def stashWaysE (core : Nat) (c : Command) : EM Unit := do
  let s ← get
  let tile := coreTile core
  let d := drayOf s tile c.ctx
  let base := d.stashb.toNat
  for w in List.range 16 do
    if 0 < d.stashl.toNat ∧ base < (w + 1) * 2 ^ 19 ∧ w * 2 ^ 19 < base + d.stashl.toNat then
      unless wayRole s tile w == 2 && granted s tile c.ctx grantWays w do faultE 1 (0x800000 + max base (w * 2 ^ 19)) 0

/-! ### Spill (R367, Table 5) -/

def spillSize (d : DrayCtx) : Nat := if d.spillb.extractLsb' 58 6 = 0#6 then 0 else 2 ^ (d.spillb.extractLsb' 58 6).toNat
def spillBase (d : DrayCtx) : Nat := d.spillb.toNat % 2 ^ 48

/-- Bytes of the spill area, around its end. -/
def spillRead (core : Nat) (c : Command) (base size off n : Nat) : EM (List Byte) := do
  let ds ← (List.range (n / 8)).mapM (fun i => do
    let s ← get
    let va := base + (off + 8 * i) % size
    match readHome s (corePkg core) va c.ctx.toNat (cmdPriv s c) 8 with
    | .error e => readStop core e va 0
    | .ok v => do
      waitE (!ddrWaits s (corePkg core) va c.ctx.toNat)
      pure v)
  pure (dwordBytes ds)
def spillWrite (core : Nat) (c : Command) (base size off : Nat) (bytes : List Byte) : EM Unit := do
  for i in List.range (bytes.length / 8) do
    engineWrite core c (base + (off + 8 * i) % size) 8 (bytesNat ((bytes.drop (8 * i)).take 8)) 1 0

/-- Frees the entry of a tag, with the state in its header: in the ring, or in the spill area (R281, R367). -/
def freeTag (core : Nat) (c : Command) (tag : Word) : EM Unit := do
  let s ← get
  let d := drayOf s (coreTile core) c.ctx
  match tagOf s core c.ctx tag with
  | none => pure ()
  | some e => do
    if e.where_ = 0 then
      modify (fun s => putRing s (coreTile core) d.stashb.toNat d.stashl.toNat (e.offset + 8) (dwordBytes [0]))
    if e.where_ = 1 then spillWrite core c (spillBase d) (spillSize d) (e.offset + 8) (dwordBytes [0])
    modify (fun s => modTags s core c.ctx (dropTag tag))

/-- Blocks of 4 KiB of an entry. -/
def flashBlocks (n : Nat) : Nat := (32 + n + 4095) / 4096

/-- Where n blocks go in the flash region; the region starts anew once nothing is left on it. -/
def flashPlace (d : DrayCtx) (n : Nat) : Option Nat :=
  let size := 2 ^ (d.spillf.extractLsb' 48 9).toNat
  if d.flashNext + n ≤ size then some d.flashNext
  else if (oldestIn d.tags 2).isNone ∧ n ≤ size then some 0
  else none

/-- A 64-byte entry for one block of a spilled entry (R365): opcode, namespace, the addresses of the block, its number. The
command identifier is the device's. -/
def flashEntry (core : Nat) (c : Command) (pair op block prp1 prp2 : Nat) : EM (List Nat) := do
  let s ← get
  let (v, s') := drawOpen s
  set s'
  let nsid := pairWord s core c.ctx pair 2 / 2 ^ 32
  pure [op + v.toNat % 2 ^ 16 * 2 ^ 16 + nsid * 2 ^ 32, 0, 0, prp1, prp2, block, 0, 0]

/-- The oldest entry of the spill area goes to flash; false when it cannot. -/
def flashSpill (core : Nat) (c : Command) : EM Bool := do
  let s ← get
  let d := drayOf s (coreTile core) c.ctx
  let pair := (d.spillf.extractLsb' 57 6).toNat
  match oldestIn d.tags 1 with
  | none => pure false
  | some e =>
    let n := flashBlocks e.length
    match flashPlace d n with
    | none => pure false
    | some at_ =>
      if !d.spillf.getLsbD 63 || decide (pairRoom s core c.ctx pair < n) then pure false
      else do
        waitE (!pairWaits s core c.ctx pair)
        let block := d.spillf.toNat % 2 ^ 48 + at_
        let bytes ← spillRead core c (spillBase d) (spillSize d) e.offset (32 + e.length)
        for i in List.range n do
          let va := spillBase d + (e.offset + 4096 * i) % spillSize d
          let va2 := spillBase d + (e.offset + 4096 * i + 4096) % spillSize d / 4096 * 4096
          let p1 ← prpE core c false va
          let p2 ← if va % 4096 = 0 then pure 0 else prpE core c false va2
          submitE core c pair (← flashEntry core c pair 1 (block + i) (p1 % 2 ^ 40) (p2 % 2 ^ 40))
        spillWrite core c (spillBase d) (spillSize d) (e.offset + 8) (dwordBytes [0])
        modify (fun s => modDray (flashPut s (flashKey s core c.ctx pair block) bytes) (coreTile core) c.ctx (fun d =>
          { d with
            flashNext := at_ + n
            tags := d.tags.map (fun x => if x.tag = e.tag then { x with where_ := 2, offset := at_ } else x) }))
        pure true

/-- Makes room for n bytes in the spill area. -/
def spillRoom (core : Nat) (c : Command) (n : Nat) : Nat → EM Bool
  | 0 => pure false
  | fuel + 1 => do
    let s ← get
    let d := drayOf s (coreTile core) c.ctx
    if spillSize d < n then pure false
    else if ringUsed d.tags 1 (spillSize d) d.spillHead + n ≤ spillSize d then pure true
    else if (← flashSpill core c) then spillRoom core c n fuel
    else pure false

/-- Makes room for n bytes in the stash ring: its oldest entries go to the spill area (R282). -/
def stashRoom (core : Nat) (c : Command) (n : Nat) : Nat → EM Bool
  | 0 => pure false
  | fuel + 1 => do
    let s ← get
    let tile := coreTile core
    let d := drayOf s tile c.ctx
    let len := d.stashl.toNat
    if len < n then pure false
    else if ringUsed d.tags 0 len d.head + n ≤ len then pure true
    else
      match oldestIn d.tags 0 with
      | none => pure false
      | some e =>
        if (← spillRoom core c (32 + e.length) 4097) then do
          let s ← get
          let d := drayOf s tile c.ctx
          let data := ringBytes s tile d.stashb.toNat len (e.offset + 32) e.length
          let bytes := dwordBytes (stashHeader e.tag e.length 2) ++ data
          spillWrite core c (spillBase d) (spillSize d) d.spillHead bytes
          modify (fun s =>
            let s := putRing s tile d.stashb.toNat len (e.offset + 8) (dwordBytes [0])
            modDray s tile c.ctx (fun d =>
              { d with
                spillHead := (d.spillHead + 32 + e.length) % spillSize d
                tags := dropTag e.tag d.tags ++ [{ e with where_ := 1, offset := d.spillHead }] }))
          stashRoom core c n fuel
        else pure false

/-- STASH runs (R282). -/
def stepStash (core : Nat) (c : Command) : EM Bool := do
  let tile := coreTile core
  let off := (c.args.getD 0 0).toNat
  let tag : Word := (c.args.getD 1 0).extractLsb' 32 32
  let n := (c.args.getD 1 0).toNat % 2 ^ 32
  stashWaysE core c
  lmRangeE core c off n
  freeTag core c tag
  if 4096 ≤ (drayOf (← get) tile c.ctx).tags.length then pure true
  else if (← stashRoom core c (32 + n) 4097) then do
    let s ← get
    let d := drayOf s tile c.ctx
    let bytes := dwordBytes (stashHeader tag n 1) ++ storeBytes s (lmKey tile off) n
    let s := putRing s tile d.stashb.toNat d.stashl.toNat d.head bytes
    set (modDray s tile c.ctx (fun d =>
      { d with
        head := (d.head + 32 + n) % d.stashl.toNat
        tags := d.tags ++ [{ ctx := c.ctx.toNat, tag := tag, where_ := 0, offset := d.head, length := n }] }))
    pure true
  else do
    modify (fun s => modTags s core c.ctx (fun l =>
      l ++ [{ ctx := c.ctx.toNat, tag := tag, where_ := 3, offset := 0, length := n }]))
    pure true

/-- The bytes of an entry, wherever it is. -/
def stashData (core : Nat) (c : Command) (e : StashTag) : EM (List Byte) := do
  let s ← get
  let d := drayOf s (coreTile core) c.ctx
  match e.where_ with
  | 0 => pure (ringBytes s (coreTile core) d.stashb.toNat d.stashl.toNat (e.offset + 32) e.length)
  | 1 => spillRead core c (spillBase d) (spillSize d) (e.offset + 32) e.length
  | _ =>
    let k := flashKey s core c.ctx (d.spillf.extractLsb' 57 6).toNat (d.spillf.toNat % 2 ^ 48 + e.offset)
    pure (flashBytes s (k + 32) e.length)

/-- An entry on flash is read back through its pair, a Read entry for each block; where the device lets a block land first is its
own (R367). -/
def readBack (core : Nat) (c : Command) (e : StashTag) : EM Unit := do
  let s ← get
  let d := drayOf s (coreTile core) c.ctx
  let pair := (d.spillf.extractLsb' 57 6).toNat
  let block := d.spillf.toNat % 2 ^ 48 + e.offset
  let n := flashBlocks e.length
  waitE (!pairWaits s core c.ctx pair && decide (n ≤ pairRoom s core c.ctx pair))
  for i in List.range n do
    let (v, s') := drawOpen (← get)
    set s'
    let x ← flashEntry core c pair 2 (block + i) v.toNat 0
    submitE core c pair x
    modify (fun s => addRead s core c.ctx
      { pair := pair, cid := x.getD 0 0 / 2 ^ 16 % 2 ^ 16, at_ := flashKey s core c.ctx pair (block + i), pages := []
        reader := some c.seq })

/-- UNSTASH runs: what its issue found is copied and freed (R283), once what lies on flash has been read back (R367). -/
def stepUnstash (core : Nat) (c : Command) : EM Bool := do
  let tile := coreTile core
  let off := (c.args.getD 0 0).toNat % 2 ^ 20
  let tag : Word := (c.args.getD 0 0).extractLsb' 32 32
  stashWaysE core c
  match tagOf (← get) core c.ctx tag with
  | none => pure true
  | some e =>
    if 3 ≤ (c.args.getD 1 0).toNat ∨ e.where_ = 3 then pure true
    else if c.done = 0 then do
      lmRangeE core c off e.length
      if e.where_ = 2 then readBack core c e
      advanceE core c
      pure false
    else do
      waitE ((drayOf (← get) tile c.ctx).reads.all (fun r => r.reader != some c.seq))
      let bytes ← stashData core c e
      modify (fun s =>
        let s := putBytes s (lmKey tile off) bytes
        (wordsOf (lmKey tile off) e.length).foldl fullSet s)
      freeTag core c tag
      pure true

/-- STASH: the offset, then the tag and length, or PROT with the value. -/
def execStash (b a : BitVec 5) (g : BitVec 4) (s : State) : Result :=
  scalar (.stash b a g) g s (fun t => do
    let s ← get
    let x := gGet t a
    let y := gGet t b
    let n := y.toNat % 2 ^ 32
    let len := (drayOf s (hereTile s) t.ctx).stashl.toNat
    guardM (decide (x.toNat < 2 ^ 20) && x.toNat % 32 == 0) causeProt x
    guardM (n % 32 == 0 && decide (32 ≤ n) && (len == 0 || decide (n + 32 ≤ len))) causeProt y
    pushM_ t (wordOf (.stash b a g)) 0 0 0 [x, y])

/-- UNSTASH: G(d) says where the entry is; a marker goes as it is read. -/
def execUnstash (a d : BitVec 5) (g : BitVec 4) (s : State) : Result :=
  scalar (.unstash a d g) g s (fun t => do
    let s ← get
    let core := hereCore s
    let x := gGet t a
    guardM (x.toNat % 32 == 0 && x.extractLsb' 20 12 == 0#12) causeProt x
    awaitM (ringFree (coreAt s core)) .ring
    let tag : Word := x.extractLsb' 32 32
    let r : Nat := ((tagOf s core t.ctx tag).map (·.where_)).getD 4
    if r = 3 then set (modTags s core t.ctx (dropTag tag))
    modThis (fun u => gSet u d (BitVec.ofNat 64 r))
    pushM_ t (wordOf (.unstash a d g)) 0 0 0 [x, BitVec.ofNat 64 r])

end Sys2Proof.Machine
end

