-- ==== Sys2Proof/Machine/Commands.lean ====
section
/-!
DEFINITION. Sys2Proof/Machine/Commands.lean: semaphores' instructions, the running of ring commands, and the commands that come
in messages, MCMD and XFORM (spec/16_engine_cores.md R251, R254, R255, R258, R261 to R265,
spec/17_copy_convert_instructions.md R274, R275).
-/

namespace Sys2Proof.Machine

/-! ### SEMP and SEMV (R251) -/

/-- The first slot that waits for a semaphore of the tile. -/
def firstWaiter (s : State) (tile n : Nat) : Option Nat := ((tileAt s tile).semWait.find? (fun w => w.2 == n)).map (·.1)

/-- SEMP: in the order of arrival, one off the count, and an acquire. -/
def execSemp (sh g : BitVec 4) (s : State) : Result :=
  scalar (.semp sh g) g s (fun t => do
    let s ← get
    let tile := hereTile s
    let n := sh.toNat
    guardM (granted s tile t.ctx grantSems n) causeProt (sh.setWidth 64)
    let first := match firstWaiter s tile n with
      | none => true
      | some k => k == s.here
    awaitM (first && semAt s tile n != 0#16) (.sem n)
    set (unwait (semDec s tile n) s.here)
    acquireM
    pure .seq)

/-- SEMV: a release, with the task's commands, then one more. -/
def execSemv (sh g : BitVec 4) (s : State) : Result :=
  scalar (.semv sh g) g s (fun t => do
    let s ← get
    guardM (granted s (hereTile s) t.ctx grantSems sh.toNat) causeProt (sh.setWidth 64)
    releaseM
    modify (fun s => semInc s (hereTile s) sh.toNat)
    pure .seq)

/-- SEMP_SERVE: the SEMP that has waited longest completes. -/
def execSempServe (tile : Nat) (sem : BitVec 4) (s : State) : Result :=
  match firstWaiter s tile sem.toNat with
  | none => .next s
  | some k =>
    if semAt s tile sem.toNat = 0#16 then .next s
    else
      match currentInstr s k with
      | some (.semp sh g) => execSemp sh g { s with here := k }
      | _ => .next s

/-! ### Running commands (R254, R255, R258) -/

/-- One step of a command, by its word; true when it was the last. -/
def stepCommand (core : Nat) (c : Command) : EM Bool :=
  match taskWord c.word with
  | some (.copy _ _ _ _) => stepCopy core c .rule false
  | some (.convt h m _ _ _ _) => stepCopy core c (convMode m) (h == 1#1)
  | some (.gath _ _ _ _ _) => stepRows core c false false
  | some (.scat _ _ _ _ _) => stepRows core c true false
  | some (.scatAdd _ _ _ _ _) => stepRows core c true true
  | some (.compress p _ _ _ _ _) => stepCompress core c (p == 1#1)
  | some (.bfpa _ _ _ _ _) => stepBfpa core c
  | some (.mma u k j z _ _ _ _) => stepMma core c false (u == 1#1) (j == 1#1) (k == 1#1) z
  | some (.mmas u k j z _ _ _ _ _) => stepMma core c true (u == 1#1) (j == 1#1) (k == 1#1) z
  | some (.mzero z _ _) => stepMzero core c z
  | some (.mldacc z _ _ _) => stepMldacc core c z
  | some (.mstacc z _ _ _) => stepMstacc core c z
  | some (.kagg _ _ _ _ _) => stepKagg core c false
  | some (.kaggO _ _ _ _ _) => stepKagg core c true
  | some (.kbcast _ _ _ _ _) => stepKbcast core c
  | some (.kfold _ _ _ _) => stepKfold core c
  | some (.kdirty _ _ _ _) => stepKdirty core c
  | some (.kisect _ _ _ _ _) => stepKisect core c
  | some (.stash _ _ _) => stepStash core c
  | some (.unstash _ _ _) => stepUnstash core c
  | some (.flq _ _ _) => stepFlq core c
  | _ => pure true

/-- The word has a completion-signal field (R50). -/
def hasSignal (w : Word) : Bool :=
  match taskWord w with
  | some (.stash _ _ _) => false
  | some (.unstash _ _ _) => false
  | some (.flq _ _ _) => false
  | _ => true

/-- The command a ring performs now: the first that is not over, a vector stream apart; none while it is suspended (R254,
R258). -/
def headCmd (s : State) (core : Nat) : Option Command :=
  match (coreAt s core).ring.find? (fun e => e.state == 1 || e.state == 5 || (e.state == 2 && !isVgo e.word)) with
  | some c => if c.state = 5 then none else some c
  | none => none

/-- How a step of the head command ended. -/
inductive Ran where
  | idle | waits | goesOn | completed | stopped
  deriving DecidableEq, Repr

/-- The head command takes a step. One that waits, or is suspended, keeps nothing of it. A queued one starts once its task's
earlier stores and posted atomics have been performed (R254), and nothing holds it back (R179, R184). -/
def runStep (s : State) (core : Nat) : State × Ran :=
  match headCmd s core with
  | none => (s, .idle)
  | some c =>
    let s1 := modCmd s core c.seq (fun e => { e with state := 2 })
    if c.state = 1 ∧ (startHeld s core c ∨ c.after.any (fun id => s.net.any (fun p => p.id == id))) then (s, .waits)
    else match (stepCommand core { c with state := 2 }).run s1 with
    | (.ok false, s2) => (s2, .goesOn)
    | (.ok true, s2) => (completeCmd s2 core c.seq (hasSignal c.word), .completed)
    | (.error .wait, _) => (s1, .waits)
    | (.error (.held part), _) => (noteExit s1 part, .waits)
    | (.error (.suspend addr elem), _) => (suspendCmd s1 core c.seq addr elem, .stopped)
    | (.error (.fault kind addr elem), s2) =>
      match addr with
      | some a => (faultCmd s2 core c.seq kind a elem, .stopped)
      | none =>
        let (a, s3) := drawOpen s2
        (faultCmd s3 core c.seq kind a elem, .stopped)

/-- Steps of the head command up to its end, or to where it waits. -/
def runOut (core : Nat) : Nat → State → State × Ran
  | 0, s => (s, .goesOn)
  | fuel + 1, s =>
    match runStep s core with
    | (s', .goesOn) => runOut core fuel s'
    | r => r

/-- More steps than any command has. -/
def runFuel : Nat := 2 ^ 70

/-- COMMAND_COMPLETE: what is left of the head command is performed, and its signal and its DEC follow. -/
def execCommandComplete (core : Nat) (s : State) : Result := .next (runOut core runFuel s).1

/-- LATE_FAULT: the head command runs into its fault, or its suspension. -/
def execLateFault (core : Nat) (s : State) : Result :=
  match runOut core runFuel s with
  | (s', .stopped) => .next s'
  | _ => .next s

/-- A step of the head command, when its word is of a kind. -/
def runKind (core : Nat) (s : State) (kind : Instr → Bool) : Result :=
  match headCmd s core with
  | none => .next s
  | some c => if (taskWord c.word).any kind then .next (runStep s core).1 else .next s

/-- GATHREQ: the head gather of a core goes one element on: the read at its home and the reply's arrival are one step. -/
def execGathreq (p : Nat) (s : State) : Result :=
  runKind p s (fun i => match i with
    | .gath _ _ _ _ _ => true
    | _ => false)

/-- SCATREQ: the head scatter of a core goes one element on. -/
def execScatreq (p : Nat) (s : State) : Result :=
  runKind p s (fun i => match i with
    | .scat _ _ _ _ _ => true
    | .scatAdd _ _ _ _ _ => true
    | _ => false)

/-- KAGGREQ: the head aggregate or fold of a core goes one element on. -/
def execKaggreq (p : Nat) (s : State) : Result :=
  runKind p s (fun i => match i with
    | .kagg _ _ _ _ _ => true
    | .kaggO _ _ _ _ _ => true
    | .kfold _ _ _ _ => true
    | _ => false)

/-- KBCASTREQ: the head broadcast of a core goes one lookup on. -/
def execKbcastreq (p : Nat) (s : State) : Result :=
  runKind p s (fun i => match i with
    | .kbcast _ _ _ _ _ => true
    | _ => false)

/-! ### Commands in messages (R263 to R265, R275) -/

/-- What a remote command's word names: the accumulator, whether it has maps d, a and b, and the orientations it reads a and b
with. Its guard is p0, and its q and map fields are 0. -/
structure RemoteWord where
  z : Option (BitVec 2)
  d : Bool
  a : Bool
  b : Bool
  acol : Bool
  bcol : Bool
  deriving DecidableEq, Repr

def matrixWord (w : Word) : Option RemoteWord :=
  match taskWord w with
  | some (.mma _ k j z 0#3 0#4 0#4 0#4) =>
    some { z := some z, d := false, a := true, b := true, acol := j == 1#1, bcol := k == 1#1 }
  | some (.mmas _ k j z 0#3 0#4 0#4 0#4 0#4) =>
    some { z := some z, d := true, a := true, b := true, acol := j == 1#1, bcol := k == 1#1 }
  | some (.mzero z 0#3 0#4) => some { z := some z, d := false, a := false, b := false, acol := false, bcol := false }
  | some (.mldacc z 0#3 0#4 0#4) => some { z := some z, d := false, a := true, b := false, acol := false, bcol := false }
  | some (.mstacc z 0#3 0#4 0#4) => some { z := some z, d := true, a := false, b := false, acol := false, bcol := false }
  | _ => none

def copyWord (w : Word) : Option RemoteWord :=
  match taskWord w with
  | some (.copy 0#3 0#4 0#4 0#4) => some { z := none, d := true, a := true, b := false, acol := false, bcol := false }
  | _ => none

/-- The image at an LM offset. -/
def imageAt (s : State) (tile off : Nat) : BitVec 256 := BitVec.ofNat 256 (lmGet s tile off 32)
/-- An image lies in the context's banks, and is not malformed. -/
def imageGood (s : State) (tile : Nat) (ctx : BitVec 11) (off : Nat) : Bool :=
  inBanks (((grantOf s tile ctx).map (fun g => grantBanks g.2)).getD 0) off 32 && !malformedMap (imageAt s tile off)
/-- The image is of a kind. -/
def imageKind (s : State) (tile off kind : Nat) : Bool := isKind (imageAt s tile off) kind

/-- The offset in the tile's own vault that an address names, whatever the role of its way. -/
def ownVault (tile va : Nat) : Option Nat :=
  if (0x800000 ≤ va ∧ va < 0x1000000) ∨ (0x200000000 ≤ va ∧ va < 0x400000000 ∧ va / 2 ^ 23 % 1024 = tile % 1024) then
    some (va % 2 ^ 23)
  else none

/-- Check 8 on one operand of a move: its elements in the LM of a tile lie in banks that the context holds there, and those in a
vault in the token's window, which is of this tile, or, without a token, in ways that the context holds there. -/
def placesGood (s : State) (tile : Nat) (ctx : BitVec 11) (window : Option (Nat × Nat)) (m : TMap) : Bool :=
  (List.range m.count).all (fun k =>
    let p := spotOf s tile m m.col (m.indices k)
    match ownVault tile p.va with
    | some off =>
      (match window with
        | some (w0, n) => decide (w0 ≤ off / 2 ^ 19) && decide (off / 2 ^ 19 < w0 + n)
        | none => wayRole s tile (off / 2 ^ 19) == 2 && wayHeld s tile ctx off)
    | none =>
      match p.place with
      | .placed false t off => bankHeld s t ctx off
      | .placed true t off => window.isNone && wayHeld s t ctx off
      | _ => true)

/-- Check 8 on an operand of MMA or MMAS, under the orientation it is read with: every element of one in LM lies in the
context's banks, and every element of one in the vault in the token's window (R264, R291). Whether a way may be read there is
the command's own check, and so are the scale bytes (R288, R292). -/
def operandGood (s : State) (tile : Nat) (c : Command) (m : TMap) (col vault : Bool) : Bool :=
  (List.range m.count).all (fun k =>
    let va := (spotOf s tile m col (m.indices k)).va
    if vault then
      match ownVault tile va, c.window with
      | some off, some (w0, n) => decide (w0 ≤ off / 2 ^ 19) && decide (off / 2 ^ 19 < w0 + n)
      | _, _ => false
    else (operandFault s tile c false va).isNone)

/-- The record name of a remote command. -/
def recordGood (s : State) (n : Dword) : Bool := n == 0#64 || (nameOk n && pkgPresent s (tilePkg (nameTile n)))

/-- The ring entry of an accepted message. -/
def remoteCmd (p : Packet) (h : Dword) (word : Word) (mapD mapA mapB : BitVec 256) (rec_ : Dword)
    (window : Option (Nat × Nat)) : Command :=
  { seq := 0, word := word, mapD := mapD, mapA := mapA, mapB := mapB, state := 1, kind := 0, addr := 0, elem := 0, sword := 0,
    origin := (senderOf p).setWidth 64, uid := 0, slot := p.src, ctx := hdrCtx h, launch := p.launch, tag := hdrTag h,
    fnsel := 0x10387#17, args := [], done := 0, got := [], outbox := [], notes := [], words := [], after := [],
    remote := some (rec_, senderOf p, senderSlot p, p.launch), window := window, unreported := false, held := false }

/-- The first check of R264 that an MCMD fails; 0 when it passes them all. Check 7 covers the three images, those the word does not
use too, and the kinds of those it uses (log 88); a way that a RESIZE has withdrawn fails check 8 for every window that holds
it (R184). -/
def mcmdReason (s : State) (tile : Nat) (h : Dword) (pl : List Dword) : Nat :=
  let tok := pl.getD 0 0
  let d1 := pl.getD 1 0
  let d2 := pl.getD 2 0
  let x := tileAt s tile
  let ctx := hdrCtx h
  let offs : List Nat := [0, 20, 40].map (fun i => (d2.extractLsb' i 20).toNat)
  let way0 := (tok.extractLsb' 35 4).toNat
  let n := (tok.extractLsb' 31 4).toNat + 1
  if (tok.extractLsb' 54 10).toNat ≠ tile % 1024 then 1
  else if tok.extractLsb' 43 11 ≠ ctx then 2
  else if tok.extractLsb' 0 24 ≠ Config.tokenCheck tile x.keyDraw (tok.extractLsb' 24 40) then 3
  else if 63 < (tok.extractLsb' 24 7 - x.mepoch).toNat then 4
  else
    match matrixWord (d1.setWidth 32) with
    | none => 5
    | some w =>
      let img (i : Nat) : BitVec 256 := imageAt s tile (offs.getD i 0)
      let sparse := w.d && w.b
      if d1.extractLsb' 32 32 ≠ 0#32 ∨ d2.extractLsb' 60 4 ≠ 0#4 ∨ offs.any (fun o => o % 32 != 0) ∨
          !recordGood s (pl.getD 3 0) then 5
      else if !(w.z.all (fun z => tok.getLsbD (39 + z.toNat))) then 6
      else if !(offs.all (imageGood s tile ctx)) || (w.a && !imageKind s tile (offs.getD 0 0) 0) ||
          (w.b && !imageKind s tile (offs.getD 1 0) 0) || (w.d && !imageKind s tile (offs.getD 2 0) (if sparse then 3 else 0)) ||
          (sparse && (mapOf (img 2)).fmt != 4#4 && (mapOf (img 2)).fmt != 5#4) then 7
      else if (List.range n).any (fun i => wayRole s tile (way0 + i) != 2) then 8
      else if w.b then
        let c : Command := remoteCmd { id := 0, src := 0, dst := 0, launch := 0, body := .revoke 0 } h 0 0 0 0 0 (some (way0, n))
        if operandGood s tile c (mapOf (img 0)) w.acol false && operandGood s tile c (mapOf (img 1)) w.bcol true &&
          (!w.d || operandGood s tile c (mapOf (img 2)) w.acol false) then 0 else 8
      else
        let ok (m : TMap) : Bool := placesGood s tile ctx (some (way0, n)) m
        if (!w.a || ok (mapOf (img 0))) && (!w.d || ok (mapOf (img 2))) then 0 else 8

/-- An MCMD is rejected for a reason: counted, and reported to its sender (R264). -/
def rejectMcmd (s : State) (p : Packet) (h : Dword) (dev : Bool) (reason : Dword) : State :=
  let s := modTile (consume s p h dev) (coreTile p.dst) (fun x => { x with mcrej := BitVec.ofNat 32 (satInc x.mcrej.toNat) })
  report s p.dst (senderOf p) (hdrCtx h) 8 0x0F#8 0 reason h p.launch (senderSlot p)
/-- An XFORM is rejected for a reason (R275). -/
def rejectXform (s : State) (p : Packet) (h : Dword) (dev : Bool) (reason : Dword) : State :=
  report (consume s p h dev) p.dst (senderOf p) (hdrCtx h) 10 causeProt 0 reason h p.launch (senderSlot p)
/-- A message of a killed context that waits is rejected, for a reason that the spec does not name (R343). -/
def rejectDead (reject : State → Packet → Dword → Bool → Dword → State) (p : Packet) (h : Dword) (dev : Bool) (s : State) :
    State :=
  let (v, s) := drawOpen s
  reject s p h dev v

/-- MCMD: checked, then a ring entry of the Press core, or rejected (R264, R265). One that passes while the ring is full waits in
the input queue and is checked again at each try, so that a token that expires, or a key or an image that changes meanwhile,
rejects it (DESIGN CHOICE, log 101). -/
def execMcmd (p : Nat) (s : State) : Result :=
  onMessageOr s p (fun c => c == 12) (rejectDead rejectMcmd) (fun p h pl dev s' =>
    let core := p.dst
    let tile := coreTile core
    match mcmdReason s tile h pl with
    | 0 =>
      if !ringFree (coreAt s core) then s
      else
        let d2 := pl.getD 2 0
        let tok := pl.getD 0 0
        let img (i : Nat) : BitVec 256 := imageAt s tile (d2.extractLsb' (20 * i) 20).toNat
        pushCmd (consume s' p h dev) core (remoteCmd p h ((pl.getD 1 0).setWidth 32) (img 2) (img 0) (img 1) (pl.getD 3 0)
          (some ((tok.extractLsb' 35 4).toNat, (tok.extractLsb' 31 4).toNat + 1)))
    | n => rejectMcmd s' p h dev (BitVec.ofNat 64 n))

/-- The check that an XFORM fails, by its number in R264; 0 when it passes them all. -/
def xformReason (s : State) (tile : Nat) (h : Dword) (pl : List Dword) : Nat :=
  let d0 := pl.getD 0 0
  let d1 := pl.getD 1 0
  let ctx := hdrCtx h
  let oa := (d1.extractLsb' 0 20).toNat
  let od := (d1.extractLsb' 20 20).toNat
  if (copyWord (d0.setWidth 32)).isNone ∨ d0.extractLsb' 32 32 ≠ 0#32 ∨ d1.extractLsb' 40 24 ≠ 0#24 ∨ oa % 32 ≠ 0 ∨
      od % 32 ≠ 0 ∨ !recordGood s (pl.getD 2 0) ∨ pl.getD 3 0 ≠ 0#64 then 5
  else if !imageGood s tile ctx oa || !imageGood s tile ctx od || !imageKind s tile oa 0 || !imageKind s tile od 0 then 7
  else if placesGood s tile ctx none (mapOf (imageAt s tile oa)) && placesGood s tile ctx none (mapOf (imageAt s tile od)) then 0
  else 8

/-- XFORM: checked, then a ring entry of the Dray core, or rejected (R275). -/
def execXform (p : Nat) (s : State) : Result :=
  onMessageOr s p (fun c => c == 17) (rejectDead rejectXform) (fun p h pl dev s' =>
    let core := p.dst
    let tile := coreTile core
    match xformReason s tile h pl with
    | 0 =>
      if !ringFree (coreAt s core) then s
      else
        let d1 := pl.getD 1 0
        let img (i : Nat) : BitVec 256 := imageAt s tile (d1.extractLsb' (20 * i) 20).toNat
        pushCmd (consume s' p h dev) core (remoteCmd p h ((pl.getD 0 0).setWidth 32) (img 1) (img 0) 0 (pl.getD 2 0) none)
    | n => rejectXform s' p h dev (BitVec.ofNat 64 n))

end Sys2Proof.Machine
end

