-- ==== Sys2Proof/Machine/Control.lean ====
section
/-!
DEFINITION. Sys2Proof/Machine/Control.lean: branches, calls, returns and the hardware loop, majors 0x1F to 0x22 and their
compact forms (spec/05_integer_control_instructions.md, R85 to R90; R48).
-/

namespace Sys2Proof.Machine

/-- The address a displacement in halfwords from the instruction names (R50, R85). -/
def branchTarget {n : Nat} (t : Task) (disp : BitVec n) : Dword := t.pc.setWidth 64 + (disp.signExtend 64 <<< 1)

/-- A taken branch (R85). -/
def branch {n : Nat} (disp : BitVec n) : Task → M Flow := fun t => pure (.jump (branchTarget t disp) false)

/-- A jump to a register value, linking in gd (R86): MISALIGN for an odd target; a call when gd is not g0 (R90). -/
def jumpLink (target : Dword) (d : BitVec 5) (len : Nat) : Task → M Flow := fun t =>
  if target.getLsbD 0 then trapM causeMisalign target
  else do
    modThis (fun u => gSet u d (t.pc.setWidth 64 + BitVec.ofNat 64 len))
    pure (.jump target (d != 0#5))

/-- BR: a branch under its guard (R85). -/
def execBr (d : BitVec 21) (g : BitVec 4) (s : State) : Result := scalar (.br d g) g s (branch d)

/-- JAL: links in g1, then branches; a call (R85, R90). -/
def execJal (d : BitVec 21) (g : BitVec 4) (s : State) : Result :=
  scalar (.jal d g) g s (fun t => do
    modThis (fun u => gSet u 1#5 (t.pc.setWidth 64 + 4#64))
    pure (.jump (branchTarget t d) true))

/-- JALR (R86). -/
def execJalr (i : BitVec 11) (a d : BitVec 5) (g : BitVec 4) (s : State) : Result :=
  scalar (.jalr i a d g) g s (fun t => jumpLink (gGet t a + (i.signExtend 64 <<< 1)) d 4 t)

/-- The loop registers after LOOP with count n (R88): the body is skipped when n is 0. -/
def startLoop (n : Dword) (len : BitVec 11) (t : Task) : Task :=
  let start := t.pc.setWidth 64 + 4#64
  let stop := start + (len.setWidth 64 <<< 1)
  setPc { t with lstart := start, lend := stop, lcount := n, pend := .idle } (if n = 0#64 then stop else start)

/-- LOOP (R88). -/
def execLoop (i : BitVec 11) (a : BitVec 5) (g : BitVec 4) (s : State) : Result :=
  scalar (.loop i a g) g s (fun t => do
    modThis (startLoop (gGet t a) i)
    pure .stay)

/-- C.BR (R48, R85). -/
def execCBr (i : BitVec 7) (s : State) : Result := scalar (.cBr i) always s (branch i)

/-- C.BNZ: taken when G(d) is not 0 (R87). -/
def execCBnz (i : BitVec 7) (d : BitVec 4) (s : State) : Result :=
  scalar (.cBnz i d) always s (fun t => if gGet t (cReg d) = 0#64 then pure .seq else branch i t)

/-- C.CALL: JALR g1, ga, 0 with the link pc + 2 (R48, R86). -/
def execCCall (a : BitVec 4) (s : State) : Result :=
  scalar (.cCall a) always s (fun t => jumpLink (gGet t (cReg a)) 1#5 2 t)

/-- C.RET: JALR g0, g1, 0 (R48, R86). -/
def execCRet (s : State) : Result := scalar .cRet always s (fun t => jumpLink (gGet t 1#5) 0#5 2 t)

end Sys2Proof.Machine
end

