-- ==== Sys2Proof/Machine/Landing.lean ====
section
/-!
DEFINITION. Sys2Proof/Machine/Landing.lean: landings of SCATREQ messages into LM, with their transforms, their record and the
block queue of a post buffer (spec/08_tasks_scheduling.md R109, spec/25_fabric_gangs.md R361).
-/

namespace Sys2Proof.Machine

/-- Fields of a landing word (R109, Table 2b). -/
def landOff (w : Dword) : Nat := (w.extractLsb' 0 20).toNat
def landFmt (w : Dword) : BitVec 4 := w.extractLsb' 20 4
def landRecord (w : Dword) : Nat := (w.extractLsb' 32 20).toNat
def landRow (w : Dword) : Nat := (w.extractLsb' 58 5).toNat
def landCol (w : Dword) : Nat := (w.extractLsb' 53 5).toNat

/-- The format of a landing's data; FN takes its parameters from the target bank. None when the bank names no such format. -/
def landElem (s : State) (tile : Nat) (w : Dword) : Option Elem :=
  elemOf (landFmt w) (if landFmt w = 0xB#4 then (bankReg s tile (landOff w)).extractLsb' 4 17 else 0)
/-- Bits of an element of the data. -/
def landBits (e : Option Elem) : Nat := (e.map elemBits).getD 8

/-- The data as one number, its first byte lowest. -/
def landNat (data : List Dword) : Nat := data.foldr (fun d acc => d.toNat + 2 ^ 64 * acc) 0
/-- Elements of the data. -/
def landCount (e : Option Elem) (data : List Dword) : Nat := 64 * data.length / landBits e

/-- Bytes that a landing writes: for CONV and ADD in the bank's format. -/
def landBytes (s : State) (tile : Nat) (w : Dword) (xf : Nat) (data : List Dword) : Nat :=
  if xf = 1 ∨ xf = 2 then (landCount (landElem s tile w) data * elemBits (bankElem s tile (landOff w)) + 7) / 8
  else 8 * data.length

/-- The lowest byte that a landing writes, and how many bytes on the last one is. -/
def landSpan (s : State) (tile : Nat) (w : Dword) (xf : Nat) (data : List Dword) : Nat × Nat :=
  if xf = 4 then (landOff w + 32 * landRow w + landCol w, 32 * (8 * data.length - 1) + 1)
  else (landOff w, landBytes s tile w xf data)

/-- The data stays in one bank, and the bank is the context's. -/
def landFits (s : State) (tile : Nat) (ctx : BitVec 11) (span : Nat × Nat) : Bool :=
  decide (span.1 / 2 ^ 16 = (span.1 + span.2 - 1) / 2 ^ 16) && bankHeld s tile ctx span.1

/-- Element k of the data converted into the bank's format, or added into the word in place: the state, and whether the
element is offending (R41, R42). -/
def landOne (tile : Nat) (w : Dword) (data : Nat) (add : Bool) (e : Option Elem) (s : State) (k : Nat) : State × Bool :=
  let dst := bankElem s tile (landOff w)
  let bits := elemBits dst
  let at_ := 8 * landOff w + bits * k
  let p : Spot := { va := at_ / 8, pkg := tilePkg tile, bit := at_ % 8, bits := bits, place := .placed false tile (at_ / 8), elem := dst }
  let x := data / 2 ^ (landBits e * k) % 2 ^ landBits e
  let (v, bad, s) :=
    match e with
    | some e => convertTo s p .rule false (elemVal e x)
    | none =>
      let (v, s) := drawOpen s
      (v.toNat % 2 ^ bits, false, s)
  let old := lmGet s tile p.va (max 1 (bits / 8))
  let v := if add then addInto dst (old / 2 ^ p.bit % 2 ^ bits) v else v
  let whole := if bits < 8 then (if p.bit = 0 then old / 16 * 16 + v else old % 16 + 16 * v) else v
  (lmPut s tile p.va (max 1 (bits / 8)) whole, bad)

/-- All elements of a converting landing. -/
def landAll (tile : Nat) (w : Dword) (data : List Dword) (add : Bool) (s : State) : State × Bool :=
  let e := landElem s tile w
  (List.range (landCount e data)).foldl (fun (acc : State × Bool) k =>
    let r := landOne tile w (landNat data) add e acc.1 k
    (r.1, acc.2 || r.2)) (s, false)

/-- The bytes of a TRANS landing, down their column. -/
def landColumn (tile : Nat) (w : Dword) (data : List Dword) (s : State) : State :=
  (List.range (8 * data.length)).foldl (fun s b =>
    lmPut s tile (landOff w + 32 * (landRow w + b) + landCol w) 1 (landNat data / 2 ^ (8 * b) % 256)) s

/-- The data reaches LM under a transform (Table 3); true when an element was offending. -/
def landData (tile : Nat) (w : Dword) (xf : Nat) (data : List Dword) (s : State) : State × Bool :=
  match xf with
  | 1 => landAll tile w data false s
  | 2 => landAll tile w data true s
  | 3 =>
    let s := lmPutAll s tile (landOff w) data
    ((wordsOf (lmKey tile (landOff w)) (8 * data.length)).foldl fullSet s, false)
  | 4 => (landColumn tile w data s, false)
  | _ => (lmPutAll s tile (landOff w) data, false)

/-- The block of the enabled post buffer that a span lies in wholly (R360, R361). -/
def blockOf (t : Tile) (span : Nat × Nat) : Option Nat :=
  let buf := (t.pqcfg.extractLsb' 0 20).toNat
  let size := 2 ^ (t.pqcfg.extractLsb' 40 4).toNat
  let n := (t.pqcfg.extractLsb' 20 12).toNat + 1
  if t.pqcfg.getLsbD 63 ∧ buf ≤ span.1 ∧ (span.1 - buf) / size < n ∧
      (span.1 - buf) / size = (span.1 + span.2 - 1 - buf) / size then some ((span.1 - buf) / size)
  else none

/-- The landing's DEC, at once, with release: a firing, or a stray decrement (R109, R113). -/
def landDec (s : State) (tile off : Nat) (ctx : BitVec 11) : State :=
  if off = 0 then s
  else if lmGet s tile (off + 4) 4 = 0 then
    let core := coreKey tile 0
    let name := BitVec.ofNat 64 (tilePkg tile * 2 ^ 30 + tile % 1024 * 2 ^ 20 + off)
    let s := modCore s core (fun c => { c with stray := satInc c.stray })
    report s core (fabricAddr core) ctx 4 0 0 name (mkHeader 3 ctx 16#5 0 true (fabricAddr core).toNat) 0 0
  else decRecord s tile off ctx true

/-- The DEC would pass the limit of 65,535 start entries (R348). -/
def landDecWaits (s : State) (tile off : Nat) (ctx : BitVec 11) : Bool :=
  decide (off ≠ 0) && lmGet s tile (off + 4) 4 == 1 && decide (65535 ≤ queuedOn s tile (recordData s tile off ctx).1)

/-- A landing's error is one of its phase, and of the sender's launch (R41, R109, R117). -/
def landError (s : State) (tile : Nat) (h : Dword) (launch : Word) : State :=
  let s := phaseMark s tile (hdrTag h) 1#4
  if (tget s.launches (launchKey (hdrCtx h) launch)).isSome then modLaunch s (hdrCtx h) launch (fun l => { l with error := true })
  else s

/-- A landing of a transform. -/
def landing (xf p : Nat) (s : State) : Result :=
  onMessage s p (fun c => c == 9) (fun p h pl dev s' =>
    let tile := coreTile p.dst
    let ctx := hdrCtx h
    let w := pl.getD 0 0
    let data := pl.drop 1
    let span := landSpan s' tile w xf data
    let fits := landFits s' tile ctx span
    let block := if fits then blockOf (tileAt s' tile) span else none
    if hdrXf h ≠ xf then s
    else if landDecWaits s' tile (landRecord w) ctx then s
    else if block.isSome && decide (256 ≤ (tileAt s' tile).blocks.length) then s
    else
      let s1 := consume s' p h dev
      let (s1, bad) := if fits then landData tile w xf data s1
        else (report (modCore s1 p.dst (fun c => { c with landDisc := satInc c.landDisc })) p.dst (senderOf p) ctx 6 0 0 w h
          p.launch (senderSlot p), true)
      let s1 := if bad then landError s1 tile h p.launch else s1
      let s1 := landDec s1 tile (landRecord w) ctx
      match block with
      | some b => modTile s1 tile (fun t => { t with blocks := t.blocks ++ [{ off := b, slot := tilePkg (slotTile p.src) }] })
      | none => s1)

/-- LANDING_PLAIN. -/
def execLandingPlain (p : Nat) (s : State) : Result := landing 0 p s
/-- LANDING_CONV. -/
def execLandingConv (p : Nat) (s : State) : Result := landing 1 p s
/-- LANDING_ADD. -/
def execLandingAdd (p : Nat) (s : State) : Result := landing 2 p s
/-- LANDING_SETF. -/
def execLandingSetf (p : Nat) (s : State) : Result := landing 3 p s
/-- LANDING_TRANS. -/
def execLandingTrans (p : Nat) (s : State) : Result := landing 4 p s

end Sys2Proof.Machine
end

