-- ==== Sys2Proof/Machine/Memory.lean ====
section
/-!
DEFINITION. Sys2Proof/Machine/Memory.lean: LD, ST and their compact forms, majors 0x15 and 0x16 (R48, R82, R83).
-/

namespace Sys2Proof.Machine

/-- Effect of a load of kind `kind` (R82). -/
def loadTo (a d : BitVec 5) (size kind : Nat) (ea : Task → Dword) : Task → M Flow := fun t => do
  checkAddr t a (ea t) size
  let v ← memRead t (ea t) size kind
  modThis (fun u => gSet u d v)
  pure .seq

/-- Effect of a store of kind `kind` (R82). -/
def storeFrom (a d : BitVec 5) (size kind : Nat) (ea : Task → Dword) : Task → M Flow := fun t => do
  checkAddr t a (ea t) size
  memWrite t (ea t) size kind (gGet t d)
  pure .seq

/-- LD (R82). -/
def execLd (o : BitVec 5) (p k sz : BitVec 2) (a d : BitVec 5) (g : BitVec 4) (s : State) : Result :=
  scalar (.ld o p k sz a d g) g s (loadTo a d (2 ^ sz.toNat) k.toNat (fun t => effAddr t a o sz.toNat))

/-- ST (R82). -/
def execSt (o : BitVec 5) (p k sz : BitVec 2) (a d : BitVec 5) (g : BitVec 4) (s : State) : Result :=
  scalar (.st o p k sz a d g) g s (storeFrom a d (2 ^ sz.toNat) k.toNat (fun t => effAddr t a o sz.toNat))

/-- The effective address of a compact form: G(a) + scale × imm3 (R48). -/
def compactAddr (t : Task) (a : BitVec 4) (i : BitVec 3) (scale : Nat) : Dword :=
  gGet t (cReg a) + BitVec.ofNat 64 (scale * i.toNat)

/-- C.LDW (R48, R82). -/
def execCLdw (i : BitVec 3) (a d : BitVec 4) (s : State) : Result :=
  scalar (.cLdw i a d) always s (loadTo (cReg a) (cReg d) 4 0 (fun t => compactAddr t a i 4))

/-- C.STW (R48, R82). -/
def execCStw (i : BitVec 3) (a d : BitVec 4) (s : State) : Result :=
  scalar (.cStw i a d) always s (storeFrom (cReg a) (cReg d) 4 0 (fun t => compactAddr t a i 4))

/-- C.LDD (R48, R82). -/
def execCLdd (i : BitVec 3) (a d : BitVec 4) (s : State) : Result :=
  scalar (.cLdd i a d) always s (loadTo (cReg a) (cReg d) 8 0 (fun t => compactAddr t a i 8))

/-- C.STD (R48, R82). -/
def execCStd (i : BitVec 3) (a d : BitVec 4) (s : State) : Result :=
  scalar (.cStd i a d) always s (storeFrom (cReg a) (cReg d) 8 0 (fun t => compactAddr t a i 8))

end Sys2Proof.Machine
end

