-- ==== Sys2Proof/Machine/Vector.lean ====
section
/-!
DEFINITION. Sys2Proof/Machine/Vector.lean: the instructions of the vector stream, majors 0x38 to 0x3F and the stream's BR and
LOOP (spec/10_vector_sequencer.md, R158 to R173).
-/

namespace Sys2Proof.Machine

/-! ### Lane arithmetic: VARITH and VLOGIC (R159, R160) -/

/-- An exact integer result in a type's element: wrapping in 32 bits, saturating in fewer (R156). -/
def intLane (width : Nat) (signed : Bool) (v : Int) : Nat :=
  if width = 32 then (BitVec.ofInt 32 v).toNat else (BitVec.ofInt width (clampInt width signed v).1).toNat

/-- The integer an element's pattern stands for. -/
def laneInt (width : Nat) (signed : Bool) (x : Nat) : Int :=
  if signed then (BitVec.ofNat width x).toInt else (BitVec.ofNat width x).toNat

/-- An element of a three-operand operation: its integer and its floating meaning. -/
def arith (e : Elem) (int : Int → Int → Int → Int) (flt : Fmt → Num → Num → Num → Nat) (a b d : Nat) : Nat :=
  match e with
  | .int w sg => intLane w sg (int (laneInt w sg a) (laneInt w sg b) (laneInt w sg d))
  | .flt f =>
    let m := 2 ^ fmtWidth f
    flt f (decodeFlt f (a % m)) (decodeFlt f (b % m)) (decodeFlt f (d % m))

/-- Elementwise over the enabled lanes of va, vb and vd. -/
def laneOp (t : BitVec 3) (vb va vd m : BitVec 4) (op : Elem → Nat → Nat → Nat → Nat) (s : State) : Result :=
  vector s (fun tile st => do
    let s ← get
    let e := laneElem st.fn t
    let k := perLane t
    let l := ((vGet s tile va).zip ((vGet s tile vb).zip (vGet s tile vd))).map (fun x =>
      joinSubs k (((subs k x.1).zip ((subs k x.2.1).zip (subs k x.2.2))).map (fun y => op e y.1 y.2.1 y.2.2)))
    set (writeLanes s tile vd (lanesOn s tile m) l)
    pure .seq)

/-- VADD: a + b. -/
def execVadd (t : BitVec 3) (b a d m : BitVec 4) (s : State) : Result :=
  laneOp t b a d m (fun e => arith e (fun a b _ => a + b) (fun f a b _ => (fltAdd f a b).bits)) s

/-- VSUB: a − b. -/
def execVsub (t : BitVec 3) (b a d m : BitVec 4) (s : State) : Result :=
  laneOp t b a d m (fun e => arith e (fun a b _ => a - b) (fun f a b _ => (fltSub f a b).bits)) s

/-- VMUL: a × b. -/
def execVmul (t : BitVec 3) (b a d m : BitVec 4) (s : State) : Result :=
  laneOp t b a d m (fun e => arith e (fun a b _ => a * b) (fun f a b _ => (fltMul f a b).bits)) s

/-- VFMA: a × b + d, one rounding. -/
def execVfma (t : BitVec 3) (b a d m : BitVec 4) (s : State) : Result :=
  laneOp t b a d m (fun e => arith e (fun a b d => a * b + d) (fun f a b d => (fltFma f false false a b d).bits)) s

/-- VFMS: a × b − d, one rounding. -/
def execVfms (t : BitVec 3) (b a d m : BitVec 4) (s : State) : Result :=
  laneOp t b a d m (fun e => arith e (fun a b d => a * b - d) (fun f a b d => (fltFma f true false a b d).bits)) s

/-- VMIN (R96). -/
def execVmin (t : BitVec 3) (b a d m : BitVec 4) (s : State) : Result :=
  laneOp t b a d m (fun e => arith e (fun a b _ => min a b) (fun f a b _ => exactPattern f (numMin a b))) s

/-- VMAX (R96). -/
def execVmax (t : BitVec 3) (b a d m : BitVec 4) (s : State) : Result :=
  laneOp t b a d m (fun e => arith e (fun a b _ => max a b) (fun f a b _ => exactPattern f (numMax a b))) s

/-- VABS: |a|. -/
def execVabs (t : BitVec 3) (a d m : BitVec 4) (s : State) : Result :=
  laneOp t a a d m (fun e => arith e (fun a _ _ => a.natAbs) (fun f a _ _ => exactPattern f (numAbs a))) s

/-- VNEG: −a. -/
def execVneg (t : BitVec 3) (a d m : BitVec 4) (s : State) : Result :=
  laneOp t a a d m (fun e => arith e (fun a _ _ => -a) (fun f a _ _ => exactPattern f (numNeg a))) s

/-- VMOV: lane bits copied. -/
def execVmov (t : BitVec 3) (a d m : BitVec 4) (s : State) : Result := laneOp t a a d m (fun _ a _ _ => a) s

/-- Bitwise and shift operations on elements of the type's width. -/
def logicOp (t : BitVec 3) (vb va vd m : BitVec 4) (op : (n : Nat) → BitVec n → BitVec n → BitVec n) (s : State) : Result :=
  laneOp t vb va vd m (fun e a b _ => (op (elemWidth e) (BitVec.ofNat _ a) (BitVec.ofNat _ b)).toNat) s

/-- VAND. -/
def execVand (t : BitVec 3) (b a d m : BitVec 4) (s : State) : Result :=
  logicOp t b a d m (fun _ a b => a &&& b) s

/-- VOR. -/
def execVor (t : BitVec 3) (b a d m : BitVec 4) (s : State) : Result :=
  logicOp t b a d m (fun _ a b => a ||| b) s

/-- VXOR. -/
def execVxor (t : BitVec 3) (b a d m : BitVec 4) (s : State) : Result :=
  logicOp t b a d m (fun _ a b => a ^^^ b) s

/-- VSHL, by the low bits of the matching element. -/
def execVshl (t : BitVec 3) (b a d m : BitVec 4) (s : State) : Result :=
  logicOp t b a d m (fun n a b => a <<< (b.toNat % n)) s

/-- VSHR, by the low bits of the matching element. -/
def execVshr (t : BitVec 3) (b a d m : BitVec 4) (s : State) : Result :=
  logicOp t b a d m (fun n a b => a >>> (b.toNat % n)) s

/-- VSRA, by the low bits of the matching element. -/
def execVsra (t : BitVec 3) (b a d m : BitVec 4) (s : State) : Result :=
  logicOp t b a d m (fun n a b => a.sshiftRight (b.toNat % n)) s

/-! ### Compares, selection and masks: VCMPS (R161, R162) -/

/-- The condition of VCMP on two lanes; integers are compared as numbers, which are never unordered. -/
def laneCond (c : FCond) (t : BitVec 3) (a b : Word) : Bool :=
  let num (w : Word) : Num :=
    match t.toNat with
    | 0 => f32Val w
    | 1 => numOfInt w.toInt
    | _ => numOfInt w.toNat
  fcondHolds c (num a) (num b)

/-- VCMP: bit i is set when lane i is enabled and the condition holds, and cleared otherwise. -/
def compareV (c : FCond) (t : BitVec 3) (b a : BitVec 4) (d : BitVec 3) (m : BitVec 4) (s : State) : Result :=
  vector s (fun tile _ => do
    let s ← get
    let bits := ((lanesOn s tile m).zip ((vGet s tile a).zip (vGet s tile b))).map (fun x =>
      x.1 && laneCond c t x.2.1 x.2.2)
    set (mSet s tile d (BitVec.ofNat 64 (bits.foldr (fun x acc => (if x then 1 else 0) + 2 * acc) 0)))
    pure .seq)

/-- VCMP.EQ. -/
def execVcmpEq (t : BitVec 3) (b a : BitVec 4) (d : BitVec 3) (m : BitVec 4) (s : State) : Result :=
  compareV .eq t b a d m s

/-- VCMP.NE. -/
def execVcmpNe (t : BitVec 3) (b a : BitVec 4) (d : BitVec 3) (m : BitVec 4) (s : State) : Result :=
  compareV .ne t b a d m s

/-- VCMP.LT. -/
def execVcmpLt (t : BitVec 3) (b a : BitVec 4) (d : BitVec 3) (m : BitVec 4) (s : State) : Result :=
  compareV .lt t b a d m s

/-- VCMP.LE. -/
def execVcmpLe (t : BitVec 3) (b a : BitVec 4) (d : BitVec 3) (m : BitVec 4) (s : State) : Result :=
  compareV .le t b a d m s

/-- VCMP.GT, its operands the other way round. -/
def execVcmpGt (t : BitVec 3) (b a : BitVec 4) (d : BitVec 3) (m : BitVec 4) (s : State) : Result :=
  compareV .lt t a b d m s

/-- VCMP.GE, its operands the other way round. -/
def execVcmpGe (t : BitVec 3) (b a : BitVec 4) (d : BitVec 3) (m : BitVec 4) (s : State) : Result :=
  compareV .le t a b d m s

/-- VCMP.UN. -/
def execVcmpUn (t : BitVec 3) (b a : BitVec 4) (d : BitVec 3) (m : BitVec 4) (s : State) : Result :=
  compareV .un t b a d m s

/-- VCMP.ORD. -/
def execVcmpOrd (t : BitVec 3) (b a : BitVec 4) (d : BitVec 3) (m : BitVec 4) (s : State) : Result :=
  compareV .ord t b a d m s

/-- VSEL: va where the selector enables the lane, vb elsewhere; every lane is written. -/
def execVsel (b a d x : BitVec 4) (s : State) : Result :=
  vector s (fun tile _ => do
    let s ← get
    set (vSet s tile d (((lanesOn s tile x).zip ((vGet s tile a).zip (vGet s tile b))).map (fun y =>
      if y.1 then y.2.1 else y.2.2)))
    pure .seq)

/-- A mask written whole. -/
def maskOp (d : BitVec 3) (f : State → Nat → BitVec 64) (s : State) : Result :=
  vector s (fun tile _ => do
    let s ← get
    set (mSet s tile d (f s tile))
    pure .seq)

/-- VMAND. -/
def execVmand (b a d : BitVec 3) (s : State) : Result := maskOp d (fun s t => mGet s t a &&& mGet s t b) s
/-- VMOR. -/
def execVmor (b a d : BitVec 3) (s : State) : Result := maskOp d (fun s t => mGet s t a ||| mGet s t b) s
/-- VMNOT. -/
def execVmnot (a d : BitVec 3) (s : State) : Result := maskOp d (fun s t => ~~~(mGet s t a)) s

/-! ### Memory: VMEM (R163, R164) -/

/-- What is wrong with a lane's address: the fault kind. -/
def laneAddrFault (s : State) (tile : Nat) (ctx : BitVec 11) (a : Int) : Option (BitVec 8) :=
  if a % 4 ≠ 0 then some 5
  else if 0 ≤ a ∧ a < 0x100000 then (if bankHeld s tile ctx a.toNat then none else some 2)
  else if 0x800000 ≤ a ∧ a < 0x1000000 then
    (if wayRole s tile ((a.toNat % 2 ^ 23) / 2 ^ 19) == 2 && wayHeld s tile ctx (a.toNat % 2 ^ 23) then none else some 1)
  else some 1

/-- Storage key of a lane's address that has passed the check. -/
def laneKey (tile : Nat) (a : Int) : Nat :=
  if a < 0x100000 then lmKey tile a.toNat else vaultKey tile (a.toNat % 2 ^ 23)

/-- The address of each lane: a base and a step of the lane's own. -/
def laneAddrs (s : State) (tile : Nat) (va : BitVec 4) (step : Nat → Int) : List Int :=
  (List.range 64).map (fun i => ((lane0 (vGet s tile va)).toNat : Int) + step i)

/-- VLD and VST step by words. -/
def unitStep (i : Nat) : Int := 4 * i
/-- VLDS and VSTS step by vb[0]. -/
def strideStep (s : State) (tile : Nat) (vb : BitVec 4) (i : Nat) : Int := i * (lane0 (vGet s tile vb)).toInt
/-- VGATH and VSCAT index by vb[i]. -/
def indexStep (s : State) (tile : Nat) (vb : BitVec 4) (i : Nat) : Int := 4 * ((vGet s tile vb).getD i 0).toInt

/-- The vault ways that the addresses of enabled lanes meet. -/
def laneWays (on : List Bool) (addrs : List Int) : BitVec 16 :=
  (on.zip addrs).foldl (fun (acc : BitVec 16) (x : Bool × Int) =>
    if x.1 && decide ((0x800000 : Int) ≤ x.2) then acc ||| (1#16 <<< (x.2.toNat % 2 ^ 23 / 2 ^ 19)) else acc) 0#16

/-- The check of every enabled lane, in lane order, before any access. A stream's first access to a way that a RESIZE is to
change waits for it, whatever the way's role still is (R184). -/
def checkLanes (tile : Nat) (st : Stream) (on : List Bool) (addrs : List Int) : VM Unit := do
  let s ← get
  if (on.zip addrs).any (fun x => x.1 && decide (0x800000 ≤ x.2) && decide (x.2 < 0x1000000) &&
      (let w := x.2.toNat % 2 ^ 23 / 2 ^ 19; resizing s tile w && !st.ways.getLsbD w)) then throw .resize
  let bad := ((on.zip addrs).filter (·.1)).findSome? (fun x => (laneAddrFault s tile st.ctx x.2).map (fun k => (k, x.2)))
  match bad with
  | some (k, a) => throw (.fault k (BitVec.ofInt 64 a))
  | none => do
    let ways := laneWays on addrs
    if ways &&& ~~~st.ways ≠ 0#16 then set (modStream s tile (fun x => { x with ways := x.ways ||| ways }))

/-- A vector load. A word in which an uncorrectable error has been found stops the stream as an engine's read of it stops a
command, with kind 2 (R338; DESIGN CHOICE, log 62). -/
def loadV (va vd m : BitVec 4) (step : State → Nat → Nat → Int) (s : State) : Result :=
  vector s (fun tile st => do
    let s ← get
    let on := lanesOn s tile m
    let addrs := laneAddrs s tile va (step s tile)
    checkLanes tile st on addrs
    let s ← get
    match (on.zip addrs).find? (fun x => x.1 && spoiltAt s (laneKey tile x.2) 4) with
    | some x => throw (.fault 2 (BitVec.ofInt 64 x.2))
    | none =>
      let l := (on.zip addrs).map (fun x => if x.1 then BitVec.ofNat 32 (storeGet s (laneKey tile x.2) 4) else 0)
      set (writeLanes s tile vd on l)
      pure .seq)

/-- A vector store: lanes in ascending order, so that the highest-numbered lane of a word writes it; full bits stay
(R150, R164). -/
def storeV (va vd m : BitVec 4) (step : State → Nat → Nat → Int) (s : State) : Result :=
  vector s (fun tile st => do
    let s ← get
    let on := lanesOn s tile m
    let addrs := laneAddrs s tile va (step s tile)
    checkLanes tile st on addrs
    let s ← get
    set ((on.zip (addrs.zip (vGet s tile vd))).foldl (fun s x =>
      if x.1 then storePut s (laneKey tile x.2.1) 4 x.2.2.toNat else s) s)
    pure .seq)

/-- VLD. -/
def execVld (a d m : BitVec 4) (s : State) : Result := loadV a d m (fun _ _ => unitStep) s
/-- VST. -/
def execVst (a d m : BitVec 4) (s : State) : Result := storeV a d m (fun _ _ => unitStep) s
/-- VLDS. -/
def execVlds (b a d m : BitVec 4) (s : State) : Result := loadV a d m (fun s t => strideStep s t b) s
/-- VSTS. -/
def execVsts (b a d m : BitVec 4) (s : State) : Result := storeV a d m (fun s t => strideStep s t b) s
/-- VGATH. -/
def execVgath (b a d m : BitVec 4) (s : State) : Result := loadV a d m (fun s t => indexStep s t b) s
/-- VSCAT. -/
def execVscat (b a d m : BitVec 4) (s : State) : Result := storeV a d m (fun s t => indexStep s t b) s

/-! ### Queues and the end of a stream: VQ (R165) -/

/-- VLDQ: lanes 0 and 1 from an entry. -/
def execVldq (q : BitVec 3) (d m : BitVec 4) (s : State) : Result :=
  vector s (fun tile _ => do
    let e ← popM tile q.toNat
    let s ← get
    let on := (lanesOn s tile m).take 2 ++ List.replicate 62 false
    set (writeLanes s tile d on ([e.extractLsb' 0 32, e.extractLsb' 32 32] ++ List.replicate 62 0))
    pure .seq)

/-- VSTQ: pushes va[1] << 32 | va[0], whatever the mask. -/
def execVstq (a : BitVec 4) (q : BitVec 3) (_m : BitVec 4) (s : State) : Result :=
  vector s (fun tile _ => do
    let l := vGet (← get) tile a
    pushM tile q.toNat (l.getD 1 0 ++ l.getD 0 0)
    pure .seq)

/-- VBCQ: every enabled lane from an entry. -/
def execVbcq (q : BitVec 3) (d m : BitVec 4) (s : State) : Result :=
  vector s (fun tile _ => do
    let e ← popM tile q.toNat
    let s ← get
    set (writeLanes s tile d (lanesOn s tile m) (List.replicate 64 (e.extractLsb' 0 32)))
    pure .seq)

/-- VEND: ends the stream; VEND n signals semaphore n, or stops the stream with kind 2 when it is not assigned. -/
def execVend (f : BitVec 1) (n : BitVec 4) (s : State) : Result :=
  vector s (fun tile st => do
    let s ← get
    if f = 1#1 then
      if granted s tile st.ctx grantSems n.toNat then set (semInc s tile n.toNat)
      else throw (.fault 2 (n.setWidth 64))
    pure .ended)

/-! ### Reductions and permutations: VRED (R166, R167) -/

/-- An operation of Table 8: 0 add, 1 min, 2 max, 3 and, 4 or, 5 xor, on lanes of a type. -/
def redOp (op : Nat) (t : BitVec 3) (a b : Word) : Word :=
  match op with
  | 0 => if t = 0#3 then roundF32 (numAdd (f32Val a) (f32Val b)) else a + b
  | 1 =>
    if t = 0#3 then BitVec.ofNat 32 (exactPattern f32 (numMin (f32Val a) (f32Val b)))
    else if t = 1#3 then (if a.slt b then a else b) else (if a.ult b then a else b)
  | 2 =>
    if t = 0#3 then BitVec.ofNat 32 (exactPattern f32 (numMax (f32Val a) (f32Val b)))
    else if t = 1#3 then (if b.slt a then a else b) else (if b.ult a then a else b)
  | 3 => a &&& b
  | 4 => a ||| b
  | _ => a ^^^ b

/-- The identities of Table 8. -/
def redUnit (op : Nat) (t : BitVec 3) : Word :=
  match op with
  | 1 => if t = 0#3 then 0x7F800000 else if t = 1#3 then 0x7FFFFFFF else 0xFFFFFFFF
  | 2 => if t = 0#3 then 0xFF800000 else if t = 1#3 then 0x80000000 else 0
  | 3 => 0xFFFFFFFF
  | _ => 0

/-- One level of the tree of R44. -/
def pairUp (f : Word → Word → Word) : List Word → List Word
  | a :: b :: r => f a b :: pairUp f r
  | l => l

/-- VRED: the pairwise tree over 64 lanes into lane 0, which is written whatever the mask. -/
def reduce (op : Nat) (t : BitVec 3) (a d m : BitVec 4) (s : State) : Result :=
  vector s (fun tile _ => do
    let s ← get
    let l := ((lanesOn s tile m).zip (vGet s tile a)).map (fun x => if x.1 then x.2 else redUnit op t)
    let p := pairUp (redOp op t)
    let r := p (p (p (p (p (p l)))))
    set (vSet s tile d (lane0 r :: (vGet s tile d).drop 1))
    pure .seq)

/-- The running values of a scan over the enabled lanes; none for a lane that is not. -/
def scanLanes (f : Word → Word → Word) : Word → List (Bool × Word) → List (Option Word)
  | _, [] => []
  | acc, (on, x) :: r => if on then some (f acc x) :: scanLanes f (f acc x) r else none :: scanLanes f acc r

/-- VSCAN: an inclusive scan in lane order. -/
def scan (op : Nat) (t : BitVec 3) (a d m : BitVec 4) (s : State) : Result :=
  vector s (fun tile _ => do
    let s ← get
    let r := scanLanes (redOp op t) (redUnit op t) ((lanesOn s tile m).zip (vGet s tile a))
    set (vSet s tile d ((r.zip (vGet s tile d)).map (fun x => x.1.getD x.2)))
    pure .seq)

/-- VRED.ADD. -/
def execVredAdd (t : BitVec 3) (a d m : BitVec 4) (s : State) : Result := reduce 0 t a d m s
/-- VSCAN.ADD. -/
def execVscanAdd (t : BitVec 3) (a d m : BitVec 4) (s : State) : Result := scan 0 t a d m s

/-- VRED.MIN. -/
def execVredMin (t : BitVec 3) (a d m : BitVec 4) (s : State) : Result := reduce 1 t a d m s
/-- VSCAN.MIN. -/
def execVscanMin (t : BitVec 3) (a d m : BitVec 4) (s : State) : Result := scan 1 t a d m s

/-- VRED.MAX. -/
def execVredMax (t : BitVec 3) (a d m : BitVec 4) (s : State) : Result := reduce 2 t a d m s
/-- VSCAN.MAX. -/
def execVscanMax (t : BitVec 3) (a d m : BitVec 4) (s : State) : Result := scan 2 t a d m s

/-- VRED.AND. -/
def execVredAnd (t : BitVec 3) (a d m : BitVec 4) (s : State) : Result := reduce 3 t a d m s
/-- VSCAN.AND. -/
def execVscanAnd (t : BitVec 3) (a d m : BitVec 4) (s : State) : Result := scan 3 t a d m s

/-- VRED.OR. -/
def execVredOr (t : BitVec 3) (a d m : BitVec 4) (s : State) : Result := reduce 4 t a d m s
/-- VSCAN.OR. -/
def execVscanOr (t : BitVec 3) (a d m : BitVec 4) (s : State) : Result := scan 4 t a d m s

/-- VRED.XOR. -/
def execVredXor (t : BitVec 3) (a d m : BitVec 4) (s : State) : Result := reduce 5 t a d m s
/-- VSCAN.XOR. -/
def execVscanXor (t : BitVec 3) (a d m : BitVec 4) (s : State) : Result := scan 5 t a d m s

/-- VPERM: vd[i] := va[vb[i][5:0]]. -/
def execVperm (b a d m : BitVec 4) (s : State) : Result :=
  vector s (fun tile _ => do
    let s ← get
    let src := vGet s tile a
    set (writeLanes s tile d (lanesOn s tile m) ((vGet s tile b).map (fun x => src.getD (x.toNat % 64) 0)))
    pure .seq)

/-- VBCAST: va[0] into every enabled lane. -/
def execVbcast (a d m : BitVec 4) (s : State) : Result :=
  vector s (fun tile _ => do
    let s ← get
    set (writeLanes s tile d (lanesOn s tile m) (List.replicate 64 (lane0 (vGet s tile a))))
    pure .seq)

/-! ### Conversion, stochastic rounding and thresholds: VCVT (R168 to R171) -/

/-- Elements of a register, in order. -/
def elemsOf (k : Nat) (l : List Word) : List Nat := l.flatMap (subs k)

/-- Lanes out of result elements, k to a lane; lanes past the last element keep what they hold. -/
def placeElems (k : Nat) : List Word → List Nat → List Word
  | [], _ => []
  | old :: r, xs => if xs.length < k then old :: placeElems k r [] else joinSubs k (xs.take k) :: placeElems k r (xs.drop k)

/-- VCVT, from the type field's type t to type x: each element converts as FCVT does (R99, R100, R169). -/
def execVcvt (r t x : BitVec 3) (a d m : BitVec 4) (s : State) : Result :=
  vector s (fun tile st => do
    let s ← get
    let es := laneElem st.fn t
    let ed := laneElem st.fn x
    let n := 64 * min (perLane t) (perLane x)
    let src := (elemsOf (perLane t) (vGet s tile a)).take n
    let res := src.map (fun y => (elemRound ed (modeOf r.toNat) false (elemVal es (y % 2 ^ elemWidth es))).bits)
    let on := (lanesOn s tile m).take (n / perLane x) ++ List.replicate (64 - n / perLane x) false
    set (writeLanes s tile d on (placeElems (perLane x) (vGet s tile d) res))
    pure .seq)

/-- The target of VRND: B16, F16, FN or FN with SAT (R170). -/
def rndTarget (fn : BitVec 17) (x : BitVec 2) : Fmt × Bool :=
  match x.toNat with
  | 0 => (b16, false)
  | 1 => (f16, false)
  | 2 => (fnFmt fn, false)
  | _ => (fnFmt fn, true)

/-- Rounds elements in order, drawing k bits for each whose lane is enabled. -/
def rndElems (f : Fmt) (sat : Bool) (k : Nat) : List (Bool × Word) → VM (List Nat)
  | [] => pure []
  | (on, x) :: r => do
    if on then
      let (bits, s) := drawBits (← get)
      set s
      let y := (roundTo f (.sr k (bits.toNat % 2 ^ k)) sat (f32Val x)).bits
      return y :: (← rndElems f sat k r)
    else return 0 :: (← rndElems f sat k r)

/-- VRND: SR(k) of F32 elements (R39, R170). -/
def execVrnd (k : BitVec 4) (x : BitVec 2) (a d m : BitVec 4) (s : State) : Result :=
  vector s (fun tile st => do
    let s ← get
    let (f, sat) := rndTarget st.fn x
    let per := if x.toNat < 2 then 2 else 4
    let lanes := lanesOn s tile m
    let on := (List.range 64).map (fun j => lanes.getD (j / per) false)
    let res ← rndElems f sat (k.toNat + 1) (on.zip (vGet s tile a))
    let s ← get
    set (writeLanes s tile d (lanes.take (64 / per) ++ List.replicate (64 - 64 / per) false)
      (placeElems per (vGet s tile d) res))
    pure .seq)

/-- VTHRESH over elements in order: the elements written, and the drop accumulator. -/
def threshElems (e : Elem) (t : Int) : List (Bool × Nat) → Word → List Nat × Word
  | [], acc => ([], acc)
  | (on, x) :: r, acc =>
    let v := elemVal e (x % 2 ^ elemWidth e)
    if on && numBelow v t then
      let (l, acc) := threshElems e t r (roundF32 (numAdd (f32Val acc) (numAbs v)))
      (0 :: l, acc)
    else
      let (l, acc) := threshElems e t r acc
      (x % 2 ^ elemWidth e :: l, acc)

/-- VTHRESH (R171). -/
def execVthresh (t : BitVec 3) (b a d m : BitVec 4) (s : State) : Result :=
  vector s (fun tile st => do
    let s ← get
    let k := perLane t
    let lanes := lanesOn s tile m
    let vb := vGet s tile b
    let on := lanes.flatMap (fun x => List.replicate k x)
    let (l, acc) := threshElems (laneElem st.fn t) (lane0 vb).toInt (on.zip (elemsOf k (vGet s tile a))) (vb.getD 1 0)
    let s := writeLanes s tile d lanes (placeElems k (vGet s tile d) l)
    set (vSet s tile b (lane0 vb :: acc :: vb.drop 2))
    pure .seq)

/-! ### Transcendental approximations: VMATH (R172) -/

/-- A function of each enabled F32 lane, rounded once. -/
def mathOp (f : Num → Num) (a d m : BitVec 4) (s : State) : Result :=
  vector s (fun tile _ => do
    let s ← get
    set (writeLanes s tile d (lanesOn s tile m) ((vGet s tile a).map (fun x => roundF32 (f (f32Val x)))))
    pure .seq)

/-- VEXP: 2^x. -/
def execVexp (a d m : BitVec 4) (s : State) : Result := mathOp numExp2 a d m s
/-- VLOG: log2 x. -/
def execVlog (a d m : BitVec 4) (s : State) : Result := mathOp numLogTwo a d m s
/-- VRCP: 1 / x. -/
def execVrcp (a d m : BitVec 4) (s : State) : Result := mathOp numRecip a d m s
/-- VRSQ: 1 / √x. -/
def execVrsq (a d m : BitVec 4) (s : State) : Result := mathOp numRsqrt a d m s

/-! ### Control flow in a stream (R158) -/

/-- BR of a stream: taken when at least one lane is enabled. -/
def execStreamBr (d : BitVec 21) (m : BitVec 4) (s : State) : Result :=
  vector s (fun tile st => do
    if (lanesOn (← get) tile m).any id then pure (.jump (st.pc.setWidth 64 + (d.signExtend 64 <<< 1)))
    else pure .seq)

/-- LOOP of a stream: the count is a pop of the queue; one whose guard enables no lane pops nothing. -/
def execStreamLoop (i : BitVec 11) (q : BitVec 3) (m : BitVec 4) (s : State) : Result :=
  vector s (fun tile _ => do
    if (lanesOn (← get) tile m).any id then
      let n ← popM tile q.toNat
      pure (.loop n i)
    else pure .seq)

/-- QUEUE_WAIT_TIMEOUT: a stream that has waited 2^20 cycles on one unchanged queue stops with kind 9 (R152, R173). -/
def execQueueWaitTimeout (tile : Nat) (s : State) : Result :=
  match (tileAt s tile).stream with
  | none => .next s
  | some st =>
    if st.waiting.isSome && decide (2 ^ 20 ≤ st.qwait) then
      .next (stopUntied s tile st 9 (streamWord s tile st))
    else .next s

end Sys2Proof.Machine
end

