-- ==== Sys2Proof/Machine/Dispatch.lean ====
section
/-!
DEFINITION. Sys2Proof/Machine/Dispatch.lean: the meaning of every constructor of Instr.
-/

namespace Sys2Proof.Machine

/-- The effect of an instruction, or of a step of the device. -/
def exec (i : Instr) (s : State) : Host.Outcome State Fault Refusal :=
  match i with
  | .add w b a d g => Sys2Proof.Machine.execAdd w b a d g s
  | .sub w b a d g => Sys2Proof.Machine.execSub w b a d g s
  | .mul w b a d g => Sys2Proof.Machine.execMul w b a d g s
  | .mulh w b a d g => Sys2Proof.Machine.execMulh w b a d g s
  | .mulhn w b a d g => Sys2Proof.Machine.execMulhn w b a d g s
  | .div w b a d g => Sys2Proof.Machine.execDiv w b a d g s
  | .divn w b a d g => Sys2Proof.Machine.execDivn w b a d g s
  | .rem w b a d g => Sys2Proof.Machine.execRem w b a d g s
  | .remn w b a d g => Sys2Proof.Machine.execRemn w b a d g s
  | .and b a d g => Sys2Proof.Machine.execAnd b a d g s
  | .or b a d g => Sys2Proof.Machine.execOr b a d g s
  | .xor b a d g => Sys2Proof.Machine.execXor b a d g s
  | .andn b a d g => Sys2Proof.Machine.execAndn b a d g s
  | .shl w b a d g => Sys2Proof.Machine.execShl w b a d g s
  | .shr w b a d g => Sys2Proof.Machine.execShr w b a d g s
  | .sra w b a d g => Sys2Proof.Machine.execSra w b a d g s
  | .rot w b a d g => Sys2Proof.Machine.execRot w b a d g s
  | .min b a d g => Sys2Proof.Machine.execMin b a d g s
  | .max b a d g => Sys2Proof.Machine.execMax b a d g s
  | .minn b a d g => Sys2Proof.Machine.execMinn b a d g s
  | .maxn b a d g => Sys2Proof.Machine.execMaxn b a d g s
  | .sel b a d sh => Sys2Proof.Machine.execSel b a d sh s
  | .addi im a d g => Sys2Proof.Machine.execAddi im a d g s
  | .andi im a d g => Sys2Proof.Machine.execAndi im a d g s
  | .ori im a d g => Sys2Proof.Machine.execOri im a d g s
  | .xori im a d g => Sys2Proof.Machine.execXori im a d g s
  | .shli w sh a d g => Sys2Proof.Machine.execShli w sh a d g s
  | .shri w sh a d g => Sys2Proof.Machine.execShri w sh a d g s
  | .srai w sh a d g => Sys2Proof.Machine.execSrai w sh a d g s
  | .roti w sh a d g => Sys2Proof.Machine.execRoti w sh a d g s
  | .movi im d g => Sys2Proof.Machine.execMovi im d g s
  | .movs im d g => Sys2Proof.Machine.execMovs im d g s
  | .abs a d g => Sys2Proof.Machine.execAbs a d g s
  | .neg a d g => Sys2Proof.Machine.execNeg a d g s
  | .not a d g => Sys2Proof.Machine.execNot a d g s
  | .clz a d g => Sys2Proof.Machine.execClz a d g s
  | .ctz a d g => Sys2Proof.Machine.execCtz a d g s
  | .popc a d g => Sys2Proof.Machine.execPopc a d g s
  | .sxb a d g => Sys2Proof.Machine.execSxb a d g s
  | .sxh a d g => Sys2Proof.Machine.execSxh a d g s
  | .sxw a d g => Sys2Proof.Machine.execSxw a d g s
  | .zxb a d g => Sys2Proof.Machine.execZxb a d g s
  | .zxh a d g => Sys2Proof.Machine.execZxh a d g s
  | .zxw a d g => Sys2Proof.Machine.execZxw a d g s
  | .bswap a d g => Sys2Proof.Machine.execBswap a d g s
  | .bfx l p a d g => Sys2Proof.Machine.execBfx l p a d g s
  | .bfi l p a d g => Sys2Proof.Machine.execBfi l p a d g s
  | .cmpEq w b a o d g => Sys2Proof.Machine.execCmpEq w b a o d g s
  | .cmpNe w b a o d g => Sys2Proof.Machine.execCmpNe w b a o d g s
  | .cmpLt w b a o d g => Sys2Proof.Machine.execCmpLt w b a o d g s
  | .cmpLe w b a o d g => Sys2Proof.Machine.execCmpLe w b a o d g s
  | .cmpGt w b a o d g => Sys2Proof.Machine.execCmpGt w b a o d g s
  | .cmpGe w b a o d g => Sys2Proof.Machine.execCmpGe w b a o d g s
  | .cmpLtn w b a o d g => Sys2Proof.Machine.execCmpLtn w b a o d g s
  | .cmpLen w b a o d g => Sys2Proof.Machine.execCmpLen w b a o d g s
  | .cmpGtn w b a o d g => Sys2Proof.Machine.execCmpGtn w b a o d g s
  | .cmpGen w b a o d g => Sys2Proof.Machine.execCmpGen w b a o d g s
  | .cmpiEq w im a o d g => Sys2Proof.Machine.execCmpiEq w im a o d g s
  | .cmpiNe w im a o d g => Sys2Proof.Machine.execCmpiNe w im a o d g s
  | .cmpiLt w im a o d g => Sys2Proof.Machine.execCmpiLt w im a o d g s
  | .cmpiLe w im a o d g => Sys2Proof.Machine.execCmpiLe w im a o d g s
  | .cmpiGt w im a o d g => Sys2Proof.Machine.execCmpiGt w im a o d g s
  | .cmpiGe w im a o d g => Sys2Proof.Machine.execCmpiGe w im a o d g s
  | .cmpiLtn w im a o d g => Sys2Proof.Machine.execCmpiLtn w im a o d g s
  | .cmpiLen w im a o d g => Sys2Proof.Machine.execCmpiLen w im a o d g s
  | .cmpiGtn w im a o d g => Sys2Proof.Machine.execCmpiGtn w im a o d g s
  | .cmpiGen w im a o d g => Sys2Proof.Machine.execCmpiGen w im a o d g s
  | .pand b a d g => Sys2Proof.Machine.execPand b a d g s
  | .por b a d g => Sys2Proof.Machine.execPor b a d g s
  | .pxor b a d g => Sys2Proof.Machine.execPxor b a d g s
  | .pandn b a d g => Sys2Proof.Machine.execPandn b a d g s
  | .pnot a d g => Sys2Proof.Machine.execPnot a d g s
  | .pmov a d g => Sys2Proof.Machine.execPmov a d g s
  | .ppack d g => Sys2Proof.Machine.execPpack d g s
  | .punpk a g => Sys2Proof.Machine.execPunpk a g s
  | .lea w sh b a d g => Sys2Proof.Machine.execLea w sh b a d g s
  | .fadd b a d g => Sys2Proof.Machine.execFadd b a d g s
  | .fsub b a d g => Sys2Proof.Machine.execFsub b a d g s
  | .fmul b a d g => Sys2Proof.Machine.execFmul b a d g s
  | .fdiv b a d g => Sys2Proof.Machine.execFdiv b a d g s
  | .fsqrt a d g => Sys2Proof.Machine.execFsqrt a d g s
  | .fmin b a d g => Sys2Proof.Machine.execFmin b a d g s
  | .fmax b a d g => Sys2Proof.Machine.execFmax b a d g s
  | .fabs a d g => Sys2Proof.Machine.execFabs a d g s
  | .fneg a d g => Sys2Proof.Machine.execFneg a d g s
  | .fmov a d g => Sys2Proof.Machine.execFmov a d g s
  | .fclass a d g => Sys2Proof.Machine.execFclass a d g s
  | .fmvg a d g => Sys2Proof.Machine.execFmvg a d g s
  | .fmvf a d g => Sys2Proof.Machine.execFmvf a d g s
  | .fma c b a d g => Sys2Proof.Machine.execFma c b a d g s
  | .fms c b a d g => Sys2Proof.Machine.execFms c b a d g s
  | .fnma c b a d g => Sys2Proof.Machine.execFnma c b a d g s
  | .fnms c b a d g => Sys2Proof.Machine.execFnms c b a d g s
  | .fcvt sh t r a d g => Sys2Proof.Machine.execFcvt sh t r a d g s
  | .frnd t k a d g => Sys2Proof.Machine.execFrnd t k a d g s
  | .fcmpEq b a o d g => Sys2Proof.Machine.execFcmpEq b a o d g s
  | .fcmpNe b a o d g => Sys2Proof.Machine.execFcmpNe b a o d g s
  | .fcmpLt b a o d g => Sys2Proof.Machine.execFcmpLt b a o d g s
  | .fcmpLe b a o d g => Sys2Proof.Machine.execFcmpLe b a o d g s
  | .fcmpUn b a o d g => Sys2Proof.Machine.execFcmpUn b a o d g s
  | .fcmpOrd b a o d g => Sys2Proof.Machine.execFcmpOrd b a o d g s
  | .ld o p k sh a d g => Sys2Proof.Machine.execLd o p k sh a d g s
  | .st o p k sh a d g => Sys2Proof.Machine.execSt o p k sh a d g s
  | .ldf o p sh a d g => Sys2Proof.Machine.execLdf o p sh a d g s
  | .ldfE o p sh a d g => Sys2Proof.Machine.execLdfE o p sh a d g s
  | .setf a g => Sys2Proof.Machine.execSetf a g s
  | .sete a g => Sys2Proof.Machine.execSete a g s
  | .testf a d g => Sys2Proof.Machine.execTestf a d g s
  | .amoAdd p sh b a d g => Sys2Proof.Machine.execAmoAdd p sh b a d g s
  | .amoAnd p sh b a d g => Sys2Proof.Machine.execAmoAnd p sh b a d g s
  | .amoOr p sh b a d g => Sys2Proof.Machine.execAmoOr p sh b a d g s
  | .amoXor p sh b a d g => Sys2Proof.Machine.execAmoXor p sh b a d g s
  | .amoMin p sh b a d g => Sys2Proof.Machine.execAmoMin p sh b a d g s
  | .amoMax p sh b a d g => Sys2Proof.Machine.execAmoMax p sh b a d g s
  | .amoMinn p sh b a d g => Sys2Proof.Machine.execAmoMinn p sh b a d g s
  | .amoMaxn p sh b a d g => Sys2Proof.Machine.execAmoMaxn p sh b a d g s
  | .amoXchg p sh b a d g => Sys2Proof.Machine.execAmoXchg p sh b a d g s
  | .amoFadd p b a d g => Sys2Proof.Machine.execAmoFadd p b a d g s
  | .amoFmin p b a d g => Sys2Proof.Machine.execAmoFmin p b a d g s
  | .amoFmax p b a d g => Sys2Proof.Machine.execAmoFmax p b a d g s
  | .cas sh b a d g => Sys2Proof.Machine.execCas sh b a d g s
  | .ldc im sh b a d g => Sys2Proof.Machine.execLdc im sh b a d g s
  | .stc im sh b a d g => Sys2Proof.Machine.execStc im sh b a d g s
  | .amocAdd w b a d g => Sys2Proof.Machine.execAmocAdd w b a d g s
  | .amocFadd w b a d g => Sys2Proof.Machine.execAmocFadd w b a d g s
  | .amocMin w b a d g => Sys2Proof.Machine.execAmocMin w b a d g s
  | .amocMax w b a d g => Sys2Proof.Machine.execAmocMax w b a d g s
  | .amocFmax w b a d g => Sys2Proof.Machine.execAmocFmax w b a d g s
  | .amocXchg w b a d g => Sys2Proof.Machine.execAmocXchg w b a d g s
  | .fenceA sh g => Sys2Proof.Machine.execFenceA sh g s
  | .fenceL sh g => Sys2Proof.Machine.execFenceL sh g s
  | .fenceAl sh g => Sys2Proof.Machine.execFenceAl sh g s
  | .invr b a g => Sys2Proof.Machine.execInvr b a g s
  | .pubr b a g => Sys2Proof.Machine.execPubr b a g s
  | .isync g => Sys2Proof.Machine.execIsync g s
  | .pref a g => Sys2Proof.Machine.execPref a g s
  | .clbinv a g => Sys2Proof.Machine.execClbinv a g s
  | .br d g => Sys2Proof.Machine.execBr d g s
  | .jal d g => Sys2Proof.Machine.execJal d g s
  | .jalr im a d g => Sys2Proof.Machine.execJalr im a d g s
  | .loop im a g => Sys2Proof.Machine.execLoop im a g s
  | .send c r n b a g => Sys2Proof.Machine.execSend c r n b a g s
  | .sendx n b a g => Sys2Proof.Machine.execSendx n b a g s
  | .spawn b a d g => Sys2Proof.Machine.execSpawn b a d g s
  | .trec b a d g => Sys2Proof.Machine.execTrec b a d g s
  | .dec a g => Sys2Proof.Machine.execDec a g s
  | .decL a g => Sys2Proof.Machine.execDecL a g s
  | .tarm b a g => Sys2Proof.Machine.execTarm b a g s
  | .tend g => Sys2Proof.Machine.execTend g s
  | .elect a d g => Sys2Proof.Machine.execElect a d g s
  | .tinfo a d g => Sys2Proof.Machine.execTinfo a d g s
  | .phdecl a g => Sys2Proof.Machine.execPhdecl a g s
  | .phstat a d g => Sys2Proof.Machine.execPhstat a d g s
  | .cancelLaunch a g => Sys2Proof.Machine.execCancelLaunch a g s
  | .cancelGraph a g => Sys2Proof.Machine.execCancelGraph a g s
  | .cancelPhase a g => Sys2Proof.Machine.execCancelPhase a g s
  | .cancelJob a g => Sys2Proof.Machine.execCancelJob a g s
  | .qtest q d g => Sys2Proof.Machine.execQtest q d g s
  | .qclose q g => Sys2Proof.Machine.execQclose q g s
  | .qbind b q g => Sys2Proof.Machine.execQbind b q g s
  | .semp sh g => Sys2Proof.Machine.execSemp sh g s
  | .sempServe tile sem => Sys2Proof.Machine.execSempServe tile sem s
  | .semv sh g => Sys2Proof.Machine.execSemv sh g s
  | .vgo a g => Sys2Proof.Machine.execVgo a g s
  | .tmset a t g => Sys2Proof.Machine.execTmset a t g s
  | .tmget a t g => Sys2Proof.Machine.execTmget a t g s
  | .tmofs a t g => Sys2Proof.Machine.execTmofs a t g s
  | .copy q a d g => Sys2Proof.Machine.execCopy q a d g s
  | .gath q b a d g => Sys2Proof.Machine.execGath q b a d g s
  | .scat q b a d g => Sys2Proof.Machine.execScat q b a d g s
  | .scatAdd q b a d g => Sys2Proof.Machine.execScatAdd q b a d g s
  | .kagg q b a d g => Sys2Proof.Machine.execKagg q b a d g s
  | .kaggO q b a d g => Sys2Proof.Machine.execKaggO q b a d g s
  | .kbcast q b a d g => Sys2Proof.Machine.execKbcast q b a d g s
  | .kisect q b a d g => Sys2Proof.Machine.execKisect q b a d g s
  | .kfold q b d g => Sys2Proof.Machine.execKfold q b d g s
  | .kdirty q a d g => Sys2Proof.Machine.execKdirty q a d g s
  | .convt h m q a d g => Sys2Proof.Machine.execConvt h m q a d g s
  | .compress p q b a d g => Sys2Proof.Machine.execCompress p q b a d g s
  | .mma u k j z q b a g => Sys2Proof.Machine.execMma u k j z q b a g s
  | .mmas u k j z q b a d g => Sys2Proof.Machine.execMmas u k j z q b a d g s
  | .mzero z q g => Sys2Proof.Machine.execMzero z q g s
  | .mldacc z q a g => Sys2Proof.Machine.execMldacc z q a g s
  | .mstacc z q d g => Sys2Proof.Machine.execMstacc z q d g s
  | .bfpa q b a d g => Sys2Proof.Machine.execBfpa q b a d g s
  | .resize a g => Sys2Proof.Machine.execResize a g s
  | .volalloc a d g => Sys2Proof.Machine.execVolalloc a d g s
  | .volfree b a g => Sys2Proof.Machine.execVolfree b a g s
  | .stash b a g => Sys2Proof.Machine.execStash b a g s
  | .unstash a d g => Sys2Proof.Machine.execUnstash a d g s
  | .flq b a g => Sys2Proof.Machine.execFlq b a g s
  | .trap a g => Sys2Proof.Machine.execTrap a g s
  | .tret g => Sys2Proof.Machine.execTret g s
  | .ctxkill a g => Sys2Proof.Machine.execCtxkill a g s
  | .csrr c d g => Sys2Proof.Machine.execCsrr c d g s
  | .csrw c a g => Sys2Proof.Machine.execCsrw c a g s
  | .csrx c a d g => Sys2Proof.Machine.execCsrx c a d g s
  | .cIll x => Sys2Proof.Machine.execCIll x s
  | .cNop => Sys2Proof.Machine.execCNop s
  | .cMov a d => Sys2Proof.Machine.execCMov a d s
  | .cAdd a d => Sys2Proof.Machine.execCAdd a d s
  | .cSub a d => Sys2Proof.Machine.execCSub a d s
  | .cAddi im d => Sys2Proof.Machine.execCAddi im d s
  | .cShli sh d => Sys2Proof.Machine.execCShli sh d s
  | .cLdw im a d => Sys2Proof.Machine.execCLdw im a d s
  | .cStw im a d => Sys2Proof.Machine.execCStw im a d s
  | .cLdd im a d => Sys2Proof.Machine.execCLdd im a d s
  | .cStd im a d => Sys2Proof.Machine.execCStd im a d s
  | .cBr im => Sys2Proof.Machine.execCBr im s
  | .cBnz im d => Sys2Proof.Machine.execCBnz im d s
  | .cCall a => Sys2Proof.Machine.execCCall a s
  | .cRet => Sys2Proof.Machine.execCRet s
  | .cTend => Sys2Proof.Machine.execCTend s
  | .vadd t b a d m => Sys2Proof.Machine.execVadd t b a d m s
  | .vsub t b a d m => Sys2Proof.Machine.execVsub t b a d m s
  | .vmul t b a d m => Sys2Proof.Machine.execVmul t b a d m s
  | .vfma t b a d m => Sys2Proof.Machine.execVfma t b a d m s
  | .vfms t b a d m => Sys2Proof.Machine.execVfms t b a d m s
  | .vmin t b a d m => Sys2Proof.Machine.execVmin t b a d m s
  | .vmax t b a d m => Sys2Proof.Machine.execVmax t b a d m s
  | .vabs t a d m => Sys2Proof.Machine.execVabs t a d m s
  | .vneg t a d m => Sys2Proof.Machine.execVneg t a d m s
  | .vmov t a d m => Sys2Proof.Machine.execVmov t a d m s
  | .vand t b a d m => Sys2Proof.Machine.execVand t b a d m s
  | .vor t b a d m => Sys2Proof.Machine.execVor t b a d m s
  | .vxor t b a d m => Sys2Proof.Machine.execVxor t b a d m s
  | .vshl t b a d m => Sys2Proof.Machine.execVshl t b a d m s
  | .vshr t b a d m => Sys2Proof.Machine.execVshr t b a d m s
  | .vsra t b a d m => Sys2Proof.Machine.execVsra t b a d m s
  | .vcmpEq t b a d m => Sys2Proof.Machine.execVcmpEq t b a d m s
  | .vcmpNe t b a d m => Sys2Proof.Machine.execVcmpNe t b a d m s
  | .vcmpLt t b a d m => Sys2Proof.Machine.execVcmpLt t b a d m s
  | .vcmpLe t b a d m => Sys2Proof.Machine.execVcmpLe t b a d m s
  | .vcmpGt t b a d m => Sys2Proof.Machine.execVcmpGt t b a d m s
  | .vcmpGe t b a d m => Sys2Proof.Machine.execVcmpGe t b a d m s
  | .vcmpUn t b a d m => Sys2Proof.Machine.execVcmpUn t b a d m s
  | .vcmpOrd t b a d m => Sys2Proof.Machine.execVcmpOrd t b a d m s
  | .vsel b a d sh => Sys2Proof.Machine.execVsel b a d sh s
  | .vmand b a d => Sys2Proof.Machine.execVmand b a d s
  | .vmor b a d => Sys2Proof.Machine.execVmor b a d s
  | .vmnot a d => Sys2Proof.Machine.execVmnot a d s
  | .vld a d m => Sys2Proof.Machine.execVld a d m s
  | .vst a d m => Sys2Proof.Machine.execVst a d m s
  | .vlds b a d m => Sys2Proof.Machine.execVlds b a d m s
  | .vsts b a d m => Sys2Proof.Machine.execVsts b a d m s
  | .vgath b a d m => Sys2Proof.Machine.execVgath b a d m s
  | .vscat b a d m => Sys2Proof.Machine.execVscat b a d m s
  | .vldq q d m => Sys2Proof.Machine.execVldq q d m s
  | .vstq a q m => Sys2Proof.Machine.execVstq a q m s
  | .vbcq q d m => Sys2Proof.Machine.execVbcq q d m s
  | .vend f sh => Sys2Proof.Machine.execVend f sh s
  | .vredAdd t a d m => Sys2Proof.Machine.execVredAdd t a d m s
  | .vredMin t a d m => Sys2Proof.Machine.execVredMin t a d m s
  | .vredMax t a d m => Sys2Proof.Machine.execVredMax t a d m s
  | .vredAnd t a d m => Sys2Proof.Machine.execVredAnd t a d m s
  | .vredOr t a d m => Sys2Proof.Machine.execVredOr t a d m s
  | .vredXor t a d m => Sys2Proof.Machine.execVredXor t a d m s
  | .vscanAdd t a d m => Sys2Proof.Machine.execVscanAdd t a d m s
  | .vscanMin t a d m => Sys2Proof.Machine.execVscanMin t a d m s
  | .vscanMax t a d m => Sys2Proof.Machine.execVscanMax t a d m s
  | .vscanAnd t a d m => Sys2Proof.Machine.execVscanAnd t a d m s
  | .vscanOr t a d m => Sys2Proof.Machine.execVscanOr t a d m s
  | .vscanXor t a d m => Sys2Proof.Machine.execVscanXor t a d m s
  | .vperm b a d m => Sys2Proof.Machine.execVperm b a d m s
  | .vbcast a d m => Sys2Proof.Machine.execVbcast a d m s
  | .vcvt r t sh a d m => Sys2Proof.Machine.execVcvt r t sh a d m s
  | .vrnd k x a d m => Sys2Proof.Machine.execVrnd k x a d m s
  | .vthresh t b a d m => Sys2Proof.Machine.execVthresh t b a d m s
  | .vexp a d m => Sys2Proof.Machine.execVexp a d m s
  | .vlog a d m => Sys2Proof.Machine.execVlog a d m s
  | .vrcp a d m => Sys2Proof.Machine.execVrcp a d m s
  | .vrsq a d m => Sys2Proof.Machine.execVrsq a d m s
  | .streamBr d m => Sys2Proof.Machine.execStreamBr d m s
  | .streamLoop im q m => Sys2Proof.Machine.execStreamLoop im q m s
  | .killRecord k => Sys2Proof.Machine.execKillRecord k s
  | .inlineBlock p => Sys2Proof.Machine.execInlineBlock p s
  | .routineClassMessage p => Sys2Proof.Machine.execRoutineClassMessage p s
  | .launch p => Sys2Proof.Machine.execLaunch p s
  | .launchComplete key => Sys2Proof.Machine.execLaunchComplete key s
  | .cancel p => Sys2Proof.Machine.execCancel p s
  | .decMessage p => Sys2Proof.Machine.execDecMessage p s
  | .spawnMessage p => Sys2Proof.Machine.execSpawnMessage p s
  | .spawnReply p => Sys2Proof.Machine.execSpawnReply p s
  | .taskStart core => Sys2Proof.Machine.execTaskStart core s
  | .deficitReplenish tile => Sys2Proof.Machine.execDeficitReplenish tile s
  | .creditGrant core => Sys2Proof.Machine.execCreditGrant core s
  | .amo p => Sys2Proof.Machine.execAmo p s
  | .casMessage p => Sys2Proof.Machine.execCasMessage p s
  | .atomicReply p => Sys2Proof.Machine.execAtomicReply p s
  | .postedAtomicAck p => Sys2Proof.Machine.execPostedAtomicAck p s
  | .electRequest p => Sys2Proof.Machine.execElectRequest p s
  | .phaseDeclaration p => Sys2Proof.Machine.execPhaseDeclaration p s
  | .phaseComplete tile n => Sys2Proof.Machine.execPhaseComplete tile n s
  | .phdone core => Sys2Proof.Machine.execPhdone core s
  | .trapev p => Sys2Proof.Machine.execTrapev p s
  | .landingPlain p => Sys2Proof.Machine.execLandingPlain p s
  | .landingConv p => Sys2Proof.Machine.execLandingConv p s
  | .landingAdd p => Sys2Proof.Machine.execLandingAdd p s
  | .landingSetf p => Sys2Proof.Machine.execLandingSetf p s
  | .landingTrans p => Sys2Proof.Machine.execLandingTrans p s
  | .gathreq p => Sys2Proof.Machine.execGathreq p s
  | .scatreq p => Sys2Proof.Machine.execScatreq p s
  | .kaggreq p => Sys2Proof.Machine.execKaggreq p s
  | .kbcastreq p => Sys2Proof.Machine.execKbcastreq p s
  | .changeLogAppend p => Sys2Proof.Machine.execChangeLogAppend p s
  | .mcmd p => Sys2Proof.Machine.execMcmd p s
  | .xform p => Sys2Proof.Machine.execXform p s
  | .fldone p => Sys2Proof.Machine.execFldone p s
  | .commandComplete core => Sys2Proof.Machine.execCommandComplete core s
  | .lateFault core => Sys2Proof.Machine.execLateFault core s
  | .groupWatchdog tile => Sys2Proof.Machine.execGroupWatchdog tile s
  | .queueWaitTimeout tile => Sys2Proof.Machine.execQueueWaitTimeout tile s
  | .ldfServe tile => Sys2Proof.Machine.execLdfServe tile s
  | .ldfRetry slot => Sys2Proof.Machine.execLdfRetry slot s
  | .writeRequest p => Sys2Proof.Machine.execWriteRequest p s
  | .heldWriteResume p => Sys2Proof.Machine.execHeldWriteResume p s
  | .registration p => Sys2Proof.Machine.execRegistration p s
  | .revoke p => Sys2Proof.Machine.execRevoke p s
  | .lineFill p => Sys2Proof.Machine.execLineFill p s
  | .forwardedRead p => Sys2Proof.Machine.execForwardedRead p s
  | .fillArrival p => Sys2Proof.Machine.execFillArrival p s
  | .writeBack p => Sys2Proof.Machine.execWriteBack p s
  | .strongAccess p => Sys2Proof.Machine.execStrongAccess p s
  | .placedAccess p => Sys2Proof.Machine.execPlacedAccess p s
  | .speculativeReplay slot => Sys2Proof.Machine.execSpeculativeReplay slot s
  | .tileAllocation p => Sys2Proof.Machine.execTileAllocation p s
  | .clbShootdown p => Sys2Proof.Machine.execClbShootdown p s
  | .budgetExpiry slot => Sys2Proof.Machine.execBudgetExpiry slot s
  | .taskTermination slot => Sys2Proof.Machine.execTaskTermination slot s
  | .leaveSave tile grant => Sys2Proof.Machine.execLeaveSave tile grant s
  | .epochAdvance tile => Sys2Proof.Machine.execEpochAdvance tile s
  | .randRead m a d g => Sys2Proof.Machine.execRandRead m a d g s
  | .tctlRead m a d g => Sys2Proof.Machine.execTctlRead m a d g s
  | .cvstatRead m a d g => Sys2Proof.Machine.execCvstatRead m a d g s
  | .fnselWrite m a d g => Sys2Proof.Machine.execFnselWrite m a d g s
  | .bfmtWrite n m a d g => Sys2Proof.Machine.execBfmtWrite n m a d g s
  | .bdropWrite n m a d g => Sys2Proof.Machine.execBdropWrite n m a d g s
  | .budgetWrite m a d g => Sys2Proof.Machine.execBudgetWrite m a d g s
  | .phslotWrite m a d g => Sys2Proof.Machine.execPhslotWrite m a d g s
  | .gselWrite m a d g => Sys2Proof.Machine.execGselWrite m a d g s
  | .grantWrite m a d g => Sys2Proof.Machine.execGrantWrite m a d g s
  | .grantLeave m a d g => Sys2Proof.Machine.execGrantLeave m a d g s
  | .grantRestore m a d g => Sys2Proof.Machine.execGrantRestore m a d g s
  | .tokenIssue m a d g => Sys2Proof.Machine.execTokenIssue m a d g s
  | .mkeyWrite m a d g => Sys2Proof.Machine.execMkeyWrite m a d g s
  | .lwadd m a d g => Sys2Proof.Machine.execLwadd m a d g s
  | .lwmaxn m a d g => Sys2Proof.Machine.execLwmaxn m a d g s
  | .lwfmax m a d g => Sys2Proof.Machine.execLwfmax m a d g s
  | .pqcfgWrite m a d g => Sys2Proof.Machine.execPqcfgWrite m a d g s
  | .pqpop m a d g => Sys2Proof.Machine.execPqpop m a d g s
  | .stashbWrite m a d g => Sys2Proof.Machine.execStashbWrite m a d g s
  | .stashlWrite m a d g => Sys2Proof.Machine.execStashlWrite m a d g s
  | .pcapWrite m a d g => Sys2Proof.Machine.execPcapWrite m a d g s
  | .csrWrite n m a d g => Sys2Proof.Machine.execCsrWrite n m a d g s
  | .map slot => Sys2Proof.Machine.execMap slot s
  | .unmap slot => Sys2Proof.Machine.execUnmap slot s
  | .rights slot => Sys2Proof.Machine.execRights slot s
  | .clean slot => Sys2Proof.Machine.execClean slot s
  | .logtail slot => Sys2Proof.Machine.execLogtail slot s
  | .ctxset slot => Sys2Proof.Machine.execCtxset slot s
  | .kring slot => Sys2Proof.Machine.execKring slot s
  | .hostlist slot => Sys2Proof.Machine.execHostlist slot s
  | .slice p => Sys2Proof.Machine.execSlice p s
  | .sliceStart pkg gang => Sys2Proof.Machine.execSliceStart pkg gang s
  | .gangGraceExpiry pkg gang => Sys2Proof.Machine.execGangGraceExpiry pkg gang s
  | .sliceEnd pkg gang => Sys2Proof.Machine.execSliceEnd pkg gang s
  | .glaunch p => Sys2Proof.Machine.execGlaunch p s
  | .ack p => Sys2Proof.Machine.execAck p s
  | .gangAckTimeout pkg gang => Sys2Proof.Machine.execGangAckTimeout pkg gang s
  | .late p => Sys2Proof.Machine.execLate p s
  | .stop p => Sys2Proof.Machine.execStop p s
  | .tileFence tile addr => Sys2Proof.Machine.execTileFence tile addr s
  | .eccCorrected pkg bits => Sys2Proof.Machine.execEccCorrected pkg bits s
  | .linkRetryExhausted pkg link => Sys2Proof.Machine.execLinkRetryExhausted pkg link s
  | .powerStep pkg milliwatts => Sys2Proof.Machine.execPowerStep pkg milliwatts s
  | .thermalLimit pkg die celsius => Sys2Proof.Machine.execThermalLimit pkg die celsius s
  | .functionReady pkg bit => Sys2Proof.Machine.execFunctionReady pkg bit s
  | .imageVerification pkg image => Sys2Proof.Machine.execImageVerification pkg image s
  | .managementWrite pkg off value => Sys2Proof.Machine.execManagementWrite pkg off value s
  | .managementRead pkg off => Sys2Proof.Machine.execManagementRead pkg off s
  | .attestationRequest pkg part nonce => Sys2Proof.Machine.execAttestationRequest pkg part nonce s
  | .coreReset core => Sys2Proof.Machine.execCoreReset core s
  | .tileReset tile => Sys2Proof.Machine.execTileReset tile s
  | .packageReset pkg => Sys2Proof.Machine.execPackageReset pkg s
  | .trainingFailure pkg bit => Sys2Proof.Machine.execTrainingFailure pkg bit s
  | .recallRequest p => Sys2Proof.Machine.execRecallRequest p s

end Sys2Proof.Machine
end

