-- ==== Sys2Proof/Machine/Schedule.lean ====
section
/-!
DEFINITION. Sys2Proof/Machine/Schedule.lean: who moves: a core's turn (R123, R339), the vector stream's turn (R149), the
arrival of packets, the device's own steps, and the passing of time (R124, R152, R259, R341). Step.lean puts them together.
-/

namespace Sys2Proof.Machine

/-! ### A slot at an instruction boundary -/

/-- The first suspension or late fault the slot's task has yet to take, in sequence order (R255, R258). -/
def pendingLate (s : State) (k uid : Nat) : Option Command :=
  (coreAt s (slotCore k)).ring.find? (fun e => e.uid == uid && e.unreported && (e.state == 4 || e.state == 5))

/-- The slot waits for the device to finish what its instruction began, a kill, a shootdown, a cancel or a declaration: none of
the waits that R340 lets be abandoned. -/
def mustFinish (t : Task) : Bool :=
  match t.pend.want with
  | some (.kill _) => true
  | some (.broadcast n) => n == 1 || n == 3 || n == 6
  | _ => false

/-- What stops the next instruction before it executes (R339): checks 2 to 4 of R54 on it; at TLEV 0 the suspended XLATEs and
late faults of the task's commands; BUDGET. The trap's cause and value, and the state in which the condition is no longer
pending. -/
def pendingTrap (i : Instr) (k : Nat) (t : Task) (s : State) : Option (Cause × Dword × State) :=
  match checks i t (coreNum (slotCore k)) with
  | some (c, v) => some (c, v, s)
  | none =>
    match (if t.tlev = 0#2 ∧ t.inl.isNone ∧ mustFinish t = false then pendingLate s k t.uid else none) with
    | some e =>
      let s := modCmd s (slotCore k) e.seq (fun x => { x with unreported := false })
      if e.state = 5 then some (causeXlate, e.addr, s) else some (lateCause e.kind, e.seq.setWidth 64, s)
    | none =>
      if t.budgetDue && !mustFinish t then
        some (causeBudget, BitVec.ofNat 64 t.granted, modTask s k (fun t => { t with budgetDue := false }))
      else none

/-- The word of an instruction whose second halfword lies in the next block of LM. -/
def crossing (t : Task) (e : Encoded) : Option (BitVec 32) :=
  match e with
  | .word w => if t.inl.isNone ∧ t.pc.toNat % 32 = 30 then some w else none
  | _ => none

/-- The state in which the instruction at a slot's pc executes: the slot is the current one, its fetch buffer is the one the
fetch leaves, and a word out of two blocks stays as it was fetched while its instruction waits (R17); a block notes its
instruction's position (R58). -/
def enter (s : State) (k : Nat) (e : Encoded) (buf : Buffer) : State :=
  modTask { s with here := k } k (fun t =>
    { t with
      fetch := if t.inl.isSome then t.fetch else buf
      pend := { t.pend with word := crossing t e }
      inl := t.inl.map (fun b => { b with index := blockIndex b.code t.pc.toNat }) })

/-- A slot takes its next instruction: fetch, decoding and the checks may trap (R54), a pending condition comes before it
(R339), and else it executes. -/
def slotStep (k : Nat) (s : State) : Result :=
  match taskAt s k with
  | none => .next s
  | some t =>
    match fetchTask s k t with
    | .error (c, a, buf) =>
      .next (takeTrap c (BitVec.ofNat 64 a) (modTask { s with here := k } k (fun t => { t with fetch := buf })))
    | .ok (e, buf) =>
      let s := enter s k e buf
      match taskInstr e with
      | none => .next (takeTrap causeIllegal e.value s)
      | some i =>
        match pendingTrap i k t s with
        | some (c, v, s) => .next (takeTrap c v s)
        | none =>
          match exec i s with
          | .next s => .next (leaveBlock k s)
          | r => r

/-- The slot waits after its turn for what it waited for before it: it was not ready (R123). -/
def stillWaits (k : Nat) (s s' : State) : Bool :=
  match taskAt s k, taskAt s' k with
  | some t, some t' => t.pend.want.isSome && t.pend.want == t'.pend.want && t.pend.req == t'.pend.req && t.uid == t'.uid
  | _, _ => false

/-- What a turn costs and leaves: the context of a task slot is charged for its instruction, once, in the turn after which the
slot does not wait (R124), and the core notes which slot had the turn. The handler context is charged by the cycle
(`handlerCycles`). -/
def issued (k : Nat) (t : Task) (s : State) : State :=
  let waits := ((taskAt s k).bind (fun t => t.pend.want)).isSome
  if k % 16 = 8 then modCore s (slotCore k) (fun c => { c with handlerRun := c.handlerRun + 1 })
  else modCore (charge s (slotTile k) t.ctx (if waits then 0 else 1)) (slotCore k)
    (fun c => { c with lastSlot := k % 16, handlerRun := 0 })

/-- The first slot of a list that is ready takes its turn; none does when none is ready. -/
def firstReady (s : State) : List Nat → Option Result
  | [] => none
  | k :: r =>
    match taskAt s k with
    | none => firstReady s r
    | some t =>
      match slotStep k s with
      | .next s' => if stillWaits k s s' then firstReady s r else some (.next (issued k t s'))
      | x => some x

/-- The order in which a core looks at its slots (R123): the handler context, unless it has issued in each of the three
previous cycles; the task slots after the one that issued last; the handler context. -/
def slotOrder (c : Core) (core : Nat) : List Nat :=
  let slots := (List.range 8).map (fun i => slotKey core ((c.lastSlot + 1 + i) % 8))
  if c.handlerRun < 3 then handlerKey core :: slots else slots ++ [handlerKey core]

/-- Cores of the tile fetch (R376, R378, R379). -/
def tileRuns (s : State) (tile : Nat) : Bool :=
  pkgPresent s (tilePkg tile) && pkgSec s (tilePkg tile) && groupReady s tile && !(tileAt s tile).fenced

/-- A core's turn: it issues at most one instruction. -/
def coreTurn (core : Nat) (s : State) : Result :=
  if tileRuns s (coreTile core) then
    (firstReady s (slotOrder (coreAt s core) core)).getD
      (.next (modCore s core (fun c => { c with handlerRun := 0 })))
  else .next s

/-! ### The vector stream -/

/-- The state in which the stream's instruction executes: its word stays as it was fetched while it waits (R17). -/
def enterStream (s : State) (tile : Nat) (w : Word) (buf : Buffer) : State :=
  modStream { s with here := streamKey tile } tile (fun x => { x with fetch := buf, word := some w })

/-- The word is one of the stream's (R157). -/
noncomputable def streamInstr (w : Word) : Option Instr :=
  match decode32 true w with
  | some i => if whereOf i = .stream then some i else none
  | none => none

/-- The turn of a tile's vector stream (R149, R157, R173): at most one instruction. -/
noncomputable def streamTurn (tile : Nat) (s : State) : Result :=
  match (tileAt s tile).stream with
  | none => .next s
  | some st =>
    if !tileRuns s tile then .next s
    else
      match fetchStream s tile st with
      | .error (c, a, _) => .next (stopStream s tile st (if c = causeProt then 2 else 1) (BitVec.ofNat 64 a) 0)
      | .ok (.word w, buf) =>
        match streamInstr w with
        | some i => exec i (enterStream s tile w buf)
        | none => .next (stopUntied s tile st 8 w)
      | .ok (e, _) => .next (stopUntied s tile st 8 (e.value.setWidth 32))

/-! ### Arrivals and the device's own steps -/

/-- What a message's arrival does, by its class and transform (R106, Table 2). -/
def byClass (p : Packet) (h : Dword) (s : State) : Result :=
  match hdrClass h with
  | 0 => execInlineBlock p.id s
  | 1 => execLaunch p.id s
  | 2 => execCancel p.id s
  | 3 => execDecMessage p.id s
  | 4 => execSpawnMessage p.id s
  | 5 => execAmo p.id s
  | 6 => execCasMessage p.id s
  | 9 =>
    match hdrXf h with
    | 0 => execLandingPlain p.id s
    | 1 => execLandingConv p.id s
    | 2 => execLandingAdd p.id s
    | 3 => execLandingSetf p.id s
    | _ => execLandingTrans p.id s
  | 12 => execMcmd p.id s
  | 13 => execPhdone p.dst s
  | 14 => execFldone p.id s
  | 15 => execTrapev p.id s
  | 16 => gangArrival p s
  | 17 => execXform p.id s
  | _ => execRoutineClassMessage p.id s
where
  /-- A GANG message is taken by the step of its operation; one that breaks the table by any (R370). -/
  gangArrival (p : Packet) (s : State) : Result :=
    match gangOp (((msgOf p.body).map (·.2.1)).getD []) with
    | 2 => execGlaunch p.id s
    | 3 => execAck p.id s
    | 4 => execLate p.id s
    | 5 => execStop p.id s
    | _ => execSlice p.id s

/-- The arrival of a packet. -/
def deliver (p : Packet) (s : State) : Result :=
  match p.body with
  | .msg h _ => byClass p h s
  | .own h _ => byClass p h s
  | .fill _ _ _ grant _ held =>
    if held then execHeldWriteResume p.id s else if grant then execWriteRequest p.id s else execLineFill p.id s
  | .forward _ _ _ _ _ _ => execForwardedRead p.id s
  | .filled _ _ _ _ _ _ _ => execFillArrival p.id s
  | .reg _ _ _ _ _ => execRegistration p.id s
  | .revoke _ => execRevoke p.id s
  | .recall _ _ _ => execRecallRequest p.id s
  | .writeBack _ => execWriteBack p.id s
  | .strong _ _ _ _ _ _ => execStrongAccess p.id s
  | .placed _ _ _ _ _ _ _ _ _ _ => execPlacedAccess p.id s
  | .ldf _ _ _ _ _ _ => execPlacedAccess p.id s
  | .atomic _ _ _ _ _ op _ _ _ _ => if op = 16 then execCasMessage p.id s else execAmo p.id s
  | .reply _ _ => execAtomicReply p.id s
  | .ack _ _ _ _ => execPostedAtomicAck p.id s
  | .alloc _ _ _ _ _ => execTileAllocation p.id s
  | .elect _ _ _ => execElectRequest p.id s
  | .declare _ _ _ _ _ _ _ _ => execPhaseDeclaration p.id s
  | .cancel _ _ _ => execCancel p.id s
  | .logEntry _ _ _ _ _ _ => execChangeLogAppend p.id s
  | .shootdown _ _ _ _ => execClbShootdown p.id s
  | .volCount _ _ _ _ => execHeldWriteResume p.id s

/-- The firmware answers the call a slot waits for (R352). -/
def firmwareStep (k : Nat) (t : Task) (s : State) : Result :=
  match t.pend.want with
  | some (.firmware 1) => execMap k s
  | some (.firmware 2) => execUnmap k s
  | some (.firmware 3) => execRights k s
  | some (.firmware 4) => execClean k s
  | some (.firmware 5) => execLogtail k s
  | some (.firmware 6) => execCtxset k s
  | some (.firmware 7) => execKring k s
  | some (.firmware 8) => execHostlist k s
  | _ => execLdfRetry k s

/-- The steps the device may take of itself in a state. -/
def deviceSteps (s : State) : List (State → Result) :=
  s.net.map deliver ++
  s.tasks.map (fun x => firmwareStep x.1 x.2) ++
  s.cores.map (fun c s => .next (runStep s c.1).1) ++
  s.cores.map (fun c => execCreditGrant c.1) ++
  s.cores.map (fun c => execTaskStart c.1) ++
  s.tiles.flatMap (fun t =>
    [execDeficitReplenish t.1, execLdfServe t.1, execQueueWaitTimeout t.1, execGroupWatchdog t.1, execEpochAdvance t.1] ++
    (if t.2.postq.isEmpty then [] else (List.range 4).map (fun n => execTaskStart (coreKey t.1 (8 + n)))) ++
    (List.range 4).map (fun n => execLeaveSave t.1 (BitVec.ofNat 2 n)) ++
    (List.range 16).map (fun n => execPhaseComplete t.1 (BitVec.ofNat 4 n))) ++
  s.launches.map (fun l => execLaunchComplete l.1) ++
  s.kills.map (fun x => execKillRecord x.ctx) ++
  s.pkgs.flatMap (fun p => p.2.gangs.flatMap (fun g =>
    [execSliceStart p.1 g.1, execGangGraceExpiry p.1 g.1, execSliceEnd p.1 g.1, execGangAckTimeout p.1 g.1]))

/-- The turns of the cores that hold tasks and of the running streams. -/
noncomputable def runners (s : State) : List (State → Result) :=
  s.tasks.map (fun x => coreTurn (slotCore x.1)) ++ s.tiles.map (fun t => streamTurn t.1)

/-- A list from its n-th place on, then from its start. -/
def turnedBy {α : Type} (n : Nat) (l : List α) : List α :=
  l.drop (n % (l.length + 1)) ++ l.take (n % (l.length + 1))

/-- The first step of a list that changes the state. -/
def firstChange (s : State) : List (State → Result) → Result
  | [] => .next s
  | f :: r =>
    match f s with
    | .next s' => if { s' with here := s.here } = s then firstChange s r else .next s'
    | x => x

/-- The default order: the device's steps and the cores' and streams' turns come first by turns, each from a place that moves
on. -/
noncomputable def defaultTurn (s : State) : Result :=
  let s := { s with round := s.round + 1 }
  let device := turnedBy (s.round / 2) (deviceSteps s)
  let run := turnedBy (s.round / 2) (runners s)
  firstChange s (if s.round % 2 = 0 then device ++ run else run ++ device)

/-- One who moves. An instruction of a core or of a stream is no step of the device. -/
noncomputable def whoMoves (w : Who) (s : State) : Result :=
  match w with
  | .core c => coreTurn c s
  | .stream t => streamTurn t s
  | .event e => if whereOf e = .device then exec e s else .next s

/-! ### Time -/

/-- A resident task over n cycles: its budget falls, then its grace (R341). -/
def ageTask (n : Nat) (t : Task) : Task :=
  if t.inl.isSome then t
  else
    match t.grace with
    | some g => { t with budget := t.budget - n, grace := some (g - n) }
    | none =>
      if n < t.budget then { t with budget := t.budget - n }
      else
        let u := expire { t with budget := 0 }
        { u with grace := u.grace.map (fun g => g - (n - t.budget)) }

/-- A tile over n cycles: its stream's wait on a queue (R152), and its watchdog (R259). -/
def ageTile (s : State) (n : Nat) (k : Nat) (t : Tile) : Tile :=
  { t with
    stream := t.stream.map (fun x => if x.waiting.isSome then { x with qwait := x.qwait + n } else x)
    watchdog :=
      if !watchdogCounts s k then 0 else if tileRing s k 5 then t.watchdog else t.watchdog + n }

/-- Tasks whose grace has run out are terminated (R341). -/
def endGraces (s : State) : State :=
  s.tasks.foldl (fun (s : State) (x : Nat × Task) => if x.2.grace = some 0 then terminate s x.1 true else s) s

/-- The cycles of a step are handler cycles of every message that occupies a handler context in it, waits included: they are
charged to the context that the message names (R104, R245). -/
def handlerCycles (n : Nat) (s : State) : State :=
  s.tasks.foldl (fun (s : State) (x : Nat × Task) => if x.2.inl.isSome then charge s (slotTile x.1) x.2.ctx n else s) s

/-- Ended tasks whose release has been refused come back to their slots, with the trap of it taken at the TEND (R139, R216, R221). -/
def reseat (s : State) : State :=
  s.ending.foldl (fun (s : State) (e : Ending) =>
    match e.task with
    | none => s
    | some t =>
      if !returning s e.slot || (taskAt s e.slot).isSome then s
      else
        let back (t : Task) : State :=
          { putTask { s with ending := s.ending.erase e } e.slot t with here := e.slot }
        match t.refused, t.lost with
        | some (c, v), _ => { takeTrap c v (back (forgetRefusal t)) with here := s.here }
        | none, va :: _ => { takeTrap causeOwnerlost (BitVec.ofNat 64 va) (back t) with here := s.here }
        | none, [] => s) s

/-- n cycles and m nanoseconds pass; a package that has stopped excludes its fenced tiles. -/
def tick (n m : Nat) (s : State) : State :=
  noteStops <| reseat <| endGraces { s with
    cyc := s.cyc + n
    ftime := s.ftime + m
    tasks := s.tasks.map (fun (x : Nat × Task) => (x.1, ageTask n x.2))
    tiles := s.tiles.map (fun (x : Nat × Tile) => (x.1, ageTile s n x.1 x.2)) }

/-- Time passes after a turn that goes on. -/
def after (n m : Nat) (r : Result) : Result :=
  match r with
  | .next s => .next (tick n m s)
  | x => x

end Sys2Proof.Machine
end

