-- ==== Sys2Proof/Machine/Step.lean ====
section
/-!
DEFINITION. Sys2Proof/Machine/Step.lean: one step of the machine: the next turn of the agenda, or of the default order.
-/

namespace Sys2Proof.Machine

/-- One step. Which of the device's agents moves next, and how long that takes, is data of the state where it is laid down
(State.agenda), and follows the default order elsewhere. -/
noncomputable def step (s : State) : Host.Outcome State Fault Refusal :=
  match s.agenda with
  | t :: r => after t.cycles t.ns (whoMoves t.who (handlerCycles t.cycles { s with agenda := r }))
  | [] => after 1 1 (defaultTurn (handlerCycles 1 s))

/-! ### An instruction placed where the next step fetches it -/

/-- The LM offset of the placed instruction, in bank 0 of tile 0. -/
def placedAt : Nat := 0x100

/-- The core of tile 0 that may execute an instruction: the first that R52 names, and core 0 for one that no core may. -/
def placedCore (i : Instr) : Nat :=
  match [0, 4, 5, 6, 8].find? (coreAllows i) with
  | some n => n
  | none => 0

/-- A task of context 0 at privilege M, at the placed instruction, with every register. -/
def placedTask (uid : Nat) : Task :=
  freshTask uid 0 3 0 0 placedAt 32 32 0 0 0 [] (2 ^ 20) 0 16#5

/-- A running stream of context 0 at the placed instruction. -/
def placedStream : Stream :=
  { pc := BitVec.ofNat 48 placedAt, ctx := 0, fn := 0x10387#17, seq := 0, uid := 0, launch := 0, tag := 16#5,
    lstart := 0, lend := 0, lcount := 0, fetch := none, word := none, qwait := 0, waiting := none, ways := 0 }

/-- Package 0 and tile 0 up to where they fetch for context 0: trained, its firmware verified, the context there, a valid
grant of bank 0. -/
def placedGround (s : State) : State :=
  let s := modPkg s 0 (fun p => { p with present := true, ready := #v[~~~0#64, ~~~0#64, readyMask] })
  let s := { s with ctxs := tput s.ctxs 0 { part := 0, priv := 3, root := 0, tvec := 0, dead := false } }
  modTile s 0 (fun t =>
    { t with
      fenced := false
      grants := t.grants.set 0 { Grant.reset with dw0 := 1#64 <<< 63, dw1 := 1#64 <<< 48 } })

/-- The state in which the next step fetches and runs the given instruction: its bytes lie in LM at the pc of a resident task
of a core that may execute it, or, for an instruction of the vector stream, at the pc of the tile's running stream, and
the agenda gives that core or stream the next turn. -/
def State.withFetchWord (s : State) (nbits w : Nat) : State :=
  let s := lmPut (placedGround s) 0 placedAt 4 (w % 2 ^ nbits)
  let x := BitVec.ofNat 32 (w % 2 ^ nbits)
  let scalar? := if x.extractLsb' 0 1 = 0#1 then decode16 (x.extractLsb' 0 16) else taskWord x
  let isStream := x.extractLsb' 0 1 = 1#1 ∧ (taskWord x).isNone ∧ 113 ≤ (x.extractLsb' 0 7).toNat
  if isStream then
    { modTile s 0 (fun t => { t with stream := some placedStream }) with
      agenda := [{ who := .stream 0, cycles := 1, ns := 1 }] }
  else
    let core := coreKey 0 ((scalar?.map placedCore).getD 0)
    let s := putTask (dropTask s (handlerKey core)) (slotKey core 0) (placedTask s.nextId)
    let s := modCore s core (fun c => { c with lastSlot := 7, handlerRun := 0 })
    { s with nextId := s.nextId + 1, agenda := [{ who := .core core, cycles := 1, ns := 1 }] }

end Sys2Proof.Machine
end

