-- ==== Sys2Proof/Safety.lean ====
section
/-!
DEFINITION. Sys2Proof/Safety.lean: the terms claims use: when an instruction executes with its effect, what it leaves when it
retires, and the form of storage that every state of a run keeps.
-/

namespace Sys2Proof.Machine

/-- A scalar instruction executes with its effect: its slot holds a task, checks 2 to 4 of R54 pass, no register it consumes is
spoilt (R338), its guard holds, and no queue is bound. -/
structure Executes (i : Instr) (g : BitVec 4) (s : State) (t : Task) : Prop where
  here : hereTask s = some t
  passes : checks i t (coreNum (hereCore s)) = none
  sound : consumesSpoilt i g t = false
  guard : guardHolds t g = true
  unbound : t.binds = []

/-- A task past an instruction of `n` bytes that took no transfer. -/
def past (t : Task) (n : Nat) : Task := { stepPc t n with pend := .idle }

/-- A task after a taken transfer. -/
def gone (t : Task) (target : Dword) (call : Bool) : Task := { jumpPc t target call with pend := .idle }

/-- The state in which the task at `s.here` has become `t` and has retired an instruction of `n` bytes. -/
def retire (s : State) (t : Task) (n : Nat) : State := putTask s s.here (past t n)

/-- A vector-stream instruction executes for the running stream of the tile. -/
structure Streams (s : State) (tile : Nat) (st : Stream) : Prop where
  here : s.here = streamKey tile
  runs : (tileAt s tile).stream = some st

/-- The state in which the stream has retired an instruction that took no transfer. -/
def streamPast (s : State) (tile : Nat) : State :=
  modStream s tile (fun x => { streamNext x with word := none, waiting := none, qwait := 0 })

/-- Storage is in its canonical form. -/
def State.stored (s : State) : Prop := Memory.wf s.mem = true

end Sys2Proof.Machine
end

