-- ==== Sys2Proof/Certificates/Slice0/Obligations.lean ====
section
/-!
DEFINITION. Sys2Proof/Certificates/Slice0/Obligations.lean: the statements for the provers. The namespace Claims holds what
they are stated with: the values, checks and conditions of the rules of spec/, written from the rules and not from the
meanings they are held against, and the parts of a statement that has several.
-/

open Sys2Proof Sys2Proof.Machine

namespace Sys2Proof.Claims

/-! ### What the rules say a register member computes -/

/-- The operand's signed and unsigned value at the member's width (R69). -/
def sval (w : BitVec 1) (x : Dword) : Int := if w = 1#1 then (x.setWidth 32).toInt else x.toInt
def nval (w : BitVec 1) (x : Dword) : Nat := if w = 1#1 then (x.setWidth 32).toNat else x.toNat
/-- A result wraps to the member's width, and that of a .W form is sign-extended (R69). -/
def wrap (w : BitVec 1) (v : Int) : Dword := if w = 1#1 then (BitVec.ofInt 32 v).signExtend 64 else BitVec.ofInt 64 v
/-- 2 to the member's width. -/
def span (w : BitVec 1) : Int := if w = 1#1 then 2 ^ 32 else 2 ^ 64
/-- A shift amount: G(b)[5:0], or G(b)[4:0] in a .W form (R71). -/
def amount (w : BitVec 1) (b : Nat) : Nat := if w = 1#1 then b % 32 else b % 64
/-- A rotation to the right (R71). -/
def rotated (w : BitVec 1) (x n : Nat) : Int :=
  if w = 1#1 then x / 2 ^ (n % 32) + x % 2 ^ (n % 32) * 2 ^ (32 - n % 32)
  else x / 2 ^ (n % 64) + x % 2 ^ (n % 64) * 2 ^ (64 - n % 64)

/-- A member that writes one g register: which, its guard, and the value from the registers before it. -/
structure RegOp where
  dest : BitVec 5
  guard : BitVec 4
  value : Task → Dword

/-- R71 with Table 2, R73 to R78, R80 (PPACK), R81, and the compact forms of R48. -/
def intOp : Instr → Option RegOp
  | .add w b a d g => some ⟨d, g, fun t => wrap w (sval w (gGet t a) + sval w (gGet t b))⟩
  | .sub w b a d g => some ⟨d, g, fun t => wrap w (sval w (gGet t a) - sval w (gGet t b))⟩
  | .mul w b a d g => some ⟨d, g, fun t => wrap w (sval w (gGet t a) * sval w (gGet t b))⟩
  | .mulh w b a d g => some ⟨d, g, fun t => wrap w (sval w (gGet t a) * sval w (gGet t b) / span w)⟩
  | .mulhn w b a d g => some ⟨d, g, fun t => wrap w ((nval w (gGet t a) * nval w (gGet t b) : Nat) / span w)⟩
  | .and b a d g => some ⟨d, g, fun t => gGet t a &&& gGet t b⟩
  | .or b a d g => some ⟨d, g, fun t => gGet t a ||| gGet t b⟩
  | .xor b a d g => some ⟨d, g, fun t => gGet t a ^^^ gGet t b⟩
  | .andn b a d g => some ⟨d, g, fun t => gGet t a &&& ~~~gGet t b⟩
  | .shl w b a d g => some ⟨d, g, fun t => wrap w (nval w (gGet t a) * 2 ^ amount w (gGet t b).toNat)⟩
  | .shr w b a d g => some ⟨d, g, fun t => wrap w (nval w (gGet t a) / 2 ^ amount w (gGet t b).toNat)⟩
  | .sra w b a d g => some ⟨d, g, fun t => wrap w (sval w (gGet t a) / 2 ^ amount w (gGet t b).toNat)⟩
  | .rot w b a d g => some ⟨d, g, fun t => wrap w (rotated w (nval w (gGet t a)) (gGet t b).toNat)⟩
  | .min b a d g => some ⟨d, g, fun t => BitVec.ofInt 64 (min (gGet t a).toInt (gGet t b).toInt)⟩
  | .max b a d g => some ⟨d, g, fun t => BitVec.ofInt 64 (max (gGet t a).toInt (gGet t b).toInt)⟩
  | .minn b a d g => some ⟨d, g, fun t => BitVec.ofNat 64 (min (gGet t a).toNat (gGet t b).toNat)⟩
  | .maxn b a d g => some ⟨d, g, fun t => BitVec.ofNat 64 (max (gGet t a).toNat (gGet t b).toNat)⟩
  | .sel b a d x => some ⟨d, always, fun t => if guardHolds t x then gGet t a else gGet t b⟩
  | .addi i a d g => some ⟨d, g, fun t => BitVec.ofInt 64 ((gGet t a).toInt + i.toInt)⟩
  | .andi i a d g => some ⟨d, g, fun t => gGet t a &&& BitVec.ofInt 64 i.toInt⟩
  | .ori i a d g => some ⟨d, g, fun t => gGet t a ||| BitVec.ofInt 64 i.toInt⟩
  | .xori i a d g => some ⟨d, g, fun t => gGet t a ^^^ BitVec.ofInt 64 i.toInt⟩
  | .shli w n a d g => some ⟨d, g, fun t => wrap w (nval w (gGet t a) * 2 ^ amount w n.toNat)⟩
  | .shri w n a d g => some ⟨d, g, fun t => wrap w (nval w (gGet t a) / 2 ^ amount w n.toNat)⟩
  | .srai w n a d g => some ⟨d, g, fun t => wrap w (sval w (gGet t a) / 2 ^ amount w n.toNat)⟩
  | .roti w n a d g => some ⟨d, g, fun t => wrap w (rotated w (nval w (gGet t a)) n.toNat)⟩
  | .movi i d g => some ⟨d, g, fun _ => BitVec.ofInt 64 i.toInt⟩
  | .movs i d g => some ⟨d, g, fun t => BitVec.ofNat 64 ((gGet t d).toNat * 2 ^ 16 + i.toNat)⟩
  | .abs a d g => some ⟨d, g, fun t => BitVec.ofNat 64 (gGet t a).toInt.natAbs⟩
  | .neg a d g => some ⟨d, g, fun t => BitVec.ofInt 64 (0 - (gGet t a).toInt)⟩
  | .not a d g => some ⟨d, g, fun t => ~~~gGet t a⟩
  | .clz a d g => some ⟨d, g, fun t => if gGet t a = 0#64 then 64#64 else BitVec.ofNat 64 (63 - (gGet t a).toNat.log2)⟩
  | .ctz a d g => some ⟨d, g, fun t => BitVec.ofNat 64 (((List.range 64).takeWhile (fun n => !(gGet t a).getLsbD n)).length)⟩
  | .popc a d g => some ⟨d, g, fun t => BitVec.ofNat 64 ((List.range 64).countP (fun n => (gGet t a).getLsbD n))⟩
  | .sxb a d g => some ⟨d, g, fun t => BitVec.ofInt 64 ((gGet t a).setWidth 8).toInt⟩
  | .sxh a d g => some ⟨d, g, fun t => BitVec.ofInt 64 ((gGet t a).setWidth 16).toInt⟩
  | .sxw a d g => some ⟨d, g, fun t => BitVec.ofInt 64 ((gGet t a).setWidth 32).toInt⟩
  | .zxb a d g => some ⟨d, g, fun t => BitVec.ofNat 64 ((gGet t a).toNat % 2 ^ 8)⟩
  | .zxh a d g => some ⟨d, g, fun t => BitVec.ofNat 64 ((gGet t a).toNat % 2 ^ 16)⟩
  | .zxw a d g => some ⟨d, g, fun t => BitVec.ofNat 64 ((gGet t a).toNat % 2 ^ 32)⟩
  | .bswap a d g => some ⟨d, g, fun t => BitVec.ofNat 64
      (((List.range 8).map (fun n => (gGet t a).toNat / 2 ^ (8 * n) % 256 * 2 ^ (56 - 8 * n))).sum)⟩
  | .bfx l p a d g => some ⟨d, g, fun t => BitVec.ofNat 64 ((gGet t a).toNat / 2 ^ p.toNat % 2 ^ (l.toNat + 1))⟩
  | .bfi l p a d g => some ⟨d, g, fun t => BitVec.ofNat 64
      ((gGet t d).toNat - (gGet t d).toNat / 2 ^ p.toNat % 2 ^ (l.toNat + 1) * 2 ^ p.toNat +
        (gGet t a).toNat % 2 ^ (l.toNat + 1) * 2 ^ p.toNat)⟩
  | .ppack d g => some ⟨d, g, fun t => BitVec.ofNat 64 (t.p.toNat / 2 * 2 + 1)⟩
  | .lea w n b a d g => some ⟨d, g, fun t => BitVec.ofInt 64 ((gGet t a).toInt + sval w (gGet t b) * 2 ^ n.toNat)⟩
  | .cMov a d => some ⟨cReg d, always, fun t => gGet t (cReg a)⟩
  | .cAdd a d => some ⟨cReg d, always, fun t => BitVec.ofInt 64 ((gGet t (cReg d)).toInt + (gGet t (cReg a)).toInt)⟩
  | .cSub a d => some ⟨cReg d, always, fun t => BitVec.ofInt 64 ((gGet t (cReg d)).toInt - (gGet t (cReg a)).toInt)⟩
  | .cAddi i d => some ⟨cReg d, always, fun t => BitVec.ofInt 64 ((gGet t (cReg d)).toInt + i.toInt)⟩
  | .cShli n d => some ⟨cReg d, always, fun t => BitVec.ofNat 64 ((gGet t (cReg d)).toNat * 2 ^ n.toNat)⟩
  | _ => none

/-- The divide members of R72: destination, guard, whether the divisor they read is zero, and the result. -/
structure DivOp where
  dest : BitVec 5
  guard : BitVec 4
  zero : Task → Bool
  value : Task → Dword

def divOp : Instr → Option DivOp
  | .div w b a d g => some ⟨d, g, fun t => sval w (gGet t b) == 0, fun t =>
      if sval w (gGet t b) = 0 then ~~~0#64 else wrap w ((sval w (gGet t a)).tdiv (sval w (gGet t b)))⟩
  | .divn w b a d g => some ⟨d, g, fun t => nval w (gGet t b) == 0, fun t =>
      if nval w (gGet t b) = 0 then ~~~0#64 else wrap w (nval w (gGet t a) / nval w (gGet t b) : Nat)⟩
  | .rem w b a d g => some ⟨d, g, fun t => sval w (gGet t b) == 0, fun t =>
      if sval w (gGet t b) = 0 then wrap w (sval w (gGet t a)) else wrap w ((sval w (gGet t a)).tmod (sval w (gGet t b)))⟩
  | .remn w b a d g => some ⟨d, g, fun t => nval w (gGet t b) == 0, fun t =>
      if nval w (gGet t b) = 0 then wrap w (sval w (gGet t a)) else wrap w (nval w (gGet t a) % nval w (gGet t b) : Nat)⟩
  | _ => none

/-- A member that writes a predicate: which, how it combines (R50: 0 set, 1 and, 2 or), its guard and its condition. -/
structure PredOp where
  dest : BitVec 3
  comb : BitVec 2
  guard : BitVec 4
  cond : Task → Bool

/-- An operand of CMPI: signed where the condition is, zero-extended otherwise (R79). -/
def predOp : Instr → Option PredOp
  | .cmpEq w b a o d g => some ⟨d, o, g, fun t => decide (sval w (gGet t a) = sval w (gGet t b))⟩
  | .cmpNe w b a o d g => some ⟨d, o, g, fun t => decide (sval w (gGet t a) ≠ sval w (gGet t b))⟩
  | .cmpLt w b a o d g => some ⟨d, o, g, fun t => decide (sval w (gGet t a) < sval w (gGet t b))⟩
  | .cmpLe w b a o d g => some ⟨d, o, g, fun t => decide (sval w (gGet t a) ≤ sval w (gGet t b))⟩
  | .cmpGt w b a o d g => some ⟨d, o, g, fun t => decide (sval w (gGet t b) < sval w (gGet t a))⟩
  | .cmpGe w b a o d g => some ⟨d, o, g, fun t => decide (sval w (gGet t b) ≤ sval w (gGet t a))⟩
  | .cmpLtn w b a o d g => some ⟨d, o, g, fun t => decide (nval w (gGet t a) < nval w (gGet t b))⟩
  | .cmpLen w b a o d g => some ⟨d, o, g, fun t => decide (nval w (gGet t a) ≤ nval w (gGet t b))⟩
  | .cmpGtn w b a o d g => some ⟨d, o, g, fun t => decide (nval w (gGet t b) < nval w (gGet t a))⟩
  | .cmpGen w b a o d g => some ⟨d, o, g, fun t => decide (nval w (gGet t b) ≤ nval w (gGet t a))⟩
  | .cmpiEq w i a o d g => some ⟨d, o, g, fun t => decide (sval w (gGet t a) = i.toInt)⟩
  | .cmpiNe w i a o d g => some ⟨d, o, g, fun t => decide (sval w (gGet t a) ≠ i.toInt)⟩
  | .cmpiLt w i a o d g => some ⟨d, o, g, fun t => decide (sval w (gGet t a) < i.toInt)⟩
  | .cmpiLe w i a o d g => some ⟨d, o, g, fun t => decide (sval w (gGet t a) ≤ i.toInt)⟩
  | .cmpiGt w i a o d g => some ⟨d, o, g, fun t => decide (i.toInt < sval w (gGet t a))⟩
  | .cmpiGe w i a o d g => some ⟨d, o, g, fun t => decide (i.toInt ≤ sval w (gGet t a))⟩
  | .cmpiLtn w i a o d g => some ⟨d, o, g, fun t => decide (nval w (gGet t a) < i.toNat)⟩
  | .cmpiLen w i a o d g => some ⟨d, o, g, fun t => decide (nval w (gGet t a) ≤ i.toNat)⟩
  | .cmpiGtn w i a o d g => some ⟨d, o, g, fun t => decide (i.toNat < nval w (gGet t a))⟩
  | .cmpiGen w i a o d g => some ⟨d, o, g, fun t => decide (i.toNat ≤ nval w (gGet t a))⟩
  | .pand b a d g => some ⟨d, 0, g, fun t => pGet t a && pGet t b⟩
  | .por b a d g => some ⟨d, 0, g, fun t => pGet t a || pGet t b⟩
  | .pxor b a d g => some ⟨d, 0, g, fun t => xor (pGet t a) (pGet t b)⟩
  | .pandn b a d g => some ⟨d, 0, g, fun t => pGet t a && !pGet t b⟩
  | .pnot a d g => some ⟨d, 0, g, fun t => !pGet t a⟩
  | .pmov a d g => some ⟨d, 0, g, fun t => pGet t a⟩
  | _ => none

/-- The predicate after the member. -/
def combined (comb : BitVec 2) (old c : Bool) : Bool :=
  match comb.toNat with
  | 0 => c
  | 1 => old && c
  | _ => old || c

/-- A load: base register, destination, guard, bytes, kind (0 weak, 1 strong, 2 acquire) and effective address (R82, R48). -/
structure LoadOp where
  base : BitVec 5
  dest : BitVec 5
  guard : BitVec 4
  size : Nat
  kind : Nat
  ea : Task → Dword

def loadOp : Instr → Option LoadOp
  | .ld o _ k z a d g =>
    if k = 3#2 then none
    else some ⟨a, d, g, 2 ^ z.toNat, k.toNat, fun t => BitVec.ofInt 64 ((gGet t a).toInt + o.toInt * 2 ^ z.toNat)⟩
  | .cLdw i a d => some ⟨cReg a, cReg d, always, 4, 0, fun t => BitVec.ofNat 64 ((gGet t (cReg a)).toNat + 4 * i.toNat)⟩
  | .cLdd i a d => some ⟨cReg a, cReg d, always, 8, 0, fun t => BitVec.ofNat 64 ((gGet t (cReg a)).toNat + 8 * i.toNat)⟩
  | _ => none

/-- A store: base register, source, guard, bytes, kind (0 weak, 1 strong, 3 release) and effective address (R82, R48). -/
structure StoreOp where
  base : BitVec 5
  src : BitVec 5
  guard : BitVec 4
  size : Nat
  kind : Nat
  ea : Task → Dword

def storeOp : Instr → Option StoreOp
  | .st o _ k z a d g =>
    if k = 2#2 then none
    else some ⟨a, d, g, 2 ^ z.toNat, k.toNat, fun t => BitVec.ofInt 64 ((gGet t a).toInt + o.toInt * 2 ^ z.toNat)⟩
  | .cStw i a d => some ⟨cReg a, cReg d, always, 4, 0, fun t => BitVec.ofNat 64 ((gGet t (cReg a)).toNat + 4 * i.toNat)⟩
  | .cStd i a d => some ⟨cReg a, cReg d, always, 8, 0, fun t => BitVec.ofNat 64 ((gGet t (cReg a)).toNat + 8 * i.toNat)⟩
  | _ => none

/-- The checks of the effective address: STACKLIM for a base of g2, MISALIGN, and the LM alone for an inline block (R19, R57,
R82). -/
structure Addressed (t : Task) (base : BitVec 5) (ea : Dword) (size : Nat) : Prop where
  stack : t.inl = none → ¬(base = 2#5 ∧ ea.toNat < t.slim.toNat)
  aligned : ea.toNat % size = 0
  inLm : t.inl ≠ none → ea.toNat < 2 ^ 20

/-- The address names placed memory of the task's own tile, at an offset that is assigned to the context (R174 to R176,
R182), in no way whose role a RESIZE waits to change (R184). -/
structure OnTile (s : State) (t : Task) (ea : Dword) (vault : Bool) (off : Nat) : Prop where
  place : placeOf s (hereTile s) ea.toNat = .placed vault (hereTile s) off
  held : placedCause s t.ctx vault (hereTile s) off = none
  still : vault = true → resizing s (hereTile s) (off / 2 ^ 19) = false

/-- The storage key of a placed byte. -/
def keyOf (s : State) (vault : Bool) (off : Nat) : Nat := placeKey vault (hereTile s) off

/-- Bytes of storage as one little-endian number, zero-extended (R82). -/
def bytesAt (s : State) (key size : Nat) : Dword :=
  BitVec.ofNat 64 (((List.range size).map (fun n => (cellGet s.mem (key + n)).toNat * 256 ^ n)).sum)

/-- Nothing of the task waits for an earlier store of its own (R207, R216, R221). -/
structure Quiet (s : State) (t : Task) : Prop where
  outs : t.outs = []
  cmds : cmdsPending s t.uid = false
  refused : t.refused = none
  lost : t.lost = []

/-- A word of the task's context in its core's L1 (R193, R206). -/
def inL1 (s : State) (t : Task) (w : Nat) (x : L1Word) : Prop :=
  tget (coreAt s (hereCore s)).l1 w = some x ∧ t.ctx.toNat ∈ x.ctxs

/-- A part of Loads. -/
def LoadsOnTheTilePart : Prop :=
  ∀ (i : Instr) (op : LoadOp) (s : State) (t : Task) (vault : Bool) (off : Nat), loadOp i = some op →
    Executes i op.guard s t → Addressed t op.base (op.ea t) op.size → OnTile s t (op.ea t) vault off →
    spoiltAt s (keyOf s vault off) op.size = false → ownOut s t 2 (op.ea t).toNat op.size = false →
    (op.kind ≠ 0 → t.pubs = []) →
    exec i s = .next (retire (if op.kind = 2 then acquireCore s (hereCore s) else s)
      (gSet t op.dest (bytesAt s (keyOf s vault off) op.size)) i.length)

/-- A part of Stores. -/
def StoresOnTheTilePart : Prop :=
  ∀ (i : Instr) (op : StoreOp) (s : State) (t : Task) (vault : Bool) (off : Nat), storeOp i = some op →
    Executes i op.guard s t → Addressed t op.base (op.ea t) op.size → OnTile s t (op.ea t) vault off → s.stored →
    ownOut s t 2 (op.ea t).toNat op.size = false → (op.kind = 1 → t.pubs = []) → (op.kind = 3 → Quiet s t) →
    ∃ u, exec i s = .next u ∧ u = { retire s t i.length with mem := u.mem, spoilt := u.spoilt } ∧ u.stored ∧
      (∀ w, w ∈ u.spoilt ↔ w ∈ s.spoilt ∧ ¬(keyOf s vault off ≤ w ∧ w + 4 ≤ keyOf s vault off + op.size)) ∧
      (∀ n, n < op.size → cellGet u.mem (keyOf s vault off + n) = (gGet t op.src).extractLsb' (8 * n) 8) ∧
      (∀ k, k < keyOf s vault off ∨ keyOf s vault off + op.size ≤ k → cellGet u.mem k = cellGet s.mem k)

/-- A part of Loads. -/
def LoadsFromL1Part : Prop :=
  ∀ (i : Instr) (op : LoadOp) (s : State) (t : Task) (lo hi : L1Word), loadOp i = some op → op.kind = 0 →
    Executes i op.guard s t → t.inl = none → Addressed t op.base (op.ea t) op.size →
    placeOf s (hereTile s) (op.ea t).toNat = .global → ownOut s t 2 (op.ea t).toNat op.size = false →
    inL1 s t ((op.ea t).toNat / 4 * 4) lo → (op.size = 8 → inL1 s t ((op.ea t).toNat / 4 * 4 + 4) hi) →
    exec i s = .next (retire s (gSet t op.dest (BitVec.ofNat 64
      ((lo.val.toNat + (if op.size = 8 then 2 ^ 32 * hi.val.toNat else 0)) / 2 ^ (8 * ((op.ea t).toNat % 4)) % 2 ^ (8 * op.size))))
      i.length)

/-- The reply of a load's request to a home, or to another tile (R199, R204, R214, R215). -/
def LoadsAnsweredPart : Prop :=
  ∀ (i : Instr) (op : LoadOp) (s : State) (t : Task) (r : Reply), loadOp i = some op →
    Executes i op.guard s t → t.inl = none → Addressed t op.base (op.ea t) op.size → (op.kind ≠ 0 → t.pubs = []) →
    ownOut s t 2 (op.ea t).toNat op.size = false →
    ((∃ v k off, placeOf s (hereTile s) (op.ea t).toNat = .placed v k off ∧ k ≠ hereTile s ∧
        t.pend.log.lookup (.placedLoad (op.ea t).toNat op.size 0) = some r) ∨
      (placeOf s (hereTile s) (op.ea t).toNat = .global ∧ op.kind ≠ 0 ∧ ownSettled s t (op.ea t).toNat op.size = true ∧
        t.pend.log.lookup (.strongLoad (op.ea t).toNat op.size) = some r)) →
    exec i s =
      if r.cause = 0#8 then
        .next (retire (if op.kind = 2 then acquireCore s (hereCore s) else s) (gSet t op.dest r.val) i.length)
      else .next (takeTrap r.cause (op.ea t) s)

/-- An atomic: base, operand, destination, guard, operation of R220 (16 for CAS), bytes, posted, and what CAS expects. -/
structure AtomicOp where
  base : BitVec 5
  operand : BitVec 5
  dest : BitVec 5
  guard : BitVec 4
  op : Nat
  size : Nat
  posted : Bool
  expects : Task → Dword

/-- The members of R220 and R223: bit sz picks a doubleword, the floating members are of a word. -/
def atomicOp : Instr → Option AtomicOp
  | .amoAdd p z b a d g => some ⟨a, b, d, g, 0, if z = 1#1 then 8 else 4, p == 1#1, fun _ => 0⟩
  | .amoAnd p z b a d g => some ⟨a, b, d, g, 1, if z = 1#1 then 8 else 4, p == 1#1, fun _ => 0⟩
  | .amoOr p z b a d g => some ⟨a, b, d, g, 2, if z = 1#1 then 8 else 4, p == 1#1, fun _ => 0⟩
  | .amoXor p z b a d g => some ⟨a, b, d, g, 3, if z = 1#1 then 8 else 4, p == 1#1, fun _ => 0⟩
  | .amoMin p z b a d g => some ⟨a, b, d, g, 4, if z = 1#1 then 8 else 4, p == 1#1, fun _ => 0⟩
  | .amoMax p z b a d g => some ⟨a, b, d, g, 5, if z = 1#1 then 8 else 4, p == 1#1, fun _ => 0⟩
  | .amoMinn p z b a d g => some ⟨a, b, d, g, 6, if z = 1#1 then 8 else 4, p == 1#1, fun _ => 0⟩
  | .amoMaxn p z b a d g => some ⟨a, b, d, g, 7, if z = 1#1 then 8 else 4, p == 1#1, fun _ => 0⟩
  | .amoXchg p z b a d g => some ⟨a, b, d, g, 8, if z = 1#1 then 8 else 4, p == 1#1, fun _ => 0⟩
  | .amoFadd p b a d g => some ⟨a, b, d, g, 9, 4, p == 1#1, fun _ => 0⟩
  | .amoFmin p b a d g => some ⟨a, b, d, g, 10, 4, p == 1#1, fun _ => 0⟩
  | .amoFmax p b a d g => some ⟨a, b, d, g, 11, 4, p == 1#1, fun _ => 0⟩
  | .cas z b a d g => some ⟨a, b, d, g, 16, if z = 1#1 then 8 else 4, false, fun t => gGet t d⟩
  | _ => none

/-- What an integer operation of R220 leaves of a word or doubleword of `w` bits. -/
def atomicResult (op : Nat) (w : Nat) (old b : BitVec w) : BitVec w :=
  match op with
  | 0 => BitVec.ofNat w (old.toNat + b.toNat)
  | 1 => old &&& b
  | 2 => old ||| b
  | 3 => old ^^^ b
  | 4 => if b.toInt < old.toInt then b else old
  | 5 => if old.toInt < b.toInt then b else old
  | 6 => if b.toNat < old.toNat then b else old
  | 7 => if old.toNat < b.toNat then b else old
  | _ => b

/-- The address is in memory (R174), and where an atomic on it is performed: the handler of core va[8:7] of its home (R217). -/
def performer (s : State) (va : Nat) : Option Nat :=
  match placeOf s (hereTile s) va with
  | .hole => none
  | .placed _ k _ => some (performing k va)
  | .global => some (performing (homeTile s (tilePkg (hereTile s)) va) va)

/-- An inline block performs an atomic on its own tile's LM itself (R57, R217). -/
def performsItself (s : State) (t : Task) (va : Nat) : Bool :=
  t.inl.isSome && match placeOf s (hereTile s) va with
    | .placed _ k _ => k == hereTile s
    | _ => false

/-- A part of Atomics. -/
def AtomicsAnsweredPart : Prop :=
  ∀ (i : Instr) (op : AtomicOp) (s : State) (t : Task) (dst : Nat) (r : Reply), atomicOp i = some op → op.posted = false →
    Executes i op.guard s t → Addressed t op.base (gGet t op.base) op.size →
    performer s (gGet t op.base).toNat = some dst → performsItself s t (gGet t op.base).toNat = false → t.pubs = [] →
    ownSettled s t (gGet t op.base).toNat op.size = true → ownOut s t 1 (gGet t op.base).toNat op.size = false →
    ownOut s t 2 (gGet t op.base).toNat op.size = false →
    t.pend.log.lookup (.atomic (gGet t op.base).toNat op.size op.op (gGet t op.operand) (op.expects t)) = some r →
    exec i s =
      if r.cause = 0#8 then .next (retire s (gSet t op.dest r.val) 4)
      else .next (takeTrap r.cause (gGet t op.base) s)

/-- A part of Atomics. -/
def PostedAtomicsPart : Prop :=
  ∀ (i : Instr) (op : AtomicOp) (s : State) (t : Task) (dst : Nat), atomicOp i = some op → op.posted = true →
    Executes i op.guard s t → Addressed t op.base (gGet t op.base) op.size →
    performer s (gGet t op.base).toNat = some dst → performsItself s t (gGet t op.base).toNat = false → t.pubs = [] →
    ownSettled s t (gGet t op.base).toNat op.size = true → ownOut s t 1 (gGet t op.base).toNat op.size = false →
    (t.outs.filter (fun o => o.kind == 2)).length < 16 →
    (t.outs.all (fun o => o.id != s.nextId)) = true →
    t.pend.log.lookup (.credit dst 5) = some Reply.ok →
    ∃ u p, exec i s = .next u ∧ u.net = s.net ++ [p] ∧ p.dst = dst ∧ p.src = s.here ∧
      (∃ place, p.body = .atomic place (gGet t op.base).toNat op.size t.ctx.toNat t.priv op.op (gGet t op.operand) 0 true t.tag) ∧
      taskAt u s.here = some (past { t with outs := t.outs ++ [{ id := p.id, va := (gGet t op.base).toNat, kind := 2 }] } 4) ∧
      u.mem = s.mem ∧ u.cores = s.cores ∧ u.tiles = s.tiles

/-- R218, R220: the integer operations on placed memory, at the handler that performs them. -/
def AtomicResultsPart : Prop :=
  ∀ (s : State) (key op : Nat) (b cmp : Dword), s.stored → op ≤ 8 →
    (let old := cellsGet s.mem key 4
     (atomicPlaced s key 4 op b cmp).1 = BitVec.ofNat 64 old ∧
     cellsGet (atomicPlaced s key 4 op b cmp).2.mem key 4 =
       (atomicResult op 32 (BitVec.ofNat 32 old) (b.setWidth 32)).toNat) ∧
    (let old := cellsGet s.mem key 8
     (atomicPlaced s key 8 op b cmp).1 = BitVec.ofNat 64 old ∧
     cellsGet (atomicPlaced s key 8 op b cmp).2.mem key 8 = (atomicResult op 64 (BitVec.ofNat 64 old) b).toNat) ∧
    (let old := cellsGet s.mem key 8
     (atomicPlaced s key 8 16 b cmp).1 = BitVec.ofNat 64 old ∧
     cellsGet (atomicPlaced s key 8 16 b cmp).2.mem key 8 = if BitVec.ofNat 64 old = cmp then b.toNat else old)

/-- R226: LDF and LDF.E on the tile's own placed memory. -/
def LoadsOfFullWordsPart : Prop :=
  ∀ (take : Bool) (o : BitVec 5) (p : BitVec 2) (z : BitVec 1) (a d : BitVec 5) (g : BitVec 4) (s : State) (t : Task)
    (vault : Bool) (off : Nat) (i : Instr) (ea : Dword) (size : Nat),
    i = (if take then .ldfE o p z a d g else .ldf o p z a d g) → size = (if z = 1#1 then 8 else 4) →
    ea = BitVec.ofInt 64 ((gGet t a).toInt + o.toInt * size) →
    Executes i g s t → t.inl = none → Addressed t a ea size → OnTile s t ea vault off → t.pubs = [] →
    ownSettled s t ea.toNat size = true → ownOut s t 1 ea.toNat size = false → ownOut s t 2 ea.toNat size = false →
    spoiltAt s (keyOf s vault off) size = false →
    asked t (.ldf ea.toNat size take) = false →
    (∀ n, n < size → fullGet s ((keyOf s vault off + n) / 4 * 4) = true) → (tileAt s (hereTile s)).ldfs = [] →
    ∃ u, exec i s = .next u ∧
      taskAt u s.here = some (past (gSet t d (bytesAt s (keyOf s vault off) size)) 4) ∧ u.mem = s.mem ∧
      u.cores = (acquireCore s (hereCore s)).cores ∧
      (∀ k, fullGet u k = (fullGet s k && !(take && decide (keyOf s vault off / 4 * 4 ≤ k) && decide (k % 4 = 0) &&
        decide (k < keyOf s vault off + size))))

/-- R228 on the tile's own placed memory. -/
def FullBitOperationsPart : Prop :=
  ∀ (a d : BitVec 5) (g : BitVec 4) (s : State) (t : Task) (vault : Bool) (off : Nat),
    OnTile s t (gGet t a) vault off → (gGet t a).toNat % 4 = 0 →
    (Executes (.setf a g) g s t → Quiet s t → exec (.setf a g) s = .next (retire (fullSet s (keyOf s vault off)) t 4)) ∧
    (Executes (.sete a g) g s t → t.pubs = [] → exec (.sete a g) s = .next (retire (fullClear s (keyOf s vault off)) t 4)) ∧
    (Executes (.testf a d g) g s t → t.pubs = [] →
      exec (.testf a d g) s = .next (retire s (gSet t d (if fullGet s (keyOf s vault off) then 1 else 0)) 4))

/-- R228: misaligned, outside memory, or global. -/
def FullBitTrapsPart : Prop :=
  ∀ (a d : BitVec 5) (g : BitVec 4) (s : State) (t : Task) (i : Instr), i ∈ [.setf a g, .sete a g, .testf a d g] →
    Executes i g s t →
    ((gGet t a).toNat % 4 ≠ 0 → exec i s = .next (takeTrap causeMisalign (gGet t a) s)) ∧
    ((gGet t a).toNat % 4 = 0 → placeOf s (hereTile s) (gGet t a).toNat = .global →
      exec i s = .next (takeTrap causeProt (gGet t a) s)) ∧
    ((gGet t a).toNat % 4 = 0 → placeOf s (hereTile s) (gGet t a).toNat = .hole →
      ownResizing s (hereTile s) (gGet t a).toNat = false → exec i s = .next (takeTrap causeXlate (gGet t a) s))

/-- R230, R231, R147, R206, R207: the fences, INVR, PUBR and ISYNC. -/
def FencesPart : Prop :=
  ∀ (s : State) (t : Task) (sc : BitVec 2) (b a : BitVec 5) (g : BitVec 4),
    (Executes (.fenceA sc g) g s t →
      exec (.fenceA sc g) s = .next (retire (acquireCore s (hereCore s)) t 4)) ∧
    (Executes (.fenceL sc g) g s t → Quiet s t → exec (.fenceL sc g) s = .next (retire s t 4)) ∧
    (Executes (.fenceAl sc g) g s t → Quiet s t →
      exec (.fenceAl sc g) s = .next (retire (acquireCore s (hereCore s)) t 4)) ∧
    (Executes (.invr b a g) g s t → (gGet t b).toNat ≤ 2 ^ 20 → (gGet t a).toNat + (gGet t b).toNat ≤ 2 ^ 48 →
      ∃ u, exec (.invr b a g) s = .next (retire u t 4) ∧ u.mem = s.mem ∧
        (∀ e : Nat × L1Word, e ∈ (coreAt u (hereCore s)).l1 ↔ e ∈ (coreAt s (hereCore s)).l1 ∧ (e.2.own = .inFlight ∨
          (e.2.own ≠ .clean ∧ ownerOf s (homeTile s (tilePkg (coreTile (hereCore s))) e.1) e.1 = some (hereCore s)) ∨
          gGet t b = 0#64 ∨
          ¬((gGet t a).toNat < e.1 + 4 ∧ e.1 < (gGet t a).toNat + (gGet t b).toNat)))) ∧
    (Executes (.pubr b a g) g s t → (gGet t b).toNat ≤ 2 ^ 20 → (gGet t a).toNat + (gGet t b).toNat ≤ 2 ^ 48 →
      t.pubs.length < 4 →
      ∃ l, exec (.pubr b a g) s = .next (retire s { t with pubs := t.pubs ++ l } 4) ∧ l.length ≤ 1 ∧
        (∀ p ∈ l, ∀ n ∈ p.waits, ∃ o ∈ t.outs, o.id = n) ∧
        (∀ o ∈ t.outs, gGet t b ≠ 0#64 → (o.kind = 2 ∨ (o.kind = 0 ∧ (gGet t a).toNat < o.va + 4 ∧
          o.va < (gGet t a).toNat + (gGet t b).toNat)) → ∃ p ∈ l, o.id ∈ p.waits)) ∧
    (Executes (.pubr b a g) g s t → (gGet t b).toNat ≤ 2 ^ 20 → (gGet t a).toNat + (gGet t b).toNat ≤ 2 ^ 48 →
      gGet t b ≠ 0#64 → 4 ≤ t.pubs.length → (∀ p ∈ t.pubs.head?, p.waits ≠ []) →
      exec (.pubr b a g) s = .next (beginWait .earlier none s)) ∧
    (Executes (.isync g) g s t → (∀ c ∈ s.cores, ∀ e ∈ c.2.ring, e.uid = t.uid → isVgo e.word = true ∨ cmdDone e = true) →
      exec (.isync g) s = .next (retire s { t with fetch := none } 4))

/-- R232, R233. -/
def PrefetchAndClbPart : Prop :=
  ∀ (s : State) (t : Task) (a : BitVec 5) (g : BitVec 4),
    (Executes (.pref a g) g s t →
      ∃ u, exec (.pref a g) s = .next u ∧ taskAt u s.here = some (past t 4) ∧ u.mem = s.mem ∧
        (placeOf s (hereTile s) (gGet t a).toNat ≠ .global → u = retire s t 4)) ∧
    (Executes (.clbinv a g) g s t →
      ∃ u, exec (.clbinv a g) s = .next (retire u t 4) ∧ u = { s with cores := u.cores } ∧
        (coreAt u (hereCore s)).vols = (coreAt s (hereCore s)).vols.filter (fun v =>
          !((gGet t a).toNat == 0 || (v.ctx == t.ctx.toNat && v.handle == (gGet t a).toNat))) ∧
        (coreAt u (hereCore s)).clb = (coreAt s (hereCore s)).clb.filter (fun v =>
          !((gGet t a).toNat == 0 || (v.ctx == t.ctx.toNat && v.handle == (gGet t a).toNat))))

/-- R48, R85 to R87: where a transfer goes when it is taken, whether it is, whether it is a call, and what it links. -/
structure JumpOp where
  guard : BitVec 4
  target : Task → Dword
  taken : Task → Bool
  call : Bool
  link : Option (BitVec 5)

def jumpOp : Instr → Option JumpOp
  | .br d g => some ⟨g, fun t => BitVec.ofInt 64 (t.pc.toNat + 2 * d.toInt), fun _ => true, false, none⟩
  | .jal d g => some ⟨g, fun t => BitVec.ofInt 64 (t.pc.toNat + 2 * d.toInt), fun _ => true, true, some 1⟩
  | .jalr i a d g => some ⟨g, fun t => BitVec.ofInt 64 ((gGet t a).toInt + 2 * i.toInt), fun _ => true, d != 0, some d⟩
  | .cBr i => some ⟨always, fun t => BitVec.ofInt 64 (t.pc.toNat + 2 * i.toInt), fun _ => true, false, none⟩
  | .cBnz i d => some ⟨always, fun t => BitVec.ofInt 64 (t.pc.toNat + 2 * i.toInt), fun t => gGet t (cReg d) != 0, false, none⟩
  | .cCall a => some ⟨always, fun t => gGet t (cReg a), fun _ => true, true, some 1⟩
  | .cRet => some ⟨always, fun t => gGet t 1, fun _ => true, false, some 0⟩
  | _ => none

/-- Writes the link: the address of the next instruction (R85, R86). -/
def linked (t : Task) (link : Option (BitVec 5)) (len : Nat) : Task :=
  match link with
  | some d => gSet t d (BitVec.ofNat 64 (t.pc.toNat + len))
  | none => t

/-- An odd target of a jump to a register value (R86). -/
def oddTarget (i : Instr) (op : JumpOp) (t : Task) : Bool :=
  match i with
  | .jalr _ _ _ _ => (op.target t).getLsbD 0
  | .cCall _ => (op.target t).getLsbD 0
  | .cRet => (op.target t).getLsbD 0
  | _ => false

/-- R85 to R87, R90. -/
def TransfersPart : Prop :=
  ∀ (i : Instr) (op : JumpOp) (s : State) (t : Task), jumpOp i = some op → Executes i op.guard s t →
    exec i s =
      if oddTarget i op t then .next (takeTrap causeMisalign (op.target t) s)
      else if op.taken t then .next (putTask s s.here (gone (linked t op.link i.length) (op.target t) op.call))
      else .next (retire s t i.length)

/-- R89: what retiring an instruction without a transfer does to pc and LCOUNT. -/
def LoopsBackPart : Prop :=
  ∀ (t : Task) (n : Nat), t.pc.toNat + n < 2 ^ 48 →
    (t.lcount ≠ 0#64 → t.lstart.toNat ≤ t.pc.toNat → t.pc.toNat < t.lend.toNat → t.pc.toNat + n = t.lend.toNat →
      (1 < t.lcount.toNat → (stepPc t n).pc.toNat = t.lstart.toNat ∧ (stepPc t n).lcount.toNat = t.lcount.toNat - 1) ∧
      (t.lcount = 1#64 → (stepPc t n).pc.toNat = t.pc.toNat + n ∧ (stepPc t n).lcount = 0#64)) ∧
    ((t.lcount = 0#64 ∨ t.pc.toNat < t.lstart.toNat ∨ t.pc.toNat + n < t.lend.toNat ∨ t.lend.toNat ≤ t.pc.toNat) →
      (stepPc t n).pc.toNat = t.pc.toNat + n ∧ (stepPc t n).lcount = t.lcount) ∧
    (t.lcount ≠ 0#64 → t.lstart.toNat ≤ t.pc.toNat → t.pc.toNat < t.lend.toNat → t.lend.toNat < t.pc.toNat + n →
      (stepPc t n).pc.toNat = t.pc.toNat + n ∧ (stepPc t n).lcount = 0#64)

/-- R48: C.NOP, and every halfword whose op4 is 0. -/
def NopAndIllegalPart : Prop :=
  (∀ (s : State) (t : Task), Executes .cNop always s t → exec .cNop s = .next (retire s t 2)) ∧
  (∀ (x : BitVec 11) (s : State) (t : Task), hereTask s = some t →
    exec (.cIll x) s = .next (takeTrap causeIllegal (BitVec.ofNat 64 (32 * x.toNat)) s))

/-- A floating member that rounds: destination, guard, and the rounded result with its conditions (R92, R94, R98, R99). -/
structure RoundOp where
  dest : BitVec 5
  guard : BitVec 4
  value : Task → Rounded

/-- F(n) as an F32 number (R91). -/
def fval (t : Task) (n : BitVec 5) : Machine.Num := f32Val (fGet t n)

/-- The floating format of an FCVT code below 4 (R99, Table 5). -/
def floatCode (t : Task) (c : BitVec 3) : Fmt :=
  if c = 0#3 then f32 else if c = 1#3 then f16 else if c = 2#3 then b16 else fnFmt t.fnsel

/-- The value of an FCVT source (R99, Table 5). -/
def sourceOf (t : Task) (c : BitVec 3) (a : BitVec 5) : Machine.Num :=
  if c = 4#3 then numOfInt ((gGet t a).setWidth 32).toInt
  else if c = 5#3 then numOfInt ((gGet t a).toNat % 2 ^ 32 : Nat)
  else if c = 6#3 then numOfInt (gGet t a).toInt
  else if c = 7#3 then numOfInt (gGet t a).toNat
  else decodeFlt (floatCode t c) (fGet t a).toNat

def roundOp : Instr → Option RoundOp
  | .fadd b a d g => some ⟨d, g, fun t => fltAdd f32 (fval t a) (fval t b)⟩
  | .fsub b a d g => some ⟨d, g, fun t => fltSub f32 (fval t a) (fval t b)⟩
  | .fmul b a d g => some ⟨d, g, fun t => fltMul f32 (fval t a) (fval t b)⟩
  | .fdiv b a d g => some ⟨d, g, fun t => fltDiv f32 (fval t a) (fval t b)⟩
  | .fsqrt a d g => some ⟨d, g, fun t => fltSqrt f32 (fval t a)⟩
  | .fma c b a d g => some ⟨d, g, fun t => fltFma f32 false false (fval t a) (fval t b) (fval t c)⟩
  | .fms c b a d g => some ⟨d, g, fun t => fltFma f32 true false (fval t a) (fval t b) (fval t c)⟩
  | .fnma c b a d g => some ⟨d, g, fun t => fltFma f32 false true (fval t a) (fval t b) (fval t c)⟩
  | .fnms c b a d g => some ⟨d, g, fun t => fltFma f32 true true (fval t a) (fval t b) (fval t c)⟩
  | .fcvt x y r a d g =>
    if y.toNat < 4 then some ⟨d, g, fun t => roundTo (floatCode t y) (modeOf r.toNat) false (sourceOf t x a)⟩ else none
  | _ => none

/-- The conditions a task's TCTL enables: bits [12:8] over the conditions of bits [4:0] (R14, R92). -/
def traps (t : Task) (raised : BitVec 5) : Bool := (List.range 5).any (fun n => raised.getLsbD n && t.tctl.getLsbD (8 + n))
/-- The task with the raised conditions added to TCTL. -/
def noted (t : Task) (raised : BitVec 5) : Task := { t with tctl := t.tctl ||| raised.setWidth 17 }

/-- A NaN's word, and the order of the others by value (R29, R91). -/
def nanWord (w : Word) : Bool := decide (0x7F800000 < w.toNat % 2 ^ 31)
def orderKey (w : Word) : Int := if w.msb then -((w.toNat % 2 ^ 31 : Nat) : Int) else ((w.toNat % 2 ^ 31 : Nat) : Int)

/-- R96: the lower and the higher of two words, −0 below +0; the other operand of a single NaN, and 0x7FC0_0000 for two. -/
def lowerWord (a b : Word) : Word :=
  if nanWord a then (if nanWord b then 0x7FC00000#32 else b)
  else if nanWord b then a
  else if orderKey a < orderKey b ∨ (orderKey a = orderKey b ∧ a.msb = true) then a else b
def higherWord (a b : Word) : Word :=
  if nanWord a then (if nanWord b then 0x7FC00000#32 else b)
  else if nanWord b then a
  else if orderKey b < orderKey a ∨ (orderKey a = orderKey b ∧ b.msb = true) then a else b

/-- R97, Table 3: the class of a word. -/
def classOf (w : Word) : Nat :=
  if nanWord w then 8
  else if w.toNat % 2 ^ 31 = 0x7F800000 then (if w.msb then 0 else 7)
  else if w.toNat % 2 ^ 31 = 0 then (if w.msb then 3 else 4)
  else if w.toNat % 2 ^ 31 < 2 ^ 23 then (if w.msb then 2 else 5)
  else if w.msb then 1 else 6

/-- A floating member that raises no condition: an f register, its guard and its bits (R94, R96). -/
structure BitsOp where
  dest : BitVec 5
  guard : BitVec 4
  value : Task → Word

def bitsOp : Instr → Option BitsOp
  | .fmin b a d g => some ⟨d, g, fun t => lowerWord (fGet t a) (fGet t b)⟩
  | .fmax b a d g => some ⟨d, g, fun t => higherWord (fGet t a) (fGet t b)⟩
  | .fabs a d g => some ⟨d, g, fun t =>
      if nanWord (fGet t a) then 0x7FC00000#32 else BitVec.ofNat 32 ((fGet t a).toNat % 2 ^ 31)⟩
  | .fneg a d g => some ⟨d, g, fun t =>
      if nanWord (fGet t a) then 0x7FC00000#32 else BitVec.ofNat 32 ((fGet t a).toNat + 2 ^ 31)⟩
  | .fmov a d g => some ⟨d, g, fun t => fGet t a⟩
  | .fmvf a d g => some ⟨d, g, fun t => BitVec.ofNat 32 (gGet t a).toNat⟩
  | _ => none

/-- The conditions of FCMP (R102, Table 7). -/
structure FcmpOp where
  dest : BitVec 3
  comb : BitVec 2
  guard : BitVec 4
  cond : Task → Bool
  raised : Task → BitVec 5

/-- Neither operand is a NaN (R102). -/
def areOrdered (t : Task) (a b : BitVec 5) : Bool := !nanWord (fGet t a) && !nanWord (fGet t b)
/-- LT and LE of a NaN raise invalid. -/
def raisedBy (t : Task) (a b : BitVec 5) : BitVec 5 := if areOrdered t a b then 0 else 1

def fcmpOp : Instr → Option FcmpOp
  | .fcmpEq b a o d g => some ⟨d, o, g, fun t =>
      areOrdered t a b && decide (orderKey (fGet t a) = orderKey (fGet t b)), fun _ => 0⟩
  | .fcmpNe b a o d g => some ⟨d, o, g, fun t =>
      !areOrdered t a b || decide (orderKey (fGet t a) ≠ orderKey (fGet t b)), fun _ => 0⟩
  | .fcmpLt b a o d g => some ⟨d, o, g, fun t =>
      areOrdered t a b && decide (orderKey (fGet t a) < orderKey (fGet t b)), fun t => raisedBy t a b⟩
  | .fcmpLe b a o d g => some ⟨d, o, g, fun t =>
      areOrdered t a b && decide (orderKey (fGet t a) ≤ orderKey (fGet t b)), fun t => raisedBy t a b⟩
  | .fcmpUn b a o d g => some ⟨d, o, g, fun t => !areOrdered t a b, fun _ => 0⟩
  | .fcmpOrd b a o d g => some ⟨d, o, g, fun t => areOrdered t a b, fun _ => 0⟩
  | _ => none

/-- R92, R94, R98, R99. -/
def FloatResultsPart : Prop :=
  ∀ (i : Instr) (op : RoundOp) (s : State) (t : Task), roundOp i = some op → Executes i op.guard s t →
    exec i s =
      if traps t (op.value t).flags then
        .next (takeTrap causeFpexc ((op.value t).flags.setWidth 64) (putTask s s.here (noted t (op.value t).flags)))
      else .next (retire s (fSet (noted t (op.value t).flags) op.dest (BitVec.ofNat 32 (op.value t).bits)) 4)

/-- R99, R100: FCVT to an integer format. -/
def FloatToIntegerPart : Prop :=
  ∀ (x y : BitVec 3) (r a d : BitVec 5) (g : BitVec 4) (s : State) (t : Task) (w : Nat) (sg : Bool),
    4 ≤ y.toNat → w = (if y.toNat < 6 then 32 else 64) → sg = (y.toNat % 2 == 0) → Executes (.fcvt x y r a d g) g s t →
    let q := roundInt w sg (modeOf r.toNat) (sourceOf t x a)
    exec (.fcvt x y r a d g) s =
      if traps t q.2 then .next (takeTrap causeFpexc (q.2.setWidth 64) (putTask s s.here (noted t q.2)))
      else .next (retire s (gSet (noted t q.2) d
        (if w = 32 then (if sg then (BitVec.ofInt 32 q.1).signExtend 64 else (BitVec.ofInt 32 q.1).setWidth 64)
         else BitVec.ofInt 64 q.1)) 4)

/-- R94, R96, R97. -/
def FloatMovesPart : Prop :=
  (∀ (i : Instr) (op : BitsOp) (s : State) (t : Task), bitsOp i = some op → Executes i op.guard s t →
    exec i s = .next (retire s (fSet t op.dest (op.value t)) 4)) ∧
  (∀ (a d : BitVec 5) (g : BitVec 4) (s : State) (t : Task),
    (Executes (.fmvg a d g) g s t →
      exec (.fmvg a d g) s = .next (retire s (gSet t d (BitVec.ofNat 64 (fGet t a).toNat)) 4)) ∧
    (Executes (.fclass a d g) g s t →
      exec (.fclass a d g) s = .next (retire s (gSet t d (BitVec.ofNat 64 (2 ^ classOf (fGet t a)))) 4)))

/-- R101, R39: FRND draws k fresh bits, consumed even where FPEXC is taken. -/
def StochasticRoundingPart : Prop :=
  ∀ (x : BitVec 2) (k : BitVec 4) (a d : BitVec 5) (g : BitVec 4) (s : State) (t : Task), Executes (.frnd x k a d g) g s t →
    ∃ rho, rho < 2 ^ (k.toNat + 1) ∧
      let fmt := if x = 0#2 then b16 else if x = 1#2 then f16 else fnFmt t.fnsel
      let r := roundTo fmt (.sr (k.toNat + 1) rho) (x == 3#2) (fval t a)
      let drawn : State := { s with draws := s.draws + 1 }
      exec (.frnd x k a d g) s =
        if traps t r.flags then .next (takeTrap causeFpexc (r.flags.setWidth 64) (putTask drawn s.here (noted t r.flags)))
        else .next (retire drawn (fSet (noted t r.flags) d (BitVec.ofNat 32 r.bits)) 4)

/-- R102. -/
def FloatComparesPart : Prop :=
  ∀ (i : Instr) (op : FcmpOp) (s : State) (t : Task), fcmpOp i = some op → Executes i op.guard s t →
    exec i s =
      if traps t (op.raised t) then
        .next (takeTrap causeFpexc ((op.raised t).setWidth 64) (putTask s s.here (noted t (op.raised t))))
      else .next (retire s (pSet (noted t (op.raised t)) op.dest
        (combined op.comb (pGet t op.dest) (op.cond t))) 4)

/-- The core's L1 word at `w`, if it is one a store may merge with: registered, on the way to be, or of the task's context
(R193, R201). -/
def mergeable (s : State) (t : Task) (w : Nat) (x : L1Word) : Prop :=
  tget (coreAt s (hereCore s)).l1 w = some x ∧ (x.own ≠ .clean ∨ t.ctx.toNat ∈ x.ctxs)

/-- The word at `w` after a weak store of `size` bytes of `v` at `va`: the bytes the store meets are v's, the others those of
`old` (R82, R198). -/
def storedWord (va size w : Nat) (v : Dword) (old new : Word) : Prop :=
  ∀ n, n < 4 →
    new.extractLsb' (8 * n) 8 =
      if va ≤ w + n ∧ w + n < va + size then v.extractLsb' (8 * (w + n - va)) 8 else old.extractLsb' (8 * n) 8

/-- The packet a slot sends in state `s`. -/
def sent (s : State) (t : Task) (dst : Nat) (b : Body) : Packet :=
  { id := s.nextId, src := s.here, dst := dst, launch := t.launch, body := b }

/-- What a weak store to a granted line leaves (R201): each word it meets lies in the core's L1 with the stored value, owned
or on the way to be; a single word that no one owned is registered by one request, which the task's list names. -/
structure WeaklyStored (s u : State) (t : Task) (va size : Nat) (v : Dword) (len : Nat) : Prop where
  words : ∀ w, w % 4 = 0 → w < va + size → va < w + 4 →
    ∃ x, tget (coreAt u (hereCore s)).l1 w = some x ∧ t.ctx.toNat ∈ x.ctxs ∧ x.own ≠ .clean ∧
      (4 ≤ size → storedWord va size w v 0 x.val) ∧ (∀ y, mergeable s t w y → storedWord va size w v y.val x.val)
  stored : u.mem = s.mem
  owned : size ≤ 4 → (∃ y, tget (coreAt s (hereCore s)).l1 (va / 4 * 4) = some y ∧ y.own = .registered) →
    u.net = s.net ∧ taskAt u s.here = some (past t len)
  asks : size ≤ 4 → (∀ y, tget (coreAt s (hereCore s)).l1 (va / 4 * 4) = some y → y.own = .clean) →
    (∀ o ∈ t.outs, o.id ≠ s.nextId) →
    u.net = s.net ++ [sent s t (homeFor s (va / 4 * 4)) (.reg (va / 4 * 4) t.ctx.toNat s.here t.uid t.tag)] ∧
    taskAt u s.here = some (past { t with outs := t.outs ++ [{ id := s.nextId, va := va / 4 * 4, kind := 0 }] } len)

/-- The line of an address is granted for writing to the task's context in its core (R201), a store narrower than a word
finds the word, the L1 has room for the line or holds a word of it, and no word of it is on its way home (R213). -/
def mayStore (s : State) (t : Task) (va size : Nat) : Prop :=
  (va / 32 * 32, t.ctx.toNat) ∈ (coreAt s (hereCore s)).grants ∧ (size < 4 → ∃ x, mergeable s t (va / 4 * 4) x) ∧
    ((coreAt s (hereCore s)).l1.length < 256 ∨
      ∃ x ∈ (coreAt s (hereCore s)).l1, x.2.row = true ∧ x.1 / 32 = va / 32) ∧
    (∀ w x, w < va + size → va < w + 4 → tget (coreAt s (hereCore s)).l1 w = some x → x.own ≠ .leaving) ∧
    (∀ w, w < va + size → va < w + 4 → writeBackOut s (hereCore s) w = false)

/-- A handle names a volume of the task's own package (R247). -/
def ownVolume (s : State) (h : Dword) : Prop := homePkg (tilePkg (hereTile s)) h.toNat = tilePkg (hereTile s)

/-- The CLB of the task's core holds the volume of a handle, which is one of its package (R239, R247). -/
def clbVolume (s : State) (t : Task) (h : Dword) (v : Volume) : Prop :=
  ownVolume s h ∧
    (coreAt s (hereCore s)).vols.find? (fun x => x.ctx == t.ctx.toNat && x.handle == h.toNat) = some v

/-- The CLB holds the block of a tile of the volume (R239). -/
def clbBlock (s : State) (t : Task) (h : Dword) (tile block : Nat) : Prop :=
  ∃ x, (coreAt s (hereCore s)).clb.find? (fun y => y.ctx == t.ctx.toNat && y.handle == h.toNat && y.tile == tile) = some x ∧
    x.block = block

/-- The registers of the coordinates are the task's, and the second holds no spoilt value (R12, R244, R338). -/
def coordinates (t : Task) (v : Volume) (b : BitVec 5) : Prop :=
  v.rank < 3 ∨ (b.toNat + 1 < t.gcount ∧ b.toNat + 1 ∉ t.spoilt)

/-- A coordinate of the pair G(b), G(b+1) (R244). -/
def coord (t : Task) (b : BitVec 5) (n : Nat) : Nat :=
  (gGet t (b + BitVec.ofNat 5 (n / 2))).toNat / 2 ^ (32 * (n % 2)) % 2 ^ 32

/-- A cell lies within the extents (R237). -/
def inside (t : Task) (v : Volume) (b : BitVec 5) : Prop := ∀ n, n < v.rank → coord t b n < v.ext.getD n 0

/-- The numbers of the tiles of a dimension take so many bits (R235): the least that hold them. -/
def fieldOf (x : Volume) (n w : Nat) : Prop :=
  (x.ext.getD n 0 + 2 ^ x.ts.getD n 0 - 1) / 2 ^ x.ts.getD n 0 ≤ 2 ^ w ∧
    ∀ m, m < w → 2 ^ m < (x.ext.getD n 0 + 2 ^ x.ts.getD n 0 - 1) / 2 ^ x.ts.getD n 0

/-- An AMOC: its operation of R220, word number, coordinates, handle, operand and guard (R244). -/
structure AmocOp where
  op : Nat
  word : BitVec 3
  b : BitVec 5
  a : BitVec 5
  d : BitVec 5
  guard : BitVec 4

def amocOp : Instr → Option AmocOp
  | .amocAdd w b a d g => some ⟨0, w, b, a, d, g⟩
  | .amocFadd w b a d g => some ⟨9, w, b, a, d, g⟩
  | .amocMin w b a d g => some ⟨4, w, b, a, d, g⟩
  | .amocMax w b a d g => some ⟨5, w, b, a, d, g⟩
  | .amocFmax w b a d g => some ⟨11, w, b, a, d, g⟩
  | .amocXchg w b a d g => some ⟨8, w, b, a, d, g⟩
  | _ => none

/-- The background bytes of an element at byte `e` of a cell (R234). -/
def backgroundOf (v : Volume) (e size : Nat) : Dword := BitVec.ofNat 64 (v.bg.toNat / 2 ^ (8 * (e % 8)) % 2 ^ (8 * size))

/-- An access by coordinates: its handle, coordinates, first byte within the cell, bytes, guard. -/
structure CellOp where
  a : BitVec 5
  b : BitVec 5
  d : BitVec 5
  e : Nat
  size : Nat
  guard : BitVec 4

def cellOp : Instr → Option CellOp
  | .ldc im z b a d g => some ⟨a, b, d, im.toNat * 2 ^ z.toNat, 2 ^ z.toNat, g⟩
  | .stc im z b a d g => some ⟨a, b, d, im.toNat * 2 ^ z.toNat, 2 ^ z.toNat, g⟩
  | i => (amocOp i).map (fun o => ⟨o.a, o.b, o.d, 4 * o.word.toNat, 4, o.guard⟩)

/-- What the instruction leaves in gd when its cell is out of bounds: the background, but for a store. -/
def outside (i : Instr) (o : CellOp) (v : Volume) (t : Task) : Task :=
  match i with
  | .stc _ _ _ _ _ _ => t
  | _ => gSet t o.d (backgroundOf v o.e o.size)

/-- R204: a weak load whose fill has arrived: each word is the L1's, or the fill's. -/
def LoadsFilledPart : Prop :=
  ∀ (i : Instr) (op : LoadOp) (s : State) (t : Task) (r : Reply), loadOp i = some op → op.kind = 0 → op.size ≤ 4 →
    Executes i op.guard s t → t.inl = none → Addressed t op.base (op.ea t) op.size →
    placeOf s (hereTile s) (op.ea t).toNat = .global → ownOut s t 2 (op.ea t).toNat op.size = false →
    (∀ x, tget (coreAt s (hereCore s)).l1 ((op.ea t).toNat / 4 * 4) = some x → t.ctx.toNat ∉ x.ctxs) →
    t.pend.log.lookup (.fill ((op.ea t).toNat / 32 * 32) false) = some r →
    let w := r.data.getD ((op.ea t).toNat % 32 / 4) 0
    exec i s =
      if r.cause ≠ 0#8 then .next (takeTrap r.cause (op.ea t) s)
      else if w.getLsbD 32 then .next (takeTrap causeOwnerlost (op.ea t) s)
      else if w.getLsbD 33 then .next (takeTrap causeMcheck (op.ea t) s)
      else .next (retire s (gSet t op.dest (BitVec.ofNat 64
        (w.toNat % 2 ^ 32 / 2 ^ (8 * ((op.ea t).toNat % 4)) % 2 ^ (8 * op.size)))) i.length)

/-- R201: weak stores to a line that is granted. -/
def StoresInL1Part : Prop :=
  ∀ (i : Instr) (op : StoreOp) (s : State) (t : Task), storeOp i = some op → op.kind = 0 →
    Executes i op.guard s t → t.inl = none → Addressed t op.base (op.ea t) op.size →
    placeOf s (hereTile s) (op.ea t).toNat = .global → ownOut s t 2 (op.ea t).toNat op.size = false →
    mayStore s t (op.ea t).toNat op.size →
    ∃ u, exec i s = .next u ∧ WeaklyStored s u t (op.ea t).toNat op.size (gGet t op.src) i.length

/-- R214, R215: strong and release stores whose reply has come. -/
def StoresAnsweredPart : Prop :=
  ∀ (i : Instr) (op : StoreOp) (s : State) (t : Task) (r : Reply), storeOp i = some op → op.kind ≠ 0 →
    Executes i op.guard s t → t.inl = none → Addressed t op.base (op.ea t) op.size →
    (op.kind = 1 → t.pubs = []) → (op.kind = 3 → Quiet s t) → ownOut s t 2 (op.ea t).toNat op.size = false →
    ((∃ v k off, placeOf s (hereTile s) (op.ea t).toNat = .placed v k off ∧ k ≠ hereTile s ∧
        t.pend.log.lookup (.placedStore (op.ea t).toNat op.size 0
          (BitVec.ofNat 64 ((gGet t op.src).toNat % 2 ^ (8 * op.size)))) = some r) ∨
      (placeOf s (hereTile s) (op.ea t).toNat = .global ∧ ownSettled s t (op.ea t).toNat op.size = true ∧
        t.pend.log.lookup (.strongStore (op.ea t).toNat op.size (gGet t op.src)) = some r)) →
    exec i s = if r.cause = 0#8 then .next (retire s t i.length) else .next (takeTrap r.cause (op.ea t) s)

/-- R215: a weak store to another tile's placed memory retires once it is sent. -/
def StoresSentPart : Prop :=
  ∀ (i : Instr) (op : StoreOp) (s : State) (t : Task) (v : Bool) (k off : Nat), storeOp i = some op → op.kind = 0 →
    Executes i op.guard s t → t.inl = none → Addressed t op.base (op.ea t) op.size →
    placeOf s (hereTile s) (op.ea t).toNat = .placed v k off → k ≠ hereTile s →
    placedCause s t.ctx v k off = none → (v = true → resizing s k (off / 2 ^ 19) = false) →
    ownOut s t 2 (op.ea t).toNat op.size = false → (∀ o ∈ t.outs, o.id ≠ s.nextId) →
    ∃ u, exec i s = .next u ∧ u.mem = s.mem ∧ u.cores = s.cores ∧ u.tiles = s.tiles ∧
      u.net = s.net ++ [sent s t (homeCore k) (.placed v k off op.size t.ctx.toNat true true 0
          (BitVec.ofNat 64 ((gGet t op.src).toNat % 2 ^ (8 * op.size))) t.tag)] ∧
      taskAt u s.here = some (past { t with outs := t.outs ++ [{ id := s.nextId, va := (op.ea t).toNat, kind := 1 }] } i.length)

/-- R199, R214, R123: a strong load of global memory that has not asked yet sends its request to the home and waits. -/
def StrongLoadsAskPart : Prop :=
  ∀ (i : Instr) (op : LoadOp) (s : State) (t : Task), loadOp i = some op → op.kind ≠ 0 →
    Executes i op.guard s t → t.inl = none → Addressed t op.base (op.ea t) op.size → t.pubs = [] →
    placeOf s (hereTile s) (op.ea t).toNat = .global → ownSettled s t (op.ea t).toNat op.size = true →
    ownOut s t 2 (op.ea t).toNat op.size = false → t.pend = .idle →
    ∃ u, exec i s = .next u ∧ u.mem = s.mem ∧ u.cores = s.cores ∧ u.tiles = s.tiles ∧
      u.net = s.net ++ [sent s t (homeCore (homeTile s (tilePkg (hereTile s)) (op.ea t).toNat)) (.strong (op.ea t).toNat op.size t.ctx.toNat t.priv false 0)] ∧
      taskAt u s.here = some { t with pend :=
        { want := some (.strongLoad (op.ea t).toNat op.size), req := s.nextId, log := [], word := none } }

/-- R235, R237: the tile number and the position of a cell, for every rank. -/
def CellsLocatedPart : Prop :=
  ∀ (t : Task) (b : BitVec 5) (v : Volume), 1 ≤ v.rank → v.rank ≤ 4 → v.ext.length = v.rank → v.ts.length = v.rank →
    (¬inside t v b → locate v (coordsOf t b) = none) ∧
    (inside t v b → ∀ w : Nat → Nat, (∀ n, n < v.rank → fieldOf v n (w n)) →
      locate v (coordsOf t b) = some
        (((List.range v.rank).map (fun n => coord t b n / 2 ^ v.ts.getD n 0 * 2 ^ ((List.range n).map w).sum)).sum,
         ((List.range v.rank).map (fun n => coord t b n % 2 ^ v.ts.getD n 0 *
            2 ^ ((List.range n).map (fun m => v.ts.getD m 0)).sum)).sum))

/-- R239, R244: LDC, STC and AMOC of a cell whose volume and block the CLB holds. -/
def CellAccessesPart : Prop :=
  ∀ (i : Instr) (o : CellOp) (s : State) (t : Task) (v : Volume) (tile q block : Nat), cellOp i = some o →
    Executes i o.guard s t → clbVolume s t (gGet t o.a) v → coordinates t v o.b → o.e + o.size ≤ 2 ^ v.clog2 →
    locate v (coordsOf t o.b) = some (tile, q) → clbBlock s t (gGet t o.a) tile block → block ≠ 0 →
    let va := block + (q * 2 ^ v.clog2 + o.e)
    ownOut s t 2 va o.size = false →
    (∀ im z b a d g, i = .ldc im z b a d g → o.size ≤ 4 → va % o.size = 0 → ∀ x, inL1 s t (va / 4 * 4) x →
      exec i s = .next (retire s (gSet t d (BitVec.ofNat 64 (x.val.toNat / 2 ^ (8 * (va % 4)) % 2 ^ (8 * o.size)))) 4)) ∧
    (∀ im z b a d g, i = .stc im z b a d g → va % o.size = 0 → mayStore s t va o.size →
      ∃ u, exec i s = .next u ∧ WeaklyStored s u t va o.size (gGet t d) 4) ∧
    (∀ m r, amocOp i = some m → va < 2 ^ 48 → placeOf s (hereTile s) va = .global → t.pubs = [] → ownSettled s t va 4 = true →
      (.atomic va 4 m.op (BitVec.ofNat 64 ((gGet t m.d).toNat % 2 ^ 32)) 0, r) ∈ t.pend.log →
      (∀ x ∈ t.pend.log, ∀ n z p y c, x.1 = .atomic n z p y c →
        x = (.atomic va 4 m.op (BitVec.ofNat 64 ((gGet t m.d).toNat % 2 ^ 32)) 0, r)) →
      exec i s = if r.cause = 0#8 then .next (retire s (gSet t m.d r.val) 4)
        else .next (takeTrap r.cause (BitVec.ofNat 64 va) s))

/-- R234, R241, R243, R244: an element that leaves its cell traps, and a cell out of bounds traps or takes no part. -/
def CellBoundsPart : Prop :=
  ∀ (i : Instr) (o : CellOp) (s : State) (t : Task) (v : Volume), cellOp i = some o →
    Executes i o.guard s t → t.pend = .idle → clbVolume s t (gGet t o.a) v → coordinates t v o.b →
    (2 ^ v.clog2 < o.e + o.size → exec i s = .next (takeTrap causeVolbounds (gGet t o.a ||| 2) s)) ∧
    (o.e + o.size ≤ 2 ^ v.clog2 → locate v (coordsOf t o.b) = none → v.strict = true →
      exec i s = .next (takeTrap causeVolbounds (gGet t o.a ||| 1) s)) ∧
    (o.e + o.size ≤ 2 ^ v.clog2 → locate v (coordsOf t o.b) = none → v.strict = false →
      ∃ u, exec i s = .next u ∧ taskAt u s.here = some (past (outside i o v t) 4))

/-- R247: a task's own access names no volume of another package. -/
def CellsElsewherePart : Prop :=
  ∀ (i : Instr) (o : CellOp) (s : State) (t : Task), cellOp i = some o → Executes i o.guard s t → t.pend = .idle →
    isGlobal (gGet t o.a).toNat = true → ¬ownVolume s (gGet t o.a) →
    exec i s = .next (takeTrap causeProt (gGet t o.a) s)

/-- A send: its guard, the header it makes before the phase tag, its payload, and whether its register keeps the reserved
bits clear (R129, Table 1). -/
structure SendOp where
  guard : BitVec 4
  header : Task → Dword
  payload : Task → List Dword
  clean : Task → Bool

def sendOp : Instr → Option SendOp
  | .send c r n b a g => some ⟨g,
      fun t => BitVec.ofNat 64 (c.toNat * 2 ^ 46 + t.ctx.toNat * 2 ^ 35 + (gGet t a).toNat / 2 ^ 27 % 8 * 2 ^ 27 +
        n.toNat * 2 ^ 25 + r.toNat * 2 ^ 24 + (gGet t a).toNat % 2 ^ 24),
      fun t => (List.range (2 ^ n.toNat)).map (fun k => gGet t (b + BitVec.ofNat 5 k)),
      fun t => (gGet t a).toNat / 2 ^ 30 == 0 && (gGet t a).toNat / 2 ^ 24 % 8 == 0⟩
  | .sendx n b a g => some ⟨g,
      fun t => BitVec.ofNat 64 ((gGet t a).toNat / 2 ^ 27 * 2 ^ 27 + n.toNat * 2 ^ 25 + (gGet t a).toNat % 2 ^ 25),
      fun t => (List.range (2 ^ n.toNat)).map (fun k => gGet t (b + BitVec.ofNat 5 k)),
      fun _ => true⟩
  | _ => none

/-- A header with the task's phase tag in place of the one it has (R129, R130). -/
def tagged (t : Task) (h : Dword) : Dword :=
  if t.tag.toNat < 16 then
    BitVec.ofNat 64 (h.toNat / 2 ^ 35 * 2 ^ 35 + t.tag.toNat * 2 ^ 31 + 2 ^ 30 + h.toNat % 2 ^ 30)
  else h

/-- The NI can send at once: the receiving tile takes the context's messages, and a credit is held or free (R110, R346,
R348). -/
structure MaySend (s : State) (t : Task) (dst cls : Nat) (ctx : BitVec 11) : Prop where
  takes : pkgPresent s (tilePkg (coreTile dst)) = true → cls ≠ 2 →
    accepts s (coreTile dst) ctx = true ∧ (32 ≤ cls → queuedOn s (coreTile dst) ctx < 65535)
  credit : (∃ r, t.pend.log.lookup (.credit dst cls) = some r) ∨ creditFree s dst (hereTile s) cls = true

/-- A message with release waits for the task's earlier work, one without for its publication points (R130, R231). -/
def ordered (s : State) (t : Task) (rel : Bool) : Prop := if rel then Quiet s t else t.pubs = []

/-- What a message that leaves does: one packet, the task past its instruction, memory as it was. -/
structure Sends (s u : State) (t : Task) (dst : Nat) (h : Dword) (payload : List Dword) : Prop where
  net : u.net = s.net ++ [sent s t dst (.msg h payload)]
  task : taskAt u s.here = some (past t 4)
  mem : u.mem = s.mem
  count : ∀ ctx id, (launchAt u ctx id).counter = (launchAt s ctx id).counter +
    if (32 ≤ hdrClass h ∨ hdrClass h = 4) ∧ launchKey ctx id = launchKey (hdrCtx h) t.launch then 1 else 0

/-- A record offset that R134 accepts, in an LM bank of the context. -/
def recordAt (s : State) (t : Task) (off : Dword) : Prop :=
  off ≠ 0 ∧ off.toNat % 64 = 0 ∧ off.toNat ≤ 0xFFFC0 ∧ placedCause s t.ctx false (hereTile s) off.toNat = none

/-- A word of the task's own LM. -/
def wordAt (s : State) (off : Nat) : Nat := cellsGet s.mem (lmKey (hereTile s) off) 4

/-- A routine may run as the inline fallback of a spawner (R138): its counts are the spawner's at most, the depth is below 15, and
the frame lies in one bank of the context above SLIM; what the frame takes holds no spoilt value (R338). -/
def mayFallBack (s : State) (t : Task) (e : Dword) : Prop :=
  8 * (e.toNat / 2 ^ 59 % 4 + 1) ≤ t.gcount ∧ 8 * (e.toNat / 2 ^ 57 % 4 + 1) ≤ t.fcount ∧ t.fbDest.length < 15 ∧
    t.inl = none ∧ 32 ≤ (gGet t 2).toNat ∧ t.slim.toNat ≤ (gGet t 2).toNat - 32 ∧ (gGet t 2).toNat % 8 = 0 ∧
    (gGet t 2).toNat ≤ 2 ^ 20 ∧ bankHeld s (hereTile s) t.ctx ((gGet t 2).toNat - 32) = true ∧
    ((gGet t 2).toNat - 1) / 2 ^ 16 = ((gGet t 2).toNat - 32) / 2 ^ 16 ∧ (tileAt s (hereTile s)).fenced = false ∧ s.stored ∧
    (∀ n, 1 ≤ n → n ≤ 3 → n ∉ t.spoilt) ∧ (∀ k, k < 4 → ownOut s t 2 ((gGet t 2).toNat - 32 + 8 * k) 8 = false)

/-- What the inline fallback leaves (R138): its frame on the stack, g1 to g3, and the pc at the routine. -/
structure FallenBack (s u : State) (t : Task) (d : BitVec 5) (e : Dword) : Prop where
  task : ∃ v, taskAt u s.here = some v ∧ gGet v 2 = gGet t 2 - 32 ∧ gGet v 1 = 0 ∧ gGet v 3 = 0 ∧
    v.pc.toNat = e.toNat % 2 ^ 20 ∧ v.lcount = t.lcount ∧ v.fbDest = d :: t.fbDest ∧ v.fbFrame = gGet t 2 - 32
  back : cellsGet u.mem (lmKey (hereTile s) ((gGet t 2).toNat - 32)) 8 = t.pc.toNat + 4
  first : cellsGet u.mem (lmKey (hereTile s) ((gGet t 2).toNat - 24)) 8 = (gGet t 1).toNat
  third : cellsGet u.mem (lmKey (hereTile s) ((gGet t 2).toNat - 16)) 8 = (gGet t 3).toNat
  frame : cellsGet u.mem (lmKey (hereTile s) ((gGet t 2).toNat - 8)) 8 = t.fbFrame.toNat

/-- A tile drives the line of a declared slot high (R121): its count is 0; no registration and no store to another tile that it sent
under the tag is in flight; no task of the tag is resident or queued, and no command of it is unfinished. The context's grant
must be valid (R348), and no gang of it late (R371). -/
def drivesHigh (s : State) (tile n : Nat) : Prop :=
  (phaseAt (tileAt s tile) n).remain = 0 ∧
  (∀ p ∈ s.net, slotTile p.src = tile →
    (∀ va c k uid tag, p.body = .reg va c k uid tag → tag.toNat ≠ n) ∧
    (∀ v k off z c w op x tag, p.body = .placed v k off z c true w op x tag → tag.toNat ≠ n)) ∧
  (∀ t ∈ s.tasks, slotTile t.1 = tile → t.2.inl = none → t.2.tag.toNat ≠ n) ∧
  (∀ c ∈ s.cores, coreTile c.1 = tile → (∀ e ∈ c.2.entries, e.tag.toNat ≠ n) ∧
    (∀ e ∈ c.2.ring, e.tag.toNat = n → e.state = 3 ∨ e.state = 4 ∨ e.state = 6)) ∧
  (∀ e ∈ (tileAt s tile).postq, e.tag.toNat ≠ n) ∧
  (∃ g ∈ (tileAt s tile).grants.toList, grantValid g = true ∧ grantCtx g = (phaseAt (tileAt s tile) n).ctx) ∧
  (∀ g ∈ (pkgAt s (tilePkg tile)).gangs, g.2.ctx = (phaseAt (tileAt s tile) n).ctx.toNat → g.2.state ≠ 2)

/-- R141, Table 5. -/
def tinfoValue (s : State) (t : Task) (sel : Nat) : Dword :=
  match sel with
  | 0 => t.sender.setWidth 64
  | 1 => t.sslot.setWidth 64
  | 2 => t.slaunch.setWidth 64
  | 3 => BitVec.ofNat 64 t.how
  | 4 => BitVec.ofNat 64 t.cls
  | 5 => BitVec.ofNat 64 (hereTile s / 1024 * 2 ^ 30 + hereTile s % 1024 * 2 ^ 20)
  | 6 => if t.tag.toNat < 16 then BitVec.ofNat 64 (16 + t.tag.toNat) else 0
  | 7 => BitVec.ofNat 64 (coreAt s (hereCore s)).inlineViol
  | 8 => BitVec.ofNat 64 (coreAt s (hereCore s)).malformed
  | 9 => BitVec.ofNat 64 (coreAt s (hereCore s)).stray
  | 10 => BitVec.ofNat 64 (coreAt s (hereCore s)).landDisc
  | 11 => BitVec.ofNat 64 (if slotsOf (hereCore s) = 4 then 0 else 64 - spawnQueued s (hereCore s))
  | 12 => BitVec.ofNat 64 t.budget
  | 13 => BitVec.ofNat 64 (tileAt s (hereTile s)).trapevDrops
  | _ => ~~~0

/-- CANCEL: level, identifier's register, guard (R144). -/
def cancelOp : Instr → Option (Nat × BitVec 5 × BitVec 4)
  | .cancelLaunch a g => some (0, a, g)
  | .cancelGraph a g => some (1, a, g)
  | .cancelPhase a g => some (2, a, g)
  | .cancelJob a g => some (3, a, g)
  | _ => none

/-- The identifier is one that R144 admits at a level. -/
def cancelOk (s : State) (t : Task) (level : Nat) (a : BitVec 5) : Prop :=
  match level with
  | 0 => (gGet t a).toNat < 2 ^ 32
  | 1 => 1 ≤ (gGet t a).toNat ∧ (gGet t a).toNat < 2 ^ 16
  | 2 => (gGet t a).toNat < 16 ∧ granted s (hereTile s) t.ctx grantLines (gGet t a).toNat = true
  | _ => a = 0 ∨ (t.priv ≠ 0 ∧ (gGet t a).toNat < 2 ^ 11 ∧ inPartition s t (gGet t a).toNat = true)

/-- The context and the identifier a cancel names. -/
def cancelCtx (t : Task) (level : Nat) (a : BitVec 5) : Nat := if level = 3 ∧ a ≠ 0 then (gGet t a).toNat else t.ctx.toNat
def cancelId (t : Task) (level : Nat) (a : BitVec 5) : Nat := if level = 3 then 0 else (gGet t a).toNat

/-- R129, R130, R110. -/
def MessagesSentPart : Prop :=
  ∀ (i : Instr) (op : SendOp) (s : State) (t : Task), sendOp i = some op → Executes i op.guard s t →
    op.clean t = true → headerOk s (hereTile s) t (tagged t (op.header t)) (op.payload t) = true →
    ordered s t ((tagged t (op.header t)).getLsbD 24) →
    MaySend s t (destOf s (hereTile s) (tagged t (op.header t)) (op.payload t)) (hdrClass (tagged t (op.header t)))
      (hdrCtx (tagged t (op.header t))) →
    ∃ u, exec i s = .next u ∧
      Sends s u t (destOf s (hereTile s) (tagged t (op.header t)) (op.payload t)) (tagged t (op.header t)) (op.payload t)

/-- R106, R108, R130, R132: what the NI refuses of a task at U. -/
def MessagesRefusedPart : Prop :=
  ∀ (n : BitVec 2) (b a : BitVec 5) (g : BitVec 4) (s : State) (t : Task) (op : SendOp), sendOp (.sendx n b a g) = some op →
    Executes (.sendx n b a g) g s t → t.priv = 0 →
    let h := tagged t (op.header t)
    h.extractLsb' 54 10 ≠ 0 ∨ h.extractLsb' 35 11 ≠ t.ctx ∨
        (h.extractLsb' 46 8).toNat ∈ [7, 8, 10, 11, 13, 14, 15, 16, 18, 19, 20, 21, 22, 23, 24, 25, 26, 27, 28, 29, 30, 31] ∨
        (h.extractLsb' 27 3 ≠ 0 ∧ h.extractLsb' 46 8 ≠ 9) ∨ 4 < (h.extractLsb' 27 3).toNat →
      exec (.sendx n b a g) s = .next (takeTrap causeProt h s)

/-- R25, R138, R139: TEND and C.TEND. -/
def TasksEndPart : Prop :=
  ∀ (i : Instr) (g : BitVec 4) (s : State) (t : Task), (i = .tend g ∨ (i = .cTend ∧ g = always)) →
    Executes i g s t →
    (t.inl = none → t.fbDest = [] → t.refused = none → t.lost = [] →
      ∃ u, exec i s = .next u ∧ taskAt u s.here = none ∧
        ((∀ e ∈ s.ending, ¬(e.ctx = t.ctx ∧ e.launch = t.launch)) →
          (t.outs = [] → cmdsPending u t.uid = false →
            (launchAt u t.ctx t.launch).counter = (launchAt s t.ctx t.launch).counter - 1) ∧
          ((t.outs ≠ [] ∨ cmdsPending u t.uid = true) →
            (launchAt u t.ctx t.launch).counter = (launchAt s t.ctx t.launch).counter ∧
            ∃ e ∈ u.ending, e.uid = t.uid ∧ e.ctx = t.ctx ∧ e.launch = t.launch))) ∧
    (t.inl ≠ none → ∃ u, exec i s = .next u ∧ taskAt u s.here = none) ∧
    (∀ d r off, t.inl = none → t.fbDest = d :: r → t.fbFrame.toNat = off → off + 32 ≤ 2 ^ 20 →
      (∀ n, n < 32 → bankHeld s (hereTile s) t.ctx (off + n) = true) → (tileAt s (hereTile s)).fenced = false →
      spoiltAt s (lmKey (hereTile s) off) 32 = false → (∀ k, k < 4 → ownOut s t 2 (off + 8 * k) 8 = false) →
      (cellsGet s.mem (lmKey (hereTile s) off) 8 % 2 = 1 →
        exec i s = .next (takeTrap causeMisalign (BitVec.ofNat 64 (cellsGet s.mem (lmKey (hereTile s) off) 8)) s)) ∧
      (cellsGet s.mem (lmKey (hereTile s) off) 8 % 2 = 0 → ∃ u v, exec i s = .next u ∧ taskAt u s.here = some v ∧ u.mem = s.mem ∧ v.fbDest = r ∧
        v.pc.toNat = cellsGet s.mem (lmKey (hereTile s) off) 8 % 2 ^ 48 ∧
        v.fbFrame.toNat = cellsGet s.mem (lmKey (hereTile s) (off + 24)) 8 ∧
        (d ≠ 1 → (gGet v 1).toNat = cellsGet s.mem (lmKey (hereTile s) (off + 8)) 8) ∧
        (d ≠ 3 → (gGet v 3).toNat = cellsGet s.mem (lmKey (hereTile s) (off + 16)) 8) ∧
        (d ≠ 2 → (gGet v 2).toNat = off + 32) ∧ (d ≠ 0 → gGet v d = 2) ∧
        (∀ n, n ≠ 1 → n ≠ 2 → n ≠ 3 → n ≠ d → gGet v n = gGet t n) ∧ v.f = t.f ∧ v.p = t.p))

/-- R140, R141, R143. -/
def TaskQueriesPart : Prop :=
  ∀ (a d : BitVec 5) (g : BitVec 4) (s : State) (t : Task),
    (∀ r, Executes (.elect a d g) g s t → t.pend.log.lookup (.elect (gGet t a)) = some r →
      exec (.elect a d g) s = .next (retire s (gSet t d r.val) 4)) ∧
    (Executes (.tinfo a d g) g s t →
      exec (.tinfo a d g) s = .next (retire s (gSet t d (tinfoValue s t (gGet t a).toNat)) 4)) ∧
    (Executes (.phstat a d g) g s t → (gGet t a).toNat < 16 →
      granted s (hereTile s) t.ctx grantLines (gGet t a).toNat = true →
      ∃ v : Dword, exec (.phstat a d g) s = .next (retire s (gSet t d v) 4) ∧
        let p := phaseAt (tileAt s (hereTile s)) (gGet t a).toNat
        v.extractLsb' 32 32 = BitVec.ofInt 32 p.remain ∧ v.extractLsb' 24 8 = p.done ∧ v.extractLsb' 12 12 = 0 ∧
        v.extractLsb' 8 4 = p.lstat ∧ v.extractLsb' 3 5 = 0 ∧ v.getLsbD 2 = p.ovr ∧ v.getLsbD 0 = p.decl ∧
        (v.getLsbD 1 = true ↔ p.decl = true ∧ drivesHigh s (hereTile s) (gGet t a).toNat)) ∧
    (Executes (.phstat a d g) g s t → 16 ≤ (gGet t a).toNat →
      exec (.phstat a d g) s = .next (takeTrap causeProt (gGet t a) s))

/-- R142: PHDECL acquires, one declaration goes to every listed tile, and it retires when all are accepted. -/
def PhasesDeclaredPart : Prop :=
  ∀ (a : BitVec 5) (g : BitVec 4) (s : State) (t : Task) (h : Dword) (ws : List Dword), Executes (.phdecl a g) g s t →
    (gGet t a).toNat % 8 = 0 → isGlobal (gGet t a).toNat = true → readSelf t (gGet t a).toNat s = .ok (h, s) →
    ws.length = (h.extractLsb' 16 16).toNat → 1 ≤ ws.length → h.extractLsb' 12 4 = 0 →
    ((h.extractLsb' 0 8).toNat = 0 ∨ 32 ≤ (h.extractLsb' 0 8).toNat) →
    (∀ n w, ws[n]? = some w → readSelf t ((gGet t a).toNat + 8 * (n + 1)) s = .ok (w, s) ∧ w.extractLsb' 23 9 = 0 ∧
      (w.extractLsb' 20 3).toNat ≤ 6 ∧ pkgPresent s (w.extractLsb' 10 10).toNat = true ∧
      granted s (tileKey (w.extractLsb' 10 10).toNat (w.extractLsb' 0 10).toNat) t.ctx grantLines
        (h.extractLsb' 8 4).toNat = true) →
    (∀ r, t.pend.log.lookup (.broadcast 5) = some r →
      (∀ p ∈ s.net, p.src = s.here → ∀ n c q e k l x ts, p.body ≠ .declare n c q e k l x ts) →
      exec (.phdecl a g) s = .next (retire s t 4)) ∧
    (t.pend.log.lookup (.broadcast 5) = none → ∃ u ps, exec (.phdecl a g) s = .next u ∧ u.mem = s.mem ∧
      (taskAt u s.here).map (fun v => (v.pc, v.pend.want)) = some (t.pc, some (.broadcast 6)) ∧
      u.cores = (acquireCore s (hereCore s)).cores ∧ u.net = s.net ++ ps ∧
      (∀ w ∈ ws, ∃ p ∈ ps, p.dst = homeCore (tileKey (w.extractLsb' 10 10).toNat (w.extractLsb' 0 10).toNat)) ∧
      (∀ p ∈ ps, ∃ count core tiles, p.body =
        .declare (h.extractLsb' 8 4).toNat count (h.extractLsb' 32 32) (h.extractLsb' 0 8).toNat core t.launch t.ctx tiles ∧
        count = ((ws.filter (fun w => homeCore (tileKey (w.extractLsb' 10 10).toNat (w.extractLsb' 0 10).toNat) == p.dst)).map
          (fun w => (w.extractLsb' 32 32).toNat)).sum) ∧
      (ps.map (·.dst)).Nodup)

/-- R110, R144: CANCEL is sent to every tile with work of the context, to each on a credit, and retires when all have applied it. -/
def CancelsPart : Prop :=
  ∀ (i : Instr) (level : Nat) (a : BitVec 5) (g : BitVec 4) (s : State) (t : Task), cancelOp i = some (level, a, g) →
    Executes i g s t → cancelOk s t level a →
    (∀ r, t.pend.log.lookup (.broadcast 2) = some r → r.data = [] →
      (∀ p ∈ s.net, p.src = s.here → ∀ x y z, p.body ≠ .cancel x y z) → exec i s = .next (retire s t 4)) ∧
    (t.pend.log.lookup (.broadcast 2) = none →
      ∃ u ps now later, exec i s = .next u ∧ u.net = s.net ++ ps ∧ u.mem = s.mem ∧
        workTiles s (BitVec.ofNat 11 (cancelCtx t level a)) = now ++ later ∧
        ps.map (fun p => (p.dst, p.body)) = now.map
          (fun k => (coreKey k 0, .cancel level (cancelCtx t level a) (cancelId t level a))) ∧
        ((∀ k ∈ workTiles s (BitVec.ofNat 11 (cancelCtx t level a)), ∃ r, t.pend.log.lookup (.credit (coreKey k 0) 2) = some r) →
          later = []) ∧
        (taskAt u s.here).map (fun v => (v.pc, v.pend.want)) = some (t.pc,
          some (match later with
            | [] => .broadcast 3
            | k :: _ => .credit (coreKey k 0) 2)))

/-- R144: the identifiers that take PROT. -/
def CancelsRefusedPart : Prop :=
  ∀ (i : Instr) (level : Nat) (a : BitVec 5) (g : BitVec 4) (s : State) (t : Task), cancelOp i = some (level, a, g) →
    Executes i g s t → ¬cancelOk s t level a → exec i s = .next (takeTrap causeProt (gGet t a) s)

/-- A field of a 256-bit map. -/
def field (w : BitVec 256) (lo n : Nat) : Nat := w.toNat / 2 ^ lo % 2 ^ n

/-- KIND of a map (R252): 0 DENSE, 1 VOLUME, 2 INDEX, 3 META. -/
def kind (w : BitVec 256) (k : Nat) : Bool := field w 53 2 == k
/-- An INDEX map with FMT N32, and one that holds keys. -/
def index (w : BitVec 256) : Bool := kind w 2 && field w 60 4 == 6
def keys (w : BitVec 256) : Bool := index w && field w 48 4 == 0

/-- An engine command with maps: its guard, completion signal, destination, source and second maps, and what the maps must
be at issue (R266, R270 to R276). -/
structure CmdOp where
  guard : BitVec 4
  signal : BitVec 3
  d : Option (BitVec 4)
  a : Option (BitVec 4)
  b : Option (BitVec 4)
  ok : State → Task → BitVec 256 → BitVec 256 → BitVec 256 → Bool

def cmdOp : Instr → Option CmdOp
  | .copy q a d g => some ⟨g, q, some d, some a, none, fun _ _ md ma _ => kind md 0 && kind ma 0⟩
  | .gath q b a d g => some ⟨g, q, some d, some a, some b, fun _ _ md ma mb => kind md 0 && (kind ma 0 || kind ma 1) && index mb⟩
  | .scat q b a d g => some ⟨g, q, some d, some a, some b, fun _ _ md ma mb => (kind md 0 || kind md 1) && kind ma 0 && index mb⟩
  | .scatAdd q b a d g => some ⟨g, q, some d, some a, some b, fun _ _ md ma mb => (kind md 0 || kind md 1) && kind ma 0 && index mb &&
      (!(kind md 1 || isGlobal (field md 0 48)) || [2, 3, 6, 7, 8].contains (field md 60 4))⟩
  | .kagg q b a d g => some ⟨g, q, some d, some a, some b, fun _ _ md ma mb => kind md 1 && kind ma 0 && keys mb⟩
  | .kaggO q b a d g => some ⟨g, q, some d, some a, some b, fun _ _ md ma mb => kind md 1 && kind ma 0 && keys mb⟩
  | .kbcast q b a d g => some ⟨g, q, some d, some a, some b, fun _ _ md ma mb => kind md 0 && kind ma 1 && keys mb⟩
  | .kisect q b a d g => some ⟨g, q, some d, some a, some b, fun _ _ md ma mb => kind md 0 && field md 60 4 == 6 && index ma && index mb &&
      field ma 48 4 == field mb 48 4⟩
  | .kfold q b d g => some ⟨g, q, some d, none, some b, fun _ _ md _ mb => kind md 1 && keys mb⟩
  | .kdirty q a d g => some ⟨g, q, some d, some a, none, fun _ _ md ma _ => kind md 0 && field md 60 4 == 6 && kind ma 1⟩
  | .convt h _ q a d g => some ⟨g, q, some d, some a, none, fun _ _ md ma _ => kind md 0 && kind ma 0 &&
      (h == 0#1 || decide (field md 0 48 < 2 ^ 20))⟩
  | .compress p q b a d g => some ⟨g, q, some d, some a, some b, fun _ _ md ma mb => kind md 0 && kind ma 0 && kind mb 3 &&
      field mb 60 4 == (if p = 1#1 then 5 else 4)⟩
  | .mma _ _ _ _ q b a g => some ⟨g, q, none, some a, some b, fun _ _ _ ma mb => kind ma 0 && kind mb 0⟩
  | .mmas _ _ _ _ q b a d g => some ⟨g, q, some d, some a, some b, fun _ _ md ma mb => kind ma 0 && kind mb 0 && kind md 3 &&
      (field md 60 4 == 4 || field md 60 4 == 5)⟩
  | .mzero _ q g => some ⟨g, q, none, none, none, fun _ _ _ _ _ => true⟩
  | .mldacc _ q a g => some ⟨g, q, none, some a, none, fun _ _ _ ma _ => kind ma 0⟩
  | .mstacc _ q d g => some ⟨g, q, some d, none, none, fun _ _ md _ _ => kind md 0⟩
  | .bfpa q b a d g => some ⟨g, q, some d, some a, some b, fun s t md ma mb =>
      [md, ma, mb].all (fun m => kind m 0 && field m 52 1 == 1) &&
        bfpaPlace s t.ctx (hereCore s) (field md 0 48) && bfpaPlace s t.ctx (hereCore s) (8 * field md 192 45)⟩
  | _ => none

/-- The map of a register, when the command names one. -/
def held (t : Task) (r : Option (BitVec 4)) (w : BitVec 256) : Prop :=
  match r with
  | some n => tget t.tms n.toNat = some w
  | none => w = 0

/-- Semaphore n of the executing tile (R251). -/
def semOf (s : State) (n : BitVec 4) : BitVec 16 := (tileAt s (hereTile s)).sems[n.toNat]'n.isLt

/-- A command has entered the ring of the task's core under the next sequence number (R254), and the instruction retired. -/
structure Queued (s u : State) (t v : Task) (e : Command) : Prop where
  task : taskAt u s.here = some (past v 4)
  ring : e ∈ (coreAt u (hereCore s)).ring
  next : (coreAt u (hereCore s)).nextSeq = (coreAt s (hereCore s)).nextSeq + 1
  seq : e.seq = (coreAt s (hereCore s)).nextSeq
  queued : e.state = 1
  issuer : e.uid = t.uid ∧ e.ctx = t.ctx ∧ e.launch = t.launch ∧ e.tag = t.tag ∧ e.fnsel = t.fnsel
  fresh : e.done = 0 ∧ e.held = false ∧ e.unreported = false ∧ e.remote = none
  mem : u.mem = s.mem

/-- The place of the next sequence number is free (R254, R257): no command queued, running, suspended, or held after a fault
stands there. -/
def roomInRing (s : State) : Prop :=
  ∀ e ∈ (coreAt s (hereCore s)).ring, e.seq.toNat % 64 = (coreAt s (hereCore s)).nextSeq.toNat % 64 →
    ¬(e.state = 1 ∨ e.state = 2 ∨ e.state = 5 ∨ (e.state = 4 ∧ e.held = true))

/-- R254, R266: an engine command whose checks pass enters the ring with the maps it names. -/
def CommandsIssuedPart : Prop :=
  ∀ (i : Instr) (op : CmdOp) (s : State) (t : Task) (md ma mb : BitVec 256), cmdOp i = some op → Executes i op.guard s t →
    held t op.d md → held t op.a ma → held t op.b mb → op.ok s t md ma mb = true →
    (op.signal = 0 ∨ granted s (hereTile s) t.ctx grantSems (8 + op.signal.toNat) = true) → roomInRing s →
    ∃ u e, exec i s = .next u ∧ Queued s u t t e ∧ e.mapD = md ∧ e.mapA = ma ∧ e.mapB = mb ∧
      e.word.setWidth 64 = wordOf i

/-- R251, R266: a register that holds no map, a signal that is not lent, and maps of a wrong kind. -/
def CommandsRefusedPart : Prop :=
  ∀ (i : Instr) (op : CmdOp) (s : State) (t : Task), cmdOp i = some op → Executes i op.guard s t →
    ((∃ r, (op.d = some r ∨ op.a = some r ∨ op.b = some r) ∧ tget t.tms r.toNat = none) →
      exec i s = .next (takeTrap causeProt (wordOf i) s)) ∧
    (∀ md ma mb, held t op.d md → held t op.a ma → held t op.b mb →
      (op.signal ≠ 0 → granted s (hereTile s) t.ctx grantSems (8 + op.signal.toNat) = false →
        exec i s = .next (takeTrap causeProt (BitVec.ofNat 64 (8 + op.signal.toNat)) s)) ∧
      ((op.signal = 0 ∨ granted s (hereTile s) t.ctx grantSems (8 + op.signal.toNat) = true) → op.ok s t md ma mb = false →
        exec i s = .next (takeTrap causeProt (wordOf i) s)))

/-- R282, R283, R284: STASH, UNSTASH and FLQ enter the ring with their operands. -/
def DrayCommandsPart : Prop :=
  ∀ (b a d : BitVec 5) (g : BitVec 4) (s : State) (t : Task), roomInRing s →
    (Executes (.stash b a g) g s t → (gGet t a).toNat < 2 ^ 20 → (gGet t a).toNat % 32 = 0 →
      (gGet t b).toNat % 32 = 0 → 32 ≤ (gGet t b).toNat % 2 ^ 32 →
      ((drayOf s (hereTile s) t.ctx).stashl = 0 ∨
        (gGet t b).toNat % 2 ^ 32 + 32 ≤ (drayOf s (hereTile s) t.ctx).stashl.toNat) →
      ∃ u e, exec (.stash b a g) s = .next u ∧ Queued s u t t e ∧ e.args = [gGet t a, gGet t b]) ∧
    (Executes (.unstash a d g) g s t → (gGet t a).toNat % 2 ^ 32 < 2 ^ 20 → (gGet t a).toNat % 32 = 0 →
      ∃ u e r, exec (.unstash a d g) s = .next u ∧ Queued s u t (gSet t d r) e ∧ e.args = [gGet t a, r] ∧
        (∀ x, (drayOf s (hereTile s) t.ctx).tags.find? (fun x => x.tag == (gGet t a).extractLsb' 32 32) = some x →
          r = BitVec.ofNat 64 x.where_) ∧
        ((∀ x ∈ (drayOf s (hereTile s) t.ctx).tags, x.tag ≠ (gGet t a).extractLsb' 32 32) → r = 4)) ∧
    (Executes (.flq b a g) g s t → (gGet t a).toNat < 64 →
      ddrWaits s (tilePkg (hereTile s)) ((drayOf s (hereTile s) t.ctx).flqt.toNat + 32 * (gGet t a).toNat) t.ctx.toNat = false → 2 ^ 63 ≤ pairWord s (hereCore s) t.ctx (gGet t a).toNat 0 →
      (gGet t b).toNat < 2 ^ 20 → (gGet t b).toNat % 64 = 0 →
      ∃ u e, exec (.flq b a g) s = .next u ∧ Queued s u t t e ∧ e.args = [gGet t a, gGet t b])

/-- R148: VGO starts the tile's stream; another context's vector and mask registers are cleared. -/
def StreamStartsPart : Prop :=
  ∀ (a : BitVec 5) (g : BitVec 4) (s : State) (t : Task), Executes (.vgo a g) g s t → (gGet t a).toNat < 2 ^ 20 →
    (gGet t a).toNat % 4 = 0 → (tileAt s (hereTile s)).stream = none → roomInRing s →
    ∃ u st e, exec (.vgo a g) s = .next u ∧ taskAt u s.here = some (past t 4) ∧ u.mem = s.mem ∧
      (tileAt u (hereTile s)).stream = some st ∧ st.pc.toNat = (gGet t a).toNat ∧ st.ctx = t.ctx ∧ st.fn = t.fnsel ∧
      st.lcount = 0 ∧ st.seq = (coreAt s (hereCore s)).nextSeq ∧ (tileAt u (hereTile s)).qclosed = 0 ∧
      (tileAt u (hereTile s)).queues = (tileAt s (hereTile s)).queues ∧
      e ∈ (coreAt u (hereCore s)).ring ∧ e.seq = st.seq ∧ e.state = 2 ∧ e.uid = t.uid ∧
      (tileAt u (hereTile s)).vctx = some t.ctx ∧
      (∀ c, (tileAt s (hereTile s)).vctx = some c → c ≠ t.ctx →
        (∀ n : Fin 16, (tileAt u (hereTile s)).v[n] = 0) ∧ (∀ n : Fin 8, (tileAt u (hereTile s)).m[n] = 0)) ∧
      (((tileAt s (hereTile s)).vctx = none ∨ (tileAt s (hereTile s)).vctx = some t.ctx) →
        (tileAt u (hereTile s)).v = (tileAt s (hereTile s)).v ∧ (tileAt u (hereTile s)).m = (tileAt s (hereTile s)).m)

/-- R279, R280: QTEST, QCLOSE and QBIND. -/
def QueueOperationsPart : Prop :=
  ∀ (q : BitVec 3) (b d : BitVec 5) (g : BitVec 4) (s : State) (t : Task),
    (Executes (.qtest q d g) g s t →
      exec (.qtest q d g) s = .next (retire s (gSet t d (BitVec.ofNat 64
        (((tileAt s (hereTile s)).queues[q.toNat]'q.isLt).length + if (tileAt s (hereTile s)).qclosed.getLsbD q.toNat then 32 else 0))) 4)) ∧
    (Executes (.qclose q g) g s t → Quiet s t →
      ∃ u, exec (.qclose q g) s = .next u ∧ taskAt u s.here = some (past t 4) ∧ u.mem = s.mem ∧
        (∀ n, (tileAt u (hereTile s)).qclosed.getLsbD n =
          ((tileAt s (hereTile s)).qclosed.getLsbD n || decide (n = q.toNat))) ∧
        (tileAt u (hereTile s)).queues = (tileAt s (hereTile s)).queues) ∧
    (Executes (.qbind b q g) g s t →
      ∃ v, exec (.qbind b q g) s = .next (retire s v 4) ∧ v = { t with binds := v.binds } ∧ (b = 0 → v.binds = []) ∧
        (b ≠ 0 → v.binds = [(q.toNat, b.toNat)]))

/-- R251: SEMP takes one off a count that is not 0 and acquires; SEMV releases and adds one, or notes the overflow. -/
def SemaphoresPart : Prop :=
  ∀ (n g : BitVec 4) (s : State) (t : Task), granted s (hereTile s) t.ctx grantSems n.toNat = true →
    (Executes (.semp n g) g s t → semOf s n ≠ 0 →
      (∀ k, (tileAt s (hereTile s)).semWait.find? (fun w => w.2 == n.toNat) = some k → k.1 = s.here) →
      ∃ u, exec (.semp n g) s = .next u ∧ taskAt u s.here = some (past t 4) ∧ u.mem = s.mem ∧
        (tileAt u (hereTile s)).sems = (tileAt s (hereTile s)).sems.set n.toNat (semOf s n - 1) n.isLt ∧
        (∀ e : Nat × L1Word, e ∈ (coreAt u (hereCore s)).l1 ↔ e ∈ (coreAt s (hereCore s)).l1 ∧ (e.2.own = .inFlight ∨
          (e.2.own ≠ .clean ∧ ownerOf s (homeTile s (tilePkg (coreTile (hereCore s))) e.1) e.1 = some (hereCore s))))) ∧
    (Executes (.semp n g) g s t → semOf s n = 0 →
      ∃ u v, exec (.semp n g) s = .next u ∧ taskAt u s.here = some v ∧ v.pend.want = some (.sem n.toNat) ∧ v.pc = t.pc ∧
        (tileAt u (hereTile s)).sems = (tileAt s (hereTile s)).sems) ∧
    (Executes (.semv n g) g s t → Quiet s t →
      ∃ u, exec (.semv n g) s = .next u ∧ taskAt u s.here = some (past t 4) ∧ u.mem = s.mem ∧
        (semOf u n).toNat = min 65535 ((semOf s n).toNat + 1) ∧
        (tileAt u (hereTile s)).semOvf.getLsbD n.toNat =
          ((tileAt s (hereTile s)).semOvf.getLsbD n.toNat || decide ((semOf s n).toNat = 65535)) ∧
        (∀ m, m ≠ n → semOf u m = semOf s m))

/-- No task of a context is resident, and the context is dead (R343). -/
def killed (s : State) (ctx : BitVec 11) : Prop :=
  (∀ k v, taskAt s k = some v → v.ctx ≠ ctx) ∧ ∃ c, ctxAt s ctx.toNat = some c ∧ c.dead = true

/-- The role of a way in a VWAY value (R181). -/
def role (v : Nat) (w : Nat) : Nat := v / 4 ^ w % 4

/-- A trap at level 0 or 1 (R21): what it saves, and where the task goes. -/
def trapped (t : Task) (c : Cause) (epc : Nat) (val : Dword) : Task :=
  let epc := BitVec.ofNat 64 (epc / 2 * 2)
  if t.tlev = 0 then { setPc { t with tcause1 := c, tepc1 := epc, tval1 := val, tlev := 1 } t.tvec with pend := .idle }
  else { setPc { t with tcause2 := c, tepc2 := epc, tval2 := val, tlev := 2 } (BitVec.ofNat 64 (t.tvec.toNat + 0x100)) with
    pend := .idle }

/-- RESIZE's value is one that R184 admits: no role 3, and no way of a valid grant turned from OFF to DIRECT or back. -/
def resizeOk (s : State) (v : Nat) : Prop :=
  v < 2 ^ 32 ∧ ∀ w, w < 16 → role v w ≠ 3 ∧
    ((∃ g ∈ (tileAt s (hereTile s)).grants.toList, g.dw0.getLsbD 63 = true ∧ g.dw0.getLsbD (16 + w) = true) →
      ¬(role (tileAt s (hereTile s)).vway.toNat w = 2 ∧ role v w = 0) ∧
      ¬(role (tileAt s (hereTile s)).vway.toNat w = 0 ∧ role v w = 2))

/-- A CSR access: the register, whether it reads and writes, source, destination, guard, and the core instruction whose
words it is (R349). -/
structure CsrOp where
  n : Nat
  rd : Bool
  wr : Bool
  a : BitVec 5
  d : BitVec 5
  guard : BitVec 4
  core : Instr

/-- The form bits of a row: 0 CSRR, 1 CSRW, 2 and 3 CSRX. -/
def access (m : BitVec 2) (n : Nat) (a d : BitVec 5) (g : BitVec 4) : CsrOp :=
  if m = 0#2 then ⟨n, true, false, 0, d, g, .csrr (BitVec.ofNat 11 n) d g⟩
  else if m = 1#2 then ⟨n, false, true, a, 0, g, .csrw (BitVec.ofNat 11 n) a g⟩
  else ⟨n, true, true, a, d, g, .csrx (BitVec.ofNat 11 n) a d g⟩

def csrOp : Instr → Option CsrOp
  | .csrr c d g => some ⟨c.toNat, true, false, 0, d, g, .csrr c d g⟩
  | .csrw c a g => some ⟨c.toNat, false, true, a, 0, g, .csrw c a g⟩
  | .csrx c a d g => some ⟨c.toNat, true, true, a, d, g, .csrx c a d g⟩
  | .randRead m a d g => some (access m 0x021 a d g)
  | .tctlRead m a d g => some (access m 0x00A a d g)
  | .cvstatRead m a d g => some (access m 0x077 a d g)
  | .fnselWrite m a d g => some (access m 0x030 a d g)
  | .bfmtWrite n m a d g => some (access m (0x040 + n.toNat) a d g)
  | .bdropWrite n m a d g => some (access m (0x050 + n.toNat) a d g)
  | .budgetWrite m a d g => some (access m 0x022 a d g)
  | .phslotWrite m a d g => some (access m 0x025 a d g)
  | .gselWrite m a d g => some (access m 0x080 a d g)
  | .grantWrite m a d g => some (access m 0x081 a d g)
  | .grantLeave m a d g => some (access m 0x081 a d g)
  | .grantRestore m a d g => some (access m 0x081 a d g)
  | .tokenIssue m a d g => some (access m 0x073 a d g)
  | .mkeyWrite m a d g => some (access m 0x075 a d g)
  | .lwadd m a d g => some (access m 0x02A a d g)
  | .lwmaxn m a d g => some (access m 0x02B a d g)
  | .lwfmax m a d g => some (access m 0x02C a d g)
  | .pqcfgWrite m a d g => some (access m 0x090 a d g)
  | .pqpop m a d g => some (access m 0x091 a d g)
  | .stashbWrite m a d g => some (access m 0x078 a d g)
  | .stashlWrite m a d g => some (access m 0x079 a d g)
  | .pcapWrite m a d g => some (access m 0x0A4 a d g)
  | .csrWrite n m a d g => some (access m n.toNat a d g)
  | _ => none

/-- The cores that have the CSR, by the core's number on its tile (R12, Table 2a). -/
def present (n c : Nat) : Bool :=
  decide (n ≤ 0x00A) || decide (0x010 ≤ n ∧ n ≤ 0x014) || decide (0x020 ≤ n ∧ n ≤ 0x02D) || n == 0x030 ||
    decide (0x040 ≤ n ∧ n ≤ 0x060) || decide (0x080 ≤ n ∧ n ≤ 0x083) || decide (0x0A0 ≤ n ∧ n ≤ 0x0A6) ||
    (n == 0x070 && decide (4 ≤ c ∧ c ≤ 6)) || ([0x071, 0x072, 0x077].contains n && decide (4 ≤ c) && c != 7) ||
    (decide (0x073 ≤ n ∧ n ≤ 0x076) && c == 6) || (decide (0x078 ≤ n ∧ n ≤ 0x07C) && c == 4) ||
    ([0x090, 0x091].contains n && decide (8 ≤ c))

/-- The CSRs that U may not reach (R262, R335, R375, R381). -/
def guarded (n : Nat) : Bool := decide (0x080 ≤ n ∧ n ≤ 0x083) || decide (0x0A0 ≤ n ∧ n ≤ 0x0A6) || n == 0x075

/-- The CSRs that U may read and not write, and those that S may read and not write (R15, R281, R335, R349, R364, R381). -/
def notAtU (n : Nat) : Bool := n == 0x001 || n == 0x022 || decide (0x07A ≤ n ∧ n ≤ 0x07C)
def notAtS (n : Nat) : Bool := n == 0x0A4 || n == 0x0A6

/-- The access is made: the core instruction executes, and the register exists on the core. -/
structure Reaches (o : CsrOp) (s : State) (t : Task) : Prop where
  executes : Executes o.core o.guard s t
  present : present o.n (coreNum (hereCore s)) = true

/-- DRDATA (R257, Table 5): the selected doubleword of the task's entry; 0 for one not held, or of another context. -/
def entryWord (s : State) (t : Task) : Dword :=
  match (coreAt s (hereCore s)).ring.find? (fun e => e.seq.toNat == t.drsel.toNat % 256) with
  | none => 0
  | some e =>
    if e.ctx ≠ t.ctx then 0
    else
      let k := t.drsel.toNat / 256 % 16
      if k = 0 then BitVec.ofNat 64 (e.kind.toNat * 2 ^ 48 + e.state * 2 ^ 40 + e.seq.toNat * 2 ^ 32 + e.word.toNat)
      else if k = 1 then e.addr
      else if k = 2 then BitVec.ofNat 64 (e.elem * 2 ^ 32 + e.sword.toNat)
      else if k = 3 then
        match (tileAt s (hereTile s)).stream with
        | some x => if coreNum (hereCore s) = 6 ∧ isVgo e.word = true ∧ e.state = 2 then BitVec.ofNat 64 x.pc.toNat else e.origin
        | none => e.origin
      else (if k < 8 then e.mapD else if k < 12 then e.mapA else e.mapB).extractLsb' (64 * (k % 4)) 64

/-- GSTAT.IDLE of a context on a tile: no resident task, no command of it to complete in a ring, and no stream (R347). -/
def idleOn (s : State) (tile : Nat) (ctx : BitVec 11) : Prop :=
  (∀ e ∈ s.tasks, slotTile e.1 = tile → e.2.ctx = ctx → e.2.inl ≠ none) ∧
  (∀ c ∈ s.cores, coreTile c.1 = tile → ∀ e ∈ c.2.ring, e.ctx = ctx → cmdDone e = true) ∧
  (∀ x, (tileAt s tile).stream = some x → x.ctx ≠ ctx)

/-- GSTAT of the selected slot (R335, R348). -/
def IsGstat (s : State) (tile : Nat) (v : Dword) : Prop :=
  let g := grantAt s tile ((tileAt s tile).gsel.toNat % 4)
  (v.getLsbD 0 = g.dw0.getLsbD 63 ∧ (v.getLsbD 1 = true ↔ idleOn s tile (g.dw0.extractLsb' 52 11)) ∧
    v.getLsbD 2 = g.leaving) ∧
  v.toNat / 2 ^ 3 % 2 ^ 13 = 0 ∧ v.toNat / 2 ^ 48 = 0 ∧
  v.toNat / 2 ^ 16 % 2 ^ 16 = (s.tasks.filter (fun e => slotTile e.1 == tile && e.2.ctx == g.dw0.extractLsb' 52 11 &&
    e.2.inl.isNone)).length % 2 ^ 16 ∧
  (∀ n, g.saved = some n → v.toNat / 2 ^ 32 % 2 ^ 16 = n % 2 ^ 16) ∧
  (g.saved = none → v.toNat / 2 ^ 32 % 2 ^ 16 = ((s.cores.map (fun c => if coreTile c.1 = tile then
      (c.2.entries.filter (fun e => e.ctx == g.dw0.extractLsb' 52 11)).length else 0)).sum +
    ((tileAt s tile).postq.filter (fun e => e.ctx == g.dw0.extractLsb' 52 11)).length) % 2 ^ 16)

/-- SEMSTAT (R251, Table 2). -/
def IsSemstat (x : Tile) (v : Dword) : Prop :=
  ∀ n, v.getLsbD n = (if n < 16 then x.semOvf.getLsbD n else if n < 32 then x.sems.getD (n - 16) 0 != 0 else false)

/-- The value of a CSR whose read has no effect (R4, R11, R14, R15, R177, R180, R181, R257, R262, R335, R345, R358, R364, R367, R375,
R381); none for RAND, LWRES, PQPOP, CVSTAT, MTOK, SEMSTAT and GSTAT, which are stated by themselves. -/
def csrValue (s : State) (t : Task) (n : Nat) : Option Dword :=
  let x := tileAt s (hereTile s)
  let p := pkgAt s (hereTile s / 1024)
  let d := drayOf s (hereTile s) t.ctx
  match n with
  | 0x000 => some (BitVec.ofNat 64 t.tlev.toNat)
  | 0x001 => some t.tvec
  | 0x002 => some (BitVec.ofNat 64 t.tcause1.toNat)
  | 0x003 => some (BitVec.ofNat 64 t.tcause2.toNat)
  | 0x004 => some t.tepc1
  | 0x005 => some t.tepc2
  | 0x006 => some t.tval1
  | 0x007 => some t.tval2
  | 0x008 => some t.tsave1
  | 0x009 => some t.tsave2
  | 0x00A => some (BitVec.ofNat 64 t.tctl.toNat)
  | 0x010 => some t.sbase
  | 0x011 => some t.slim
  | 0x012 => some t.lstart
  | 0x013 => some t.lend
  | 0x014 => some t.lcount
  | 0x020 => some (BitVec.ofNat 64 (s.cyc - (coreAt s (hereCore s)).cycBase))
  | 0x022 => some (BitVec.ofNat 64 t.budget)
  | 0x023 => some (BitVec.ofNat 64 t.taskid.toNat)
  | 0x024 => some (BitVec.ofNat 64 t.launch.toNat)
  | 0x025 => some (if t.tag.toNat < 16 then BitVec.ofNat 64 t.tag.toNat else 0x10)
  | 0x026 => some (BitVec.ofNat 64 t.rtab.toNat)
  | 0x027 => some (BitVec.ofNat 64 t.ctx.toNat)
  | 0x028 => some (BitVec.ofNat 64 t.priv.toNat)
  | 0x029 => some (BitVec.ofNat 64 (s.ftime + p.ftimeOff))
  | 0x02A => some 0
  | 0x02B => some 0
  | 0x02C => some 0
  | 0x030 => some (BitVec.ofNat 64 t.fnsel.toNat)
  | 0x060 => some (BitVec.ofNat 64 x.vway.toNat)
  | 0x071 => some (BitVec.ofNat 64 t.drsel.toNat)
  | 0x072 => some (entryWord s t)
  | 0x074 => some (BitVec.ofNat 64 x.mepoch.toNat)
  | 0x075 => some 0
  | 0x076 => some (BitVec.ofNat 64 x.mcrej.toNat)
  | 0x078 => some d.stashb
  | 0x079 => some d.stashl
  | 0x07A => some d.spillb
  | 0x07B => some d.spillf
  | 0x07C => some d.flqt
  | 0x080 => some (BitVec.ofNat 64 x.gsel.toNat)
  | 0x081 =>
    let g := grantAt s (hereTile s) (x.gsel.toNat % 4)
    some (if x.gsel.toNat / 4 = 0 then g.dw0 else if x.gsel.toNat / 4 = 1 then g.dw1 else g.dw2)
  | 0x082 => some x.gsave
  | 0x090 => some x.pqcfg
  | 0x0A0 => some p.ready[0]
  | 0x0A1 => some p.ready[1]
  | 0x0A2 => some (p.ready[2] &&& 0x83FFFFFFFFFFFFFF#64)
  | 0x0A3 => some (BitVec.ofNat 64 p.dstep.toNat)
  | 0x0A4 => some p.pcap
  | 0x0A5 => some p.pwr
  | 0x0A6 => some (BitVec.ofNat 64 p.eccc.toNat)
  | n =>
    if 0x040 ≤ n ∧ n < 0x050 then some (x.bfmt.getD (n - 0x040) 0)
    else if 0x050 ≤ n ∧ n < 0x060 then some (BitVec.ofNat 64 (x.bdrop.getD (n - 0x050) 0).toNat)
    else none

/-- A value with its low bits clear. -/
def clearLow (v : Dword) (n : Nat) : Dword := BitVec.ofNat 64 (v.toNat / 2 ^ n * 2 ^ n)

/-- The task after a write of one of its own CSRs (R11, R14, R15, R268, R335 to R337); none where the write is refused. -/
def csrWritten (s : State) (t : Task) (n : Nat) (v : Dword) : Option Task :=
  match n with
  | 0x000 => some t
  | 0x002 => some t
  | 0x003 => some t
  | 0x004 => some { t with tepc1 := clearLow v 1 }
  | 0x005 => some { t with tepc2 := clearLow v 1 }
  | 0x006 => some t
  | 0x007 => some t
  | 0x008 => some { t with tsave1 := v }
  | 0x009 => some { t with tsave2 := v }
  | 0x00A => some { t with tctl := (BitVec.ofNat 17 v.toNat &&& 0x11F00#17) ||| (t.tctl &&& 0x1F#17 &&& ~~~BitVec.ofNat 17 v.toNat) }
  | 0x010 => some t
  | 0x011 => some { t with slim := clearLow v 3 }
  | 0x012 => some { t with lstart := clearLow v 1 }
  | 0x013 => some { t with lend := clearLow v 1 }
  | 0x014 => some { t with lcount := v }
  | 0x020 => some t
  | 0x021 => some t
  | 0x022 => some { t with budget := min v.toNat (2 ^ 30) }
  | 0x023 => some t
  | 0x024 => some t
  | 0x025 =>
    if v.getLsbD 4 then some { t with tag := 16 }
    else if granted s (hereTile s) t.ctx grantLines (v.toNat % 16) then some { t with tag := BitVec.ofNat 5 (v.toNat % 16) }
    else none
  | 0x026 => some t
  | 0x027 => some t
  | 0x028 => some t
  | 0x029 => some t
  | 0x02D => some t
  | 0x030 =>
    let e := v.toNat / 2 ^ 6 % 4 + 2
    let m := v.toNat / 2 ^ 8 % 8
    if m ≤ 5 ∧ 4 ≤ 1 + e + m ∧ 1 + e + m ≤ 8 ∧ (v.getLsbD 16 = true ∨ 1 ≤ m) then some { t with fnsel := BitVec.ofNat 17 v.toNat &&& 0x107FF#17 } else none
  | 0x060 => some t
  | 0x071 => some { t with drsel := BitVec.ofNat 12 v.toNat }
  | 0x072 => some t
  | 0x074 => some t
  | 0x076 => some t
  | 0x083 => some t
  | 0x091 => some t
  | 0x0A0 => some t
  | 0x0A1 => some t
  | 0x0A2 => some t
  | 0x0A3 => some t
  | 0x0A5 => some t
  | _ => none

/-- The state in which an access that writes has retired: the task with gd set to the old value when it reads. -/
def accessed (s u : State) (t : Task) (o : CsrOp) : Prop :=
  (o.rd = false → taskAt u s.here = some (past t 4)) ∧
  (o.rd = true → ∀ v, csrValue s t o.n = some v → taskAt u s.here = some (past (gSet t o.d v) 4))

/-! ### Grants (R345, Table 4) -/

def valid (g : Grant) : Prop := g.dw0.getLsbD 63 = true
def ctxOf (g : Grant) : Nat := g.dw0.toNat / 2 ^ 52 % 2 ^ 11
/-- A grant's resources: semaphore r, way r - 16, bank r - 32, phase line r - 48. -/
def grants (g : Grant) (r : Nat) : Bool :=
  if r < 32 then g.dw0.getLsbD r else if r < 48 then g.dw1.getLsbD (r + 16) else g.dw2.getLsbD (r - 48)
/-- The grant after a write of its doubleword `w`; RST reads 0. -/
def written (g : Grant) (w : Nat) (v : Dword) : Grant :=
  if w = 0 then { g with dw0 := v &&& ~~~0x40000000000#64 } else if w = 1 then { g with dw1 := v } else { g with dw2 := v }
/-- An area of LM lies in a grant's banks. -/
def areaIn (g : Grant) (off len : Nat) : Prop :=
  off + len ≤ 2 ^ 20 ∧ ∀ b, b < 16 → off < (b + 1) * 65536 → b * 65536 < off + len → grants g (32 + b) = true
/-- The context of a grant is of the writer's partition; not asked at M. -/
def ofWriter (s : State) (t : Task) (g : Grant) : Prop :=
  t.priv = 3 ∨ ∃ c w, ctxAt s (ctxOf g) = some c ∧ c.part.toNat = w ∧ ctxPart s t.ctx.toNat = w

/-- R346: what a write of doubleword `dw` of slot n must leave. Which of the checks are made of a slot that holds no valid grant
is log 44, and no check asks STKBASE to be a multiple of 4,096 or RTAB one of 8 (log 93). -/
structure GrantGood (s : State) (t : Task) (n dw : Nat) (old new : Grant) : Prop where
  reserved : new.dw0.toNat / 2 ^ 36 % 2 ^ 6 = 0 ∧ new.dw1.toNat % 2 ^ 8 = 0 ∧ new.dw0.toNat / 2 ^ 32 % 16 ≤ 4
  own : (valid new ∨ valid old ∨ dw = 0 → ofWriter s t new) ∧ (valid old → ofWriter s t old)
  stack : valid new ∨ valid old → areaIn new (new.dw1.toNat / 2 ^ 28 % 2 ^ 20)
    ((if anchors (hereTile s) then 88 else 56) * 2 ^ (11 + new.dw0.toNat / 2 ^ 32 % 16))
  tables : valid new ∨ valid old → areaIn new (new.dw1.toNat / 2 ^ 8 % 2 ^ 20) (if anchors (hereTile s) then 8704 else 6656)
  alone : ∀ m, m < 4 → m ≠ n → valid (grantAt s (hereTile s) m) → ∀ r, r < 64 →
    ¬(grants new r = true ∧ grants (grantAt s (hereTile s) m) r = true)
  direct : ∀ w, w < 16 → grants new (16 + w) = true → role (tileAt s (hereTile s)).vway.toNat w = 2
  weight : valid new → new.dw0.toNat / 2 ^ 44 % 2 ^ 8 ≠ 0
  keeps : valid new → valid old → idleOn s (hereTile s) (BitVec.ofNat 11 (ctxOf old)) ∨
    (ctxOf new = ctxOf old ∧ ∀ r, r < 64 → grants old r = true → grants new r = true)

/-- The save area (R348, Table 5): where the image of a bank and of a way lies, and where the images end. -/
def bankCount (g : Grant) (b : Nat) : Nat := ((List.range b).filter (fun n => grants g (32 + n))).length
def wayCount (g : Grant) (w : Nat) : Nat := ((List.range w).filter (fun n => grants g (16 + n))).length
def bankImage (g : Grant) (b : Nat) : Nat := 0x10000 + 2 ^ 16 * bankCount g b
def wayImage (g : Grant) (w : Nat) : Nat := 0x10000 + 2 ^ 16 * bankCount g 16 + 2 ^ 19 * wayCount g w
def imagesEnd (g : Grant) : Nat := 0x10000 + 2 ^ 16 * bankCount g 16 + 2 ^ 19 * wayCount g 16

/-- Nothing runs in the rings of the tile (R179). -/
def ringsIdle (s : State) : Prop :=
  ∀ c ∈ s.cores, coreTile c.1 = hereTile s → ∀ e ∈ c.2.ring, e.state ≠ 2 ∧ e.state ≠ 5


/-- The call has returned a status in g4, and the task goes on. -/
def Returned (u : State) (slot : Nat) (t : Task) (status : Dword) : Prop :=
  ∃ v, taskAt u slot = some v ∧ gGet v 4 = status ∧ v.pc = (stepPc t 4).pc ∧ v.pend = .idle ∧
    (∀ n, n ≠ 4 → gGet v n = gGet t n)

/-- R21, R22: what a trap at level 0 and at level 1 saves, and where it goes. -/
def TrapsTakenPart : Prop :=
  ∀ (c : Cause) (val : Dword) (s : State) (t : Task), hereTask s = some t → t.inl = none →
    (t.tlev.toNat < 2 → taskAt (takeTrap c val s) s.here = some (trapped t c (wholePc t).toNat val)) ∧
    (t.tlev.toNat < 2 → (takeTrap c val s).mem = s.mem ∧ (takeTrap c val s).net = s.net)

/-- R21, R343: a trap at level 2 kills the context. -/
def ThirdTrapKillsPart : Prop :=
  ∀ (c : Cause) (val : Dword) (s : State) (t : Task), hereTask s = some t → t.inl = none → 2 ≤ t.tlev.toNat →
    ctxLive s t.ctx.toNat = true → killed (takeTrap c val s) t.ctx

/-- R22, R351, R354: TRAP and CTXKILL. -/
def SystemInstructionsPart : Prop :=
  ∀ (a : BitVec 5) (g : BitVec 4) (s : State) (t : Task), t.inl = none →
    (Executes (.trap a g) g s t → (gGet t a).toNat < 2 ^ 63 →
      t.tlev.toNat < 2 → ∃ u, exec (.trap a g) s = .next u ∧ u.mem = s.mem ∧
        taskAt u s.here = some (trapped t 0x11 (t.pc.toNat + 4) (gGet t a))) ∧
    (Executes (.trap a g) g s t → 2 ^ 63 ≤ (gGet t a).toNat →
      (t.priv = 0 → exec (.trap a g) s = .next (takeTrap causePriv (gGet t a) s)) ∧
      (t.priv ≠ 0 → ((gGet t a).toNat % 2 ^ 16 = 0 ∨ 8 < (gGet t a).toNat % 2 ^ 63) →
        exec (.trap a g) s = .next (retire s (gSet t 4 2) 4))) ∧
    (Executes (.ctxkill a g) g s t → (gGet t a).toNat < 2 ^ 11 → inPartition s t (gGet t a).toNat = true →
      ((t.pend.log.lookup (.kill (gGet t a).toNat)).isSome = true → exec (.ctxkill a g) s = .next (retire s t 4)) ∧
      (t.pend.log.lookup (.kill (gGet t a).toNat) = none → (∀ k ∈ s.kills, k.ctx ≠ (gGet t a).toNat) →
      (ctxLive s (gGet t a).toNat = false → exec (.ctxkill a g) s = .next (retire s t 4)) ∧
      (ctxLive s (gGet t a).toNat = true → ∃ u, exec (.ctxkill a g) s = .next u ∧
        (∀ k v, taskAt u k = some v → v.ctx.toNat = (gGet t a).toNat → k = s.here) ∧
        (∃ c, ctxAt u (gGet t a).toNat = some c ∧ c.dead = true) ∧
        ((∀ e ∈ s.tasks, e.1 = s.here → e.2 = t) → ∃ v, taskAt u s.here = some v ∧ v.pc = t.pc ∧
          v.pend.want = some (.kill (gGet t a).toNat)))))

/-- R10, R54: checks 2 to 4 come before the guard, and a false guard leaves only the advance of pc. -/
def GuardedOffPart : Prop :=
  ∀ (i : Instr) (w : Word) (s : State) (t : Task), encode i = .word w → whereOf i ≠ .stream → (∀ b a d x, i ≠ .sel b a d x) →
    hereTask s = some t →
    (∀ c v, checks i t (coreNum (hereCore s)) = some (c, v) → exec i s = .next (takeTrap c v s)) ∧
    (checks i t (coreNum (hereCore s)) = none → guardHolds t (w.extractLsb' 7 4) = false →
      exec i s = .next (if t.spoilt.contains (64 + (w.extractLsb' 7 4).toNat % 8) then takeTrap causeMcheck 0 s
        else retire s t 4))

/-- R53, R54, R128, R335, R351: what a task at U may not execute, and what a core may not. -/
def PrivilegePart : Prop :=
  ∀ (i : Instr) (a b d : BitVec 5) (q : BitVec 3) (m n : BitVec 4) (g : BitVec 4) (s : State) (t : Task),
    hereTask s = some t →
    (i ∈ [.ctxkill a g, .resize a g, .volfree b a g] → a.toNat < t.gcount → b.toNat < t.gcount → t.priv = 0 →
      exec i s = .next (takeTrap causePriv (wordOf i) s)) ∧
    (t.gcount ≤ d.toNat → exec (.add 0 b a d g) s = .next (takeTrap causeIllegal (wordOf (.add 0 b a d g)) s)) ∧
    (i = .copy q m n g → coreNum (hereCore s) ≠ 4 → exec i s = .next (takeTrap causeIllegal (wordOf i) s)) ∧
    (∀ o, csrOp i = some o → o.a.toNat < t.gcount → o.d.toNat < t.gcount → present o.n (coreNum (hereCore s)) = true →
      guarded o.n = true ∧ t.priv = 0 ∨ o.wr = true ∧ notAtU o.n = true ∧ t.priv = 0 ∨
        o.wr = true ∧ notAtS o.n = true ∧ t.priv.toNat < 3 → exec i s = .next (takeTrap causePriv (wordOf o.core) s)) ∧
    (∀ o, csrOp i = some o → Executes o.core o.guard s t → present o.n (coreNum (hereCore s)) = false →
      exec i s = .next (takeTrap causeIllegal (wordOf o.core) s))

/-- R181, R184: RESIZE. -/
def WaysResizedPart : Prop :=
  ∀ (a : BitVec 5) (g : BitVec 4) (s : State) (t : Task), Executes (.resize a g) g s t →
    (resizeOk s (gGet t a).toNat →
      (∀ c ∈ s.cores, ∀ e ∈ c.2.ring, e.state = 2 ∨ e.state = 5 → ∀ w, w < 16 →
        role (tileAt s (hereTile s)).vway.toNat w ≠ role (gGet t a).toNat w → cmdUses s c.1 e (hereTile s) w = false) →
      (∀ l ∈ (tileAt s (hereTile s)).ldfs, ldfLive s l = true → ∀ w, w < 16 →
        role (tileAt s (hereTile s)).vway.toNat w ≠ role (gGet t a).toNat w →
        ¬(vaultKey (hereTile s) (w * 2 ^ 19) ≤ l.key ∧ l.key < vaultKey (hereTile s) ((w + 1) * 2 ^ 19))) →
      ∃ u, exec (.resize a g) s = .next u ∧ taskAt u s.here = some (past t 4) ∧
        (tileAt u (hereTile s)).vway.toNat = (gGet t a).toNat ∧
        (∀ w, w < 16 → role (tileAt s (hereTile s)).vway.toNat w = 2 → role (gGet t a).toNat w ≠ 2 →
          ∀ g ∈ (tileAt u (hereTile s)).grants.toList, g.dw0.getLsbD (16 + w) = false) ∧
        (∀ w n, w < 16 → n < 2 ^ 19 → role (tileAt s (hereTile s)).vway.toNat w ≠ 2 → role (gGet t a).toNat w = 2 →
          cellGet u.mem (vaultKey (hereTile s) (w * 2 ^ 19 + n)) = Config.emptyByte) ∧
        (∀ k, (∀ w n, w < 16 → n < 2 ^ 19 → role (tileAt s (hereTile s)).vway.toNat w ≠ 2 → role (gGet t a).toNat w = 2 →
          k ≠ vaultKey (hereTile s) (w * 2 ^ 19 + n)) → cellGet u.mem k = cellGet s.mem k)) ∧
    (¬resizeOk s (gGet t a).toNat → exec (.resize a g) s = .next (takeTrap causeProt (gGet t a) s))

/-- R11, R12, R335, R349: reads without an effect of their own. -/
def CsrReadsPart : Prop :=
  ∀ (i : Instr) (o : CsrOp) (s : State) (t : Task), csrOp i = some o → o.rd = true → o.wr = false → Reaches o s t →
    (∀ v, csrValue s t o.n = some v → exec i s = .next (retire s (gSet t o.d v) 4)) ∧
    (o.n = 0x021 → ∃ v, exec i s = .next (retire { s with draws := s.draws + 1 } (gSet t o.d v) 4)) ∧
    (o.n = 0x02D → t.tag.toNat < 16 →
      exec i s = .next (retire s (gSet t o.d (phaseAt (tileAt s (hereTile s)) t.tag.toNat).lwres) 4)) ∧
    (o.n = 0x02D → 16 ≤ t.tag.toNat → ∃ v, exec i s = .next (retire { s with draws := s.draws + 1 } (gSet t o.d v) 4)) ∧
    (o.n = 0x070 → ∃ v, IsSemstat (tileAt s (hereTile s)) v ∧ exec i s = .next (retire s (gSet t o.d v) 4)) ∧
    (o.n = 0x083 → ∃ v, IsGstat s (hereTile s) v ∧ exec i s = .next (retire s (gSet t o.d v) 4)) ∧
    (o.n = 0x073 → exec i s = .next (takeTrap causeIllegal (wordOf o.core) s)) ∧
    (o.n = 0x077 → (∀ l e r, (coreAt s (hereCore s)).ring = l ++ e :: r → (∀ x ∈ l, x.state ≠ 5) → e.state ≠ 5 → e.uid = t.uid →
        cmdDone e = true) →
      exec i s = .next (retire s (gSet t o.d t.cvstat) 4)) ∧
    (∀ l e r, o.n = 0x077 → (coreAt s (hereCore s)).ring = l ++ e :: r → (∀ x ∈ l, x.state ≠ 5) → e.state ≠ 5 → e.uid = t.uid →
      cmdDone e = false → exec i s = .next (beginWait .earlier none s)) ∧
    (o.n = 0x091 → (tileAt s (hereTile s)).pqcfg.getLsbD 63 = true → (tileAt s (hereTile s)).pqctx = t.ctx →
      ∀ b r, (tileAt s (hereTile s)).blocks = b :: r → b.off < 2 ^ 48 → ∃ u v, exec i s = .next u ∧
        taskAt u s.here = some (past (gSet t o.d v) 4) ∧ v.toNat = 2 ^ 63 + b.slot % 2 ^ 10 * 2 ^ 48 + b.off ∧
        (tileAt u (hereTile s)).blocks = r ∧ u.mem = s.mem)

/-- R5, R14, R15, R335 to R337, R349: writes of the task's own CSRs; a read-only one ignores it. -/
def CsrWritesPart : Prop :=
  ∀ (i : Instr) (o : CsrOp) (s : State) (t : Task), csrOp i = some o → o.wr = true → Reaches o s t →
    (∀ v, csrWritten s t o.n (gGet t o.a) = some v →
      (o.rd = false → exec i s = .next (retire s v 4)) ∧
      (o.rd = true → ∀ x, csrValue s t o.n = some x → exec i s = .next (retire s (gSet v o.d x) 4))) ∧
    (o.n = 0x073 → o.rd = false → exec i s = .next (takeTrap causeIllegal (wordOf o.core) s)) ∧
    (o.n = 0x077 → o.rd = false →
      exec i s = .next (retire s (if (gGet t o.a).getLsbD 63 then { t with cvstat := 0 } else t) 4)) ∧
    (o.n = 0x030 → csrWritten s t 0x030 (gGet t o.a) = none → exec i s = .next (takeTrap causeIllegal (wordOf o.core) s)) ∧
    (o.n = 0x025 → csrWritten s t 0x025 (gGet t o.a) = none → exec i s = .next (takeTrap causeProt (gGet t o.a) s))

/-- R177 to R180, R262, R281, R335, R360, R362, R381: writes of the tile's and the package's CSRs. -/
def DeviceCsrWritesPart : Prop :=
  ∀ (i : Instr) (o : CsrOp) (s : State) (t : Task), csrOp i = some o → o.wr = true → Reaches o s t →
    let v := gGet t o.a
    let x := tileAt s (hereTile s)
    (∀ n, n < 16 → o.n = 0x040 + n → coreNum (hereCore s) = 5 → granted s (hereTile s) t.ctx grantBanks n = true →
      (elemOf (v.extractLsb' 0 4) (v.extractLsb' 4 17)).isSome = true → ringsIdle s → t.pend.log = [] →
      ∃ u, exec i s = .next u ∧ accessed s u t o ∧ u.mem = s.mem ∧
        (tileAt u (hereTile s)).bfmt[n]? = some (v &&& 0xFFFC0000001FFFFF#64) ∧
        (∀ m, m ≠ n → (tileAt u (hereTile s)).bfmt[m]? = x.bfmt[m]?)) ∧
    (∀ n, n < 16 → o.n = 0x050 + n → coreNum (hereCore s) = 5 → granted s (hereTile s) t.ctx grantBanks n = true →
      ∃ u, exec i s = .next u ∧ accessed s u t o ∧ u.mem = s.mem ∧
        (tileAt u (hereTile s)).bdrop[n]? = some (BitVec.ofNat 32 v.toNat) ∧
        (∀ m, m ≠ n → (tileAt u (hereTile s)).bdrop[m]? = x.bdrop[m]?)) ∧
    (o.n = 0x001 → o.rd = false → ∃ u w, exec i s = .next u ∧ u.mem = s.mem ∧ taskAt u s.here = some w ∧
      w.tvec = clearLow v 9 ∧ (∀ k, k ≠ s.here → taskAt u k = taskAt s k) ∧ (∀ c, ctxAt s t.ctx.toNat = some c →
        ctxAt u t.ctx.toNat = some { c with tvec := clearLow v 9 })) ∧
    (o.n = 0x080 → v.toNat < 12 →
      ∃ u, exec i s = .next u ∧ accessed s u t o ∧ (tileAt u (hereTile s)).gsel.toNat = v.toNat) ∧
    (o.n = 0x080 → 12 ≤ v.toNat → exec i s = .next (takeTrap causeProt v s)) ∧
    (o.n = 0x075 → ∃ u, exec i s = .next u ∧ accessed s u t o ∧ u.draws = s.draws + 1 ∧
      (tileAt u (hereTile s)).keyDraw = u.draws) ∧
    (o.n = 0x0A4 → t.priv = 3 →
      (800 ≤ v.toNat ∧ v.toNat ≤ 2000 → ∃ u, exec i s = .next u ∧ accessed s u t o ∧ (pkgAt u (hereTile s / 1024)).pcap = v) ∧
      (v.toNat < 800 ∨ 2000 < v.toNat → exec i s = .next (takeTrap causeProt v s))) ∧
    (o.n = 0x078 ∨ o.n = 0x079 → v.toNat < 2 ^ 23 → v.toNat % 1024 = 0 →
      stashRingOk s (hereTile s) t.ctx
        (if o.n = 0x078 then v.toNat else (drayOf s (hereTile s) t.ctx).stashb.toNat)
        (if o.n = 0x079 then v.toNat else (drayOf s (hereTile s) t.ctx).stashl.toNat) = true →
      ∃ u, exec i s = .next u ∧ accessed s u t o ∧ u.mem = s.mem ∧
        (drayOf u (hereTile s) t.ctx).stashb = (if o.n = 0x078 then v else (drayOf s (hereTile s) t.ctx).stashb) ∧
        (drayOf u (hereTile s) t.ctx).stashl = (if o.n = 0x079 then v else (drayOf s (hereTile s) t.ctx).stashl)) ∧
    (o.n = 0x073 → o.rd = true → v.toNat < 2 ^ 18 → v.toNat / 16 % 16 + v.toNat / 256 % 16 ≤ 15 →
      (∀ w, v.toNat / 16 % 16 ≤ w → w ≤ v.toNat / 16 % 16 + v.toNat / 256 % 16 →
        role x.vway.toNat w = 2 ∧ granted s (hereTile s) t.ctx grantWays w = true) →
      ∃ k : Dword, exec i s = .next (retire s (gSet t o.d k) 4) ∧ k.toNat / 2 ^ 24 =
        hereTile s % 1024 * 2 ^ 30 + t.ctx.toNat * 2 ^ 19 + v.toNat % 16 * 2 ^ 15 + v.toNat / 16 % 16 * 2 ^ 11 +
          v.toNat / 256 % 16 * 2 ^ 7 + (x.mepoch.toNat + v.toNat / 2 ^ 12 % 64) % 128) ∧
    (∀ n : Nat, t.tag.toNat = n → n < 16 → o.n ∈ [0x02A, 0x02B, 0x02C] → (o.n = 0x02C → v.toNat < 2 ^ 32) →
      (phaseAt x n).lop = 0 ∨ (phaseAt x n).lop = o.n - 0x029 →
      ∃ u, exec i s = .next u ∧ accessed s u t o ∧ u.mem = s.mem ∧ (phaseAt (tileAt u (hereTile s)) n).lop = o.n - 0x029 ∧
        (o.n = 0x02A → (phaseAt (tileAt u (hereTile s)) n).lword = (if (phaseAt x n).lop = 0 then 0 else (phaseAt x n).lword) + v) ∧
        (o.n = 0x02B → (phaseAt (tileAt u (hereTile s)) n).lword.toNat =
          max (if (phaseAt x n).lop = 0 then 0 else (phaseAt x n).lword.toNat) v.toNat) ∧
        (o.n = 0x02C → (phaseAt (tileAt u (hereTile s)) n).lword = BitVec.ofNat 64 (higherWord
          (if (phaseAt x n).lop = 0 then 0xFF800000#32 else BitVec.ofNat 32 (phaseAt x n).lword.toNat)
          (BitVec.ofNat 32 v.toNat)).toNat)) ∧
    (t.tag.toNat < 16 → o.n ∈ [0x02A, 0x02B, 0x02C] →
      (o.n = 0x02C ∧ 2 ^ 32 ≤ v.toNat) ∨ ((phaseAt x t.tag.toNat).lop ≠ 0 ∧ (phaseAt x t.tag.toNat).lop ≠ o.n - 0x029) →
      exec i s = .next (takeTrap causeProt v s)) ∧
    (16 ≤ t.tag.toNat → t.priv = 0 → o.n ∈ [0x02A, 0x02B, 0x02C] → exec i s = .next (takeTrap causeProt v s)) ∧
    (o.n = 0x070 → ∃ u, exec i s = .next u ∧ accessed s u t o ∧ u.mem = s.mem ∧
      (tileAt u (hereTile s)).sems = x.sems ∧
      ∀ n, n < 16 → (tileAt u (hereTile s)).semOvf.getLsbD n = (x.semOvf.getLsbD n && !v.getLsbD n)) ∧
    (o.n = 0x07A → ∃ u, exec i s = .next u ∧ accessed s u t o ∧ u.mem = s.mem ∧
      drayOf u (hereTile s) t.ctx = { drayOf s (hereTile s) t.ctx with
        spillb := BitVec.ofNat 64 (v.toNat / 2 ^ 58 * 2 ^ 58 + v.toNat % 2 ^ 48) }) ∧
    (o.n = 0x07B → ∃ u, exec i s = .next u ∧ accessed s u t o ∧ u.mem = s.mem ∧
      drayOf u (hereTile s) t.ctx = { drayOf s (hereTile s) t.ctx with spillf := v }) ∧
    (o.n = 0x07C → ∃ u, exec i s = .next u ∧ accessed s u t o ∧ u.mem = s.mem ∧
      drayOf u (hereTile s) t.ctx = { drayOf s (hereTile s) t.ctx with
        flqt := BitVec.ofNat 64 (v.toNat % 2 ^ 48 / 2 ^ 5 * 2 ^ 5) }) ∧
    (o.n = 0x082 → ∃ u, exec i s = .next u ∧ accessed s u t o ∧ u.mem = s.mem ∧ (tileAt u (hereTile s)).gsave = v) ∧
    (o.n = 0x0A6 → t.priv = 3 → ∃ u, exec i s = .next u ∧ accessed s u t o ∧ u.mem = s.mem ∧
      (pkgAt u (hereTile s / 1024)).eccc = 0) ∧
    (o.n = 0x090 → v.getLsbD 63 = true → x.pqcfg.getLsbD 63 = false → 5 ≤ v.toNat / 2 ^ 40 % 16 →
      v.toNat / 2 ^ 40 % 16 ≤ 10 → v.toNat % 1024 = 0 →
      (∀ b, granted s (hereTile s) t.ctx grantBanks b = true ∨
        ¬(v.toNat % 2 ^ 20 < (b + 1) * 65536 ∧
          b * 65536 < v.toNat % 2 ^ 20 + (v.toNat / 2 ^ 20 % 2 ^ 12 + 1) * 2 ^ (v.toNat / 2 ^ 40 % 16))) →
      v.toNat % 2 ^ 20 + (v.toNat / 2 ^ 20 % 2 ^ 12 + 1) * 2 ^ (v.toNat / 2 ^ 40 % 16) ≤ 2 ^ 20 →
      ∃ u, exec i s = .next u ∧ accessed s u t o ∧ (tileAt u (hereTile s)).pqcfg = v &&& 0x80000F00FFFFFFFF#64 ∧
        (tileAt u (hereTile s)).pqctx = t.ctx)

/-- R345, R346, R348: a grant is written, given up, or made anew. -/
def GrantWritesPart : Prop :=
  ∀ (i : Instr) (o : CsrOp) (s : State) (t : Task), csrOp i = some o → o.n = 0x081 → o.wr = true → Reaches o s t →
    let n := (tileAt s (hereTile s)).gsel.toNat % 4
    let w := (tileAt s (hereTile s)).gsel.toNat / 4
    let old := grantAt s (hereTile s) n
    let new := written old w (gGet t o.a)
    (¬GrantGood s t n w old new → exec i s = .next (takeTrap causeProt (gGet t o.a) s)) ∧
    (GrantGood s t n w old new → valid old → ¬valid new →
      ∃ u, exec i s = .next u ∧ (o.rd = false → taskAt u s.here = some (past t 4)) ∧ u.mem = s.mem ∧
        (grantAt u (hereTile s) n).leaving = true ∧ valid (grantAt u (hereTile s) n) ∧
        (grantAt u (hereTile s) n).dw0.getLsbD 43 = true) ∧
    (GrantGood s t n w old new → ¬(valid old ∧ ¬valid new) → ¬(w = 0 ∧ (gGet t o.a).getLsbD 42 = true ∧ valid new) →
      ∃ u, exec i s = .next u ∧ (o.rd = false → taskAt u s.here = some (past t 4)) ∧ u.mem = s.mem ∧
        (grantAt u (hereTile s) n).dw0 = new.dw0 ∧ (grantAt u (hereTile s) n).dw1 = new.dw1 ∧
        (grantAt u (hereTile s) n).dw2 = new.dw2 ∧
        (valid old → (grantAt u (hereTile s) n).saving = old.saving ∧ (grantAt u (hereTile s) n).leaving = old.leaving) ∧
        (valid old → ctxOf new = ctxOf old → (grantAt u (hereTile s) n).saved = old.saved))

/-- R348, Table 5: a grant written with RST copies the save area back, and queues its start entries anew without credits. -/
def GrantRestoredPart : Prop :=
  ∀ (i : Instr) (o : CsrOp) (s : State) (t : Task), csrOp i = some o → o.n = 0x081 → o.wr = true → Reaches o s t →
    let tile := hereTile s
    let n := (tileAt s tile).gsel.toNat % 4
    let old := grantAt s tile n
    let new := written old 0 (gGet t o.a)
    let base := (tileAt s tile).gsave.toNat / 4096 * 4096
    let saved := fun off => saveRead s (tile / 1024) (base + off)
    (tileAt s tile).gsel.toNat / 4 = 0 → GrantGood s t n 0 old new → (gGet t o.a).getLsbD 42 = true → valid new →
    ddrAll s (homePkg (tile / 1024) base) = true → s.stored → (∀ e ∈ s.tiles, e.2.registry = []) →
    ctxLive s (ctxOf new) = true → (BitVec.ofNat 11 (ctxOf new)) ∉ (tileAt s tile).awayKilled → (tileAt s tile).cancels = [] →
    ∃ u, exec i s = .next u ∧ (o.rd = false → taskAt u s.here = some (past t 4)) ∧ (grantAt u tile n).dw0 = new.dw0 ∧
      (∀ m, m < 16 → (tileAt u tile).sems[m]? = if grants new m then
        some (BitVec.ofNat 16 (saved (48 + 8 * (m / 4)) / 2 ^ (16 * (m % 4)))) else (tileAt s tile).sems[m]?) ∧
      (drayOf u tile (BitVec.ofNat 11 (ctxOf new))).stashb.toNat = saved 32 ∧
      (drayOf u tile (BitVec.ofNat 11 (ctxOf new))).stashl.toNat = saved 40 ∧
      (∀ b j k, b < 16 → grants new (32 + b) = true → j < 2 ^ 16 →
        mappedKey s (tile / 1024) (base + bankImage new b + j / 4096 * 4096) (s.ctxs.map (·.1)) = some k →
        cellGet u.mem (lmKey tile (b * 2 ^ 16 + j)) = cellGet s.mem (k + j % 4096)) ∧
      (∀ w j k, w < 16 → grants new (16 + w) = true → j < 2 ^ 19 →
        mappedKey s (tile / 1024) (base + wayImage new w + j / 4096 * 4096) (s.ctxs.map (·.1)) = some k →
        cellGet u.mem (vaultKey tile (w * 2 ^ 19 + j)) = cellGet s.mem (k + j % 4096)) ∧
      (∀ b j, b < 16 → grants new (32 + b) = true → j < 2 ^ 14 →
        fullGet u (lmKey tile (b * 2 ^ 16 + 4 * j)) =
          (saved (imagesEnd new + 2048 * bankCount new b + 8 * (j / 64))).testBit (j % 64)) ∧
      (∀ c, c < 7 → saved 24 = 1 →
        let e := imagesEnd new + 2048 * bankCount new 16 + 16384 * wayCount new 16
        saved e / 2 ^ 56 = 3 → saved e / 2 ^ 45 % 8 = c →
        ∃ x, (coreAt u (coreKey tile c)).entries = (coreAt s (coreKey tile c)).entries ++ [x] ∧ x.ctx.toNat = ctxOf new ∧
          x.how = 3 ∧ x.record = saved (e + 8) % 2 ^ 20 ∧ x.cls = saved e / 2 ^ 48 % 256 ∧ x.pri = saved e / 2 ^ 43 % 4 ∧
          x.tag.toNat = saved (e + 16) / 2 ^ 27 % 32 ∧ x.credit = none ∧ x.order = s.nextId ∧
          x.launch.toNat = lmGet u tile (x.record + 8) 4 ∧ x.entry = lmGet u tile x.record 8 % 2 ^ 20)

/-- A firmware call in the making (R351, R352): the slot waits in TRAP with the call's number, its fetch buffer holds the
instruction, and its registers name the caller's arguments. -/
structure Calling (n slot : Nat) (s : State) (t : Task) (a : BitVec 5) (g : BitVec 4) : Prop where
  task : taskAt s slot = some t
  waits : t.pend.want = some (.firmware n)
  instr : currentInstr s slot = some (.trap a g)
  buffer : ∃ bytes, t.fetch = some (t.pc.toNat / 32, bytes)
  within : t.pc.toNat % 32 ≤ 28 ∧ t.pc.toNat < 2 ^ 20
  passes : checks (.trap a g) t (coreNum (slotCore slot)) = none
  sound : consumesSpoilt (.trap a g) g t = false
  guard : guardHolds t g = true
  plain : t.binds = [] ∧ t.inl = none
  priv : t.priv ≠ 0
  number : gGet t a = BitVec.ofNat 64 (2 ^ 63 + n)

/-- The caller may act on a context that exists: of its own partition, or at privilege M (R334, R352). -/
def mayName (s : State) (t : Task) (ctx : Nat) (c : Ctx) : Prop :=
  ctx < 2 ^ 11 ∧ ctxAt s ctx = some c ∧ (t.priv = 3 ∨ c.part.toNat = ctxPart s t.ctx.toNat)

/-- No registration of a word of a page is on its way to a home in the package: what step 2 of R194 finds is complete. -/
def noneOnTheWay (s : State) (pkg va bytes : Nat) : Prop :=
  ∀ p ∈ s.net, ∀ w ctx k uid tag, p.body = .reg w ctx k uid tag → tilePkg (coreTile p.dst) = pkg → w < va ∨ va + bytes ≤ w

/-- The doubleword at a physical address of a package's DDR memory. -/
def ddrWord (s : State) (pkg pa : Nat) : Nat := cellsGet s.mem (ddrKey pkg pa) 8

/-- The frame of a table root may hold a page table (R193): no package maps it, and it is no inner table of another. -/
def rootFree (s : State) (root : Nat) : Prop :=
  ∀ p ∈ s.pkgs, p.2.present = true → tget s.frames (p.1 * 2 ^ 28 + root / 4096) = none ∧ root / 4096 ∉ p.2.tables

/-- A new root is an empty table in every package, and one that is a context's already stays as it is (log 20); no other byte of
storage changes. -/
def rootEmptied (s u : State) (root : Nat) : Prop :=
  ((∃ c ∈ s.ctxs, c.2.root = root) → u.mem = s.mem) ∧
  ((∀ c ∈ s.ctxs, c.2.root ≠ root) →
    (∀ p ∈ s.pkgs, p.2.present = true → ∀ n, n < 4096 → cellGet u.mem (ddrKey p.1 root + n) = 0) ∧
    (∀ k, (∀ p ∈ s.pkgs, p.2.present = true → k < ddrKey p.1 root ∨ ddrKey p.1 root + 4096 ≤ k) →
      cellGet u.mem k = cellGet s.mem k))

/-- What VOLALLOC writes at the homes after the pop (R246): a node of zeros, the counts, and ROOT, LEVM1 and LIVE. -/
def opening (pkg ctx : Nat) (priv : BitVec 2) (h node w0 : Nat) : HM Unit := do
  fillBlock pkg ctx priv node 0x8000 0
  writeH pkg (h + 56) ctx priv 8 0
  writeH pkg h ctx priv 8 w0

/-- R193, R194, R352: MAP, UNMAP and RIGHTS: the status, and the entry each leaves. -/
def PagesMappedPart : Prop :=
  ∀ (slot : Nat) (s : State) (t : Task) (a : BitVec 5) (g : BitVec 4), s.stored →
    let va := (gGet t 4).toNat
    let pkg := homePkg (tilePkg (slotTile slot)) va
    (Calling 1 slot s t a g →
      let pa := (gGet t 5).toNat
      let g6 := (gGet t 6).toNat
      let ctx := (gGet t 7).toNat
      let size := g6 % 4
      (size = 3 → ∃ u, exec (.map slot) s = .next u ∧ Returned u slot t 2 ∧ u.mem = s.mem ∧ u.frames = s.frames) ∧
      (∀ c, mayName s t ctx c → size < 3 → g6 / 4 % 4 = 0 → g6 < 2 ^ 11 → 2 ^ 36 ≤ va → va < 2 ^ 48 →
        va % (4096 * 512 ^ size) = 0 → pa % (4096 * 512 ^ size) = 0 → pa < 2 ^ 40 → pteValid (leafEntry pa (g6 / 16)) (size + 1) = true →
        pkgPresent s pkg = true →
        (mappingBreaks s pkg va pa (512 ^ size) c.part.toNat = true →
          ∃ u, exec (.map slot) s = .next u ∧ Returned u slot t 1 ∧ u.mem = s.mem ∧ u.frames = s.frames) ∧
        (mappingBreaks s pkg va pa (512 ^ size) c.part.toNat = false →
          ∀ at_ old, findEntry s pkg va (size + 1) 4 c.root = some (at_, old, size + 1) → old.getLsbD 0 = false →
          noneOnTheWay s pkg va (4096 * 512 ^ size) →
          ∃ u, exec (.map slot) s = .next u ∧ Returned u slot t 0 ∧ u.stored ∧
            ddrWord u pkg at_ = pa / 4096 * 4096 + (g6 / 16 % 2 ^ 7 ||| 0x11) ∧
            (∀ k, (k < ddrKey pkg at_ ∨ ddrKey pkg at_ + 8 ≤ k) → cellGet u.mem k = cellGet s.mem k) ∧
            (∀ n, n < 512 ^ size → tget s.frames (pkg * 2 ^ 28 + pa / 4096 + n) = none →
              tget u.frames (pkg * 2 ^ 28 + pa / 4096 + n) = some { dirty := false, part := c.part.toNat, vpn := va / 4096 + n })))) ∧
    (Calling 2 slot s t a g → ∀ c, mayName s t (gGet t 5).toNat c → 2 ^ 36 ≤ va → va < 2 ^ 48 → pkgPresent s pkg = true →
      (leafOf s pkg va (gGet t 5).toNat = none → ∃ u, exec (.unmap slot) s = .next u ∧ Returned u slot t 2 ∧ u.mem = s.mem) ∧
      (∀ at_ e level, leafOf s pkg va (gGet t 5).toNat = some (at_, e, level) →
        noneOnTheWay s pkg (va / pageBytes (level - 1) * pageBytes (level - 1)) (pageBytes (level - 1)) →
        ∃ u, exec (.unmap slot) s = .next u ∧ Returned u slot t 0 ∧ u.stored ∧ ddrWord u pkg at_ = 0)) ∧
    (Calling 3 slot s t a g → ∀ c, mayName s t (gGet t 5).toNat c → 2 ^ 36 ≤ va → va < 2 ^ 48 → pkgPresent s pkg = true →
      (gGet t 6).toNat / 4 % 4 = 0 → (gGet t 6).toNat < 2 ^ 11 →
      ∀ at_ e level, leafOf s pkg va (gGet t 5).toNat = some (at_, e, level) →
        let new := leafEntry (e.toNat / 2 ^ 12 % 2 ^ 28 * 4096) ((gGet t 6).toNat / 16)
        ((gGet t 6).toNat % 4 ≠ level - 1 → ∃ u, exec (.rights slot) s = .next u ∧ Returned u slot t 2 ∧ u.mem = s.mem) ∧
        ((gGet t 6).toNat % 4 = level - 1 → pteValid new level = true →
          noneOnTheWay s pkg (va / pageBytes (level - 1) * pageBytes (level - 1)) (pageBytes (level - 1)) →
          ∃ u, exec (.rights slot) s = .next u ∧ Returned u slot t 0 ∧ u.stored ∧ ddrWord u pkg at_ = new.toNat))

/-- R195, R196, R334, R344, R352, R363: CLEAN, LOGTAIL, CTXSET, KRING and HOSTLIST. That a second supervisor of a partition is
answered 2 is the model's choice (log 87), and so are a TVEC whose bits [8:0] are not 0 (log 97), and the caller's package as that
of LOGTAIL's and KRING's addresses (log 51). -/
def FirmwareCallsPart : Prop :=
  ∀ (slot : Nat) (s : State) (t : Task) (a : BitVec 5) (g : BitVec 4), s.stored →
    let pkg := tilePkg (slotTile slot)
    let part := ctxPart s t.ctx.toNat
    let v := (gGet t 4).toNat
    let second := (gGet t 5).toNat = 1 ∧ ∃ c ∈ s.ctxs, c.2.priv = 1 ∧ c.2.part.toNat = part ∧ c.2.dead = false
    (Calling 4 slot s t a g → 2 ^ 36 ≤ v → v < 2 ^ 48 → v % 4096 = 0 →
      ∀ k f, s.frames.find? (fun x => x.1 / 2 ^ 28 == homePkg pkg v && x.2.vpn == v / 4096) = some (k, f) →
        (t.priv ≠ 3 → f.part ≠ part → ∃ u, exec (.clean slot) s = .next u ∧ Returned u slot t 3 ∧ u.frames = s.frames) ∧
        (t.priv = 3 ∨ f.part = part → noneOnTheWay s (homePkg pkg v) v 4096 →
          ∃ u, exec (.clean slot) s = .next u ∧ Returned u slot t 0 ∧ tget u.frames k = some { f with dirty := false })) ∧
    (Calling 5 slot s t a g → ∀ d, (partAt s part).log = some d →
      (v < ddrWord s pkg (d + 24) ∨ ddrWord s pkg (d + 16) < v →
        ∃ u, exec (.logtail slot) s = .next u ∧ Returned u slot t 2 ∧ u.mem = s.mem) ∧
      (v = ddrWord s pkg (d + 24) → v ≤ ddrWord s pkg (d + 16) →
        ∃ u, exec (.logtail slot) s = .next u ∧ Returned u slot t 0 ∧ u.mem = s.mem ∧ u.parts = s.parts) ∧
      (ddrWord s pkg (d + 24) < v → v ≤ ddrWord s pkg (d + 16) →
        ∃ u, exec (.logtail slot) s = .next u ∧ Returned u slot t 0 ∧ ddrWord u pkg (d + 24) = v ∧
          (partAt u part).exitSent = false)) ∧
    (Calling 6 slot s t a g →
      (2 ^ 11 ≤ v ∨ 1 < (gGet t 5).toNat ∨ (gGet t 6).toNat % 4096 ≠ 0 ∨ 2 ^ 40 ≤ (gGet t 6).toNat ∨ (gGet t 7).toNat % 512 ≠ 0 →
        ∃ u, exec (.ctxset slot) s = .next u ∧ Returned u slot t 2 ∧ u.ctxs = s.ctxs) ∧
      (ctxLive s v = true → v < 2 ^ 11 → (gGet t 5).toNat ≤ 1 → (gGet t 6).toNat % 4096 = 0 → (gGet t 6).toNat < 2 ^ 40 →
        (gGet t 7).toNat % 512 = 0 → ∃ u, exec (.ctxset slot) s = .next u ∧ Returned u slot t 1 ∧ u.ctxs = s.ctxs) ∧
      (ctxLive s v = false → (∀ k ∈ s.kills, k.ctx ≠ v) → (∀ c, ctxAt s v = some c → t.priv = 3 ∨ c.part = part) →
        v < 2 ^ 11 → (gGet t 5).toNat ≤ 1 → (gGet t 6).toNat % 4096 = 0 → (gGet t 6).toNat < 2 ^ 40 → (gGet t 7).toNat % 512 = 0 →
        (second → ∃ u, exec (.ctxset slot) s = .next u ∧ Returned u slot t 2 ∧ u.ctxs = s.ctxs) ∧
        (¬second → ¬rootFree s (gGet t 6).toNat → ∃ u, exec (.ctxset slot) s = .next u ∧ Returned u slot t 1 ∧
          u.ctxs = s.ctxs) ∧
        (¬second → rootFree s (gGet t 6).toNat → ∃ u, exec (.ctxset slot) s = .next u ∧ Returned u slot t 0 ∧
          rootEmptied s u (gGet t 6).toNat ∧
          ((gGet t 5).toNat = 1 → (partAt u part).sup = some v) ∧
          ctxAt u v = some { part := BitVec.ofNat 6 part, priv := BitVec.ofNat 2 (gGet t 5).toNat, root := (gGet t 6).toNat,
                             tvec := gGet t 7, dead := false }))) ∧
    (Calling 7 slot s t a g →
      (v % 8 ≠ 0 ∨ 2 ^ 40 ≤ v → ∃ u, exec (.kring slot) s = .next u ∧ Returned u slot t 2 ∧ u.parts = s.parts) ∧
      (v % 8 = 0 → v < 2 ^ 40 → ∃ u, exec (.kring slot) s = .next u ∧ Returned u slot t 0 ∧ (partAt u part).kring = some (pkg, v))) ∧
    (Calling 8 slot s t a g → v < 1024 → pkgPresent s v = false → (gGet t 5).toNat ≤ 1 →
      ∃ u, exec (.hostlist slot) s = .next u ∧ Returned u slot t (if Config.isHost v then 0 else 2) ∧
        (Config.isHost v = true → ∀ p, pkgPresent s p = true → (hostName p v ∈ (partAt u part).hosts ↔ (gGet t 5).toNat = 1)))

/-- R234 to R236, R246: VOLALLOC: what it checks, and the node, the counts and the descriptor it writes. -/
def VolumesOpenedPart : Prop :=
  ∀ (a d : BitVec 5) (g : BitVec 4) (s : State) (t : Task), Executes (.volalloc a d g) g s t →
    let h := (gGet t a).toNat
    let pkg := homePkg (herePkg s) h
    let ctx := t.ctx.toNat
    let w := descWords s pkg h ctx
    let v := volOf ctx h w
    (h % 64 ≠ 0 ∨ h < 2 ^ 36 ∨ 2 ^ 48 ≤ h → exec (.volalloc a d g) s = .next (takeTrap causeProt (gGet t a) s)) ∧
    (h % 64 = 0 → 2 ^ 36 ≤ h → h < 2 ^ 48 → Quiet s t → ∀ k k', globalKey s pkg h ctx t.priv false = .ok k →
      globalKey s pkg h ctx t.priv true = .ok k' → (∀ n, n < 16 → isLost s (homeTile s pkg h) (h + 4 * n) = false) →
      spanWaits s pkg h 64 ctx = false →
      (descLive w = true ∨ descValid w = false → exec (.volalloc a d g) s = .next (takeTrap causeProt (gGet t a) s)) ∧
      (descLive w = false → descValid w = true →
        (64 ≤ (tileAt s (homeTile s pkg h)).attached.length →
          exec (.volalloc a d g) s = .next (takeTrap causeVolalloc (gGet t a ||| 3) s)) ∧
        ((tileAt s (homeTile s pkg h)).attached.length < 64 →
          (∀ n s1, popBlock pkg ctx t.priv v true s = .ok (.error n, s1) →
            exec (.volalloc a d g) s = .next (takeTrap causeVolalloc (gGet t a ||| BitVec.ofNat 64 n) s)) ∧
          (∀ node s1 s4 x, popBlock pkg ctx t.priv v true s = .ok (.ok node, s1) →
            opening pkg ctx t.priv h node (w.getD 0 0 / 2 ^ 57 * 2 ^ 57 + 2 ^ 56 + (volDepth v - 1) * 2 ^ 54 +
              w.getD 0 0 / 2 ^ 48 % 2 ^ 6 * 2 ^ 48 + node % 2 ^ 48) s1 = .ok ((), s4) → hereTask s4 = some x →
            ∃ u, exec (.volalloc a d g) s = .next u ∧ u.mem = s4.mem ∧
              taskAt u s4.here = some (past (gSet x d (gGet t a)) 4) ∧
              tget (tileAt u (homeTile s pkg h)).attached h = some []))))

/-- R248: VOLFREE of one tile: nothing for an unallocated one; else its entry goes, every attached tile is told, and once all
have answered the block returns to the pool. -/
def VolumesFreedPart : Prop :=
  ∀ (b a : BitVec 5) (g : BitVec 4) (s : State) (t : Task), Executes (.volfree b a g) g s t → b ≠ 0 →
    let h := (gGet t a).toNat
    (∀ v, t.pend.log.lookup (.broadcast 0) = none → freeingElsewhere s h = false → clbVolume s t (gGet t a) v →
      (descLive (descWords s (herePkg s) h t.ctx.toNat) = false →
        exec (.volfree b a g) s = .next (takeTrap causeProt (gGet t a) s)) ∧
      (descLive (descWords s (herePkg s) h t.ctx.toNat) = true → coordinates t v b →
      (locate v (coordsOf t b) = none → exec (.volfree b a g) s = .next (takeTrap causeVolbounds (gGet t a ||| 1) s)) ∧
      (∀ n q, locate v (coordsOf t b) = some (n, q) →
        (∀ e l, walkVol s (herePkg s) t.ctx.toNat t.priv n (fun _ => none) v = .absent e l →
          exec (.volfree b a g) s = .next (retire s t 4)) ∧
        (∀ blk e s1 x, walkVol s (herePkg s) t.ctx.toNat t.priv n (fun _ => none) v = .block blk e →
          writeH (herePkg s) e v.ctx t.priv 8 0 s = .ok ((), s1) → s1.here = s.here → hereTask s1 = some x →
          ∃ u w, exec (.volfree b a g) s = .next u ∧ u.mem = s1.mem ∧ taskAt u s.here = some w ∧ w.pc = x.pc ∧
            w.pend.want = some (.broadcast 1) ∧
            (∀ tile ∈ (tget (tileAt s1 (homeTile s1 (herePkg s) v.handle)).attached v.handle).getD [],
              ∃ p ∈ u.net, p.src = s.here ∧ p.dst = homeCore tile ∧
                p.body = .shootdown v.handle [n] false [(blk, tileBytes v)]))))) ∧
    (∀ r s1 x, t.pend.log.lookup (.broadcast 0) = some r → shootdownOut s = false →
      let v := volOf t.ctx.toNat h (descWords s (herePkg s) h t.ctx.toNat)
      pushAll (herePkg s) t.ctx.toNat t.priv v r.data (dropStaged s (herePkg s) (spansOf v r.data)) = .ok ((), s1) →
      hereTask s1 = some x →
      ∃ u, exec (.volfree b a g) s = .next u ∧ u.mem = s1.mem ∧ taskAt u s1.here = some (past x 4))

/-! ### The vector stream -/

/-- Lane n of a register of the tile's sequencer (R154). -/
def lane (s : State) (tile : Nat) (r : BitVec 4) (n : Nat) : Word := ((tileAt s tile).v[r.toNat]'r.isLt).extractLsb' (32 * n) 32
/-- Lane n of a register's value. -/
def laneIn (x : BitVec 2048) (n : Nat) : Word := x.extractLsb' (32 * n) 32
/-- A mask register; m0 reads as all ones (R154). -/
def mask (s : State) (tile : Nat) (m : BitVec 3) : BitVec 64 := if m = 0 then ~~~0#64 else (tileAt s tile).m[m.toNat]'m.isLt
/-- Lane n is enabled by a mask guard (R155). -/
def enabled (s : State) (tile : Nat) (m : BitVec 4) (n : Nat) : Bool :=
  (mask s tile (m.extractLsb' 0 3)).getLsbD n != m.getLsbD 3
/-- The state with a register, and with a mask, replaced; a write of m0 is discarded. -/
def putV (s : State) (tile : Nat) (r : BitVec 4) (x : BitVec 2048) : State :=
  modTile s tile (fun t => { t with v := t.v.set r.toNat x r.isLt })
def putM (s : State) (tile : Nat) (m : BitVec 3) (x : BitVec 64) : State :=
  if m = 0 then s else modTile s tile (fun t => { t with m := t.m.set m.toNat x m.isLt })

/-- Element j of the k elements of a lane, and a lane of k elements (R154). -/
def piece (k j : Nat) (x : Word) : Nat := x.toNat / 2 ^ (32 / k * j) % 2 ^ (32 / k)
def pieces (k : Nat) (f : Nat → Nat) : Word := BitVec.ofNat 32 (((List.range k).map (fun j => f j % 2 ^ (32 / k) * 2 ^ (32 / k * j))).sum)

/-- The integer of an element, and an exact result in an integer format: it wraps in 32 bits and saturates in fewer
(R156). -/
def intOf (w : Nat) (sg : Bool) (x : Nat) : Int := if sg then (BitVec.ofNat w x).toInt else ((x % 2 ^ w : Nat) : Int)
def intIn (w : Nat) (v : Int) : Nat :=
  if w = 32 then (v % 2 ^ 32).toNat else (max (-(2 ^ (w - 1))) (min (2 ^ (w - 1) - 1) v) % 2 ^ w).toNat

/-- A member that writes every enabled lane, or, with `all`, every lane, from lanes of the registers before it: the value of
lane n, with `r` reading a lane (R159, R160, R162, R167, R172). -/
structure LaneOp where
  dest : BitVec 4
  guard : BitVec 4
  all : Bool
  value : BitVec 17 → (BitVec 4 → Nat → Word) → (Nat → Bool) → Nat → Word

/-- Element by element over va, vb and vd. -/
def elementwise (t : BitVec 3) (b a d m : BitVec 4) (int : Int → Int → Int → Int) (flt : Fmt → Machine.Num → Machine.Num → Machine.Num → Nat) : LaneOp :=
  { dest := d
    guard := m
    all := false
    value := fun fn r _ n =>
      pieces (perLane t) (fun j =>
        let x := piece (perLane t) j (r a n)
        let y := piece (perLane t) j (r b n)
        let z := piece (perLane t) j (r d n)
        match laneElem fn t with
        | .int w sg => intIn w (int (intOf w sg x) (intOf w sg y) (intOf w sg z))
        | .flt f => flt f (decodeFlt f (x % 2 ^ fmtWidth f)) (decodeFlt f (y % 2 ^ fmtWidth f)) (decodeFlt f (z % 2 ^ fmtWidth f))) }

/-- A shift of each element by the low bits of the matching one. -/
def shifted (t : BitVec 3) (b a d m : BitVec 4) (f : Nat → Nat → Nat → Nat) : LaneOp :=
  { dest := d
    guard := m
    all := false
    value := fun _ r _ n =>
      pieces (perLane t) (fun j => f (32 / perLane t) (piece (perLane t) j (r a n)) (piece (perLane t) j (r b n) % (32 / perLane t))) }

def laneOp : Instr → Option LaneOp
  | .vadd t b a d m => some (elementwise t b a d m (fun x y _ => x + y) (fun f x y _ => (roundTo f .rne false (numAdd x y)).bits))
  | .vsub t b a d m => some (elementwise t b a d m (fun x y _ => x - y)
      (fun f x y _ => (roundTo f .rne false (numAdd x (numNeg y))).bits))
  | .vmul t b a d m => some (elementwise t b a d m (fun x y _ => x * y) (fun f x y _ => (roundTo f .rne false (numMul x y)).bits))
  | .vfma t b a d m => some (elementwise t b a d m (fun x y z => x * y + z)
      (fun f x y z => (roundTo f .rne false (numAdd (numMul x y) z)).bits))
  | .vfms t b a d m => some (elementwise t b a d m (fun x y z => x * y - z)
      (fun f x y z => (roundTo f .rne false (numAdd (numMul x y) (numNeg z))).bits))
  | .vmin t b a d m => some (elementwise t b a d m (fun x y _ => min x y) (fun f x y _ => (roundTo f .rne false (numMin x y)).bits))
  | .vmax t b a d m => some (elementwise t b a d m (fun x y _ => max x y) (fun f x y _ => (roundTo f .rne false (numMax x y)).bits))
  | .vabs t a d m => some (elementwise t a a d m (fun x _ _ => if x < 0 then -x else x)
      (fun f x _ _ => (roundTo f .rne false (numAbs x)).bits))
  | .vneg t a d m => some (elementwise t a a d m (fun x _ _ => -x) (fun f x _ _ => (roundTo f .rne false (numNeg x)).bits))
  | .vmov _ a d m => some ⟨d, m, false, fun _ r _ n => r a n⟩
  | .vand _ b a d m => some ⟨d, m, false, fun _ r _ n => r a n &&& r b n⟩
  | .vor _ b a d m => some ⟨d, m, false, fun _ r _ n => r a n ||| r b n⟩
  | .vxor _ b a d m => some ⟨d, m, false, fun _ r _ n => r a n ^^^ r b n⟩
  | .vshl t b a d m => some (shifted t b a d m (fun w x y => x * 2 ^ y % 2 ^ w))
  | .vshr t b a d m => some (shifted t b a d m (fun _ x y => x / 2 ^ y))
  | .vsra t b a d m => some (shifted t b a d m (fun w x y => ((BitVec.ofNat w x).toInt / 2 ^ y % 2 ^ w).toNat))
  | .vsel b a d m => some ⟨d, m, true, fun _ r on n => if on n then r a n else r b n⟩
  | .vperm b a d m => some ⟨d, m, false, fun _ r _ n => r a ((r b n).toNat % 64)⟩
  | .vbcast a d m => some ⟨d, m, false, fun _ r _ _ => r a 0⟩
  | .vexp a d m => some ⟨d, m, false, fun _ r _ n => roundF32 (numExp2 (f32Val (r a n)))⟩
  | .vlog a d m => some ⟨d, m, false, fun _ r _ n => roundF32 (numLogTwo (f32Val (r a n)))⟩
  | .vrcp a d m => some ⟨d, m, false, fun _ r _ n => roundF32 (numRecip (f32Val (r a n)))⟩
  | .vrsq a d m => some ⟨d, m, false, fun _ r _ n => roundF32 (numRsqrt (f32Val (r a n)))⟩
  | _ => none

/-- A reduction or scan: its type, source, destination, guard, whether it scans, its operation on two lanes and its identity
(R44, R166, R167, Table 8). -/
structure FoldOp where
  src : BitVec 4
  dest : BitVec 4
  guard : BitVec 4
  scan : Bool
  op : Word → Word → Word
  unit : Word

/-- Addition, the lesser and the greater, in types F32, I32 and N32. -/
def addOf (t : BitVec 3) (x y : Word) : Word :=
  if t = 0 then roundF32 (numAdd (f32Val x) (f32Val y)) else BitVec.ofNat 32 (x.toNat + y.toNat)
def minOf (t : BitVec 3) (x y : Word) : Word :=
  if t = 0 then roundF32 (numMin (f32Val x) (f32Val y))
  else if t = 1 then BitVec.ofInt 32 (min x.toInt y.toInt) else BitVec.ofNat 32 (min x.toNat y.toNat)
def maxOf (t : BitVec 3) (x y : Word) : Word :=
  if t = 0 then roundF32 (numMax (f32Val x) (f32Val y))
  else if t = 1 then BitVec.ofInt 32 (max x.toInt y.toInt) else BitVec.ofNat 32 (max x.toNat y.toNat)
def minUnit (t : BitVec 3) : Word := if t = 0 then 0x7F800000 else if t = 1 then 0x7FFFFFFF else 0xFFFFFFFF
def maxUnit (t : BitVec 3) : Word := if t = 0 then 0xFF800000 else if t = 1 then 0x80000000 else 0

def foldOp : Instr → Option FoldOp
  | .vredAdd t a d m => some ⟨a, d, m, false, addOf t, 0⟩
  | .vredMin t a d m => some ⟨a, d, m, false, minOf t, minUnit t⟩
  | .vredMax t a d m => some ⟨a, d, m, false, maxOf t, maxUnit t⟩
  | .vredAnd _ a d m => some ⟨a, d, m, false, fun x y => x &&& y, 0xFFFFFFFF⟩
  | .vredOr _ a d m => some ⟨a, d, m, false, fun x y => x ||| y, 0⟩
  | .vredXor _ a d m => some ⟨a, d, m, false, fun x y => x ^^^ y, 0⟩
  | .vscanAdd t a d m => some ⟨a, d, m, true, addOf t, 0⟩
  | .vscanMin t a d m => some ⟨a, d, m, true, minOf t, minUnit t⟩
  | .vscanMax t a d m => some ⟨a, d, m, true, maxOf t, maxUnit t⟩
  | .vscanAnd _ a d m => some ⟨a, d, m, true, fun x y => x &&& y, 0xFFFFFFFF⟩
  | .vscanOr _ a d m => some ⟨a, d, m, true, fun x y => x ||| y, 0⟩
  | .vscanXor _ a d m => some ⟨a, d, m, true, fun x y => x ^^^ y, 0⟩
  | _ => none

/-- The tree of R44 over 2^n leaves: neighbours are joined first. -/
def tree (f : Word → Word → Word) (leaf : Nat → Word) : Nat → Nat → Word
  | 0, k => leaf k
  | n + 1, k => f (tree f leaf n (2 * k)) (tree f leaf n (2 * k + 1))

/-- The conditions of VCMP: type, sources, mask, guard and the condition on two lanes (R161). -/
structure CompareOp where
  a : BitVec 4
  b : BitVec 4
  dest : BitVec 3
  guard : BitVec 4
  cond : Word → Word → Bool

/-- The order of two lanes of a type; none for a NaN. -/
def orderOf (t : BitVec 3) (x y : Word) : Option Ordering :=
  if t = 0 then numCmp (f32Val x) (f32Val y)
  else if t = 1 then some (if x.toInt < y.toInt then .lt else if x = y then .eq else .gt)
  else some (if x.toNat < y.toNat then .lt else if x = y then .eq else .gt)

def compareOp : Instr → Option CompareOp
  | .vcmpEq t b a d m => some ⟨a, b, d, m, fun x y => orderOf t x y == some .eq⟩
  | .vcmpNe t b a d m => some ⟨a, b, d, m, fun x y => orderOf t x y != some .eq⟩
  | .vcmpLt t b a d m => some ⟨a, b, d, m, fun x y => orderOf t x y == some .lt⟩
  | .vcmpLe t b a d m => some ⟨a, b, d, m, fun x y => orderOf t x y == some .lt || orderOf t x y == some .eq⟩
  | .vcmpGt t b a d m => some ⟨a, b, d, m, fun x y => orderOf t x y == some .gt⟩
  | .vcmpGe t b a d m => some ⟨a, b, d, m, fun x y => orderOf t x y == some .gt || orderOf t x y == some .eq⟩
  | .vcmpUn t b a d m => some ⟨a, b, d, m, fun x y => orderOf t x y == none⟩
  | .vcmpOrd t b a d m => some ⟨a, b, d, m, fun x y => orderOf t x y != none⟩
  | _ => none

/-- A vector access to memory: the register it loads or stores, the guard, whether it stores, and the address of lane n
(R163, Table 6). -/
structure VecAccess where
  reg : BitVec 4
  guard : BitVec 4
  store : Bool
  addr : (BitVec 4 → Nat → Word) → Nat → Int

def vecAccess : Instr → Option VecAccess
  | .vld a d m => some ⟨d, m, false, fun r n => (r a 0).toNat + 4 * n⟩
  | .vst a d m => some ⟨d, m, true, fun r n => (r a 0).toNat + 4 * n⟩
  | .vlds b a d m => some ⟨d, m, false, fun r n => (r a 0).toNat + n * (r b 0).toInt⟩
  | .vsts b a d m => some ⟨d, m, true, fun r n => (r a 0).toNat + n * (r b 0).toInt⟩
  | .vgath b a d m => some ⟨d, m, false, fun r n => (r a 0).toNat + 4 * (r b n).toInt⟩
  | .vscat b a d m => some ⟨d, m, true, fun r n => (r a 0).toNat + 4 * (r b n).toInt⟩
  | _ => none

/-- What is wrong with a lane's address: the kind of the late fault (R164). -/
def laneFault (s : State) (tile : Nat) (ctx : BitVec 11) (x : Int) : Option (BitVec 8) :=
  if x % 4 ≠ 0 then some 5
  else if 0 ≤ x ∧ x < 2 ^ 20 then (if granted s tile ctx grantBanks (x.toNat / 2 ^ 16) then none else some 2)
  else if 2 ^ 23 ≤ x ∧ x < 2 ^ 24 then
    (if wayRole s tile ((x.toNat - 2 ^ 23) / 2 ^ 19) = 2 ∧ granted s tile ctx grantWays ((x.toNat - 2 ^ 23) / 2 ^ 19) = true then none
     else some 1)
  else some 1

/-- Where a lane's word lies in storage. -/
def wordKey (tile : Nat) (x : Int) : Nat := if x < 2 ^ 20 then lmKey tile x.toNat else vaultKey tile (x.toNat - 2 ^ 23)

/-- The stream of a tile has been stopped by a late fault of a kind (R173): its ring entry, of the VGO's sequence number,
names the kind, the address, the word and the place; storage is as before. -/
structure Stopped (s u : State) (tile : Nat) (st : Stream) (kind : BitVec 8) (addr : Dword) : Prop where
  ended : (tileAt u tile).stream = none
  stored : u.mem = s.mem
  sems : (tileAt u tile).sems = (tileAt s tile).sems
  queues : (tileAt u tile).queues = (tileAt s tile).queues
  entry : ∀ e ∈ (coreAt u (coreKey tile 6)).ring, e.seq = st.seq → e.state = 4 ∧ e.kind = kind ∧ e.addr = addr ∧
    e.origin = BitVec.ofNat 64 st.pc.toNat

/-- The oldest entry of a queue has left it, and nothing else of the tile or of storage has changed (R151). -/
structure Moved (s u : State) (tile q : Nat) (rest : List Dword) : Prop where
  same : u = { s with tiles := u.tiles, tasks := u.tasks }
  queue : queueAt u tile q = rest
  others : ∀ n, n ≠ q → queueAt u tile n = queueAt s tile n
  regs : (tileAt u tile).v = (tileAt s tile).v ∧ (tileAt u tile).m = (tileAt s tile).m
  sems : (tileAt u tile).sems = (tileAt s tile).sems

/-- The stream waits on a queue, with nothing done (R152). -/
structure WaitsOn (s u : State) (tile q : Nat) (st : Stream) : Prop where
  stream : ∃ v, (tileAt u tile).stream = some v ∧ v.pc = st.pc ∧ v.waiting = some q ∧ v.lcount = st.lcount
  regs : (tileAt u tile).v = (tileAt s tile).v ∧ (tileAt u tile).m = (tileAt s tile).m
  queues : ∀ n, queueAt u tile n = queueAt s tile n
  mem : u.mem = s.mem

/-- The stream has noted the vault ways that its enabled lanes meet, and the state is else as it was (R184). -/
structure Noted (s s0 : State) (tile : Nat) (st : Stream) (on : Nat → Bool) (addr : Nat → Int) : Prop where
  same : s0 = s ∨ ∃ w, s0 = modStream s tile (fun y => { y with ways := y.ways ||| w })
  ways : ∃ v, (tileAt s0 tile).stream = some v ∧ ∀ k, k < 16 →
    (v.ways.getLsbD k = true ↔ st.ways.getLsbD k = true ∨
      ∃ n, n < 64 ∧ on n = true ∧ 2 ^ 23 ≤ addr n ∧ ((addr n).toNat - 2 ^ 23) / 2 ^ 19 = k)

/-- R44, R166, R167: reductions write lane 0 by the tree, scans the running values of the enabled lanes. -/
def VectorFoldsPart : Prop :=
  ∀ (i : Instr) (op : FoldOp) (s : State) (tile : Nat) (st : Stream), foldOp i = some op → i.wf = true → Streams s tile st →
    ∃ x, exec i s = .next (streamPast (putV s tile op.dest x) tile) ∧
      (op.scan = false →
        laneIn x 0 = tree op.op (fun n => if enabled s tile op.guard n then lane s tile op.src n else op.unit) 6 0 ∧
        ∀ n, 0 < n → n < 64 → laneIn x n = lane s tile op.dest n) ∧
      (op.scan = true → ∀ n, n < 64 → laneIn x n =
        if enabled s tile op.guard n then
          (((List.range (n + 1)).filter (enabled s tile op.guard)).map (lane s tile op.src)).foldl op.op op.unit
        else lane s tile op.dest n)

/-- R161, R162: compares and mask operations. -/
def VectorMasksPart : Prop :=
  ∀ (s : State) (tile : Nat) (st : Stream), Streams s tile st →
    (∀ (i : Instr) (op : CompareOp), compareOp i = some op → i.wf = true →
      ∃ x, exec i s = .next (streamPast (putM s tile op.dest x) tile) ∧
        ∀ n, n < 64 → x.getLsbD n = (enabled s tile op.guard n && op.cond (lane s tile op.a n) (lane s tile op.b n))) ∧
    (∀ b a d : BitVec 3,
      exec (.vmand b a d) s = .next (streamPast (putM s tile d (mask s tile a &&& mask s tile b)) tile) ∧
      exec (.vmor b a d) s = .next (streamPast (putM s tile d (mask s tile a ||| mask s tile b)) tile) ∧
      exec (.vmnot a d) s = .next (streamPast (putM s tile d (~~~mask s tile a)) tile))

/-- R151 to R153, R158, R165: the stream's queue members, its end, its BR and its LOOP. -/
def VectorControlPart : Prop :=
  ∀ (s : State) (tile : Nat) (st : Stream), Streams s tile st →
    (∀ (q : BitVec 3) (d m : BitVec 4) (e : Dword) (r : List Dword), queueAt s tile q.toNat = e :: r →
      reservedAt s tile q.toNat = [] →
      (∃ x s0, Moved s s0 tile q.toNat r ∧
        exec (.vldq q d m) s = .next (streamPast (putV (acquireCore s0 (coreKey tile 6)) tile d x) tile) ∧
        ∀ n, n < 64 → laneIn x n =
          if n < 2 ∧ enabled s tile m n = true then e.extractLsb' (32 * n) 32 else lane s tile d n) ∧
      (∃ x s0, Moved s s0 tile q.toNat r ∧
        exec (.vbcq q d m) s = .next (streamPast (putV (acquireCore s0 (coreKey tile 6)) tile d x) tile) ∧
        ∀ n, n < 64 → laneIn x n = if enabled s tile m n then e.extractLsb' 0 32 else lane s tile d n)) ∧
    (∀ (q : BitVec 3) (d m : BitVec 4), queueAt s tile q.toNat = [] → queueClosed s tile q.toNat = true →
      (∃ x, exec (.vldq q d m) s = .next (streamPast (putV (acquireCore s (coreKey tile 6)) tile d x) tile) ∧
        ∀ n, n < 64 → laneIn x n = if n < 2 ∧ enabled s tile m n = true then 0 else lane s tile d n) ∧
      (∃ x, exec (.vbcq q d m) s = .next (streamPast (putV (acquireCore s (coreKey tile 6)) tile d x) tile) ∧
        ∀ n, n < 64 → laneIn x n = if enabled s tile m n then 0 else lane s tile d n)) ∧
    (∀ (q : BitVec 3) (d m : BitVec 4), queueAt s tile q.toNat = [] → queueClosed s tile q.toNat = false →
      ∀ i ∈ [Instr.vldq q d m, .vbcq q d m], ∃ u, exec i s = .next u ∧ WaitsOn s u tile q.toNat st) ∧
    (∀ (a : BitVec 4) (q : BitVec 3) (m : BitVec 4), (queueAt s tile q.toNat).length < 16 →
      exec (.vstq a q m) s = .next (streamPast (setQueue s tile q.toNat (queueAt s tile q.toNat ++
        [BitVec.ofNat 64 ((lane s tile a 1).toNat * 2 ^ 32 + (lane s tile a 0).toNat)])) tile)) ∧
    (∀ (a : BitVec 4) (q : BitVec 3) (m : BitVec 4), 16 ≤ (queueAt s tile q.toNat).length →
      ∃ u, exec (.vstq a q m) s = .next u ∧ WaitsOn s u tile q.toNat st) ∧
    (∃ u, exec (.vend 0 0) s = .next u ∧ (tileAt u tile).stream = none ∧ u.mem = s.mem ∧
      (tileAt u tile).sems = (tileAt s tile).sems ∧
      (∀ e ∈ (coreAt u (coreKey tile 6)).ring, e.seq = st.seq → e.state = 3)) ∧
    (∀ n : BitVec 4,
      (granted s tile st.ctx grantSems n.toNat = true → ∃ u, exec (.vend 1 n) s = .next u ∧ (tileAt u tile).stream = none ∧
        u.mem = s.mem ∧ ((tileAt s tile).sems[n.toNat]'n.isLt ≠ 0xFFFF → (tileAt u tile).sems =
          (tileAt s tile).sems.set n.toNat ((tileAt s tile).sems[n.toNat]'n.isLt + 1) n.isLt)) ∧
      (granted s tile st.ctx grantSems n.toNat = false →
        ∃ u, exec (.vend 1 n) s = .next u ∧ Stopped s u tile st 2 (BitVec.ofNat 64 n.toNat))) ∧
    (∀ (d : BitVec 21) (m : BitVec 4),
      ((∀ n, n < 64 → enabled s tile m n = false) → exec (.streamBr d m) s = .next (streamPast s tile)) ∧
      ((∃ n, n < 64 ∧ enabled s tile m n = true) → ∃ u v, exec (.streamBr d m) s = .next u ∧ u.mem = s.mem ∧
        (tileAt u tile).stream = some v ∧ v.pc = BitVec.ofInt 48 (st.pc.toNat + 2 * d.toInt) ∧ v.lstart = st.lstart ∧
        v.lend = st.lend)) ∧
    (∀ (len : BitVec 11) (q : BitVec 3) (m : BitVec 4),
      ((∀ n, n < 64 → enabled s tile m n = false) → exec (.streamLoop len q m) s = .next (streamPast s tile)) ∧
      ((∃ n, n < 64 ∧ enabled s tile m n = true) → ∀ n r, queueAt s tile q.toNat = n :: r →
        reservedAt s tile q.toNat = [] →
        ∃ u v, exec (.streamLoop len q m) s = .next u ∧ u.mem = s.mem ∧ queueAt u tile q.toNat = r ∧
          (tileAt u tile).stream = some v ∧ v.lcount = n ∧ v.lstart = BitVec.ofNat 64 (st.pc.toNat + 4) ∧
          v.lend = BitVec.ofNat 64 (st.pc.toNat + 4 + 2 * len.toNat) ∧
          v.pc = BitVec.ofNat 48 (st.pc.toNat + 4 + if n = 0 then 2 * len.toNat else 0)))

/-- R52, R152, R157, R173: a task may execute no member of the stream; a stream that has waited 2^20 cycles on a queue
stops, with the waiting word in SWORD and an ADDR that is a free value, the spec tying none to it (log 18). -/
def StreamMembersElsewherePart : Prop :=
  (∀ (i : Instr) (s : State) (t : Task), whereOf i = .stream → s.here ≠ streamKey (hereTile s) → hereTask s = some t →
    exec i s = .next (takeTrap causeIllegal (bitsHere s t) s)) ∧
  (∀ (tile : Nat) (s : State),
    (∀ st q, (tileAt s tile).stream = some st → st.waiting = some q →
      (2 ^ 20 ≤ st.qwait → ∃ u addr, exec (.queueWaitTimeout tile) s = .next u ∧ u.draws = s.draws + 1 ∧
        Stopped s u tile st 9 addr ∧
        ∀ w, st.word = some w → ∀ e ∈ (coreAt u (coreKey tile 6)).ring, e.seq = st.seq → e.sword = w) ∧
      (st.qwait < 2 ^ 20 → exec (.queueWaitTimeout tile) s = .next s)) ∧
    ((tileAt s tile).stream = none → exec (.queueWaitTimeout tile) s = .next s))

/-! ### What arrives -/

/-- A packet may arrive (R111): it is the next of its way and has a route (R357), the storage it needs is trained (R376), no RESIZE
waits to change its way (R184), a message of the device's own has its credit (R110), and a message's tile is ready (R376). -/
structure Arrives (s : State) (id : Nat) (p : Packet) : Prop where
  next : arriving s id = some p
  route : stranded s p = false
  ready : ddrHolds s p = false
  still : resizeHolds s p.body = false
  credit : ownCredit s p = true
  group : (msgOf p.body).isSome = true → groupReady s (coreTile p.dst) = true

/-- A message of a class arrives, aimed as its class asks, for a context that lives and holds its grant on the tile, and no cancel
covers it (R106, R118, R343, R346, R363); of what the device itself sends a cancel stops a gang's LAUNCH alone (R372). -/
structure Taken (s : State) (id : Nat) (p : Packet) (cls : Nat) (h : Dword) (pl : List Dword) : Prop where
  arrives : Arrives s id p
  carries : p.body = .msg h pl ∨ p.body = .own h pl
  class_ : hdrClass h = cls
  present : pkgPresent s (tilePkg (coreTile p.dst)) = true
  aimed : p.body = .msg h pl → targetOk cls p.dst = true ∧ nlogOk cls (hdrNlog h) = true
  listed : hostListed s (tilePkg (coreTile p.dst)) p.src (hdrCtx h).toNat = true
  live : ctxLive s (hdrCtx h).toNat = true
  accepts : accepts s (coreTile p.dst) (hdrCtx h) = true
  going : p.body = .msg h pl ∨ cls = 1 → cancelled s (coreTile p.dst) (hdrCtx h)
    (if cls = 1 then BitVec.ofNat 32 (pl.getD 0 0).toNat else p.launch) (hdrTag h) = false

/-- The packet is off the network, the others are as they were, and some may be new. -/
def arrived (s u : State) (id : Nat) : Prop := ∃ l, u.net = s.net.filter (fun q => q.id != id) ++ l

/-- A TRAPEV of a kind and cause is on its way to a core (R145, Table 8). -/
def Reported (u : State) (dst kind cause : Nat) : Prop :=
  ∃ q ∈ u.net, q.dst = dst ∧ ∃ h pl, q.body = .own h pl ∧ hdrClass h = 15 ∧ (pl.getD 0 0).toNat / 2 ^ 63 = 1 ∧
    (pl.getD 0 0).toNat / 2 ^ 48 % 2 ^ 15 = kind ∧ (pl.getD 0 0).toNat / 2 ^ 40 % 2 ^ 8 = cause

/-- The launch counts a task of a message from the sending on, and of a host's message from its arrival on (R116). -/
def counts (s : State) (p : Packet) : Nat := if pkgPresent s (tilePkg (slotTile p.src)) then 0 else 1

/-- The line words that the tiles of a phase have contributed under an operation (R362). -/
def contributed (s : State) (tiles : List Nat) (n op : Nat) : List Dword :=
  tiles.filterMap (fun x => if (phaseAt (tileAt s x) n).lop = op then some (phaseAt (tileAt s x) n).lword else none)

/-- R362, Table 3: the word of a phase: the sum modulo 2^64, the greatest as unsigned, or the greatest as F32, of what its tiles
contributed under one operation; 0 where none did. -/
structure LineCombined (s : State) (tiles : List Nat) (n : Nat) (word : Dword) : Prop where
  none_ : (∀ x ∈ tiles, (phaseAt (tileAt s x) n).lop = 0) → word = 0
  some_ : ∀ op, op ≠ 0 → (∃ x ∈ tiles, (phaseAt (tileAt s x) n).lop = op) →
    (∀ x ∈ tiles, (phaseAt (tileAt s x) n).lop = 0 ∨ (phaseAt (tileAt s x) n).lop = op) →
    (op = 1 → word = BitVec.ofNat 64 ((contributed s tiles n 1).map (·.toNat)).sum) ∧
    (op = 2 → word.toNat = ((contributed s tiles n 2).map (·.toNat)).foldl max 0) ∧
    (op = 3 → word = BitVec.ofNat 64 ((contributed s tiles n 3).foldl (fun a w => higherWord a (BitVec.ofNat 32 w.toNat))
      0xFF800000#32).toNat)

/-- A start entry made from a routine's entry word (R107, R114). -/
structure MadeFrom (x : Entry) (e : Dword) (ctx : BitVec 11) (launch : Word) (how : Nat) (h : Dword) (pl : List Dword) : Prop where
  ctx : x.ctx = ctx
  launch : x.launch = launch
  how : x.how = how
  entry : x.entry = e.toNat % 2 ^ 20
  pri : x.pri = e.toNat / 2 ^ 61 % 4
  counts : x.gcode.toNat = e.toNat / 2 ^ 59 % 4 ∧ x.fcode.toNat = e.toNat / 2 ^ 57 % 4
  payload : x.payload = pl
  tag : x.tag = hdrTag h

/-- A slot that still waits with a request has the reply in its log (R340). -/
def Given (s u : State) (slot req : Nat) (r : Reply) : Prop :=
  ∀ t w, taskAt s slot = some t → t.pend.req = req → t.pend.want = some w →
    taskAt u slot = some { t with pend := { t.pend with want := none, log := (w, r) :: t.pend.log } }

/-- Every entry of a home's registry that holds a word is of one owner (R202). -/
def solelyOwned (s : State) (home va owner : Nat) : Prop :=
  ∀ e ∈ (tileAt s home).registry, regHas e va = true → e.owner = owner
/-- No entry of a home's registry holds a word. -/
def unowned (s : State) (home va : Nat) : Prop := ∀ e ∈ (tileAt s home).registry, regHas e va = false

/-- What stays of a word of an L1 whose ownership has changed: it goes once it is unregistered and no line holds it (R213). -/
def kept (x : L1Word) : Option L1Word := if x.own = .clean ∧ x.row = false ∧ x.column = false then none else some x

/-- A packet with a body goes to a core. -/
def Goes (u : State) (dst : Nat) (b : Body) : Prop := ∃ q ∈ u.net, q.dst = dst ∧ q.body = b

/-- The line leaves its home for the reader (R204): eight words in order, each gathered from another owner, the reader's own, or of storage, marked 1
where it is lost and 2 where it is poisoned (R216, R379). -/
def LineSent (s u : State) (home line ctx : Nat) (grant : Bool) (got : List (Nat × Word)) (slot req : Nat) : Prop :=
  ∃ words : List (Nat × Word × Nat), Goes u (slotCore slot) (.filled line ctx grant words 0 slot req) ∧ words.length = 8 ∧
    ∀ n, n < 8 → ∃ v, words[n]? = some (line + 4 * n, v,
        if isLost s home (line + 4 * n) then 1 else if isPoisoned s home (line + 4 * n) then 2 else 0) ∧
      (∀ x, got.lookup (line + 4 * n) = some x → v = x) ∧
      (got.lookup (line + 4 * n) = none → ∀ k, mappedKey s (tilePkg home) (line + 4 * n) [ctx] = some k →
        (∀ w, ownerOf s home (line + 4 * n) = some (slotCore slot) → l1Get s (slotCore slot) (line + 4 * n) = some w → v = w.val) ∧
        (ownerOf s home (line + 4 * n) = none → v = BitVec.ofNat 32 (cellsGet s.mem k 4)))

/-- R196, R201, R204, R216: a read or write request at its home; one that a full dirty log holds is kept and tried again; the
grant alone goes when the line is present; a forwarded read gathers the owner's words. -/
def LinesServedPart : Prop :=
  (∀ (id line ctx : Nat) (priv : BitVec 2) (present held : Bool) (s : State) (p : Packet), Arrives s id p →
    p.body = .fill line ctx priv false present held →
    let home := coreTile p.dst
    (∀ c, globalKey s (tilePkg home) line ctx priv false = .error c → ∃ u, exec (.lineFill id) s = .next u ∧
      arrived s u id ∧ u.mem = s.mem ∧ Goes u (slotCore p.src) (.filled line ctx false [] c p.src id)) ∧
    (∀ k, globalKey s (tilePkg home) line ctx priv false = .ok k →
      (∀ o, nextOwner s home line [] (slotCore p.src) = some o → ∃ u, exec (.lineFill id) s = .next u ∧ arrived s u id ∧
        u.mem = s.mem ∧ Goes u o (.forward line ctx false [] p.src id)) ∧
      (nextOwner s home line [] (slotCore p.src) = none → ∃ u, exec (.lineFill id) s = .next u ∧ arrived s u id ∧
        u.mem = s.mem ∧ LineSent s u home line ctx false [] p.src id))) ∧
  (∀ (id line ctx : Nat) (priv : BitVec 2) (present held : Bool) (s : State) (p : Packet), Arrives s id p →
    p.body = .fill line ctx priv true present held →
    let home := coreTile p.dst
    ∀ i, (i = .writeRequest id ∨ (i = .heldWriteResume id ∧ held = true)) →
      (∀ c, globalKey s (tilePkg home) line ctx priv true = .error c → ∃ u, exec i s = .next u ∧ arrived s u id ∧
        u.mem = s.mem ∧ Goes u (slotCore p.src) (.filled line ctx true [] c p.src id)) ∧
      (∀ k, globalKey s (tilePkg home) line ctx priv true = .ok k →
        (∀ part, dirtyStep s k line ctx = .error part → ∃ u, exec i s = .next u ∧ u.mem = s.mem ∧
          (partAt u part).exitSent = true ∧ ∃ q ∈ u.net, q.id = id ∧ q.body = .fill line ctx priv true present true) ∧
        (∀ s1, dirtyStep s k line ctx = .ok s1 →
          (present = true → ∃ u, exec i s = .next u ∧ arrived s1 u id ∧ u.mem = s1.mem ∧
            Goes u (slotCore p.src) (.filled line ctx true [] 0 p.src id)) ∧
          (present = false → nextOwner s1 home line [] (slotCore p.src) = none →
            (translate s1 (tilePkg home) line ctx).isSome = true →
            ∃ u, exec i s = .next u ∧ arrived s1 u id ∧ u.mem = s1.mem ∧
              LineSent s1 u home line ctx true [] p.src id)))) ∧
  (∀ (id line ctx slot req : Nat) (grant : Bool) (got : List (Nat × Word)) (s : State) (p : Packet),
    Arrives s id p → p.body = .forward line ctx grant got slot req →
    let home := slotTile p.src
    ∃ got', (∀ va x, got.lookup va = some x → got'.lookup va = some x) ∧
      (∀ n w, n < 8 → got.lookup (line + 4 * n) = none → ownerOf s home (line + 4 * n) = some p.dst →
        l1Get s p.dst (line + 4 * n) = some w → got'.lookup (line + 4 * n) = some w.val) ∧
      (∀ o, nextOwner s home line got' (slotCore slot) = some o → ∃ u, exec (.forwardedRead id) s = .next u ∧
        arrived s u id ∧ u.mem = s.mem ∧ Goes u o (.forward line ctx grant got' slot req)) ∧
      (nextOwner s home line got' (slotCore slot) = none → (translate s (tilePkg home) line ctx).isSome = true →
        ∃ u, exec (.forwardedRead id) s = .next u ∧ arrived s u id ∧ u.mem = s.mem ∧
          LineSent s u home line ctx grant got' slot req))

/-- R204, R205, R211 to R213: the arrival of a line at the reader: it is installed once the L1 has room for it (what an eviction of
another line leaves is `s1`), or served to the access that waits and not installed, or asked for again. -/
def FillsArrivePart : Prop :=
  (∀ (slot : Nat) (s : State), exec (.speculativeReplay slot) s = .next s) ∧
  (∀ (id line ctx slot req : Nat) (grant : Bool) (words : List (Nat × Word × Nat)) (cause : Cause) (s : State) (p : Packet)
      (f : Fill), Arrives s id p → p.body = .filled line ctx grant words cause slot req → (words.map (·.1)).Nodup →
    (coreAt s p.dst).fills.find? (fun x => x.id == req) = some f →
    (cause ≠ 0 → ∃ u, exec (.fillArrival id) s = .next u ∧ arrived s u id ∧ Given s u slot req (Reply.trap cause 0) ∧
      (coreAt u p.dst).l1 = (coreAt s p.dst).l1) ∧
    (cause = 0 → f.stale = false → l1Room s p.dst (rowLine line) = none → exec (.fillArrival id) s = .next s) ∧
    (cause = 0 → f.stale = false → ∀ s1, l1Room s p.dst (rowLine line) = some s1 →
      ∃ u r, exec (.fillArrival id) s = .next u ∧ arrived s1 u id ∧ u.mem = s.mem ∧
      r.cause = 0 ∧ r.data.length = words.length ∧ Given s1 u slot req r ∧
      (grant = true → (line, ctx) ∈ (coreAt u p.dst).grants) ∧
      (∀ va v n, (va, v, n) ∈ words → n ≠ 0 → l1Get u p.dst va = l1Get s1 p.dst va) ∧
      (∀ va v, (va, v, 0) ∈ words → ∃ x, l1Get u p.dst va = some x ∧ ctx ∈ x.ctxs ∧ x.row = true ∧
        (∀ y, l1Get s1 p.dst va = some y → x.own = y.own ∧ x.val = (if y.own = .clean then v else y.val)) ∧
        (l1Get s1 p.dst va = none → x.own = .clean ∧ x.val = v))) ∧
    (cause = 0 → f.stale = true → grant = false → ∃ u r, exec (.fillArrival id) s = .next u ∧ arrived s u id ∧
      r.cause = 0 ∧ r.data.length = words.length ∧ Given s u slot req r ∧ (coreAt u p.dst).l1 = (coreAt s p.dst).l1) ∧
    (cause = 0 → f.stale = true → grant = true → ∀ t, taskAt s slot = some t → t.pend.req = req →
      ∃ u, exec (.fillArrival id) s = .next u ∧ (coreAt u p.dst).l1 = (coreAt s p.dst).l1 ∧
        ∃ q ∈ u.net, q.src = slot ∧ q.dst = homeCore (slotTile p.src) ∧ q.body = .fill line ctx t.priv true false false))

/-- R201 to R203, R213, R214, R216: registrations, revokes, recalls and write-backs. -/
def WordsOwnedPart : Prop :=
  (∀ (id va ctx slot uid k : Nat) (tag : BitVec 5) (s : State) (p : Packet) (t : Task), Arrives s id p →
    p.body = .reg va ctx slot uid tag → taskAt s k = some t → (∃ o ∈ t.outs, o.id = id) →
    let home := coreTile p.dst
    let core := slotCore p.src
    let others := (tileAt s home).registry.filter (fun e => e.line == lineOf va && e.owner != core && (e.mask &&& ~~~(maskBit va)) != 0)
    ((tileAt s home).sliceBad = true → ∃ u v, exec (.registration id) s = .next u ∧ arrived s u id ∧ u.mem = s.mem ∧
      taskAt u k = some v ∧ v.outs = t.outs.filter (fun o => o.id != id) ∧
      v.refused = (if t.refused = none then some (causeMcheck, BitVec.ofNat 64 va) else t.refused)) ∧
    ((tileAt s home).sliceBad = false → (tileAt s (slotTile p.src)).fenced = true → ∃ u v, exec (.registration id) s = .next u ∧
      arrived s u id ∧ u.mem = s.mem ∧ taskAt u k = some v ∧ v.lost = t.lost ++ [va] ∧ isLost u home va = true) ∧
    ((tileAt s home).sliceBad = false → (tileAt s (slotTile p.src)).fenced = false →
    (isLost s home va = true → ∃ u v, exec (.registration id) s = .next u ∧ arrived s u id ∧ u.mem = s.mem ∧
      taskAt u k = some v ∧ v.lost = t.lost ++ [va] ∧ v.outs = t.outs.filter (fun o => o.id != id) ∧
      (∀ x, l1Get s core va = some x → l1Get u core va = kept { x with own := .clean })) ∧
    (isLost s home va = false → (others.length < 4 ∨ ∃ e ∈ (tileAt s home).registry, e.line = lineOf va ∧ e.owner = core) →
      (∀ o, ownerOf s home va = some o → solelyOwned s home va o) →
      ∃ u v, exec (.registration id) s = .next u ∧ arrived s u id ∧ u.mem = s.mem ∧ taskAt u k = some v ∧
        v.outs = t.outs.filter (fun o => o.id != id) ∧ ownerOf u home va = some core ∧ solelyOwned u home va core ∧
        (∀ o, ownerOf s home va = some o → o ≠ core → Goes u o (.revoke va)) ∧
        (∀ x, l1Get s core va = some x → l1Get u core va =
          kept { x with own := if x.own = .inFlight then .registered else x.own })) ∧
    (isLost s home va = false → 4 ≤ others.length →
      (∀ e ∈ (tileAt s home).registry, ¬(e.line = lineOf va ∧ e.owner = core)) →
      ∀ e r, others = e :: r → ∃ u, exec (.registration id) s = .next u ∧ u.mem = s.mem ∧ p ∈ u.net ∧
        Goes u e.owner (.recall e.line e.mask false)))) ∧
  (∀ (id va : Nat) (s : State) (p : Packet), Arrives s id p → p.body = .revoke va →
    (ownerOf s (slotTile p.src) va = some p.dst ∨ (∃ x, l1Get s p.dst va = some x ∧ x.own = .inFlight) →
      ∃ u, exec (.revoke id) s = .next u ∧ arrived s u id ∧ u.mem = s.mem ∧ (coreAt u p.dst).l1 = (coreAt s p.dst).l1 ∧
        ∀ f ∈ (coreAt u p.dst).fills, f.line = va / 32 * 32 → f.stale = true) ∧
    (ownerOf s (slotTile p.src) va ≠ some p.dst → (∀ x, l1Get s p.dst va = some x → x.own ≠ .inFlight) →
      ∃ u, exec (.revoke id) s = .next u ∧ arrived s u id ∧ u.mem = s.mem ∧ l1Get u p.dst va = none ∧
        ∀ w, w ≠ va → l1Get u p.dst w = l1Get s p.dst w)) ∧
  (∀ (id va : Nat) (drop : Bool) (s : State) (p : Packet) (x : L1Word) (k : Nat), Arrives s id p →
    p.body = .recall (lineOf va) (maskBit va) drop → va % 4 = 0 → s.stored →
    ownerOf s (slotTile p.src) va = some p.dst → solelyOwned s (slotTile p.src) va p.dst → l1Get s p.dst va = some x →
    mappedKey s (tilePkg (slotTile p.src)) va x.ctxs = some k →
    ∃ u, exec (.recallRequest id) s = .next u ∧ arrived s u id ∧ u.stored ∧ cellsGet u.mem k 4 = x.val.toNat ∧
      (∀ j, j < k ∨ k + 4 ≤ j → cellGet u.mem j = cellGet s.mem j) ∧ unowned u (slotTile p.src) va ∧
      l1Get u p.dst va = if drop then none else kept { x with own := .clean }) ∧
  (∀ (id va : Nat) (v : Word) (s : State) (p : Packet), Arrives s id p → p.body = .writeBack [(va, v)] → s.stored →
    let home := coreTile p.dst
    let left (u : State) : Prop := ∀ x, l1Get s (slotCore p.src) va = some x →
      l1Get u (slotCore p.src) va = kept { x with own := if x.own = .leaving then .clean else x.own }
    (ownerOf s home va ≠ some (slotCore p.src) → ∃ u, exec (.writeBack id) s = .next u ∧ arrived s u id ∧ u.mem = s.mem ∧
      (tileAt u home).registry = (tileAt s home).registry ∧ left u) ∧
    (ownerOf s home va = some (slotCore p.src) → solelyOwned s home va (slotCore p.src) → ∀ k,
      mappedKey s (tilePkg home) va (s.ctxs.map (·.1)) = some k →
      ∃ u, exec (.writeBack id) s = .next u ∧ arrived s u id ∧ u.stored ∧ cellsGet u.mem k 4 = v.toNat ∧
        (∀ j, j < k ∨ k + 4 ≤ j → cellGet u.mem j = cellGet s.mem j) ∧ unowned u home va ∧ left u))

/-- R199, R205, R214, R215, R225 to R228: strong accesses at their home, and accesses to placed memory at its tile. -/
def AccessesServedPart : Prop :=
  (∀ (id va size ctx : Nat) (priv : BitVec 2) (store : Bool) (data : Dword) (s : State) (p : Packet), Arrives s id p →
    p.body = .strong va size ctx priv store data → pkgPresent s (tilePkg (slotTile p.src)) = true →
    let home := coreTile p.dst
    ∀ i, (i = .strongAccess id ∨ (i = .heldWriteResume id ∧ store = true)) →
      (store = false → ∀ v s1, serveLoad s home va size ctx priv = .done v s1 →
        ∃ u, exec i s = .next u ∧ u.mem = s.mem ∧ Given s1 u p.src id (Reply.value v) ∧
          ∀ w ∈ wordsOf va size, ∀ x, l1Get s (slotCore p.src) w = some x → x.own ≠ .inFlight →
            ownerOf s home w ≠ some (slotCore p.src) → l1Get u (slotCore p.src) w = none) ∧
      (store = false → ∀ c v s1, serveLoad s home va size ctx priv = .trap c v s1 →
        ∃ u, exec i s = .next u ∧ u.mem = s.mem ∧ Given s1 u p.src id (Reply.trap c v)) ∧
      (store = true → ∀ v s1, serveWrite s home va size ctx priv (some (slotCore p.src)) false (fun _ => some data) = .done v s1 →
        ∃ u, exec i s = .next u ∧ u.mem = s1.mem ∧ Given s1 u p.src id (Reply.value 0)) ∧
      (store = true → ∀ c v s1, serveWrite s home va size ctx priv (some (slotCore p.src)) false (fun _ => some data) = .trap c v s1 →
        ∃ u, exec i s = .next u ∧ u.mem = s1.mem ∧ Given s1 u p.src id (Reply.trap c v))) ∧
  (∀ (id tile off size ctx op : Nat) (vault store weak : Bool) (data : Dword) (tag : BitVec 5) (s : State) (p : Packet),
    Arrives s id p → p.body = .placed vault tile off size ctx store weak op data tag →
    (pkgPresent s (tilePkg (slotTile p.src)) = false → ∃ u, exec (.placedAccess id) s = .next u ∧ arrived s u id ∧
      u.mem = s.mem ∧ u.full = s.full ∧ Reported u (coreOfFabric (fabricAddr (slotCore p.src)).toNat) 3 1) ∧
    (pkgPresent s (tilePkg (slotTile p.src)) = true →
    let key := placeKey vault tile off
    (∀ c, placedCause s (BitVec.ofNat 11 ctx) vault tile off = some c → weak = false → ∃ u, exec (.placedAccess id) s = .next u ∧ arrived s u id ∧
        u.mem = s.mem ∧ u.full = s.full ∧ Given s u p.src id (Reply.trap c 0)) ∧
    (placedCause s (BitVec.ofNat 11 ctx) vault tile off = none →
      (store = false → ∃ u, exec (.placedAccess id) s = .next u ∧
        arrived s u id ∧ u.mem = s.mem ∧ u.full = s.full ∧
        Given s u p.src id (if op = 0 ∧ spoiltAt s key size = true then Reply.trap causeMcheck 0
          else Reply.value (if op = 0 then BitVec.ofNat 64 (cellsGet s.mem key size)
          else if key ∈ s.full then 1 else 0))) ∧
      (store = true → ∃ u, exec (.placedAccess id) s = .next u ∧ arrived s u id ∧
        u.mem = (if op = 0 then cellsPut s.mem key size data.toNat else s.mem) ∧
        (∀ k, k ∈ u.full ↔ if op = 1 then k = key ∨ k ∈ s.full else if op = 0 then k ∈ s.full else k ∈ s.full ∧ k ≠ key) ∧
        (weak = false → Given s u p.src id Reply.ok) ∧
        (weak = true → ∀ k t, taskAt s k = some t → ∃ v, taskAt u k = some v ∧
          v.outs = t.outs.filter (fun o => o.id != id) ∧ v.g = t.g))))) ∧
  (∀ (id tile off size ctx : Nat) (vault take : Bool) (s : State) (p : Packet), Arrives s id p →
    p.body = .ldf vault tile off size ctx take → pkgPresent s (tilePkg (slotTile p.src)) = true →
    placedCause s (BitVec.ofNat 11 ctx) vault tile off = none →
    let key := placeKey vault tile off
    (allFull s key size = true → ldfAhead s tile key size = false → spoiltAt s key size = false → ∃ u, exec (.placedAccess id) s = .next u ∧
      arrived s u id ∧ u.mem = s.mem ∧ Given s u p.src id (Reply.value (BitVec.ofNat 64 (cellsGet s.mem key size))) ∧
      (∀ k, k ∈ u.full ↔ k ∈ s.full ∧ (take = true → k ∉ wordsOf key size))) ∧
    (allFull s key size = false ∨ ldfAhead s tile key size = true → (tileAt s tile).ldfs.length < 64 →
      ∃ u, exec (.placedAccess id) s = .next u ∧ arrived s u id ∧ u.mem = s.mem ∧ u.full = s.full ∧
        (tileAt u tile).ldfs = (tileAt s tile).ldfs ++ [{ slot := p.src, req := id, key := key, size := size, take := take }]) ∧
    (allFull s key size = false ∨ ldfAhead s tile key size = true → 64 ≤ (tileAt s tile).ldfs.length →
      exec (.placedAccess id) s = .next (dropPacket s id)))

/-- R227, R251: a waiting LDF or SEMP is served, and a refused LDF is sent again. -/
def WaitersServedPart : Prop :=
  (∀ (tile : Nat) (s : State) (l : LdfWait), (tileAt s tile).ldfs = [l] → ldfLive s l = true → allFull s l.key l.size = true →
    spoiltAt s l.key l.size = false →
    ∃ u, exec (.ldfServe tile) s = .next u ∧ u.mem = s.mem ∧ (tileAt u tile).ldfs = [] ∧
      Given s u l.slot l.req (Reply.value (BitVec.ofNat 64 (cellsGet s.mem l.key l.size))) ∧
      (∀ k, k ∈ u.full ↔ k ∈ s.full ∧ (l.take = true → k ∉ wordsOf l.key l.size))) ∧
  (∀ (tile : Nat) (s : State), (∀ l ∈ (tileAt s tile).ldfs, ldfLive s l = true ∧ allFull s l.key l.size = false) →
    exec (.ldfServe tile) s = .next s) ∧
  (∀ (slot va size tile off : Nat) (take vault : Bool) (s : State) (t : Task), taskAt s slot = some t →
    t.pend.want = some (.ldf va size take) →
    (∀ x ∈ s.tiles, ∀ l ∈ x.2.ldfs, ¬(l.slot = slot ∧ l.req = t.pend.req)) → (∀ p ∈ s.net, p.id ≠ t.pend.req) →
    placeOf s (slotTile slot) va = .placed vault tile off →
    ∃ u, exec (.ldfRetry slot) s = .next u ∧ u.mem = s.mem ∧
      taskAt u slot = some { t with pend := { t.pend with req := s.nextId } } ∧
      u.net = s.net ++ [{ id := s.nextId, src := slot, dst := homeCore tile, launch := t.launch,
                          body := .ldf vault tile off size t.ctx.toNat take }]) ∧
  (∀ (tile k : Nat) (n sh g : BitVec 4) (s : State) (t : Task),
    (tileAt s tile).semWait.find? (fun w => w.2 == n.toNat) = some (k, n.toNat) → slotTile k = tile → sh = n →
    (tileAt s tile).sems[n.toNat]'n.isLt ≠ 0 → currentInstr s k = some (.semp sh g) →
    Executes (.semp sh g) g { s with here := k } t → granted s tile t.ctx grantSems n.toNat = true →
    ∃ u, exec (.sempServe tile n) s = .next u ∧ taskAt u k = some (past t 4) ∧ u.mem = s.mem ∧
      (tileAt u tile).sems = (tileAt s tile).sems.set n.toNat ((tileAt s tile).sems[n.toNat]'n.isLt - 1) n.isLt ∧
      (∀ w ∈ (tileAt u tile).semWait, w.1 ≠ k))

/-- R240 to R242, R247, R248: an allocation at the home of its tree entry, and a shootdown. -/
def BlocksServedPart : Prop :=
  (∀ (id entry level handle ctx : Nat) (priv : BitVec 2) (s : State) (p : Packet), Arrives s id p →
    p.body = .alloc entry level handle ctx priv → pkgPresent s (tilePkg (slotTile p.src)) = true →
    let pkg := tilePkg (slotTile p.src)
    let old := peek s pkg entry ctx 8
    let v := volOf ctx handle (descWords s pkg handle ctx)
    let pop := popBlock pkg ctx priv v (level ≠ 1) s
    (old ≠ 0 → ∃ u, exec (.tileAllocation id) s = .next u ∧ arrived s u id ∧ u.mem = s.mem ∧
      Given s u p.src id (Reply.value (BitVec.ofNat 64 (old % 2 ^ 48)))) ∧
    (old = 0 → (∀ part, pop = .error (.held part) → exec (.tileAllocation id) s = .next (noteExit s part)) ∧
      (∀ c x, pop = .error (.fails c x) → ∃ u, exec (.tileAllocation id) s = .next u ∧ arrived s u id ∧ u.mem = s.mem ∧
        Given s u p.src id (Reply.trap c (BitVec.ofNat 64 x))) ∧
      (∀ n s1, pop = .ok (.error n, s1) → ∃ u, exec (.tileAllocation id) s = .next u ∧
        arrived s u id ∧ u.mem = s.mem ∧ Given s u p.src id (Reply.trap causeVolalloc (BitVec.ofNat 64 (handle ||| n)))) ∧
      (∀ a s1 s2 s3, pop = .ok (.ok a, s1) →
        (if level = 1 then fillBlock pkg ctx priv a (tileBytes v) (tilePattern v) else fillBlock pkg ctx priv a 0x8000 0) s1 =
          .ok ((), s2) → writeH pkg entry ctx priv 8 a s2 = .ok ((), s3) →
        ∃ u, exec (.tileAllocation id) s = .next u ∧ u.mem = s3.mem ∧ Given s3 u p.src id (Reply.value (BitVec.ofNat 64 a))))) ∧
  (∀ (id handle : Nat) (tiles : List Nat) (whole : Bool) (blocks : List (Nat × Nat)) (s : State) (p : Packet),
    Arrives s id p → p.body = .shootdown handle tiles whole blocks →
    let tile := coreTile p.dst
    ∃ u, exec (.clbShootdown id) s = .next u ∧ u.mem = s.mem ∧
      (blockInUse s tile blocks = false → arrived s u id) ∧ (blockInUse s tile blocks = true → u.net = s.net) ∧
      ∀ n, n < 12 → (∀ e ∈ (coreAt u (coreKey tile n)).clb, e.handle = handle → whole = false ∧ e.tile ∉ tiles) ∧
        (whole = true → ∀ v ∈ (coreAt u (coreKey tile n)).vols, v.handle ≠ handle))

/-- A GANG message of an operation arrives at a package's coordinator, core 0 of its tile 0, from where it may come, for a context
that lives; it keeps the table of R370, and the gang's own table can be read (R363, R370, R376). -/
structure Coordinated (s : State) (id : Nat) (p : Packet) (h : Dword) (pl : List Dword) (op : Nat) : Prop where
  arrives : Arrives s id p
  carries : p.body = .msg h pl ∨ p.body = .own h pl
  class_ : hdrClass h = 16
  form : gangOk h pl = true
  operation : gangOp pl = op
  here : p.dst = coreKey (tileKey (tilePkg (coreTile p.dst)) 0) 0
  listed : hostListed s (tilePkg (coreTile p.dst)) p.src (hdrCtx h).toNat = true
  live : ctxLive s (hdrCtx h).toNat = true
  ready : spanWaits s (tilePkg (coreTile p.dst)) (gangTab pl) 8216 (gangCtx pl) = false

/-- A coordinator's message of an operation goes to a member's coordinator. -/
def Tells (u : State) (member op : Nat) : Prop :=
  ∃ q ∈ u.net, q.dst = coreKey (tileKey member 0) 0 ∧ ∃ h pl, q.body = .own h pl ∧ hdrClass h = 16 ∧
    (pl.getD 0 0).toNat % 2 ^ 8 = op

/-- A coordinator that owes a status in `s` writes it to the gang's table, and for one that is not 0, running, the supervisor record
takes a DEC; it is owed on while a full dirty log or a channel group holds the write (R196, R371, R376), and not written where the
table's home refuses it. -/
def Pays (s : State) (pkg gang : Nat) (g : Gang) (status : Nat) (out : Host.Outcome State Fault Refusal) (s0 : State) : Prop :=
  let write := writeH pkg (g.table_ + 8) g.ctx (ctxPriv s g.ctx) 8 status s
  let decs (s2 u : State) : Prop := gangAt u pkg gang = some g ∧ u.tiles = s2.tiles ∧
    let rec_ : Dword := BitVec.ofNat 64 (gangRead (putGang s2 pkg gang g) pkg g.ctx (g.table_ + 16))
    (status = 0 → u.net = s2.net) ∧ (status ≠ 0 → rec_ ≠ 0 → nameOk rec_ = true → ∃ q ∈ u.net, q.dst = nameCore rec_ ∧ ∃ h, q.body = .own h [rec_] ∧ hdrClass h = 3)
  (ddrWaits s pkg (g.table_ + 16) g.ctx = true → out = .next s) ∧ (ddrWaits s pkg (g.table_ + 16) g.ctx = false →
  (∀ part, write = .error (.held part) → out = .next (noteExit s part)) ∧
  (write = .error .waits → out = .next s) ∧
  (∀ c x, write = .error (.fails c x) → ∃ u, out = .next u ∧ u.mem = s0.mem ∧ decs s u) ∧
  (∀ s2, write = .ok ((), s2) → ∃ u, out = .next u ∧ u.mem = s2.mem ∧ decs s2 u))

/-- A status joins what a coordinator owes in `s0`, and the first that it owes is written. -/
def StatusDue (s0 : State) (pkg gang : Nat) (g : Gang) (status : Nat) (out : Host.Outcome State Fault Refusal) : Prop :=
  ∀ st r, g.owed ++ [status] = st :: r →
    Pays (putGang s0 pkg gang { g with owed := g.owed ++ [status] }) pkg gang { g with owed := r } st out s0

/-- The PRE bit of a grant (R345). -/
def withPre (g : Grant) (v : Bool) : Grant :=
  { g with dw0 := if v then g.dw0 ||| 0x80000000000 else g.dw0 &&& ~~~0x80000000000 }

/-- A grant of a gang as its coordinator installs it, with V = 1 and PRE = 1 (R371, log 60). -/
def installed (g : Grant) : Grant :=
  { g with dw0 := g.dw0 ||| 0x8000080000000000, leaving := false, saving := false, saved := none, deficit := 0 }

/-- A tile of a package holds a valid grant of a context. -/
def GangTile (s : State) (pkg ctx tile : Nat) : Prop :=
  tilePkg tile = pkg ∧ (∃ g ∈ (tileAt s tile).grants.toList, grantValid g = true ∧ (grantCtx g).toNat = ctx) ∧
    (tget s.tiles tile).isSome = true

/-- The kill of a context is over: its launches are counted out with status killed (R343), and the CTXKILLs that waited for the
record are answered (R354). -/
def KillOver (s u : State) (k : Nat) : Prop :=
  (∀ y ∈ u.kills, y.ctx ≠ k) ∧ (∀ key l, tget s.launches key = some l →
    tget u.launches key = some (if key / 2 ^ 32 = k then { l with killed := true, counter := 0 } else l)) ∧
    ∀ slot t, taskAt s slot = some t → t.pend.want = some (.kill k) →
      taskAt u slot = some { t with pend := { t.pend with want := none, log := (.kill k, Reply.ok) :: t.pend.log } }

/-- R343, R344, R354: the kill record, once nothing of the context is in flight, and the end of the task that made the kill. -/
def KillRecordsPart : Prop :=
  ∀ (k : Nat) (s : State) (x : Kill), s.kills.find? (fun y => y.ctx == k) = some x → x.record.length = 16 →
    let record := x.record.take 14 ++ [BitVec.ofNat 64 x.others, 0]
    let ring := (partAt s (ctxPart s k)).kring
    ((∃ p ∈ s.net, execKillRecord.bodyCtx p.body = some k) → exec (.killRecord k) s = .next s) ∧
    (∀ u, exec (.killRecord k) s = .next u → (∀ y ∈ u.kills, y.ctx ≠ k) → ∀ slot v, taskAt u slot = some v → v.ctx.toNat ≠ k) ∧
    ((∀ p ∈ s.net, execKillRecord.bodyCtx p.body ≠ some k) → (∀ e ∈ s.tasks, e.2.ctx.toNat ≠ k) →
      (ring = none → ∃ u, exec (.killRecord k) s = .next u ∧ u.mem = s.mem ∧ KillOver s u k ∧
        u.manager = s.manager ++ [(ctxPart s k, record)]) ∧
      (∀ pkg d, ring = some (pkg, d) → logFull s pkg d = true → exec (.killRecord k) s = .next s) ∧
      (∀ pkg d, ring = some (pkg, d) → logFull s pkg d = false → s.stored →
        let base := logBase s pkg d
        let at_ := base + 128 * (logHead s pkg d % 2 ^ logSize s pkg d)
        (d + 32 ≤ base ∨ base + 128 * 2 ^ logSize s pkg d ≤ d) →
        ∃ u, exec (.killRecord k) s = .next u ∧ u.stored ∧ KillOver s u k ∧ u.manager = s.manager ∧
          (∀ i, i < 16 → storeGet u (ddrKey pkg (at_ + 8 * i)) 8 = (record.getD i 0).toNat) ∧
          logHead u pkg d = (logHead s pkg d + 1) % 2 ^ 64 ∧
          (∀ a, (a < ddrKey pkg at_ ∨ ddrKey pkg (at_ + 128) ≤ a) → (a < ddrKey pkg (d + 16) ∨ ddrKey pkg (d + 24) ≤ a) →
            cellGet u.mem a = cellGet s.mem a)))

/-- R259, R262, R341, R342, R347, R348: a budget's end, a termination, a leave, an epoch and the watchdog. -/
def DeviceTimersPart : Prop :=
  (∀ (slot : Nat) (s : State) (t : Task), taskAt s slot = some t →
    (t.budget = 0 → t.grace = none → t.inl = none → exec (.budgetExpiry slot) s =
      .next (putTask s slot { t with budgetDue := true, grace := some 65536 })) ∧
    (t.budget ≠ 0 ∨ t.grace ≠ none ∨ t.inl ≠ none → exec (.budgetExpiry slot) s = .next (putTask s slot t)) ∧
    (t.grace ≠ some 0 → exec (.taskTermination slot) s = .next s) ∧
    (t.grace = some 0 → ∃ u, exec (.taskTermination slot) s = .next u ∧ u.mem = s.mem ∧ taskAt u slot = none ∧
      (launchAt u t.ctx t.launch).killed = true ∧
      Reported u (coreOfFabric (fabricAddr (slotCore slot)).toNat) 11 0x0C ∧
      (t.tag.getLsbD 4 = false → (phaseAt (tileAt u (slotTile slot)) t.tag.toNat).status.getLsbD 2 = true))) ∧
  (∀ (tile : Nat) (n : BitVec 2) (s : State) (g : Grant), (tileAt s tile).grants[n.toNat]? = some g →
    (g.leaving = false ∨ grantIdle s tile (grantCtx g) = false → exec (.leaveSave tile n) s = .next s) ∧
    (g.leaving = true → grantIdle s tile (grantCtx g) = true →
      let count := g.saved.getD (queuedOn s tile (grantCtx g))
      (∀ part, saveGrant tile g s = .error (.held part) → exec (.leaveSave tile n) s =
        .next (modGrant (noteExit s part) tile n.toNat (fun g => { g with saving := true, saved := some count }))) ∧
      (∀ s1, saveGrant tile g s = .ok ((), s1) → ∃ u v, exec (.leaveSave tile n) s = .next u ∧ u.mem = s1.mem ∧
        (tileAt u tile).grants[n.toNat]? = some v ∧ grantValid v = false ∧ v.leaving = false ∧ v.saved = some count ∧
        grantCtx g ∈ (tileAt u tile).away ∧ grantWays v = 0 ∧
        grantBanks v = 0 ∧ (∀ i : Fin 16, (grantSems g).getLsbD i = true → (tileAt u tile).sems[i] = 0) ∧
        (∀ e ∈ (tileAt u tile).postq, e.ctx ≠ grantCtx g) ∧
        (∀ n, n < 12 → ∀ e ∈ (coreAt u (coreKey tile n)).entries, e.ctx ≠ grantCtx g)))) ∧
  (∀ (tile : Nat) (s : State), exec (.epochAdvance tile) s =
    let now := fabricTime s (tilePkg tile) / 2 ^ 20
    .next (putTile s tile { tileAt s tile with
      mepoch := BitVec.ofNat 7 ((tileAt s tile).mepoch.toNat + (now - (tileAt s tile).mepochAt)), mepochAt := now })) ∧
  (∀ (tile : Nat) (s : State),
    (watchdogCounts s tile = false ∨ (tileAt s tile).watchdog < 2 ^ 22 → exec (.groupWatchdog tile) s = .next s) ∧
    (watchdogCounts s tile = true → 2 ^ 22 ≤ (tileAt s tile).watchdog → (s.tasks.map (·.1)).Nodup →
      (∀ x ∈ engineTasks s tile, x.2.tlev.toNat < 2 ∧ x.2.inl = none) →
      ∃ u, exec (.groupWatchdog tile) s = .next u ∧ u.mem = s.mem ∧ (tileAt u tile).watchdog = 0 ∧
        ∀ k t v, (k, t) ∈ engineTasks s tile → watchdogVal s k t = some v →
          taskAt u k = some (trapped t 0x12 (wholePc t).toNat v)))

/-- R370, R371: the slices of a gang. -/
def GangSlicesPart : Prop :=
  (∀ (id : Nat) (s : State) (p : Packet) (h : Dword) (pl : List Dword), Coordinated s id p h pl 1 →
    let pkg := tilePkg (coreTile p.dst)
    let ctx := gangCtx pl
    let micros := (pl.getD 2 0).toNat / 2 ^ 32
    ∃ u g, exec (.slice id) s = .next u ∧ arrived s u id ∧ u.mem = s.mem ∧ gangAt u pkg (gangId pl) = some g ∧ g.ctx = ctx ∧
      g.start = (pl.getD 1 0).toNat ∧ g.finish = (pl.getD 1 0).toNat + (pl.getD 2 0).toNat % 2 ^ 32 * 1000 ∧
      g.grace = (if micros = 0 then 50 else micros) * 1000 ∧ g.state = 0 ∧ g.table_ = (pl.getD 3 0).toNat ∧
      ∀ (tile n : Nat) (x : Grant), (tileAt s tile).grants[n]? = some x →
        (GangTile s pkg ctx tile → grantValid x = true → (tileAt u tile).grants[n]? = some (withPre x true)) ∧
        (grantValid x = false → (grantCtx x).toNat ≠ ctx → (tileAt u tile).grants[n]? = some x) ∧
        (tilePkg tile = pkg → (tget s.tiles tile).isSome = true → grantValid x = false → (grantCtx x).toNat = ctx →
          (∀ m y, m ≠ n → (tileAt s tile).grants[m]? = some y → grantValid y = false → (grantCtx y).toNat ≠ ctx) →
          grantOk s tile n 0 (installed x) (BitVec.ofNat 11 ctx) true = true →
          (tileAt u tile).grants[n]? = some (installed x))) ∧
  (∀ (pkg gang : Nat) (s : State) (g : Gang), gangAt s pkg gang = some g →
    (fabricTime s pkg < g.start ∨ (g.state ≠ 0 ∧ g.state ≠ 2) → exec (.sliceStart pkg gang) s = .next s) ∧
    (g.start ≤ fabricTime s pkg → g.state = 0 ∨ g.state = 2 →
      (incumbentsIdle s pkg g.ctx = true →
        let s0 := putGang (gangPre s pkg g.ctx false) pkg gang { g with state := 1 }
        s0.mem = s.mem ∧ s0.net = s.net ∧ (∀ tile, GangTile s pkg g.ctx tile → ∀ (n : Nat) (x : Grant),
          (tileAt s tile).grants[n]? = some x → (tileAt s0 tile).grants[n]? =
            some (if grantValid x && (grantCtx x).toNat == g.ctx then withPre x false else x)) ∧
        (g.state = 2 ∨ g.members.head? ≠ some pkg → exec (.sliceStart pkg gang) s = .next s0) ∧
        (g.state = 0 → g.members.head? = some pkg →
          StatusDue s0 pkg gang { g with state := 1 } 0 (exec (.sliceStart pkg gang) s))) ∧
      (incumbentsIdle s pkg g.ctx = false → g.state = 2 → exec (.sliceStart pkg gang) s = .next s) ∧
      (incumbentsIdle s pkg g.ctx = false → g.state = 0 → ∃ s0, s0.mem = s.mem ∧ s0.tiles = s.tiles ∧
        gangAt s0 pkg gang = some { g with state := 2 } ∧ (∀ m ∈ g.members, Tells s0 m 4) ∧
        (g.members.head? ≠ some pkg → exec (.sliceStart pkg gang) s = .next s0) ∧
        (g.members.head? = some pkg →
          StatusDue s0 pkg gang { g with state := 2 } 0 (exec (.sliceStart pkg gang) s)))) ∧
    (g.state ≠ 2 ∨ g.grace = 0 ∨ fabricTime s pkg < g.start + g.grace → exec (.gangGraceExpiry pkg gang) s = .next s) ∧
    (g.state = 2 → g.grace ≠ 0 → g.start + g.grace ≤ fabricTime s pkg → ∃ u, exec (.gangGraceExpiry pkg gang) s = .next u ∧
      u.mem = s.mem ∧ gangAt u pkg gang = some { g with grace := 0 } ∧ ∀ k t, taskAt s k = some t →
        (GangTile s pkg g.ctx (slotTile k) → t.ctx.toNat ≠ g.ctx → t.inl = none → t.grace = none →
          taskAt u k = some { t with budget := 0, budgetDue := true, grace := some 65536 }) ∧
        ((∀ x ∈ s.tiles, ¬(x.1 = slotTile k ∧ x.2.grants.toList.any
            (fun y => grantValid y && (grantCtx y).toNat == g.ctx) = true)) ∨ t.ctx.toNat = g.ctx →
          taskAt u k = some t)) ∧
    (g.owed = [] → g.state = 3 ∨ fabricTime s pkg < g.finish → exec (.sliceEnd pkg gang) s = .next s) ∧
    (∀ status r, g.owed = status :: r → Pays s pkg gang { g with owed := r } status (exec (.sliceEnd pkg gang) s) s) ∧
    (g.owed = [] → g.state ≠ 3 → g.finish ≤ fabricTime s pkg →
      let paused (u : State) : Prop := ∀ tile, GangTile s pkg g.ctx tile → ∀ (n : Nat) (x : Grant),
        (tileAt s tile).grants[n]? = some x →
          (tileAt u tile).grants[n]? = some (if grantValid x && (grantCtx x).toNat == g.ctx then withPre x true else x)
      (g.members.head? ≠ some pkg → ∃ u, exec (.sliceEnd pkg gang) s = .next u ∧ u.mem = s.mem ∧ paused u ∧
        gangAt u pkg gang = some { g with state := 3 }) ∧
      (g.members.head? = some pkg →
        let s0 := putGang (gangPre s pkg g.ctx true) pkg gang { g with state := 3 }
        paused s0 ∧ s0.mem = s.mem ∧ StatusDue s0 pkg gang { g with state := 3 } 1 (exec (.sliceEnd pkg gang) s))))

/-- R372, R373: a gang's launch, the acknowledgements, and a stop. -/
def GangLaunchesPart : Prop :=
  (∀ (id arg : Nat) (s : State) (p : Packet) (h : Dword) (pl : List Dword) (g0 : Gang) (m : Nat) (ms : List Nat),
    Coordinated s id p h pl 2 → (pl.getD 2 0).toNat % 2 ^ 32 = arg →
    let pkg := tilePkg (coreTile p.dst)
    let gid := gangId pl
    gangAt s pkg gid = some g0 → gangMembers s pkg (gangCtx pl) (gangTab pl) = m :: ms →
    let g : Gang := { g0 with ctx := gangCtx pl, table_ := gangTab pl, members := m :: ms }
    ∃ u, exec (.glaunch id) s = .next u ∧ arrived s u id ∧ u.mem = s.mem ∧
      (∀ tile r, gangTiles s pkg g.ctx = tile :: r → Tells u m 3 ∧
        ∃ q ∈ u.net, q.dst = coreKey tile 0 ∧ ∃ h, q.body = .own h [BitVec.ofNat 64 (arg / 2 ^ 8 + arg % 2 ^ 8 * 2 ^ 32), 0, 0, 0] ∧
          hdrClass h = 1) ∧
      (m = pkg → p.body = .msg h pl → (∀ x ∈ g.members, x ≠ pkg → Tells u x 2) ∧
        gangAt u pkg gid = some { g with acks := [], deadline := fabricTime s pkg + 20000 }) ∧
      (m ≠ pkg ∨ p.body = .own h pl → gangAt u pkg gid = some g)) ∧
  (∀ (id : Nat) (i : Instr) (s : State) (p : Packet) (h : Dword) (pl : List Dword), Arrives s id p →
    p.body = .msg h pl ∨ p.body = .own h pl → hdrClass h = 16 →
    gangOk h pl = false ∨ p.dst ≠ coreKey (tileKey (tilePkg (coreTile p.dst)) 0) 0 ∨
      hostListed s (tilePkg (coreTile p.dst)) p.src (hdrCtx h).toNat = false →
    i ∈ [Instr.slice id, .glaunch id, .ack id, .late id, .stop id] → ∃ u, exec i s = .next u ∧ arrived s u id ∧ u.mem = s.mem ∧
      u.pkgs = s.pkgs ∧ Reported u (coreOfFabric (fabricAddr (slotCore p.src)).toNat) 3 1) ∧
  (∀ (id op : Nat) (i : Instr) (s : State) (p : Packet) (h : Dword) (pl : List Dword) (g : Gang), Coordinated s id p h pl op →
    (op = 3 ∧ i = .ack id) ∨ (op = 4 ∧ i = .late id) → gangAt s (tilePkg (coreTile p.dst)) (gangId pl) = some g →
    ∃ u, exec i s = .next u ∧ arrived s u id ∧ u.mem = s.mem ∧ ((hdrTag h).getLsbD 4 = true → u.tiles = s.tiles) ∧
      gangAt u (tilePkg (coreTile p.dst)) (gangId pl) = some (
        if op = 4 then { g with late := tilePkg (slotTile p.src) :: g.late }
        else if g.deadline = 0 then g else { g with acks := tilePkg (slotTile p.src) :: g.acks })) ∧
  (∀ (pkg gang : Nat) (s : State) (g : Gang), gangAt s pkg gang = some g →
    (g.deadline = 0 ∨ fabricTime s pkg < g.deadline → exec (.gangAckTimeout pkg gang) s = .next s) ∧
    (g.deadline ≠ 0 → g.deadline ≤ fabricTime s pkg →
      ((∀ m ∈ g.members, m ∈ g.acks) → ∃ u, exec (.gangAckTimeout pkg gang) s = .next u ∧ u.mem = s.mem ∧ u.tiles = s.tiles ∧
        gangAt u pkg gang = some { g with deadline := 0 }) ∧
      (∀ m ∈ g.members, m ∉ g.acks →
        StatusDue (gangCancel (putGang s pkg gang { g with deadline := 0 }) g.members g.ctx) pkg gang { g with deadline := 0 } 2
          (exec (.gangAckTimeout pkg gang) s)))) ∧
  (∀ (pkgs : List Nat) (ctx tile : Nat) (s : State), tile ∈ workTiles s (BitVec.ofNat 11 ctx) → tilePkg tile ∈ pkgs →
    (3, ctx, 0) ∈ (tileAt (gangCancel s pkgs ctx) tile).cancels) ∧
  (∀ (id : Nat) (s : State) (p : Packet) (h : Dword) (pl : List Dword), Coordinated s id p h pl 5 →
    let pkg := tilePkg (coreTile p.dst)
    let ctx := gangCtx pl
    ∃ u, exec (.stop id) s = .next u ∧ arrived s u id ∧
      (∀ g, gangAt s pkg (gangId pl) = some g → gangAt u pkg (gangId pl) = some { g with state := 3 }) ∧
      ∀ tile, GangTile s pkg ctx tile → (3, ctx, 0) ∈ (tileAt u tile).cancels ∧
        ∀ (n : Nat) (x : Grant), (tileAt s tile).grants[n]? = some x →
          (tileAt u tile).grants[n]? = some (if grantValid x && (grantCtx x).toNat == ctx then withPre x true else x))

/-- R375 to R378: readiness, a training failure, and the firmware image: its verification leaves the floor as it was. That the event
of a verification on a package whose firmware runs is that firmware's raise of the floor is the model's choice (log 99). -/
def BringUpPart : Prop :=
  (∀ (pkg : Nat) (bit : BitVec 8) (s : State),
    let n := bit.toNat
    let p := pkgAt s pkg
    (p.present = false ∨ 185 ≤ n ∨ n ∈ p.failed ∨ readyBit p n = true →
      exec (.functionReady pkg bit) s = .next s ∧ exec (.trainingFailure pkg bit) s = .next s) ∧
    (n < 64 → readyBit p (180 + n / 16) = false → exec (.functionReady pkg bit) s = .next s) ∧
    (p.present = true → n < 185 → n ∉ p.failed → readyBit p n = false →
      ((64 ≤ n ∨ readyBit p (180 + n / 16) = true) → ∃ u, exec (.functionReady pkg bit) s = .next u ∧ u.mem = s.mem ∧
        readyBit (pkgAt u pkg) n = true ∧ (∀ m, m < 191 → m ≠ n → readyBit (pkgAt u pkg) m = readyBit p m) ∧
        (64 ≤ n → n < 128 → ∀ j, j < 16 → (tileAt u (tileKey pkg (n % 64 * 16 + j))).vway = 0x55555555)) ∧
      ∃ u, exec (.trainingFailure pkg bit) s = .next u ∧ n ∈ (pkgAt u pkg).failed ∧
        (∀ m, m < 191 → readyBit (pkgAt u pkg) m = readyBit p m) ∧
        (n < 64 → ∀ j, j < 16 → (tileAt u (tileKey pkg (n * 16 + j))).fenced = true))) ∧
  (∀ (pkg : Nat) (image : BitVec 64) (s : State),
    let p := pkgAt s pkg
    (p.present = false → exec (.imageVerification pkg image) s = .next s) ∧
    (p.present = true → readyBit p 185 = false → ∃ u, exec (.imageVerification pkg image) s = .next u ∧ u.mem = s.mem ∧
      u.tasks = s.tasks ∧ (pkgAt u pkg).version = p.version ∧
      (imageAccepted p = true → readyBit (pkgAt u pkg) 185 = true ∧ (pkgAt u pkg).recovery = false) ∧
      (imageAccepted p = false → readyBit (pkgAt u pkg) 185 = false ∧ (pkgAt u pkg).recovery = true)) ∧
    (p.present = true → readyBit p 185 = true →
      exec (.imageVerification pkg image) s = .next (putPkg s pkg { p with version := max p.version image.toNat }))) ∧
  (∀ (pkg : Nat) (off value : BitVec 64) (s : State),
    ((pkgAt s pkg).recovery = false → exec (.managementWrite pkg off value) s = .next s) ∧
    ((pkgAt s pkg).recovery = true → ∃ u, exec (.managementWrite pkg off value) s = .next u ∧ u.mem = s.mem ∧
      u.tiles = s.tiles ∧ imageDword (pkgAt u pkg) (off.toNat / 8 * 8) = value ∧
      ∀ o, o ≠ off.toNat / 8 * 8 → imageDword (pkgAt u pkg) o = imageDword (pkgAt s pkg) o)) ∧
  (∀ (pkg : Nat) (off : BitVec 64) (s : State),
    (∀ (n : Fin 3) (link : Nat), off.toNat = 8 * n → link < 36 → readyBit (pkgAt s pkg) (128 + link) = true →
      exec (.managementRead pkg off) s = .next { s with inbox := s.inbox ++ [(pkg, [off,
        if n = 2 then (pkgAt s pkg).ready[n] &&& 0x83FFFFFFFFFFFFFF else (pkgAt s pkg).ready[n]])] }) ∧
    (24 ≤ off.toNat ∨ off.toNat % 8 ≠ 0 ∨ (∀ link, link < 36 → readyBit (pkgAt s pkg) (128 + link) = false) →
      exec (.managementRead pkg off) s = .next s)) ∧
  (∀ (pkg part : Nat) (nonce : BitVec 384) (s : State), ∃ sig, sig.length = 12 ∧
    exec (.attestationRequest pkg part nonce) s = .next { s with inbox := s.inbox ++ [(pkg,
      dwordsOf nonce.toNat 6 ++
      dwordsOf (Config.sha384 (imageBytes (pkgAt s pkg) 0 16 ++ imageBytes (pkgAt s pkg) 128 (imageLength (pkgAt s pkg)))).toNat 6 ++
      dwordsOf (Config.sha384 (attestedTables s pkg part)).toNat 6 ++ sig)] })

/-- R338, R379, R380: an error that spoils a value, poisons a word or fences a tile, corrected errors, and a link that has failed.
Which addresses name a tile's words and registers is the model's choice (log 62). -/
def ErrorsPart : Prop :=
  (∀ (tile : Nat) (addr : BitVec 48) (s : State),
    (addr ≠ ~~~0 → isGlobal addr.toNat = true → ∃ u, exec (.tileFence tile addr) s = .next u ∧ u.mem = s.mem ∧
      u.tasks = s.tasks ∧ isPoisoned u (homeTile s (tilePkg tile) (addr.toNat / 4 * 4)) (addr.toNat / 4 * 4) = true) ∧
    (addr ≠ ~~~0 → isGlobal addr.toNat = false →
      (∀ k, faultyAt tile addr.toNat = .word k → ∃ u, exec (.tileFence tile addr) s = .next u ∧ k ∈ u.spoilt ∧
        u.mem = s.mem ∧ u.tasks = s.tasks ∧ u.tiles = s.tiles) ∧
      (∀ k n t, faultyAt tile addr.toNat = .register k n → taskAt s k = some t →
        ∃ u v, exec (.tileFence tile addr) s = .next u ∧ taskAt u k = some v ∧ n ∈ v.spoilt ∧ v.g = t.g ∧ v.f = t.f ∧ v.p = t.p ∧
          u.mem = s.mem ∧ u.tiles = s.tiles)) ∧
    (addr = ~~~0 ∨ isGlobal addr.toNat = false ∧ faultyAt tile addr.toNat = .other →
      ∃ u, exec (.tileFence tile addr) s = .next u ∧ (tileAt u tile).fenced = true ∧
      (addr = ~~~0 → (tileAt u tile).sliceBad = true) ∧
      ((tileAt s tile).fenced = false → (∀ k, slotTile k = tile → taskAt u k = none) ∧
        (∀ k t, slotTile k = tile → taskAt s k = some t → t.inl = none → (launchAt u t.ctx t.launch).killed = true ∧
          (t.tag.getLsbD 4 = false → (phaseAt (tileAt u tile) t.tag.toNat).status.getLsbD 3 = true)) ∧
        (∀ n, n < 12 → (coreAt u (coreKey tile n)).entries = []) ∧ (tileAt u tile).postq = [] ∧ (tileAt u tile).ldfs = [] ∧
        ((pkgAt s (tilePkg tile)).gangs = [] → u.mem = s.mem ∧ ∀ home va owner, va % 4 = 0 → ownerOf s home va = some owner →
          coreTile owner = tile → isLost u home va = true) ∧
        (∀ gid g, (pkgAt s (tilePkg tile)).gangs = [(gid, g)] → GangTile s (tilePkg tile) g.ctx tile →
          ∀ m ∈ g.members, Tells u m 5)))) ∧
  (∀ (pkg : Nat) (bits : BitVec 32) (s : State), ∃ u, exec (.eccCorrected pkg bits) s = .next u ∧ u.mem = s.mem ∧
    (pkgAt u pkg).eccc.toNat = min ((pkgAt s pkg).eccc.toNat + bits.toNat) (2 ^ 32 - 1) ∧ u.tasks = s.tasks ∧ u.tiles = s.tiles) ∧
  (∀ (pkg : Nat) (link : BitVec 8) (s : State),
    (36 ≤ link.toNat ∨ readyBit (pkgAt s pkg) (128 + link.toNat) = false →
      exec (.linkRetryExhausted pkg link) s = .next s) ∧
    (link.toNat < 36 → readyBit (pkgAt s pkg) (128 + link.toNat) = true → ∃ u, exec (.linkRetryExhausted pkg link) s = .next u ∧
      u.mem = s.mem ∧ readyBit (pkgAt u pkg) (128 + link.toNat) = false ∧
      (∀ m, m < 192 → m ≠ 128 + link.toNat → readyBit (pkgAt u pkg) m = readyBit (pkgAt s pkg) m) ∧
      ((∃ l, l < 36 ∧ l ≠ link.toNat ∧ readyBit (pkgAt s pkg) (128 + l) = true) → (∀ p ∈ s.net, stranded s p = false) →
        u.net = s.net) ∧
      (pkgPresent s pkg = true → (∀ l, l < 36 → l ≠ link.toNat → readyBit (pkgAt s pkg) (128 + l) = false ∧
          128 + l ∈ (pkgAt s pkg).failed) → ∀ p h pl, s.net = [p] →
        p.body = .msg h pl → tilePkg (slotTile p.src) ≠ tilePkg (coreTile p.dst) →
        tilePkg (slotTile p.src) = pkg ∨ tilePkg (coreTile p.dst) = pkg →
        p ∉ u.net ∧ Reported u (coreOfFabric (fabricAddr (slotCore p.src)).toNat) 12 0x13)))

/-- R369, R381: the clock's steps, and a package that is too hot. -/
def PowerPart : Prop :=
  (∀ (pkg : Nat) (w : BitVec 64) (s : State), ∃ u, exec (.powerStep pkg w) s = .next u ∧ u.mem = s.mem ∧ u.tasks = s.tasks ∧
    (pkgAt u pkg).pwr = w ∧ ∀ d, d < 4 →
      let old := stepOfDie (pkgAt s pkg) d
      let cap := (pkgAt s pkg).pcap.toNat * 1000
      (cap < w.toNat → stepOfDie (pkgAt u pkg) d = min (old + 1) 7) ∧
      (w.toNat * 100 ≤ cap * 95 → stepOfDie (pkgAt u pkg) d = old - 1) ∧
      (w.toNat ≤ cap → cap * 95 < w.toNat * 100 → stepOfDie (pkgAt u pkg) d = old)) ∧
  (∀ (pkg : Nat) (die celsius : BitVec 8) (s : State), ∃ u, exec (.thermalLimit pkg die celsius) s = .next u ∧ u.mem = s.mem ∧
    u.tasks = s.tasks ∧
    (∀ d, d < 4 → stepOfDie (pkgAt u pkg) d = if 105 ≤ celsius.toNat ∧ d = die.toNat then 7 else stepOfDie (pkgAt s pkg) d) ∧
    (∀ (tile n : Nat) (g : Grant), (tget s.tiles tile).isSome = true → (tileAt s tile).grants[n]? = some g → (tileAt u tile).grants[n]? =
      some (if tilePkg tile = pkg ∧ 115 ≤ celsius.toNat ∧ grantValid g = true then withPre g true else g)))

/-- R151, R181, R225, R251, R262, R281, R293, R363, R375: what a reset of a core, a tile and a package leaves. -/
def ResetsPart : Prop :=
  (∀ (core : Nat) (s : State), ∃ u, exec (.coreReset core) s = .next u ∧ u.mem = s.mem ∧ u.full = s.full ∧
    (∀ k, slotCore k = core → taskAt u k = none) ∧ (∀ k, slotCore k ≠ core → taskAt u k = taskAt s k) ∧
    coreAt u core = { Core.reset with cycBase := s.cyc } ∧ (∀ c, c ≠ core → coreAt u c = coreAt s c) ∧
    (coreNum core = 4 → (tileAt u (coreTile core)).dray = []) ∧
    (coreNum core = 6 → let t := tileAt u (coreTile core)
      t.queues = Vector.replicate 8 [] ∧ t.qclosed = 0 ∧ t.stream = none ∧ t.mcrej = 0 ∧ t.mepoch = 0 ∧
        t.mepochAt = fabricTime s (tilePkg (coreTile core)) / 2 ^ 20 ∧
        t.zowner = Vector.replicate 4 none ∧ t.keyDraw = s.draws + 1)) ∧
  (∀ (tile : Nat) (s : State), ∃ u, exec (.tileReset tile) s = .next u ∧ u.mem = s.mem ∧
    (∀ k, slotTile k = tile → coreNum (slotCore k) < 12 → taskAt u k = none) ∧
    (∀ n, n < 12 → coreAt u (coreKey tile n) = { Core.reset with cycBase := s.cyc }) ∧
    (tileAt u tile).vway = 0 ∧ (tileAt u tile).sems = Vector.replicate 16 0 ∧ (tileAt u tile).queues = Vector.replicate 8 [] ∧
    (∀ t, t ≠ tile → tileAt u t = tileAt s t) ∧
    ∀ k, k ∈ u.full ↔ k ∈ s.full ∧ ¬(lmKey tile 0 ≤ k ∧ k < lmKey tile 0 + 2 ^ 20)) ∧
  (∀ (pkg : Nat) (s : State),
    ((pkgAt s pkg).present = false → exec (.packageReset pkg) s = .next s) ∧
    ((pkgAt s pkg).present = true → ∃ u, exec (.packageReset pkg) s = .next u ∧ u.mem = s.mem ∧
      (pkgAt u pkg).present = true ∧ (pkgAt u pkg).ready = Vector.replicate 3 0 ∧ (pkgAt u pkg).failed = [] ∧
      (pkgAt u pkg).version = (pkgAt s pkg).version ∧ (pkgAt u pkg).image = (pkgAt s pkg).image ∧
      (∀ q ∈ u.net, tilePkg (coreTile q.dst) ≠ pkg) ∧
      (∀ x ∈ u.parts, ∀ h ∈ x.2.hosts, h / 1024 ≠ pkg)))

/-- A part of a command's step runs from one state to another and answers a value. -/
def Gives {α : Type} (m : EM α) (s : State) (a : α) (u : State) : Prop := m.run s = (.ok a, u)

/-- Accesses of the device at homes are made, and answer a value. -/
def Made {α : Type} (m : HM α) (s : State) (a : α) (u : State) : Prop := m s = .ok (a, u)

/-- The head command of a ring, as it runs: nothing holds its start back (R179, R184, R254). -/
structure Heads (s : State) (core : Nat) (c : Command) (i : Instr) (s1 : State) : Prop where
  head : headCmd s core = some c
  free : c.state = 1 → startHeld s core c = false ∧ c.after.any (fun id => s.net.any (fun p => p.id == id)) = false
  word : taskWord c.word = some i
  runs : s1 = modCmd s core c.seq (fun e => { e with state := 2 })

/-- The command as it runs. -/
def going (c : Command) : Command := { c with state := 2 }

/-- R255, Table 4: the fault kind of a cause, by its number in R22; an error that has been found is the model's kind 2 (log 62). -/
def lateKind (e : Cause) : BitVec 8 :=
  match e.toNat with
  | 0x06 => 1
  | 0x07 => 2
  | 0x08 => 3
  | 0x09 => 4
  | 0x03 => 5
  | 0x0A => 10
  | _ => 2

/-- The bytes that words lying one after another hold at an address. -/
def bytesOf (va n : Nat) (value : Nat → Word) : Nat :=
  (wordsOf va n).foldr (fun w acc => (value w).toNat + 2 ^ 32 * acc) 0 / 2 ^ (8 * (va % 4)) % 2 ^ (8 * n)

/-- Every ring entry of a command's sequence number. -/
def RingSays (u : State) (core : Nat) (c : Command) (told : Command → Prop) : Prop :=
  ∀ e ∈ (coreAt u core).ring, e.seq = c.seq → told e

/-- The rest of a KBCAST lookup: its row goes out element by element. -/
def rowOut (core : Nat) (c : Command) (d : TMap) (k w : Nat) (row : List Word) : EM Unit := do
  for e in List.range (w + 1) do
    emit core c d (k * (w + 1) + e) (k * (w + 1) + e) .rule false (f32Val (row.getD e 0))

/-- Words of a page that land at its home one after another, each as a strong store, a lost one apart: address, storage key and
value (R216, R365). -/
def LandsWords (pkg ctx page : Nat) : List (Nat × Nat × Nat) → State → State → Prop
  | [], s, u => u = s
  | (va, k, v) :: r, s, u => ddrWaits s pkg va ctx = false ∧
    ((isLost s (homeTile s pkg page) va = true ∧ LandsWords pkg ctx page r s u) ∨
      (isLost s (homeTile s pkg page) va = false ∧
        ∃ x, Made (putH pkg va k ctx 4 v) s () x ∧ LandsWords pkg ctx page r x u))

/-- The staged elements of a list are added to their cell, one after another (R324). -/
def AddsAll (pkg cell : Nat) (priv : Nat → BitVec 2) : List Staged → State → State → Prop
  | [], s, u => u = s
  | x :: r, s, u => ∃ v, Made (addPair pkg x.ctx (priv x.ctx) cell 0 x.data) s () v ∧ AddsAll pkg cell priv r v u

/-- A landing of a transform arrives; the room it may need in the queue of blocks is there (R109, R361). -/
structure Landed (s : State) (id : Nat) (p : Packet) (h w : Dword) (data : List Dword) (xf : Nat) : Prop where
  taken : Taken s id p 9 h (w :: data)
  transform : hdrXf h = xf
  room : (tileAt s (coreTile p.dst)).blocks.length < 256

/-- It names no record, and its n bytes stay in one bank, which is its context's (R109). -/
structure Lands (s : State) (id : Nat) (p : Packet) (h w : Dword) (data : List Dword) (xf n : Nat) : Prop where
  landed : Landed s id p h w data xf
  record : landRecord w = 0
  some_ : 0 < n
  bank : landOff w / 2 ^ 16 = (landOff w + n - 1) / 2 ^ 16
  held : bankHeld s (coreTile p.dst) (hdrCtx h) (landOff w) = true

/-- The data stands in LM as it came, and every other byte as it was. -/
def LeftAsSent (s u : State) (key : Nat) (data : List Dword) : Prop :=
  u.stored ∧ (∀ j d, data[j]? = some d → cellsGet u.mem (key + 8 * j) 8 = d.toNat) ∧
  (∀ k, k < key ∨ key + 8 * data.length ≤ k → cellGet u.mem k = cellGet s.mem k)

/-- A landing of the elements `e`, whose bank has elements of whole bytes, neither dropped nor rounded with fresh bits. -/
structure LandsElems (s : State) (id : Nat) (p : Packet) (h w : Dword) (data : List Dword) (xf : Nat) (e : Elem) : Prop where
  form : landElem s (coreTile p.dst) w = some e
  lands : Lands s id p h w data xf (landCount (some e) data * (elemBits (bankElem s (coreTile p.dst) (landOff w)) / 8))
  whole : 8 ≤ elemBits (bankElem s (coreTile p.dst) (landOff w))
  kept : (bankReg s (coreTile p.dst) (landOff w)).getLsbD 55 = false
  exact : (bankReg s (coreTile p.dst) (landOff w)).getLsbD 54 = false

/-- Element k of a landing's data converted into the bank's format, and whether it is offending (R41, R109). -/
def landValue (s : State) (p : Packet) (w : Dword) (data : List Dword) (e : Elem) (k : Nat) : Nat × Bool :=
  let dst := bankElem s (coreTile p.dst) (landOff w)
  let x := elemVal e (landNat data / 2 ^ (elemBits e * k) % 2 ^ elemBits e)
  ((transferRound dst .rne x).bits, offending dst x (transferRound dst .rne x))

/-- Every element has reached its place, as `f` makes it of what stood there and of the converted value; every other byte is as
it was, and an offending one is an error of the phase. -/
def LeftConverted (s u : State) (p : Packet) (h w : Dword) (data : List Dword) (e : Elem) (f : Nat → Nat → Nat) : Prop :=
  let tile := coreTile p.dst
  let bytes := elemBits (bankElem s tile (landOff w)) / 8
  let n := landCount (some e) data
  let key (k : Nat) : Nat := lmKey tile (landOff w) + bytes * k
  u.full = s.full ∧
  (∀ k, k < n → cellsGet u.mem (key k) bytes =
    f (cellsGet s.mem (key k) bytes) (landValue s p w data e k).1 % 2 ^ (8 * bytes)) ∧
  (∀ k, k < key 0 ∨ key n ≤ k → cellGet u.mem k = cellGet s.mem k) ∧
  ((List.range n).any (fun k => (landValue s p w data e k).2) = true → (hdrTag h).getLsbD 4 = false →
    (phaseAt (tileAt u tile) (hdrTag h).toNat).status.getLsbD 0 = true)

/-- R192, R214, R216, R225, R255, R256, R258, R267, R338: how a command reads and writes its bytes. -/
def EngineAccessesPart : Prop :=
  (∀ (core va n v fb elem off k : Nat) (vault : Bool) (c : Command) (s : State),
    placeOf s (coreTile core) va = .placed vault k off →
    let faults (e : Cause) : EStop := .fault (lateKind e) (some (BitVec.ofNat 64 va)) elem
    (∀ e, placedCause s c.ctx vault k off = some e →
      (engineRead core c va n false elem).run s = (.error (faults e), s) ∧
      (engineWrite core c va n v fb elem).run s = (.error (faults e), s)) ∧
    (placedCause s c.ctx vault k off = none →
      (spoiltAt s (placeKey vault k off) n = false →
        Gives (engineRead core c va n false elem) s (cellsGet s.mem (placeKey vault k off) n) s) ∧
      (spoiltAt s (placeKey vault k off) n = true →
        (engineRead core c va n false elem).run s = (.error (faults causeMcheck), s)) ∧
      ∃ u, Gives (engineWrite core c va n v fb elem) s () u ∧
        u.mem = cellsPut s.mem (placeKey vault k off) n (v % 2 ^ (8 * n)) ∧
        (∀ w, w ∈ u.full ↔ w ∈ s.full ∨ (fb ≠ 1 ∧ w ∈ wordsOf (placeKey vault k off) n)) ∧ u.tasks = s.tasks ∧
        u.tiles = s.tiles ∧ u.cores = s.cores)) ∧
  (∀ (core va n elem : Nat) (col : Bool) (c : Command) (s : State), placeOf s (coreTile core) va = .hole →
    (engineRead core c va n col elem).run s = (.error (.fault 1 (some (BitVec.ofNat 64 va)) elem), s)) ∧
  (∀ (core va n elem : Nat) (col : Bool) (c : Command) (s : State), placeOf s (coreTile core) va = .global → n ≤ 8 →
    let home := homeTile s (corePkg core) va
    let at_ : Dword := BitVec.ofNat 64 va
    let hit (w : Nat) : Option Word := l1Hit s core c.ctx.toNat w
    ((∀ w ∈ wordsOf va n, (hit w).isSome = true) →
      Gives (engineRead core c va n col elem) s (bytesOf va n (fun w => (hit w).getD 0)) s) ∧
    ((∃ w ∈ wordsOf va n, hit w = none) →
      (∀ e, globalKey s (corePkg core) va c.ctx.toNat (ctxPriv s c.ctx.toNat) false = .error e →
        (e.toNat = 0x06 → coreNum core = 4 → (engineRead core c va n col elem).run s = (.error (.suspend at_ elem), s)) ∧
        ((e.toNat ≠ 0x06 ∨ coreNum core ≠ 4) →
          (engineRead core c va n col elem).run s = (.error (.fault (lateKind e) (some at_) elem), s))) ∧
      (∀ key, globalKey s (corePkg core) va c.ctx.toNat (ctxPriv s c.ctx.toNat) false = .ok key →
        (ddrWaits s (corePkg core) va c.ctx.toNat = true →
          (engineRead core c va n col elem).run s = (.error .wait, s)) ∧
        (ddrWaits s (corePkg core) va c.ctx.toNat = false →
          ((∃ w ∈ wordsOf va n, isLost s home w = true) →
            (engineRead core c va n col elem).run s = (.error (.fault 4 (some at_) elem), s)) ∧
          ((∀ w ∈ wordsOf va n, isLost s home w = false) → (∃ w ∈ wordsOf va n, isPoisoned s home w = true) →
            (engineRead core c va n col elem).run s = (.error (.fault 2 (some at_) elem), s)) ∧
          ((∀ w ∈ wordsOf va n, isLost s home w = false ∧ isPoisoned s home w = false) →
            ∃ u, Gives (engineRead core c va n col elem) s
                (bytesOf va n (fun w => (hit w).getD (homeWord s home w (key + w - va)))) u ∧
              u.mem = s.mem ∧ u.full = s.full ∧ u.tasks = s.tasks))))) ∧
  (∀ (core va n v fb elem : Nat) (c : Command) (s : State), placeOf s (coreTile core) va = .global →
    let pkg := corePkg core
    let priv := ctxPriv s c.ctx.toNat
    (∀ e, globalKey s pkg va c.ctx.toNat priv true = .error e →
      (engineWrite core c va n v fb elem).run s = (.error (.fault (lateKind e) (some (BitVec.ofNat 64 va)) elem), s)) ∧
    (∀ key, globalKey s pkg va c.ctx.toNat priv true = .ok key →
      ((∃ w ∈ wordsOf va n, isLost s (homeTile s pkg va) w = true) →
        (engineWrite core c va n v fb elem).run s = (.error (.fault 4 (some (BitVec.ofNat 64 va)) elem), s)) ∧
      ((∀ w ∈ wordsOf va n, isLost s (homeTile s pkg va) w = false) → ddrWaits s pkg va c.ctx.toNat = false →
        (∀ w ∈ wordsOf va n, ∀ x, l1Get s core w = some x → x.own ≠ .inFlight) →
        ∀ s1, Made (writeH pkg va c.ctx.toNat priv n v) s () s1 →
        ∃ u, Gives (engineWrite core c va n v fb elem) s () u ∧ u.mem = s1.mem ∧ u.full = s1.full))) ∧
  (∀ (pkg va ctx n v k : Nat) (priv : BitVec 2) (s u : State), globalKey s pkg va ctx priv true = .ok k →
    Made (writeH pkg va ctx priv n v) s () u → s.stored → u.stored ∧ cellsGet u.mem k n = v % 2 ^ (8 * n))

/-- R254, R270 to R274: one element of a copy, a gather and a scatter. -/
def EngineElementsPart : Prop :=
  (∀ (core p : Nat) (c : Command) (s s1 u1 : State) (i : Instr) (x : Machine.Num), Heads s core c i s1 →
    (∃ q a d g, i = .copy q a d g) → c.done = p + 1 → p < (mapOf c.mapA).count → (mapOf c.mapD).bs = false →
    Gives (readElem core (going c) (mapOf c.mapA) (mapOf c.mapA).col p) s1 x u1 →
    let dst := mapOf c.mapD
    ∀ u2, Gives (storeAt core (going c) dst.fb p .rule false false
        (spotOf u1 (coreTile core) dst dst.col (dst.indices p)) x) u1 () u2 →
      ∃ u, runStep s core = (u, .goesOn) ∧ u.mem = u2.mem ∧ u.full = u2.full ∧ RingSays u core c (fun e => e.done = p + 2)) ∧
  (∀ (core p i0 off : Nat) (r : List Nat) (c : Command) (s s1 : State) (i : Instr) (x : Machine.Num), Heads s core c i s1 →
    (∃ q b a d g, i = .gath q b a d g) →
    let tgt := mapOf c.mapA
    let dst := mapOf c.mapD
    let idx := mapOf c.mapB
    let ix := (i0 + p % rowLen tgt) :: r
    let spot := spotOf s1 (coreTile core) dst dst.col (dst.indices p)
    c.done = p + 1 → p < idx.count / 2 ^ idx.imode * rowLen tgt → c.notes = 0 :: i0 :: r → dst.bs = false →
    (∀ next, Gives (readIx core (going c) tgt tgt.col ix next (tgt.order ix)) s1 x s1) →
    spot.place = .placed false (coreTile core) off → placedCause s1 c.ctx false (coreTile core) off = none →
    8 ≤ spot.bits → spot.va % spot.bytes = 0 → placeOf s1 (coreTile core) spot.va = spot.place →
    ∃ u, exec (.gathreq core) s = .next u ∧
      u.mem = cellsPut s.mem (lmKey (coreTile core) off) spot.bytes
        ((convertTo s1 spot .rule false x).1 % 2 ^ (8 * spot.bytes)) ∧
      RingSays u core c (fun e => e.done = p + 2)) ∧
  (∀ (core p i0 off : Nat) (r : List Nat) (c : Command) (s s1 : State) (i : Instr) (x : Machine.Num) (add : Bool), Heads s core c i s1 →
    (∃ q b a d g, i = if add then .scatAdd q b a d g else .scat q b a d g) →
    let tgt := mapOf c.mapD
    let src := mapOf c.mapA
    let idx := mapOf c.mapB
    let ix := (i0 + p % rowLen tgt) :: r
    let spot := spotOf s1 (coreTile core) tgt tgt.col ix
    c.done = p + 1 → p < idx.count / 2 ^ idx.imode * rowLen tgt → c.notes = 0 :: i0 :: r → tgt.bs = false →
    Gives (readElem core (going c) src src.col p) s1 x s1 →
    spot.place = .placed false (coreTile core) off → placedCause s1 c.ctx false (coreTile core) off = none →
    8 ≤ spot.bits → spot.va % spot.bytes = 0 → placeOf s1 (coreTile core) spot.va = spot.place →
    let new := (convertTo s1 spot .rule false x).1
    let old := cellsGet s.mem (lmKey (coreTile core) off) spot.bytes / 2 ^ spot.bit % 2 ^ spot.bits
    ∃ u, exec (.scatreq core) s = .next u ∧
      u.mem = cellsPut s.mem (lmKey (coreTile core) off) spot.bytes
        ((if add then addInto spot.elem old new else new) % 2 ^ (8 * spot.bytes)) ∧
      RingSays u core c (fun e => e.done = p + 2))

/-- R251, R254, R255, R258, R293, R298, R339: a command's completion with its signal, a late fault, a suspension, and the trap
that either is to its task. -/
def CommandEndsPart : Prop :=
  (∀ (core : Nat) (c : Command) (s s1 : State) (z : BitVec 2) (q : BitVec 3) (g : BitVec 4),
    Heads s core c (.mzero z q g) s1 → cmdAt s core c.seq = some c → c.remote = none → signalOf c.word = q.toNat →
    ∃ u, exec (.commandComplete core) s = .next u ∧ u.mem = s.mem ∧ zGet u (coreTile core) z = 0 ∧
      zOwner u (coreTile core) z = some c.ctx ∧ RingSays u core c (fun e => e.state = 3) ∧
      (q = 0 → (tileAt u (coreTile core)).sems = (tileAt s (coreTile core)).sems) ∧
      (q ≠ 0 → semAt s (coreTile core) (8 + q.toNat) ≠ 0xFFFF →
        semAt u (coreTile core) (8 + q.toNat) = semAt s (coreTile core) (8 + q.toNat) + 1)) ∧
  (∀ (core : Nat) (c : Command) (s s1 : State) (i : Instr) (t : Task) (k : Nat), Heads s core c i s1 →
    (∃ q a d g, i = .copy q a d g) → c.done = 0 → cmdAt s core c.seq = some c → c.remote = none →
    (mapOf c.mapA).ext ≠ (mapOf c.mapD).ext → taskAt s k = some t → t.uid = c.uid →
    ∃ u, exec (.lateFault core) s = .next u ∧ u.mem = s.mem ∧ u.tasks = s.tasks ∧
      RingSays u core c (fun e => e.state = 4 ∧ e.kind = 6 ∧ e.elem = 0 ∧ e.held = true ∧ e.unreported = true) ∧
      (∀ e ∈ (coreAt u core).ring, e.uid = c.uid → e.remote = none → e.state = 1 → 128 ≤ (e.seq - c.seq).toNat)) ∧
  (∀ (core p elem : Nat) (c : Command) (s s1 s2 : State) (i : Instr) (a : Dword) (t : Task) (k : Nat), Heads s core c i s1 →
    (∃ q a d g, i = .copy q a d g) → c.done = p + 1 → p < (mapOf c.mapA).count → cmdAt s core c.seq = some c →
    c.remote = none → taskAt s k = some t → t.uid = c.uid →
    (readElem core (going c) (mapOf c.mapA) (mapOf c.mapA).col p).run s1 = (.error (.suspend a elem), s2) →
    elem < 2 ^ 32 →
    ∃ u, exec (.lateFault core) s = .next u ∧ u.mem = s.mem ∧
      RingSays u core c (fun e => e.state = 5 ∧ e.kind = 1 ∧ e.addr = a ∧ e.elem = elem ∧ e.unreported = true)) ∧
  (∀ (core : Nat) (c : Command) (s : State),
    (coreAt s core).ring.find? (fun e => e.state == 1 || e.state == 5 || (e.state == 2 && !isVgo e.word)) = some c → c.state = 5 →
    exec (.commandComplete core) s = .next s ∧ runStep s core = (s, .idle)) ∧
  (∀ (k : Nat) (s : State) (t : Task) (x : Encoded) (buf : Buffer) (i : Instr) (e : Command), taskAt s k = some t →
    fetchTask s k t = .ok (x, buf) → taskInstr x = some i → checks i t (coreNum (slotCore k)) = none → t.tlev = 0 →
    t.inl = none → mustFinish t = false →
    (coreAt s (slotCore k)).ring.find? (fun e => e.uid == t.uid && e.unreported && (e.state == 4 || e.state == 5)) = some e →
    let u := modCmd (enter s k x buf) (slotCore k) e.seq (fun e => { e with unreported := false })
    (e.state = 5 → slotStep k s = .next (takeTrap causeXlate e.addr u)) ∧
    (e.state = 4 → slotStep k s =
      .next (takeTrap (if e.kind = 9 then causeQueue else causeEngine) (BitVec.ofNat 64 e.seq.toNat) u))) ∧
  (∀ (core : Nat) (s : State), headCmd s core = none →
    exec (.commandComplete core) s = .next s ∧ exec (.lateFault core) s = .next s ∧ exec (.gathreq core) s = .next s ∧
    exec (.scatreq core) s = .next s ∧ exec (.kaggreq core) s = .next s ∧ exec (.kbcastreq core) s = .next s)

/-- R305, R315, R322 to R327: an element of KAGG at the owner of its cell, a lookup of KBCAST, an entry of the change log, which is
tried again while its home refuses it (log 100), and the staging store. -/
def JoinStepsPart : Prop :=
  (∀ (core k key cell owner n : Nat) (row : List Word) (v : Volume) (c : Command) (i : Instr)
      (s s1 s2 s3 s4 s5 s6 s7 s8 : State), Heads s core c i s1 → (∃ q b a d g, i = .kagg q b a d g) → logOut s1 core = false →
    let handle := (mapOf c.mapD).base
    let pkg := corePkg core
    let ctx := c.ctx.toNat
    let priv := ctxPriv s1 ctx
    c.done = k + 1 → k < (mapOf c.mapB).count → Gives (keyE core (going c) k) s1 key s2 →
    Gives (pairE core (going c) k) s2 row s3 → Gives (openE core (going c) handle) s3 v s4 →
    let stripe := stripeOf core (stripesOf c key)
    let logs : Prop := stripe = 0 ∧ noteChg c = true
    Gives (cellE core (going c) v [key, stripe] true (k * (noteW c + 1))) s4 (.at_ cell) s5 →
    Gives (ownerE core (going c) cell (k * (noteW c + 1)) true) s5 owner s6 →
    (logs → Made (mayLog pkg ctx priv handle cell) s6 () s6) →
    Made (applyStaged pkg owner cell) s6 n s7 → Made (addPair pkg ctx priv cell 0 row) s7 () s8 →
    let stamp := (peek s8 pkg (handle + 92) ctx 4 + 1) % 2 ^ 32
    ∃ u, exec (.kaggreq core) s = .next u ∧ u.mem = s8.mem ∧ RingSays u core c (fun e => e.done = k + 2) ∧
      ((¬logs ∧ n = 0) ∨ peek s8 pkg (cell + 4) ctx 4 = stamp → u.net = s8.net) ∧
      (∀ times, (logs ∧ times = n + 1) ∨ (¬logs ∧ times = n ∧ n ≠ 0) → peek s8 pkg (cell + 4) ctx 4 ≠ stamp →
        Goes u (performing (homeTile s8 pkg (handle + 64)) (handle + 64))
          (.logEntry handle ctx key cell times (BitVec.ofNat 32 stamp)))) ∧
  (∀ (pkg ctx cell e key : Nat) (priv : BitVec 2) (x : Word) (s u : State), s.stored →
    Made (addPair pkg ctx priv cell e [x]) s () u →
    let va := if e = 0 then cell else cell + 4 + 4 * e
    globalKey s pkg va ctx priv true = .ok key →
    let old := (readWords s (homeTile s pkg va) va key 4).toNat
    u.stored ∧ cellsGet u.mem key 4 = (roundF32 (numAdd (f32Val (BitVec.ofNat 32 old)) (f32Val x))).toNat) ∧
  (∀ (core k key : Nat) (v : Volume) (c : Command) (i : Instr) (s s1 s2 s3 s4 : State), Heads s core c i s1 →
    (∃ q b a d g, i = .kbcast q b a d g) → logOut s1 core = false →
    let handle := (mapOf c.mapA).base
    let pkg := corePkg core
    let ctx := c.ctx.toNat
    let zeros := List.replicate (noteW c + 1) (0#32)
    let counted (s : State) (which : Nat) : State := countVol s (homePkg pkg handle) ctx handle which
    c.done = k + 1 → k < (mapOf c.mapB).count → Gives (keyE core (going c) k) s1 key s2 →
    Gives (openE core (going c) handle) s2 v s3 →
    (Gives (cellE core (going c) v [key, 0] false (k * (noteW c + 1))) s3 .empty s4 → ∀ s6,
      Gives (rowOut core (going c) (mapOf c.mapD) k (noteW c) zeros) (counted (counted s4 0) 2) () s6 →
      ∃ u, exec (.kbcastreq core) s = .next u ∧ u.mem = s6.mem ∧ RingSays u core c (fun e => e.done = k + 2)) ∧
    (∀ cell owner row s5 s6 s7, Gives (cellE core (going c) v [key, 0] false (k * (noteW c + 1))) s3 (.at_ cell) s4 →
      Gives (ownerE core (going c) cell (k * (noteW c + 1)) false) s4 owner s5 →
      Made (applyStaged pkg owner cell) s5 0 s6 → Made (cellPair pkg ctx (ctxPriv s6 ctx) cell (noteW c)) s6 row s6 →
      numIsZero (f32Val (row.getD 0 0)) = false →
      Gives (rowOut core (going c) (mapOf c.mapD) k (noteW c) row) s6 () s7 →
      ∃ u, exec (.kbcastreq core) s = .next u ∧ u.mem = s7.mem ∧ RingSays u core c (fun e => e.done = k + 2))) ∧
  (∀ (id handle ctx key cell times : Nat) (stamp : Word) (s : State) (p : Packet), Arrives s id p →
    p.body = .logEntry handle ctx key cell times stamp → handlerFree s p.dst = true →
    let pkg := tilePkg (coreTile p.dst)
    let priv := ctxPriv s ctx
    (∀ entry head dropped s1, Made (ringPlace pkg ctx priv handle) s (true, entry, head) s →
      Made (updateH pkg (handle + 88) ctx priv 4 (fun n => min (n + times) (2 ^ 32 - 1))) s dropped s1 →
      exec (.changeLogAppend id) s = .next (dropPacket s1 id)) ∧
    (∀ entry head s1 s2 s3, Made (ringPlace pkg ctx priv handle) s (false, entry, head) s →
      Made (writeH pkg entry ctx priv 8 (key * 2 ^ 32 + stamp.toNat)) s () s1 →
      Made (writeH pkg (handle + 72) ctx priv 8 ((head + 1) % 2 ^ 64)) s1 () s2 →
      Made (writeH pkg (cell + 4) ctx priv 4 stamp.toNat) s2 () s3 →
      ∃ u, exec (.changeLogAppend id) s = .next u ∧ u.mem = s3.mem ∧ u.net = s3.net.filter (fun q => q.id != id)) ∧
    (∀ e va, appendLog pkg ctx priv handle key cell times stamp s = .error (.fails e va) →
      exec (.changeLogAppend id) s = .next (if ctxLive s ctx then s else dropPacket s id))) ∧
  (∀ (core cell elem : Nat) (write : Bool) (c : Command) (s : State),
    let pkg := corePkg core
    let owner := performing (homeTile s pkg cell) cell
    handlerFree s owner = true → cellBusy s cell = false →
    creditFree s owner (coreTile core) (if write then 10 else 11) = true →
    (∀ e, globalKey s pkg cell c.ctx.toNat (ctxPriv s c.ctx.toNat) write = .error e →
      (ownerE core c cell elem write).run s = (.error (.fault (lateKind e) (some (BitVec.ofNat 64 cell)) elem), s)) ∧
    (∀ key, globalKey s pkg cell c.ctx.toNat (ctxPriv s c.ctx.toNat) write = .ok key →
      ((∃ i, i < noteW c + 2 ∧ isLost s (homeTile s pkg cell) (cell + 4 * i) = true) →
        (ownerE core c cell elem write).run s = (.error (.fault 4 (some (BitVec.ofNat 64 cell)) elem), s)) ∧
      ((∀ i, i < noteW c + 2 → isLost s (homeTile s pkg cell) (cell + 4 * i) = false) →
        ∃ u, Gives (ownerE core c cell elem write) s owner u ∧ u.mem = s.mem ∧ u.net = s.net ∧ u.cores = s.cores))) ∧
  (∀ (pkg owner cell : Nat) (l : List Staged) (s : State), l ≠ [] →
    l.Perm ((coreAt s owner).staged.filter (fun e => e.cell == cell)) →
    l.Pairwise (fun a b => a.srcTile < b.srcTile ∨ (a.srcTile = b.srcTile ∧ a.order < b.order)) →
    let s0 := modCore s owner (fun x => { x with staged := x.staged.filter (fun e => e.cell != cell) })
    ∀ first u, l.head? = some first →
      let logs : Prop := first.stripe = 0 ∧ peek s pkg (first.handle + 64) first.ctx 8 / 2 ^ 63 = 1
      (logs → Made (mayLog pkg first.ctx (ctxPriv s first.ctx) first.handle cell) s0 () s0) →
      AddsAll pkg cell (ctxPriv s) l s0 u → ∀ n, (logs → n = l.length) → (¬logs → n = 0) → Made (applyStaged pkg owner cell) s n u) ∧
  (∀ (core owner n elem fuel m : Nat) (e : Staged) (s s1 : State),
    let l := (coreAt s owner).staged
    let bytes (l : List Staged) : Nat := (l.map (fun e => 8 + 4 * e.data.length)).sum
    (bytes l + n ≤ 16384 → Gives (makeRoom core owner n elem (fuel + 2) false) s false s) ∧
    (16384 < bytes l + n → e ∈ l → (∀ x ∈ l, x ≠ e → e.order < x.order) → cellBusy s e.cell = false →
      Made (applyStaged (corePkg core) owner e.cell) s m s1 →
      let u := logKey s1 core (corePkg core) e.ctx e.handle e.key e.cell m
      bytes (coreAt u owner).staged + n ≤ 16384 → Gives (makeRoom core owner n elem (fuel + 2) false) s true u))

/-- R261 to R265, R275, R365, R366: an MCMD and an XFORM, accepted or rejected, the completion of a flash command, and the data of
a Read (log 58). -/
def RemoteCommandsPart : Prop :=
  (∀ (id n : Nat) (s : State) (p : Packet) (h : Dword) (pl : List Dword) (i : Instr) (cls kind cause : Nat),
    Taken s id p cls h pl → (cls = 12 ∧ i = .mcmd id ∧ mcmdReason s (coreTile p.dst) h pl = n ∧ kind = 8 ∧ cause = 0x0F) ∨
      (cls = 17 ∧ i = .xform id ∧ xformReason s (coreTile p.dst) h pl = n ∧ kind = 10 ∧ cause = 7) → n ≠ 0 →
    ∃ u, exec i s = .next u ∧ arrived s u id ∧ u.mem = s.mem ∧ (coreAt u p.dst).ring = (coreAt s p.dst).ring ∧
      Reported u (coreOfFabric (fabricAddr (slotCore p.src)).toNat) kind cause ∧
      (∃ q ∈ u.net, ∃ h pl, q.body = .own h pl ∧ (pl.getD 1 0).toNat = n) ∧
      (cls = 12 → (tileAt u (coreTile p.dst)).mcrej.toNat = min ((tileAt s (coreTile p.dst)).mcrej.toNat + 1) (2 ^ 32 - 1))) ∧
  (∀ (id : Nat) (s : State) (p : Packet) (h : Dword) (pl : List Dword), Taken s id p 12 h pl →
    mcmdReason s (coreTile p.dst) h pl = 0 → ringFree (coreAt s p.dst) = true →
    let img (j : Nat) : BitVec 256 := imageAt s (coreTile p.dst) ((pl.getD 2 0).toNat / 2 ^ (20 * j) % 2 ^ 20)
    ∃ u e, exec (.mcmd id) s = .next u ∧ arrived s u id ∧ u.mem = s.mem ∧ e ∈ (coreAt u p.dst).ring ∧
      e.seq = (coreAt s p.dst).nextSeq ∧ (coreAt u p.dst).nextSeq = (coreAt s p.dst).nextSeq + 1 ∧ e.state = 1 ∧
      e.word = BitVec.ofNat 32 (pl.getD 1 0).toNat ∧ e.mapA = img 0 ∧ e.mapB = img 1 ∧ e.mapD = img 2 ∧ e.ctx = hdrCtx h ∧
      e.origin = (fabricAddr (slotCore p.src)).setWidth 64) ∧
  (∀ (s : State) (tile : Nat) (h : Dword) (pl : List Dword),
    let tok := (pl.getD 0 0).toNat
    (tok / 2 ^ 54 ≠ tile % 1024 → mcmdReason s tile h pl = 1) ∧
    (tok / 2 ^ 54 = tile % 1024 → tok / 2 ^ 43 % 2 ^ 11 ≠ (hdrCtx h).toNat → mcmdReason s tile h pl = 2)) ∧
  (∀ (id : Nat) (s : State) (p : Packet) (h : Dword) (pl : List Dword), Taken s id p 17 h pl →
    xformReason s (coreTile p.dst) h pl = 0 → ringFree (coreAt s p.dst) = true →
    let img (j : Nat) : BitVec 256 := imageAt s (coreTile p.dst) ((pl.getD 1 0).toNat / 2 ^ (20 * j) % 2 ^ 20)
    ∃ u e, exec (.xform id) s = .next u ∧ arrived s u id ∧ u.mem = s.mem ∧ e ∈ (coreAt u p.dst).ring ∧
      e.seq = (coreAt s p.dst).nextSeq ∧ e.state = 1 ∧ e.word = BitVec.ofNat 32 (pl.getD 0 0).toNat ∧ e.mapA = img 0 ∧
      e.mapD = img 1 ∧ e.ctx = hdrCtx h) ∧
  (∀ (id tail out done : Nat) (s : State) (p : Packet) (h : Dword) (pl : List Dword), Taken s id p 14 h pl →
    let pair := (pl.getD 0 0).toNat % 64
    let last := (pl.getD 2 0).toNat
    let cq := pairWord s p.dst (hdrCtx h) pair 1 % 2 ^ 48 + 16 * done
    let ctx := (hdrCtx h).toNat
    let s0 := dropPacket (phaseArrive s (coreTile p.dst) (hdrTag h)) id
    let read := readOf s p.dst (hdrCtx h) pair (last / 2 ^ 32 % 2 ^ 16)
    pairWaits s p.dst (hdrCtx h) pair = false → pairState s p.dst (hdrCtx h) pair = (tail, out, done) →
    p.body = .own h pl → ∀ sl s1 s2,
    (read = none → sl = s0) → (∀ r, read = some r → last / 2 ^ 49 ≠ 0 → sl = dropRead s0 p.dst (hdrCtx h) r) →
    (∀ r, read = some r → last / 2 ^ 49 = 0 →
      ∃ v, Made (landPages (corePkg p.dst) ctx r.at_ r.pages) s0 () v ∧ sl = dropRead v p.dst (hdrCtx h) r) →
    Made (writeH (corePkg p.dst) cq ctx (ctxPriv s ctx) 8 (pl.getD 1 0).toNat) sl () s1 →
    Made (writeH (corePkg p.dst) (cq + 8) ctx (ctxPriv s ctx) 8 last) s1 () s2 →
    ∃ u, exec (.fldone id) s = .next u ∧ u.mem = s2.mem ∧
      pairState u p.dst (hdrCtx h) pair = (tail, out - 1, (done + 1) % pairDepth s p.dst (hdrCtx h) pair) ∧
      (let rec_ : Dword := BitVec.ofNat 64 (pairWord s p.dst (hdrCtx h) pair 3)
       rec_ ≠ 0#64 → nameOk rec_ = true → ∃ q ∈ u.net, q.dst = nameCore rec_ ∧
        q.body = .own (mkHeader 3 (hdrCtx h) 16#5 0 true (fabricAddr (nameCore rec_)).toNat) [rec_])) ∧
  (∀ (pkg ctx at_ va k n : Nat) (s u : State),
    LandsWords pkg ctx va ((List.range (n / 4)).map (fun i => (va + 4 * i, k + 4 * i, cellsGet s.flash (at_ + 4 * i) 4))) s u →
    n % 4 = 0 →
    Made (landPages pkg ctx at_ [(va, k, n)]) s () u)

/-- R43, R281 to R283, R287, R293, R297: the product that MMA leaves, and an entry of the stash. -/
def MatrixAndStashPart : Prop :=
  (∀ (core : Nat) (c : Command) (s s1 : State) (acc k j : BitVec 1) (z : BitVec 2) (q : BitVec 3) (b a g : BitVec 4),
    Heads s core c (.mma acc k j z q b a g) s1 → cmdAt s core c.seq = some c → c.remote = none →
    let ma := mapOf c.mapA
    let mb := mapOf c.mapB
    let tile := coreTile core
    c.done = ma.count + mb.count + 1 → c.got.length = ma.count + mb.count →
    let vals := c.got.reverse
    let aAt (i k : Nat) : Machine.Num := operandAt ma (vals.take ma.count).toArray k i
    let bAt (k j : Nat) : Machine.Num := operandAt mb (vals.drop ma.count).toArray k j
    let old (i j : Nat) : Word :=
      if acc = 1 ∧ zOwner s tile z = some c.ctx then zAt (zGet s tile z) i j else 0
    ∃ u, exec (.commandComplete core) s = .next u ∧ u.mem = s.mem ∧ zOwner u tile z = some c.ctx ∧
      (∀ y, y ≠ z → zGet u tile y = zGet s tile y) ∧ RingSays u core c (fun e => e.state = 3) ∧
      ∀ i j, i < 64 → j < 64 → zAt (zGet u tile z) i j =
        sumBlocks (aAt i) (fun k => bAt k j) ((ma.ext0 + 31) / 32) 0 (old i j)) ∧
  (∀ (core : Nat) (c : Command) (s s1 : State) (b a : BitVec 5) (g : BitVec 4) (x y : Dword),
    Heads s core c (.stash b a g) s1 → cmdAt s core c.seq = some c → c.remote = none → c.args = [x, y] → s.stored →
    let tile := coreTile core
    let d := drayOf s tile c.ctx
    let off := x.toNat
    let tag : Word := BitVec.ofNat 32 (y.toNat / 2 ^ 32)
    let n := y.toNat % 2 ^ 32
    let ring := vaultKey tile d.stashb.toNat
    Gives (stashWaysE core (going c)) s1 () s1 → Gives (lmRangeE core (going c) off n) s1 () s1 →
    (∀ e ∈ d.tags, e.tag ≠ tag) → d.tags.length < 4096 → 0 < n → d.head + 32 + n ≤ d.stashl.toNat →
    ringUsed d.tags 0 d.stashl.toNat d.head + 32 + n ≤ d.stashl.toNat →
    ∃ u, exec (.commandComplete core) s = .next u ∧ RingSays u core c (fun e => e.state = 3) ∧ u.stored ∧
      (drayOf u tile c.ctx).tags = d.tags ++ [{ ctx := c.ctx.toNat, tag := tag, where_ := 0, offset := d.head, length := n }] ∧
      cellsGet u.mem (ring + d.head) 8 = tag.toNat * 2 ^ 32 + n ∧ cellsGet u.mem (ring + d.head + 8) 8 = 1 ∧
      (∀ i, i < n → cellGet u.mem (ring + d.head + 32 + i) = cellGet s.mem (lmKey tile (off + i))) ∧
      (∀ k, k < ring + d.head ∨ ring + d.head + 32 + n ≤ k → cellGet u.mem k = cellGet s.mem k)) ∧
  (∀ (core : Nat) (c : Command) (s s1 : State) (a d : BitVec 5) (g : BitVec 4) (x : Dword) (e : StashTag),
    Heads s core c (.unstash a d g) s1 → cmdAt s core c.seq = some c → c.remote = none → c.args = [x, 0] → s.stored →
    let tile := coreTile core
    let y := drayOf s tile c.ctx
    let off := x.toNat % 2 ^ 20
    let tag : Word := BitVec.ofNat 32 (x.toNat / 2 ^ 32)
    Gives (stashWaysE core (going c)) s1 () s1 → Gives (lmRangeE core (going c) off e.length) s1 () s1 →
    tagOf s core c.ctx tag = some e → e.where_ = 0 → e.offset + 32 + e.length ≤ y.stashl.toNat → 0 < y.stashl.toNat →
    y.stashb.toNat + y.stashl.toNat ≤ 2 ^ 23 → c.done = 0 → (∀ r ∈ y.reads, r.reader ≠ some c.seq) →
    ∃ u, exec (.commandComplete core) s = .next u ∧ RingSays u core c (fun e => e.state = 3) ∧
      tagOf u core c.ctx tag = none ∧
      (∀ i, i < e.length → cellGet u.mem (lmKey tile (off + i)) =
        cellGet s.mem (vaultKey tile (y.stashb.toNat + e.offset + 32 + i))) ∧
      cellsGet u.mem (vaultKey tile (y.stashb.toNat + e.offset + 8)) 8 = 0 ∧
      (∀ w ∈ wordsOf (lmKey tile off) e.length, w ∈ u.full)) ∧
  (∀ (core : Nat) (c : Command) (s s1 : State) (a d : BitVec 5) (g : BitVec 4) (x : Dword) (e : StashTag) (r : FlashRead),
    Heads s core c (.unstash a d g) s1 → c.args = [x, 1] → c.done = 1 →
    Gives (stashWaysE core (going c)) s1 () s1 → tagOf s1 core c.ctx (BitVec.ofNat 32 (x.toNat / 2 ^ 32)) = some e →
    e.where_ = 2 → r ∈ (drayOf s1 (coreTile core) c.ctx).reads → r.reader = some c.seq →
    runStep s core = (s1, .waits))

/-- An instruction of a few words of the spec, as the tasks read them, and of a few of the stream. -/
def sampleWords : List (Word × Instr) :=
  [(0x00C52001, .add 0 6 5 4 0), (0xFC021003, .addi (-32) 2 2 0), (0xFF673D83, .addi (-5) 7 7 11),
   (0x94E62801, .div 1 7 6 5 0), (0x3065200B, .srai 1 3 5 4 0), (0x1D7F482B, .ld 3 2 2 3 31 9 0),
   (0x1862082D, .st 3 0 0 3 2 1 0), (0x00C5201F, .fadd 6 5 4 0), (0x80C50033, .amoAdd 1 0 6 5 0 0),
   (0x0040003D, .fenceA 2 0), (0x28282847, .send 40 0 1 8 5 0), (0x00051053, .tmset 5 2 0),
   (0x00001055, .copy 0 0 2 0), (0x00C6282F, .ldfE 0 0 0 6 5 0), (0x00050067, .trap 5 0), (0x04000067, .tret 0)]
noncomputable def sampleStream : List (Word × Instr) :=
  [(0x0C081071, .vfma 0 1 0 2 0), (0x04018879, .vstq 3 1 0), (0x0C0C8079, .vend 1 9), (0x0001187B, .vredAdd 0 2 3 0)]

/-- A slot's task is at an instruction of 32 bits that lies in a bank of its context and decodes (R16, R17, R47). -/
structure AtWord (s : State) (k : Nat) (t : Task) (i : Instr) : Prop where
  task : taskAt s k = some t
  plain : t.inl = none
  fresh : t.fetch = none
  even : t.pc.toNat % 2 = 0
  inside : t.pcOver = 0
  anew : t.pend.word = none
  low : t.pc.toNat + 4 ≤ 2 ^ 20
  held : bankHeld s (slotTile k) t.ctx t.pc.toNat = true ∧ bankHeld s (slotTile k) t.ctx (t.pc.toNat + 2) = true
  decodes : ∃ rest, decodeBytes false (storeBytes s (lmKey (slotTile k) t.pc.toNat) 4) = .ok (i, rest)

/-- A format the spec names: F32, F16, B16, or one that an FN parameter field names (R15, R28 to R30). -/
def named (f : Fmt) : Prop := f = f32 ∨ f = f16 ∨ f = b16 ∨ ∃ p : BitVec 17, fnValid p = true ∧ f = fnFmt p

/-- R35, R39: the multiple of the grid that a magnitude of `n` multiples and `rem` of `g` parts of the next rounds to. -/
def roundedOn (mode : Mode) (neg : Bool) (n rem g r : Nat) : Prop :=
  match mode with
  | .rne => (2 * rem < g → r = n) ∧ (g < 2 * rem → r = n + 1) ∧ (2 * rem = g → (r = n ∨ r = n + 1) ∧ r % 2 = 0)
  | .rtz => r = n
  | .rup => r = if rem ≠ 0 ∧ neg = false then n + 1 else n
  | .rdn => r = if rem ≠ 0 ∧ neg = true then n + 1 else n
  | .rna => r = if g ≤ 2 * rem then n + 1 else n
  | .sr k rho => r = if rho < rem * 2 ^ k / g then n + 1 else n

/-- The exponent of the least grid of a format: its subnormal spacing (R35). -/
def gridMin (f : Fmt) : Int := 1 - (f.bias : Int) - f.mbits
/-- The grid of a format at a magnitude (R35). -/
def gridAt (f : Fmt) (mag : Nat) (exp : Int) : Int := max (exp + Nat.log2 mag - f.mbits) (gridMin f)
/-- The exponent to which a magnitude and its grid are brought. -/
def commonExp (f : Fmt) (mag : Nat) (exp : Int) : Int := min exp (gridAt f mag exp)
/-- The magnitude, and one step of its grid, at that exponent. -/
def magAt (f : Fmt) (mag : Nat) (exp : Int) : Nat := mag * 2 ^ (exp - commonExp f mag exp).toNat
def stepAt (f : Fmt) (mag : Nat) (exp : Int) : Nat := 2 ^ (gridAt f mag exp - commonExp f mag exp).toNat
/-- `r` steps of the grid, in steps of the least grid. -/
def inLeast (f : Fmt) (mag : Nat) (exp : Int) (r : Nat) : Nat := r * 2 ^ (gridAt f mag exp - gridMin f).toNat
/-- The largest finite magnitude, in steps of the least grid (R29, R30). -/
def largest (f : Fmt) : Nat := (2 ^ (f.mbits + 1) - 1) * 2 ^ (if f.modeF then 2 ^ f.ebits - 2 else 2 ^ f.ebits - 3)

/-- The bits of a sign, of the largest finite magnitude, of an infinity or what mode F has for it, of a NaN and of a zero (R29,
R30, R32). -/
def signBit (f : Fmt) (neg : Bool) : Nat := if neg then 2 ^ (f.ebits + f.mbits) else 0
def largestBits (f : Fmt) (neg : Bool) : Nat :=
  signBit f neg + (if f.modeF then 2 ^ (f.ebits + f.mbits) - 1 else (2 ^ f.ebits - 1) * 2 ^ f.mbits - 1)
def nanBits (f : Fmt) : Nat :=
  if f.modeF then 2 ^ (f.ebits + f.mbits) else (2 ^ f.ebits - 1) * 2 ^ f.mbits + 2 ^ (f.mbits - 1)
def infBits (f : Fmt) (neg : Bool) : Nat := if f.modeF then nanBits f else signBit f neg + (2 ^ f.ebits - 1) * 2 ^ f.mbits
def zeroBits (f : Fmt) (neg : Bool) : Nat := if f.modeF then 0 else signBit f neg

/-- Table 5: the result of an overflow (R37; R39 for stochastic rounding). -/
def overflowBits (f : Fmt) (mode : Mode) (sat neg : Bool) : Nat :=
  if sat = true ∨ mode = .rtz ∨ (mode = .rup ∧ neg = true) ∨ (mode = .rdn ∧ neg = false) then largestBits f neg
  else infBits f neg

/-- Two magnitudes are the same number. -/
def sameMag (m : Nat) (e : Int) (n : Nat) (d : Int) : Prop := m * 2 ^ (e - min e d).toNat = n * 2 ^ (d - min e d).toNat

/-- A result has the bits of one rounding and its conditions. -/
def likeRound (r : Rounded) (x : Machine.Num) : Prop :=
  r.bits = (roundTo f32 .rne false x).bits ∧ r.flags = (roundTo f32 .rne false x).flags
/-- A result has these bits and raises these conditions. -/
def gives (r : Rounded) (bits : Nat) (flags : BitVec 5) : Prop := r.bits = bits ∧ r.flags = flags

/-- R34: the largest exponent of an element format, and the formats the spec names. -/
def topExp : Elem → Int
  | .int w sg => if sg then (w : Int) - 2 else (w : Int) - 1
  | .flt f => gridMin f + Nat.log2 (largest f)
def namedElem : Elem → Prop
  | .int w _ => w = 8 ∨ w = 16 ∨ w = 32 ∨ w = 64
  | .flt f => named f

/-- A magnitude with its sign, at a lower exponent. -/
def signedAt (neg : Bool) (mag : Nat) (exp base : Int) : Int :=
  if neg then -((mag * 2 ^ (exp - base).toNat : Nat) : Int) else ((mag * 2 ^ (exp - base).toNat : Nat) : Int)

/-- R35, R37, R39: RoundTo of a finite nonzero number. A tie of RNE goes to the even significand, hidden bit included (log 76). -/
def RoundsToGridPart : Prop :=
  ∀ (f : Fmt) (mode : Mode) (sat s : Bool) (mag : Nat) (exp : Int) (r : Nat), named f → mag ≠ 0 →
    roundedOn mode s (magAt f mag exp / stepAt f mag exp) (magAt f mag exp % stepAt f mag exp) (stepAt f mag exp) r →
    (largest f < inLeast f mag exp r →
      gives (roundTo f mode sat (.fin s mag exp)) (overflowBits f mode sat s) (flagOverflow ||| flagInexact)) ∧
    (inLeast f mag exp r ≤ largest f →
      (∃ m e, decodeFlt f (roundTo f mode sat (.fin s mag exp)).bits = .fin (s && !(f.modeF && r == 0)) m e ∧
        sameMag m e r (gridAt f mag exp)) ∧
      ((roundTo f mode sat (.fin s mag exp)).flags.getLsbD 4 = true ↔ magAt f mag exp % stepAt f mag exp ≠ 0) ∧
      ((roundTo f mode sat (.fin s mag exp)).flags.getLsbD 3 = true ↔
        magAt f mag exp % stepAt f mag exp ≠ 0 ∧ inLeast f mag exp r < 2 ^ f.mbits) ∧
      (∀ n, n < 3 → (roundTo f mode sat (.fin s mag exp)).flags.getLsbD n = false))

/-- R37, Table 5: RoundTo of a NaN, an infinity and a zero. An infinity that SAT makes the largest finite value of mode F raises
nothing (log 102). -/
def RoundsSpecialsPart : Prop :=
  ∀ (f : Fmt) (mode : Mode) (sat s : Bool) (exp : Int), named f →
    gives (roundTo f mode sat .nan) (nanBits f) 0 ∧
    (f.modeF = false → gives (roundTo f mode sat (.inf s)) (infBits f s) 0) ∧
    (f.modeF = true → sat = false → gives (roundTo f mode sat (.inf s)) (nanBits f) flagInvalid) ∧
    (f.modeF = true → sat = true → gives (roundTo f mode sat (.inf s)) (largestBits f s) 0) ∧
    gives (roundTo f mode sat (.fin s 0 exp)) (zeroBits f s) 0

/-- R38, R100: the rounding into an integer format. -/
def RoundsToIntegersPart : Prop :=
  ∀ (w : Nat) (sg s : Bool) (mode : Mode) (mag : Nat) (exp : Int) (r : Nat) (v lo hi : Int), 0 < w →
    lo = (if sg then -(2 ^ (w - 1)) else 0) → hi = (if sg then 2 ^ (w - 1) - 1 else 2 ^ w - 1) →
    roundInt w sg mode .nan = (0, flagInvalid) ∧
    roundInt w sg mode (.inf s) = (if s then lo else hi, flagInvalid) ∧
    (roundedOn mode s (mag * 2 ^ (exp - min exp 0).toNat / 2 ^ (0 - min exp 0).toNat)
        (mag * 2 ^ (exp - min exp 0).toNat % 2 ^ (0 - min exp 0).toNat) (2 ^ (0 - min exp 0).toNat) r →
      v = (if s then -(r : Int) else r) →
      (v < lo → roundInt w sg mode (.fin s mag exp) = (lo, flagInvalid)) ∧
      (hi < v → roundInt w sg mode (.fin s mag exp) = (hi, flagInvalid)) ∧
      (lo ≤ v → v ≤ hi → roundInt w sg mode (.fin s mag exp) =
        (v, if mag * 2 ^ (exp - min exp 0).toNat % 2 ^ (0 - min exp 0).toNat = 0 then 0 else flagInexact)))

/-- R94, R95: the special cases of FADD, FSUB, FMUL, FDIV and FSQRT, and their exact sums and products. -/
def FloatSpecialsPart : Prop :=
  (∀ x : Machine.Num, gives (fltAdd f32 .nan x) 0x7FC00000 0 ∧ gives (fltAdd f32 x .nan) 0x7FC00000 0 ∧
    gives (fltSub f32 .nan x) 0x7FC00000 0 ∧ gives (fltSub f32 x .nan) 0x7FC00000 0 ∧
    gives (fltMul f32 .nan x) 0x7FC00000 0 ∧ gives (fltMul f32 x .nan) 0x7FC00000 0 ∧
    gives (fltDiv f32 .nan x) 0x7FC00000 0 ∧ gives (fltDiv f32 x .nan) 0x7FC00000 0) ∧
  (∀ (s : Bool) (e : Int) (t : Bool) (d : Int) (m n : Nat),
    gives (fltAdd f32 (.inf s) (.inf (!s))) 0x7FC00000 flagInvalid ∧ gives (fltAdd f32 (.inf s) (.inf s)) (infBits f32 s) 0 ∧
    gives (fltSub f32 (.inf s) (.inf s)) 0x7FC00000 flagInvalid ∧ gives (fltSub f32 (.inf s) (.inf (!s))) (infBits f32 s) 0 ∧
    gives (fltAdd f32 (.inf s) (.fin t n d)) (infBits f32 s) 0 ∧ gives (fltAdd f32 (.fin t n d) (.inf s)) (infBits f32 s) 0 ∧
    gives (fltSub f32 (.inf s) (.fin t n d)) (infBits f32 s) 0 ∧ gives (fltSub f32 (.fin t n d) (.inf s)) (infBits f32 (!s)) 0 ∧
    (signedAt s m e (min e d) + signedAt t n d (min e d) = 0 →
      gives (fltAdd f32 (.fin s m e) (.fin t n d)) (signBit f32 (s && t)) 0) ∧
    (signedAt s m e (min e d) + signedAt t n d (min e d) ≠ 0 → likeRound (fltAdd f32 (.fin s m e) (.fin t n d))
      (.fin (decide (signedAt s m e (min e d) + signedAt t n d (min e d) < 0))
        (signedAt s m e (min e d) + signedAt t n d (min e d)).natAbs (min e d))) ∧
    fltSub f32 (.fin s m e) (.fin t n d) = fltAdd f32 (.fin s m e) (.fin (!t) n d) ∧
    gives (fltMul f32 (.inf s) (.inf t)) (infBits f32 (s != t)) 0 ∧
    (n = 0 → gives (fltMul f32 (.inf s) (.fin t n d)) 0x7FC00000 flagInvalid ∧
      gives (fltMul f32 (.fin t n d) (.inf s)) 0x7FC00000 flagInvalid) ∧
    (n ≠ 0 → gives (fltMul f32 (.inf s) (.fin t n d)) (infBits f32 (s != t)) 0 ∧
      gives (fltMul f32 (.fin t n d) (.inf s)) (infBits f32 (s != t)) 0) ∧
    likeRound (fltMul f32 (.fin s m e) (.fin t n d)) (.fin (s != t) (m * n) (e + d)) ∧
    gives (fltDiv f32 (.inf s) (.inf t)) 0x7FC00000 flagInvalid ∧
    gives (fltDiv f32 (.inf s) (.fin t n d)) (infBits f32 (s != t)) 0 ∧
    gives (fltDiv f32 (.fin s m e) (.inf t)) (signBit f32 (s != t)) 0 ∧
    (m = 0 → n = 0 → gives (fltDiv f32 (.fin s m e) (.fin t n d)) 0x7FC00000 flagInvalid) ∧
    (m ≠ 0 → n = 0 → gives (fltDiv f32 (.fin s m e) (.fin t n d)) (infBits f32 (s != t)) flagDivZero) ∧
    (m = 0 → n ≠ 0 → gives (fltDiv f32 (.fin s m e) (.fin t n d)) (signBit f32 (s != t)) 0) ∧
    (n ≠ 0 → m ≠ 0 → likeRound (fltDiv f32 (.fin s (m * n) e) (.fin t n d)) (.fin (s != t) m (e - d)))) ∧
  (∀ (m : Nat) (e : Int), gives (fltSqrt f32 .nan) 0x7FC00000 0 ∧ gives (fltSqrt f32 (.inf true)) 0x7FC00000 flagInvalid ∧
    gives (fltSqrt f32 (.inf false)) (infBits f32 false) 0 ∧
    (∀ s, gives (fltSqrt f32 (.fin s 0 e)) (signBit f32 s) 0) ∧
    (m ≠ 0 → gives (fltSqrt f32 (.fin true m e)) 0x7FC00000 flagInvalid ∧
      likeRound (fltSqrt f32 (.fin false (m * m) (2 * e))) (.fin false m e)))

/-- R33, R34: the value of an element under its block's scale byte, the scale byte of a block, and an element written under it. -/
def BlockScalesPart : Prop :=
  (∀ (e : Elem) (sc : Byte) (x : Nat), blockVal e 0xFF x = .nan ∧
    (∀ sg m n, sc ≠ 0xFF → elemVal e x = .fin sg m n → blockVal e sc x = .fin sg m (n + ((sc.toNat : Int) - 127)))) ∧
  (∀ (e : Elem) (xs : List Machine.Num) (t : Int), namedElem e →
    ((∃ x ∈ xs, x = .nan ∨ x = .inf false ∨ x = .inf true) → blockScale e xs = 0xFF) ∧
    ((∀ x ∈ xs, ∃ sg n, x = .fin sg 0 n) → blockScale e xs = 127) ∧
    ((∀ x ∈ xs, ∃ sg m n, x = .fin sg m n ∧ (m = 0 ∨ n + Nat.log2 m ≤ t)) →
      (∃ sg m n, .fin sg m n ∈ xs ∧ m ≠ 0 ∧ n + Nat.log2 m = t) →
      blockScale e xs = BitVec.ofInt 8 (min 254 (max 1 (t - topExp e + 127))))) ∧
  (∀ (e : Elem) (sc : Byte) (x : Machine.Num) (sg : Bool) (m : Nat) (n : Int),
    blockRound e 0xFF x = (0, decide (x = .nan ∨ x = .inf false ∨ x = .inf true)) ∧
    (sc ≠ 0xFF → x = .fin sg m n →
      let r := elemRound e .rne true (.fin sg m (n + (127 - (sc.toNat : Int))))
      (∀ w, e = .int w false → sg = true → m ≠ 0 → blockRound e sc x = (0, true)) ∧
      ((∀ w, e ≠ .int w false) ∨ sg = false ∨ m = 0 → (blockRound e sc x).1 = r.bits) ∧
      (∀ w, e = .int w false → sg = false ∨ m = 0 → (blockRound e sc x).2 = false) ∧
      (∀ w, e = .int w true → (blockRound e sc x).2 = false) ∧
      (∀ f, e = .flt f → ((blockRound e sc x).2 = true ↔ r.lostToZero = true ∧ m ≠ 0))))

/-- A member that writes a g register executes on a Press core whose task has bound one queue, `q`, to the register `r`, and waits
for nothing (R280). -/
structure ExecutesBound (i : Instr) (g : BitVec 4) (s : State) (t : Task) (q r : Nat) : Prop where
  here : hereTask s = some t
  press : coreNum (hereCore s) = 6 ∧ s.here % 16 < 4
  passes : checks i t (coreNum (hereCore s)) = none
  sound : consumesSpoilt i g t = false
  guard : guardHolds t g = true
  bound : t.binds = [(q, r)] ∧ q < 8 ∧ 0 < r ∧ r < 32
  idle : t.pend = .idle

/-- The entries of a queue, whether it is closed, and that no slot has reserved one of them (R151, R280). -/
structure QueueHolds (s : State) (q : Nat) (l : List Dword) (closed : Bool) : Prop where
  entries : (tileAt s (hereTile s)).queues.getD q [] = l
  closed : (tileAt s (hereTile s)).qclosed.getLsbD q = closed
  free : reservedAt s (hereTile s) q = []

/-- The task with a register's value replaced for a read. -/
def shownAs (t : Task) (r : Nat) (x : Dword) : Task := { t with g := t.g.setIfInBounds r x }

/-- What the instruction leaves of the task: its destination written, every other g register as it was, the bound one's own
contents among them, and pc past it. -/
structure PastBound (s u : State) (t : Task) (dest : BitVec 5) (r : Nat) (x : Dword) (len : Nat) : Prop where
  task : ∃ v, taskAt u s.here = some v ∧ v.pc = (stepPc t len).pc ∧ v.lcount = (stepPc t len).lcount ∧ v.f = t.f ∧ v.p = t.p ∧
    v.binds = t.binds ∧ v.pend = .idle ∧ (∀ n, n ≠ dest → gGet v n = gGet t n) ∧
    (dest.toNat ≠ r → dest ≠ 0 → gGet v dest = x) ∧ (dest.toNat = r → gGet v dest = gGet t dest)
  mem : u.mem = s.mem

/-- R152, R280: an instruction that reads a bound register pops the queue, one that writes it pushes its result. -/
def BoundQueuesPart : Prop :=
  ∀ (i : Instr) (op : RegOp) (s : State) (t : Task) (q r : Nat) (l : List Dword) (closed : Bool), intOp i = some op →
    ExecutesBound i op.guard s t q r → QueueHolds s q l closed →
    (r ∈ gSources i → r ∉ gDests i → l = [] → closed = false → exec i s = .next (beginWait (.queue q false) none s)) ∧
    (r ∈ gSources i → r ∉ gDests i → l = [] → closed = true →
      ∃ u, exec i s = .next u ∧ PastBound s u t op.dest r (op.value (shownAs t r 0)) i.length ∧
        (tileAt u (hereTile s)).queues.getD q [] = []) ∧
    (∀ x rest, r ∈ gSources i → r ∉ gDests i → l = x :: rest →
      ∃ u, exec i s = .next u ∧ PastBound s u t op.dest r (op.value (shownAs t r x)) i.length ∧
        (tileAt u (hereTile s)).queues.getD q [] = rest ∧
        (∀ n, n ≠ q → (tileAt u (hereTile s)).queues.getD n [] = (tileAt s (hereTile s)).queues.getD n []) ∧
        u.cores = (acquireCore s (hereCore s)).cores) ∧
    (∀ x rest, r ∈ gSources i → op.dest.toNat = r → l = x :: rest → l.length ≤ 16 → Quiet s t →
      ∃ u, exec i s = .next u ∧ PastBound s u t op.dest r 0 i.length ∧
        (tileAt u (hereTile s)).queues.getD q [] = rest ++ [op.value (shownAs t r x)] ∧
        u.cores = (acquireCore s (hereCore s)).cores) ∧
    (r ∉ gSources i → op.dest.toNat = r → l.length = 16 → Quiet s t →
      exec i s = .next (beginWait (.queue q true) none s)) ∧
    (r ∉ gSources i → op.dest.toNat = r → l.length < 16 → Quiet s t →
      ∃ u, exec i s = .next u ∧ PastBound s u t op.dest r 0 i.length ∧
        (tileAt u (hereTile s)).queues.getD q [] = l ++ [op.value t] ∧
        (∀ n, n ≠ q → (tileAt u (hereTile s)).queues.getD n [] = (tileAt s (hereTile s)).queues.getD n []) ∧
        u.cores = s.cores)

/-- How CONVT converts under its mode field: 0 by the transfer rule, 1 to 5 without saturation, 6 by SR(8) with it (R276). -/
def ConvtAs (m : BitVec 3) (conv : Conv) : Prop :=
  (m = 0 ∧ conv = .rule) ∨ (m = 1 ∧ conv = .fixed .rne) ∨ (m = 2 ∧ conv = .fixed .rtz) ∨ (m = 3 ∧ conv = .fixed .rup) ∨
  (m = 4 ∧ conv = .fixed .rdn) ∨ (m = 5 ∧ conv = .fixed .rna) ∨ (m = 6 ∧ conv = .sr8)

/-- The rounded value of a conversion into an element of a bank, with 64 fresh bits at hand (R39 to R41, R276). -/
def roundedAs (conv : Conv) (bank : Dword) (e : Elem) (fresh : Nat) (x : Machine.Num) : Rounded :=
  let k := (bank.toNat / 2 ^ 50 % 16) + 1
  match conv, e with
  | .rule, .int _ _ => elemRound e .rne true x
  | .rule, .flt _ => elemRound e (if bank.getLsbD 54 then .sr k (fresh % 2 ^ k) else .rne) true x
  | .fixed m, _ => elemRound e m false x
  | .sr8, _ => elemRound e (.sr 8 (fresh % 2 ^ 8)) true x

/-- A command's element reaches its place in a map under the transfer rule. -/
def Puts (core : Nat) (c : Command) (m : TMap) (k : Nat) (x : Machine.Num) (s u : State) : Prop :=
  Gives (storeAt core (going c) m.fb k .rule false false (spotOf s (coreTile core) m m.col (m.indices k)) x) s () u
/-- Elements reach their places, one after another. -/
def PutsAll (core : Nat) (c : Command) (m : TMap) : List (Nat × Machine.Num) → State → State → Prop
  | [], s, u => u = s
  | (k, x) :: r, s, u => ∃ v, Puts core c m k x s v ∧ PutsAll core c m r v u
/-- Elements from one on are read, one after another. -/
def ReadsAll (core : Nat) (c : Command) (m : TMap) : Nat → List Machine.Num → State → State → Prop
  | _, [], s, u => u = s
  | k, x :: r, s, u => ∃ v, Gives (readElem core (going c) m m.col k) s x v ∧ ReadsAll core c m (k + 1) r v u

/-- The elements of a block are written under its scale byte, none of them dropped; errors are recorded (R34, R268). -/
def BlockElems (core : Nat) (c : Command) (m : TMap) (sc : Byte) : Nat → List Machine.Num → State → State → Prop
  | _, [], s, u => u = s
  | k, x :: r, s, u =>
    let p := spotOf s (coreTile core) m m.col (m.indices k)
    dropped s p false x = false ∧ ∃ v, Gives (writeSpot core (going c) m.fb k p (blockRound p.elem sc x).1) s () v ∧
      BlockElems core c m sc (k + 1) r (if (blockRound p.elem sc x).2 then recordError v core (going c) 1 k else v) u
/-- A block is written: its scale byte, then its elements (R34). -/
def BlockPuts (core : Nat) (c : Command) (m : TMap) (k : Nat) (xs : List Machine.Num) (s u : State) : Prop :=
  let sc := blockScale (spotOf s (coreTile core) m m.col (m.indices k)).elem xs
  ∃ v, Gives (engineWrite core (going c) (m.scaleAddr (m.indices k)) 1 sc.toNat m.fb k) s () v ∧ BlockElems core c m sc k xs v u

/-- The shapes of a command's maps do not match (R270, R276 to R278, R329). -/
def shapeBad (i : Instr) (d a b : TMap) : Prop :=
  match i with
  | .copy _ _ _ _ => a.rank ≠ d.rank ∨ a.ext ≠ d.ext
  | .convt _ _ _ _ _ _ => a.rank ≠ d.rank ∨ a.ext ≠ d.ext
  | .compress p _ _ _ _ _ =>
    a.ext0 % (if p = 1 then 8 else 4) ≠ 0 ∨ d.count ≠ a.count / 2 ∨ b.count ≠ a.count / (if p = 1 then 8 else 4)
  | .bfpa _ _ _ _ _ => a.rank ≠ d.rank ∨ b.rank ≠ d.rank ∨ a.ext ≠ d.ext ∨ b.ext ≠ d.ext
  | .kisect _ _ _ _ _ => a.count % 2 ^ a.imode ≠ 0 ∨ b.count % 2 ^ b.imode ≠ 0 ∨ d.rank ≠ 2 ∨ d.ext0 ≠ 2 ∨ d.ext1 < 2
  | _ => False

/-- Element j of a group ranks above element i: a NaN above every number, then the larger magnitude, then the lower index
(R277). -/
def Outranks (xs : List Machine.Num) (j i : Nat) : Prop :=
  let a := xs.getD j .nan
  let b := xs.getD i .nan
  (numIsNan a = true ∧ (numIsNan b = false ∨ j < i)) ∨ numCmp (numAbs a) (numAbs b) = some .gt ∨
    (numCmp (numAbs a) (numAbs b) = some .eq ∧ j < i)
/-- The indices, ascending, of the n elements of a group that are kept. -/
def Keeps (xs : List Machine.Num) (n : Nat) (js : List Nat) : Prop :=
  js.length = n ∧ js.Pairwise (· < ·) ∧ ∀ j ∈ js, j < xs.length ∧ ∀ i, i < xs.length → i ∉ js → Outranks xs j i
/-- The metadata element of kept indices, `sh` bits each. -/
def metaElem (sh : Nat) (js : List Nat) : Nat := (js.zipIdx.map (fun x => x.1 * 2 ^ (sh * x.2))).sum

/-- Index t of a metadata element. -/
def metaIndex (sh x t : Nat) : Nat := x / 2 ^ (sh * t) % 2 ^ sh
/-- Element (k, i) of the decompressed A of an MMAS: a kept value at its index in its group of m, +0 elsewhere (R295). -/
def sparseElem (sh m n : Nat) (a d : TMap) (vals metas : List Machine.Num) (k i : Nat) : Machine.Num :=
  let g := k / m
  if g < d.ext0 ∧ i < d.ext1 then
    match (List.range n).filter (fun t => metaIndex sh (numIndex (metas.getD (g + d.ext0 * i) .nan)) t == k % m) with
    | t :: _ => operandAt a vals.toArray (n * g + t) i
    | [] => .fin false 0 0
  else .fin false 0 0

/-- The pairs of equal entries among those read of two runs of ea and eb entries, in the order of R329, whose runs of equal
entries are known to have ended. -/
def decided (ea eb : Nat) (la lb : List Nat) : List (Nat × Nat) :=
  let ended (l : List Nat) (e x : Nat) : Bool := l.length == e || decide (x < l.getLast?.getD 0)
  (List.range la.length).flatMap (fun x => ((List.range lb.length).filter (fun y =>
    lb.getD y 0 == la.getD x 0 && ended la ea (la.getD x 0) && ended lb eb (la.getD x 0))).map (fun y => (x, y)))
/-- The merge has stopped: a run is exhausted, and what is left of the other lies above it. -/
def Merged (ea eb : Nat) (la lb : List Nat) : Prop :=
  ea = 0 ∨ eb = 0 ∨
  (la.length = ea ∧ (lb.length = eb ∨ la.getLast?.getD 0 < lb.getLast?.getD 0)) ∨
  (lb.length = eb ∧ lb.getLast?.getD 0 < la.getLast?.getD 0)

/-- The doublewords of a submission-queue entry lie in LM as a command reads them. -/
def EntryRead (core off : Nat) (c : Command) (e : List Nat) (s : State) : Prop :=
  e.length = 8 ∧ ∀ i, i < 8 → Gives (engineRead core (going c) (off + 8 * i) 8 false 0) s (e.getD i 0) s
/-- An entry's fields break R365, for a pair's namespace. -/
def entryBad (e : List Nat) (nsid : Nat) : Prop :=
  let bytes := (e.getD 6 0 % 2 ^ 16 + 1) * 4096
  2 < e.getD 0 0 % 256 ∨ e.getD 0 0 / 2 ^ 14 % 4 ≠ 0 ∨ e.getD 0 0 / 2 ^ 32 ≠ nsid ∨ e.getD 2 0 ≠ 0 ∨
    (e.getD 0 0 % 256 ≠ 0 ∧ (8192 < bytes ∨ 8192 < e.getD 3 0 % 4096 + bytes))
/-- The pages an entry names: address and bytes. -/
def pagesNamed (e : List Nat) : List (Nat × Nat) :=
  let va := e.getD 3 0 / 4 * 4
  let bytes := (e.getD 6 0 % 2 ^ 16 + 1) * 4096
  if bytes ≤ 4096 - va % 4096 then [(va, bytes)]
  else [(va, 4096 - va % 4096), (e.getD 4 0 / 4 * 4, bytes - (4096 - va % 4096))]
/-- Each page translates to a storage key, whose low bits are its physical address (R192, R365). -/
def Translated (core : Nat) (c : Command) (write : Bool) (s : State) : List (Nat × Nat) → List Nat → Prop
  | [], ks => ks = []
  | p :: r, ks => ∃ k l, ks = k :: l ∧ globalKey s (corePkg core) p.1 c.ctx.toNat (ctxPriv s c.ctx.toNat) write = .ok k ∧
      Translated core c write s r l
/-- The addresses of the words of pages. -/
def pageWords (pages : List (Nat × Nat)) : List Nat := pages.flatMap (fun p => (List.range (p.2 / 4)).map (fun i => p.1 + 4 * i))

/-- The pair of a cell is cleared, word by word (R311). -/
def Zeroed (pkg ctx : Nat) (priv : BitVec 2) : List Nat → State → State → Prop
  | [], s, u => u = s
  | va :: r, s, u => ∃ v, Made (writeH pkg va ctx priv 4 0) s () v ∧ Zeroed pkg ctx priv r v u

/-- R40 to R42, R256, R267, R268, R276: an element written into placed memory, and a mismatch of shapes. -/
def ElementsWrittenPart : Prop :=
  (∀ (core elem fb off k : Nat) (vault th : Bool) (conv : Conv) (x : Machine.Num) (c : Command) (p : Spot) (s : State),
    p.place = .placed vault k off → placeOf s (coreTile core) p.va = p.place → placedCause s c.ctx vault k off = none →
    8 ≤ p.bits → p.va % (p.bits / 8) = 0 →
    let bank : Dword := if vault then 0 else bankReg s k off
    let bytes := p.bits / 8
    let r := roundedAs conv bank p.elem (drawBits s).1.toNat x
    let drops : Prop := vault = false ∧ (bank.getLsbD 55 = true ∨ th = true) ∧
      ∃ sg m e, x = .fin sg m e ∧ (m = 0 ∨ e + Nat.log2 m < (bank.extractLsb' 56 8).toInt)
    ∃ u, Gives (storeAt core c fb elem conv th false p x) s () u ∧
      (drops → u.mem = cellsPut s.mem (placeKey vault k off) bytes 0 ∧ (off < 2 ^ 20 →
        (tileAt u k).bdrop.getD (off / 2 ^ 16) 0 =
          roundF32 (numAdd (f32Val ((tileAt s k).bdrop.getD (off / 2 ^ 16) 0)) (numAbs x)))) ∧
      (¬drops → u.mem = cellsPut s.mem (placeKey vault k off) bytes (r.bits % 2 ^ (8 * bytes))) ∧
      (∀ w, w ∈ u.full ↔ w ∈ s.full ∨ (fb ≠ 1 ∧ w ∈ wordsOf (placeKey vault k off) bytes)) ∧
      (¬drops → offending p.elem x r = true → ∀ t ∈ u.tasks, t.2.uid = c.uid → t.2.cvstat.getLsbD 63 = true) ∧
      (¬drops → offending p.elem x r = true → ∀ j t, taskAt s j = some t → t.uid = c.uid → t.cvstat.getLsbD 63 = false →
        elem < 2 ^ 32 → ∃ t', taskAt u j = some t' ∧
          t'.cvstat = BitVec.ofNat 64 (2 ^ 63 + c.seq.toNat * 2 ^ 48 + 1 * 2 ^ 40 + elem)) ∧
      ((drops ∨ offending p.elem x r = false) → u.tasks = s.tasks)) ∧
  (∀ (core k : Nat) (c : Command) (s s1 : State) (i : Instr) (t : Task), Heads s core c i s1 → c.done = 0 →
    shapeBad i (mapOf c.mapD) (mapOf c.mapA) (mapOf c.mapB) → cmdAt s core c.seq = some c → c.remote = none →
    taskAt s k = some t → t.uid = c.uid →
    ∃ u, runStep s core = (u, .stopped) ∧ u.mem = s.mem ∧
      RingSays u core c (fun e => e.state = 4 ∧ e.kind = 6 ∧ e.elem = 0))

/-- R276 to R278: an element of CONVT, a group of COMPRESS and a block of BFPA. -/
def ConversionsRunPart : Prop :=
  (∀ (core p : Nat) (c : Command) (s s1 u1 u2 : State) (h : BitVec 1) (m : BitVec 3) (q : BitVec 3) (a d g : BitVec 4)
      (conv : Conv) (x : Machine.Num), Heads s core c (.convt h m q a d g) s1 → ConvtAs m conv → c.done = p + 1 →
    p < (mapOf c.mapA).count →
    let dst := mapOf c.mapD
    dst.bs = false → Gives (readElem core (going c) (mapOf c.mapA) (mapOf c.mapA).col p) s1 x u1 →
    Gives (storeAt core (going c) dst.fb p conv (h == 1) false (spotOf u1 (coreTile core) dst dst.col (dst.indices p)) x) u1 () u2 →
    ∃ u, runStep s core = (u, .goesOn) ∧ u.mem = u2.mem ∧ u.full = u2.full ∧ RingSays u core c (fun e => e.done = p + 2)) ∧
  (∀ (core p : Nat) (c : Command) (s s1 u1 : State) (f : BitVec 1) (q : BitVec 3) (b a d g : BitVec 4) (x : Machine.Num),
    Heads s core c (.compress f q b a d g) s1 → c.done = p + 1 → p < (mapOf c.mapA).count →
    Gives (readElem core (going c) (mapOf c.mapA) (mapOf c.mapA).col p) s1 x u1 →
    let m := if f = 1 then 8 else 4
    let n := m / 2
    let dst := mapOf c.mapD
    let mt := mapOf c.mapB
    let xs := c.got ++ [x]
    (p % m ≠ m - 1 → ∃ u, runStep s core = (u, .goesOn) ∧ u.mem = u1.mem ∧
      RingSays u core c (fun e => e.done = p + 2 ∧ e.got = xs)) ∧
    (p % m = m - 1 → c.got.length = m - 1 → dst.bs = false → ∀ js u2 u3, Keeps xs n js →
      PutsAll core c dst (js.zipIdx.map (fun y => (p / m * n + y.2, xs.getD y.1 .nan))) u1 u2 →
      Puts core c mt (p / m) (numOfInt (metaElem (if f = 1 then 3 else 2) js)) u2 u3 →
      ∃ u, runStep s core = (u, .goesOn) ∧ u.mem = u3.mem ∧ u.full = u3.full ∧
        RingSays u core c (fun e => e.done = p + 2 ∧ e.got = []))) ∧
  (∀ (core n : Nat) (c : Command) (s s1 u1 u2 u3 : State) (q : BitVec 3) (b a d g : BitVec 4) (xs ys : List Machine.Num),
    Heads s core c (.bfpa q b a d g) s1 → c.done = n + 1 →
    let dst := mapOf c.mapD
    let per := (dst.ext0 + 31) / 32
    let i0 := n % per * 32
    let k := n / per * dst.ext0 + i0
    n < per * (dst.count / dst.ext0) → xs.length = min 32 (dst.ext0 - i0) → ys.length = xs.length →
    ReadsAll core c (mapOf c.mapA) k xs s1 u1 → ReadsAll core c (mapOf c.mapB) k ys u1 u2 →
    BlockPuts core c dst k ((List.range xs.length).map (fun i => numAdd (xs.getD i .nan) (ys.getD i .nan))) u2 u3 →
    ∃ u, runStep s core = (u, .goesOn) ∧ u.mem = u3.mem ∧ u.full = u3.full ∧ RingSays u core c (fun e => e.done = n + 2))

/-- R293, R295, R297 to R299: the product that MMAS leaves, its malformed metadata, and an accumulator that MLDACC loads and
MSTACC stores. -/
def AccumulatorsRunPart : Prop :=
  (∀ (core : Nat) (c : Command) (s s1 : State) (acc k j : BitVec 1) (z : BitVec 2) (q : BitVec 3) (b a d g : BitVec 4),
    Heads s core c (.mmas acc k j z q b a d g) s1 → cmdAt s core c.seq = some c → c.remote = none →
    let ma := mapOf c.mapA
    let mb := mapOf c.mapB
    let md := mapOf c.mapD
    let tile := coreTile core
    let sh := if md.fmt = 5#4 then 3 else 2
    let m := if md.fmt = 5#4 then 8 else 4
    c.done = md.count + ma.count + mb.count + 1 → c.got.length = md.count + ma.count + mb.count →
    let vals := c.got.reverse
    let metas := vals.take md.count
    let av := (vals.drop md.count).take ma.count
    let bAt (k j : Nat) : Machine.Num := operandAt mb (vals.drop (md.count + ma.count)).toArray k j
    let old (i j : Nat) : Word := if acc = 1 ∧ zOwner s tile z = some c.ctx then zAt (zGet s tile z) i j else 0
    ∃ u, exec (.commandComplete core) s = .next u ∧ u.mem = s.mem ∧ zOwner u tile z = some c.ctx ∧
      (∀ y, y ≠ z → zGet u tile y = zGet s tile y) ∧ RingSays u core c (fun e => e.state = 3) ∧
      ∀ i j, i < 64 → j < 64 → zAt (zGet u tile z) i j =
        sumBlocks (fun k => sparseElem sh m (m / 2) ma md av metas k i) (fun k => bAt k j) ((m * md.ext0 + 31) / 32) 0
          (old i j)) ∧
  (∀ (core n : Nat) (c : Command) (s s1 s2 : State) (acc k j : BitVec 1) (z : BitVec 2) (q : BitVec 3) (b a d g : BitVec 4)
      (x : Machine.Num) (r : Nat) (t : Task), Heads s core c (.mmas acc k j z q b a d g) s1 →
    cmdAt s core c.seq = some c → c.remote = none → taskAt s r = some t → t.uid = c.uid →
    let md := mapOf c.mapD
    let sh := if md.fmt = 5#4 then 3 else 2
    let keep := if md.fmt = 5#4 then 4 else 2
    c.done = n + 1 → n < md.count → Gives (readElem core (going c) md (j == 1) n) s1 x s2 →
    (numNat x = none ∨ ∃ v, numNat x = some v ∧
      (2 ^ (sh * keep) ≤ v ∨ ∃ y, y + 1 < keep ∧ metaIndex sh v (y + 1) ≤ metaIndex sh v y)) →
    ∃ u, runStep s core = (u, .stopped) ∧ u.mem = s2.mem ∧
      RingSays u core c (fun e => e.state = 4 ∧ e.kind = 7 ∧ e.elem = min n (2 ^ 32 - 1))) ∧
  (∀ (core p : Nat) (c : Command) (s s1 u1 : State) (z : BitVec 2) (q : BitVec 3) (a g : BitVec 4) (x : Machine.Num),
    Heads s core c (.mldacc z q a g) s1 → c.done = p + 1 → p < (mapOf c.mapA).count →
    Gives (readElem core (going c) (mapOf c.mapA) (mapOf c.mapA).col p) s1 x u1 →
    ∃ u, runStep s core = (u, .goesOn) ∧ u.mem = u1.mem ∧ RingSays u core c (fun e => e.done = p + 2 ∧ e.got = x :: c.got)) ∧
  (∀ (core : Nat) (c : Command) (s s1 : State) (z : BitVec 2) (q : BitVec 3) (a g : BitVec 4),
    Heads s core c (.mldacc z q a g) s1 → cmdAt s core c.seq = some c → c.remote = none →
    let m := mapOf c.mapA
    let tile := coreTile core
    c.done = m.count + 1 → c.got.length = m.count →
    ∃ u, exec (.commandComplete core) s = .next u ∧ u.mem = s.mem ∧ zOwner u tile z = some c.ctx ∧
      (∀ y, y ≠ z → zGet u tile y = zGet s tile y) ∧ RingSays u core c (fun e => e.state = 3) ∧
      ∀ i j, i < 64 → j < 64 → zAt (zGet u tile z) i j =
        if j < m.ext0 ∧ i < m.ext1 then BitVec.ofNat 32 (roundTo f32 .rne true (c.got.reverse.getD (j + m.ext0 * i) .nan)).bits
        else 0) ∧
  (∀ (core p : Nat) (c : Command) (s s1 u1 : State) (z : BitVec 2) (q : BitVec 3) (d g : BitVec 4),
    Heads s core c (.mstacc z q d g) s1 →
    let m := mapOf c.mapD
    c.done = p + 1 → p < m.count → m.bs = false →
    Puts core c m p (f32Val (zAt (zGet s1 (coreTile core) z) (p / m.ext0) (p % m.ext0))) s1 u1 →
    ∃ u, runStep s core = (u, .goesOn) ∧ u.mem = u1.mem ∧ u.full = u1.full ∧ RingSays u core c (fun e => e.done = p + 2)) ∧
  (∀ (core : Nat) (c : Command) (s s1 : State) (z : BitVec 2) (q : BitVec 3) (d g : BitVec 4),
    Heads s core c (.mstacc z q d g) s1 → c.done = 0 →
    let m := mapOf c.mapD
    m.rank ≤ 2 → m.ext0 ≤ 64 → m.ext1 ≤ 64 → widthsOk s1 core m m.col = true →
    ∃ u, runStep s core = (u, .goesOn) ∧ u.mem = s.mem ∧ zOwner u (coreTile core) z = some c.ctx ∧
      (zOwner s (coreTile core) z ≠ some c.ctx → zGet u (coreTile core) z = 0) ∧
      (zOwner s (coreTile core) z = some c.ctx → zGet u (coreTile core) z = zGet s (coreTile core) z))

/-- R311, R324, R326: a staged element of KAGG.O, a key of KFOLD, and the stripes that are folded in. -/
def FoldsRunPart : Prop :=
  (∀ (core k key cell owner : Nat) (row : List Word) (v : Volume) (early : Bool) (c : Command) (i : Instr)
      (s s1 s2 s3 s4 s5 s6 s7 : State), Heads s core c i s1 → (∃ q b a d g, i = .kaggO q b a d g) → logOut s1 core = false →
    let handle := (mapOf c.mapD).base
    let elem := k * (noteW c + 1)
    let stripe := stripeOf core (stripesOf c key)
    c.done = k + 1 → k < (mapOf c.mapB).count → Gives (keyE core (going c) k) s1 key s2 →
    Gives (pairE core (going c) k) s2 row s3 → Gives (openE core (going c) handle) s3 v s4 →
    Gives (cellE core (going c) v [key, stripe] true elem) s4 (.at_ cell) s5 →
    Gives (ownerE core (going c) cell elem true) s5 owner s6 →
    Gives (makeRoom core owner (8 + 4 * row.length) elem 16384 false) s6 early s7 →
    ∃ u, exec (.kaggreq core) s = .next u ∧ u.mem = s7.mem ∧ RingSays u core c (fun e => e.done = k + 2) ∧
      (coreAt u owner).staged = (coreAt s7 owner).staged ++
        [{ ctx := c.ctx.toNat, handle := handle, cell := cell, key := key, stripe := stripe, srcTile := coreTile core,
           order := s7.nextId, data := row }] ∧
      (early = true → ∀ t ∈ u.tasks, t.2.uid = c.uid → t.2.cvstat.getLsbD 63 = true)) ∧
  (∀ (core k key n : Nat) (v : Volume) (moved : Bool) (c : Command) (i : Instr) (s s1 s2 s3 s4 s5 s6 : State),
    Heads s core c i s1 → (∃ q b d g, i = .kfold q b d g) → logOut s1 core = false →
    let handle := (mapOf c.mapD).base
    let pkg := corePkg core
    let ctx := c.ctx.toNat
    c.done = k + 1 → k < (mapOf c.mapB).count → Gives (keyE core (going c) k) s1 key s2 →
    Gives (openE core (going c) handle) s2 v s3 →
    (v.ext.getD 0 0 ≤ key → ∃ u, exec (.kaggreq core) s = .next u ∧ RingSays u core c (fun e => e.done = k + 2) ∧
      ∀ t ∈ u.tasks, t.2.uid = c.uid → t.2.cvstat.getLsbD 63 = true) ∧
    (key < v.ext.getD 0 0 → ∀ found,
      Gives (cellE core (going c) v [key, 0] false k) s3 found s4 →
      (∀ cell, found = .at_ cell → ∃ owner x, Gives (ownerE core (going c) cell k true) s4 owner x ∧
        Made (applyStaged pkg owner cell) x n s5) →
      ((∀ cell, found ≠ .at_ cell) → n = 0 ∧ s5 = s4) →
      Gives (foldStripes core (going c) v key k (stripesOf c key - 1) 1) s5 moved s6 →
      (∀ s7, Gives (cellE core (going c) v [key, 0] false k) s6 .empty s7 →
        ∃ u, exec (.kaggreq core) s = .next u ∧ u.mem = s7.mem ∧ RingSays u core c (fun e => e.done = k + 2)) ∧
      ∀ cell s7, Gives (cellE core (going c) v [key, 0] false k) s6 (.at_ cell) s7 →
        let logs : Prop := moved = true ∧ noteChg c = true
        let stamp := (peek s7 pkg (v.handle + 92) ctx 4 + 1) % 2 ^ 32
        (logs → Made (mayLog pkg ctx (ctxPriv s3 ctx) v.handle cell) s7 () s7) →
        ∃ u, exec (.kaggreq core) s = .next u ∧ u.mem = s7.mem ∧ RingSays u core c (fun e => e.done = k + 2) ∧
          ((¬logs ∧ n = 0) ∨ peek s7 pkg (cell + 4) ctx 4 = stamp → u.net = s7.net) ∧
          (∀ times, (logs ∧ times = n + 1) ∨ (¬logs ∧ times = n ∧ n ≠ 0) → peek s7 pkg (cell + 4) ctx 4 ≠ stamp →
            Goes u (performing (homeTile s7 pkg (v.handle + 64)) (v.handle + 64))
              (.logEntry v.handle ctx key cell times (BitVec.ofNat 32 stamp))))) ∧
  (∀ (core key elem left n : Nat) (v : Volume) (rest : Bool) (c : Command) (s s1 u : State),
    Gives (cellE core c v [key, n] false elem) s .empty s1 → Gives (foldStripes core c v key elem left (n + 1)) s1 rest u →
    Gives (foldStripes core c v key elem (left + 1) n) s rest u) ∧
  (∀ (core key elem left n cell owner m : Nat) (pair : List Word) (v : Volume) (found : Cell) (rest : Bool) (c : Command)
      (s s1 s2 s3 s4 s5 s6 u : State),
    let pkg := corePkg core
    let ctx := c.ctx.toNat
    let priv := ctxPriv s ctx
    Gives (cellE core c v [key, n] false elem) s (.at_ cell) s1 → Gives (ownerE core c cell elem true) s1 owner s2 →
    Made (applyStaged pkg owner cell) s2 m s3 → Made (cellPair pkg ctx priv cell (noteW c)) s3 pair s3 →
    ∀ full : Bool, (full = true ↔ ∃ x ∈ pair, numIsZero (f32Val x) = false) →
    Gives (cellE core c v [key, 0] full elem) s3 found s4 →
    (∀ cell0, found = .at_ cell0 → Made (addPair pkg ctx priv cell0 0 pair) s4 () s5) →
    ((∀ cell0, found ≠ .at_ cell0) → s5 = s4) →
    Zeroed pkg ctx priv ((List.range (noteW c + 1)).map (fun e => if e = 0 then cell else cell + 4 + 4 * e)) s5 s6 →
    Gives (foldStripes core c v key elem left (n + 1)) s6 rest u →
    Gives (foldStripes core c v key elem (left + 1) n) s (full || rest) u) ∧
  (∀ (pkg ctx cell w : Nat) (priv : BitVec 2) (row : List Word) (s u : State), Made (cellPair pkg ctx priv cell w) s row u →
    u = s ∧ row.length = w + 1 ∧ ∀ e, e ≤ w →
      Made (readH pkg (if e = 0 then cell else cell + 4 + 4 * e) ctx priv 4) s (row.getD e 0).toNat s)

/-- R315, R328: the steps of KDIRTY. -/
def DirtyKeysRunPart : Prop :=
  ∀ (core : Nat) (c : Command) (s s1 : State) (q : BitVec 3) (a d g : BitVec 4), Heads s core c (.kdirty q a d g) s1 →
    cmdAt s core c.seq = some c → c.remote = none →
    let handle := (mapOf c.mapA).base
    let dst := mapOf c.mapD
    let pkg := corePkg core
    let ctx := c.ctx.toNat
    let priv := ctxPriv s1 ctx
    let tail := c.notes.getD 2 0
    let n := c.notes.getD 3 0
    let strong (va size v : Nat) : Prop := Gives (strongE core (going c) va size) s1 v s1
    (noteChg c = false → c.done ≠ 0 → ∀ u2,
      (dst.bs = false → Puts core c dst 0 (numOfInt 0) s1 u2) → (dst.bs = true → BlockPuts core c dst 0 (numOfInt 0 :: c.got) s1 u2) →
      ∃ u, exec (.commandComplete core) s = .next u ∧ u.mem = u2.mem ∧ RingSays u core c (fun e => e.state = 3)) ∧
    (noteChg c = true → c.done = 1 →
      (kdirtyElsewhere s1 core handle = true → runStep s core = (s1, .waits)) ∧
      (kdirtyElsewhere s1 core handle = false → ∀ epoch head tail u2, strong (handle + 92) 4 epoch → strong (handle + 72) 8 head →
        strong (handle + 80) 8 tail → Made (writeH pkg (handle + 92) ctx priv 4 ((epoch + 1) % 2 ^ 32)) s1 () u2 →
        ∃ u, runStep s core = (u, .goesOn) ∧ u.mem = u2.mem ∧ RingSays u core c (fun e => e.done = 2 ∧
          e.notes = c.notes.take 2 ++ [tail, min ((head + 2 ^ 64 - tail) % 2 ^ 64) (dst.ext0 - 1)]))) ∧
    (∀ i, noteChg c = true → c.done = i + 2 → i < n → ∀ x0 e, strong (handle + 64) 8 x0 →
      strong (x0 % 2 ^ 48 + 8 * ((tail + i) % 2 ^ (x0 / 2 ^ 51 % 32))) 8 e →
      (dst.bs = false → ∀ u2, Puts core c dst (i + 1) (numOfInt (e / 2 ^ 32 : Nat)) s1 u2 →
        ∃ u, runStep s core = (u, .goesOn) ∧ u.mem = u2.mem ∧ u.full = u2.full ∧ RingSays u core c (fun e => e.done = i + 3)) ∧
      (dst.bs = true → i + 1 < 32 → ∃ u, runStep s core = (u, .goesOn) ∧ u.mem = s.mem ∧ RingSays u core c (fun e' =>
        e'.done = i + 3 ∧ e'.got = c.got ++ [numOfInt (e / 2 ^ 32 : Nat)])) ∧
      (dst.bs = true → 32 ≤ i + 1 → (i + 1) % 32 ≠ 31 → i + 1 ≠ n → ∃ u, runStep s core = (u, .goesOn) ∧ u.mem = s.mem ∧
        RingSays u core c (fun e' => e'.done = i + 3 ∧ e'.outbox = c.outbox ++ [numOfInt (e / 2 ^ 32 : Nat)])) ∧
      (dst.bs = true → 32 ≤ i + 1 → (i + 1) % 32 = 31 ∨ i + 1 = n → ∀ u2,
        BlockPuts core c dst (i + 1 - c.outbox.length) (c.outbox ++ [numOfInt (e / 2 ^ 32 : Nat)]) s1 u2 →
        ∃ u, runStep s core = (u, .goesOn) ∧ u.mem = u2.mem ∧ u.full = u2.full ∧
          RingSays u core c (fun e' => e'.done = i + 3 ∧ e'.outbox = []))) ∧
    (noteChg c = true → c.done = n + 2 → ∀ u2 u3,
      (dst.bs = false → Puts core c dst 0 (numOfInt n) s1 u2) → (dst.bs = true → BlockPuts core c dst 0 (numOfInt n :: c.got) s1 u2) →
      Made (writeH pkg (handle + 80) ctx priv 8 ((tail + n) % 2 ^ 64)) u2 () u3 →
      ∃ u, exec (.commandComplete core) s = .next u ∧ u.mem = u3.mem ∧ RingSays u core c (fun e => e.state = 3))

/-- R329: the merge of KISECT: what the entries read so far decide is written, then a further entry is read, and row 0 closes
the output. -/
def MergesRunPart : Prop :=
  (∀ (core rows na : Nat) (la lb : List Nat) (c : Command) (s s1 : State) (q : BitVec 3) (b a d g : BitVec 4),
    Heads s core c (.kisect q b a d g) s1 → cmdAt s core c.seq = some c → c.remote = none → c.done ≠ 0 →
    let ma := mapOf c.mapA
    let mb := mapOf c.mapB
    let dst := mapOf c.mapD
    let ea := ma.count / 2 ^ ma.imode
    let eb := mb.count / 2 ^ mb.imode
    let cap := dst.ext1 - 1
    let found := decided ea eb la lb
    let row (r x y : Nat) (s u : State) : Prop :=
      (dst.bs = false → PutsAll core c dst [(2 * r, numOfInt x), (2 * r + 1, numOfInt y)] s u) ∧
      (dst.bs = true → BlockPuts core c dst (2 * r) [numOfInt x, numOfInt y] s u)
    c.notes = rows :: na :: (la ++ lb) → la.length = na → na ≤ ea → lb.length ≤ eb → la.Pairwise (· ≤ ·) →
    lb.Pairwise (· ≤ ·) →
    (rows < cap → rows < found.length → ∀ u2, row (rows + 1) (found.getD rows (0, 0)).1 (found.getD rows (0, 0)).2 s1 u2 →
      ∃ u, runStep s core = (u, .goesOn) ∧ u.mem = u2.mem ∧ u.full = u2.full ∧
        RingSays u core c (fun e => e.notes = (rows + 1) :: na :: (la ++ lb))) ∧
    (rows = min cap found.length → Merged ea eb la lb → ∀ u2, row 0 (min found.length (2 ^ 32 - 1)) rows s1 u2 →
      ∃ u, exec (.commandComplete core) s = .next u ∧ u.mem = u2.mem ∧ RingSays u core c (fun e => e.state = 3) ∧
        (rows < found.length → ∀ j t, taskAt s j = some t → t.uid = c.uid → t.cvstat.getLsbD 63 = false → rows < 2 ^ 32 →
          u2.tasks = s.tasks → ∀ t', taskAt u j = some t' → t'.uid = c.uid →
          t'.cvstat = BitVec.ofNat 64 (2 ^ 63 + c.seq.toNat * 2 ^ 48 + 4 * 2 ^ 40 + rows))) ∧
    (rows = min cap found.length → ¬Merged ea eb la lb → ∀ v w sa sb,
      (na < ea → Gives (entryE core (going c) ma na la.getLast?) s1 v sa) →
      (lb.length < eb → Gives (entryE core (going c) mb lb.length lb.getLast?) s1 w sb) →
      ∃ u, runStep s core = (u, .goesOn) ∧
        ((na < ea ∧ u.mem = sa.mem ∧ RingSays u core c (fun e => e.notes = rows :: (na + 1) :: (la ++ [v] ++ lb))) ∨
         (lb.length < eb ∧ u.mem = sb.mem ∧ RingSays u core c (fun e => e.notes = rows :: na :: (la ++ lb ++ [w])))))) ∧
  (∀ (core n v : Nat) (before : Option Nat) (m : TMap) (xs : List Machine.Num) (c : Command) (s u : State),
    xs.length = 2 ^ m.imode → ReadsAll core c m (n * 2 ^ m.imode) xs s u →
    v = ((List.range xs.length).map (fun i => numIndex (xs.getD i .nan) * 2 ^ (33 * (xs.length - 1 - i)))).sum →
    ((∀ p ∈ before, p ≤ v) → Gives (entryE core (going c) m n before) s v u) ∧
    (∀ p, before = some p → v < p → (entryE core (going c) m n before).run s = (.error (.fault 6
      (some (BitVec.ofNat 64 (spotOf u (coreTile core) m m.col (m.indices (n * 2 ^ m.imode))).va)) n), u)))

/-- R284, R364, R365: FLQ as it runs. A page's words are whole, and flash holds what Write entries put there (log 58). -/
def FlashCommandsRunPart : Prop :=
  (∀ (core : Nat) (c : Command) (s s1 : State) (b a : BitVec 5) (g : BitVec 4) (x y : Dword) (e : List Nat),
    Heads s core c (.flq b a g) s1 → cmdAt s core c.seq = some c → c.remote = none → c.args = [x, y] →
    let pair := x.toNat
    let pkg := corePkg core
    let ctx := c.ctx.toNat
    let nsid := pairWord s1 core c.ctx pair 2 / 2 ^ 32
    let op := e.getD 0 0 % 256
    let pages := pagesNamed e
    let ready : Prop := ((pkgAt s1 pkg).ready.getD 2 0).getLsbD 56 = true ∧ pairWaits s1 core c.ctx pair = false ∧
      0 < pairRoom s1 core c.ctx pair
    (¬ready → runStep s core = (s1, .waits)) ∧
    (ready → EntryRead core y.toNat c e s1 →
      (entryBad e nsid → ∀ k t, taskAt s k = some t → t.uid = c.uid → ∃ u, runStep s core = (u, .stopped) ∧ u.mem = s.mem ∧
        RingSays u core c (fun e => e.state = 4 ∧ e.kind = 2 ∧ e.addr = y ∧ e.elem = 0)) ∧
      (¬entryBad e nsid →
        (op = 0 → ∀ u1, Gives (submitE core (going c) pair e) s1 () u1 →
          ∃ u, exec (.commandComplete core) s = .next u ∧ u.mem = u1.mem ∧ RingSays u core c (fun e => e.state = 3)) ∧
        (∀ ks, Translated core c (op == 2) s1 pages ks →
          let entry := (e.set 3 (ks.getD 0 0 % 2 ^ 40)).set 4 (if ks.length = 2 then ks.getD 1 0 % 2 ^ 40 else e.getD 4 0)
          (op = 1 → ∀ (ws : List Nat) (u2 : State), ws.length = (pageWords pages).length →
            (∀ j, j < ws.length → Made (readH pkg ((pageWords pages).getD j 0) ctx (ctxPriv s1 ctx) 4) s1 (ws.getD j 0) s1) →
            Gives (submitE core (going c) pair entry) s1 () u2 →
            Memory.wf u2.flash = true →
            ∃ u, exec (.commandComplete core) s = .next u ∧ u.mem = u2.mem ∧ RingSays u core c (fun e => e.state = 3) ∧
              ∀ i, i < ws.length → cellsGet u.flash (flashKey s1 core c.ctx pair (e.getD 5 0) + 4 * i) 4 =
                ws.getD i 0 % 2 ^ 32) ∧
          (op = 2 → ∀ u2, Gives (submitE core (going c) pair entry) s1 () u2 →
            ∃ u, exec (.commandComplete core) s = .next u ∧ u.mem = u2.mem ∧ RingSays u core c (fun e => e.state = 3) ∧
              (drayOf u (coreTile core) c.ctx).reads = (drayOf u2 (coreTile core) c.ctx).reads ++
                [{ pair := pair, cid := e.getD 0 0 / 2 ^ 16 % 2 ^ 16, at_ := flashKey s1 core c.ctx pair (e.getD 5 0),
                   pages := (pages.zip ks).map (fun z => (z.1.1, z.2, z.1.2)), reader := none }]))))) ∧
  (∀ (core pair : Nat) (c : Command) (e : List Nat) (s : State) (tail out done : Nat) (v : Nat → State), e.length = 8 →
    pairState s core c.ctx pair = (tail, out, done) → v 0 = s →
    (∀ i, i < 8 → Gives (engineWrite core c (pairWord s core c.ctx pair 0 % 2 ^ 48 + 64 * tail + 8 * i) 8 (e.getD i 0) 1 0)
      (v i) () (v (i + 1))) →
    let next := (tail + 1) % pairDepth s core c.ctx pair
    let ctrl := pairWord s core c.ctx pair 2 % 2 ^ 23
    ∃ u, Gives (submitE core c pair e) s () u ∧ u.mem = (v 8).mem ∧ pairState u core c.ctx pair = (next, out + 1, done) ∧
      u.inbox = (v 8).inbox ++ [(ctrl / 2 ^ 13, [BitVec.ofNat 64 ctrl, BitVec.ofNat 64 pair, BitVec.ofNat 64 next])])

end Sys2Proof.Claims

open Sys2Proof.Claims

/-- Decoding an encoded instruction gives it back. For every well-formed instruction that has an encoding, with every
operand at every value the encoding admits, decoding its bytes, followed by any others, gives the instruction and the
bytes after it. (R47, R48, R49, R50, R51, R52.) -/
def Obligations.DecodeOfEncode : Prop :=
  ∀ (i : Instr) (rest : List (BitVec 8)), i.wf = true → encode i ≠ .none →
    decodeBytes i.streamForm (encodeBytes i ++ rest) = .ok (i, rest)

/-- Every step keeps storage in its canonical form. From a state whose storage lists its bytes in rising order with no
entry equal to what an unlisted byte reads as, every step that goes on leads to such a state. The form is the model's
own (log 1). (spec/11_memory_levels.md.) -/
def Obligations.StorageKept : Prop := ∀ s u : State, s.stored → step s = .next u → u.stored

/-- No step of the machine ends in a fault or a refusal. From every state, one step answers a next state: what goes
wrong in a program is a trap, a late fault, a discard or a wait, each of which the machine goes on from.
(spec/01_sequential_machine.md, spec/23_traps_preemption.md, R54.) -/
def Obligations.EveryStepGoesOn : Prop := ∀ s : State, ∃ u, step s = .next u

/-- A step runs the decoded instruction. When the bytes at a slot's pc decode to an instruction, the slot's turn
fetches and decodes exactly it and, with no trap pending, executes it; a step whose agenda (log 2) names the core is
that execution, the note of the issue and the passing of time. A stream's turn executes the instruction its word
encodes. (R16, R17, R47, R54, R123, R157, R339.) -/
def Obligations.StepRunsDecoded : Prop :=
  (∀ (s : State) (k : Nat) (t : Task) (i : Instr), AtWord s k t i →
    ∃ e buf, fetchTask s k t = .ok (e, buf) ∧ taskInstr e = some i ∧
      (pendingTrap i k t (enter s k e buf) = none →
        (∀ u, exec i (enter s k e buf) = .next u → slotStep k s = .next (leaveBlock k u)) ∧
        ∀ core n m r s0 u, s = handlerCycles n { s0 with agenda := r } →
          s0.agenda = { who := .core core, cycles := n, ns := m } :: r →
          slotCore k = core → tileRuns s (coreTile core) = true →
          (slotOrder (coreAt s core) core).find? (fun j => (taskAt s j).isSome) = some k →
          exec i (enter s k e buf) = .next u → stillWaits k s (leaveBlock k u) = false →
          step s0 = .next (tick n m (issued k t (leaveBlock k u))))) ∧
  (∀ (s : State) (tile : Nat) (st : Stream) (w : Word) (buf : Buffer) (i : Instr), (tileAt s tile).stream = some st →
    tileRuns s tile = true → streamInstr w = some i →
    (st.word = none → fetchAt s tile st.ctx st.fetch st.pc.toNat = .ok (.word w, buf) →
      streamTurn tile s = exec i (enterStream s tile w buf)) ∧
    (st.word = some w → streamTurn tile s = exec i (enterStream s tile w st.fetch)))

/-- Words written out in the spec decode to the instructions they stand for. Twenty words that the spec writes out
decode to the instruction that each is said to assemble, sixteen as a task reads them and four as a stream does.
(spec/03_encoding_opcode_map.md, spec/05_integer_control_instructions.md, spec/10_vector_sequencer.md,
spec/13_memory_instructions.md.) -/
def Obligations.EncodedWords : Prop :=
  (∀ x ∈ sampleWords, taskWord x.1 = some x.2) ∧ (∀ x ∈ sampleStream, streamInstr x.1 = some x.2)

/-- What reset leaves, and the wired registers. After reset no task is resident, nothing is in flight, storage lists
nothing (log 1: what it reads as is the model's), VWAY is 0, the semaphores are 0, BFMTn holds FMT 8 and FNP 0x1_0387,
the queues are open, no stream runs and the rings are empty. g0 reads as 0 and p0 as true, and a write to either is
discarded. (R4, R9, R151, R177, R181, R251, R257, R262.) -/
def Obligations.ResetValues : Prop :=
  State.reset.stored ∧ State.reset.tasks = [] ∧ State.reset.net = [] ∧ State.reset.full = [] ∧
  (∀ tile, (tileAt State.reset tile).vway = 0 ∧ (tileAt State.reset tile).sems = Vector.replicate 16 0 ∧
    (tileAt State.reset tile).qclosed = 0 ∧ (tileAt State.reset tile).stream = none ∧
    (∀ n : Fin 16, (tileAt State.reset tile).bfmt[n] = 0x103878) ∧ (tileAt State.reset tile).mepoch = 0) ∧
  (∀ core, (coreAt State.reset core).nextSeq = 0 ∧ (coreAt State.reset core).ring = []) ∧
  (∀ (t : Task) (v : Dword) (b : Bool), gGet t 0 = 0 ∧ gSet t 0 v = t ∧ pGet t 0 = true ∧ pSet t 0 b = t)

/-- No step leaves a task whose grace has run out. After every step, no resident task has a grace of 0 cycles left: it
has been terminated in that step. (R341.) -/
def Obligations.GraceEnds : Prop :=
  ∀ s u : State, step s = .next u → ∀ x ∈ u.tasks, x.2.grace ≠ some 0

/-- The integer members write the value their rule gives, and nothing else. Each member of the ALU, immediate,
constant, unary and bit-field majors, SEL, LEA, PPACK and the compact arithmetic forms, when it executes, leads to the
state in which its destination holds the value of R69 to R78, R80, R81 and R48 and the instruction has retired; a
write of g0 is discarded. SEL (R73), MOVI and MOVS (R76) are among them. (R73, R76.) -/
def Obligations.IntegerResults : Prop :=
  ∀ (i : Instr) (op : RegOp) (s : State) (t : Task), intOp i = some op → Executes i op.guard s t →
    exec i s = .next (retire s (gSet t op.dest (op.value t)) i.length)

/-- The divide members, their corners and DIVZ. DIV, DIVN, REM and REMN, in both widths, write the truncated quotient
or the remainder; a zero divisor gives all ones or the dividend, or with TCTL.DZ takes DIVZ with gd unchanged; the
least number over -1 gives itself and remainder 0. (R72.) -/
def Obligations.DivisionResults : Prop :=
  ∀ (i : Instr) (op : DivOp) (s : State) (t : Task), divOp i = some op → Executes i op.guard s t →
    exec i s =
      if op.zero t && t.tctl.getLsbD 16 then .next (takeTrap causeDivz 0 s)
      else .next (retire s (gSet t op.dest (op.value t)) 4)

/-- Compares and predicate logic. CMP and CMPI in every condition and width, and the PLOG members, write their
predicate as comb directs; a write of p0 is discarded; PUNPK writes p7 to p1 from a register. (R79, R80.) -/
def Obligations.PredicateResults : Prop :=
  (∀ (i : Instr) (op : PredOp) (s : State) (t : Task), predOp i = some op → Executes i op.guard s t →
    exec i s = .next (retire s (pSet t op.dest (combined op.comb (pGet t op.dest) (op.cond t))) 4)) ∧
  (∀ (a : BitVec 5) (g : BitVec 4) (s : State) (t : Task), Executes (.punpk a g) g s t →
    ∃ p : BitVec 8, (∀ n, 1 ≤ n → n < 8 → p.getLsbD n = (gGet t a).getLsbD n) ∧ p.getLsbD 0 = true ∧
      exec (.punpk a g) s = .next (retire s { t with p := p, spoilt := t.spoilt.filter (fun n => decide (n < 64)) } 4))

/-- LOOP. LOOP reads its count as 64 bits, sets LSTART, LEND and LCOUNT, and goes to the body or, for a count of 0,
past it; its register is not changed, an active loop is replaced, and a guarded-off LOOP leaves the loop state to R89
alone. (R88.) -/
def Obligations.LoopStarts : Prop :=
  ∀ (n : BitVec 11) (a : BitVec 5) (g : BitVec 4) (s : State) (t : Task),
    (Executes (.loop n a g) g s t → exec (.loop n a g) s = .next (putTask s s.here (setPc { t with
      lstart := BitVec.ofNat 64 (t.pc.toNat + 4)
      lend := BitVec.ofNat 64 (t.pc.toNat + 4 + 2 * n.toNat)
      lcount := gGet t a
      pend := .idle } (BitVec.ofNat 64 (if gGet t a = 0#64 then t.pc.toNat + 4 + 2 * n.toNat else t.pc.toNat + 4))))) ∧
    (hereTask s = some t → checks (.loop n a g) t (coreNum (hereCore s)) = none → consumesSpoilt (.loop n a g) g t = false →
      guardHolds t g = false →
      exec (.loop n a g) s = .next (retire s t 4))

/-- Branches, jumps and the loop-back. BR, JAL, JALR and their compact forms go to their targets, link as their rules
say, or take MISALIGN for an odd register target; retiring the last instruction of a loop's body counts a pass and
goes back; C.NOP has no effect; a halfword of op4 0 takes ILLEGAL. (R48, R54, R85, R86, R87, R89, R90.) -/
def Obligations.ControlFlow : Prop :=
  TransfersPart ∧ LoopsBackPart ∧ NopAndIllegalPart

/-- Checks come before the guard, a false guard leaves only the advance of pc, and what U and a core may not execute.
For every scalar instruction of 32 bits but SEL: a failed check of registers, core or privilege traps whatever the
guard (PRIV too: log 27); where they pass and the guard is false, the instruction only retires, but that it takes
MCHECK where the predicate of its guard holds a value in which an error has been found (R338; log 62). CTXKILL,
RESIZE, VOLFREE and accesses of the supervisor's CSRs take PRIV at U, and so do writes at U of TVEC, BUDGET, SPILLB,
SPILLF and FLQT and writes below M of PCAP and ECCC, which R349 makes read-only there (log 25); a register beyond the
task's count, an engine member on another core and a CSR the core does not have take ILLEGAL. (R9, R10, R52, R53, R54,
R128, R335, R338, R349.) -/
def Obligations.ChecksAndGuards : Prop :=
  GuardedOffPart ∧ PrivilegePart

/-- Loads from the tile's placed memory and from the L1. LD and the compact loads write the zero-extended
little-endian bytes at the effective address and retire; an acquire drops the core's clean words. (R48, R82, R83,
R174, R193, R204, R206, R230.) -/
def Obligations.Loads : Prop :=
  LoadsOnTheTilePart ∧ LoadsFromL1Part

/-- Loads that a home or another tile answers. A strong or acquire load of global memory asks its home once and waits;
with its reply a load writes the value or takes the trap it brings; a weak load whose line has come writes the word,
or takes OWNERLOST or MCHECK. The value of such a trap is the effective address, as R82 has it; R216 has the word's
address (log 79). What a waiting instruction keeps is the model's record (log 15). (R82, R199, R204, R214, R215, R216,
R379.) -/
def Obligations.LoadsOverTheNetwork : Prop :=
  LoadsAnsweredPart ∧ LoadsFilledPart ∧ StrongLoadsAskPart

/-- Stores to the tile's placed memory and into the L1. ST and the compact stores leave their bytes at the effective
address and every other byte of storage as it was; a weak store of global memory leaves its bytes in the core's L1,
and registers a word no one owned with one request. (R48, R82, R83, R198, R201, R207.) -/
def Obligations.Stores : Prop :=
  StoresOnTheTilePart ∧ StoresInL1Part

/-- Stores that a home or another tile answers. A strong or release store retires with its reply, or takes the trap it
brings with the effective address, as R82 has it (OWNERLOST too, where R216 has the word's address: log 79); a weak
store to another tile's placed memory sends one request and retires, and stays outstanding. (R82, R207, R214, R215,
R230.) -/
def Obligations.StoresOverTheNetwork : Prop :=
  StoresAnsweredPart ∧ StoresSentPart

/-- STACKLIM, MISALIGN and XLATE of an effective address. A load or store through g2 below SLIM takes STACKLIM, a
misaligned one MISALIGN, and one to an address outside memory XLATE, in that order, each with the effective address.
(R19, R82, R174.) -/
def Obligations.AddressTraps : Prop :=
  ∀ (i : Instr) (base : BitVec 5) (g : BitVec 4) (size : Nat) (ea : Task → Dword) (s : State) (t : Task),
    ((∃ op, loadOp i = some op ∧ base = op.base ∧ g = op.guard ∧ size = op.size ∧ ea = op.ea) ∨
      (∃ op, storeOp i = some op ∧ base = op.base ∧ g = op.guard ∧ size = op.size ∧ ea = op.ea)) →
    Executes i g s t → t.inl = none →
    (base = 2#5 ∧ (ea t).toNat < t.slim.toNat → exec i s = .next (takeTrap causeStacklim (ea t) s)) ∧
    (¬(base = 2#5 ∧ (ea t).toNat < t.slim.toNat) → (ea t).toNat % size ≠ 0 →
      exec i s = .next (takeTrap causeMisalign (ea t) s)) ∧
    (¬(base = 2#5 ∧ (ea t).toNat < t.slim.toNat) → (ea t).toNat % size = 0 →
      placeOf s (hereTile s) (ea t).toNat = .hole → ownResizing s (hereTile s) (ea t).toNat = false →
      exec i s = .next (takeTrap causeXlate (ea t) s))

/-- Atomic operations. An atomic with a destination writes the old value its reply brings; a posted one sends one
request, stays outstanding and retires; at the handler that performs it, each integer operation and CAS leave their
result and answer the old value. (R217, R218, R220, R221, R223.) -/
def Obligations.Atomics : Prop :=
  AtomicsAnsweredPart ∧ PostedAtomicsPart ∧ AtomicResultsPart

/-- Full bits: LDF, SETF, SETE and TESTF. On the tile's own placed memory LDF and LDF.E read full words, the latter
leaving them empty, and SETF, SETE and TESTF set, clear and read a word's bit; a misaligned address takes MISALIGN, a
global one PROT, one outside memory XLATE. (R225, R226, R227, R228.) -/
def Obligations.FullBits : Prop :=
  LoadsOfFullWordsPart ∧ FullBitOperationsPart ∧ FullBitTrapsPart

/-- Fences, INVR, PUBR, ISYNC, PREF and CLBINV. An acquire drops the core's clean words, a release retires once the
task's earlier work is done, INVR drops the clean words of a range, PUBR opens a publication point, ISYNC empties the
fetch buffer, PREF changes no register, and CLBINV drops the executing context's CLB entries of a handle or all (log
104). A fifth PUBR waits while the oldest of four points is open. (R147, R206, R207, R230, R231, R232, R233.) -/
def Obligations.Fences : Prop :=
  FencesPart ∧ PrefetchAndClbPart

/-- RoundTo, floating arithmetic and conversions. RoundTo of every format the spec names, in every mode: the grid,
ties, overflow, the special values and the conditions; the rounding into integers; block scales; the special cases of
FADD, FSUB, FMUL, FDIV and FSQRT. The rounding members, FCVT to floating and to integer formats, and FRND write the
rounded result and add the conditions they raise to TCTL, or take FPEXC with the conditions where one is enabled. FRND
draws its bits from a free source (log 5). Which significand is even for a tie is log 76, and that an infinity
saturated in mode F raises nothing is log 102. (R29, R30, R33, R34, R35, R37, R38, R39, R94, R95, R100, R101.) -/
def Obligations.FloatRounding : Prop :=
  FloatResultsPart ∧ FloatToIntegerPart ∧ StochasticRoundingPart ∧ RoundsToGridPart ∧ RoundsSpecialsPart ∧ RoundsToIntegersPart ∧ FloatSpecialsPart ∧ BlockScalesPart

/-- Floating moves, minima and compares. FMIN, FMAX, FABS, FNEG, FMOV, FMVF, FMVG and FCLASS write their result and
raise nothing; FCMP writes its predicate as comb directs, and LT and LE of a NaN raise invalid. (R94, R96, R97, R102.)
-/
def Obligations.FloatMovesAndCompares : Prop :=
  FloatMovesPart ∧ FloatComparesPart

/-- Accesses by coordinates. A cell's tile and its place in the tile are those of R235 and R237; LDC, STC and AMOC
access the element of a cell whose block the CLB holds; an element that leaves its cell, and a cell out of bounds of a
strict volume, take VOLBOUNDS; one of a volume of another package takes PROT, whatever the CLB holds. (R234, R235,
R237, R239, R241, R243, R244, R247.) -/
def Obligations.Cells : Prop :=
  CellsLocatedPart ∧ CellAccessesPart ∧ CellBoundsPart ∧ CellsElsewherePart

/-- SEND and SENDX. A message whose header the NI accepts leaves as one packet with the header the rules make, and the
launch counts a task it may start; at U a header of another context, of a package field or class it may not name,
takes PROT with the header. (R105, R106, R108, R110, R129, R130, R132.) -/
def Obligations.Messages : Prop :=
  MessagesSentPart ∧ MessagesRefusedPart

/-- DEC, DEC.L, TREC and TARM. DEC sends a decrement to the record it names, and does nothing for a name of 0; TREC
creates a record where none waits, and answers whether one did; TARM sets the reload and a count of 0; a bad offset
takes PROT. (R113, R133, R134, R135, R136.) -/
def Obligations.RecordOperations : Prop :=
  ∀ (b a d : BitVec 5) (g : BitVec 4) (s : State) (t : Task),
    (∀ (i : Instr) (rel : Bool), i = (if rel then .decL a g else .dec a g) → Executes i g s t → ordered s t rel →
      cmdsPending s t.uid = false →
      (gGet t a = 0 → exec i s = .next (retire s t 4)) ∧
      (nameOk (gGet t a) = true → pkgPresent s (tilePkg (nameTile (gGet t a))) = true →
        groupFailed s (nameTile (gGet t a)) = false →
        MaySend s t (nameCore (gGet t a)) 3 t.ctx →
        ∃ u h, exec i s = .next u ∧ Sends s u t (nameCore (gGet t a)) h [gGet t a] ∧ hdrClass h = 3 ∧ hdrCtx h = t.ctx ∧
          hdrRel h = rel ∧ (t.tag.toNat < 16 → hdrTag h = t.tag)) ∧
      (gGet t a ≠ 0 → nameOk (gGet t a) = false ∨ pkgPresent s (tilePkg (nameTile (gGet t a))) = false ∨
        groupFailed s (nameTile (gGet t a)) = true → exec i s = .next (takeTrap causeProt (gGet t a) s))) ∧
    (Executes (.trec b a d g) g s t → recordAt s t (gGet t a) → imageOk (hereTile s) (gGet t b) = true → Quiet s t →
      (wordAt s ((gGet t a).toNat + 4) ≠ 0 → exec (.trec b a d g) s = .next (retire s (gSet t d 1) 4)) ∧
      (wordAt s ((gGet t a).toNat + 4) = 0 → s.stored →
        ∃ u, exec (.trec b a d g) s = .next u ∧ taskAt u s.here = some (past (gSet t d 0) 4) ∧
          cellsGet u.mem (lmKey (hereTile s) (gGet t a).toNat) 8 = (gGet t b).toNat ∧
          wordAt u ((gGet t a).toNat + 8) =
            (if wordAt s ((gGet t a).toNat + 8) = 0 then t.launch.toNat else wordAt s ((gGet t a).toNat + 8)) ∧
          tget (tileAt u (hereTile s)).records (gGet t a).toNat = some (t.ctx, t.tag, false) ∧
          (∀ k, (k < lmKey (hereTile s) (gGet t a).toNat ∨ lmKey (hereTile s) (gGet t a).toNat + 12 ≤ k) →
            cellGet u.mem k = cellGet s.mem k))) ∧
    (Executes (.tarm b a g) g s t → recordAt s t (gGet t a) → (gGet t b).toNat < 2 ^ 32 → s.stored →
      ∃ u, exec (.tarm b a g) s = .next u ∧ taskAt u s.here = some (past t 4) ∧
        wordAt u ((gGet t a).toNat + 12) = (gGet t b).toNat ∧
        wordAt u ((gGet t a).toNat + 4) =
          (if wordAt s ((gGet t a).toNat + 4) = 0 then (gGet t b).toNat else wordAt s ((gGet t a).toNat + 4)) ∧
        (wordAt s ((gGet t a).toNat + 4) = 0 → gGet t b ≠ 0 →
          tget (tileAt u (hereTile s)).records (gGet t a).toNat = some (t.ctx, t.tag, false)) ∧
        ((wordAt s ((gGet t a).toNat + 4) ≠ 0 ∨ gGet t b = 0) → u.tiles = s.tiles) ∧
        (∀ k, (k < lmKey (hereTile s) ((gGet t a).toNat + 4) ∨ lmKey (hereTile s) ((gGet t a).toNat + 16) ≤ k) →
          cellGet u.mem k = cellGet s.mem k)) ∧
    (∀ i ∈ [Instr.trec b a d g, .tarm b a g], Executes i g s t →
      gGet t a = 0 ∨ (gGet t a).toNat % 64 ≠ 0 ∨ 0xFFFC0 < (gGet t a).toNat →
      exec i s = .next (takeTrap causeProt (gGet t a) s))

/-- SPAWN. On its own core SPAWN queues a start, or runs the fallback inline in a frame on the stack; for another core
it writes what the reply says, a refused one running the fallback and a discarded one giving 3; a cancelled launch
gives 3. (R137, R138.) -/
def Obligations.Spawns : Prop :=
  ∀ (b a d : BitVec 5) (g : BitVec 4) (s : State) (t : Task) (e : Dword), Executes (.spawn b a d g) g s t →
    32 ≤ (gGet t b).toNat → (gGet t b).toNat ≤ 255 →
    (gGet t a = 0x800000 → routineEntry s (hereTile s) t.ctx (gGet t b).toNat = some e →
      (cancelled s (hereTile s) t.ctx t.launch t.tag = true →
        exec (.spawn b a d g) s = .next (retire s (gSet t d 3) 4)) ∧
      (cancelled s (hereTile s) t.ctx t.launch t.tag = false → slotsOf (hereCore s) ≠ 4 → spawnQueued s (hereCore s) < 64 →
        queuedOn s (hereTile s) t.ctx < 65535 → (∀ n, 4 ≤ n → n ≤ 9 → n ∉ t.spoilt) →
        ∃ u x, exec (.spawn b a d g) s = .next u ∧ taskAt u s.here = some (past (gSet t d 0) 4) ∧
          (coreAt u (hereCore s)).entries = (coreAt s (hereCore s)).entries ++ [x] ∧
          x.ctx = t.ctx ∧ x.launch = t.launch ∧ x.tag = t.tag ∧ x.how = 2 ∧ x.cls = 4 ∧
          x.entry = e.toNat % 2 ^ 20 ∧ x.pri = e.toNat / 2 ^ 61 % 4 ∧
          x.payload = [gGet t b, gGet t 4, gGet t 5, gGet t 6, gGet t 7, gGet t 8, gGet t 9, 0] ∧
          (launchAt u t.ctx t.launch).counter = (launchAt s t.ctx t.launch).counter + 1) ∧
      (cancelled s (hereTile s) t.ctx t.launch t.tag = false → (slotsOf (hereCore s) = 4 ∨ 64 ≤ spawnQueued s (hereCore s)) →
        mayFallBack s t e → ∃ u, exec (.spawn b a d g) s = .next u ∧ FallenBack s u t d e)) ∧
    (∀ r, (gGet t a).toNat < 2 ^ 23 → (gGet t a).toNat % 8 ≤ 3 → pkgPresent s ((gGet t a).toNat / 2 ^ 13) = true →
      groupFailed s (coreTile (coreOfFabric (gGet t a).toNat)) = false → coreOfFabric (gGet t a).toNat ≠ hereCore s →
      t.pend.log.lookup (.spawn (coreOfFabric (gGet t a).toNat) (gGet t b).toNat) = some r →
      (r.val = 0 → exec (.spawn b a d g) s = .next (retire s (gSet t d 1) 4)) ∧
      (r.val = 3 → exec (.spawn b a d g) s = .next (retire s (gSet t d 3) 4)) ∧
      (r.val ≠ 0 → r.val ≠ 3 → routineEntry s (hereTile s) t.ctx (gGet t b).toNat = some e → mayFallBack s t e →
        ∃ u, exec (.spawn b a d g) s = .next u ∧ FallenBack s u t d e))

/-- TEND and C.TEND, ELECT, TINFO, PHSTAT and PHDECL. The end of a task frees its slot at once and counts its launch
down once its release is made and its commands are done (log 11); in a fallback it returns to the spawning instruction
with gd 2, or takes MISALIGN for an odd pc in the frame; in an inline block it ends the block. ELECT writes its reply,
TINFO the value of its selector, PHSTAT the state of a phase, HIGH among it, or PROT; PHDECL acquires, sends one
declaration, with its count, to every tile listed, and retires when all are accepted. (R16, R25, R57, R121, R138,
R139, R140, R141, R142, R143.) -/
def Obligations.TaskEndsAndQueries : Prop :=
  TasksEndPart ∧ TaskQueriesPart ∧ PhasesDeclaredPart

/-- CANCEL. A CANCEL goes to every tile with work of the context and retires when all have applied it; an identifier
that its level does not admit takes PROT. (R118, R144.) -/
def Obligations.Cancels : Prop :=
  CancelsPart ∧ CancelsRefusedPart

/-- Engine commands enter the ring. An engine command whose checks pass takes the next place of the ring with the
maps, operands, word and issuer it captures, and the instruction retires; an empty map register, a signal that is not
granted and a map of a wrong kind take PROT and no place. (R250, R251, R254, R257, R266, R282, R283, R284.) -/
def Obligations.Commands : Prop :=
  CommandsIssuedPart ∧ CommandsRefusedPart ∧ DrayCommandsPart

/-- VGO, the queue members and semaphores. VGO starts the tile's stream with cleared registers for another context;
QTEST, QCLOSE and QBIND read, close and bind a queue; SEMP takes one off a count and acquires, or waits; SEMV releases
and adds one, or notes the overflow. A read of a bound register pops its queue, a write pushes, and the instruction
waits for an entry or room. (R148, R151, R152, R251, R279, R280.) -/
def Obligations.QueuesAndStreams : Prop :=
  StreamStartsPart ∧ QueueOperationsPart ∧ SemaphoresPart ∧ BoundQueuesPart

/-- TMSET, TMGET and TMOFS. TMSET loads a map register from 32 bytes or takes PROT for a malformed map, TMGET stores
it, TMOFS moves its base by elements; an empty register takes PROT. (R252, R253, R269.) -/
def Obligations.MapRegisters : Prop :=
  ∀ (a : BitVec 5) (r g : BitVec 4) (s : State) (t : Task) (vault : Bool) (off : Nat) (w : BitVec 256),
    (Executes (.tmset a r g) g s t → t.inl = none → Addressed t a (gGet t a) 32 → OnTile s t (gGet t a) vault off →
      spoiltAt s (keyOf s vault off) 32 = false →
      (∀ k, k < 4 → ownOut s t 2 ((gGet t a).toNat + 8 * k) 8 = false) → w.toNat = cellsGet s.mem (keyOf s vault off) 32 →
      exec (.tmset a r g) s =
        if malformedMap w then .next (takeTrap causeProt (gGet t a) s)
        else .next (retire s { t with tms := tput t.tms r.toNat w } 4)) ∧
    (Executes (.tmget a r g) g s t → t.inl = none → Addressed t a (gGet t a) 32 → OnTile s t (gGet t a) vault off →
      (∀ k, k < 4 → ownOut s t 2 ((gGet t a).toNat + 8 * k) 8 = false) → tget t.tms r.toNat = some w → s.stored →
      ∃ u, exec (.tmget a r g) s = .next u ∧ u = { retire s t 4 with mem := u.mem, spoilt := u.spoilt } ∧
        cellsGet u.mem (keyOf s vault off) 32 = w.toNat ∧
        (∀ k, k < keyOf s vault off ∨ keyOf s vault off + 32 ≤ k → cellGet u.mem k = cellGet s.mem k)) ∧
    (Executes (.tmofs a r g) g s t → tget t.tms r.toNat = some w → kind w 1 = false →
      ∀ base : Nat, (8 * base : Int) = 8 * (field w 0 48 : Int) + (gGet t a).toInt * elemBits (mapOf w).elem →
      base < 2 ^ 48 →
      (∀ w', w'.toNat = w.toNat / 2 ^ 48 * 2 ^ 48 + base → malformedMap w' = false →
        exec (.tmofs a r g) s = .next (retire s { t with tms := tput t.tms r.toNat w' } 4))) ∧
    (∀ i ∈ [Instr.tmget a r g, .tmofs a r g], Executes i g s t → tget t.tms r.toNat = none →
      exec i s = .next (takeTrap causeProt (wordOf i) s))

/-- Taking an exception. A trap at level 0 saves cause, pc and value in the first set and goes to TVEC; at level 1 in
the second set and to TVEC + 0x100; at level 2 it kills the context, on every tile in the one step (log 33, the
model's choice). Storage stays as it was. (R21, R22, R343.) -/
def Obligations.TrapsTaken : Prop :=
  TrapsTakenPart ∧ ThirdTrapKillsPart

/-- Returning from an exception. TRET at level 1 or 2 sets pc to the level's TEPC and the level one lower; at level 0
it takes ILLEGAL. (R23.) -/
def Obligations.TrapReturn : Prop :=
  ∀ (g : BitVec 4) (s : State) (t : Task), t.inl = none → Executes (.tret g) g s t →
    (t.tlev = 0 → exec (.tret g) s = .next (takeTrap causeIllegal (wordOf (.tret g)) s)) ∧
    (t.tlev = 1 → ∃ u, exec (.tret g) s = .next u ∧ u.mem = s.mem ∧
      taskAt u s.here = some (gone { t with tlev := 0 } t.tepc1 false) ∧
      (∀ c ∈ u.cores, ∀ e ∈ c.2.ring, e.uid = t.uid → e.unreported = false → e.held = false ∧ e.state ≠ 5)) ∧
    (2 ≤ t.tlev.toNat → exec (.tret g) s = .next (putTask s s.here
      (gone { t with tlev := 1 } t.tepc2 false)))

/-- TRAP, CTXKILL and RESIZE. TRAP of a software number takes SYSCALL with the pc after it; a firmware call at U takes
PRIV, and one the firmware does not know answers 2; CTXKILL kills a context, all but its own task, in one step (log
33), and waits for the record; RESIZE writes VWAY once nothing uses a way that changes; a way withdrawn from DIRECT is
withdrawn from every grant (log 47), and one that becomes direct reads as empty (log 1). (R22, R181, R184, R343, R351,
R354.) -/
def Obligations.SystemInstructions : Prop :=
  SystemInstructionsPart ∧ WaysResizedPart

/-- Reads and writes of control registers by CSRR, CSRW and CSRX. Every CSR of a task, a core, a tile or a package
that R335, R336 and R337 name reads the value its rule gives, reserved bits as 0, CVSTAT after a wait; a write obeys
the field rules: a read-only register ignores it, W1C bits clear, and a value the rule refuses takes its trap; MTOK
takes ILLEGAL from CSRR and CSRW. The tile's and the package's own writable registers are in DeviceRegisters. (R4, R5,
R11, R14, R15, R335, R336, R337, R349, R350.) -/
def Obligations.ControlRegisters : Prop :=
  CsrReadsPart ∧ CsrWritesPart

/-- Writes of the tile's and the package's control registers, and grants. BFMT, BDROP, TVEC, GSEL, MKEY, PCAP, STASHB,
STASHL, MTOK, the line adders and masks and PQCFG take a value their rules admit, or trap; a grant whose doublewords
pass the checks of R346 is written, given up or restored, with the banks, ways, full bits, semaphores and start
entries of its save area. A TVEC write reaches the writing slot and later starts, not other resident slots (log 26);
which checks apply with V = 0 is log 44; a STKBASE that is not a multiple of 4,096, or an RTAB that is not one of 8,
is taken as written (log 93); a context that comes without a restore drops what was kept for it (log 94). (R124, R177,
R178, R180, R262, R281, R345, R346, R348, R360, R362, R381.) -/
def Obligations.DeviceRegisters : Prop :=
  DeviceCsrWritesPart ∧ GrantWritesPart ∧ GrantRestoredPart

/-- The firmware's calls. MAP, UNMAP, RIGHTS, CLEAN, LOGTAIL, CTXSET, KRING and HOSTLIST answer their status in g4 and
leave the page-table entry, frame map, log tail, context, kill ring or host list they are for. The model's choices:
LOGTAIL and KRING act on the caller's package (log 51), a partition has one supervisor (log 87), a TVEC with low bits
answers 2 (log 97), a root in a used frame answers 1 and a new root is cleared (log 20), a page of another partition
answers 1 (log 98). (R24, R193, R194, R195, R196, R334, R343, R344, R352, R363.) -/
def Obligations.Firmware : Prop :=
  PagesMappedPart ∧ FirmwareCallsPart

/-- VOLALLOC and VOLFREE. VOLALLOC checks the descriptor, takes a root node from the pool and opens the volume, or
takes PROT or VOLALLOC; VOLFREE of one tile removes its entry, tells every attached tile and returns its block once
all have answered. (R234, R235, R236, R240, R246, R247, R248.) -/
def Obligations.Volumes : Prop :=
  VolumesOpenedPart ∧ VolumesFreedPart

/-- Lane arithmetic. Each member of VARITH, VLOGIC, VSEL, VPERM, VBCAST and VMATH writes its enabled lanes with the
elements its rule gives and leaves the others. The results of VEXP and VLOG are the model's where R172 leaves them
open (log 12). (R154, R155, R156, R159, R160, R162, R167, R172.) -/
def Obligations.VectorLanes : Prop :=
  ∀ (i : Instr) (op : LaneOp) (s : State) (tile : Nat) (st : Stream), laneOp i = some op → i.wf = true → Streams s tile st →
    ∃ x, exec i s = .next (streamPast (putV s tile op.dest x) tile) ∧
      ∀ n, n < 64 → laneIn x n =
        if op.all || enabled s tile op.guard n then op.value st.fn (lane s tile) (enabled s tile op.guard) n
        else lane s tile op.dest n

/-- Reductions, scans, compares and masks. VRED writes lane 0 by the tree of R44, VSCAN the running values of the
enabled lanes, VCMP a mask, and the mask members all 64 bits; a write of m0 is discarded. (R44, R161, R162, R166,
R167.) -/
def Obligations.VectorFoldsAndMasks : Prop :=
  VectorFoldsPart ∧ VectorMasksPart

/-- Vector loads and stores. With every enabled lane's address in order, a vector load or store moves each enabled
lane's word and no other; the first bad lane stops the stream with nothing done, and so does a load of a word in which
an error has been found (the kind is the model's choice, log 62). (R163, R164, R173, R184, R338.) -/
def Obligations.VectorMemory : Prop :=
  ∀ (i : Instr) (op : VecAccess) (s : State) (tile : Nat) (st : Stream), vecAccess i = some op → Streams s tile st →
    let at_ := op.addr (lane s tile)
    let on := enabled s tile op.guard
    ((∀ n, n < 64 → on n = true → laneFault s tile st.ctx (at_ n) = none) → (∀ w, w < 16 → resizing s tile w = false) →
      (op.store = false → (∀ n, n < 64 → on n = true → spoiltAt s (wordKey tile (at_ n)) 4 = false) → ∃ x s0, Noted s s0 tile st on at_ ∧ exec i s = .next (streamPast (putV s0 tile op.reg x) tile) ∧
        ∀ n, n < 64 → laneIn x n =
          if on n then BitVec.ofNat 32 (cellsGet s.mem (wordKey tile (at_ n)) 4) else lane s tile op.reg n) ∧
      (∀ n, op.store = false → n < 64 → on n = true → spoiltAt s (wordKey tile (at_ n)) 4 = true →
        (∀ j, j < n → on j = true → spoiltAt s (wordKey tile (at_ j)) 4 = false) →
        ∃ u, exec i s = .next u ∧ Stopped s u tile st 2 (BitVec.ofInt 64 (at_ n))) ∧
      (op.store = true → s.stored → ∃ m l s0, Noted s s0 tile st on at_ ∧
        exec i s = .next (streamPast { s0 with mem := m, spoilt := l } tile) ∧ Memory.wf m = true ∧
        (∀ w, w ∈ l ↔ w ∈ s.spoilt ∧ ∀ n, n < 64 → on n = true → w ≠ wordKey tile (at_ n)) ∧
        (∀ n, n < 64 → on n = true → (∀ k, n < k → k < 64 → on k = true → at_ k ≠ at_ n) →
          cellsGet m (wordKey tile (at_ n)) 4 = (lane s tile op.reg n).toNat) ∧
        (∀ k, (∀ n, n < 64 → on n = true → k < wordKey tile (at_ n) ∨ wordKey tile (at_ n) + 4 ≤ k) →
          cellGet m k = cellGet s.mem k))) ∧
    (∀ n k, n < 64 → on n = true → laneFault s tile st.ctx (at_ n) = some k →
      (∀ j, j < n → on j = true → laneFault s tile st.ctx (at_ j) = none) →
      ∃ u, exec i s = .next u ∧ Stopped s u tile st k (BitVec.ofInt 64 (at_ n)))

/-- The stream's queue members, its end and its transfers. VLDQ and VBCQ pop, or wait while the queue is empty and
open, and give 0 from one that is empty and closed; VSTQ pushes, or waits while the queue is full; VEND ends the
stream and may signal; BR and LOOP of a stream read their guard as a mask; a stream that has waited 2^20 cycles stops,
with an address that the spec does not state and the model leaves free (log 18); a task may execute no member of a
stream. (R52, R151, R152, R153, R157, R158, R165, R173.) -/
def Obligations.VectorControl : Prop :=
  VectorControlPart ∧ StreamMembersElsewherePart

/-- VCVT, VRND and VTHRESH. Results are placed by element position: converted, rounded stochastically with fresh bits
(log 5), or dropped below the threshold and added to the drop accumulator. (R168, R169, R170, R171.) -/
def Obligations.VectorConversions : Prop :=
  ∀ (s : State) (tile : Nat) (st : Stream), Streams s tile st →
    (∀ (r t x : BitVec 3) (a d m : BitVec 4), Instr.wf (.vcvt r t x a d m) = true →
      let es := laneElem st.fn t
      let ed := laneElem st.fn x
      ∃ v, exec (.vcvt r t x a d m) s = .next (streamPast (putV s tile d v) tile) ∧
        ∀ n, n < 64 → laneIn v n =
          if enabled s tile m n = true ∧ n < 64 * min (perLane t) (perLane x) / perLane x then
            pieces (perLane x) (fun j =>
              let k := n * perLane x + j
              (elemRound ed (modeOf r.toNat) false
                (elemVal es (piece (perLane t) (k % perLane t) (lane s tile a (k / perLane t)) % 2 ^ elemWidth es))).bits)
          else lane s tile d n) ∧
    (∀ (k : BitVec 4) (x : BitVec 2) (a d m : BitVec 4),
      let per := if x.toNat < 2 then 2 else 4
      let fmt := if x.toNat = 0 then b16 else if x.toNat = 1 then f16 else fnFmt st.fn
      let drawn (n : Nat) : Nat := ((List.range n).filter (fun j => enabled s tile m (j / per))).length
      ∃ v, exec (.vrnd k x a d m) s =
          .next (streamPast (putV { s with draws := s.draws + drawn 64 } tile d v) tile) ∧
        ∀ n, n < 64 → laneIn v n =
          if enabled s tile m n = true ∧ n < 64 / per then
            pieces per (fun j =>
              (roundTo fmt (.sr (k.toNat + 1) ((Config.entropy (s.draws + drawn (n * per + j))).toNat % 2 ^ (k.toNat + 1)))
                (x == 3#2) (f32Val (lane s tile a (n * per + j)))).bits)
          else lane s tile d n) ∧
    (∀ (t : BitVec 3) (b a d m : BitVec 4), Instr.wf (.vthresh t b a d m) = true →
      let e := laneElem st.fn t
      let k := perLane t
      let elem (j : Nat) : Nat := piece k (j % k) (lane s tile a (j / k))
      let value (j : Nat) : Machine.Num := elemVal e (elem j % 2 ^ elemWidth e)
      let drops (j : Nat) : Bool := enabled s tile m (j / k) && numBelow (value j) (lane s tile b 0).toInt
      ∃ v w, exec (.vthresh t b a d m) s = .next (streamPast (putV (putV s tile d v) tile b w) tile) ∧
        (∀ n, n < 64 → laneIn v n =
          if enabled s tile m n then pieces k (fun j => if drops (n * k + j) then 0 else elem (n * k + j) % 2 ^ elemWidth e) else lane s tile d n) ∧
        (∀ n, n < 64 → laneIn w n =
          if n = 1 then ((List.range (64 * k)).filter drops).foldl
            (fun acc j => roundF32 (numAdd (f32Val acc) (numAbs (value j)))) (lane s tile b 1)
          else lane s tile b n))

/-- Arrivals of blocks, routine messages, spawns and launches. An inline block starts in the handler context or is
reported malformed; a message, SPAWN or LAUNCH makes a start entry from the routine table, or is reported for a class
without a routine; a message to a host leaves with its credit returned; a live launch is refused, and so is a SPAWN
for a full spawn queue or for a context with 65,535 start entries on the tile (the latter for a remote SPAWN is log
106). (R56, R57, R58, R107, R114, R117, R137, R348, R363.) -/
def Obligations.MessagesTaken : Prop :=
  ∀ (id : Nat) (s : State) (p : Packet) (h : Dword) (pl : List Dword),
    let tile := coreTile p.dst
    let ctx := hdrCtx h
    let back := coreOfFabric (fabricAddr (slotCore p.src)).toNat
    (Taken s id p 0 h pl → taskAt s (handlerKey p.dst) = none →
      (∀ l n, inlineBlock (payloadBytes pl) = some (l, n) → ∃ u t b, exec (.inlineBlock id) s = .next u ∧ arrived s u id ∧
        u.mem = s.mem ∧ taskAt u (handlerKey p.dst) = some t ∧ t.inl = some b ∧ b.code = (payloadBytes pl).take n ∧ t.pc = 0 ∧
        t.ctx = ctx ∧ t.launch = p.launch ∧ t.priv = ctxPriv s ctx.toNat ∧ t.gcount = 16 ∧ t.fcount = 8) ∧
      (inlineBlock (payloadBytes pl) = none → ∃ u, exec (.inlineBlock id) s = .next u ∧ arrived s u id ∧ u.mem = s.mem ∧
        taskAt u (handlerKey p.dst) = none ∧ Reported u back 1 0x0E)) ∧
    (∀ cls, 32 ≤ cls → Taken s id p cls h pl →
      (∀ e, routineEntry s tile ctx cls = some e → queuedOn s tile ctx < 65535 →
        ∃ u x, exec (.routineClassMessage id) s = .next u ∧ arrived s u id ∧ u.mem = s.mem ∧
        (launchAt u ctx p.launch).counter = (launchAt s ctx p.launch).counter + counts s p ∧ (coreAt u p.dst).entries = (coreAt s p.dst).entries ++ [x] ∧ MadeFrom x e ctx p.launch 1 h pl ∧
        x.cls = cls ∧ x.acquire = hdrRel h) ∧
      (routineEntry s tile ctx cls = none → ∃ u, exec (.routineClassMessage id) s = .next u ∧ arrived s u id ∧ u.mem = s.mem ∧
        (coreAt u p.dst).entries = (coreAt s p.dst).entries ∧ Reported u back 3 1)) ∧
    (Arrives s id p → p.body = .msg h pl → 32 ≤ hdrClass h → pkgPresent s (tilePkg tile) = false →
      ∃ u, exec (.routineClassMessage id) s = .next u ∧ arrived s u id ∧ u.mem = s.mem ∧
        u.inbox = s.inbox ++ [(tilePkg tile, h :: pl)] ∧
        (pkgPresent s (tilePkg (slotTile p.src)) = true → ∀ l, tget s.launches (launchKey ctx p.launch) = some l →
          (launchAt u ctx p.launch).counter = l.counter - 1)) ∧
    (Taken s id p 4 h pl → cancelled s tile ctx p.launch (hdrTag h) = false →
      (∀ e, routineEntry s tile ctx (pl.getD 0 0).toNat = some e →
        (spawnQueued s p.dst < 64 → queuedOn s tile ctx < 65535 → ∃ u x q, exec (.spawnMessage id) s = .next u ∧ arrived s u id ∧ u.mem = s.mem ∧
          (coreAt u p.dst).entries = (coreAt s p.dst).entries ++ [x] ∧ MadeFrom x e ctx p.launch 2 h pl ∧
          (launchAt u ctx p.launch).counter = (launchAt s ctx p.launch).counter + counts s p ∧ q ∈ u.net ∧ q.dst = slotCore p.src ∧
          q.body = .reply id (Reply.value 0)) ∧
        (64 ≤ spawnQueued s p.dst ∨ 65535 ≤ queuedOn s tile ctx → ∃ u q, exec (.spawnMessage id) s = .next u ∧ arrived s u id ∧ u.mem = s.mem ∧
          (coreAt u p.dst).entries = (coreAt s p.dst).entries ∧ q ∈ u.net ∧ q.dst = slotCore p.src ∧
          q.body = .reply id (Reply.value 1))) ∧
      (routineEntry s tile ctx (pl.getD 0 0).toNat = none → ∃ u q, exec (.spawnMessage id) s = .next u ∧ arrived s u id ∧
        (coreAt u p.dst).entries = (coreAt s p.dst).entries ∧ q ∈ u.net ∧ q.dst = slotCore p.src ∧
        q.body = .reply id (Reply.value 2) ∧ Reported u back 3 1)) ∧
    (Taken s id p 1 h pl → taskAt s (handlerKey p.dst) = none → queuedOn s tile ctx < 65535 →
      let name : Word := BitVec.ofNat 32 (pl.getD 0 0).toNat
      let cls := (pl.getD 0 0).toNat / 2 ^ 32 % 2 ^ 8
      ((tget s.launches (launchKey ctx name)).isSome = true → ∃ u, exec (.launch id) s = .next u ∧ arrived s u id ∧
        (coreAt u p.dst).entries = (coreAt s p.dst).entries ∧ Reported u back 5 1) ∧
      (tget s.launches (launchKey ctx name) = none →
        (routineEntry s tile ctx cls = none → ∃ u, exec (.launch id) s = .next u ∧ arrived s u id ∧
          (coreAt u p.dst).entries = (coreAt s p.dst).entries ∧ Reported u back 3 1) ∧
        (∀ e, routineEntry s tile ctx cls = some e → ∃ u x l, exec (.launch id) s = .next u ∧ arrived s u id ∧ u.mem = s.mem ∧
          (coreAt u p.dst).entries = (coreAt s p.dst).entries ++ [x] ∧ MadeFrom x e ctx name 0 h pl ∧ x.acquire = true ∧
          tget u.launches (launchKey ctx name) = some l ∧ l.counter = 1 ∧ l.record = pl.getD 1 0 ∧
          l.status = (pl.getD 2 0).toNat ∧ l.core = some p.dst)))

/-- Decrements, the end of a launch and cancels on a tile. A decrement counts a record down, fires it at 1 with a
start entry, and is stray at 0; a launch whose counter is 0 ends with its status, that of a kill before an error
before a cancel (log 41); a cancel drops the queued starts it covers and leaves its mark. (R112, R113, R116, R117,
R118, R342.) -/
def Obligations.RecordsAndLaunches : Prop :=
  (∀ (id : Nat) (s : State) (p : Packet) (h : Dword) (pl : List Dword), Taken s id p 3 h pl → s.stored →
    let tile := coreTile p.dst
    let off := (pl.getD 0 0).toNat % 2 ^ 20
    let count := lmGet s tile (off + 4) 4
    let data := recordData s tile off (hdrCtx h)
    (count = 0 → ∃ u, exec (.decMessage id) s = .next u ∧ arrived s u id ∧ u.mem = s.mem ∧
      (coreAt u p.dst).stray = min ((coreAt s p.dst).stray + 1) (2 ^ 32 - 1) ∧
      Reported u (if p.body = .own h pl then coreOfFabric (fabricAddr p.dst).toNat else
        coreOfFabric (fabricAddr (slotCore p.src)).toNat) 4 0) ∧
    (1 < count → ∃ u, exec (.decMessage id) s = .next u ∧ arrived s u id ∧ u.stored ∧ lmGet u tile (off + 4) 4 = count - 1 ∧
      (∀ k, k < lmKey tile off + 4 ∨ lmKey tile off + 8 ≤ k → cellGet u.mem k = cellGet s.mem k) ∧
      (∀ c, (coreAt u c).entries = (coreAt s c).entries) ∧
      tget (tileAt u tile).records off = some (data.1, data.2.1, data.2.2 || hdrRel h)) ∧
    (count = 1 → queuedOn s tile data.1 < 65535 →
      cancelled s tile data.1 (BitVec.ofNat 32 (lmGet s tile (off + 8) 4)) data.2.1 = true →
      ∃ u, exec (.decMessage id) s = .next u ∧ arrived s u id ∧ lmGet u tile (off + 4) 4 = lmGet s tile (off + 12) 4 ∧
        (tileAt u tile).postq = (tileAt s tile).postq ∧ ∀ c, (coreAt u c).entries = (coreAt s c).entries) ∧
    (count = 1 → queuedOn s tile data.1 < 65535 →
      cancelled s tile data.1 (BitVec.ofNat 32 (lmGet s tile (off + 8) 4)) data.2.1 = false →
      let home := lmGet s tile off 8 / 2 ^ 21 % 8
      let launch : Word := BitVec.ofNat 32 (lmGet s tile (off + 8) 4)
      ∃ u x, exec (.decMessage id) s = .next u ∧ arrived s u id ∧ u.stored ∧
        lmGet u tile (off + 4) 4 = lmGet s tile (off + 12) 4 ∧
        (∀ k, k < lmKey tile off + 4 ∨ lmKey tile off + 8 ≤ k → cellGet u.mem k = cellGet s.mem k) ∧
        x.how = 3 ∧ x.record = off ∧ x.ctx = data.1 ∧ x.tag = data.2.1 ∧ x.acquire = (data.2.2 || hdrRel h) ∧
        x.launch = launch ∧ x.entry = lmGet s tile off 8 % 2 ^ 20 ∧
        (launchAt u data.1 launch).counter = (launchAt s data.1 launch).counter + 1 ∧
        (home = 7 → (tileAt u tile).postq = (tileAt s tile).postq ++ [x]) ∧
        (home ≠ 7 → (coreAt u (coreKey tile home)).entries = (coreAt s (coreKey tile home)).entries ++ [x]))) ∧
  (∀ (key : Nat) (s : State) (l : Launch), tget s.launches key = some l → (∀ k ∈ s.kills, k.ctx ≠ key / 2 ^ 32) →
    (l.counter ≠ 0 → exec (.launchComplete key) s = .next s) ∧
    (l.counter = 0 →
      let status : Dword := if l.killed then 3 else if l.error then 2 else if l.cancelled then 1 else 0
      let tile := coreTile (l.core.getD 0)
      (l.status = 0 → ∃ u, exec (.launchComplete key) s = .next u ∧ u.mem = s.mem ∧ tget u.launches key = none ∧
        (l.record ≠ 0 → nameOk l.record = true → ∃ q ∈ u.net, q.dst = nameCore l.record ∧
          ∃ h, q.body = .own h [l.record] ∧ hdrClass h = 3)) ∧
      (l.status ≠ 0 → ddrWaits s (tilePkg tile) l.status (key / 2 ^ 32) = false → ∀ old s1, serveWrite s (homeTile s (tilePkg tile) l.status) l.status 8 (key / 2 ^ 32)
          (ctxPriv s (key / 2 ^ 32)) none false (fun _ => some status) = .done old s1 →
        ∃ u, exec (.launchComplete key) s = .next u ∧ u.mem = s1.mem ∧ tget u.launches key = none))) ∧
  (∀ (id : Nat) (s : State) (p : Packet) (level ctx ident : Nat), Arrives s id p → p.body = .cancel level ctx ident →
    ctx < 2 ^ 11 → ∃ u, exec (.cancel id) s = .next u ∧ arrived s u id ∧
      (level ≠ 2 → (level, ctx, ident) ∈ (tileAt u (coreTile p.dst)).cancels) ∧
      (∀ c, coreTile c = coreTile p.dst → ∀ e ∈ (coreAt u c).entries,
        ¬(e.ctx.toNat = ctx ∧ ofLevel level ident e.launch e.tag = true)) ∧
      (∀ e ∈ (tileAt u (coreTile p.dst)).postq, ¬(e.ctx.toNat = ctx ∧ ofLevel level ident e.launch e.tag = true)))

/-- A core's next start, deficits and credits. The entry that R125 picks becomes a task with the registers of R18,
R107 and R345, its message area zero past the payload (log 96); a period adds each active grant's share to its
deficit, several at once where several have begun (log 67); a core lends a credit to the slot that has waited longest.
(R18, R107, R110, R124, R125, R345.) -/
def Obligations.StartsAndCredits : Prop :=
  (∀ (core : Nat) (s : State), pickEntry s core = none ∨ freeSlotOf s core = none →
    exec (.taskStart core) s = .next s) ∧
  (∀ (core n i : Nat) (s : State) (e : Entry) (g : Grant), freeSlotOf s core = some n → pickEntry s core = some e →
    grantOf s (coreTile core) e.ctx = some (i, g) →
    let launch := if e.how = 3 then BitVec.ofNat 32 (lmGet s (coreTile core) (e.record + 8) 4) else e.launch
    (cancelled s (coreTile core) e.ctx launch e.tag = true → ∃ u, exec (.taskStart core) s = .next u ∧ u.mem = s.mem ∧
      u.tasks = s.tasks ∧ (∀ x ∈ (coreAt u core).entries, x.order ≠ e.order)) ∧
    (cancelled s (coreTile core) e.ctx launch e.tag = false → ∃ u t, exec (.taskStart core) s = .next u ∧ taskAt u (slotKey core n) = some t ∧ t.ctx = e.ctx ∧
      t.priv = ctxPriv s e.ctx.toNat ∧ t.pc = BitVec.ofNat 48 e.entry ∧ t.tag = e.tag ∧ t.tlev = 0 ∧
      t.launch = launch ∧
      t.gcount = 8 * (e.gcode.toNat + 1) ∧ t.fcount = 8 * (e.fcode.toNat + 1) ∧ t.p = 1 ∧
      t.budget = budgetOf (if e.how = 3 then recordBexp s (coreTile core) e.ctx e.entry else e.bexp) ∧
      gGet t 2 = stackTop g (coreNum core) n ∧ gGet t 31 = BitVec.ofNat 64 (g.dw2.toNat / 2 ^ 16) ∧
      t.rtab.toNat = g.dw1.toNat / 2 ^ 8 % 2 ^ 20 ∧
      gGet t 3 = BitVec.ofNat 64 (if e.how = 3 then e.record else msgArea g core n) ∧
      (∀ x ∈ (coreAt u core).entries, x.order ≠ e.order))) ∧
  (∀ (tile : Nat) (s : State),
    let now := fabricTime s (tilePkg tile) / 100000
    (now ≤ (tileAt s tile).period → exec (.deficitReplenish tile) s = .next s) ∧
    ((tileAt s tile).period < now → ∃ u, exec (.deficitReplenish tile) s = .next u ∧ u.mem = s.mem ∧
      (tileAt u tile).period = now ∧
      ∀ (n : Nat) (g : Grant), (tileAt s tile).grants[n]? = some g →
        let share : Int := 980000 * grantWeight g /
          (((tileAt s tile).grants.toList.filter (activeGrant s tile)).map grantWeight).sum
        (tileAt u tile).grants[n]? = some { g with
          deficit := if activeGrant s tile g = true then
            min (g.deficit + share * ((now - (tileAt s tile).period : Nat) : Int)) (2 * share) else g.deficit })) ∧
  (∀ (core k cls : Nat) (s : State) (t : Task) (r : List (Nat × Nat)), (coreAt s core).wanted = (k, cls) :: r →
    groupReady s (coreTile core) = true → canLend (coreAt s core) (slotTile k) cls = true → taskAt s k = some t →
    t.pend.want = some (.credit core cls) → (∀ x ∈ (coreAt s core).lent, ¬(x.1 = slotTile k ∧ x.2.1 = cls)) →
    ∃ u, exec (.creditGrant core) s = .next u ∧ (coreAt u core).wanted = r ∧
      (coreAt u core).lent = (coreAt s core).lent ++ [(slotTile k, cls, 1)] ∧
      taskAt u k = some { t with pend := { t.pend with want := none, log := (.credit core cls, Reply.ok) :: t.pend.log } })

/-- Atomics, replies, acknowledgements and elections at their cores. An atomic at its handler leaves its result and
answers the old value or the trap; a reply completes the instruction that waits for it; an acknowledgement settles a
posted atomic; the first ask of an election wins. (R140, R217, R218, R219, R220, R221, R223.) -/
def Obligations.AtomicsPerformed : Prop :=
  (∀ (id : Nat) (s : State) (p : Packet) (place : Option (Bool × Nat × Nat)) (va size ctx : Nat) (priv : BitVec 2) (op : Nat)
      (data cmp : Dword) (posted : Bool) (tag : BitVec 5), Arrives s id p →
    p.body = .atomic place va size ctx priv op data cmp posted tag → taskAt s (handlerKey p.dst) = none →
    pkgPresent s (tilePkg (slotTile p.src)) = true → ctxLive s ctx = true →
    let i : Instr := if op = 16 then .casMessage id else .amo id
    let answered (u : State) (cause : Cause) (old : Dword) : Prop := ∃ q ∈ u.net, q.dst = slotCore p.src ∧
      ((posted = false ∧ q.body = .reply id { cause := cause, val := old, data := [] }) ∨
       (posted = true ∧ ∃ uid, q.body = .ack id uid cause (BitVec.ofNat 64 va)))
    (∀ vault tile off, place = some (vault, tile, off) → placedCause s (BitVec.ofNat 11 ctx) vault tile off = none →
      spoiltAt s (placeKey vault tile off) size = false →
      let old : Dword := BitVec.ofNat 64 (storeGet s (placeKey vault tile off) size)
      ∃ u, exec i s = .next u ∧ arrived s u id ∧ answered u 0 old ∧
        u.mem = (match atomicNew op size data cmp old with
          | some v => cellsPut s.mem (placeKey vault tile off) size v.toNat
          | none => s.mem)) ∧
    (∀ vault tile off c, place = some (vault, tile, off) → placedCause s (BitVec.ofNat 11 ctx) vault tile off = some c →
      ∃ u, exec i s = .next u ∧ arrived s u id ∧ answered u c 0 ∧ u.mem = s.mem) ∧
    (place = none →
      (∀ old s1, serveWrite s (coreTile p.dst) va size ctx priv none true (atomicNew op size data cmp) = .done old s1 →
        ∃ u, exec i s = .next u ∧ answered u 0 old ∧ u.mem = s1.mem) ∧
      (∀ c v s1, serveWrite s (coreTile p.dst) va size ctx priv none true (atomicNew op size data cmp) = .trap c v s1 →
        ∃ u, exec i s = .next u ∧ answered u c 0 ∧ u.mem = s.mem))) ∧
  (∀ (id req k : Nat) (s : State) (p : Packet) (r : Reply) (t : Task) (w : Want), arriving s id = some p →
    p.body = .reply req r → waiterOf s p.dst req = k → taskAt s k = some t → t.pend.req = req → t.pend.want = some w →
    t.inl = none →
    let t' := { t with pend := { t.pend with want := none, log := (w, r) :: t.pend.log } }
    let s' := { putTask (dropPacket s id) k t' with here := k }
    (∀ i op dst, currentInstr s' k = some i → atomicOp i = some op → op.posted = false → Executes i op.guard s' t' →
      Addressed t' op.base (gGet t op.base) op.size → performer s' (gGet t op.base).toNat = some dst →
      performsItself s' t' (gGet t op.base).toNat = false → t.pubs = [] →
      ownSettled s' t' (gGet t op.base).toNat op.size = true → ownOut s' t' 1 (gGet t op.base).toNat op.size = false →
      ownOut s' t' 2 (gGet t op.base).toNat op.size = false →
      w = .atomic (gGet t op.base).toNat op.size op.op (gGet t op.operand) (op.expects t) → r.cause = 0 →
      exec (.atomicReply id) s = .next (retire s' (gSet t' op.dest r.val) 4)) ∧
    (∀ a b d g, currentInstr s' k = some (.spawn b a d g) → Executes (.spawn b a d g) g s' t' → 32 ≤ (gGet t b).toNat →
      (gGet t b).toNat ≤ 255 → (gGet t a).toNat < 2 ^ 23 → (gGet t a).toNat % 8 ≤ 3 →
      pkgPresent s ((gGet t a).toNat / 2 ^ 13) = true → groupFailed s' (coreTile (coreOfFabric (gGet t a).toNat)) = false →
      coreOfFabric (gGet t a).toNat ≠ slotCore k →
      w = .spawn (coreOfFabric (gGet t a).toNat) (gGet t b).toNat →
      (r.val = 0 → exec (.spawnReply id) s = .next (retire s' (gSet t' d 1) 4)) ∧
      (r.val = 3 → exec (.spawnReply id) s = .next (retire s' (gSet t' d 3) 4)))) ∧
  (∀ (id aid uid k : Nat) (s : State) (p : Packet) (cause : Cause) (va : Dword) (t : Task), Arrives s id p →
    p.body = .ack aid uid cause va → taskAt s k = some t →
    ∃ u v, exec (.postedAtomicAck id) s = .next u ∧ arrived s u id ∧ u.mem = s.mem ∧ taskAt u k = some v ∧ v.g = t.g ∧
      v.pc = t.pc ∧ v.outs = t.outs.filter (fun o => o.id != aid) ∧
      v.refused = (if (∃ o ∈ t.outs, o.id = aid) ∧ cause ≠ 0 ∧ t.refused = none then some (cause, va) else t.refused)) ∧
  (∀ (id ctx launch : Nat) (key : Dword) (s : State) (p : Packet) (t : Task) (w : Want), Arrives s id p →
    p.body = .elect ctx launch key → pkgPresent s (tilePkg (slotTile p.src)) = true → taskAt s p.src = some t →
    t.pend.req = id → t.pend.want = some w →
    let l := (tileAt s (coreTile p.dst)).elections
    let given (v : Dword) : Task :=
      { t with pend := { t.pend with want := none, log := (w, Reply.value v) :: t.pend.log } }
    ((ctx, launch, key) ∈ l → ∃ u, exec (.electRequest id) s = .next u ∧ arrived s u id ∧ taskAt u p.src = some (given 0) ∧
      (tileAt u (coreTile p.dst)).elections = l) ∧
    ((ctx, launch, key) ∉ l → l.length < 256 → ∃ u, exec (.electRequest id) s = .next u ∧ arrived s u id ∧
      taskAt u p.src = some (given 1) ∧ (tileAt u (coreTile p.dst)).elections = l ++ [(ctx, launch, key)]) ∧
    ((ctx, launch, key) ∉ l → 256 ≤ l.length → exec (.electRequest id) s = .next s))

/-- Declarations, the end of a phase, its successor and event rings. A declaration adds its count; a phase that is
over on all its tiles ends with the OR of their status bits and, in PHDONE, the combination of their line words, and
tells its successor; the successor starts; a TRAPEV takes a place of the context's event ring, or is counted as
dropped. (R119, R120, R121, R122, R126, R142, R145, R146, R362.) -/
def Obligations.PhasesAndEvents : Prop :=
  (∀ (id n count succ core : Nat) (seq launch : Word) (ctx : BitVec 11) (tiles : List Nat) (s : State) (p : Packet),
    Arrives s id p → p.body = .declare n count seq succ core launch ctx tiles → n < 16 → ctxLive s ctx.toNat = true →
    let q := phaseAt (tileAt s (coreTile p.dst)) n
    ∃ u, exec (.phaseDeclaration id) s = .next u ∧ arrived s u id ∧ u.mem = s.mem ∧
      let v := phaseAt (tileAt u (coreTile p.dst)) n
      v.decl = true ∧ v.remain = max (q.remain + count) 0 ∧
        (q.decl = false → v.seq = seq ∧ v.succ = succ ∧ v.core = core ∧ v.launch = launch ∧ v.ctx = ctx ∧ v.tiles = tiles ∧
          v.ovr = (q.ovr || decide (q.remain + count < 0))) ∧
        (q.decl = true → v.seq = q.seq ∧ v.succ = q.succ ∧ v.ovr = true ∧ ∀ x ∈ tiles, x ∈ v.tiles)) ∧
  (∀ (tile : Nat) (n : BitVec 4) (s : State),
    (phaseOver s tile n.toNat = false → exec (.phaseComplete tile n) s = .next s) ∧
    (phaseOver s tile n.toNat = true → ∃ u, ∃ status : BitVec 4, ∃ word : Dword, exec (.phaseComplete tile n) s = .next u ∧
      u.mem = s.mem ∧
      (∀ b, b < 4 → (status.getLsbD b = true ↔ ∃ x ∈ phaseTiles s tile n.toNat,
        (phaseAt (tileAt s x) n.toNat).status.getLsbD b = true ∨ (b = 1 ∧ (phaseAt (tileAt s x) n.toNat).ovr = true))) ∧
      LineCombined s (phaseTiles s tile n.toNat) n.toNat word ∧
      ∀ x ∈ phaseTiles s tile n.toNat,
        let q := phaseAt (tileAt s x) n.toNat
        let v := phaseAt (tileAt u x) n.toNat
        v.decl = false ∧ v.remain = 0 ∧ v.ovr = false ∧ v.done = q.done + 1 ∧ v.lstat = status ∧ v.lwres = word ∧
          (q.succ ≠ 0 → ∃ m ∈ u.net, m.dst = coreKey x q.core ∧ ∃ h, m.body = .own h [status.setWidth 64, q.seq.setWidth 64,
            BitVec.ofNat 64 n.toNat, word, BitVec.ofNat 64 q.succ] ∧ hdrClass h = 13))) ∧
  (∀ (core : Nat) (s : State) (p : Packet) (h : Dword) (pl : List Dword),
    s.net.find? (fun q => q.dst == core && (match q.body with
      | .own h _ => hdrClass h == 13
      | _ => false)) = some p → p.body = .own h pl →
    let gone := cancelled s (coreTile core) (hdrCtx h) p.launch 16
    (ctxLive s (hdrCtx h).toNat = false ∨ gone = true → exec (.phdone core) s = .next (dropPacket s p.id)) ∧
    (ctxLive s (hdrCtx h).toNat = true → gone = false → accepts s (coreTile core) (hdrCtx h) = true →
      queuedOn s (coreTile core) (hdrCtx h) < 65535 → ownCredit s p = true →
    (∀ e, routineEntry s (coreTile core) (hdrCtx h) (pl.getD 4 0).toNat = some e →
      ∃ x, exec (.phdone core) s = .next (startNext (enqueue (launchUp (dropPacket s p.id) (hdrCtx h) p.launch) core x) core) ∧
        x.ctx = hdrCtx h ∧ x.launch = p.launch ∧ x.how = 4 ∧ x.entry = e.toNat % 2 ^ 20 ∧ x.acquire = true ∧ x.tag = 16 ∧
        x.payload = pl.take 3 ++ [pl.getD 3 0]) ∧
    (routineEntry s (coreTile core) (hdrCtx h) (pl.getD 4 0).toNat = none → ∃ u, exec (.phdone core) s = .next u ∧
      arrived s u p.id ∧ u.mem = s.mem ∧ Reported u (coreOfFabric (fabricAddr core).toNat) 3 1))) ∧
  (∀ (id : Nat) (s : State) (p : Packet) (h a b c d : Dword), Arrives s id p →
    p.body = .msg h [a, b, c, d] ∨ p.body = .own h [a, b, c, d] → hdrClass h = 15 → s.stored →
    let tile := coreTile p.dst
    (pkgPresent s (tilePkg tile) = false → ∃ u, exec (.trapev id) s = .next u ∧ arrived s u id ∧ u.mem = s.mem ∧
      u.inbox = s.inbox ++ [(tilePkg tile, [a, b, c, d])]) ∧
    (pkgPresent s (tilePkg tile) = true →
      (grantOf s tile (hdrCtx h) = none → ∃ u, exec (.trapev id) s = .next u ∧ arrived s u id ∧ u.mem = s.mem ∧
        (tileAt u tile).trapevDrops = min ((tileAt s tile).trapevDrops + 1) (2 ^ 32 - 1)) ∧
      (∀ i g, grantOf s tile (hdrCtx h) = some (i, g) →
        let rt := g.dw1.toNat / 2 ^ 8 % 2 ^ 20
        let n := lmGet s tile (rt + 1800) 4 % 32
        (2 ^ 63 ≤ lmGet s tile (rt + 2048 + 32 * n) 8 → ∃ u, exec (.trapev id) s = .next u ∧ arrived s u id ∧
          lmGet u tile (rt + 1804) 4 = (lmGet s tile (rt + 1804) 4 + 1) % 2 ^ 32 ∧
          (∀ k, k < lmKey tile (rt + 1804) ∨ lmKey tile (rt + 1808) ≤ k → cellGet u.mem k = cellGet s.mem k)) ∧
        (lmGet s tile (rt + 2048 + 32 * n) 8 < 2 ^ 63 → ∃ u, exec (.trapev id) s = .next u ∧ arrived s u id ∧
          lmGet u tile (rt + 2048 + 32 * n) 8 = a.toNat ∧ lmGet u tile (rt + 2056 + 32 * n) 8 = b.toNat ∧
          lmGet u tile (rt + 2064 + 32 * n) 8 = c.toNat ∧ lmGet u tile (rt + 2072 + 32 * n) 8 = d.toNat ∧
          lmGet u tile (rt + 1800) 4 = (n + 1) % 32))))

/-- Lines, registrations, revokes, recalls and write-backs. A home answers a line request with its words, gathering
those that others own; a fill enters the L1 and answers the waiting load; a registration makes its core the one owner;
a recall and a write-back bring the owner's value to storage. A fill is not installed over a newer copy (log 74), and
SPECULATIVE_REPLAY leaves every state as it is (log 8). (R196, R201, R202, R203, R204, R211, R212, R213, R214, R216.)
-/
def Obligations.Coherence : Prop :=
  LinesServedPart ∧ FillsArrivePart ∧ WordsOwnedPart

/-- Accesses at their home, waiting LDFs and SEMPs, allocations and shootdowns. A strong access is made at its home, a
placed access at its tile, each answered, and an older copy in the core of a strong load goes (log 74); a waiting LDF
or SEMP is served when its word is full or its count is not 0; an allocation answers the block of a tree entry; a
shootdown drops the CLB's entries. (R199, R205, R214, R215, R226, R227, R228, R240, R241, R247, R248, R251.) -/
def Obligations.AccessesServed : Prop :=
  AccessesServedPart ∧ WaitersServedPart ∧ BlocksServedPart

/-- Kill records, budgets, terminations, leaves, epochs and the watchdog. A killed context's record goes to its kill
ring once nothing of it is in flight, and no task of it is left then; a budget of 0 begins the grace and its end
terminates the task; a leaving grant is saved when it is idle; the epoch follows the fabric time; the watchdog traps
the engine tasks. The record of a partition without a kill ring goes to State.manager (log 34), and a save lies at
GSAVE as it then stands (log 46). (R259, R262, R341, R342, R343, R344, R347, R348, R354.) -/
def Obligations.DeviceTimers : Prop :=
  KillRecordsPart ∧ DeviceTimersPart

/-- Gangs: slices, launches, acknowledgements and stops. A SLICE, the start of its time, the grace, its end, a
GLAUNCH, ACK, LATE and STOP change the coordinator's slice, the grants' PRE bits and the messages to the members as
R370 to R373 say, and write the status words. The grants of the gang that SLICE installs, a GLAUNCH without a grant,
the deadline of ACK and the statuses that are owed are the model's reading (log 60). (R370, R371, R372, R373.) -/
def Obligations.Gangs : Prop :=
  GangSlicesPart ∧ GangLaunchesPart

/-- Bring-up, management and resets. Readiness, a training failure, the verification of the image, which leaves the
floor as it was, management reads and writes, attestation and the three resets leave what their rules say. The running
firmware's raise of the floor is the same event with SEC set (log 99, the model's choice). What a reset leaves where
no rule says is the model's (log 16). (R151, R181, R251, R375, R376, R377, R378.) -/
def Obligations.BringUpAndResets : Prop :=
  BringUpPart ∧ ResetsPart

/-- Errors, fences, failed links and power. A fence, corrected errors, a failed link, power steps and thermal limits
leave what their rules say. The layout of a fence's address and what a found error spoils are log 62, the answers of a
lost route log 92, and the power step of all four dies log 63, all of them the model's choices. (R338, R369, R379,
R380, R381.) -/
def Obligations.ErrorsAndPower : Prop :=
  ErrorsPart ∧ PowerPart

/-- Landings of each transform. For each of the five transforms a landing that stays in one bank of its context leaves
its data there, as sent, converted, added, with full bits or as a column, and every other byte as it was, may fill a
block of the post buffer, and decrements the record it names; an offending element is an error of its phase and
launch; one that does not fit is counted, reported and discarded, and is an error of its phase and launch (log 65).
(R41, R109, R117, R361.) -/
def Obligations.Landings : Prop :=
  (∀ (id : Nat) (s : State) (p : Packet) (h w : Dword) (data : List Dword),
    Lands s id p h w data 0 (8 * data.length) → s.stored →
    let tile := coreTile p.dst
    ∃ u, exec (.landingPlain id) s = .next u ∧ arrived s u id ∧ LeftAsSent s u (lmKey tile (landOff w)) data ∧
      u.full = s.full ∧
      ∀ b, blockOf (tileAt s tile) (landOff w, 8 * data.length) = some b →
        (tileAt u tile).blocks = (tileAt s tile).blocks ++ [{ off := b, slot := tilePkg (slotTile p.src) }]) ∧
  (∀ (id : Nat) (s : State) (p : Packet) (h w : Dword) (data : List Dword),
    Lands s id p h w data 3 (8 * data.length) → s.stored →
    let key := lmKey (coreTile p.dst) (landOff w)
    ∃ u, exec (.landingSetf id) s = .next u ∧ arrived s u id ∧ LeftAsSent s u key data ∧
      ∀ k, k ∈ u.full ↔ k ∈ s.full ∨ k ∈ wordsOf key (8 * data.length)) ∧
  (∀ (id : Nat) (s : State) (p : Packet) (h w : Dword) (data : List Dword),
    Lands s id p h w data 4 1 → s.stored → data ≠ [] →
    (landOff w + 32 * landRow w + landCol w) / 2 ^ 16 = landOff w / 2 ^ 16 →
    (landOff w + 32 * (landRow w + 8 * data.length - 1) + landCol w) / 2 ^ 16 = landOff w / 2 ^ 16 →
    let at_ (b : Nat) : Nat := lmKey (coreTile p.dst) (landOff w + 32 * (landRow w + b) + landCol w)
    ∃ u, exec (.landingTrans id) s = .next u ∧ arrived s u id ∧ u.full = s.full ∧
      (∀ j d b, data[j]? = some d → b < 8 → (cellGet u.mem (at_ (8 * j + b))).toNat = d.toNat / 2 ^ (8 * b) % 256) ∧
      (∀ k, (∀ b, b < 8 * data.length → k ≠ at_ b) → cellGet u.mem k = cellGet s.mem k)) ∧
  (∀ (id : Nat) (s : State) (p : Packet) (h w : Dword) (data : List Dword) (e : Elem),
    LandsElems s id p h w data 1 e → s.stored →
    ∃ u, exec (.landingConv id) s = .next u ∧ arrived s u id ∧ LeftConverted s u p h w data e (fun _ new => new)) ∧
  (∀ (id : Nat) (s : State) (p : Packet) (h w : Dword) (data : List Dword) (e : Elem),
    LandsElems s id p h w data 2 e → s.stored →
    ∃ u, exec (.landingAdd id) s = .next u ∧ arrived s u id ∧
      LeftConverted s u p h w data e (addInto (bankElem s (coreTile p.dst) (landOff w)))) ∧
  (∀ (id : Nat) (s : State) (p : Packet) (h w : Dword) (data : List Dword), Landed s id p h w data 0 →
    landRecord w = 0 → data ≠ [] →
    (landOff w / 2 ^ 16 ≠ (landOff w + 8 * data.length - 1) / 2 ^ 16 ∨
      bankHeld s (coreTile p.dst) (hdrCtx h) (landOff w) = false) →
    ∃ u, exec (.landingPlain id) s = .next u ∧ arrived s u id ∧ u.mem = s.mem ∧ u.full = s.full ∧
      (coreAt u p.dst).landDisc = min ((coreAt s p.dst).landDisc + 1) (2 ^ 32 - 1) ∧
      Reported u (coreOfFabric (fabricAddr (slotCore p.src)).toNat) 6 0 ∧
      ((hdrTag h).getLsbD 4 = false → (phaseAt (tileAt u (coreTile p.dst)) (hdrTag h).toNat).status.getLsbD 0 = true) ∧
      ((tget s.launches (launchKey (hdrCtx h) p.launch)).isSome = true → (launchAt u (hdrCtx h) p.launch).error = true)) ∧
  (∀ (id : Nat) (s : State) (p : Packet) (h w : Dword) (i : Instr) (xf : Nat), Landed s id p h w [] xf →
    (xf = 0 ∧ i = .landingPlain id) ∨ (xf = 1 ∧ i = .landingConv id) ∨ (xf = 2 ∧ i = .landingAdd id) ∨
      (xf = 3 ∧ i = .landingSetf id) ∨ (xf = 4 ∧ i = .landingTrans id) → s.stored →
    let tile := coreTile p.dst
    let count := lmGet s tile (landRecord w + 4) 4
    landRecord w ≠ 0 → 1 < count →
    ∃ u, exec i s = .next u ∧ arrived s u id ∧ lmGet u tile (landRecord w + 4) 4 = count - 1)

/-- Accesses of a command, and one element of COPY, GATH, SCAT, CONVT, COMPRESS and BFPA. A read or write of a command
is made, faults with the kind of R255, waits, or, for a Dray command's read that meets XLATE, suspends; an element is
converted and written, dropped or recorded as offending; an element of COPY, GATH, SCAT, SCAT.ADD and CONVT moves one
value, a group of COMPRESS leaves its kept elements and their metadata, a block of BFPA its sums under one scale;
shapes that do not match take kind 6. The kind of an error that has been found is log 62; the size of a step is the
model's (log 9). (R41, R42, R254, R255, R256, R258, R267, R270, R271, R276, R277, R278.) -/
def Obligations.EngineSteps : Prop :=
  EngineAccessesPart ∧ EngineElementsPart ∧ ElementsWrittenPart ∧ ConversionsRunPart

/-- One element of KAGG, KAGG.O, KBCAST, KFOLD, KDIRTY and KISECT. KAGG adds a pair at the owner of its cell and may
log it, KAGG.O stages it, KBCAST writes a row, KFOLD folds the stripes of a key into stripe 0, KDIRTY reads the change
ring, KISECT writes the pairs of equal entries and closes with row 0; staged elements are applied in order; an entry
of the change log is made or counted, and tried again while its home refuses it (log 100). The size of a step is the
model's (log 9). (R305, R311, R315, R322, R323, R324, R325, R326, R327, R328, R329.) -/
def Obligations.JoinSteps : Prop :=
  JoinStepsPart ∧ FoldsRunPart ∧ DirtyKeysRunPart ∧ MergesRunPart

/-- Completion, late faults, suspension, MCMD, XFORM, FLQ and flash completions. A command that has ended signals its
semaphore, one that faults holds its place and drops its task's queued ones, one that misses a page suspends, and the
task takes ENGINE, QUEUE or XLATE; an MCMD or XFORM enters the ring or is rejected with its reason; FLQ checks,
translates and submits its entry; a flash completion takes its place in the completion queue, and a Read's data lands.
When data moves, and the layout of FLDONE's payload, a pair and the two doublewords of the completion entry, are log
58. (R251, R254, R255, R258, R261, R264, R265, R275, R284, R339, R365, R366.) -/
def Obligations.CommandEnds : Prop :=
  CommandEndsPart ∧ RemoteCommandsPart ∧ FlashCommandsRunPart

/-- MMA, MMAS, MLDACC and MSTACC, and an entry of the stash. MMA and MMAS leave in their accumulator the sums of R43
over their operands, from 0 or the old value; malformed metadata takes kind 7; MLDACC loads an accumulator and MSTACC
stores it; STASH writes an entry into the ring, UNSTASH brings it back with its words full and frees it, and waits for
one that is read back from flash. Where an entry lies in the ring is log 59. (R43, R281, R282, R283, R287, R293, R295,
R297, R298, R299, R367.) -/
def Obligations.MatrixAndStash : Prop :=
  MatrixAndStashPart ∧ AccumulatorsRunPart
end

