-- ==== Sys2Proof/Laws/Cells.lean ====
section
/-!
SUPPORT. Sys2Proof/Laws/Cells.lean: storage: reads after writes, and the canonical form that every operation keeps.
-/

namespace Sys2Proof.Machine

theorem cellsAbove_mono (m : List (Nat × Byte)) (a b : Nat) (h : cellsAbove b m = true) (hab : a ≤ b) :
    cellsAbove a m = true := by
  cases m with
  | nil => rfl
  | cons x r =>
    simp only [cellsAbove, Bool.and_eq_true, decide_eq_true_eq] at h ⊢
    exact ⟨⟨by omega, h.1.2⟩, h.2⟩

theorem cellGet_above (m : List (Nat × Byte)) (b k : Nat) (h : cellsAbove b m = true) (hk : k < b) :
    cellGet m k = Config.emptyByte := by
  induction m generalizing b with
  | nil => rfl
  | cons x r ih =>
    simp only [cellsAbove, Bool.and_eq_true, decide_eq_true_eq] at h
    simp only [cellGet]
    rw [if_neg (by omega)]
    exact ih _ h.2 (by omega)

theorem cellPut_above (m : List (Nat × Byte)) (b k : Nat) (v : Byte) (h : cellsAbove b m = true) (hb : b ≤ k) :
    cellsAbove b (cellPut m k v) = true := by
  induction m generalizing b with
  | nil =>
    simp only [cellPut]
    split
    · rfl
    · next hv => simp [cellsAbove, hv, hb]
  | cons x r ih =>
    simp only [cellsAbove, Bool.and_eq_true, decide_eq_true_eq] at h
    simp only [cellPut]
    split
    · next e =>
      split
      · exact cellsAbove_mono _ _ _ h.2 (by omega)
      · next hv => subst e; simp only [cellsAbove, Bool.and_eq_true, decide_eq_true_eq]; exact ⟨⟨hb, hv⟩, h.2⟩
    · split
      · split
        · simp only [cellsAbove, Bool.and_eq_true, decide_eq_true_eq]; exact h
        · next hv =>
          simp only [cellsAbove, Bool.and_eq_true, decide_eq_true_eq]
          exact ⟨⟨hb, hv⟩, ⟨by omega, h.1.2⟩, h.2⟩
      · simp only [cellsAbove, Bool.and_eq_true, decide_eq_true_eq]
        exact ⟨h.1, ih _ h.2 (by omega)⟩

/-- Writing a byte keeps the canonical form. -/
theorem cellPut_wf (m : List (Nat × Byte)) (k : Nat) (v : Byte) (h : Memory.wf m = true) :
    Memory.wf (cellPut m k v) = true := cellPut_above m 0 k v h (Nat.zero_le k)

/-- Writing bytes keeps the canonical form. -/
theorem cellsPut_wf (m : List (Nat × Byte)) (k n v : Nat) (h : Memory.wf m = true) :
    Memory.wf (cellsPut m k n v) = true := by
  induction n generalizing m k v with
  | zero => exact h
  | succ n ih => exact ih _ _ _ (cellPut_wf _ _ _ h)

/-- Taking cells away keeps the canonical form. -/
theorem filter_wf (m : List (Nat × Byte)) (f : Nat × Byte → Bool) (h : Memory.wf m = true) :
    Memory.wf (m.filter f) = true := by
  suffices ∀ b, cellsAbove b m = true → cellsAbove b (m.filter f) = true from this 0 h
  clear h
  induction m with
  | nil => intro b h; exact h
  | cons x r ih =>
    intro b h
    simp only [cellsAbove, Bool.and_eq_true, decide_eq_true_eq] at h
    rw [List.filter_cons]
    split
    · simp only [cellsAbove, Bool.and_eq_true, decide_eq_true_eq]
      exact ⟨h.1, ih _ h.2⟩
    · exact cellsAbove_mono _ _ _ (ih _ h.2) (by omega)

/-- A byte that is written reads back, and every other byte reads as before. -/
theorem cellGet_cellPut (m : List (Nat × Byte)) (k j : Nat) (v : Byte) (h : Memory.wf m = true) :
    cellGet (cellPut m k v) j = if k = j then v else cellGet m j := by
  suffices ∀ b, cellsAbove b m = true → cellGet (cellPut m k v) j = if k = j then v else cellGet m j from this 0 h
  clear h
  induction m with
  | nil =>
    intro b _
    simp only [cellPut]
    split
    · next hv => simp [cellGet, hv]
    · simp [cellGet]
  | cons x r ih =>
    intro b h
    obtain ⟨i, w⟩ := x
    simp only [cellsAbove, Bool.and_eq_true, decide_eq_true_eq] at h
    simp only [cellPut]
    split
    · next e =>
      subst e
      split
      · next hv =>
        simp only [cellGet]
        split
        · next e => subst e; rw [cellGet_above r (k + 1) k h.2 (by omega), hv]
        · rfl
      · simp only [cellGet]; split <;> rfl
    · next hne =>
      split
      · next hlt =>
        split
        · next hv =>
          split
          · next e =>
            subst e
            simp only [cellGet]
            rw [if_neg (by omega), cellGet_above r (i + 1) k h.2 (by omega), hv]
          · rfl
        · simp only [cellGet]
      · simp only [cellGet]
        split
        · next e => rw [if_neg (by omega)]
        · exact ih _ h.2

/-- Bytes that are written leave every other byte. -/
theorem cellGet_cellsPut_out (m : List (Nat × Byte)) (k n v j : Nat) (h : Memory.wf m = true) (hj : j < k ∨ k + n ≤ j) :
    cellGet (cellsPut m k n v) j = cellGet m j := by
  induction n generalizing m k v with
  | zero => rfl
  | succ n ih =>
    simp only [cellsPut]
    rw [ih _ _ _ (cellPut_wf _ _ _ h) (by omega), cellGet_cellPut _ _ _ _ h, if_neg (by omega)]

/-- A byte below those that are written later reads as before. -/
theorem cellsGet_cellsPut_low (m : List (Nat × Byte)) (k n v : Nat) (h : Memory.wf m = true) :
    cellsGet (cellsPut m k n v) k n = v % 2 ^ (8 * n) := by
  induction n generalizing m k v with
  | zero => simp [cellsGet, Nat.mod_one]
  | succ n ih =>
    simp only [cellsPut, cellsGet]
    rw [ih _ _ _ (cellPut_wf _ _ _ h), cellGet_cellsPut_out _ _ _ _ _ (cellPut_wf _ _ _ h) (by omega),
      cellGet_cellPut _ _ _ _ h, if_pos rfl, BitVec.toNat_ofNat, Nat.mul_add, Nat.pow_add]
    rw [show 2 ^ (8 * n) * 2 ^ (8 * 1) = 256 * 2 ^ (8 * n) from Nat.mul_comm (2 ^ (8 * n)) 256, Nat.mod_mul]

end Sys2Proof.Machine
end

