-- ==== Sys2Proof/Laws/Decode.lean ====
section
/-!
SUPPORT. Sys2Proof/Laws/Decode.lean: fields of a word put together from its fields, and which decoder a major opcode picks.
-/

set_option linter.unusedSimpArgs false

namespace Sys2Proof.Laws

set_option Elab.async false

/-- A field that lies in the lower part of a word. -/
theorem extract_append_low {n m : Nat} (x : BitVec n) (y : BitVec m) (s l : Nat) (h : s + l ≤ m) :
    (x ++ y).extractLsb' s l = y.extractLsb' s l := by
  ext i hi
  simp only [BitVec.getElem_extractLsb', BitVec.getLsbD_append]
  rw [if_pos (by omega)]

/-- A field that lies in the upper part of a word. -/
theorem extract_append_high {n m : Nat} (x : BitVec n) (y : BitVec m) (s l : Nat) (h : m ≤ s) :
    (x ++ y).extractLsb' s l = x.extractLsb' (s - m) l := by
  ext i hi
  simp only [BitVec.getElem_extractLsb', BitVec.getLsbD_append]
  rw [if_neg (by omega)]
  congr 1
  omega

/-- A field that is all of a vector. -/
theorem extract_all {n : Nat} (x : BitVec n) : x.extractLsb' 0 n = x := by
  ext i hi
  simp

theorem raw1 (b : Bool) (w : BitVec 32) (h : w.extractLsb' 0 7 = 1#7) : decodeRaw32 b w = decodeAlu w := by
  simp only [decodeRaw32, decodeScalar, h, BitVec.reduceToNat]

theorem raw3 (b : Bool) (w : BitVec 32) (h : w.extractLsb' 0 7 = 3#7) : decodeRaw32 b w = decodeAddi w := by
  simp only [decodeRaw32, decodeScalar, h, BitVec.reduceToNat]

theorem raw5 (b : Bool) (w : BitVec 32) (h : w.extractLsb' 0 7 = 5#7) : decodeRaw32 b w = decodeAndi w := by
  simp only [decodeRaw32, decodeScalar, h, BitVec.reduceToNat]

theorem raw7 (b : Bool) (w : BitVec 32) (h : w.extractLsb' 0 7 = 7#7) : decodeRaw32 b w = decodeOri w := by
  simp only [decodeRaw32, decodeScalar, h, BitVec.reduceToNat]

theorem raw9 (b : Bool) (w : BitVec 32) (h : w.extractLsb' 0 7 = 9#7) : decodeRaw32 b w = decodeXori w := by
  simp only [decodeRaw32, decodeScalar, h, BitVec.reduceToNat]

theorem raw11 (b : Bool) (w : BitVec 32) (h : w.extractLsb' 0 7 = 11#7) : decodeRaw32 b w = decodeShi w := by
  simp only [decodeRaw32, decodeScalar, h, BitVec.reduceToNat]

theorem raw13 (b : Bool) (w : BitVec 32) (h : w.extractLsb' 0 7 = 13#7) : decodeRaw32 b w = decodeMovi w := by
  simp only [decodeRaw32, decodeScalar, h, BitVec.reduceToNat]

theorem raw15 (b : Bool) (w : BitVec 32) (h : w.extractLsb' 0 7 = 15#7) : decodeRaw32 b w = decodeMovs w := by
  simp only [decodeRaw32, decodeScalar, h, BitVec.reduceToNat]

theorem raw17 (b : Bool) (w : BitVec 32) (h : w.extractLsb' 0 7 = 17#7) : decodeRaw32 b w = decodeUnop w := by
  simp only [decodeRaw32, decodeScalar, h, BitVec.reduceToNat]

theorem raw19 (b : Bool) (w : BitVec 32) (h : w.extractLsb' 0 7 = 19#7) : decodeRaw32 b w = decodeBfx w := by
  simp only [decodeRaw32, decodeScalar, h, BitVec.reduceToNat]

theorem raw21 (b : Bool) (w : BitVec 32) (h : w.extractLsb' 0 7 = 21#7) : decodeRaw32 b w = decodeBfi w := by
  simp only [decodeRaw32, decodeScalar, h, BitVec.reduceToNat]

theorem raw23 (b : Bool) (w : BitVec 32) (h : w.extractLsb' 0 7 = 23#7) : decodeRaw32 b w = decodeCmp w := by
  simp only [decodeRaw32, decodeScalar, h, BitVec.reduceToNat]

theorem raw25 (b : Bool) (w : BitVec 32) (h : w.extractLsb' 0 7 = 25#7) : decodeRaw32 b w = decodeCmpi w := by
  simp only [decodeRaw32, decodeScalar, h, BitVec.reduceToNat]

theorem raw27 (b : Bool) (w : BitVec 32) (h : w.extractLsb' 0 7 = 27#7) : decodeRaw32 b w = decodePlog w := by
  simp only [decodeRaw32, decodeScalar, h, BitVec.reduceToNat]

theorem raw29 (b : Bool) (w : BitVec 32) (h : w.extractLsb' 0 7 = 29#7) : decodeRaw32 b w = decodeLea w := by
  simp only [decodeRaw32, decodeScalar, h, BitVec.reduceToNat]

theorem raw31 (b : Bool) (w : BitVec 32) (h : w.extractLsb' 0 7 = 31#7) : decodeRaw32 b w = decodeFalu w := by
  simp only [decodeRaw32, decodeScalar, h, BitVec.reduceToNat]

theorem raw33 (b : Bool) (w : BitVec 32) (h : w.extractLsb' 0 7 = 33#7) : decodeRaw32 b w = decodeFma w := by
  simp only [decodeRaw32, decodeScalar, h, BitVec.reduceToNat]

theorem raw35 (b : Bool) (w : BitVec 32) (h : w.extractLsb' 0 7 = 35#7) : decodeRaw32 b w = decodeFnma w := by
  simp only [decodeRaw32, decodeScalar, h, BitVec.reduceToNat]

theorem raw37 (b : Bool) (w : BitVec 32) (h : w.extractLsb' 0 7 = 37#7) : decodeRaw32 b w = decodeFcvt w := by
  simp only [decodeRaw32, decodeScalar, h, BitVec.reduceToNat]

theorem raw39 (b : Bool) (w : BitVec 32) (h : w.extractLsb' 0 7 = 39#7) : decodeRaw32 b w = decodeFrnd w := by
  simp only [decodeRaw32, decodeScalar, h, BitVec.reduceToNat]

theorem raw41 (b : Bool) (w : BitVec 32) (h : w.extractLsb' 0 7 = 41#7) : decodeRaw32 b w = decodeFcmp w := by
  simp only [decodeRaw32, decodeScalar, h, BitVec.reduceToNat]

theorem raw43 (b : Bool) (w : BitVec 32) (h : w.extractLsb' 0 7 = 43#7) : decodeRaw32 b w = decodeLd w := by
  simp only [decodeRaw32, decodeScalar, h, BitVec.reduceToNat]

theorem raw45 (b : Bool) (w : BitVec 32) (h : w.extractLsb' 0 7 = 45#7) : decodeRaw32 b w = decodeSt w := by
  simp only [decodeRaw32, decodeScalar, h, BitVec.reduceToNat]

theorem raw47 (b : Bool) (w : BitVec 32) (h : w.extractLsb' 0 7 = 47#7) : decodeRaw32 b w = decodeLdf w := by
  simp only [decodeRaw32, decodeScalar, h, BitVec.reduceToNat]

theorem raw49 (b : Bool) (w : BitVec 32) (h : w.extractLsb' 0 7 = 49#7) : decodeRaw32 b w = decodeFeop w := by
  simp only [decodeRaw32, decodeScalar, h, BitVec.reduceToNat]

theorem raw51 (b : Bool) (w : BitVec 32) (h : w.extractLsb' 0 7 = 51#7) : decodeRaw32 b w = decodeAmo w := by
  simp only [decodeRaw32, decodeScalar, h, BitVec.reduceToNat]

theorem raw53 (b : Bool) (w : BitVec 32) (h : w.extractLsb' 0 7 = 53#7) : decodeRaw32 b w = decodeCas w := by
  simp only [decodeRaw32, decodeScalar, h, BitVec.reduceToNat]

theorem raw55 (b : Bool) (w : BitVec 32) (h : w.extractLsb' 0 7 = 55#7) : decodeRaw32 b w = decodeLdc w := by
  simp only [decodeRaw32, decodeScalar, h, BitVec.reduceToNat]

theorem raw57 (b : Bool) (w : BitVec 32) (h : w.extractLsb' 0 7 = 57#7) : decodeRaw32 b w = decodeStc w := by
  simp only [decodeRaw32, decodeScalar, h, BitVec.reduceToNat]

theorem raw59 (b : Bool) (w : BitVec 32) (h : w.extractLsb' 0 7 = 59#7) : decodeRaw32 b w = decodeAmoc w := by
  simp only [decodeRaw32, decodeScalar, h, BitVec.reduceToNat]

theorem raw61 (b : Bool) (w : BitVec 32) (h : w.extractLsb' 0 7 = 61#7) : decodeRaw32 b w = decodeMemctl w := by
  simp only [decodeRaw32, decodeScalar, h, BitVec.reduceToNat]

theorem raw63 (w : BitVec 32) (h : w.extractLsb' 0 7 = 63#7) : decodeRaw32 false w = decodeBr w := by
  simp only [decodeRaw32, decodeScalar, h, BitVec.reduceToNat, Bool.false_eq_true, if_false]

theorem raw63s (w : BitVec 32) (h : w.extractLsb' 0 7 = 63#7) : decodeRaw32 true w = decodeStreamBr w := by
  simp only [decodeRaw32, h, BitVec.reduceToNat, if_true]

theorem raw65 (b : Bool) (w : BitVec 32) (h : w.extractLsb' 0 7 = 65#7) : decodeRaw32 b w = decodeJal w := by
  simp only [decodeRaw32, decodeScalar, h, BitVec.reduceToNat]

theorem raw67 (b : Bool) (w : BitVec 32) (h : w.extractLsb' 0 7 = 67#7) : decodeRaw32 b w = decodeJalr w := by
  simp only [decodeRaw32, decodeScalar, h, BitVec.reduceToNat]

theorem raw69 (w : BitVec 32) (h : w.extractLsb' 0 7 = 69#7) : decodeRaw32 false w = decodeLoop w := by
  simp only [decodeRaw32, decodeScalar, h, BitVec.reduceToNat, Bool.false_eq_true, if_false]

theorem raw69s (w : BitVec 32) (h : w.extractLsb' 0 7 = 69#7) : decodeRaw32 true w = decodeStreamLoop w := by
  simp only [decodeRaw32, h, BitVec.reduceToNat, if_true]

theorem raw71 (b : Bool) (w : BitVec 32) (h : w.extractLsb' 0 7 = 71#7) : decodeRaw32 b w = decodeSend w := by
  simp only [decodeRaw32, decodeScalar, h, BitVec.reduceToNat]

theorem raw73 (b : Bool) (w : BitVec 32) (h : w.extractLsb' 0 7 = 73#7) : decodeRaw32 b w = decodeSendx w := by
  simp only [decodeRaw32, decodeScalar, h, BitVec.reduceToNat]

theorem raw75 (b : Bool) (w : BitVec 32) (h : w.extractLsb' 0 7 = 75#7) : decodeRaw32 b w = decodeSpawn w := by
  simp only [decodeRaw32, decodeScalar, h, BitVec.reduceToNat]

theorem raw77 (b : Bool) (w : BitVec 32) (h : w.extractLsb' 0 7 = 77#7) : decodeRaw32 b w = decodeTask w := by
  simp only [decodeRaw32, decodeScalar, h, BitVec.reduceToNat]

theorem raw79 (b : Bool) (w : BitVec 32) (h : w.extractLsb' 0 7 = 79#7) : decodeRaw32 b w = decodeWork w := by
  simp only [decodeRaw32, decodeScalar, h, BitVec.reduceToNat]

theorem raw81 (b : Bool) (w : BitVec 32) (h : w.extractLsb' 0 7 = 81#7) : decodeRaw32 b w = decodeQsem w := by
  simp only [decodeRaw32, decodeScalar, h, BitVec.reduceToNat]

theorem raw83 (b : Bool) (w : BitVec 32) (h : w.extractLsb' 0 7 = 83#7) : decodeRaw32 b w = decodeTmap w := by
  simp only [decodeRaw32, decodeScalar, h, BitVec.reduceToNat]

theorem raw85 (b : Bool) (w : BitVec 32) (h : w.extractLsb' 0 7 = 85#7) : decodeRaw32 b w = decodeCopy w := by
  simp only [decodeRaw32, decodeScalar, h, BitVec.reduceToNat]

theorem raw87 (b : Bool) (w : BitVec 32) (h : w.extractLsb' 0 7 = 87#7) : decodeRaw32 b w = decodeGath w := by
  simp only [decodeRaw32, decodeScalar, h, BitVec.reduceToNat]

theorem raw89 (b : Bool) (w : BitVec 32) (h : w.extractLsb' 0 7 = 89#7) : decodeRaw32 b w = decodeScat w := by
  simp only [decodeRaw32, decodeScalar, h, BitVec.reduceToNat]

theorem raw91 (b : Bool) (w : BitVec 32) (h : w.extractLsb' 0 7 = 91#7) : decodeRaw32 b w = decodeKops w := by
  simp only [decodeRaw32, decodeScalar, h, BitVec.reduceToNat]

theorem raw93 (b : Bool) (w : BitVec 32) (h : w.extractLsb' 0 7 = 93#7) : decodeRaw32 b w = decodeConv w := by
  simp only [decodeRaw32, decodeScalar, h, BitVec.reduceToNat]

theorem raw95 (b : Bool) (w : BitVec 32) (h : w.extractLsb' 0 7 = 95#7) : decodeRaw32 b w = decodeMma w := by
  simp only [decodeRaw32, decodeScalar, h, BitVec.reduceToNat]

theorem raw97 (b : Bool) (w : BitVec 32) (h : w.extractLsb' 0 7 = 97#7) : decodeRaw32 b w = decodeMacc w := by
  simp only [decodeRaw32, decodeScalar, h, BitVec.reduceToNat]

theorem raw99 (b : Bool) (w : BitVec 32) (h : w.extractLsb' 0 7 = 99#7) : decodeRaw32 b w = decodeBfpa w := by
  simp only [decodeRaw32, decodeScalar, h, BitVec.reduceToNat]

theorem raw101 (b : Bool) (w : BitVec 32) (h : w.extractLsb' 0 7 = 101#7) : decodeRaw32 b w = decodeVault w := by
  simp only [decodeRaw32, decodeScalar, h, BitVec.reduceToNat]

theorem raw103 (b : Bool) (w : BitVec 32) (h : w.extractLsb' 0 7 = 103#7) : decodeRaw32 b w = decodeSys w := by
  simp only [decodeRaw32, decodeScalar, h, BitVec.reduceToNat]

theorem raw105 (b : Bool) (w : BitVec 32) (h : w.extractLsb' 0 7 = 105#7) : decodeRaw32 b w = decodeCsrr w := by
  simp only [decodeRaw32, decodeScalar, h, BitVec.reduceToNat]

theorem raw107 (b : Bool) (w : BitVec 32) (h : w.extractLsb' 0 7 = 107#7) : decodeRaw32 b w = decodeCsrw w := by
  simp only [decodeRaw32, decodeScalar, h, BitVec.reduceToNat]

theorem raw109 (b : Bool) (w : BitVec 32) (h : w.extractLsb' 0 7 = 109#7) : decodeRaw32 b w = decodeCsrx w := by
  simp only [decodeRaw32, decodeScalar, h, BitVec.reduceToNat]

theorem raw113 (b : Bool) (w : BitVec 32) (h : w.extractLsb' 0 7 = 113#7) : decodeRaw32 b w = decodeVarith w := by
  simp only [decodeRaw32, decodeScalar, h, BitVec.reduceToNat]

theorem raw115 (b : Bool) (w : BitVec 32) (h : w.extractLsb' 0 7 = 115#7) : decodeRaw32 b w = decodeVlogic w := by
  simp only [decodeRaw32, decodeScalar, h, BitVec.reduceToNat]

theorem raw117 (b : Bool) (w : BitVec 32) (h : w.extractLsb' 0 7 = 117#7) : decodeRaw32 b w = decodeVcmps w := by
  simp only [decodeRaw32, decodeScalar, h, BitVec.reduceToNat]

theorem raw119 (b : Bool) (w : BitVec 32) (h : w.extractLsb' 0 7 = 119#7) : decodeRaw32 b w = decodeVmem w := by
  simp only [decodeRaw32, decodeScalar, h, BitVec.reduceToNat]

theorem raw121 (b : Bool) (w : BitVec 32) (h : w.extractLsb' 0 7 = 121#7) : decodeRaw32 b w = decodeVq w := by
  simp only [decodeRaw32, decodeScalar, h, BitVec.reduceToNat]

theorem raw123 (b : Bool) (w : BitVec 32) (h : w.extractLsb' 0 7 = 123#7) : decodeRaw32 b w = decodeVred w := by
  simp only [decodeRaw32, decodeScalar, h, BitVec.reduceToNat]

theorem raw125 (b : Bool) (w : BitVec 32) (h : w.extractLsb' 0 7 = 125#7) : decodeRaw32 b w = decodeVcvt w := by
  simp only [decodeRaw32, decodeScalar, h, BitVec.reduceToNat]

theorem raw127 (b : Bool) (w : BitVec 32) (h : w.extractLsb' 0 7 = 127#7) : decodeRaw32 b w = decodeVmath w := by
  simp only [decodeRaw32, decodeScalar, h, BitVec.reduceToNat]

end Sys2Proof.Laws
end

