-- ==== Sys2Proof/Laws/State.lean ====
section
/-!
SUPPORT. Sys2Proof/Laws/State.lean: what each update of a part of the state leaves of every field, and reads after writes.
-/

namespace Sys2Proof.Machine

@[simp] theorem putTask_mem (s : State) (k : Nat) (t : Task) : (putTask s k t).mem = s.mem := rfl
@[simp] theorem putTask_full (s : State) (k : Nat) (t : Task) : (putTask s k t).full = s.full := rfl
@[simp] theorem putTask_spoilt (s : State) (k : Nat) (t : Task) : (putTask s k t).spoilt = s.spoilt := rfl
@[simp] theorem putTask_flash (s : State) (k : Nat) (t : Task) : (putTask s k t).flash = s.flash := rfl
@[simp] theorem putTask_cores (s : State) (k : Nat) (t : Task) : (putTask s k t).cores = s.cores := rfl
@[simp] theorem putTask_tiles (s : State) (k : Nat) (t : Task) : (putTask s k t).tiles = s.tiles := rfl
@[simp] theorem putTask_pkgs (s : State) (k : Nat) (t : Task) : (putTask s k t).pkgs = s.pkgs := rfl
@[simp] theorem putTask_ctxs (s : State) (k : Nat) (t : Task) : (putTask s k t).ctxs = s.ctxs := rfl
@[simp] theorem putTask_parts (s : State) (k : Nat) (t : Task) : (putTask s k t).parts = s.parts := rfl
@[simp] theorem putTask_frames (s : State) (k : Nat) (t : Task) : (putTask s k t).frames = s.frames := rfl
@[simp] theorem putTask_launches (s : State) (k : Nat) (t : Task) : (putTask s k t).launches = s.launches := rfl
@[simp] theorem putTask_ending (s : State) (k : Nat) (t : Task) : (putTask s k t).ending = s.ending := rfl
@[simp] theorem putTask_kills (s : State) (k : Nat) (t : Task) : (putTask s k t).kills = s.kills := rfl
@[simp] theorem putTask_net (s : State) (k : Nat) (t : Task) : (putTask s k t).net = s.net := rfl
@[simp] theorem putTask_inbox (s : State) (k : Nat) (t : Task) : (putTask s k t).inbox = s.inbox := rfl
@[simp] theorem putTask_manager (s : State) (k : Nat) (t : Task) : (putTask s k t).manager = s.manager := rfl
@[simp] theorem putTask_nextId (s : State) (k : Nat) (t : Task) : (putTask s k t).nextId = s.nextId := rfl
@[simp] theorem putTask_draws (s : State) (k : Nat) (t : Task) : (putTask s k t).draws = s.draws := rfl
@[simp] theorem putTask_cyc (s : State) (k : Nat) (t : Task) : (putTask s k t).cyc = s.cyc := rfl
@[simp] theorem putTask_ftime (s : State) (k : Nat) (t : Task) : (putTask s k t).ftime = s.ftime := rfl
@[simp] theorem putTask_here (s : State) (k : Nat) (t : Task) : (putTask s k t).here = s.here := rfl
@[simp] theorem putTask_agenda (s : State) (k : Nat) (t : Task) : (putTask s k t).agenda = s.agenda := rfl
@[simp] theorem putTask_round (s : State) (k : Nat) (t : Task) : (putTask s k t).round = s.round := rfl

@[simp] theorem dropTask_mem (s : State) (k : Nat) : (dropTask s k).mem = s.mem := rfl
@[simp] theorem dropTask_full (s : State) (k : Nat) : (dropTask s k).full = s.full := rfl
@[simp] theorem dropTask_spoilt (s : State) (k : Nat) : (dropTask s k).spoilt = s.spoilt := rfl
@[simp] theorem dropTask_flash (s : State) (k : Nat) : (dropTask s k).flash = s.flash := rfl
@[simp] theorem dropTask_cores (s : State) (k : Nat) : (dropTask s k).cores = s.cores := rfl
@[simp] theorem dropTask_tiles (s : State) (k : Nat) : (dropTask s k).tiles = s.tiles := rfl
@[simp] theorem dropTask_pkgs (s : State) (k : Nat) : (dropTask s k).pkgs = s.pkgs := rfl
@[simp] theorem dropTask_ctxs (s : State) (k : Nat) : (dropTask s k).ctxs = s.ctxs := rfl
@[simp] theorem dropTask_parts (s : State) (k : Nat) : (dropTask s k).parts = s.parts := rfl
@[simp] theorem dropTask_frames (s : State) (k : Nat) : (dropTask s k).frames = s.frames := rfl
@[simp] theorem dropTask_launches (s : State) (k : Nat) : (dropTask s k).launches = s.launches := rfl
@[simp] theorem dropTask_ending (s : State) (k : Nat) : (dropTask s k).ending = s.ending := rfl
@[simp] theorem dropTask_kills (s : State) (k : Nat) : (dropTask s k).kills = s.kills := rfl
@[simp] theorem dropTask_net (s : State) (k : Nat) : (dropTask s k).net = s.net := rfl
@[simp] theorem dropTask_inbox (s : State) (k : Nat) : (dropTask s k).inbox = s.inbox := rfl
@[simp] theorem dropTask_manager (s : State) (k : Nat) : (dropTask s k).manager = s.manager := rfl
@[simp] theorem dropTask_nextId (s : State) (k : Nat) : (dropTask s k).nextId = s.nextId := rfl
@[simp] theorem dropTask_draws (s : State) (k : Nat) : (dropTask s k).draws = s.draws := rfl
@[simp] theorem dropTask_cyc (s : State) (k : Nat) : (dropTask s k).cyc = s.cyc := rfl
@[simp] theorem dropTask_ftime (s : State) (k : Nat) : (dropTask s k).ftime = s.ftime := rfl
@[simp] theorem dropTask_here (s : State) (k : Nat) : (dropTask s k).here = s.here := rfl
@[simp] theorem dropTask_agenda (s : State) (k : Nat) : (dropTask s k).agenda = s.agenda := rfl
@[simp] theorem dropTask_round (s : State) (k : Nat) : (dropTask s k).round = s.round := rfl

@[simp] theorem putCore_mem (s : State) (k : Nat) (x : Core) : (putCore s k x).mem = s.mem := rfl
@[simp] theorem putCore_full (s : State) (k : Nat) (x : Core) : (putCore s k x).full = s.full := rfl
@[simp] theorem putCore_spoilt (s : State) (k : Nat) (x : Core) : (putCore s k x).spoilt = s.spoilt := rfl
@[simp] theorem putCore_flash (s : State) (k : Nat) (x : Core) : (putCore s k x).flash = s.flash := rfl
@[simp] theorem putCore_tasks (s : State) (k : Nat) (x : Core) : (putCore s k x).tasks = s.tasks := rfl
@[simp] theorem putCore_tiles (s : State) (k : Nat) (x : Core) : (putCore s k x).tiles = s.tiles := rfl
@[simp] theorem putCore_pkgs (s : State) (k : Nat) (x : Core) : (putCore s k x).pkgs = s.pkgs := rfl
@[simp] theorem putCore_ctxs (s : State) (k : Nat) (x : Core) : (putCore s k x).ctxs = s.ctxs := rfl
@[simp] theorem putCore_parts (s : State) (k : Nat) (x : Core) : (putCore s k x).parts = s.parts := rfl
@[simp] theorem putCore_frames (s : State) (k : Nat) (x : Core) : (putCore s k x).frames = s.frames := rfl
@[simp] theorem putCore_launches (s : State) (k : Nat) (x : Core) : (putCore s k x).launches = s.launches := rfl
@[simp] theorem putCore_ending (s : State) (k : Nat) (x : Core) : (putCore s k x).ending = s.ending := rfl
@[simp] theorem putCore_kills (s : State) (k : Nat) (x : Core) : (putCore s k x).kills = s.kills := rfl
@[simp] theorem putCore_net (s : State) (k : Nat) (x : Core) : (putCore s k x).net = s.net := rfl
@[simp] theorem putCore_inbox (s : State) (k : Nat) (x : Core) : (putCore s k x).inbox = s.inbox := rfl
@[simp] theorem putCore_manager (s : State) (k : Nat) (x : Core) : (putCore s k x).manager = s.manager := rfl
@[simp] theorem putCore_nextId (s : State) (k : Nat) (x : Core) : (putCore s k x).nextId = s.nextId := rfl
@[simp] theorem putCore_draws (s : State) (k : Nat) (x : Core) : (putCore s k x).draws = s.draws := rfl
@[simp] theorem putCore_cyc (s : State) (k : Nat) (x : Core) : (putCore s k x).cyc = s.cyc := rfl
@[simp] theorem putCore_ftime (s : State) (k : Nat) (x : Core) : (putCore s k x).ftime = s.ftime := rfl
@[simp] theorem putCore_here (s : State) (k : Nat) (x : Core) : (putCore s k x).here = s.here := rfl
@[simp] theorem putCore_agenda (s : State) (k : Nat) (x : Core) : (putCore s k x).agenda = s.agenda := rfl
@[simp] theorem putCore_round (s : State) (k : Nat) (x : Core) : (putCore s k x).round = s.round := rfl

@[simp] theorem modCore_mem (s : State) (k : Nat) (f : Core → Core) : (modCore s k f).mem = s.mem := rfl
@[simp] theorem modCore_full (s : State) (k : Nat) (f : Core → Core) : (modCore s k f).full = s.full := rfl
@[simp] theorem modCore_spoilt (s : State) (k : Nat) (f : Core → Core) : (modCore s k f).spoilt = s.spoilt := rfl
@[simp] theorem modCore_flash (s : State) (k : Nat) (f : Core → Core) : (modCore s k f).flash = s.flash := rfl
@[simp] theorem modCore_tasks (s : State) (k : Nat) (f : Core → Core) : (modCore s k f).tasks = s.tasks := rfl
@[simp] theorem modCore_tiles (s : State) (k : Nat) (f : Core → Core) : (modCore s k f).tiles = s.tiles := rfl
@[simp] theorem modCore_pkgs (s : State) (k : Nat) (f : Core → Core) : (modCore s k f).pkgs = s.pkgs := rfl
@[simp] theorem modCore_ctxs (s : State) (k : Nat) (f : Core → Core) : (modCore s k f).ctxs = s.ctxs := rfl
@[simp] theorem modCore_parts (s : State) (k : Nat) (f : Core → Core) : (modCore s k f).parts = s.parts := rfl
@[simp] theorem modCore_frames (s : State) (k : Nat) (f : Core → Core) : (modCore s k f).frames = s.frames := rfl
@[simp] theorem modCore_launches (s : State) (k : Nat) (f : Core → Core) : (modCore s k f).launches = s.launches := rfl
@[simp] theorem modCore_ending (s : State) (k : Nat) (f : Core → Core) : (modCore s k f).ending = s.ending := rfl
@[simp] theorem modCore_kills (s : State) (k : Nat) (f : Core → Core) : (modCore s k f).kills = s.kills := rfl
@[simp] theorem modCore_net (s : State) (k : Nat) (f : Core → Core) : (modCore s k f).net = s.net := rfl
@[simp] theorem modCore_inbox (s : State) (k : Nat) (f : Core → Core) : (modCore s k f).inbox = s.inbox := rfl
@[simp] theorem modCore_manager (s : State) (k : Nat) (f : Core → Core) : (modCore s k f).manager = s.manager := rfl
@[simp] theorem modCore_nextId (s : State) (k : Nat) (f : Core → Core) : (modCore s k f).nextId = s.nextId := rfl
@[simp] theorem modCore_draws (s : State) (k : Nat) (f : Core → Core) : (modCore s k f).draws = s.draws := rfl
@[simp] theorem modCore_cyc (s : State) (k : Nat) (f : Core → Core) : (modCore s k f).cyc = s.cyc := rfl
@[simp] theorem modCore_ftime (s : State) (k : Nat) (f : Core → Core) : (modCore s k f).ftime = s.ftime := rfl
@[simp] theorem modCore_here (s : State) (k : Nat) (f : Core → Core) : (modCore s k f).here = s.here := rfl
@[simp] theorem modCore_agenda (s : State) (k : Nat) (f : Core → Core) : (modCore s k f).agenda = s.agenda := rfl
@[simp] theorem modCore_round (s : State) (k : Nat) (f : Core → Core) : (modCore s k f).round = s.round := rfl

@[simp] theorem putTile_mem (s : State) (k : Nat) (x : Tile) : (putTile s k x).mem = s.mem := rfl
@[simp] theorem putTile_full (s : State) (k : Nat) (x : Tile) : (putTile s k x).full = s.full := rfl
@[simp] theorem putTile_spoilt (s : State) (k : Nat) (x : Tile) : (putTile s k x).spoilt = s.spoilt := rfl
@[simp] theorem putTile_flash (s : State) (k : Nat) (x : Tile) : (putTile s k x).flash = s.flash := rfl
@[simp] theorem putTile_tasks (s : State) (k : Nat) (x : Tile) : (putTile s k x).tasks = s.tasks := rfl
@[simp] theorem putTile_cores (s : State) (k : Nat) (x : Tile) : (putTile s k x).cores = s.cores := rfl
@[simp] theorem putTile_pkgs (s : State) (k : Nat) (x : Tile) : (putTile s k x).pkgs = s.pkgs := rfl
@[simp] theorem putTile_ctxs (s : State) (k : Nat) (x : Tile) : (putTile s k x).ctxs = s.ctxs := rfl
@[simp] theorem putTile_parts (s : State) (k : Nat) (x : Tile) : (putTile s k x).parts = s.parts := rfl
@[simp] theorem putTile_frames (s : State) (k : Nat) (x : Tile) : (putTile s k x).frames = s.frames := rfl
@[simp] theorem putTile_launches (s : State) (k : Nat) (x : Tile) : (putTile s k x).launches = s.launches := rfl
@[simp] theorem putTile_ending (s : State) (k : Nat) (x : Tile) : (putTile s k x).ending = s.ending := rfl
@[simp] theorem putTile_kills (s : State) (k : Nat) (x : Tile) : (putTile s k x).kills = s.kills := rfl
@[simp] theorem putTile_net (s : State) (k : Nat) (x : Tile) : (putTile s k x).net = s.net := rfl
@[simp] theorem putTile_inbox (s : State) (k : Nat) (x : Tile) : (putTile s k x).inbox = s.inbox := rfl
@[simp] theorem putTile_manager (s : State) (k : Nat) (x : Tile) : (putTile s k x).manager = s.manager := rfl
@[simp] theorem putTile_nextId (s : State) (k : Nat) (x : Tile) : (putTile s k x).nextId = s.nextId := rfl
@[simp] theorem putTile_draws (s : State) (k : Nat) (x : Tile) : (putTile s k x).draws = s.draws := rfl
@[simp] theorem putTile_cyc (s : State) (k : Nat) (x : Tile) : (putTile s k x).cyc = s.cyc := rfl
@[simp] theorem putTile_ftime (s : State) (k : Nat) (x : Tile) : (putTile s k x).ftime = s.ftime := rfl
@[simp] theorem putTile_here (s : State) (k : Nat) (x : Tile) : (putTile s k x).here = s.here := rfl
@[simp] theorem putTile_agenda (s : State) (k : Nat) (x : Tile) : (putTile s k x).agenda = s.agenda := rfl
@[simp] theorem putTile_round (s : State) (k : Nat) (x : Tile) : (putTile s k x).round = s.round := rfl

@[simp] theorem modTile_mem (s : State) (k : Nat) (f : Tile → Tile) : (modTile s k f).mem = s.mem := rfl
@[simp] theorem modTile_full (s : State) (k : Nat) (f : Tile → Tile) : (modTile s k f).full = s.full := rfl
@[simp] theorem modTile_spoilt (s : State) (k : Nat) (f : Tile → Tile) : (modTile s k f).spoilt = s.spoilt := rfl
@[simp] theorem modTile_flash (s : State) (k : Nat) (f : Tile → Tile) : (modTile s k f).flash = s.flash := rfl
@[simp] theorem modTile_tasks (s : State) (k : Nat) (f : Tile → Tile) : (modTile s k f).tasks = s.tasks := rfl
@[simp] theorem modTile_cores (s : State) (k : Nat) (f : Tile → Tile) : (modTile s k f).cores = s.cores := rfl
@[simp] theorem modTile_pkgs (s : State) (k : Nat) (f : Tile → Tile) : (modTile s k f).pkgs = s.pkgs := rfl
@[simp] theorem modTile_ctxs (s : State) (k : Nat) (f : Tile → Tile) : (modTile s k f).ctxs = s.ctxs := rfl
@[simp] theorem modTile_parts (s : State) (k : Nat) (f : Tile → Tile) : (modTile s k f).parts = s.parts := rfl
@[simp] theorem modTile_frames (s : State) (k : Nat) (f : Tile → Tile) : (modTile s k f).frames = s.frames := rfl
@[simp] theorem modTile_launches (s : State) (k : Nat) (f : Tile → Tile) : (modTile s k f).launches = s.launches := rfl
@[simp] theorem modTile_ending (s : State) (k : Nat) (f : Tile → Tile) : (modTile s k f).ending = s.ending := rfl
@[simp] theorem modTile_kills (s : State) (k : Nat) (f : Tile → Tile) : (modTile s k f).kills = s.kills := rfl
@[simp] theorem modTile_net (s : State) (k : Nat) (f : Tile → Tile) : (modTile s k f).net = s.net := rfl
@[simp] theorem modTile_inbox (s : State) (k : Nat) (f : Tile → Tile) : (modTile s k f).inbox = s.inbox := rfl
@[simp] theorem modTile_manager (s : State) (k : Nat) (f : Tile → Tile) : (modTile s k f).manager = s.manager := rfl
@[simp] theorem modTile_nextId (s : State) (k : Nat) (f : Tile → Tile) : (modTile s k f).nextId = s.nextId := rfl
@[simp] theorem modTile_draws (s : State) (k : Nat) (f : Tile → Tile) : (modTile s k f).draws = s.draws := rfl
@[simp] theorem modTile_cyc (s : State) (k : Nat) (f : Tile → Tile) : (modTile s k f).cyc = s.cyc := rfl
@[simp] theorem modTile_ftime (s : State) (k : Nat) (f : Tile → Tile) : (modTile s k f).ftime = s.ftime := rfl
@[simp] theorem modTile_here (s : State) (k : Nat) (f : Tile → Tile) : (modTile s k f).here = s.here := rfl
@[simp] theorem modTile_agenda (s : State) (k : Nat) (f : Tile → Tile) : (modTile s k f).agenda = s.agenda := rfl
@[simp] theorem modTile_round (s : State) (k : Nat) (f : Tile → Tile) : (modTile s k f).round = s.round := rfl

@[simp] theorem putPkg_mem (s : State) (k : Nat) (x : Pkg) : (putPkg s k x).mem = s.mem := rfl
@[simp] theorem putPkg_full (s : State) (k : Nat) (x : Pkg) : (putPkg s k x).full = s.full := rfl
@[simp] theorem putPkg_spoilt (s : State) (k : Nat) (x : Pkg) : (putPkg s k x).spoilt = s.spoilt := rfl
@[simp] theorem putPkg_flash (s : State) (k : Nat) (x : Pkg) : (putPkg s k x).flash = s.flash := rfl
@[simp] theorem putPkg_tasks (s : State) (k : Nat) (x : Pkg) : (putPkg s k x).tasks = s.tasks := rfl
@[simp] theorem putPkg_cores (s : State) (k : Nat) (x : Pkg) : (putPkg s k x).cores = s.cores := rfl
@[simp] theorem putPkg_tiles (s : State) (k : Nat) (x : Pkg) : (putPkg s k x).tiles = s.tiles := rfl
@[simp] theorem putPkg_ctxs (s : State) (k : Nat) (x : Pkg) : (putPkg s k x).ctxs = s.ctxs := rfl
@[simp] theorem putPkg_parts (s : State) (k : Nat) (x : Pkg) : (putPkg s k x).parts = s.parts := rfl
@[simp] theorem putPkg_frames (s : State) (k : Nat) (x : Pkg) : (putPkg s k x).frames = s.frames := rfl
@[simp] theorem putPkg_launches (s : State) (k : Nat) (x : Pkg) : (putPkg s k x).launches = s.launches := rfl
@[simp] theorem putPkg_ending (s : State) (k : Nat) (x : Pkg) : (putPkg s k x).ending = s.ending := rfl
@[simp] theorem putPkg_kills (s : State) (k : Nat) (x : Pkg) : (putPkg s k x).kills = s.kills := rfl
@[simp] theorem putPkg_net (s : State) (k : Nat) (x : Pkg) : (putPkg s k x).net = s.net := rfl
@[simp] theorem putPkg_inbox (s : State) (k : Nat) (x : Pkg) : (putPkg s k x).inbox = s.inbox := rfl
@[simp] theorem putPkg_manager (s : State) (k : Nat) (x : Pkg) : (putPkg s k x).manager = s.manager := rfl
@[simp] theorem putPkg_nextId (s : State) (k : Nat) (x : Pkg) : (putPkg s k x).nextId = s.nextId := rfl
@[simp] theorem putPkg_draws (s : State) (k : Nat) (x : Pkg) : (putPkg s k x).draws = s.draws := rfl
@[simp] theorem putPkg_cyc (s : State) (k : Nat) (x : Pkg) : (putPkg s k x).cyc = s.cyc := rfl
@[simp] theorem putPkg_ftime (s : State) (k : Nat) (x : Pkg) : (putPkg s k x).ftime = s.ftime := rfl
@[simp] theorem putPkg_here (s : State) (k : Nat) (x : Pkg) : (putPkg s k x).here = s.here := rfl
@[simp] theorem putPkg_agenda (s : State) (k : Nat) (x : Pkg) : (putPkg s k x).agenda = s.agenda := rfl
@[simp] theorem putPkg_round (s : State) (k : Nat) (x : Pkg) : (putPkg s k x).round = s.round := rfl

@[simp] theorem modPkg_mem (s : State) (k : Nat) (f : Pkg → Pkg) : (modPkg s k f).mem = s.mem := rfl
@[simp] theorem modPkg_full (s : State) (k : Nat) (f : Pkg → Pkg) : (modPkg s k f).full = s.full := rfl
@[simp] theorem modPkg_spoilt (s : State) (k : Nat) (f : Pkg → Pkg) : (modPkg s k f).spoilt = s.spoilt := rfl
@[simp] theorem modPkg_flash (s : State) (k : Nat) (f : Pkg → Pkg) : (modPkg s k f).flash = s.flash := rfl
@[simp] theorem modPkg_tasks (s : State) (k : Nat) (f : Pkg → Pkg) : (modPkg s k f).tasks = s.tasks := rfl
@[simp] theorem modPkg_cores (s : State) (k : Nat) (f : Pkg → Pkg) : (modPkg s k f).cores = s.cores := rfl
@[simp] theorem modPkg_tiles (s : State) (k : Nat) (f : Pkg → Pkg) : (modPkg s k f).tiles = s.tiles := rfl
@[simp] theorem modPkg_ctxs (s : State) (k : Nat) (f : Pkg → Pkg) : (modPkg s k f).ctxs = s.ctxs := rfl
@[simp] theorem modPkg_parts (s : State) (k : Nat) (f : Pkg → Pkg) : (modPkg s k f).parts = s.parts := rfl
@[simp] theorem modPkg_frames (s : State) (k : Nat) (f : Pkg → Pkg) : (modPkg s k f).frames = s.frames := rfl
@[simp] theorem modPkg_launches (s : State) (k : Nat) (f : Pkg → Pkg) : (modPkg s k f).launches = s.launches := rfl
@[simp] theorem modPkg_ending (s : State) (k : Nat) (f : Pkg → Pkg) : (modPkg s k f).ending = s.ending := rfl
@[simp] theorem modPkg_kills (s : State) (k : Nat) (f : Pkg → Pkg) : (modPkg s k f).kills = s.kills := rfl
@[simp] theorem modPkg_net (s : State) (k : Nat) (f : Pkg → Pkg) : (modPkg s k f).net = s.net := rfl
@[simp] theorem modPkg_inbox (s : State) (k : Nat) (f : Pkg → Pkg) : (modPkg s k f).inbox = s.inbox := rfl
@[simp] theorem modPkg_manager (s : State) (k : Nat) (f : Pkg → Pkg) : (modPkg s k f).manager = s.manager := rfl
@[simp] theorem modPkg_nextId (s : State) (k : Nat) (f : Pkg → Pkg) : (modPkg s k f).nextId = s.nextId := rfl
@[simp] theorem modPkg_draws (s : State) (k : Nat) (f : Pkg → Pkg) : (modPkg s k f).draws = s.draws := rfl
@[simp] theorem modPkg_cyc (s : State) (k : Nat) (f : Pkg → Pkg) : (modPkg s k f).cyc = s.cyc := rfl
@[simp] theorem modPkg_ftime (s : State) (k : Nat) (f : Pkg → Pkg) : (modPkg s k f).ftime = s.ftime := rfl
@[simp] theorem modPkg_here (s : State) (k : Nat) (f : Pkg → Pkg) : (modPkg s k f).here = s.here := rfl
@[simp] theorem modPkg_agenda (s : State) (k : Nat) (f : Pkg → Pkg) : (modPkg s k f).agenda = s.agenda := rfl
@[simp] theorem modPkg_round (s : State) (k : Nat) (f : Pkg → Pkg) : (modPkg s k f).round = s.round := rfl

@[simp] theorem storePut_full (s : State) (k n v : Nat) : (storePut s k n v).full = s.full := rfl
@[simp] theorem storePut_tasks (s : State) (k n v : Nat) : (storePut s k n v).tasks = s.tasks := rfl
@[simp] theorem storePut_cores (s : State) (k n v : Nat) : (storePut s k n v).cores = s.cores := rfl
@[simp] theorem storePut_tiles (s : State) (k n v : Nat) : (storePut s k n v).tiles = s.tiles := rfl
@[simp] theorem storePut_pkgs (s : State) (k n v : Nat) : (storePut s k n v).pkgs = s.pkgs := rfl
@[simp] theorem storePut_ctxs (s : State) (k n v : Nat) : (storePut s k n v).ctxs = s.ctxs := rfl
@[simp] theorem storePut_parts (s : State) (k n v : Nat) : (storePut s k n v).parts = s.parts := rfl
@[simp] theorem storePut_frames (s : State) (k n v : Nat) : (storePut s k n v).frames = s.frames := rfl
@[simp] theorem storePut_launches (s : State) (k n v : Nat) : (storePut s k n v).launches = s.launches := rfl
@[simp] theorem storePut_ending (s : State) (k n v : Nat) : (storePut s k n v).ending = s.ending := rfl
@[simp] theorem storePut_kills (s : State) (k n v : Nat) : (storePut s k n v).kills = s.kills := rfl
@[simp] theorem storePut_net (s : State) (k n v : Nat) : (storePut s k n v).net = s.net := rfl
@[simp] theorem storePut_inbox (s : State) (k n v : Nat) : (storePut s k n v).inbox = s.inbox := rfl
@[simp] theorem storePut_manager (s : State) (k n v : Nat) : (storePut s k n v).manager = s.manager := rfl
@[simp] theorem storePut_nextId (s : State) (k n v : Nat) : (storePut s k n v).nextId = s.nextId := rfl
@[simp] theorem storePut_draws (s : State) (k n v : Nat) : (storePut s k n v).draws = s.draws := rfl
@[simp] theorem storePut_cyc (s : State) (k n v : Nat) : (storePut s k n v).cyc = s.cyc := rfl
@[simp] theorem storePut_ftime (s : State) (k n v : Nat) : (storePut s k n v).ftime = s.ftime := rfl
@[simp] theorem storePut_here (s : State) (k n v : Nat) : (storePut s k n v).here = s.here := rfl
@[simp] theorem storePut_agenda (s : State) (k n v : Nat) : (storePut s k n v).agenda = s.agenda := rfl
@[simp] theorem storePut_round (s : State) (k n v : Nat) : (storePut s k n v).round = s.round := rfl

@[simp] theorem lmPut_full (s : State) (k o n v : Nat) : (lmPut s k o n v).full = s.full := rfl
@[simp] theorem lmPut_tasks (s : State) (k o n v : Nat) : (lmPut s k o n v).tasks = s.tasks := rfl
@[simp] theorem lmPut_cores (s : State) (k o n v : Nat) : (lmPut s k o n v).cores = s.cores := rfl
@[simp] theorem lmPut_tiles (s : State) (k o n v : Nat) : (lmPut s k o n v).tiles = s.tiles := rfl
@[simp] theorem lmPut_pkgs (s : State) (k o n v : Nat) : (lmPut s k o n v).pkgs = s.pkgs := rfl
@[simp] theorem lmPut_ctxs (s : State) (k o n v : Nat) : (lmPut s k o n v).ctxs = s.ctxs := rfl
@[simp] theorem lmPut_parts (s : State) (k o n v : Nat) : (lmPut s k o n v).parts = s.parts := rfl
@[simp] theorem lmPut_frames (s : State) (k o n v : Nat) : (lmPut s k o n v).frames = s.frames := rfl
@[simp] theorem lmPut_launches (s : State) (k o n v : Nat) : (lmPut s k o n v).launches = s.launches := rfl
@[simp] theorem lmPut_ending (s : State) (k o n v : Nat) : (lmPut s k o n v).ending = s.ending := rfl
@[simp] theorem lmPut_kills (s : State) (k o n v : Nat) : (lmPut s k o n v).kills = s.kills := rfl
@[simp] theorem lmPut_net (s : State) (k o n v : Nat) : (lmPut s k o n v).net = s.net := rfl
@[simp] theorem lmPut_inbox (s : State) (k o n v : Nat) : (lmPut s k o n v).inbox = s.inbox := rfl
@[simp] theorem lmPut_manager (s : State) (k o n v : Nat) : (lmPut s k o n v).manager = s.manager := rfl
@[simp] theorem lmPut_nextId (s : State) (k o n v : Nat) : (lmPut s k o n v).nextId = s.nextId := rfl
@[simp] theorem lmPut_draws (s : State) (k o n v : Nat) : (lmPut s k o n v).draws = s.draws := rfl
@[simp] theorem lmPut_cyc (s : State) (k o n v : Nat) : (lmPut s k o n v).cyc = s.cyc := rfl
@[simp] theorem lmPut_ftime (s : State) (k o n v : Nat) : (lmPut s k o n v).ftime = s.ftime := rfl
@[simp] theorem lmPut_here (s : State) (k o n v : Nat) : (lmPut s k o n v).here = s.here := rfl
@[simp] theorem lmPut_agenda (s : State) (k o n v : Nat) : (lmPut s k o n v).agenda = s.agenda := rfl
@[simp] theorem lmPut_round (s : State) (k o n v : Nat) : (lmPut s k o n v).round = s.round := rfl

@[simp] theorem storeClear_full (s : State) (k n : Nat) : (storeClear s k n).full = s.full := rfl
@[simp] theorem storeClear_tasks (s : State) (k n : Nat) : (storeClear s k n).tasks = s.tasks := rfl
@[simp] theorem storeClear_cores (s : State) (k n : Nat) : (storeClear s k n).cores = s.cores := rfl
@[simp] theorem storeClear_tiles (s : State) (k n : Nat) : (storeClear s k n).tiles = s.tiles := rfl
@[simp] theorem storeClear_pkgs (s : State) (k n : Nat) : (storeClear s k n).pkgs = s.pkgs := rfl
@[simp] theorem storeClear_ctxs (s : State) (k n : Nat) : (storeClear s k n).ctxs = s.ctxs := rfl
@[simp] theorem storeClear_parts (s : State) (k n : Nat) : (storeClear s k n).parts = s.parts := rfl
@[simp] theorem storeClear_frames (s : State) (k n : Nat) : (storeClear s k n).frames = s.frames := rfl
@[simp] theorem storeClear_launches (s : State) (k n : Nat) : (storeClear s k n).launches = s.launches := rfl
@[simp] theorem storeClear_ending (s : State) (k n : Nat) : (storeClear s k n).ending = s.ending := rfl
@[simp] theorem storeClear_kills (s : State) (k n : Nat) : (storeClear s k n).kills = s.kills := rfl
@[simp] theorem storeClear_net (s : State) (k n : Nat) : (storeClear s k n).net = s.net := rfl
@[simp] theorem storeClear_inbox (s : State) (k n : Nat) : (storeClear s k n).inbox = s.inbox := rfl
@[simp] theorem storeClear_manager (s : State) (k n : Nat) : (storeClear s k n).manager = s.manager := rfl
@[simp] theorem storeClear_nextId (s : State) (k n : Nat) : (storeClear s k n).nextId = s.nextId := rfl
@[simp] theorem storeClear_draws (s : State) (k n : Nat) : (storeClear s k n).draws = s.draws := rfl
@[simp] theorem storeClear_cyc (s : State) (k n : Nat) : (storeClear s k n).cyc = s.cyc := rfl
@[simp] theorem storeClear_ftime (s : State) (k n : Nat) : (storeClear s k n).ftime = s.ftime := rfl
@[simp] theorem storeClear_here (s : State) (k n : Nat) : (storeClear s k n).here = s.here := rfl
@[simp] theorem storeClear_agenda (s : State) (k n : Nat) : (storeClear s k n).agenda = s.agenda := rfl
@[simp] theorem storeClear_round (s : State) (k n : Nat) : (storeClear s k n).round = s.round := rfl

@[simp] theorem fullSet_spoilt (s : State) (k : Nat) : (fullSet s k).spoilt = s.spoilt := rfl
@[simp] theorem fullSet_flash (s : State) (k : Nat) : (fullSet s k).flash = s.flash := rfl
@[simp] theorem fullSet_mem (s : State) (k : Nat) : (fullSet s k).mem = s.mem := rfl
@[simp] theorem fullSet_tasks (s : State) (k : Nat) : (fullSet s k).tasks = s.tasks := rfl
@[simp] theorem fullSet_cores (s : State) (k : Nat) : (fullSet s k).cores = s.cores := rfl
@[simp] theorem fullSet_tiles (s : State) (k : Nat) : (fullSet s k).tiles = s.tiles := rfl
@[simp] theorem fullSet_pkgs (s : State) (k : Nat) : (fullSet s k).pkgs = s.pkgs := rfl
@[simp] theorem fullSet_ctxs (s : State) (k : Nat) : (fullSet s k).ctxs = s.ctxs := rfl
@[simp] theorem fullSet_parts (s : State) (k : Nat) : (fullSet s k).parts = s.parts := rfl
@[simp] theorem fullSet_frames (s : State) (k : Nat) : (fullSet s k).frames = s.frames := rfl
@[simp] theorem fullSet_launches (s : State) (k : Nat) : (fullSet s k).launches = s.launches := rfl
@[simp] theorem fullSet_ending (s : State) (k : Nat) : (fullSet s k).ending = s.ending := rfl
@[simp] theorem fullSet_kills (s : State) (k : Nat) : (fullSet s k).kills = s.kills := rfl
@[simp] theorem fullSet_net (s : State) (k : Nat) : (fullSet s k).net = s.net := rfl
@[simp] theorem fullSet_inbox (s : State) (k : Nat) : (fullSet s k).inbox = s.inbox := rfl
@[simp] theorem fullSet_manager (s : State) (k : Nat) : (fullSet s k).manager = s.manager := rfl
@[simp] theorem fullSet_nextId (s : State) (k : Nat) : (fullSet s k).nextId = s.nextId := rfl
@[simp] theorem fullSet_draws (s : State) (k : Nat) : (fullSet s k).draws = s.draws := rfl
@[simp] theorem fullSet_cyc (s : State) (k : Nat) : (fullSet s k).cyc = s.cyc := rfl
@[simp] theorem fullSet_ftime (s : State) (k : Nat) : (fullSet s k).ftime = s.ftime := rfl
@[simp] theorem fullSet_here (s : State) (k : Nat) : (fullSet s k).here = s.here := rfl
@[simp] theorem fullSet_agenda (s : State) (k : Nat) : (fullSet s k).agenda = s.agenda := rfl
@[simp] theorem fullSet_round (s : State) (k : Nat) : (fullSet s k).round = s.round := rfl

@[simp] theorem fullClear_spoilt (s : State) (k : Nat) : (fullClear s k).spoilt = s.spoilt := rfl
@[simp] theorem fullClear_flash (s : State) (k : Nat) : (fullClear s k).flash = s.flash := rfl
@[simp] theorem fullClear_mem (s : State) (k : Nat) : (fullClear s k).mem = s.mem := rfl
@[simp] theorem fullClear_tasks (s : State) (k : Nat) : (fullClear s k).tasks = s.tasks := rfl
@[simp] theorem fullClear_cores (s : State) (k : Nat) : (fullClear s k).cores = s.cores := rfl
@[simp] theorem fullClear_tiles (s : State) (k : Nat) : (fullClear s k).tiles = s.tiles := rfl
@[simp] theorem fullClear_pkgs (s : State) (k : Nat) : (fullClear s k).pkgs = s.pkgs := rfl
@[simp] theorem fullClear_ctxs (s : State) (k : Nat) : (fullClear s k).ctxs = s.ctxs := rfl
@[simp] theorem fullClear_parts (s : State) (k : Nat) : (fullClear s k).parts = s.parts := rfl
@[simp] theorem fullClear_frames (s : State) (k : Nat) : (fullClear s k).frames = s.frames := rfl
@[simp] theorem fullClear_launches (s : State) (k : Nat) : (fullClear s k).launches = s.launches := rfl
@[simp] theorem fullClear_ending (s : State) (k : Nat) : (fullClear s k).ending = s.ending := rfl
@[simp] theorem fullClear_kills (s : State) (k : Nat) : (fullClear s k).kills = s.kills := rfl
@[simp] theorem fullClear_net (s : State) (k : Nat) : (fullClear s k).net = s.net := rfl
@[simp] theorem fullClear_inbox (s : State) (k : Nat) : (fullClear s k).inbox = s.inbox := rfl
@[simp] theorem fullClear_manager (s : State) (k : Nat) : (fullClear s k).manager = s.manager := rfl
@[simp] theorem fullClear_nextId (s : State) (k : Nat) : (fullClear s k).nextId = s.nextId := rfl
@[simp] theorem fullClear_draws (s : State) (k : Nat) : (fullClear s k).draws = s.draws := rfl
@[simp] theorem fullClear_cyc (s : State) (k : Nat) : (fullClear s k).cyc = s.cyc := rfl
@[simp] theorem fullClear_ftime (s : State) (k : Nat) : (fullClear s k).ftime = s.ftime := rfl
@[simp] theorem fullClear_here (s : State) (k : Nat) : (fullClear s k).here = s.here := rfl
@[simp] theorem fullClear_agenda (s : State) (k : Nat) : (fullClear s k).agenda = s.agenda := rfl
@[simp] theorem fullClear_round (s : State) (k : Nat) : (fullClear s k).round = s.round := rfl

@[simp] theorem modGrant_mem (s : State) (k n : Nat) (f : Grant → Grant) : (modGrant s k n f).mem = s.mem := rfl
@[simp] theorem modGrant_full (s : State) (k n : Nat) (f : Grant → Grant) : (modGrant s k n f).full = s.full := rfl
@[simp] theorem modGrant_spoilt (s : State) (k n : Nat) (f : Grant → Grant) : (modGrant s k n f).spoilt = s.spoilt := rfl
@[simp] theorem modGrant_flash (s : State) (k n : Nat) (f : Grant → Grant) : (modGrant s k n f).flash = s.flash := rfl
@[simp] theorem modGrant_tasks (s : State) (k n : Nat) (f : Grant → Grant) : (modGrant s k n f).tasks = s.tasks := rfl
@[simp] theorem modGrant_cores (s : State) (k n : Nat) (f : Grant → Grant) : (modGrant s k n f).cores = s.cores := rfl
@[simp] theorem modGrant_pkgs (s : State) (k n : Nat) (f : Grant → Grant) : (modGrant s k n f).pkgs = s.pkgs := rfl
@[simp] theorem modGrant_ctxs (s : State) (k n : Nat) (f : Grant → Grant) : (modGrant s k n f).ctxs = s.ctxs := rfl
@[simp] theorem modGrant_parts (s : State) (k n : Nat) (f : Grant → Grant) : (modGrant s k n f).parts = s.parts := rfl
@[simp] theorem modGrant_frames (s : State) (k n : Nat) (f : Grant → Grant) : (modGrant s k n f).frames = s.frames := rfl
@[simp] theorem modGrant_launches (s : State) (k n : Nat) (f : Grant → Grant) : (modGrant s k n f).launches = s.launches := rfl
@[simp] theorem modGrant_ending (s : State) (k n : Nat) (f : Grant → Grant) : (modGrant s k n f).ending = s.ending := rfl
@[simp] theorem modGrant_kills (s : State) (k n : Nat) (f : Grant → Grant) : (modGrant s k n f).kills = s.kills := rfl
@[simp] theorem modGrant_net (s : State) (k n : Nat) (f : Grant → Grant) : (modGrant s k n f).net = s.net := rfl
@[simp] theorem modGrant_inbox (s : State) (k n : Nat) (f : Grant → Grant) : (modGrant s k n f).inbox = s.inbox := rfl
@[simp] theorem modGrant_manager (s : State) (k n : Nat) (f : Grant → Grant) : (modGrant s k n f).manager = s.manager := rfl
@[simp] theorem modGrant_nextId (s : State) (k n : Nat) (f : Grant → Grant) : (modGrant s k n f).nextId = s.nextId := rfl
@[simp] theorem modGrant_draws (s : State) (k n : Nat) (f : Grant → Grant) : (modGrant s k n f).draws = s.draws := rfl
@[simp] theorem modGrant_cyc (s : State) (k n : Nat) (f : Grant → Grant) : (modGrant s k n f).cyc = s.cyc := rfl
@[simp] theorem modGrant_ftime (s : State) (k n : Nat) (f : Grant → Grant) : (modGrant s k n f).ftime = s.ftime := rfl
@[simp] theorem modGrant_here (s : State) (k n : Nat) (f : Grant → Grant) : (modGrant s k n f).here = s.here := rfl
@[simp] theorem modGrant_agenda (s : State) (k n : Nat) (f : Grant → Grant) : (modGrant s k n f).agenda = s.agenda := rfl
@[simp] theorem modGrant_round (s : State) (k n : Nat) (f : Grant → Grant) : (modGrant s k n f).round = s.round := rfl

@[simp] theorem modPhase_mem (s : State) (k n : Nat) (f : Phase → Phase) : (modPhase s k n f).mem = s.mem := rfl
@[simp] theorem modPhase_full (s : State) (k n : Nat) (f : Phase → Phase) : (modPhase s k n f).full = s.full := rfl
@[simp] theorem modPhase_spoilt (s : State) (k n : Nat) (f : Phase → Phase) : (modPhase s k n f).spoilt = s.spoilt := rfl
@[simp] theorem modPhase_flash (s : State) (k n : Nat) (f : Phase → Phase) : (modPhase s k n f).flash = s.flash := rfl
@[simp] theorem modPhase_tasks (s : State) (k n : Nat) (f : Phase → Phase) : (modPhase s k n f).tasks = s.tasks := rfl
@[simp] theorem modPhase_cores (s : State) (k n : Nat) (f : Phase → Phase) : (modPhase s k n f).cores = s.cores := rfl
@[simp] theorem modPhase_pkgs (s : State) (k n : Nat) (f : Phase → Phase) : (modPhase s k n f).pkgs = s.pkgs := rfl
@[simp] theorem modPhase_ctxs (s : State) (k n : Nat) (f : Phase → Phase) : (modPhase s k n f).ctxs = s.ctxs := rfl
@[simp] theorem modPhase_parts (s : State) (k n : Nat) (f : Phase → Phase) : (modPhase s k n f).parts = s.parts := rfl
@[simp] theorem modPhase_frames (s : State) (k n : Nat) (f : Phase → Phase) : (modPhase s k n f).frames = s.frames := rfl
@[simp] theorem modPhase_launches (s : State) (k n : Nat) (f : Phase → Phase) : (modPhase s k n f).launches = s.launches := rfl
@[simp] theorem modPhase_ending (s : State) (k n : Nat) (f : Phase → Phase) : (modPhase s k n f).ending = s.ending := rfl
@[simp] theorem modPhase_kills (s : State) (k n : Nat) (f : Phase → Phase) : (modPhase s k n f).kills = s.kills := rfl
@[simp] theorem modPhase_net (s : State) (k n : Nat) (f : Phase → Phase) : (modPhase s k n f).net = s.net := rfl
@[simp] theorem modPhase_inbox (s : State) (k n : Nat) (f : Phase → Phase) : (modPhase s k n f).inbox = s.inbox := rfl
@[simp] theorem modPhase_manager (s : State) (k n : Nat) (f : Phase → Phase) : (modPhase s k n f).manager = s.manager := rfl
@[simp] theorem modPhase_nextId (s : State) (k n : Nat) (f : Phase → Phase) : (modPhase s k n f).nextId = s.nextId := rfl
@[simp] theorem modPhase_draws (s : State) (k n : Nat) (f : Phase → Phase) : (modPhase s k n f).draws = s.draws := rfl
@[simp] theorem modPhase_cyc (s : State) (k n : Nat) (f : Phase → Phase) : (modPhase s k n f).cyc = s.cyc := rfl
@[simp] theorem modPhase_ftime (s : State) (k n : Nat) (f : Phase → Phase) : (modPhase s k n f).ftime = s.ftime := rfl
@[simp] theorem modPhase_here (s : State) (k n : Nat) (f : Phase → Phase) : (modPhase s k n f).here = s.here := rfl
@[simp] theorem modPhase_agenda (s : State) (k n : Nat) (f : Phase → Phase) : (modPhase s k n f).agenda = s.agenda := rfl
@[simp] theorem modPhase_round (s : State) (k n : Nat) (f : Phase → Phase) : (modPhase s k n f).round = s.round := rfl

@[simp] theorem modLaunch_mem (s : State) (c : BitVec 11) (n : Word) (f : Launch → Launch) : (modLaunch s c n f).mem = s.mem := rfl
@[simp] theorem modLaunch_full (s : State) (c : BitVec 11) (n : Word) (f : Launch → Launch) : (modLaunch s c n f).full = s.full := rfl
@[simp] theorem modLaunch_spoilt (s : State) (c : BitVec 11) (n : Word) (f : Launch → Launch) : (modLaunch s c n f).spoilt = s.spoilt := rfl
@[simp] theorem modLaunch_flash (s : State) (c : BitVec 11) (n : Word) (f : Launch → Launch) : (modLaunch s c n f).flash = s.flash := rfl
@[simp] theorem modLaunch_tasks (s : State) (c : BitVec 11) (n : Word) (f : Launch → Launch) : (modLaunch s c n f).tasks = s.tasks := rfl
@[simp] theorem modLaunch_cores (s : State) (c : BitVec 11) (n : Word) (f : Launch → Launch) : (modLaunch s c n f).cores = s.cores := rfl
@[simp] theorem modLaunch_tiles (s : State) (c : BitVec 11) (n : Word) (f : Launch → Launch) : (modLaunch s c n f).tiles = s.tiles := rfl
@[simp] theorem modLaunch_pkgs (s : State) (c : BitVec 11) (n : Word) (f : Launch → Launch) : (modLaunch s c n f).pkgs = s.pkgs := rfl
@[simp] theorem modLaunch_ctxs (s : State) (c : BitVec 11) (n : Word) (f : Launch → Launch) : (modLaunch s c n f).ctxs = s.ctxs := rfl
@[simp] theorem modLaunch_parts (s : State) (c : BitVec 11) (n : Word) (f : Launch → Launch) : (modLaunch s c n f).parts = s.parts := rfl
@[simp] theorem modLaunch_frames (s : State) (c : BitVec 11) (n : Word) (f : Launch → Launch) : (modLaunch s c n f).frames = s.frames := rfl
@[simp] theorem modLaunch_ending (s : State) (c : BitVec 11) (n : Word) (f : Launch → Launch) : (modLaunch s c n f).ending = s.ending := rfl
@[simp] theorem modLaunch_kills (s : State) (c : BitVec 11) (n : Word) (f : Launch → Launch) : (modLaunch s c n f).kills = s.kills := rfl
@[simp] theorem modLaunch_net (s : State) (c : BitVec 11) (n : Word) (f : Launch → Launch) : (modLaunch s c n f).net = s.net := rfl
@[simp] theorem modLaunch_inbox (s : State) (c : BitVec 11) (n : Word) (f : Launch → Launch) : (modLaunch s c n f).inbox = s.inbox := rfl
@[simp] theorem modLaunch_manager (s : State) (c : BitVec 11) (n : Word) (f : Launch → Launch) : (modLaunch s c n f).manager = s.manager := rfl
@[simp] theorem modLaunch_nextId (s : State) (c : BitVec 11) (n : Word) (f : Launch → Launch) : (modLaunch s c n f).nextId = s.nextId := rfl
@[simp] theorem modLaunch_draws (s : State) (c : BitVec 11) (n : Word) (f : Launch → Launch) : (modLaunch s c n f).draws = s.draws := rfl
@[simp] theorem modLaunch_cyc (s : State) (c : BitVec 11) (n : Word) (f : Launch → Launch) : (modLaunch s c n f).cyc = s.cyc := rfl
@[simp] theorem modLaunch_ftime (s : State) (c : BitVec 11) (n : Word) (f : Launch → Launch) : (modLaunch s c n f).ftime = s.ftime := rfl
@[simp] theorem modLaunch_here (s : State) (c : BitVec 11) (n : Word) (f : Launch → Launch) : (modLaunch s c n f).here = s.here := rfl
@[simp] theorem modLaunch_agenda (s : State) (c : BitVec 11) (n : Word) (f : Launch → Launch) : (modLaunch s c n f).agenda = s.agenda := rfl
@[simp] theorem modLaunch_round (s : State) (c : BitVec 11) (n : Word) (f : Launch → Launch) : (modLaunch s c n f).round = s.round := rfl

@[simp] theorem post_mem (s : State) (a b : Nat) (l : Word) (x : Body) : (post s a b l x).mem = s.mem := rfl
@[simp] theorem post_full (s : State) (a b : Nat) (l : Word) (x : Body) : (post s a b l x).full = s.full := rfl
@[simp] theorem post_spoilt (s : State) (a b : Nat) (l : Word) (x : Body) : (post s a b l x).spoilt = s.spoilt := rfl
@[simp] theorem post_flash (s : State) (a b : Nat) (l : Word) (x : Body) : (post s a b l x).flash = s.flash := rfl
@[simp] theorem post_tasks (s : State) (a b : Nat) (l : Word) (x : Body) : (post s a b l x).tasks = s.tasks := rfl
@[simp] theorem post_cores (s : State) (a b : Nat) (l : Word) (x : Body) : (post s a b l x).cores = s.cores := rfl
@[simp] theorem post_tiles (s : State) (a b : Nat) (l : Word) (x : Body) : (post s a b l x).tiles = s.tiles := rfl
@[simp] theorem post_pkgs (s : State) (a b : Nat) (l : Word) (x : Body) : (post s a b l x).pkgs = s.pkgs := rfl
@[simp] theorem post_ctxs (s : State) (a b : Nat) (l : Word) (x : Body) : (post s a b l x).ctxs = s.ctxs := rfl
@[simp] theorem post_parts (s : State) (a b : Nat) (l : Word) (x : Body) : (post s a b l x).parts = s.parts := rfl
@[simp] theorem post_frames (s : State) (a b : Nat) (l : Word) (x : Body) : (post s a b l x).frames = s.frames := rfl
@[simp] theorem post_launches (s : State) (a b : Nat) (l : Word) (x : Body) : (post s a b l x).launches = s.launches := rfl
@[simp] theorem post_ending (s : State) (a b : Nat) (l : Word) (x : Body) : (post s a b l x).ending = s.ending := rfl
@[simp] theorem post_kills (s : State) (a b : Nat) (l : Word) (x : Body) : (post s a b l x).kills = s.kills := rfl
@[simp] theorem post_inbox (s : State) (a b : Nat) (l : Word) (x : Body) : (post s a b l x).inbox = s.inbox := rfl
@[simp] theorem post_manager (s : State) (a b : Nat) (l : Word) (x : Body) : (post s a b l x).manager = s.manager := rfl
@[simp] theorem post_draws (s : State) (a b : Nat) (l : Word) (x : Body) : (post s a b l x).draws = s.draws := rfl
@[simp] theorem post_cyc (s : State) (a b : Nat) (l : Word) (x : Body) : (post s a b l x).cyc = s.cyc := rfl
@[simp] theorem post_ftime (s : State) (a b : Nat) (l : Word) (x : Body) : (post s a b l x).ftime = s.ftime := rfl
@[simp] theorem post_here (s : State) (a b : Nat) (l : Word) (x : Body) : (post s a b l x).here = s.here := rfl
@[simp] theorem post_agenda (s : State) (a b : Nat) (l : Word) (x : Body) : (post s a b l x).agenda = s.agenda := rfl
@[simp] theorem post_round (s : State) (a b : Nat) (l : Word) (x : Body) : (post s a b l x).round = s.round := rfl

@[simp] theorem dropPacket_mem (s : State) (n : Nat) : (dropPacket s n).mem = s.mem := rfl
@[simp] theorem dropPacket_full (s : State) (n : Nat) : (dropPacket s n).full = s.full := rfl
@[simp] theorem dropPacket_spoilt (s : State) (n : Nat) : (dropPacket s n).spoilt = s.spoilt := rfl
@[simp] theorem dropPacket_flash (s : State) (n : Nat) : (dropPacket s n).flash = s.flash := rfl
@[simp] theorem dropPacket_tasks (s : State) (n : Nat) : (dropPacket s n).tasks = s.tasks := rfl
@[simp] theorem dropPacket_cores (s : State) (n : Nat) : (dropPacket s n).cores = s.cores := rfl
@[simp] theorem dropPacket_tiles (s : State) (n : Nat) : (dropPacket s n).tiles = s.tiles := rfl
@[simp] theorem dropPacket_pkgs (s : State) (n : Nat) : (dropPacket s n).pkgs = s.pkgs := rfl
@[simp] theorem dropPacket_ctxs (s : State) (n : Nat) : (dropPacket s n).ctxs = s.ctxs := rfl
@[simp] theorem dropPacket_parts (s : State) (n : Nat) : (dropPacket s n).parts = s.parts := rfl
@[simp] theorem dropPacket_frames (s : State) (n : Nat) : (dropPacket s n).frames = s.frames := rfl
@[simp] theorem dropPacket_launches (s : State) (n : Nat) : (dropPacket s n).launches = s.launches := rfl
@[simp] theorem dropPacket_ending (s : State) (n : Nat) : (dropPacket s n).ending = s.ending := rfl
@[simp] theorem dropPacket_kills (s : State) (n : Nat) : (dropPacket s n).kills = s.kills := rfl
@[simp] theorem dropPacket_inbox (s : State) (n : Nat) : (dropPacket s n).inbox = s.inbox := rfl
@[simp] theorem dropPacket_manager (s : State) (n : Nat) : (dropPacket s n).manager = s.manager := rfl
@[simp] theorem dropPacket_nextId (s : State) (n : Nat) : (dropPacket s n).nextId = s.nextId := rfl
@[simp] theorem dropPacket_draws (s : State) (n : Nat) : (dropPacket s n).draws = s.draws := rfl
@[simp] theorem dropPacket_cyc (s : State) (n : Nat) : (dropPacket s n).cyc = s.cyc := rfl
@[simp] theorem dropPacket_ftime (s : State) (n : Nat) : (dropPacket s n).ftime = s.ftime := rfl
@[simp] theorem dropPacket_here (s : State) (n : Nat) : (dropPacket s n).here = s.here := rfl
@[simp] theorem dropPacket_agenda (s : State) (n : Nat) : (dropPacket s n).agenda = s.agenda := rfl
@[simp] theorem dropPacket_round (s : State) (n : Nat) : (dropPacket s n).round = s.round := rfl

@[simp] theorem modTask_mem (s : State) (k : Nat) (f : Task → Task) : (modTask s k f).mem = s.mem := by
  unfold modTask; split <;> rfl
@[simp] theorem modTask_full (s : State) (k : Nat) (f : Task → Task) : (modTask s k f).full = s.full := by
  unfold modTask; split <;> rfl
@[simp] theorem modTask_spoilt (s : State) (k : Nat) (f : Task → Task) : (modTask s k f).spoilt = s.spoilt := by
  unfold modTask; split <;> rfl
@[simp] theorem modTask_flash (s : State) (k : Nat) (f : Task → Task) : (modTask s k f).flash = s.flash := by
  unfold modTask; split <;> rfl
@[simp] theorem modTask_cores (s : State) (k : Nat) (f : Task → Task) : (modTask s k f).cores = s.cores := by
  unfold modTask; split <;> rfl
@[simp] theorem modTask_tiles (s : State) (k : Nat) (f : Task → Task) : (modTask s k f).tiles = s.tiles := by
  unfold modTask; split <;> rfl
@[simp] theorem modTask_pkgs (s : State) (k : Nat) (f : Task → Task) : (modTask s k f).pkgs = s.pkgs := by
  unfold modTask; split <;> rfl
@[simp] theorem modTask_ctxs (s : State) (k : Nat) (f : Task → Task) : (modTask s k f).ctxs = s.ctxs := by
  unfold modTask; split <;> rfl
@[simp] theorem modTask_parts (s : State) (k : Nat) (f : Task → Task) : (modTask s k f).parts = s.parts := by
  unfold modTask; split <;> rfl
@[simp] theorem modTask_frames (s : State) (k : Nat) (f : Task → Task) : (modTask s k f).frames = s.frames := by
  unfold modTask; split <;> rfl
@[simp] theorem modTask_launches (s : State) (k : Nat) (f : Task → Task) : (modTask s k f).launches = s.launches := by
  unfold modTask; split <;> rfl
@[simp] theorem modTask_ending (s : State) (k : Nat) (f : Task → Task) : (modTask s k f).ending = s.ending := by
  unfold modTask; split <;> rfl
@[simp] theorem modTask_kills (s : State) (k : Nat) (f : Task → Task) : (modTask s k f).kills = s.kills := by
  unfold modTask; split <;> rfl
@[simp] theorem modTask_net (s : State) (k : Nat) (f : Task → Task) : (modTask s k f).net = s.net := by
  unfold modTask; split <;> rfl
@[simp] theorem modTask_inbox (s : State) (k : Nat) (f : Task → Task) : (modTask s k f).inbox = s.inbox := by
  unfold modTask; split <;> rfl
@[simp] theorem modTask_manager (s : State) (k : Nat) (f : Task → Task) : (modTask s k f).manager = s.manager := by
  unfold modTask; split <;> rfl
@[simp] theorem modTask_nextId (s : State) (k : Nat) (f : Task → Task) : (modTask s k f).nextId = s.nextId := by
  unfold modTask; split <;> rfl
@[simp] theorem modTask_draws (s : State) (k : Nat) (f : Task → Task) : (modTask s k f).draws = s.draws := by
  unfold modTask; split <;> rfl
@[simp] theorem modTask_cyc (s : State) (k : Nat) (f : Task → Task) : (modTask s k f).cyc = s.cyc := by
  unfold modTask; split <;> rfl
@[simp] theorem modTask_ftime (s : State) (k : Nat) (f : Task → Task) : (modTask s k f).ftime = s.ftime := by
  unfold modTask; split <;> rfl
@[simp] theorem modTask_here (s : State) (k : Nat) (f : Task → Task) : (modTask s k f).here = s.here := by
  unfold modTask; split <;> rfl
@[simp] theorem modTask_agenda (s : State) (k : Nat) (f : Task → Task) : (modTask s k f).agenda = s.agenda := by
  unfold modTask; split <;> rfl
@[simp] theorem modTask_round (s : State) (k : Nat) (f : Task → Task) : (modTask s k f).round = s.round := by
  unfold modTask; split <;> rfl

/-! ### Reads after writes -/

theorem tget_tput {α : Type} (t : Table α) (k j : Nat) (v : α) :
    tget (tput t k v) j = if k = j then some v else tget t j := by
  induction t with
  | nil => simp [tput, tget]
  | cons x r ih =>
    obtain ⟨i, w⟩ := x
    simp only [tput]
    split
    · subst i
      simp only [tget]
      split <;> rfl
    · split
      · simp only [tget]
      · simp only [tget, ih]
        split
        · split
          · omega
          · rfl
        · rfl

theorem tput_tput {α : Type} (t : Table α) (k : Nat) (v w : α) : tput (tput t k v) k w = tput t k w := by
  induction t with
  | nil => simp [tput]
  | cons x r ih =>
    obtain ⟨i, u⟩ := x
    simp only [tput]
    split
    · simp [tput]
    · split
      · simp [tput]
      · simp only [tput]
        rw [if_neg (by assumption), if_neg (by assumption), ih]

theorem tget_tdel {α : Type} (t : Table α) (k j : Nat) : tget (tdel t k) j = if k = j then none else tget t j := by
  induction t with
  | nil => simp [tdel, tget]
  | cons x r ih =>
    obtain ⟨i, w⟩ := x
    unfold tdel at ih ⊢
    rw [List.filter_cons]
    by_cases h : i = k
    · subst i
      simp only [bne_self_eq_false, Bool.false_eq_true, if_false, ih, tget]
      split
      · rfl
      · rfl
    · have : (i != k) = true := by simpa using h
      simp only [this, if_true, tget, ih]
      split
      · rw [if_neg (by omega)]
      · rfl

@[simp] theorem taskAt_putTask (s : State) (k : Nat) (t : Task) : taskAt (putTask s k t) k = some t := by
  simp [taskAt, putTask, tget_tput]
theorem taskAt_putTask_ne (s : State) (k j : Nat) (t : Task) (h : k ≠ j) : taskAt (putTask s k t) j = taskAt s j := by
  simp [taskAt, putTask, tget_tput, h]
@[simp] theorem putTask_putTask (s : State) (k : Nat) (t u : Task) : putTask (putTask s k t) k u = putTask s k u := by
  simp [putTask, tput_tput]
@[simp] theorem coreAt_putTask (s : State) (k c : Nat) (t : Task) : coreAt (putTask s k t) c = coreAt s c := rfl
@[simp] theorem tileAt_putTask (s : State) (k c : Nat) (t : Task) : tileAt (putTask s k t) c = tileAt s c := rfl
@[simp] theorem coreAt_putCore (s : State) (k : Nat) (x : Core) : coreAt (putCore s k x) k = x := by
  simp [coreAt, putCore, tget_tput]
theorem coreAt_putCore_ne (s : State) (k j : Nat) (x : Core) (h : k ≠ j) : coreAt (putCore s k x) j = coreAt s j := by
  simp [coreAt, putCore, tget_tput, h]
@[simp] theorem tileAt_putTile (s : State) (k : Nat) (x : Tile) : tileAt (putTile s k x) k = x := by
  simp [tileAt, putTile, tget_tput]
theorem tileAt_putTile_ne (s : State) (k j : Nat) (x : Tile) (h : k ≠ j) : tileAt (putTile s k x) j = tileAt s j := by
  simp [tileAt, putTile, tget_tput, h]
@[simp] theorem taskAt_putCore (s : State) (k c : Nat) (x : Core) : taskAt (putCore s k x) c = taskAt s c := rfl
@[simp] theorem taskAt_putTile (s : State) (k c : Nat) (x : Tile) : taskAt (putTile s k x) c = taskAt s c := rfl
@[simp] theorem tileAt_putCore (s : State) (k c : Nat) (x : Core) : tileAt (putCore s k x) c = tileAt s c := rfl
@[simp] theorem coreAt_putTile (s : State) (k c : Nat) (x : Tile) : coreAt (putTile s k x) c = coreAt s c := rfl

/-- Changing the task of a slot that holds one. -/
theorem modTask_of (s : State) (k : Nat) (t : Task) (f : Task → Task) (h : taskAt s k = some t) :
    modTask s k f = putTask s k (f t) := by
  simp [modTask, h]

/-! ### Flash (R365) -/

/-- Putting bytes on flash keeps its canonical form. -/
theorem flashPut_wf (s : State) (k : Nat) (l : List Byte) (h : Memory.wf s.flash = true) :
    Memory.wf (flashPut s k l).flash = true := by
  induction l generalizing s k with
  | nil => exact h
  | cons b r ih => exact ih _ _ (cellPut_wf _ _ _ h)
@[simp] theorem flashPut_mem (s : State) (k : Nat) (l : List Byte) : (flashPut s k l).mem = s.mem := by
  induction l generalizing s k with
  | nil => rfl
  | cons b r ih => exact ih _ _
@[simp] theorem flashPut_tasks (s : State) (k : Nat) (l : List Byte) : (flashPut s k l).tasks = s.tasks := by
  induction l generalizing s k with
  | nil => rfl
  | cons b r ih => exact ih _ _
@[simp] theorem flashPut_tiles (s : State) (k : Nat) (l : List Byte) : (flashPut s k l).tiles = s.tiles := by
  induction l generalizing s k with
  | nil => rfl
  | cons b r ih => exact ih _ _
@[simp] theorem flashPut_cores (s : State) (k : Nat) (l : List Byte) : (flashPut s k l).cores = s.cores := by
  induction l generalizing s k with
  | nil => rfl
  | cons b r ih => exact ih _ _

/-! ### Registers (R9) -/

theorem gGet_gSet (t : Task) (d n : BitVec 5) (v : Dword) :
    gGet (gSet t d v) n = if n = d ∧ n ≠ 0#5 then v else gGet t n := by
  unfold gGet gSet
  by_cases hn : n = 0#5
  · simp [hn]
  · by_cases hd : d = 0#5
    · have : n ≠ d := by rw [hd]; exact hn
      simp [hn, hd]
    · simp only [hn, hd, if_false, ne_eq, not_false_eq_true, and_true]
      by_cases e : n = d
      · subst e; simp
      · have : d.toNat ≠ n.toNat := fun h => e (BitVec.eq_of_toNat_eq h.symm)
        simp [e, this]

theorem fGet_fSet (t : Task) (d n : BitVec 5) (v : Word) : fGet (fSet t d v) n = if n = d then v else fGet t n := by
  unfold fGet fSet
  by_cases e : n = d
  · subst e; simp
  · have : d.toNat ≠ n.toNat := fun h => e (BitVec.eq_of_toNat_eq h.symm)
    simp [e, this]

/-- A write of a g register leaves everything else of the task, but for the mark of the register's old value. -/
theorem gSet_frame (t : Task) (d : BitVec 5) (v : Dword) :
    gSet t d v = { t with g := (gSet t d v).g, spoilt := (gSet t d v).spoilt } := by
  unfold gSet; split <;> rfl
theorem fSet_frame (t : Task) (d : BitVec 5) (v : Word) :
    fSet t d v = { t with f := (fSet t d v).f, spoilt := (fSet t d v).spoilt } := rfl
theorem pSet_frame (t : Task) (d : BitVec 3) (v : Bool) :
    pSet t d v = { t with p := (pSet t d v).p, spoilt := (pSet t d v).spoilt } := by
  unfold pSet; split <;> rfl
/-- Moving pc changes at most pc, with the address bits above it, and LCOUNT. -/
theorem stepPc_frame (t : Task) (n : Nat) :
    stepPc t n = { t with pc := (stepPc t n).pc, pcOver := (stepPc t n).pcOver, lcount := (stepPc t n).lcount } := by
  unfold stepPc setPc; simp only; split
  · split
    · split <;> rfl
    · split <;> rfl
  · rfl
theorem jumpPc_frame (t : Task) (a : Dword) (c : Bool) :
    jumpPc t a c = { t with pc := (jumpPc t a c).pc, pcOver := (jumpPc t a c).pcOver, lcount := (jumpPc t a c).lcount } := by
  unfold jumpPc setPc; split <;> rfl
/-- Nothing of the address a transfer goes to is lost (R16, R86). -/
@[simp] theorem wholePc_setPc (t : Task) (a : Dword) : wholePc (setPc t a) = a := by
  simp only [wholePc, setPc]
  exact BitVec.eq_of_toNat_eq (by
    simp only [BitVec.toNat_append, BitVec.extractLsb'_toNat, BitVec.toNat_setWidth, Nat.shiftRight_eq_div_pow]
    rw [← Nat.shiftLeft_add_eq_or_of_lt (by omega), Nat.shiftLeft_eq]
    omega)

end Sys2Proof.Machine
end

