-- ==== Sys2Proof/Laws/Frame.lean ====
section
/-!
SUPPORT. Sys2Proof/Laws/Frame.lean: what the frame of an instruction does, once, and what its effect may be made of.
-/

namespace Sys2Proof.Machine

/-- An effect that succeeds and goes on to the next instruction. -/
theorem scalar_seq {i : Instr} {g : BitVec 4} {s s' : State} {t : Task} {body : Task → M Flow} (h : Executes i g s t)
    (hb : body t s = .ok (.seq, s')) :
    scalar i g s body = .next (modTask s' s'.here (fun u => past u i.length)) := by
  simp only [scalar, h.here, h.passes, h.sound, h.guard, Bool.false_eq_true, if_false, if_true, effect, h.unbound, List.isEmpty_nil, finish, hb, past]

/-- An effect that succeeds and transfers. -/
theorem scalar_jump {i : Instr} {g : BitVec 4} {s s' : State} {t : Task} {body : Task → M Flow} {a : Dword} {c : Bool}
    (h : Executes i g s t) (hb : body t s = .ok (.jump a c, s')) :
    scalar i g s body = .next (modTask s' s'.here (fun u => gone u a c)) := by
  simp only [scalar, h.here, h.passes, h.sound, h.guard, Bool.false_eq_true, if_false, if_true, effect, h.unbound, List.isEmpty_nil, finish, hb, gone]

/-- An effect that succeeds and leaves pc to itself. -/
theorem scalar_stay {i : Instr} {g : BitVec 4} {s s' : State} {t : Task} {body : Task → M Flow} (h : Executes i g s t)
    (hb : body t s = .ok (.stay, s')) : scalar i g s body = .next s' := by
  simp only [scalar, h.here, h.passes, h.sound, h.guard, Bool.false_eq_true, if_false, if_true, effect, h.unbound, List.isEmpty_nil, finish, hb]

/-- An effect that takes a precise trap. -/
theorem scalar_trap {i : Instr} {g : BitVec 4} {s : State} {t : Task} {body : Task → M Flow} {c : Cause} {v : Dword}
    (h : Executes i g s t) (hb : body t s = .error (.trap c v)) : scalar i g s body = .next (takeTrap c v s) := by
  simp only [scalar, h.here, h.passes, h.sound, h.guard, Bool.false_eq_true, if_false, if_true, effect, h.unbound, List.isEmpty_nil, finish, hb]

/-- A check that fails. -/
theorem scalar_refused {i : Instr} {g : BitVec 4} {s : State} {t : Task} {body : Task → M Flow} {c : Cause} {v : Dword}
    (h : hereTask s = some t) (hc : checks i t (coreNum (hereCore s)) = some (c, v)) :
    scalar i g s body = .next (takeTrap c v s) := by
  simp only [scalar, h, hc]

/-- A spoilt register is consumed (R338). -/
theorem scalar_spoilt {i : Instr} {g : BitVec 4} {s : State} {t : Task} {body : Task → M Flow} (h : hereTask s = some t)
    (hc : checks i t (coreNum (hereCore s)) = none) (hs : consumesSpoilt i g t = true) :
    scalar i g s body = .next (takeTrap causeMcheck 0 s) := by
  simp only [scalar, h, hc, hs, if_true]

/-- A false guard (R10). -/
theorem scalar_off {i : Instr} {g : BitVec 4} {s : State} {t : Task} {body : Task → M Flow} (h : hereTask s = some t)
    (hc : checks i t (coreNum (hereCore s)) = none) (hs : consumesSpoilt i g t = false) (hg : guardHolds t g = false) :
    scalar i g s body = .next (retire s t i.length) := by
  simp only [scalar, h, hc, hs, hg, Bool.false_eq_true, if_false, retire]
  rw [modTask_of s s.here t _ h]
  rfl

theorem onTask_run (f : Task → Task) (t : Task) (s : State) : onTask f t s = .ok (.seq, modTask s s.here f) := rfl

/-- A register-only instruction. -/
theorem scalar_onTask {i : Instr} {g : BitVec 4} {s : State} {t : Task} (f : Task → Task) (h : Executes i g s t) :
    scalar i g s (onTask f) = .next (retire s (f t) i.length) := by
  rw [scalar_seq h (onTask_run f t s), modTask_of s s.here t f h.here]
  show Host.Outcome.next (modTask (putTask s s.here (f t)) s.here _) = _
  rw [modTask_of _ _ (f t) _ (taskAt_putTask s s.here (f t)), putTask_putTask]
  rfl

end Sys2Proof.Machine
end

