-- ==== Sys2Proof/Laws/PerInstr.lean ====
section
/-!
SUPPORT. Sys2Proof/Laws/PerInstr.lean: the statement that is made of every instruction on its own, and its lemma for each.
-/

set_option linter.unusedSimpArgs false

namespace Sys2Proof.Laws

set_option Elab.async false

/-- The fields of an instruction's encoding are read back one and all: by the decoder of compact halfwords, or by that of
words, in a vector stream where the row is one of a stream's. A step of the device has no encoding. -/
def RoundTrip.Statement (i : Instr) : Prop :=
  match encode i with
  | .none => True
  | .half h => decodeRaw16 h = some i
  | .word w => decodeRaw32 i.streamForm w = some i

theorem RoundTrip.add (w : BitVec 1) (b a d : BitVec 5) (g : BitVec 4) : RoundTrip.Statement (.add w b a d g) := by
  show decodeRaw32 false _ = some _
  rw [raw1 false _ (by simp (disch := decide) only [extract_append_low, extract_all])]
  simp (disch := decide) only [decodeAlu, extract_append_low, extract_append_high, extract_all, Nat.reduceSub, BitVec.reduceToNat, if_true, and_self, true_and]

theorem RoundTrip.sub (w : BitVec 1) (b a d : BitVec 5) (g : BitVec 4) : RoundTrip.Statement (.sub w b a d g) := by
  show decodeRaw32 false _ = some _
  rw [raw1 false _ (by simp (disch := decide) only [extract_append_low, extract_all])]
  simp (disch := decide) only [decodeAlu, extract_append_low, extract_append_high, extract_all, Nat.reduceSub, BitVec.reduceToNat, if_true, and_self, true_and]

theorem RoundTrip.mul (w : BitVec 1) (b a d : BitVec 5) (g : BitVec 4) : RoundTrip.Statement (.mul w b a d g) := by
  show decodeRaw32 false _ = some _
  rw [raw1 false _ (by simp (disch := decide) only [extract_append_low, extract_all])]
  simp (disch := decide) only [decodeAlu, extract_append_low, extract_append_high, extract_all, Nat.reduceSub, BitVec.reduceToNat, if_true, and_self, true_and]

theorem RoundTrip.mulh (w : BitVec 1) (b a d : BitVec 5) (g : BitVec 4) : RoundTrip.Statement (.mulh w b a d g) := by
  show decodeRaw32 false _ = some _
  rw [raw1 false _ (by simp (disch := decide) only [extract_append_low, extract_all])]
  simp (disch := decide) only [decodeAlu, extract_append_low, extract_append_high, extract_all, Nat.reduceSub, BitVec.reduceToNat, if_true, and_self, true_and]

theorem RoundTrip.mulhn (w : BitVec 1) (b a d : BitVec 5) (g : BitVec 4) : RoundTrip.Statement (.mulhn w b a d g) := by
  show decodeRaw32 false _ = some _
  rw [raw1 false _ (by simp (disch := decide) only [extract_append_low, extract_all])]
  simp (disch := decide) only [decodeAlu, extract_append_low, extract_append_high, extract_all, Nat.reduceSub, BitVec.reduceToNat, if_true, and_self, true_and]

theorem RoundTrip.div (w : BitVec 1) (b a d : BitVec 5) (g : BitVec 4) : RoundTrip.Statement (.div w b a d g) := by
  show decodeRaw32 false _ = some _
  rw [raw1 false _ (by simp (disch := decide) only [extract_append_low, extract_all])]
  simp (disch := decide) only [decodeAlu, extract_append_low, extract_append_high, extract_all, Nat.reduceSub, BitVec.reduceToNat, if_true, and_self, true_and]

theorem RoundTrip.divn (w : BitVec 1) (b a d : BitVec 5) (g : BitVec 4) : RoundTrip.Statement (.divn w b a d g) := by
  show decodeRaw32 false _ = some _
  rw [raw1 false _ (by simp (disch := decide) only [extract_append_low, extract_all])]
  simp (disch := decide) only [decodeAlu, extract_append_low, extract_append_high, extract_all, Nat.reduceSub, BitVec.reduceToNat, if_true, and_self, true_and]

theorem RoundTrip.rem (w : BitVec 1) (b a d : BitVec 5) (g : BitVec 4) : RoundTrip.Statement (.rem w b a d g) := by
  show decodeRaw32 false _ = some _
  rw [raw1 false _ (by simp (disch := decide) only [extract_append_low, extract_all])]
  simp (disch := decide) only [decodeAlu, extract_append_low, extract_append_high, extract_all, Nat.reduceSub, BitVec.reduceToNat, if_true, and_self, true_and]

theorem RoundTrip.remn (w : BitVec 1) (b a d : BitVec 5) (g : BitVec 4) : RoundTrip.Statement (.remn w b a d g) := by
  show decodeRaw32 false _ = some _
  rw [raw1 false _ (by simp (disch := decide) only [extract_append_low, extract_all])]
  simp (disch := decide) only [decodeAlu, extract_append_low, extract_append_high, extract_all, Nat.reduceSub, BitVec.reduceToNat, if_true, and_self, true_and]

theorem RoundTrip.and (b a d : BitVec 5) (g : BitVec 4) : RoundTrip.Statement (.and b a d g) := by
  show decodeRaw32 false _ = some _
  rw [raw1 false _ (by simp (disch := decide) only [extract_append_low, extract_all])]
  simp (disch := decide) only [decodeAlu, extract_append_low, extract_append_high, extract_all, Nat.reduceSub, BitVec.reduceToNat, if_true, and_self, true_and]

theorem RoundTrip.or (b a d : BitVec 5) (g : BitVec 4) : RoundTrip.Statement (.or b a d g) := by
  show decodeRaw32 false _ = some _
  rw [raw1 false _ (by simp (disch := decide) only [extract_append_low, extract_all])]
  simp (disch := decide) only [decodeAlu, extract_append_low, extract_append_high, extract_all, Nat.reduceSub, BitVec.reduceToNat, if_true, and_self, true_and]

theorem RoundTrip.xor (b a d : BitVec 5) (g : BitVec 4) : RoundTrip.Statement (.xor b a d g) := by
  show decodeRaw32 false _ = some _
  rw [raw1 false _ (by simp (disch := decide) only [extract_append_low, extract_all])]
  simp (disch := decide) only [decodeAlu, extract_append_low, extract_append_high, extract_all, Nat.reduceSub, BitVec.reduceToNat, if_true, and_self, true_and]

theorem RoundTrip.andn (b a d : BitVec 5) (g : BitVec 4) : RoundTrip.Statement (.andn b a d g) := by
  show decodeRaw32 false _ = some _
  rw [raw1 false _ (by simp (disch := decide) only [extract_append_low, extract_all])]
  simp (disch := decide) only [decodeAlu, extract_append_low, extract_append_high, extract_all, Nat.reduceSub, BitVec.reduceToNat, if_true, and_self, true_and]

theorem RoundTrip.shl (w : BitVec 1) (b a d : BitVec 5) (g : BitVec 4) : RoundTrip.Statement (.shl w b a d g) := by
  show decodeRaw32 false _ = some _
  rw [raw1 false _ (by simp (disch := decide) only [extract_append_low, extract_all])]
  simp (disch := decide) only [decodeAlu, extract_append_low, extract_append_high, extract_all, Nat.reduceSub, BitVec.reduceToNat, if_true, and_self, true_and]

theorem RoundTrip.shr (w : BitVec 1) (b a d : BitVec 5) (g : BitVec 4) : RoundTrip.Statement (.shr w b a d g) := by
  show decodeRaw32 false _ = some _
  rw [raw1 false _ (by simp (disch := decide) only [extract_append_low, extract_all])]
  simp (disch := decide) only [decodeAlu, extract_append_low, extract_append_high, extract_all, Nat.reduceSub, BitVec.reduceToNat, if_true, and_self, true_and]

theorem RoundTrip.sra (w : BitVec 1) (b a d : BitVec 5) (g : BitVec 4) : RoundTrip.Statement (.sra w b a d g) := by
  show decodeRaw32 false _ = some _
  rw [raw1 false _ (by simp (disch := decide) only [extract_append_low, extract_all])]
  simp (disch := decide) only [decodeAlu, extract_append_low, extract_append_high, extract_all, Nat.reduceSub, BitVec.reduceToNat, if_true, and_self, true_and]

theorem RoundTrip.rot (w : BitVec 1) (b a d : BitVec 5) (g : BitVec 4) : RoundTrip.Statement (.rot w b a d g) := by
  show decodeRaw32 false _ = some _
  rw [raw1 false _ (by simp (disch := decide) only [extract_append_low, extract_all])]
  simp (disch := decide) only [decodeAlu, extract_append_low, extract_append_high, extract_all, Nat.reduceSub, BitVec.reduceToNat, if_true, and_self, true_and]

theorem RoundTrip.min (b a d : BitVec 5) (g : BitVec 4) : RoundTrip.Statement (.min b a d g) := by
  show decodeRaw32 false _ = some _
  rw [raw1 false _ (by simp (disch := decide) only [extract_append_low, extract_all])]
  simp (disch := decide) only [decodeAlu, extract_append_low, extract_append_high, extract_all, Nat.reduceSub, BitVec.reduceToNat, if_true, and_self, true_and]

theorem RoundTrip.max (b a d : BitVec 5) (g : BitVec 4) : RoundTrip.Statement (.max b a d g) := by
  show decodeRaw32 false _ = some _
  rw [raw1 false _ (by simp (disch := decide) only [extract_append_low, extract_all])]
  simp (disch := decide) only [decodeAlu, extract_append_low, extract_append_high, extract_all, Nat.reduceSub, BitVec.reduceToNat, if_true, and_self, true_and]

theorem RoundTrip.minn (b a d : BitVec 5) (g : BitVec 4) : RoundTrip.Statement (.minn b a d g) := by
  show decodeRaw32 false _ = some _
  rw [raw1 false _ (by simp (disch := decide) only [extract_append_low, extract_all])]
  simp (disch := decide) only [decodeAlu, extract_append_low, extract_append_high, extract_all, Nat.reduceSub, BitVec.reduceToNat, if_true, and_self, true_and]

theorem RoundTrip.maxn (b a d : BitVec 5) (g : BitVec 4) : RoundTrip.Statement (.maxn b a d g) := by
  show decodeRaw32 false _ = some _
  rw [raw1 false _ (by simp (disch := decide) only [extract_append_low, extract_all])]
  simp (disch := decide) only [decodeAlu, extract_append_low, extract_append_high, extract_all, Nat.reduceSub, BitVec.reduceToNat, if_true, and_self, true_and]

theorem RoundTrip.sel (b a d : BitVec 5) (s : BitVec 4) : RoundTrip.Statement (.sel b a d s) := by
  show decodeRaw32 false _ = some _
  rw [raw1 false _ (by simp (disch := decide) only [extract_append_low, extract_all])]
  simp (disch := decide) only [decodeAlu, extract_append_low, extract_append_high, extract_all, Nat.reduceSub, BitVec.reduceToNat, if_true, and_self, true_and]

theorem RoundTrip.addi (i : BitVec 11) (a d : BitVec 5) (g : BitVec 4) : RoundTrip.Statement (.addi i a d g) := by
  show decodeRaw32 false _ = some _
  rw [raw3 false _ (by simp (disch := decide) only [extract_append_low, extract_all])]
  simp (disch := decide) only [decodeAddi, extract_append_low, extract_append_high, extract_all, Nat.reduceSub, BitVec.reduceToNat, if_true, and_self, true_and]

theorem RoundTrip.andi (i : BitVec 11) (a d : BitVec 5) (g : BitVec 4) : RoundTrip.Statement (.andi i a d g) := by
  show decodeRaw32 false _ = some _
  rw [raw5 false _ (by simp (disch := decide) only [extract_append_low, extract_all])]
  simp (disch := decide) only [decodeAndi, extract_append_low, extract_append_high, extract_all, Nat.reduceSub, BitVec.reduceToNat, if_true, and_self, true_and]

theorem RoundTrip.ori (i : BitVec 11) (a d : BitVec 5) (g : BitVec 4) : RoundTrip.Statement (.ori i a d g) := by
  show decodeRaw32 false _ = some _
  rw [raw7 false _ (by simp (disch := decide) only [extract_append_low, extract_all])]
  simp (disch := decide) only [decodeOri, extract_append_low, extract_append_high, extract_all, Nat.reduceSub, BitVec.reduceToNat, if_true, and_self, true_and]

theorem RoundTrip.xori (i : BitVec 11) (a d : BitVec 5) (g : BitVec 4) : RoundTrip.Statement (.xori i a d g) := by
  show decodeRaw32 false _ = some _
  rw [raw9 false _ (by simp (disch := decide) only [extract_append_low, extract_all])]
  simp (disch := decide) only [decodeXori, extract_append_low, extract_append_high, extract_all, Nat.reduceSub, BitVec.reduceToNat, if_true, and_self, true_and]

theorem RoundTrip.shli (w : BitVec 1) (s : BitVec 6) (a d : BitVec 5) (g : BitVec 4) : RoundTrip.Statement (.shli w s a d g) := by
  show decodeRaw32 false _ = some _
  rw [raw11 false _ (by simp (disch := decide) only [extract_append_low, extract_all])]
  simp (disch := decide) only [decodeShi, extract_append_low, extract_append_high, extract_all, Nat.reduceSub, BitVec.reduceToNat, if_true, and_self, true_and]

theorem RoundTrip.shri (w : BitVec 1) (s : BitVec 6) (a d : BitVec 5) (g : BitVec 4) : RoundTrip.Statement (.shri w s a d g) := by
  show decodeRaw32 false _ = some _
  rw [raw11 false _ (by simp (disch := decide) only [extract_append_low, extract_all])]
  simp (disch := decide) only [decodeShi, extract_append_low, extract_append_high, extract_all, Nat.reduceSub, BitVec.reduceToNat, if_true, and_self, true_and]

theorem RoundTrip.srai (w : BitVec 1) (s : BitVec 6) (a d : BitVec 5) (g : BitVec 4) : RoundTrip.Statement (.srai w s a d g) := by
  show decodeRaw32 false _ = some _
  rw [raw11 false _ (by simp (disch := decide) only [extract_append_low, extract_all])]
  simp (disch := decide) only [decodeShi, extract_append_low, extract_append_high, extract_all, Nat.reduceSub, BitVec.reduceToNat, if_true, and_self, true_and]

theorem RoundTrip.roti (w : BitVec 1) (s : BitVec 6) (a d : BitVec 5) (g : BitVec 4) : RoundTrip.Statement (.roti w s a d g) := by
  show decodeRaw32 false _ = some _
  rw [raw11 false _ (by simp (disch := decide) only [extract_append_low, extract_all])]
  simp (disch := decide) only [decodeShi, extract_append_low, extract_append_high, extract_all, Nat.reduceSub, BitVec.reduceToNat, if_true, and_self, true_and]

theorem RoundTrip.movi (i : BitVec 16) (d : BitVec 5) (g : BitVec 4) : RoundTrip.Statement (.movi i d g) := by
  show decodeRaw32 false _ = some _
  rw [raw13 false _ (by simp (disch := decide) only [extract_append_low, extract_all])]
  simp (disch := decide) only [decodeMovi, extract_append_low, extract_append_high, extract_all, Nat.reduceSub, BitVec.reduceToNat, if_true, and_self, true_and]

theorem RoundTrip.movs (i : BitVec 16) (d : BitVec 5) (g : BitVec 4) : RoundTrip.Statement (.movs i d g) := by
  show decodeRaw32 false _ = some _
  rw [raw15 false _ (by simp (disch := decide) only [extract_append_low, extract_all])]
  simp (disch := decide) only [decodeMovs, extract_append_low, extract_append_high, extract_all, Nat.reduceSub, BitVec.reduceToNat, if_true, and_self, true_and]

theorem RoundTrip.abs (a d : BitVec 5) (g : BitVec 4) : RoundTrip.Statement (.abs a d g) := by
  show decodeRaw32 false _ = some _
  rw [raw17 false _ (by simp (disch := decide) only [extract_append_low, extract_all])]
  simp (disch := decide) only [decodeUnop, extract_append_low, extract_append_high, extract_all, Nat.reduceSub, BitVec.reduceToNat, if_true, and_self, true_and]

theorem RoundTrip.neg (a d : BitVec 5) (g : BitVec 4) : RoundTrip.Statement (.neg a d g) := by
  show decodeRaw32 false _ = some _
  rw [raw17 false _ (by simp (disch := decide) only [extract_append_low, extract_all])]
  simp (disch := decide) only [decodeUnop, extract_append_low, extract_append_high, extract_all, Nat.reduceSub, BitVec.reduceToNat, if_true, and_self, true_and]

theorem RoundTrip.not (a d : BitVec 5) (g : BitVec 4) : RoundTrip.Statement (.not a d g) := by
  show decodeRaw32 false _ = some _
  rw [raw17 false _ (by simp (disch := decide) only [extract_append_low, extract_all])]
  simp (disch := decide) only [decodeUnop, extract_append_low, extract_append_high, extract_all, Nat.reduceSub, BitVec.reduceToNat, if_true, and_self, true_and]

theorem RoundTrip.clz (a d : BitVec 5) (g : BitVec 4) : RoundTrip.Statement (.clz a d g) := by
  show decodeRaw32 false _ = some _
  rw [raw17 false _ (by simp (disch := decide) only [extract_append_low, extract_all])]
  simp (disch := decide) only [decodeUnop, extract_append_low, extract_append_high, extract_all, Nat.reduceSub, BitVec.reduceToNat, if_true, and_self, true_and]

theorem RoundTrip.ctz (a d : BitVec 5) (g : BitVec 4) : RoundTrip.Statement (.ctz a d g) := by
  show decodeRaw32 false _ = some _
  rw [raw17 false _ (by simp (disch := decide) only [extract_append_low, extract_all])]
  simp (disch := decide) only [decodeUnop, extract_append_low, extract_append_high, extract_all, Nat.reduceSub, BitVec.reduceToNat, if_true, and_self, true_and]

theorem RoundTrip.popc (a d : BitVec 5) (g : BitVec 4) : RoundTrip.Statement (.popc a d g) := by
  show decodeRaw32 false _ = some _
  rw [raw17 false _ (by simp (disch := decide) only [extract_append_low, extract_all])]
  simp (disch := decide) only [decodeUnop, extract_append_low, extract_append_high, extract_all, Nat.reduceSub, BitVec.reduceToNat, if_true, and_self, true_and]

theorem RoundTrip.sxb (a d : BitVec 5) (g : BitVec 4) : RoundTrip.Statement (.sxb a d g) := by
  show decodeRaw32 false _ = some _
  rw [raw17 false _ (by simp (disch := decide) only [extract_append_low, extract_all])]
  simp (disch := decide) only [decodeUnop, extract_append_low, extract_append_high, extract_all, Nat.reduceSub, BitVec.reduceToNat, if_true, and_self, true_and]

theorem RoundTrip.sxh (a d : BitVec 5) (g : BitVec 4) : RoundTrip.Statement (.sxh a d g) := by
  show decodeRaw32 false _ = some _
  rw [raw17 false _ (by simp (disch := decide) only [extract_append_low, extract_all])]
  simp (disch := decide) only [decodeUnop, extract_append_low, extract_append_high, extract_all, Nat.reduceSub, BitVec.reduceToNat, if_true, and_self, true_and]

theorem RoundTrip.sxw (a d : BitVec 5) (g : BitVec 4) : RoundTrip.Statement (.sxw a d g) := by
  show decodeRaw32 false _ = some _
  rw [raw17 false _ (by simp (disch := decide) only [extract_append_low, extract_all])]
  simp (disch := decide) only [decodeUnop, extract_append_low, extract_append_high, extract_all, Nat.reduceSub, BitVec.reduceToNat, if_true, and_self, true_and]

theorem RoundTrip.zxb (a d : BitVec 5) (g : BitVec 4) : RoundTrip.Statement (.zxb a d g) := by
  show decodeRaw32 false _ = some _
  rw [raw17 false _ (by simp (disch := decide) only [extract_append_low, extract_all])]
  simp (disch := decide) only [decodeUnop, extract_append_low, extract_append_high, extract_all, Nat.reduceSub, BitVec.reduceToNat, if_true, and_self, true_and]

theorem RoundTrip.zxh (a d : BitVec 5) (g : BitVec 4) : RoundTrip.Statement (.zxh a d g) := by
  show decodeRaw32 false _ = some _
  rw [raw17 false _ (by simp (disch := decide) only [extract_append_low, extract_all])]
  simp (disch := decide) only [decodeUnop, extract_append_low, extract_append_high, extract_all, Nat.reduceSub, BitVec.reduceToNat, if_true, and_self, true_and]

theorem RoundTrip.zxw (a d : BitVec 5) (g : BitVec 4) : RoundTrip.Statement (.zxw a d g) := by
  show decodeRaw32 false _ = some _
  rw [raw17 false _ (by simp (disch := decide) only [extract_append_low, extract_all])]
  simp (disch := decide) only [decodeUnop, extract_append_low, extract_append_high, extract_all, Nat.reduceSub, BitVec.reduceToNat, if_true, and_self, true_and]

theorem RoundTrip.bswap (a d : BitVec 5) (g : BitVec 4) : RoundTrip.Statement (.bswap a d g) := by
  show decodeRaw32 false _ = some _
  rw [raw17 false _ (by simp (disch := decide) only [extract_append_low, extract_all])]
  simp (disch := decide) only [decodeUnop, extract_append_low, extract_append_high, extract_all, Nat.reduceSub, BitVec.reduceToNat, if_true, and_self, true_and]

theorem RoundTrip.bfx (l : BitVec 5) (p : BitVec 6) (a d : BitVec 5) (g : BitVec 4) : RoundTrip.Statement (.bfx l p a d g) := by
  show decodeRaw32 false _ = some _
  rw [raw19 false _ (by simp (disch := decide) only [extract_append_low, extract_all])]
  simp (disch := decide) only [decodeBfx, extract_append_low, extract_append_high, extract_all, Nat.reduceSub, BitVec.reduceToNat, if_true, and_self, true_and]

theorem RoundTrip.bfi (l : BitVec 5) (p : BitVec 6) (a d : BitVec 5) (g : BitVec 4) : RoundTrip.Statement (.bfi l p a d g) := by
  show decodeRaw32 false _ = some _
  rw [raw21 false _ (by simp (disch := decide) only [extract_append_low, extract_all])]
  simp (disch := decide) only [decodeBfi, extract_append_low, extract_append_high, extract_all, Nat.reduceSub, BitVec.reduceToNat, if_true, and_self, true_and]

theorem RoundTrip.cmpEq (w : BitVec 1) (b a : BitVec 5) (o : BitVec 2) (d : BitVec 3) (g : BitVec 4) : RoundTrip.Statement (.cmpEq w b a o d g) := by
  show decodeRaw32 false _ = some _
  rw [raw23 false _ (by simp (disch := decide) only [extract_append_low, extract_all])]
  simp (disch := decide) only [decodeCmp, extract_append_low, extract_append_high, extract_all, Nat.reduceSub, BitVec.reduceToNat, if_true, and_self, true_and]

theorem RoundTrip.cmpNe (w : BitVec 1) (b a : BitVec 5) (o : BitVec 2) (d : BitVec 3) (g : BitVec 4) : RoundTrip.Statement (.cmpNe w b a o d g) := by
  show decodeRaw32 false _ = some _
  rw [raw23 false _ (by simp (disch := decide) only [extract_append_low, extract_all])]
  simp (disch := decide) only [decodeCmp, extract_append_low, extract_append_high, extract_all, Nat.reduceSub, BitVec.reduceToNat, if_true, and_self, true_and]

theorem RoundTrip.cmpLt (w : BitVec 1) (b a : BitVec 5) (o : BitVec 2) (d : BitVec 3) (g : BitVec 4) : RoundTrip.Statement (.cmpLt w b a o d g) := by
  show decodeRaw32 false _ = some _
  rw [raw23 false _ (by simp (disch := decide) only [extract_append_low, extract_all])]
  simp (disch := decide) only [decodeCmp, extract_append_low, extract_append_high, extract_all, Nat.reduceSub, BitVec.reduceToNat, if_true, and_self, true_and]

theorem RoundTrip.cmpLe (w : BitVec 1) (b a : BitVec 5) (o : BitVec 2) (d : BitVec 3) (g : BitVec 4) : RoundTrip.Statement (.cmpLe w b a o d g) := by
  show decodeRaw32 false _ = some _
  rw [raw23 false _ (by simp (disch := decide) only [extract_append_low, extract_all])]
  simp (disch := decide) only [decodeCmp, extract_append_low, extract_append_high, extract_all, Nat.reduceSub, BitVec.reduceToNat, if_true, and_self, true_and]

theorem RoundTrip.cmpGt (w : BitVec 1) (b a : BitVec 5) (o : BitVec 2) (d : BitVec 3) (g : BitVec 4) : RoundTrip.Statement (.cmpGt w b a o d g) := by
  show decodeRaw32 false _ = some _
  rw [raw23 false _ (by simp (disch := decide) only [extract_append_low, extract_all])]
  simp (disch := decide) only [decodeCmp, extract_append_low, extract_append_high, extract_all, Nat.reduceSub, BitVec.reduceToNat, if_true, and_self, true_and]

theorem RoundTrip.cmpGe (w : BitVec 1) (b a : BitVec 5) (o : BitVec 2) (d : BitVec 3) (g : BitVec 4) : RoundTrip.Statement (.cmpGe w b a o d g) := by
  show decodeRaw32 false _ = some _
  rw [raw23 false _ (by simp (disch := decide) only [extract_append_low, extract_all])]
  simp (disch := decide) only [decodeCmp, extract_append_low, extract_append_high, extract_all, Nat.reduceSub, BitVec.reduceToNat, if_true, and_self, true_and]

theorem RoundTrip.cmpLtn (w : BitVec 1) (b a : BitVec 5) (o : BitVec 2) (d : BitVec 3) (g : BitVec 4) : RoundTrip.Statement (.cmpLtn w b a o d g) := by
  show decodeRaw32 false _ = some _
  rw [raw23 false _ (by simp (disch := decide) only [extract_append_low, extract_all])]
  simp (disch := decide) only [decodeCmp, extract_append_low, extract_append_high, extract_all, Nat.reduceSub, BitVec.reduceToNat, if_true, and_self, true_and]

theorem RoundTrip.cmpLen (w : BitVec 1) (b a : BitVec 5) (o : BitVec 2) (d : BitVec 3) (g : BitVec 4) : RoundTrip.Statement (.cmpLen w b a o d g) := by
  show decodeRaw32 false _ = some _
  rw [raw23 false _ (by simp (disch := decide) only [extract_append_low, extract_all])]
  simp (disch := decide) only [decodeCmp, extract_append_low, extract_append_high, extract_all, Nat.reduceSub, BitVec.reduceToNat, if_true, and_self, true_and]

theorem RoundTrip.cmpGtn (w : BitVec 1) (b a : BitVec 5) (o : BitVec 2) (d : BitVec 3) (g : BitVec 4) : RoundTrip.Statement (.cmpGtn w b a o d g) := by
  show decodeRaw32 false _ = some _
  rw [raw23 false _ (by simp (disch := decide) only [extract_append_low, extract_all])]
  simp (disch := decide) only [decodeCmp, extract_append_low, extract_append_high, extract_all, Nat.reduceSub, BitVec.reduceToNat, if_true, and_self, true_and]

theorem RoundTrip.cmpGen (w : BitVec 1) (b a : BitVec 5) (o : BitVec 2) (d : BitVec 3) (g : BitVec 4) : RoundTrip.Statement (.cmpGen w b a o d g) := by
  show decodeRaw32 false _ = some _
  rw [raw23 false _ (by simp (disch := decide) only [extract_append_low, extract_all])]
  simp (disch := decide) only [decodeCmp, extract_append_low, extract_append_high, extract_all, Nat.reduceSub, BitVec.reduceToNat, if_true, and_self, true_and]

theorem RoundTrip.cmpiEq (w : BitVec 1) (i a : BitVec 5) (o : BitVec 2) (d : BitVec 3) (g : BitVec 4) : RoundTrip.Statement (.cmpiEq w i a o d g) := by
  show decodeRaw32 false _ = some _
  rw [raw25 false _ (by simp (disch := decide) only [extract_append_low, extract_all])]
  simp (disch := decide) only [decodeCmpi, extract_append_low, extract_append_high, extract_all, Nat.reduceSub, BitVec.reduceToNat, if_true, and_self, true_and]

theorem RoundTrip.cmpiNe (w : BitVec 1) (i a : BitVec 5) (o : BitVec 2) (d : BitVec 3) (g : BitVec 4) : RoundTrip.Statement (.cmpiNe w i a o d g) := by
  show decodeRaw32 false _ = some _
  rw [raw25 false _ (by simp (disch := decide) only [extract_append_low, extract_all])]
  simp (disch := decide) only [decodeCmpi, extract_append_low, extract_append_high, extract_all, Nat.reduceSub, BitVec.reduceToNat, if_true, and_self, true_and]

theorem RoundTrip.cmpiLt (w : BitVec 1) (i a : BitVec 5) (o : BitVec 2) (d : BitVec 3) (g : BitVec 4) : RoundTrip.Statement (.cmpiLt w i a o d g) := by
  show decodeRaw32 false _ = some _
  rw [raw25 false _ (by simp (disch := decide) only [extract_append_low, extract_all])]
  simp (disch := decide) only [decodeCmpi, extract_append_low, extract_append_high, extract_all, Nat.reduceSub, BitVec.reduceToNat, if_true, and_self, true_and]

theorem RoundTrip.cmpiLe (w : BitVec 1) (i a : BitVec 5) (o : BitVec 2) (d : BitVec 3) (g : BitVec 4) : RoundTrip.Statement (.cmpiLe w i a o d g) := by
  show decodeRaw32 false _ = some _
  rw [raw25 false _ (by simp (disch := decide) only [extract_append_low, extract_all])]
  simp (disch := decide) only [decodeCmpi, extract_append_low, extract_append_high, extract_all, Nat.reduceSub, BitVec.reduceToNat, if_true, and_self, true_and]

theorem RoundTrip.cmpiGt (w : BitVec 1) (i a : BitVec 5) (o : BitVec 2) (d : BitVec 3) (g : BitVec 4) : RoundTrip.Statement (.cmpiGt w i a o d g) := by
  show decodeRaw32 false _ = some _
  rw [raw25 false _ (by simp (disch := decide) only [extract_append_low, extract_all])]
  simp (disch := decide) only [decodeCmpi, extract_append_low, extract_append_high, extract_all, Nat.reduceSub, BitVec.reduceToNat, if_true, and_self, true_and]

theorem RoundTrip.cmpiGe (w : BitVec 1) (i a : BitVec 5) (o : BitVec 2) (d : BitVec 3) (g : BitVec 4) : RoundTrip.Statement (.cmpiGe w i a o d g) := by
  show decodeRaw32 false _ = some _
  rw [raw25 false _ (by simp (disch := decide) only [extract_append_low, extract_all])]
  simp (disch := decide) only [decodeCmpi, extract_append_low, extract_append_high, extract_all, Nat.reduceSub, BitVec.reduceToNat, if_true, and_self, true_and]

theorem RoundTrip.cmpiLtn (w : BitVec 1) (i a : BitVec 5) (o : BitVec 2) (d : BitVec 3) (g : BitVec 4) : RoundTrip.Statement (.cmpiLtn w i a o d g) := by
  show decodeRaw32 false _ = some _
  rw [raw25 false _ (by simp (disch := decide) only [extract_append_low, extract_all])]
  simp (disch := decide) only [decodeCmpi, extract_append_low, extract_append_high, extract_all, Nat.reduceSub, BitVec.reduceToNat, if_true, and_self, true_and]

theorem RoundTrip.cmpiLen (w : BitVec 1) (i a : BitVec 5) (o : BitVec 2) (d : BitVec 3) (g : BitVec 4) : RoundTrip.Statement (.cmpiLen w i a o d g) := by
  show decodeRaw32 false _ = some _
  rw [raw25 false _ (by simp (disch := decide) only [extract_append_low, extract_all])]
  simp (disch := decide) only [decodeCmpi, extract_append_low, extract_append_high, extract_all, Nat.reduceSub, BitVec.reduceToNat, if_true, and_self, true_and]

theorem RoundTrip.cmpiGtn (w : BitVec 1) (i a : BitVec 5) (o : BitVec 2) (d : BitVec 3) (g : BitVec 4) : RoundTrip.Statement (.cmpiGtn w i a o d g) := by
  show decodeRaw32 false _ = some _
  rw [raw25 false _ (by simp (disch := decide) only [extract_append_low, extract_all])]
  simp (disch := decide) only [decodeCmpi, extract_append_low, extract_append_high, extract_all, Nat.reduceSub, BitVec.reduceToNat, if_true, and_self, true_and]

theorem RoundTrip.cmpiGen (w : BitVec 1) (i a : BitVec 5) (o : BitVec 2) (d : BitVec 3) (g : BitVec 4) : RoundTrip.Statement (.cmpiGen w i a o d g) := by
  show decodeRaw32 false _ = some _
  rw [raw25 false _ (by simp (disch := decide) only [extract_append_low, extract_all])]
  simp (disch := decide) only [decodeCmpi, extract_append_low, extract_append_high, extract_all, Nat.reduceSub, BitVec.reduceToNat, if_true, and_self, true_and]

theorem RoundTrip.pand (b a d : BitVec 3) (g : BitVec 4) : RoundTrip.Statement (.pand b a d g) := by
  show decodeRaw32 false _ = some _
  rw [raw27 false _ (by simp (disch := decide) only [extract_append_low, extract_all])]
  simp (disch := decide) only [decodePlog, extract_append_low, extract_append_high, extract_all, Nat.reduceSub, BitVec.reduceToNat, if_true, and_self, true_and]

theorem RoundTrip.por (b a d : BitVec 3) (g : BitVec 4) : RoundTrip.Statement (.por b a d g) := by
  show decodeRaw32 false _ = some _
  rw [raw27 false _ (by simp (disch := decide) only [extract_append_low, extract_all])]
  simp (disch := decide) only [decodePlog, extract_append_low, extract_append_high, extract_all, Nat.reduceSub, BitVec.reduceToNat, if_true, and_self, true_and]

theorem RoundTrip.pxor (b a d : BitVec 3) (g : BitVec 4) : RoundTrip.Statement (.pxor b a d g) := by
  show decodeRaw32 false _ = some _
  rw [raw27 false _ (by simp (disch := decide) only [extract_append_low, extract_all])]
  simp (disch := decide) only [decodePlog, extract_append_low, extract_append_high, extract_all, Nat.reduceSub, BitVec.reduceToNat, if_true, and_self, true_and]

theorem RoundTrip.pandn (b a d : BitVec 3) (g : BitVec 4) : RoundTrip.Statement (.pandn b a d g) := by
  show decodeRaw32 false _ = some _
  rw [raw27 false _ (by simp (disch := decide) only [extract_append_low, extract_all])]
  simp (disch := decide) only [decodePlog, extract_append_low, extract_append_high, extract_all, Nat.reduceSub, BitVec.reduceToNat, if_true, and_self, true_and]

theorem RoundTrip.pnot (a d : BitVec 3) (g : BitVec 4) : RoundTrip.Statement (.pnot a d g) := by
  show decodeRaw32 false _ = some _
  rw [raw27 false _ (by simp (disch := decide) only [extract_append_low, extract_all])]
  simp (disch := decide) only [decodePlog, extract_append_low, extract_append_high, extract_all, Nat.reduceSub, BitVec.reduceToNat, if_true, and_self, true_and]

theorem RoundTrip.pmov (a d : BitVec 3) (g : BitVec 4) : RoundTrip.Statement (.pmov a d g) := by
  show decodeRaw32 false _ = some _
  rw [raw27 false _ (by simp (disch := decide) only [extract_append_low, extract_all])]
  simp (disch := decide) only [decodePlog, extract_append_low, extract_append_high, extract_all, Nat.reduceSub, BitVec.reduceToNat, if_true, and_self, true_and]

theorem RoundTrip.ppack (d : BitVec 5) (g : BitVec 4) : RoundTrip.Statement (.ppack d g) := by
  show decodeRaw32 false _ = some _
  rw [raw27 false _ (by simp (disch := decide) only [extract_append_low, extract_all])]
  simp (disch := decide) only [decodePlog, extract_append_low, extract_append_high, extract_all, Nat.reduceSub, BitVec.reduceToNat, if_true, and_self, true_and]

theorem RoundTrip.punpk (a : BitVec 5) (g : BitVec 4) : RoundTrip.Statement (.punpk a g) := by
  show decodeRaw32 false _ = some _
  rw [raw27 false _ (by simp (disch := decide) only [extract_append_low, extract_all])]
  simp (disch := decide) only [decodePlog, extract_append_low, extract_append_high, extract_all, Nat.reduceSub, BitVec.reduceToNat, if_true, and_self, true_and]

theorem RoundTrip.lea (w : BitVec 1) (s : BitVec 2) (b a d : BitVec 5) (g : BitVec 4) : RoundTrip.Statement (.lea w s b a d g) := by
  show decodeRaw32 false _ = some _
  rw [raw29 false _ (by simp (disch := decide) only [extract_append_low, extract_all])]
  simp (disch := decide) only [decodeLea, extract_append_low, extract_append_high, extract_all, Nat.reduceSub, BitVec.reduceToNat, if_true, and_self, true_and]

theorem RoundTrip.fadd (b a d : BitVec 5) (g : BitVec 4) : RoundTrip.Statement (.fadd b a d g) := by
  show decodeRaw32 false _ = some _
  rw [raw31 false _ (by simp (disch := decide) only [extract_append_low, extract_all])]
  simp (disch := decide) only [decodeFalu, extract_append_low, extract_append_high, extract_all, Nat.reduceSub, BitVec.reduceToNat, if_true, and_self, true_and]

theorem RoundTrip.fsub (b a d : BitVec 5) (g : BitVec 4) : RoundTrip.Statement (.fsub b a d g) := by
  show decodeRaw32 false _ = some _
  rw [raw31 false _ (by simp (disch := decide) only [extract_append_low, extract_all])]
  simp (disch := decide) only [decodeFalu, extract_append_low, extract_append_high, extract_all, Nat.reduceSub, BitVec.reduceToNat, if_true, and_self, true_and]

theorem RoundTrip.fmul (b a d : BitVec 5) (g : BitVec 4) : RoundTrip.Statement (.fmul b a d g) := by
  show decodeRaw32 false _ = some _
  rw [raw31 false _ (by simp (disch := decide) only [extract_append_low, extract_all])]
  simp (disch := decide) only [decodeFalu, extract_append_low, extract_append_high, extract_all, Nat.reduceSub, BitVec.reduceToNat, if_true, and_self, true_and]

theorem RoundTrip.fdiv (b a d : BitVec 5) (g : BitVec 4) : RoundTrip.Statement (.fdiv b a d g) := by
  show decodeRaw32 false _ = some _
  rw [raw31 false _ (by simp (disch := decide) only [extract_append_low, extract_all])]
  simp (disch := decide) only [decodeFalu, extract_append_low, extract_append_high, extract_all, Nat.reduceSub, BitVec.reduceToNat, if_true, and_self, true_and]

theorem RoundTrip.fsqrt (a d : BitVec 5) (g : BitVec 4) : RoundTrip.Statement (.fsqrt a d g) := by
  show decodeRaw32 false _ = some _
  rw [raw31 false _ (by simp (disch := decide) only [extract_append_low, extract_all])]
  simp (disch := decide) only [decodeFalu, extract_append_low, extract_append_high, extract_all, Nat.reduceSub, BitVec.reduceToNat, if_true, and_self, true_and]

theorem RoundTrip.fmin (b a d : BitVec 5) (g : BitVec 4) : RoundTrip.Statement (.fmin b a d g) := by
  show decodeRaw32 false _ = some _
  rw [raw31 false _ (by simp (disch := decide) only [extract_append_low, extract_all])]
  simp (disch := decide) only [decodeFalu, extract_append_low, extract_append_high, extract_all, Nat.reduceSub, BitVec.reduceToNat, if_true, and_self, true_and]

theorem RoundTrip.fmax (b a d : BitVec 5) (g : BitVec 4) : RoundTrip.Statement (.fmax b a d g) := by
  show decodeRaw32 false _ = some _
  rw [raw31 false _ (by simp (disch := decide) only [extract_append_low, extract_all])]
  simp (disch := decide) only [decodeFalu, extract_append_low, extract_append_high, extract_all, Nat.reduceSub, BitVec.reduceToNat, if_true, and_self, true_and]

theorem RoundTrip.fabs (a d : BitVec 5) (g : BitVec 4) : RoundTrip.Statement (.fabs a d g) := by
  show decodeRaw32 false _ = some _
  rw [raw31 false _ (by simp (disch := decide) only [extract_append_low, extract_all])]
  simp (disch := decide) only [decodeFalu, extract_append_low, extract_append_high, extract_all, Nat.reduceSub, BitVec.reduceToNat, if_true, and_self, true_and]

theorem RoundTrip.fneg (a d : BitVec 5) (g : BitVec 4) : RoundTrip.Statement (.fneg a d g) := by
  show decodeRaw32 false _ = some _
  rw [raw31 false _ (by simp (disch := decide) only [extract_append_low, extract_all])]
  simp (disch := decide) only [decodeFalu, extract_append_low, extract_append_high, extract_all, Nat.reduceSub, BitVec.reduceToNat, if_true, and_self, true_and]

theorem RoundTrip.fmov (a d : BitVec 5) (g : BitVec 4) : RoundTrip.Statement (.fmov a d g) := by
  show decodeRaw32 false _ = some _
  rw [raw31 false _ (by simp (disch := decide) only [extract_append_low, extract_all])]
  simp (disch := decide) only [decodeFalu, extract_append_low, extract_append_high, extract_all, Nat.reduceSub, BitVec.reduceToNat, if_true, and_self, true_and]

theorem RoundTrip.fclass (a d : BitVec 5) (g : BitVec 4) : RoundTrip.Statement (.fclass a d g) := by
  show decodeRaw32 false _ = some _
  rw [raw31 false _ (by simp (disch := decide) only [extract_append_low, extract_all])]
  simp (disch := decide) only [decodeFalu, extract_append_low, extract_append_high, extract_all, Nat.reduceSub, BitVec.reduceToNat, if_true, and_self, true_and]

theorem RoundTrip.fmvg (a d : BitVec 5) (g : BitVec 4) : RoundTrip.Statement (.fmvg a d g) := by
  show decodeRaw32 false _ = some _
  rw [raw31 false _ (by simp (disch := decide) only [extract_append_low, extract_all])]
  simp (disch := decide) only [decodeFalu, extract_append_low, extract_append_high, extract_all, Nat.reduceSub, BitVec.reduceToNat, if_true, and_self, true_and]

theorem RoundTrip.fmvf (a d : BitVec 5) (g : BitVec 4) : RoundTrip.Statement (.fmvf a d g) := by
  show decodeRaw32 false _ = some _
  rw [raw31 false _ (by simp (disch := decide) only [extract_append_low, extract_all])]
  simp (disch := decide) only [decodeFalu, extract_append_low, extract_append_high, extract_all, Nat.reduceSub, BitVec.reduceToNat, if_true, and_self, true_and]

theorem RoundTrip.fma (c b a d : BitVec 5) (g : BitVec 4) : RoundTrip.Statement (.fma c b a d g) := by
  show decodeRaw32 false _ = some _
  rw [raw33 false _ (by simp (disch := decide) only [extract_append_low, extract_all])]
  simp (disch := decide) only [decodeFma, extract_append_low, extract_append_high, extract_all, Nat.reduceSub, BitVec.reduceToNat, if_true, and_self, true_and]

theorem RoundTrip.fms (c b a d : BitVec 5) (g : BitVec 4) : RoundTrip.Statement (.fms c b a d g) := by
  show decodeRaw32 false _ = some _
  rw [raw33 false _ (by simp (disch := decide) only [extract_append_low, extract_all])]
  simp (disch := decide) only [decodeFma, extract_append_low, extract_append_high, extract_all, Nat.reduceSub, BitVec.reduceToNat, if_true, and_self, true_and]

theorem RoundTrip.fnma (c b a d : BitVec 5) (g : BitVec 4) : RoundTrip.Statement (.fnma c b a d g) := by
  show decodeRaw32 false _ = some _
  rw [raw35 false _ (by simp (disch := decide) only [extract_append_low, extract_all])]
  simp (disch := decide) only [decodeFnma, extract_append_low, extract_append_high, extract_all, Nat.reduceSub, BitVec.reduceToNat, if_true, and_self, true_and]

theorem RoundTrip.fnms (c b a d : BitVec 5) (g : BitVec 4) : RoundTrip.Statement (.fnms c b a d g) := by
  show decodeRaw32 false _ = some _
  rw [raw35 false _ (by simp (disch := decide) only [extract_append_low, extract_all])]
  simp (disch := decide) only [decodeFnma, extract_append_low, extract_append_high, extract_all, Nat.reduceSub, BitVec.reduceToNat, if_true, and_self, true_and]

theorem RoundTrip.fcvt (s t : BitVec 3) (r a d : BitVec 5) (g : BitVec 4) : RoundTrip.Statement (.fcvt s t r a d g) := by
  show decodeRaw32 false _ = some _
  rw [raw37 false _ (by simp (disch := decide) only [extract_append_low, extract_all])]
  simp (disch := decide) only [decodeFcvt, extract_append_low, extract_append_high, extract_all, Nat.reduceSub, BitVec.reduceToNat, if_true, and_self, true_and]

theorem RoundTrip.frnd (t : BitVec 2) (k : BitVec 4) (a d : BitVec 5) (g : BitVec 4) : RoundTrip.Statement (.frnd t k a d g) := by
  show decodeRaw32 false _ = some _
  rw [raw39 false _ (by simp (disch := decide) only [extract_append_low, extract_all])]
  simp (disch := decide) only [decodeFrnd, extract_append_low, extract_append_high, extract_all, Nat.reduceSub, BitVec.reduceToNat, if_true, and_self, true_and]

theorem RoundTrip.fcmpEq (b a : BitVec 5) (o : BitVec 2) (d : BitVec 3) (g : BitVec 4) : RoundTrip.Statement (.fcmpEq b a o d g) := by
  show decodeRaw32 false _ = some _
  rw [raw41 false _ (by simp (disch := decide) only [extract_append_low, extract_all])]
  simp (disch := decide) only [decodeFcmp, extract_append_low, extract_append_high, extract_all, Nat.reduceSub, BitVec.reduceToNat, if_true, and_self, true_and]

theorem RoundTrip.fcmpNe (b a : BitVec 5) (o : BitVec 2) (d : BitVec 3) (g : BitVec 4) : RoundTrip.Statement (.fcmpNe b a o d g) := by
  show decodeRaw32 false _ = some _
  rw [raw41 false _ (by simp (disch := decide) only [extract_append_low, extract_all])]
  simp (disch := decide) only [decodeFcmp, extract_append_low, extract_append_high, extract_all, Nat.reduceSub, BitVec.reduceToNat, if_true, and_self, true_and]

theorem RoundTrip.fcmpLt (b a : BitVec 5) (o : BitVec 2) (d : BitVec 3) (g : BitVec 4) : RoundTrip.Statement (.fcmpLt b a o d g) := by
  show decodeRaw32 false _ = some _
  rw [raw41 false _ (by simp (disch := decide) only [extract_append_low, extract_all])]
  simp (disch := decide) only [decodeFcmp, extract_append_low, extract_append_high, extract_all, Nat.reduceSub, BitVec.reduceToNat, if_true, and_self, true_and]

theorem RoundTrip.fcmpLe (b a : BitVec 5) (o : BitVec 2) (d : BitVec 3) (g : BitVec 4) : RoundTrip.Statement (.fcmpLe b a o d g) := by
  show decodeRaw32 false _ = some _
  rw [raw41 false _ (by simp (disch := decide) only [extract_append_low, extract_all])]
  simp (disch := decide) only [decodeFcmp, extract_append_low, extract_append_high, extract_all, Nat.reduceSub, BitVec.reduceToNat, if_true, and_self, true_and]

theorem RoundTrip.fcmpUn (b a : BitVec 5) (o : BitVec 2) (d : BitVec 3) (g : BitVec 4) : RoundTrip.Statement (.fcmpUn b a o d g) := by
  show decodeRaw32 false _ = some _
  rw [raw41 false _ (by simp (disch := decide) only [extract_append_low, extract_all])]
  simp (disch := decide) only [decodeFcmp, extract_append_low, extract_append_high, extract_all, Nat.reduceSub, BitVec.reduceToNat, if_true, and_self, true_and]

theorem RoundTrip.fcmpOrd (b a : BitVec 5) (o : BitVec 2) (d : BitVec 3) (g : BitVec 4) : RoundTrip.Statement (.fcmpOrd b a o d g) := by
  show decodeRaw32 false _ = some _
  rw [raw41 false _ (by simp (disch := decide) only [extract_append_low, extract_all])]
  simp (disch := decide) only [decodeFcmp, extract_append_low, extract_append_high, extract_all, Nat.reduceSub, BitVec.reduceToNat, if_true, and_self, true_and]

theorem RoundTrip.ld (o : BitVec 5) (p k s : BitVec 2) (a d : BitVec 5) (g : BitVec 4) : RoundTrip.Statement (.ld o p k s a d g) := by
  show decodeRaw32 false _ = some _
  rw [raw43 false _ (by simp (disch := decide) only [extract_append_low, extract_all])]
  simp (disch := decide) only [decodeLd, extract_append_low, extract_append_high, extract_all, Nat.reduceSub, BitVec.reduceToNat, if_true, and_self, true_and]

theorem RoundTrip.st (o : BitVec 5) (p k s : BitVec 2) (a d : BitVec 5) (g : BitVec 4) : RoundTrip.Statement (.st o p k s a d g) := by
  show decodeRaw32 false _ = some _
  rw [raw45 false _ (by simp (disch := decide) only [extract_append_low, extract_all])]
  simp (disch := decide) only [decodeSt, extract_append_low, extract_append_high, extract_all, Nat.reduceSub, BitVec.reduceToNat, if_true, and_self, true_and]

theorem RoundTrip.ldf (o : BitVec 5) (p : BitVec 2) (s : BitVec 1) (a d : BitVec 5) (g : BitVec 4) : RoundTrip.Statement (.ldf o p s a d g) := by
  show decodeRaw32 false _ = some _
  rw [raw47 false _ (by simp (disch := decide) only [extract_append_low, extract_all])]
  simp (disch := decide) only [decodeLdf, extract_append_low, extract_append_high, extract_all, Nat.reduceSub, BitVec.reduceToNat, if_true, and_self, true_and]

theorem RoundTrip.ldfE (o : BitVec 5) (p : BitVec 2) (s : BitVec 1) (a d : BitVec 5) (g : BitVec 4) : RoundTrip.Statement (.ldfE o p s a d g) := by
  show decodeRaw32 false _ = some _
  rw [raw47 false _ (by simp (disch := decide) only [extract_append_low, extract_all])]
  simp (disch := decide) only [decodeLdf, extract_append_low, extract_append_high, extract_all, Nat.reduceSub, BitVec.reduceToNat, if_true, and_self, true_and]

theorem RoundTrip.setf (a : BitVec 5) (g : BitVec 4) : RoundTrip.Statement (.setf a g) := by
  show decodeRaw32 false _ = some _
  rw [raw49 false _ (by simp (disch := decide) only [extract_append_low, extract_all])]
  simp (disch := decide) only [decodeFeop, extract_append_low, extract_append_high, extract_all, Nat.reduceSub, BitVec.reduceToNat, if_true, and_self, true_and]

theorem RoundTrip.sete (a : BitVec 5) (g : BitVec 4) : RoundTrip.Statement (.sete a g) := by
  show decodeRaw32 false _ = some _
  rw [raw49 false _ (by simp (disch := decide) only [extract_append_low, extract_all])]
  simp (disch := decide) only [decodeFeop, extract_append_low, extract_append_high, extract_all, Nat.reduceSub, BitVec.reduceToNat, if_true, and_self, true_and]

theorem RoundTrip.testf (a d : BitVec 5) (g : BitVec 4) : RoundTrip.Statement (.testf a d g) := by
  show decodeRaw32 false _ = some _
  rw [raw49 false _ (by simp (disch := decide) only [extract_append_low, extract_all])]
  simp (disch := decide) only [decodeFeop, extract_append_low, extract_append_high, extract_all, Nat.reduceSub, BitVec.reduceToNat, if_true, and_self, true_and]

theorem RoundTrip.amoAdd (p s : BitVec 1) (b a d : BitVec 5) (g : BitVec 4) : RoundTrip.Statement (.amoAdd p s b a d g) := by
  show decodeRaw32 false _ = some _
  rw [raw51 false _ (by simp (disch := decide) only [extract_append_low, extract_all])]
  simp (disch := decide) only [decodeAmo, extract_append_low, extract_append_high, extract_all, Nat.reduceSub, BitVec.reduceToNat, if_true, and_self, true_and]

theorem RoundTrip.amoAnd (p s : BitVec 1) (b a d : BitVec 5) (g : BitVec 4) : RoundTrip.Statement (.amoAnd p s b a d g) := by
  show decodeRaw32 false _ = some _
  rw [raw51 false _ (by simp (disch := decide) only [extract_append_low, extract_all])]
  simp (disch := decide) only [decodeAmo, extract_append_low, extract_append_high, extract_all, Nat.reduceSub, BitVec.reduceToNat, if_true, and_self, true_and]

theorem RoundTrip.amoOr (p s : BitVec 1) (b a d : BitVec 5) (g : BitVec 4) : RoundTrip.Statement (.amoOr p s b a d g) := by
  show decodeRaw32 false _ = some _
  rw [raw51 false _ (by simp (disch := decide) only [extract_append_low, extract_all])]
  simp (disch := decide) only [decodeAmo, extract_append_low, extract_append_high, extract_all, Nat.reduceSub, BitVec.reduceToNat, if_true, and_self, true_and]

theorem RoundTrip.amoXor (p s : BitVec 1) (b a d : BitVec 5) (g : BitVec 4) : RoundTrip.Statement (.amoXor p s b a d g) := by
  show decodeRaw32 false _ = some _
  rw [raw51 false _ (by simp (disch := decide) only [extract_append_low, extract_all])]
  simp (disch := decide) only [decodeAmo, extract_append_low, extract_append_high, extract_all, Nat.reduceSub, BitVec.reduceToNat, if_true, and_self, true_and]

theorem RoundTrip.amoMin (p s : BitVec 1) (b a d : BitVec 5) (g : BitVec 4) : RoundTrip.Statement (.amoMin p s b a d g) := by
  show decodeRaw32 false _ = some _
  rw [raw51 false _ (by simp (disch := decide) only [extract_append_low, extract_all])]
  simp (disch := decide) only [decodeAmo, extract_append_low, extract_append_high, extract_all, Nat.reduceSub, BitVec.reduceToNat, if_true, and_self, true_and]

theorem RoundTrip.amoMax (p s : BitVec 1) (b a d : BitVec 5) (g : BitVec 4) : RoundTrip.Statement (.amoMax p s b a d g) := by
  show decodeRaw32 false _ = some _
  rw [raw51 false _ (by simp (disch := decide) only [extract_append_low, extract_all])]
  simp (disch := decide) only [decodeAmo, extract_append_low, extract_append_high, extract_all, Nat.reduceSub, BitVec.reduceToNat, if_true, and_self, true_and]

theorem RoundTrip.amoMinn (p s : BitVec 1) (b a d : BitVec 5) (g : BitVec 4) : RoundTrip.Statement (.amoMinn p s b a d g) := by
  show decodeRaw32 false _ = some _
  rw [raw51 false _ (by simp (disch := decide) only [extract_append_low, extract_all])]
  simp (disch := decide) only [decodeAmo, extract_append_low, extract_append_high, extract_all, Nat.reduceSub, BitVec.reduceToNat, if_true, and_self, true_and]

theorem RoundTrip.amoMaxn (p s : BitVec 1) (b a d : BitVec 5) (g : BitVec 4) : RoundTrip.Statement (.amoMaxn p s b a d g) := by
  show decodeRaw32 false _ = some _
  rw [raw51 false _ (by simp (disch := decide) only [extract_append_low, extract_all])]
  simp (disch := decide) only [decodeAmo, extract_append_low, extract_append_high, extract_all, Nat.reduceSub, BitVec.reduceToNat, if_true, and_self, true_and]

theorem RoundTrip.amoXchg (p s : BitVec 1) (b a d : BitVec 5) (g : BitVec 4) : RoundTrip.Statement (.amoXchg p s b a d g) := by
  show decodeRaw32 false _ = some _
  rw [raw51 false _ (by simp (disch := decide) only [extract_append_low, extract_all])]
  simp (disch := decide) only [decodeAmo, extract_append_low, extract_append_high, extract_all, Nat.reduceSub, BitVec.reduceToNat, if_true, and_self, true_and]

theorem RoundTrip.amoFadd (p : BitVec 1) (b a d : BitVec 5) (g : BitVec 4) : RoundTrip.Statement (.amoFadd p b a d g) := by
  show decodeRaw32 false _ = some _
  rw [raw51 false _ (by simp (disch := decide) only [extract_append_low, extract_all])]
  simp (disch := decide) only [decodeAmo, extract_append_low, extract_append_high, extract_all, Nat.reduceSub, BitVec.reduceToNat, if_true, and_self, true_and]

theorem RoundTrip.amoFmin (p : BitVec 1) (b a d : BitVec 5) (g : BitVec 4) : RoundTrip.Statement (.amoFmin p b a d g) := by
  show decodeRaw32 false _ = some _
  rw [raw51 false _ (by simp (disch := decide) only [extract_append_low, extract_all])]
  simp (disch := decide) only [decodeAmo, extract_append_low, extract_append_high, extract_all, Nat.reduceSub, BitVec.reduceToNat, if_true, and_self, true_and]

theorem RoundTrip.amoFmax (p : BitVec 1) (b a d : BitVec 5) (g : BitVec 4) : RoundTrip.Statement (.amoFmax p b a d g) := by
  show decodeRaw32 false _ = some _
  rw [raw51 false _ (by simp (disch := decide) only [extract_append_low, extract_all])]
  simp (disch := decide) only [decodeAmo, extract_append_low, extract_append_high, extract_all, Nat.reduceSub, BitVec.reduceToNat, if_true, and_self, true_and]

theorem RoundTrip.cas (s : BitVec 1) (b a d : BitVec 5) (g : BitVec 4) : RoundTrip.Statement (.cas s b a d g) := by
  show decodeRaw32 false _ = some _
  rw [raw53 false _ (by simp (disch := decide) only [extract_append_low, extract_all])]
  simp (disch := decide) only [decodeCas, extract_append_low, extract_append_high, extract_all, Nat.reduceSub, BitVec.reduceToNat, if_true, and_self, true_and]

theorem RoundTrip.ldc (i : BitVec 4) (s : BitVec 2) (b a d : BitVec 5) (g : BitVec 4) : RoundTrip.Statement (.ldc i s b a d g) := by
  show decodeRaw32 false _ = some _
  rw [raw55 false _ (by simp (disch := decide) only [extract_append_low, extract_all])]
  simp (disch := decide) only [decodeLdc, extract_append_low, extract_append_high, extract_all, Nat.reduceSub, BitVec.reduceToNat, if_true, and_self, true_and]

theorem RoundTrip.stc (i : BitVec 4) (s : BitVec 2) (b a d : BitVec 5) (g : BitVec 4) : RoundTrip.Statement (.stc i s b a d g) := by
  show decodeRaw32 false _ = some _
  rw [raw57 false _ (by simp (disch := decide) only [extract_append_low, extract_all])]
  simp (disch := decide) only [decodeStc, extract_append_low, extract_append_high, extract_all, Nat.reduceSub, BitVec.reduceToNat, if_true, and_self, true_and]

theorem RoundTrip.amocAdd (w : BitVec 3) (b a d : BitVec 5) (g : BitVec 4) : RoundTrip.Statement (.amocAdd w b a d g) := by
  show decodeRaw32 false _ = some _
  rw [raw59 false _ (by simp (disch := decide) only [extract_append_low, extract_all])]
  simp (disch := decide) only [decodeAmoc, extract_append_low, extract_append_high, extract_all, Nat.reduceSub, BitVec.reduceToNat, if_true, and_self, true_and]

theorem RoundTrip.amocFadd (w : BitVec 3) (b a d : BitVec 5) (g : BitVec 4) : RoundTrip.Statement (.amocFadd w b a d g) := by
  show decodeRaw32 false _ = some _
  rw [raw59 false _ (by simp (disch := decide) only [extract_append_low, extract_all])]
  simp (disch := decide) only [decodeAmoc, extract_append_low, extract_append_high, extract_all, Nat.reduceSub, BitVec.reduceToNat, if_true, and_self, true_and]

theorem RoundTrip.amocMin (w : BitVec 3) (b a d : BitVec 5) (g : BitVec 4) : RoundTrip.Statement (.amocMin w b a d g) := by
  show decodeRaw32 false _ = some _
  rw [raw59 false _ (by simp (disch := decide) only [extract_append_low, extract_all])]
  simp (disch := decide) only [decodeAmoc, extract_append_low, extract_append_high, extract_all, Nat.reduceSub, BitVec.reduceToNat, if_true, and_self, true_and]

theorem RoundTrip.amocMax (w : BitVec 3) (b a d : BitVec 5) (g : BitVec 4) : RoundTrip.Statement (.amocMax w b a d g) := by
  show decodeRaw32 false _ = some _
  rw [raw59 false _ (by simp (disch := decide) only [extract_append_low, extract_all])]
  simp (disch := decide) only [decodeAmoc, extract_append_low, extract_append_high, extract_all, Nat.reduceSub, BitVec.reduceToNat, if_true, and_self, true_and]

theorem RoundTrip.amocFmax (w : BitVec 3) (b a d : BitVec 5) (g : BitVec 4) : RoundTrip.Statement (.amocFmax w b a d g) := by
  show decodeRaw32 false _ = some _
  rw [raw59 false _ (by simp (disch := decide) only [extract_append_low, extract_all])]
  simp (disch := decide) only [decodeAmoc, extract_append_low, extract_append_high, extract_all, Nat.reduceSub, BitVec.reduceToNat, if_true, and_self, true_and]

theorem RoundTrip.amocXchg (w : BitVec 3) (b a d : BitVec 5) (g : BitVec 4) : RoundTrip.Statement (.amocXchg w b a d g) := by
  show decodeRaw32 false _ = some _
  rw [raw59 false _ (by simp (disch := decide) only [extract_append_low, extract_all])]
  simp (disch := decide) only [decodeAmoc, extract_append_low, extract_append_high, extract_all, Nat.reduceSub, BitVec.reduceToNat, if_true, and_self, true_and]

theorem RoundTrip.fenceA (s : BitVec 2) (g : BitVec 4) : RoundTrip.Statement (.fenceA s g) := by
  show decodeRaw32 false _ = some _
  rw [raw61 false _ (by simp (disch := decide) only [extract_append_low, extract_all])]
  simp (disch := decide) only [decodeMemctl, extract_append_low, extract_append_high, extract_all, Nat.reduceSub, BitVec.reduceToNat, if_true, and_self, true_and]

theorem RoundTrip.fenceL (s : BitVec 2) (g : BitVec 4) : RoundTrip.Statement (.fenceL s g) := by
  show decodeRaw32 false _ = some _
  rw [raw61 false _ (by simp (disch := decide) only [extract_append_low, extract_all])]
  simp (disch := decide) only [decodeMemctl, extract_append_low, extract_append_high, extract_all, Nat.reduceSub, BitVec.reduceToNat, if_true, and_self, true_and]

theorem RoundTrip.fenceAl (s : BitVec 2) (g : BitVec 4) : RoundTrip.Statement (.fenceAl s g) := by
  show decodeRaw32 false _ = some _
  rw [raw61 false _ (by simp (disch := decide) only [extract_append_low, extract_all])]
  simp (disch := decide) only [decodeMemctl, extract_append_low, extract_append_high, extract_all, Nat.reduceSub, BitVec.reduceToNat, if_true, and_self, true_and]

theorem RoundTrip.invr (b a : BitVec 5) (g : BitVec 4) : RoundTrip.Statement (.invr b a g) := by
  show decodeRaw32 false _ = some _
  rw [raw61 false _ (by simp (disch := decide) only [extract_append_low, extract_all])]
  simp (disch := decide) only [decodeMemctl, extract_append_low, extract_append_high, extract_all, Nat.reduceSub, BitVec.reduceToNat, if_true, and_self, true_and]

theorem RoundTrip.pubr (b a : BitVec 5) (g : BitVec 4) : RoundTrip.Statement (.pubr b a g) := by
  show decodeRaw32 false _ = some _
  rw [raw61 false _ (by simp (disch := decide) only [extract_append_low, extract_all])]
  simp (disch := decide) only [decodeMemctl, extract_append_low, extract_append_high, extract_all, Nat.reduceSub, BitVec.reduceToNat, if_true, and_self, true_and]

theorem RoundTrip.isync (g : BitVec 4) : RoundTrip.Statement (.isync g) := by
  show decodeRaw32 false _ = some _
  rw [raw61 false _ (by simp (disch := decide) only [extract_append_low, extract_all])]
  simp (disch := decide) only [decodeMemctl, extract_append_low, extract_append_high, extract_all, Nat.reduceSub, BitVec.reduceToNat, if_true, and_self, true_and]

theorem RoundTrip.pref (a : BitVec 5) (g : BitVec 4) : RoundTrip.Statement (.pref a g) := by
  show decodeRaw32 false _ = some _
  rw [raw61 false _ (by simp (disch := decide) only [extract_append_low, extract_all])]
  simp (disch := decide) only [decodeMemctl, extract_append_low, extract_append_high, extract_all, Nat.reduceSub, BitVec.reduceToNat, if_true, and_self, true_and]

theorem RoundTrip.clbinv (a : BitVec 5) (g : BitVec 4) : RoundTrip.Statement (.clbinv a g) := by
  show decodeRaw32 false _ = some _
  rw [raw61 false _ (by simp (disch := decide) only [extract_append_low, extract_all])]
  simp (disch := decide) only [decodeMemctl, extract_append_low, extract_append_high, extract_all, Nat.reduceSub, BitVec.reduceToNat, if_true, and_self, true_and]

theorem RoundTrip.br (d : BitVec 21) (g : BitVec 4) : RoundTrip.Statement (.br d g) := by
  show decodeRaw32 false _ = some _
  rw [raw63 _ (by simp (disch := decide) only [extract_append_low, extract_all])]
  simp (disch := decide) only [decodeBr, extract_append_low, extract_append_high, extract_all, Nat.reduceSub, BitVec.reduceToNat, if_true, and_self, true_and]

theorem RoundTrip.jal (d : BitVec 21) (g : BitVec 4) : RoundTrip.Statement (.jal d g) := by
  show decodeRaw32 false _ = some _
  rw [raw65 false _ (by simp (disch := decide) only [extract_append_low, extract_all])]
  simp (disch := decide) only [decodeJal, extract_append_low, extract_append_high, extract_all, Nat.reduceSub, BitVec.reduceToNat, if_true, and_self, true_and]

theorem RoundTrip.jalr (i : BitVec 11) (a d : BitVec 5) (g : BitVec 4) : RoundTrip.Statement (.jalr i a d g) := by
  show decodeRaw32 false _ = some _
  rw [raw67 false _ (by simp (disch := decide) only [extract_append_low, extract_all])]
  simp (disch := decide) only [decodeJalr, extract_append_low, extract_append_high, extract_all, Nat.reduceSub, BitVec.reduceToNat, if_true, and_self, true_and]

theorem RoundTrip.loop (i : BitVec 11) (a : BitVec 5) (g : BitVec 4) : RoundTrip.Statement (.loop i a g) := by
  show decodeRaw32 false _ = some _
  rw [raw69 _ (by simp (disch := decide) only [extract_append_low, extract_all])]
  simp (disch := decide) only [decodeLoop, extract_append_low, extract_append_high, extract_all, Nat.reduceSub, BitVec.reduceToNat, if_true, and_self, true_and]

theorem RoundTrip.send (c : BitVec 8) (r : BitVec 1) (n : BitVec 2) (b a : BitVec 5) (g : BitVec 4) : RoundTrip.Statement (.send c r n b a g) := by
  show decodeRaw32 false _ = some _
  rw [raw71 false _ (by simp (disch := decide) only [extract_append_low, extract_all])]
  simp (disch := decide) only [decodeSend, extract_append_low, extract_append_high, extract_all, Nat.reduceSub, BitVec.reduceToNat, if_true, and_self, true_and]

theorem RoundTrip.sendx (n : BitVec 2) (b a : BitVec 5) (g : BitVec 4) : RoundTrip.Statement (.sendx n b a g) := by
  show decodeRaw32 false _ = some _
  rw [raw73 false _ (by simp (disch := decide) only [extract_append_low, extract_all])]
  simp (disch := decide) only [decodeSendx, extract_append_low, extract_append_high, extract_all, Nat.reduceSub, BitVec.reduceToNat, if_true, and_self, true_and]

theorem RoundTrip.spawn (b a d : BitVec 5) (g : BitVec 4) : RoundTrip.Statement (.spawn b a d g) := by
  show decodeRaw32 false _ = some _
  rw [raw75 false _ (by simp (disch := decide) only [extract_append_low, extract_all])]
  simp (disch := decide) only [decodeSpawn, extract_append_low, extract_append_high, extract_all, Nat.reduceSub, BitVec.reduceToNat, if_true, and_self, true_and]

theorem RoundTrip.trec (b a d : BitVec 5) (g : BitVec 4) : RoundTrip.Statement (.trec b a d g) := by
  show decodeRaw32 false _ = some _
  rw [raw77 false _ (by simp (disch := decide) only [extract_append_low, extract_all])]
  simp (disch := decide) only [decodeTask, extract_append_low, extract_append_high, extract_all, Nat.reduceSub, BitVec.reduceToNat, if_true, and_self, true_and]

theorem RoundTrip.dec (a : BitVec 5) (g : BitVec 4) : RoundTrip.Statement (.dec a g) := by
  show decodeRaw32 false _ = some _
  rw [raw77 false _ (by simp (disch := decide) only [extract_append_low, extract_all])]
  simp (disch := decide) only [decodeTask, extract_append_low, extract_append_high, extract_all, Nat.reduceSub, BitVec.reduceToNat, if_true, and_self, true_and]

theorem RoundTrip.decL (a : BitVec 5) (g : BitVec 4) : RoundTrip.Statement (.decL a g) := by
  show decodeRaw32 false _ = some _
  rw [raw77 false _ (by simp (disch := decide) only [extract_append_low, extract_all])]
  simp (disch := decide) only [decodeTask, extract_append_low, extract_append_high, extract_all, Nat.reduceSub, BitVec.reduceToNat, if_true, and_self, true_and]

theorem RoundTrip.tarm (b a : BitVec 5) (g : BitVec 4) : RoundTrip.Statement (.tarm b a g) := by
  show decodeRaw32 false _ = some _
  rw [raw77 false _ (by simp (disch := decide) only [extract_append_low, extract_all])]
  simp (disch := decide) only [decodeTask, extract_append_low, extract_append_high, extract_all, Nat.reduceSub, BitVec.reduceToNat, if_true, and_self, true_and]

theorem RoundTrip.tend (g : BitVec 4) : RoundTrip.Statement (.tend g) := by
  show decodeRaw32 false _ = some _
  rw [raw77 false _ (by simp (disch := decide) only [extract_append_low, extract_all])]
  simp (disch := decide) only [decodeTask, extract_append_low, extract_append_high, extract_all, Nat.reduceSub, BitVec.reduceToNat, if_true, and_self, true_and]

theorem RoundTrip.elect (a d : BitVec 5) (g : BitVec 4) : RoundTrip.Statement (.elect a d g) := by
  show decodeRaw32 false _ = some _
  rw [raw77 false _ (by simp (disch := decide) only [extract_append_low, extract_all])]
  simp (disch := decide) only [decodeTask, extract_append_low, extract_append_high, extract_all, Nat.reduceSub, BitVec.reduceToNat, if_true, and_self, true_and]

theorem RoundTrip.tinfo (a d : BitVec 5) (g : BitVec 4) : RoundTrip.Statement (.tinfo a d g) := by
  show decodeRaw32 false _ = some _
  rw [raw77 false _ (by simp (disch := decide) only [extract_append_low, extract_all])]
  simp (disch := decide) only [decodeTask, extract_append_low, extract_append_high, extract_all, Nat.reduceSub, BitVec.reduceToNat, if_true, and_self, true_and]

theorem RoundTrip.phdecl (a : BitVec 5) (g : BitVec 4) : RoundTrip.Statement (.phdecl a g) := by
  show decodeRaw32 false _ = some _
  rw [raw79 false _ (by simp (disch := decide) only [extract_append_low, extract_all])]
  simp (disch := decide) only [decodeWork, extract_append_low, extract_append_high, extract_all, Nat.reduceSub, BitVec.reduceToNat, if_true, and_self, true_and]

theorem RoundTrip.phstat (a d : BitVec 5) (g : BitVec 4) : RoundTrip.Statement (.phstat a d g) := by
  show decodeRaw32 false _ = some _
  rw [raw79 false _ (by simp (disch := decide) only [extract_append_low, extract_all])]
  simp (disch := decide) only [decodeWork, extract_append_low, extract_append_high, extract_all, Nat.reduceSub, BitVec.reduceToNat, if_true, and_self, true_and]

theorem RoundTrip.cancelLaunch (a : BitVec 5) (g : BitVec 4) : RoundTrip.Statement (.cancelLaunch a g) := by
  show decodeRaw32 false _ = some _
  rw [raw79 false _ (by simp (disch := decide) only [extract_append_low, extract_all])]
  simp (disch := decide) only [decodeWork, extract_append_low, extract_append_high, extract_all, Nat.reduceSub, BitVec.reduceToNat, if_true, and_self, true_and]

theorem RoundTrip.cancelGraph (a : BitVec 5) (g : BitVec 4) : RoundTrip.Statement (.cancelGraph a g) := by
  show decodeRaw32 false _ = some _
  rw [raw79 false _ (by simp (disch := decide) only [extract_append_low, extract_all])]
  simp (disch := decide) only [decodeWork, extract_append_low, extract_append_high, extract_all, Nat.reduceSub, BitVec.reduceToNat, if_true, and_self, true_and]

theorem RoundTrip.cancelPhase (a : BitVec 5) (g : BitVec 4) : RoundTrip.Statement (.cancelPhase a g) := by
  show decodeRaw32 false _ = some _
  rw [raw79 false _ (by simp (disch := decide) only [extract_append_low, extract_all])]
  simp (disch := decide) only [decodeWork, extract_append_low, extract_append_high, extract_all, Nat.reduceSub, BitVec.reduceToNat, if_true, and_self, true_and]

theorem RoundTrip.cancelJob (a : BitVec 5) (g : BitVec 4) : RoundTrip.Statement (.cancelJob a g) := by
  show decodeRaw32 false _ = some _
  rw [raw79 false _ (by simp (disch := decide) only [extract_append_low, extract_all])]
  simp (disch := decide) only [decodeWork, extract_append_low, extract_append_high, extract_all, Nat.reduceSub, BitVec.reduceToNat, if_true, and_self, true_and]

theorem RoundTrip.qtest (q : BitVec 3) (d : BitVec 5) (g : BitVec 4) : RoundTrip.Statement (.qtest q d g) := by
  show decodeRaw32 false _ = some _
  rw [raw81 false _ (by simp (disch := decide) only [extract_append_low, extract_all])]
  simp (disch := decide) only [decodeQsem, extract_append_low, extract_append_high, extract_all, Nat.reduceSub, BitVec.reduceToNat, if_true, and_self, true_and]

theorem RoundTrip.qclose (q : BitVec 3) (g : BitVec 4) : RoundTrip.Statement (.qclose q g) := by
  show decodeRaw32 false _ = some _
  rw [raw81 false _ (by simp (disch := decide) only [extract_append_low, extract_all])]
  simp (disch := decide) only [decodeQsem, extract_append_low, extract_append_high, extract_all, Nat.reduceSub, BitVec.reduceToNat, if_true, and_self, true_and]

theorem RoundTrip.qbind (b : BitVec 5) (q : BitVec 3) (g : BitVec 4) : RoundTrip.Statement (.qbind b q g) := by
  show decodeRaw32 false _ = some _
  rw [raw81 false _ (by simp (disch := decide) only [extract_append_low, extract_all])]
  simp (disch := decide) only [decodeQsem, extract_append_low, extract_append_high, extract_all, Nat.reduceSub, BitVec.reduceToNat, if_true, and_self, true_and]

theorem RoundTrip.semp (s g : BitVec 4) : RoundTrip.Statement (.semp s g) := by
  show decodeRaw32 false _ = some _
  rw [raw81 false _ (by simp (disch := decide) only [extract_append_low, extract_all])]
  simp (disch := decide) only [decodeQsem, extract_append_low, extract_append_high, extract_all, Nat.reduceSub, BitVec.reduceToNat, if_true, and_self, true_and]

theorem RoundTrip.sempServe (tile : Nat) (sem : BitVec 4) : RoundTrip.Statement (.sempServe tile sem) := trivial

theorem RoundTrip.semv (s g : BitVec 4) : RoundTrip.Statement (.semv s g) := by
  show decodeRaw32 false _ = some _
  rw [raw81 false _ (by simp (disch := decide) only [extract_append_low, extract_all])]
  simp (disch := decide) only [decodeQsem, extract_append_low, extract_append_high, extract_all, Nat.reduceSub, BitVec.reduceToNat, if_true, and_self, true_and]

theorem RoundTrip.vgo (a : BitVec 5) (g : BitVec 4) : RoundTrip.Statement (.vgo a g) := by
  show decodeRaw32 false _ = some _
  rw [raw81 false _ (by simp (disch := decide) only [extract_append_low, extract_all])]
  simp (disch := decide) only [decodeQsem, extract_append_low, extract_append_high, extract_all, Nat.reduceSub, BitVec.reduceToNat, if_true, and_self, true_and]

theorem RoundTrip.tmset (a : BitVec 5) (t g : BitVec 4) : RoundTrip.Statement (.tmset a t g) := by
  show decodeRaw32 false _ = some _
  rw [raw83 false _ (by simp (disch := decide) only [extract_append_low, extract_all])]
  simp (disch := decide) only [decodeTmap, extract_append_low, extract_append_high, extract_all, Nat.reduceSub, BitVec.reduceToNat, if_true, and_self, true_and]

theorem RoundTrip.tmget (a : BitVec 5) (t g : BitVec 4) : RoundTrip.Statement (.tmget a t g) := by
  show decodeRaw32 false _ = some _
  rw [raw83 false _ (by simp (disch := decide) only [extract_append_low, extract_all])]
  simp (disch := decide) only [decodeTmap, extract_append_low, extract_append_high, extract_all, Nat.reduceSub, BitVec.reduceToNat, if_true, and_self, true_and]

theorem RoundTrip.tmofs (a : BitVec 5) (t g : BitVec 4) : RoundTrip.Statement (.tmofs a t g) := by
  show decodeRaw32 false _ = some _
  rw [raw83 false _ (by simp (disch := decide) only [extract_append_low, extract_all])]
  simp (disch := decide) only [decodeTmap, extract_append_low, extract_append_high, extract_all, Nat.reduceSub, BitVec.reduceToNat, if_true, and_self, true_and]

theorem RoundTrip.copy (q : BitVec 3) (a d g : BitVec 4) : RoundTrip.Statement (.copy q a d g) := by
  show decodeRaw32 false _ = some _
  rw [raw85 false _ (by simp (disch := decide) only [extract_append_low, extract_all])]
  simp (disch := decide) only [decodeCopy, extract_append_low, extract_append_high, extract_all, Nat.reduceSub, BitVec.reduceToNat, if_true, and_self, true_and]

theorem RoundTrip.gath (q : BitVec 3) (b a d g : BitVec 4) : RoundTrip.Statement (.gath q b a d g) := by
  show decodeRaw32 false _ = some _
  rw [raw87 false _ (by simp (disch := decide) only [extract_append_low, extract_all])]
  simp (disch := decide) only [decodeGath, extract_append_low, extract_append_high, extract_all, Nat.reduceSub, BitVec.reduceToNat, if_true, and_self, true_and]

theorem RoundTrip.scat (q : BitVec 3) (b a d g : BitVec 4) : RoundTrip.Statement (.scat q b a d g) := by
  show decodeRaw32 false _ = some _
  rw [raw89 false _ (by simp (disch := decide) only [extract_append_low, extract_all])]
  simp (disch := decide) only [decodeScat, extract_append_low, extract_append_high, extract_all, Nat.reduceSub, BitVec.reduceToNat, if_true, and_self, true_and]

theorem RoundTrip.scatAdd (q : BitVec 3) (b a d g : BitVec 4) : RoundTrip.Statement (.scatAdd q b a d g) := by
  show decodeRaw32 false _ = some _
  rw [raw89 false _ (by simp (disch := decide) only [extract_append_low, extract_all])]
  simp (disch := decide) only [decodeScat, extract_append_low, extract_append_high, extract_all, Nat.reduceSub, BitVec.reduceToNat, if_true, and_self, true_and]

theorem RoundTrip.kagg (q : BitVec 3) (b a d g : BitVec 4) : RoundTrip.Statement (.kagg q b a d g) := by
  show decodeRaw32 false _ = some _
  rw [raw91 false _ (by simp (disch := decide) only [extract_append_low, extract_all])]
  simp (disch := decide) only [decodeKops, extract_append_low, extract_append_high, extract_all, Nat.reduceSub, BitVec.reduceToNat, if_true, and_self, true_and]

theorem RoundTrip.kaggO (q : BitVec 3) (b a d g : BitVec 4) : RoundTrip.Statement (.kaggO q b a d g) := by
  show decodeRaw32 false _ = some _
  rw [raw91 false _ (by simp (disch := decide) only [extract_append_low, extract_all])]
  simp (disch := decide) only [decodeKops, extract_append_low, extract_append_high, extract_all, Nat.reduceSub, BitVec.reduceToNat, if_true, and_self, true_and]

theorem RoundTrip.kbcast (q : BitVec 3) (b a d g : BitVec 4) : RoundTrip.Statement (.kbcast q b a d g) := by
  show decodeRaw32 false _ = some _
  rw [raw91 false _ (by simp (disch := decide) only [extract_append_low, extract_all])]
  simp (disch := decide) only [decodeKops, extract_append_low, extract_append_high, extract_all, Nat.reduceSub, BitVec.reduceToNat, if_true, and_self, true_and]

theorem RoundTrip.kisect (q : BitVec 3) (b a d g : BitVec 4) : RoundTrip.Statement (.kisect q b a d g) := by
  show decodeRaw32 false _ = some _
  rw [raw91 false _ (by simp (disch := decide) only [extract_append_low, extract_all])]
  simp (disch := decide) only [decodeKops, extract_append_low, extract_append_high, extract_all, Nat.reduceSub, BitVec.reduceToNat, if_true, and_self, true_and]

theorem RoundTrip.kfold (q : BitVec 3) (b d g : BitVec 4) : RoundTrip.Statement (.kfold q b d g) := by
  show decodeRaw32 false _ = some _
  rw [raw91 false _ (by simp (disch := decide) only [extract_append_low, extract_all])]
  simp (disch := decide) only [decodeKops, extract_append_low, extract_append_high, extract_all, Nat.reduceSub, BitVec.reduceToNat, if_true, and_self, true_and]

theorem RoundTrip.kdirty (q : BitVec 3) (a d g : BitVec 4) : RoundTrip.Statement (.kdirty q a d g) := by
  show decodeRaw32 false _ = some _
  rw [raw91 false _ (by simp (disch := decide) only [extract_append_low, extract_all])]
  simp (disch := decide) only [decodeKops, extract_append_low, extract_append_high, extract_all, Nat.reduceSub, BitVec.reduceToNat, if_true, and_self, true_and]

theorem RoundTrip.convt (h : BitVec 1) (m q : BitVec 3) (a d g : BitVec 4) : RoundTrip.Statement (.convt h m q a d g) := by
  show decodeRaw32 false _ = some _
  rw [raw93 false _ (by simp (disch := decide) only [extract_append_low, extract_all])]
  simp (disch := decide) only [decodeConv, extract_append_low, extract_append_high, extract_all, Nat.reduceSub, BitVec.reduceToNat, if_true, and_self, true_and]

theorem RoundTrip.compress (p : BitVec 1) (q : BitVec 3) (b a d g : BitVec 4) : RoundTrip.Statement (.compress p q b a d g) := by
  show decodeRaw32 false _ = some _
  rw [raw93 false _ (by simp (disch := decide) only [extract_append_low, extract_all])]
  simp (disch := decide) only [decodeConv, extract_append_low, extract_append_high, extract_all, Nat.reduceSub, BitVec.reduceToNat, if_true, and_self, true_and]

theorem RoundTrip.mma (u k j : BitVec 1) (z : BitVec 2) (q : BitVec 3) (b a g : BitVec 4) : RoundTrip.Statement (.mma u k j z q b a g) := by
  show decodeRaw32 false _ = some _
  rw [raw95 false _ (by simp (disch := decide) only [extract_append_low, extract_all])]
  simp (disch := decide) only [decodeMma, extract_append_low, extract_append_high, extract_all, Nat.reduceSub, BitVec.reduceToNat, if_true, and_self, true_and]

theorem RoundTrip.mmas (u k j : BitVec 1) (z : BitVec 2) (q : BitVec 3) (b a d g : BitVec 4) : RoundTrip.Statement (.mmas u k j z q b a d g) := by
  show decodeRaw32 false _ = some _
  rw [raw95 false _ (by simp (disch := decide) only [extract_append_low, extract_all])]
  simp (disch := decide) only [decodeMma, extract_append_low, extract_append_high, extract_all, Nat.reduceSub, BitVec.reduceToNat, if_true, and_self, true_and]

theorem RoundTrip.mzero (z : BitVec 2) (q : BitVec 3) (g : BitVec 4) : RoundTrip.Statement (.mzero z q g) := by
  show decodeRaw32 false _ = some _
  rw [raw97 false _ (by simp (disch := decide) only [extract_append_low, extract_all])]
  simp (disch := decide) only [decodeMacc, extract_append_low, extract_append_high, extract_all, Nat.reduceSub, BitVec.reduceToNat, if_true, and_self, true_and]

theorem RoundTrip.mldacc (z : BitVec 2) (q : BitVec 3) (a g : BitVec 4) : RoundTrip.Statement (.mldacc z q a g) := by
  show decodeRaw32 false _ = some _
  rw [raw97 false _ (by simp (disch := decide) only [extract_append_low, extract_all])]
  simp (disch := decide) only [decodeMacc, extract_append_low, extract_append_high, extract_all, Nat.reduceSub, BitVec.reduceToNat, if_true, and_self, true_and]

theorem RoundTrip.mstacc (z : BitVec 2) (q : BitVec 3) (d g : BitVec 4) : RoundTrip.Statement (.mstacc z q d g) := by
  show decodeRaw32 false _ = some _
  rw [raw97 false _ (by simp (disch := decide) only [extract_append_low, extract_all])]
  simp (disch := decide) only [decodeMacc, extract_append_low, extract_append_high, extract_all, Nat.reduceSub, BitVec.reduceToNat, if_true, and_self, true_and]

theorem RoundTrip.bfpa (q : BitVec 3) (b a d g : BitVec 4) : RoundTrip.Statement (.bfpa q b a d g) := by
  show decodeRaw32 false _ = some _
  rw [raw99 false _ (by simp (disch := decide) only [extract_append_low, extract_all])]
  simp (disch := decide) only [decodeBfpa, extract_append_low, extract_append_high, extract_all, Nat.reduceSub, BitVec.reduceToNat, if_true, and_self, true_and]

theorem RoundTrip.resize (a : BitVec 5) (g : BitVec 4) : RoundTrip.Statement (.resize a g) := by
  show decodeRaw32 false _ = some _
  rw [raw101 false _ (by simp (disch := decide) only [extract_append_low, extract_all])]
  simp (disch := decide) only [decodeVault, extract_append_low, extract_append_high, extract_all, Nat.reduceSub, BitVec.reduceToNat, if_true, and_self, true_and]

theorem RoundTrip.volalloc (a d : BitVec 5) (g : BitVec 4) : RoundTrip.Statement (.volalloc a d g) := by
  show decodeRaw32 false _ = some _
  rw [raw101 false _ (by simp (disch := decide) only [extract_append_low, extract_all])]
  simp (disch := decide) only [decodeVault, extract_append_low, extract_append_high, extract_all, Nat.reduceSub, BitVec.reduceToNat, if_true, and_self, true_and]

theorem RoundTrip.volfree (b a : BitVec 5) (g : BitVec 4) : RoundTrip.Statement (.volfree b a g) := by
  show decodeRaw32 false _ = some _
  rw [raw101 false _ (by simp (disch := decide) only [extract_append_low, extract_all])]
  simp (disch := decide) only [decodeVault, extract_append_low, extract_append_high, extract_all, Nat.reduceSub, BitVec.reduceToNat, if_true, and_self, true_and]

theorem RoundTrip.stash (b a : BitVec 5) (g : BitVec 4) : RoundTrip.Statement (.stash b a g) := by
  show decodeRaw32 false _ = some _
  rw [raw101 false _ (by simp (disch := decide) only [extract_append_low, extract_all])]
  simp (disch := decide) only [decodeVault, extract_append_low, extract_append_high, extract_all, Nat.reduceSub, BitVec.reduceToNat, if_true, and_self, true_and]

theorem RoundTrip.unstash (a d : BitVec 5) (g : BitVec 4) : RoundTrip.Statement (.unstash a d g) := by
  show decodeRaw32 false _ = some _
  rw [raw101 false _ (by simp (disch := decide) only [extract_append_low, extract_all])]
  simp (disch := decide) only [decodeVault, extract_append_low, extract_append_high, extract_all, Nat.reduceSub, BitVec.reduceToNat, if_true, and_self, true_and]

theorem RoundTrip.flq (b a : BitVec 5) (g : BitVec 4) : RoundTrip.Statement (.flq b a g) := by
  show decodeRaw32 false _ = some _
  rw [raw101 false _ (by simp (disch := decide) only [extract_append_low, extract_all])]
  simp (disch := decide) only [decodeVault, extract_append_low, extract_append_high, extract_all, Nat.reduceSub, BitVec.reduceToNat, if_true, and_self, true_and]

theorem RoundTrip.trap (a : BitVec 5) (g : BitVec 4) : RoundTrip.Statement (.trap a g) := by
  show decodeRaw32 false _ = some _
  rw [raw103 false _ (by simp (disch := decide) only [extract_append_low, extract_all])]
  simp (disch := decide) only [decodeSys, extract_append_low, extract_append_high, extract_all, Nat.reduceSub, BitVec.reduceToNat, if_true, and_self, true_and]

theorem RoundTrip.tret (g : BitVec 4) : RoundTrip.Statement (.tret g) := by
  show decodeRaw32 false _ = some _
  rw [raw103 false _ (by simp (disch := decide) only [extract_append_low, extract_all])]
  simp (disch := decide) only [decodeSys, extract_append_low, extract_append_high, extract_all, Nat.reduceSub, BitVec.reduceToNat, if_true, and_self, true_and]

theorem RoundTrip.ctxkill (a : BitVec 5) (g : BitVec 4) : RoundTrip.Statement (.ctxkill a g) := by
  show decodeRaw32 false _ = some _
  rw [raw103 false _ (by simp (disch := decide) only [extract_append_low, extract_all])]
  simp (disch := decide) only [decodeSys, extract_append_low, extract_append_high, extract_all, Nat.reduceSub, BitVec.reduceToNat, if_true, and_self, true_and]

theorem RoundTrip.csrr (c : BitVec 11) (d : BitVec 5) (g : BitVec 4) : RoundTrip.Statement (.csrr c d g) := by
  show decodeRaw32 false _ = some _
  rw [raw105 false _ (by simp (disch := decide) only [extract_append_low, extract_all])]
  simp (disch := decide) only [decodeCsrr, extract_append_low, extract_append_high, extract_all, Nat.reduceSub, BitVec.reduceToNat, if_true, and_self, true_and]

theorem RoundTrip.csrw (c : BitVec 11) (a : BitVec 5) (g : BitVec 4) : RoundTrip.Statement (.csrw c a g) := by
  show decodeRaw32 false _ = some _
  rw [raw107 false _ (by simp (disch := decide) only [extract_append_low, extract_all])]
  simp (disch := decide) only [decodeCsrw, extract_append_low, extract_append_high, extract_all, Nat.reduceSub, BitVec.reduceToNat, if_true, and_self, true_and]

theorem RoundTrip.csrx (c : BitVec 11) (a d : BitVec 5) (g : BitVec 4) : RoundTrip.Statement (.csrx c a d g) := by
  show decodeRaw32 false _ = some _
  rw [raw109 false _ (by simp (disch := decide) only [extract_append_low, extract_all])]
  simp (disch := decide) only [decodeCsrx, extract_append_low, extract_append_high, extract_all, Nat.reduceSub, BitVec.reduceToNat, if_true, and_self, true_and]

theorem RoundTrip.cIll (x : BitVec 11) : RoundTrip.Statement (.cIll x) := by
  show decodeRaw16 _ = some _
  simp (disch := decide) only [decodeRaw16, extract_append_low, extract_append_high, extract_all, Nat.reduceSub, BitVec.reduceToNat, if_true, and_self]

theorem RoundTrip.cNop : RoundTrip.Statement (.cNop) := rfl

theorem RoundTrip.cMov (a d : BitVec 4) : RoundTrip.Statement (.cMov a d) := by
  show decodeRaw16 _ = some _
  simp (disch := decide) only [decodeRaw16, extract_append_low, extract_append_high, extract_all, Nat.reduceSub, BitVec.reduceToNat, if_true, and_self]

theorem RoundTrip.cAdd (a d : BitVec 4) : RoundTrip.Statement (.cAdd a d) := by
  show decodeRaw16 _ = some _
  simp (disch := decide) only [decodeRaw16, extract_append_low, extract_append_high, extract_all, Nat.reduceSub, BitVec.reduceToNat, if_true, and_self]

theorem RoundTrip.cSub (a d : BitVec 4) : RoundTrip.Statement (.cSub a d) := by
  show decodeRaw16 _ = some _
  simp (disch := decide) only [decodeRaw16, extract_append_low, extract_append_high, extract_all, Nat.reduceSub, BitVec.reduceToNat, if_true, and_self]

theorem RoundTrip.cAddi (i : BitVec 7) (d : BitVec 4) : RoundTrip.Statement (.cAddi i d) := by
  show decodeRaw16 _ = some _
  simp (disch := decide) only [decodeRaw16, extract_append_low, extract_append_high, extract_all, Nat.reduceSub, BitVec.reduceToNat, if_true, and_self]

theorem RoundTrip.cShli (s : BitVec 6) (d : BitVec 4) : RoundTrip.Statement (.cShli s d) := by
  show decodeRaw16 _ = some _
  simp (disch := decide) only [decodeRaw16, extract_append_low, extract_append_high, extract_all, Nat.reduceSub, BitVec.reduceToNat, if_true, and_self]

theorem RoundTrip.cLdw (i : BitVec 3) (a d : BitVec 4) : RoundTrip.Statement (.cLdw i a d) := by
  show decodeRaw16 _ = some _
  simp (disch := decide) only [decodeRaw16, extract_append_low, extract_append_high, extract_all, Nat.reduceSub, BitVec.reduceToNat, if_true, and_self]

theorem RoundTrip.cStw (i : BitVec 3) (a d : BitVec 4) : RoundTrip.Statement (.cStw i a d) := by
  show decodeRaw16 _ = some _
  simp (disch := decide) only [decodeRaw16, extract_append_low, extract_append_high, extract_all, Nat.reduceSub, BitVec.reduceToNat, if_true, and_self]

theorem RoundTrip.cLdd (i : BitVec 3) (a d : BitVec 4) : RoundTrip.Statement (.cLdd i a d) := by
  show decodeRaw16 _ = some _
  simp (disch := decide) only [decodeRaw16, extract_append_low, extract_append_high, extract_all, Nat.reduceSub, BitVec.reduceToNat, if_true, and_self]

theorem RoundTrip.cStd (i : BitVec 3) (a d : BitVec 4) : RoundTrip.Statement (.cStd i a d) := by
  show decodeRaw16 _ = some _
  simp (disch := decide) only [decodeRaw16, extract_append_low, extract_append_high, extract_all, Nat.reduceSub, BitVec.reduceToNat, if_true, and_self]

theorem RoundTrip.cBr (i : BitVec 7) : RoundTrip.Statement (.cBr i) := by
  show decodeRaw16 _ = some _
  simp (disch := decide) only [decodeRaw16, extract_append_low, extract_append_high, extract_all, Nat.reduceSub, BitVec.reduceToNat, if_true, and_self]

theorem RoundTrip.cBnz (i : BitVec 7) (d : BitVec 4) : RoundTrip.Statement (.cBnz i d) := by
  show decodeRaw16 _ = some _
  simp (disch := decide) only [decodeRaw16, extract_append_low, extract_append_high, extract_all, Nat.reduceSub, BitVec.reduceToNat, if_true, and_self]

theorem RoundTrip.cCall (a : BitVec 4) : RoundTrip.Statement (.cCall a) := by
  show decodeRaw16 _ = some _
  simp (disch := decide) only [decodeRaw16, extract_append_low, extract_append_high, extract_all, Nat.reduceSub, BitVec.reduceToNat, if_true, and_self]

theorem RoundTrip.cRet : RoundTrip.Statement (.cRet) := rfl

theorem RoundTrip.cTend : RoundTrip.Statement (.cTend) := rfl

theorem RoundTrip.vadd (t : BitVec 3) (b a d m : BitVec 4) : RoundTrip.Statement (.vadd t b a d m) := by
  show decodeRaw32 false _ = some _
  rw [raw113 false _ (by simp (disch := decide) only [extract_append_low, extract_all])]
  simp (disch := decide) only [decodeVarith, extract_append_low, extract_append_high, extract_all, Nat.reduceSub, BitVec.reduceToNat, if_true, and_self, true_and]

theorem RoundTrip.vsub (t : BitVec 3) (b a d m : BitVec 4) : RoundTrip.Statement (.vsub t b a d m) := by
  show decodeRaw32 false _ = some _
  rw [raw113 false _ (by simp (disch := decide) only [extract_append_low, extract_all])]
  simp (disch := decide) only [decodeVarith, extract_append_low, extract_append_high, extract_all, Nat.reduceSub, BitVec.reduceToNat, if_true, and_self, true_and]

theorem RoundTrip.vmul (t : BitVec 3) (b a d m : BitVec 4) : RoundTrip.Statement (.vmul t b a d m) := by
  show decodeRaw32 false _ = some _
  rw [raw113 false _ (by simp (disch := decide) only [extract_append_low, extract_all])]
  simp (disch := decide) only [decodeVarith, extract_append_low, extract_append_high, extract_all, Nat.reduceSub, BitVec.reduceToNat, if_true, and_self, true_and]

theorem RoundTrip.vfma (t : BitVec 3) (b a d m : BitVec 4) : RoundTrip.Statement (.vfma t b a d m) := by
  show decodeRaw32 false _ = some _
  rw [raw113 false _ (by simp (disch := decide) only [extract_append_low, extract_all])]
  simp (disch := decide) only [decodeVarith, extract_append_low, extract_append_high, extract_all, Nat.reduceSub, BitVec.reduceToNat, if_true, and_self, true_and]

theorem RoundTrip.vfms (t : BitVec 3) (b a d m : BitVec 4) : RoundTrip.Statement (.vfms t b a d m) := by
  show decodeRaw32 false _ = some _
  rw [raw113 false _ (by simp (disch := decide) only [extract_append_low, extract_all])]
  simp (disch := decide) only [decodeVarith, extract_append_low, extract_append_high, extract_all, Nat.reduceSub, BitVec.reduceToNat, if_true, and_self, true_and]

theorem RoundTrip.vmin (t : BitVec 3) (b a d m : BitVec 4) : RoundTrip.Statement (.vmin t b a d m) := by
  show decodeRaw32 false _ = some _
  rw [raw113 false _ (by simp (disch := decide) only [extract_append_low, extract_all])]
  simp (disch := decide) only [decodeVarith, extract_append_low, extract_append_high, extract_all, Nat.reduceSub, BitVec.reduceToNat, if_true, and_self, true_and]

theorem RoundTrip.vmax (t : BitVec 3) (b a d m : BitVec 4) : RoundTrip.Statement (.vmax t b a d m) := by
  show decodeRaw32 false _ = some _
  rw [raw113 false _ (by simp (disch := decide) only [extract_append_low, extract_all])]
  simp (disch := decide) only [decodeVarith, extract_append_low, extract_append_high, extract_all, Nat.reduceSub, BitVec.reduceToNat, if_true, and_self, true_and]

theorem RoundTrip.vabs (t : BitVec 3) (a d m : BitVec 4) : RoundTrip.Statement (.vabs t a d m) := by
  show decodeRaw32 false _ = some _
  rw [raw113 false _ (by simp (disch := decide) only [extract_append_low, extract_all])]
  simp (disch := decide) only [decodeVarith, extract_append_low, extract_append_high, extract_all, Nat.reduceSub, BitVec.reduceToNat, if_true, and_self, true_and]

theorem RoundTrip.vneg (t : BitVec 3) (a d m : BitVec 4) : RoundTrip.Statement (.vneg t a d m) := by
  show decodeRaw32 false _ = some _
  rw [raw113 false _ (by simp (disch := decide) only [extract_append_low, extract_all])]
  simp (disch := decide) only [decodeVarith, extract_append_low, extract_append_high, extract_all, Nat.reduceSub, BitVec.reduceToNat, if_true, and_self, true_and]

theorem RoundTrip.vmov (t : BitVec 3) (a d m : BitVec 4) : RoundTrip.Statement (.vmov t a d m) := by
  show decodeRaw32 false _ = some _
  rw [raw113 false _ (by simp (disch := decide) only [extract_append_low, extract_all])]
  simp (disch := decide) only [decodeVarith, extract_append_low, extract_append_high, extract_all, Nat.reduceSub, BitVec.reduceToNat, if_true, and_self, true_and]

theorem RoundTrip.vand (t : BitVec 3) (b a d m : BitVec 4) : RoundTrip.Statement (.vand t b a d m) := by
  show decodeRaw32 false _ = some _
  rw [raw115 false _ (by simp (disch := decide) only [extract_append_low, extract_all])]
  simp (disch := decide) only [decodeVlogic, extract_append_low, extract_append_high, extract_all, Nat.reduceSub, BitVec.reduceToNat, if_true, and_self, true_and]

theorem RoundTrip.vor (t : BitVec 3) (b a d m : BitVec 4) : RoundTrip.Statement (.vor t b a d m) := by
  show decodeRaw32 false _ = some _
  rw [raw115 false _ (by simp (disch := decide) only [extract_append_low, extract_all])]
  simp (disch := decide) only [decodeVlogic, extract_append_low, extract_append_high, extract_all, Nat.reduceSub, BitVec.reduceToNat, if_true, and_self, true_and]

theorem RoundTrip.vxor (t : BitVec 3) (b a d m : BitVec 4) : RoundTrip.Statement (.vxor t b a d m) := by
  show decodeRaw32 false _ = some _
  rw [raw115 false _ (by simp (disch := decide) only [extract_append_low, extract_all])]
  simp (disch := decide) only [decodeVlogic, extract_append_low, extract_append_high, extract_all, Nat.reduceSub, BitVec.reduceToNat, if_true, and_self, true_and]

theorem RoundTrip.vshl (t : BitVec 3) (b a d m : BitVec 4) : RoundTrip.Statement (.vshl t b a d m) := by
  show decodeRaw32 false _ = some _
  rw [raw115 false _ (by simp (disch := decide) only [extract_append_low, extract_all])]
  simp (disch := decide) only [decodeVlogic, extract_append_low, extract_append_high, extract_all, Nat.reduceSub, BitVec.reduceToNat, if_true, and_self, true_and]

theorem RoundTrip.vshr (t : BitVec 3) (b a d m : BitVec 4) : RoundTrip.Statement (.vshr t b a d m) := by
  show decodeRaw32 false _ = some _
  rw [raw115 false _ (by simp (disch := decide) only [extract_append_low, extract_all])]
  simp (disch := decide) only [decodeVlogic, extract_append_low, extract_append_high, extract_all, Nat.reduceSub, BitVec.reduceToNat, if_true, and_self, true_and]

theorem RoundTrip.vsra (t : BitVec 3) (b a d m : BitVec 4) : RoundTrip.Statement (.vsra t b a d m) := by
  show decodeRaw32 false _ = some _
  rw [raw115 false _ (by simp (disch := decide) only [extract_append_low, extract_all])]
  simp (disch := decide) only [decodeVlogic, extract_append_low, extract_append_high, extract_all, Nat.reduceSub, BitVec.reduceToNat, if_true, and_self, true_and]

theorem RoundTrip.vcmpEq (t : BitVec 3) (b a : BitVec 4) (d : BitVec 3) (m : BitVec 4) : RoundTrip.Statement (.vcmpEq t b a d m) := by
  show decodeRaw32 false _ = some _
  rw [raw117 false _ (by simp (disch := decide) only [extract_append_low, extract_all])]
  simp (disch := decide) only [decodeVcmps, extract_append_low, extract_append_high, extract_all, Nat.reduceSub, BitVec.reduceToNat, if_true, and_self, true_and]

theorem RoundTrip.vcmpNe (t : BitVec 3) (b a : BitVec 4) (d : BitVec 3) (m : BitVec 4) : RoundTrip.Statement (.vcmpNe t b a d m) := by
  show decodeRaw32 false _ = some _
  rw [raw117 false _ (by simp (disch := decide) only [extract_append_low, extract_all])]
  simp (disch := decide) only [decodeVcmps, extract_append_low, extract_append_high, extract_all, Nat.reduceSub, BitVec.reduceToNat, if_true, and_self, true_and]

theorem RoundTrip.vcmpLt (t : BitVec 3) (b a : BitVec 4) (d : BitVec 3) (m : BitVec 4) : RoundTrip.Statement (.vcmpLt t b a d m) := by
  show decodeRaw32 false _ = some _
  rw [raw117 false _ (by simp (disch := decide) only [extract_append_low, extract_all])]
  simp (disch := decide) only [decodeVcmps, extract_append_low, extract_append_high, extract_all, Nat.reduceSub, BitVec.reduceToNat, if_true, and_self, true_and]

theorem RoundTrip.vcmpLe (t : BitVec 3) (b a : BitVec 4) (d : BitVec 3) (m : BitVec 4) : RoundTrip.Statement (.vcmpLe t b a d m) := by
  show decodeRaw32 false _ = some _
  rw [raw117 false _ (by simp (disch := decide) only [extract_append_low, extract_all])]
  simp (disch := decide) only [decodeVcmps, extract_append_low, extract_append_high, extract_all, Nat.reduceSub, BitVec.reduceToNat, if_true, and_self, true_and]

theorem RoundTrip.vcmpGt (t : BitVec 3) (b a : BitVec 4) (d : BitVec 3) (m : BitVec 4) : RoundTrip.Statement (.vcmpGt t b a d m) := by
  show decodeRaw32 false _ = some _
  rw [raw117 false _ (by simp (disch := decide) only [extract_append_low, extract_all])]
  simp (disch := decide) only [decodeVcmps, extract_append_low, extract_append_high, extract_all, Nat.reduceSub, BitVec.reduceToNat, if_true, and_self, true_and]

theorem RoundTrip.vcmpGe (t : BitVec 3) (b a : BitVec 4) (d : BitVec 3) (m : BitVec 4) : RoundTrip.Statement (.vcmpGe t b a d m) := by
  show decodeRaw32 false _ = some _
  rw [raw117 false _ (by simp (disch := decide) only [extract_append_low, extract_all])]
  simp (disch := decide) only [decodeVcmps, extract_append_low, extract_append_high, extract_all, Nat.reduceSub, BitVec.reduceToNat, if_true, and_self, true_and]

theorem RoundTrip.vcmpUn (t : BitVec 3) (b a : BitVec 4) (d : BitVec 3) (m : BitVec 4) : RoundTrip.Statement (.vcmpUn t b a d m) := by
  show decodeRaw32 false _ = some _
  rw [raw117 false _ (by simp (disch := decide) only [extract_append_low, extract_all])]
  simp (disch := decide) only [decodeVcmps, extract_append_low, extract_append_high, extract_all, Nat.reduceSub, BitVec.reduceToNat, if_true, and_self, true_and]

theorem RoundTrip.vcmpOrd (t : BitVec 3) (b a : BitVec 4) (d : BitVec 3) (m : BitVec 4) : RoundTrip.Statement (.vcmpOrd t b a d m) := by
  show decodeRaw32 false _ = some _
  rw [raw117 false _ (by simp (disch := decide) only [extract_append_low, extract_all])]
  simp (disch := decide) only [decodeVcmps, extract_append_low, extract_append_high, extract_all, Nat.reduceSub, BitVec.reduceToNat, if_true, and_self, true_and]

theorem RoundTrip.vsel (b a d s : BitVec 4) : RoundTrip.Statement (.vsel b a d s) := by
  show decodeRaw32 false _ = some _
  rw [raw117 false _ (by simp (disch := decide) only [extract_append_low, extract_all])]
  simp (disch := decide) only [decodeVcmps, extract_append_low, extract_append_high, extract_all, Nat.reduceSub, BitVec.reduceToNat, if_true, and_self, true_and]

theorem RoundTrip.vmand (b a d : BitVec 3) : RoundTrip.Statement (.vmand b a d) := by
  show decodeRaw32 false _ = some _
  rw [raw117 false _ (by simp (disch := decide) only [extract_append_low, extract_all])]
  simp (disch := decide) only [decodeVcmps, extract_append_low, extract_append_high, extract_all, Nat.reduceSub, BitVec.reduceToNat, if_true, and_self, true_and]

theorem RoundTrip.vmor (b a d : BitVec 3) : RoundTrip.Statement (.vmor b a d) := by
  show decodeRaw32 false _ = some _
  rw [raw117 false _ (by simp (disch := decide) only [extract_append_low, extract_all])]
  simp (disch := decide) only [decodeVcmps, extract_append_low, extract_append_high, extract_all, Nat.reduceSub, BitVec.reduceToNat, if_true, and_self, true_and]

theorem RoundTrip.vmnot (a d : BitVec 3) : RoundTrip.Statement (.vmnot a d) := by
  show decodeRaw32 false _ = some _
  rw [raw117 false _ (by simp (disch := decide) only [extract_append_low, extract_all])]
  simp (disch := decide) only [decodeVcmps, extract_append_low, extract_append_high, extract_all, Nat.reduceSub, BitVec.reduceToNat, if_true, and_self, true_and]

theorem RoundTrip.vld (a d m : BitVec 4) : RoundTrip.Statement (.vld a d m) := by
  show decodeRaw32 false _ = some _
  rw [raw119 false _ (by simp (disch := decide) only [extract_append_low, extract_all])]
  simp (disch := decide) only [decodeVmem, extract_append_low, extract_append_high, extract_all, Nat.reduceSub, BitVec.reduceToNat, if_true, and_self, true_and]

theorem RoundTrip.vst (a d m : BitVec 4) : RoundTrip.Statement (.vst a d m) := by
  show decodeRaw32 false _ = some _
  rw [raw119 false _ (by simp (disch := decide) only [extract_append_low, extract_all])]
  simp (disch := decide) only [decodeVmem, extract_append_low, extract_append_high, extract_all, Nat.reduceSub, BitVec.reduceToNat, if_true, and_self, true_and]

theorem RoundTrip.vlds (b a d m : BitVec 4) : RoundTrip.Statement (.vlds b a d m) := by
  show decodeRaw32 false _ = some _
  rw [raw119 false _ (by simp (disch := decide) only [extract_append_low, extract_all])]
  simp (disch := decide) only [decodeVmem, extract_append_low, extract_append_high, extract_all, Nat.reduceSub, BitVec.reduceToNat, if_true, and_self, true_and]

theorem RoundTrip.vsts (b a d m : BitVec 4) : RoundTrip.Statement (.vsts b a d m) := by
  show decodeRaw32 false _ = some _
  rw [raw119 false _ (by simp (disch := decide) only [extract_append_low, extract_all])]
  simp (disch := decide) only [decodeVmem, extract_append_low, extract_append_high, extract_all, Nat.reduceSub, BitVec.reduceToNat, if_true, and_self, true_and]

theorem RoundTrip.vgath (b a d m : BitVec 4) : RoundTrip.Statement (.vgath b a d m) := by
  show decodeRaw32 false _ = some _
  rw [raw119 false _ (by simp (disch := decide) only [extract_append_low, extract_all])]
  simp (disch := decide) only [decodeVmem, extract_append_low, extract_append_high, extract_all, Nat.reduceSub, BitVec.reduceToNat, if_true, and_self, true_and]

theorem RoundTrip.vscat (b a d m : BitVec 4) : RoundTrip.Statement (.vscat b a d m) := by
  show decodeRaw32 false _ = some _
  rw [raw119 false _ (by simp (disch := decide) only [extract_append_low, extract_all])]
  simp (disch := decide) only [decodeVmem, extract_append_low, extract_append_high, extract_all, Nat.reduceSub, BitVec.reduceToNat, if_true, and_self, true_and]

theorem RoundTrip.vldq (q : BitVec 3) (d m : BitVec 4) : RoundTrip.Statement (.vldq q d m) := by
  show decodeRaw32 false _ = some _
  rw [raw121 false _ (by simp (disch := decide) only [extract_append_low, extract_all])]
  simp (disch := decide) only [decodeVq, extract_append_low, extract_append_high, extract_all, Nat.reduceSub, BitVec.reduceToNat, if_true, and_self, true_and]

theorem RoundTrip.vstq (a : BitVec 4) (q : BitVec 3) (m : BitVec 4) : RoundTrip.Statement (.vstq a q m) := by
  show decodeRaw32 false _ = some _
  rw [raw121 false _ (by simp (disch := decide) only [extract_append_low, extract_all])]
  simp (disch := decide) only [decodeVq, extract_append_low, extract_append_high, extract_all, Nat.reduceSub, BitVec.reduceToNat, if_true, and_self, true_and]

theorem RoundTrip.vbcq (q : BitVec 3) (d m : BitVec 4) : RoundTrip.Statement (.vbcq q d m) := by
  show decodeRaw32 false _ = some _
  rw [raw121 false _ (by simp (disch := decide) only [extract_append_low, extract_all])]
  simp (disch := decide) only [decodeVq, extract_append_low, extract_append_high, extract_all, Nat.reduceSub, BitVec.reduceToNat, if_true, and_self, true_and]

theorem RoundTrip.vend (f : BitVec 1) (s : BitVec 4) : RoundTrip.Statement (.vend f s) := by
  show decodeRaw32 false _ = some _
  rw [raw121 false _ (by simp (disch := decide) only [extract_append_low, extract_all])]
  simp (disch := decide) only [decodeVq, extract_append_low, extract_append_high, extract_all, Nat.reduceSub, BitVec.reduceToNat, if_true, and_self, true_and]

theorem RoundTrip.vredAdd (t : BitVec 3) (a d m : BitVec 4) : RoundTrip.Statement (.vredAdd t a d m) := by
  show decodeRaw32 false _ = some _
  rw [raw123 false _ (by simp (disch := decide) only [extract_append_low, extract_all])]
  simp (disch := decide) only [decodeVred, extract_append_low, extract_append_high, extract_all, Nat.reduceSub, BitVec.reduceToNat, if_true, and_self, true_and]

theorem RoundTrip.vredMin (t : BitVec 3) (a d m : BitVec 4) : RoundTrip.Statement (.vredMin t a d m) := by
  show decodeRaw32 false _ = some _
  rw [raw123 false _ (by simp (disch := decide) only [extract_append_low, extract_all])]
  simp (disch := decide) only [decodeVred, extract_append_low, extract_append_high, extract_all, Nat.reduceSub, BitVec.reduceToNat, if_true, and_self, true_and]

theorem RoundTrip.vredMax (t : BitVec 3) (a d m : BitVec 4) : RoundTrip.Statement (.vredMax t a d m) := by
  show decodeRaw32 false _ = some _
  rw [raw123 false _ (by simp (disch := decide) only [extract_append_low, extract_all])]
  simp (disch := decide) only [decodeVred, extract_append_low, extract_append_high, extract_all, Nat.reduceSub, BitVec.reduceToNat, if_true, and_self, true_and]

theorem RoundTrip.vredAnd (t : BitVec 3) (a d m : BitVec 4) : RoundTrip.Statement (.vredAnd t a d m) := by
  show decodeRaw32 false _ = some _
  rw [raw123 false _ (by simp (disch := decide) only [extract_append_low, extract_all])]
  simp (disch := decide) only [decodeVred, extract_append_low, extract_append_high, extract_all, Nat.reduceSub, BitVec.reduceToNat, if_true, and_self, true_and]

theorem RoundTrip.vredOr (t : BitVec 3) (a d m : BitVec 4) : RoundTrip.Statement (.vredOr t a d m) := by
  show decodeRaw32 false _ = some _
  rw [raw123 false _ (by simp (disch := decide) only [extract_append_low, extract_all])]
  simp (disch := decide) only [decodeVred, extract_append_low, extract_append_high, extract_all, Nat.reduceSub, BitVec.reduceToNat, if_true, and_self, true_and]

theorem RoundTrip.vredXor (t : BitVec 3) (a d m : BitVec 4) : RoundTrip.Statement (.vredXor t a d m) := by
  show decodeRaw32 false _ = some _
  rw [raw123 false _ (by simp (disch := decide) only [extract_append_low, extract_all])]
  simp (disch := decide) only [decodeVred, extract_append_low, extract_append_high, extract_all, Nat.reduceSub, BitVec.reduceToNat, if_true, and_self, true_and]

theorem RoundTrip.vscanAdd (t : BitVec 3) (a d m : BitVec 4) : RoundTrip.Statement (.vscanAdd t a d m) := by
  show decodeRaw32 false _ = some _
  rw [raw123 false _ (by simp (disch := decide) only [extract_append_low, extract_all])]
  simp (disch := decide) only [decodeVred, extract_append_low, extract_append_high, extract_all, Nat.reduceSub, BitVec.reduceToNat, if_true, and_self, true_and]

theorem RoundTrip.vscanMin (t : BitVec 3) (a d m : BitVec 4) : RoundTrip.Statement (.vscanMin t a d m) := by
  show decodeRaw32 false _ = some _
  rw [raw123 false _ (by simp (disch := decide) only [extract_append_low, extract_all])]
  simp (disch := decide) only [decodeVred, extract_append_low, extract_append_high, extract_all, Nat.reduceSub, BitVec.reduceToNat, if_true, and_self, true_and]

theorem RoundTrip.vscanMax (t : BitVec 3) (a d m : BitVec 4) : RoundTrip.Statement (.vscanMax t a d m) := by
  show decodeRaw32 false _ = some _
  rw [raw123 false _ (by simp (disch := decide) only [extract_append_low, extract_all])]
  simp (disch := decide) only [decodeVred, extract_append_low, extract_append_high, extract_all, Nat.reduceSub, BitVec.reduceToNat, if_true, and_self, true_and]

theorem RoundTrip.vscanAnd (t : BitVec 3) (a d m : BitVec 4) : RoundTrip.Statement (.vscanAnd t a d m) := by
  show decodeRaw32 false _ = some _
  rw [raw123 false _ (by simp (disch := decide) only [extract_append_low, extract_all])]
  simp (disch := decide) only [decodeVred, extract_append_low, extract_append_high, extract_all, Nat.reduceSub, BitVec.reduceToNat, if_true, and_self, true_and]

theorem RoundTrip.vscanOr (t : BitVec 3) (a d m : BitVec 4) : RoundTrip.Statement (.vscanOr t a d m) := by
  show decodeRaw32 false _ = some _
  rw [raw123 false _ (by simp (disch := decide) only [extract_append_low, extract_all])]
  simp (disch := decide) only [decodeVred, extract_append_low, extract_append_high, extract_all, Nat.reduceSub, BitVec.reduceToNat, if_true, and_self, true_and]

theorem RoundTrip.vscanXor (t : BitVec 3) (a d m : BitVec 4) : RoundTrip.Statement (.vscanXor t a d m) := by
  show decodeRaw32 false _ = some _
  rw [raw123 false _ (by simp (disch := decide) only [extract_append_low, extract_all])]
  simp (disch := decide) only [decodeVred, extract_append_low, extract_append_high, extract_all, Nat.reduceSub, BitVec.reduceToNat, if_true, and_self, true_and]

theorem RoundTrip.vperm (b a d m : BitVec 4) : RoundTrip.Statement (.vperm b a d m) := by
  show decodeRaw32 false _ = some _
  rw [raw123 false _ (by simp (disch := decide) only [extract_append_low, extract_all])]
  simp (disch := decide) only [decodeVred, extract_append_low, extract_append_high, extract_all, Nat.reduceSub, BitVec.reduceToNat, if_true, and_self, true_and]

theorem RoundTrip.vbcast (a d m : BitVec 4) : RoundTrip.Statement (.vbcast a d m) := by
  show decodeRaw32 false _ = some _
  rw [raw123 false _ (by simp (disch := decide) only [extract_append_low, extract_all])]
  simp (disch := decide) only [decodeVred, extract_append_low, extract_append_high, extract_all, Nat.reduceSub, BitVec.reduceToNat, if_true, and_self, true_and]

theorem RoundTrip.vcvt (r t s : BitVec 3) (a d m : BitVec 4) : RoundTrip.Statement (.vcvt r t s a d m) := by
  show decodeRaw32 false _ = some _
  rw [raw125 false _ (by simp (disch := decide) only [extract_append_low, extract_all])]
  simp (disch := decide) only [decodeVcvt, extract_append_low, extract_append_high, extract_all, Nat.reduceSub, BitVec.reduceToNat, if_true, and_self, true_and]

theorem RoundTrip.vrnd (k : BitVec 4) (x : BitVec 2) (a d m : BitVec 4) : RoundTrip.Statement (.vrnd k x a d m) := by
  show decodeRaw32 false _ = some _
  rw [raw125 false _ (by simp (disch := decide) only [extract_append_low, extract_all])]
  simp (disch := decide) only [decodeVcvt, extract_append_low, extract_append_high, extract_all, Nat.reduceSub, BitVec.reduceToNat, if_true, and_self, true_and]

theorem RoundTrip.vthresh (t : BitVec 3) (b a d m : BitVec 4) : RoundTrip.Statement (.vthresh t b a d m) := by
  show decodeRaw32 false _ = some _
  rw [raw125 false _ (by simp (disch := decide) only [extract_append_low, extract_all])]
  simp (disch := decide) only [decodeVcvt, extract_append_low, extract_append_high, extract_all, Nat.reduceSub, BitVec.reduceToNat, if_true, and_self, true_and]

theorem RoundTrip.vexp (a d m : BitVec 4) : RoundTrip.Statement (.vexp a d m) := by
  show decodeRaw32 false _ = some _
  rw [raw127 false _ (by simp (disch := decide) only [extract_append_low, extract_all])]
  simp (disch := decide) only [decodeVmath, extract_append_low, extract_append_high, extract_all, Nat.reduceSub, BitVec.reduceToNat, if_true, and_self, true_and]

theorem RoundTrip.vlog (a d m : BitVec 4) : RoundTrip.Statement (.vlog a d m) := by
  show decodeRaw32 false _ = some _
  rw [raw127 false _ (by simp (disch := decide) only [extract_append_low, extract_all])]
  simp (disch := decide) only [decodeVmath, extract_append_low, extract_append_high, extract_all, Nat.reduceSub, BitVec.reduceToNat, if_true, and_self, true_and]

theorem RoundTrip.vrcp (a d m : BitVec 4) : RoundTrip.Statement (.vrcp a d m) := by
  show decodeRaw32 false _ = some _
  rw [raw127 false _ (by simp (disch := decide) only [extract_append_low, extract_all])]
  simp (disch := decide) only [decodeVmath, extract_append_low, extract_append_high, extract_all, Nat.reduceSub, BitVec.reduceToNat, if_true, and_self, true_and]

theorem RoundTrip.vrsq (a d m : BitVec 4) : RoundTrip.Statement (.vrsq a d m) := by
  show decodeRaw32 false _ = some _
  rw [raw127 false _ (by simp (disch := decide) only [extract_append_low, extract_all])]
  simp (disch := decide) only [decodeVmath, extract_append_low, extract_append_high, extract_all, Nat.reduceSub, BitVec.reduceToNat, if_true, and_self, true_and]

theorem RoundTrip.streamBr (d : BitVec 21) (m : BitVec 4) : RoundTrip.Statement (.streamBr d m) := by
  show decodeRaw32 true _ = some _
  rw [raw63s _ (by simp (disch := decide) only [extract_append_low, extract_all])]
  simp (disch := decide) only [decodeStreamBr, extract_append_low, extract_append_high, extract_all, Nat.reduceSub, BitVec.reduceToNat, if_true, and_self, true_and]

theorem RoundTrip.streamLoop (i : BitVec 11) (q : BitVec 3) (m : BitVec 4) : RoundTrip.Statement (.streamLoop i q m) := by
  show decodeRaw32 true _ = some _
  rw [raw69s _ (by simp (disch := decide) only [extract_append_low, extract_all])]
  simp (disch := decide) only [decodeStreamLoop, extract_append_low, extract_append_high, extract_all, Nat.reduceSub, BitVec.reduceToNat, if_true, and_self, true_and]

theorem RoundTrip.killRecord (k : Nat) : RoundTrip.Statement (.killRecord k) := trivial

theorem RoundTrip.inlineBlock (p : Nat) : RoundTrip.Statement (.inlineBlock p) := trivial

theorem RoundTrip.routineClassMessage (p : Nat) : RoundTrip.Statement (.routineClassMessage p) := trivial

theorem RoundTrip.launch (p : Nat) : RoundTrip.Statement (.launch p) := trivial

theorem RoundTrip.launchComplete (key : Nat) : RoundTrip.Statement (.launchComplete key) := trivial

theorem RoundTrip.cancel (p : Nat) : RoundTrip.Statement (.cancel p) := trivial

theorem RoundTrip.decMessage (p : Nat) : RoundTrip.Statement (.decMessage p) := trivial

theorem RoundTrip.spawnMessage (p : Nat) : RoundTrip.Statement (.spawnMessage p) := trivial

theorem RoundTrip.spawnReply (p : Nat) : RoundTrip.Statement (.spawnReply p) := trivial

theorem RoundTrip.taskStart (core : Nat) : RoundTrip.Statement (.taskStart core) := trivial

theorem RoundTrip.deficitReplenish (tile : Nat) : RoundTrip.Statement (.deficitReplenish tile) := trivial

theorem RoundTrip.creditGrant (core : Nat) : RoundTrip.Statement (.creditGrant core) := trivial

theorem RoundTrip.amo (p : Nat) : RoundTrip.Statement (.amo p) := trivial

theorem RoundTrip.casMessage (p : Nat) : RoundTrip.Statement (.casMessage p) := trivial

theorem RoundTrip.atomicReply (p : Nat) : RoundTrip.Statement (.atomicReply p) := trivial

theorem RoundTrip.postedAtomicAck (p : Nat) : RoundTrip.Statement (.postedAtomicAck p) := trivial

theorem RoundTrip.electRequest (p : Nat) : RoundTrip.Statement (.electRequest p) := trivial

theorem RoundTrip.phaseDeclaration (p : Nat) : RoundTrip.Statement (.phaseDeclaration p) := trivial

theorem RoundTrip.phaseComplete (tile : Nat) (n : BitVec 4) : RoundTrip.Statement (.phaseComplete tile n) := trivial

theorem RoundTrip.phdone (core : Nat) : RoundTrip.Statement (.phdone core) := trivial

theorem RoundTrip.trapev (p : Nat) : RoundTrip.Statement (.trapev p) := trivial

theorem RoundTrip.landingPlain (p : Nat) : RoundTrip.Statement (.landingPlain p) := trivial

theorem RoundTrip.landingConv (p : Nat) : RoundTrip.Statement (.landingConv p) := trivial

theorem RoundTrip.landingAdd (p : Nat) : RoundTrip.Statement (.landingAdd p) := trivial

theorem RoundTrip.landingSetf (p : Nat) : RoundTrip.Statement (.landingSetf p) := trivial

theorem RoundTrip.landingTrans (p : Nat) : RoundTrip.Statement (.landingTrans p) := trivial

theorem RoundTrip.gathreq (p : Nat) : RoundTrip.Statement (.gathreq p) := trivial

theorem RoundTrip.scatreq (p : Nat) : RoundTrip.Statement (.scatreq p) := trivial

theorem RoundTrip.kaggreq (p : Nat) : RoundTrip.Statement (.kaggreq p) := trivial

theorem RoundTrip.kbcastreq (p : Nat) : RoundTrip.Statement (.kbcastreq p) := trivial

theorem RoundTrip.changeLogAppend (p : Nat) : RoundTrip.Statement (.changeLogAppend p) := trivial

theorem RoundTrip.mcmd (p : Nat) : RoundTrip.Statement (.mcmd p) := trivial

theorem RoundTrip.xform (p : Nat) : RoundTrip.Statement (.xform p) := trivial

theorem RoundTrip.fldone (p : Nat) : RoundTrip.Statement (.fldone p) := trivial

theorem RoundTrip.commandComplete (core : Nat) : RoundTrip.Statement (.commandComplete core) := trivial

theorem RoundTrip.lateFault (core : Nat) : RoundTrip.Statement (.lateFault core) := trivial

theorem RoundTrip.groupWatchdog (tile : Nat) : RoundTrip.Statement (.groupWatchdog tile) := trivial

theorem RoundTrip.queueWaitTimeout (tile : Nat) : RoundTrip.Statement (.queueWaitTimeout tile) := trivial

theorem RoundTrip.ldfServe (tile : Nat) : RoundTrip.Statement (.ldfServe tile) := trivial

theorem RoundTrip.ldfRetry (slot : Nat) : RoundTrip.Statement (.ldfRetry slot) := trivial

theorem RoundTrip.writeRequest (p : Nat) : RoundTrip.Statement (.writeRequest p) := trivial

theorem RoundTrip.heldWriteResume (p : Nat) : RoundTrip.Statement (.heldWriteResume p) := trivial

theorem RoundTrip.registration (p : Nat) : RoundTrip.Statement (.registration p) := trivial

theorem RoundTrip.revoke (p : Nat) : RoundTrip.Statement (.revoke p) := trivial

theorem RoundTrip.lineFill (p : Nat) : RoundTrip.Statement (.lineFill p) := trivial

theorem RoundTrip.forwardedRead (p : Nat) : RoundTrip.Statement (.forwardedRead p) := trivial

theorem RoundTrip.fillArrival (p : Nat) : RoundTrip.Statement (.fillArrival p) := trivial

theorem RoundTrip.writeBack (p : Nat) : RoundTrip.Statement (.writeBack p) := trivial

theorem RoundTrip.strongAccess (p : Nat) : RoundTrip.Statement (.strongAccess p) := trivial

theorem RoundTrip.placedAccess (p : Nat) : RoundTrip.Statement (.placedAccess p) := trivial

theorem RoundTrip.speculativeReplay (slot : Nat) : RoundTrip.Statement (.speculativeReplay slot) := trivial

theorem RoundTrip.tileAllocation (p : Nat) : RoundTrip.Statement (.tileAllocation p) := trivial

theorem RoundTrip.clbShootdown (p : Nat) : RoundTrip.Statement (.clbShootdown p) := trivial

theorem RoundTrip.budgetExpiry (slot : Nat) : RoundTrip.Statement (.budgetExpiry slot) := trivial

theorem RoundTrip.taskTermination (slot : Nat) : RoundTrip.Statement (.taskTermination slot) := trivial

theorem RoundTrip.leaveSave (tile : Nat) (grant : BitVec 2) : RoundTrip.Statement (.leaveSave tile grant) := trivial

theorem RoundTrip.epochAdvance (tile : Nat) : RoundTrip.Statement (.epochAdvance tile) := trivial

theorem RoundTrip.randRead (m : BitVec 2) (a d : BitVec 5) (g : BitVec 4) : RoundTrip.Statement (.randRead m a d g) := trivial

theorem RoundTrip.tctlRead (m : BitVec 2) (a d : BitVec 5) (g : BitVec 4) : RoundTrip.Statement (.tctlRead m a d g) := trivial

theorem RoundTrip.cvstatRead (m : BitVec 2) (a d : BitVec 5) (g : BitVec 4) : RoundTrip.Statement (.cvstatRead m a d g) := trivial

theorem RoundTrip.fnselWrite (m : BitVec 2) (a d : BitVec 5) (g : BitVec 4) : RoundTrip.Statement (.fnselWrite m a d g) := trivial

theorem RoundTrip.bfmtWrite (n : BitVec 4) (m : BitVec 2) (a d : BitVec 5) (g : BitVec 4) : RoundTrip.Statement (.bfmtWrite n m a d g) := trivial

theorem RoundTrip.bdropWrite (n : BitVec 4) (m : BitVec 2) (a d : BitVec 5) (g : BitVec 4) : RoundTrip.Statement (.bdropWrite n m a d g) := trivial

theorem RoundTrip.budgetWrite (m : BitVec 2) (a d : BitVec 5) (g : BitVec 4) : RoundTrip.Statement (.budgetWrite m a d g) := trivial

theorem RoundTrip.phslotWrite (m : BitVec 2) (a d : BitVec 5) (g : BitVec 4) : RoundTrip.Statement (.phslotWrite m a d g) := trivial

theorem RoundTrip.gselWrite (m : BitVec 2) (a d : BitVec 5) (g : BitVec 4) : RoundTrip.Statement (.gselWrite m a d g) := trivial

theorem RoundTrip.grantWrite (m : BitVec 2) (a d : BitVec 5) (g : BitVec 4) : RoundTrip.Statement (.grantWrite m a d g) := trivial

theorem RoundTrip.grantLeave (m : BitVec 2) (a d : BitVec 5) (g : BitVec 4) : RoundTrip.Statement (.grantLeave m a d g) := trivial

theorem RoundTrip.grantRestore (m : BitVec 2) (a d : BitVec 5) (g : BitVec 4) : RoundTrip.Statement (.grantRestore m a d g) := trivial

theorem RoundTrip.tokenIssue (m : BitVec 2) (a d : BitVec 5) (g : BitVec 4) : RoundTrip.Statement (.tokenIssue m a d g) := trivial

theorem RoundTrip.mkeyWrite (m : BitVec 2) (a d : BitVec 5) (g : BitVec 4) : RoundTrip.Statement (.mkeyWrite m a d g) := trivial

theorem RoundTrip.lwadd (m : BitVec 2) (a d : BitVec 5) (g : BitVec 4) : RoundTrip.Statement (.lwadd m a d g) := trivial

theorem RoundTrip.lwmaxn (m : BitVec 2) (a d : BitVec 5) (g : BitVec 4) : RoundTrip.Statement (.lwmaxn m a d g) := trivial

theorem RoundTrip.lwfmax (m : BitVec 2) (a d : BitVec 5) (g : BitVec 4) : RoundTrip.Statement (.lwfmax m a d g) := trivial

theorem RoundTrip.pqcfgWrite (m : BitVec 2) (a d : BitVec 5) (g : BitVec 4) : RoundTrip.Statement (.pqcfgWrite m a d g) := trivial

theorem RoundTrip.pqpop (m : BitVec 2) (a d : BitVec 5) (g : BitVec 4) : RoundTrip.Statement (.pqpop m a d g) := trivial

theorem RoundTrip.stashbWrite (m : BitVec 2) (a d : BitVec 5) (g : BitVec 4) : RoundTrip.Statement (.stashbWrite m a d g) := trivial

theorem RoundTrip.stashlWrite (m : BitVec 2) (a d : BitVec 5) (g : BitVec 4) : RoundTrip.Statement (.stashlWrite m a d g) := trivial

theorem RoundTrip.pcapWrite (m : BitVec 2) (a d : BitVec 5) (g : BitVec 4) : RoundTrip.Statement (.pcapWrite m a d g) := trivial

theorem RoundTrip.csrWrite (n : BitVec 11) (m : BitVec 2) (a d : BitVec 5) (g : BitVec 4) : RoundTrip.Statement (.csrWrite n m a d g) := trivial

theorem RoundTrip.map (slot : Nat) : RoundTrip.Statement (.map slot) := trivial

theorem RoundTrip.unmap (slot : Nat) : RoundTrip.Statement (.unmap slot) := trivial

theorem RoundTrip.rights (slot : Nat) : RoundTrip.Statement (.rights slot) := trivial

theorem RoundTrip.clean (slot : Nat) : RoundTrip.Statement (.clean slot) := trivial

theorem RoundTrip.logtail (slot : Nat) : RoundTrip.Statement (.logtail slot) := trivial

theorem RoundTrip.ctxset (slot : Nat) : RoundTrip.Statement (.ctxset slot) := trivial

theorem RoundTrip.kring (slot : Nat) : RoundTrip.Statement (.kring slot) := trivial

theorem RoundTrip.hostlist (slot : Nat) : RoundTrip.Statement (.hostlist slot) := trivial

theorem RoundTrip.slice (p : Nat) : RoundTrip.Statement (.slice p) := trivial

theorem RoundTrip.sliceStart (pkg gang : Nat) : RoundTrip.Statement (.sliceStart pkg gang) := trivial

theorem RoundTrip.gangGraceExpiry (pkg gang : Nat) : RoundTrip.Statement (.gangGraceExpiry pkg gang) := trivial

theorem RoundTrip.sliceEnd (pkg gang : Nat) : RoundTrip.Statement (.sliceEnd pkg gang) := trivial

theorem RoundTrip.glaunch (p : Nat) : RoundTrip.Statement (.glaunch p) := trivial

theorem RoundTrip.ack (p : Nat) : RoundTrip.Statement (.ack p) := trivial

theorem RoundTrip.gangAckTimeout (pkg gang : Nat) : RoundTrip.Statement (.gangAckTimeout pkg gang) := trivial

theorem RoundTrip.late (p : Nat) : RoundTrip.Statement (.late p) := trivial

theorem RoundTrip.stop (p : Nat) : RoundTrip.Statement (.stop p) := trivial

theorem RoundTrip.tileFence (tile : Nat) (addr : BitVec 48) : RoundTrip.Statement (.tileFence tile addr) := trivial

theorem RoundTrip.eccCorrected (pkg : Nat) (bits : BitVec 32) : RoundTrip.Statement (.eccCorrected pkg bits) := trivial

theorem RoundTrip.linkRetryExhausted (pkg : Nat) (link : BitVec 8) : RoundTrip.Statement (.linkRetryExhausted pkg link) := trivial

theorem RoundTrip.powerStep (pkg : Nat) (milliwatts : BitVec 64) : RoundTrip.Statement (.powerStep pkg milliwatts) := trivial

theorem RoundTrip.thermalLimit (pkg : Nat) (die celsius : BitVec 8) : RoundTrip.Statement (.thermalLimit pkg die celsius) := trivial

theorem RoundTrip.functionReady (pkg : Nat) (bit : BitVec 8) : RoundTrip.Statement (.functionReady pkg bit) := trivial

theorem RoundTrip.imageVerification (pkg : Nat) (image : BitVec 64) : RoundTrip.Statement (.imageVerification pkg image) := trivial

theorem RoundTrip.managementWrite (pkg : Nat) (off value : BitVec 64) : RoundTrip.Statement (.managementWrite pkg off value) := trivial

theorem RoundTrip.managementRead (pkg : Nat) (off : BitVec 64) : RoundTrip.Statement (.managementRead pkg off) := trivial

theorem RoundTrip.attestationRequest (pkg part : Nat) (nonce : BitVec 384) : RoundTrip.Statement (.attestationRequest pkg part nonce) := trivial

theorem RoundTrip.coreReset (core : Nat) : RoundTrip.Statement (.coreReset core) := trivial

theorem RoundTrip.tileReset (tile : Nat) : RoundTrip.Statement (.tileReset tile) := trivial

theorem RoundTrip.packageReset (pkg : Nat) : RoundTrip.Statement (.packageReset pkg) := trivial

theorem RoundTrip.trainingFailure (pkg : Nat) (bit : BitVec 8) : RoundTrip.Statement (.trainingFailure pkg bit) := trivial

theorem RoundTrip.recallRequest (p : Nat) : RoundTrip.Statement (.recallRequest p) := trivial

end Sys2Proof.Laws
end

