-- ==== Sys2Proof/Laws/Run.lean ====
section
/-!
SUPPORT. Sys2Proof/Laws/Run.lean: how effects run: the monad's operations, the checks, and the shared accesses, each in one
lemma.
-/

set_option linter.unusedSimpArgs false

namespace Sys2Proof.Machine

/-! ### The monad -/

@[simp] theorem run_pure {α : Type} (a : α) (s : State) : (pure a : M α) s = .ok (a, s) := rfl
theorem run_bind {α β : Type} (x : M α) (f : α → M β) (s : State) :
    (x >>= f) s = (match x s with
      | .ok (a, s') => f a s'
      | .error e => .error e) := by
  show (StateT.bind x f) s = _
  simp only [StateT.bind]
  cases x s with
  | ok p => rfl
  | error e => rfl
@[simp] theorem run_bind_ok {α β : Type} {x : M α} {f : α → M β} {s s' : State} {a : α} (h : x s = .ok (a, s')) :
    (x >>= f) s = f a s' := by rw [run_bind, h]
@[simp] theorem run_bind_error {α β : Type} {x : M α} {f : α → M β} {s : State} {e : Stop} (h : x s = .error e) :
    (x >>= f) s = .error e := by rw [run_bind, h]
@[simp] theorem run_map {α β : Type} (f : α → β) (x : M α) (s : State) :
    (f <$> x) s = (match x s with
      | .ok (a, s') => .ok (f a, s')
      | .error e => .error e) := by
  show (StateT.map f x) s = _
  simp only [StateT.map]
  cases x s with
  | ok p => rfl
  | error e => rfl
@[simp] theorem run_get (s : State) : (get : M State) s = .ok (s, s) := rfl
@[simp] theorem run_set (s s' : State) : (set s' : M PUnit) s = .ok (⟨⟩, s') := rfl
@[simp] theorem run_modify (f : State → State) (s : State) : (modify f : M PUnit) s = .ok (⟨⟩, f s) := rfl
@[simp] theorem run_throw {α : Type} (e : Stop) (s : State) : (throw e : M α) s = .error e := rfl
@[simp] theorem run_trapM {α : Type} (c : Cause) (v : Dword) (s : State) : (trapM c v : M α) s = .error (.trap c v) := rfl
@[simp] theorem run_waitM {α : Type} (w : Want) (s : State) : (waitM w : M α) s = .error (.wait w none) := rfl
@[simp] theorem run_modThis (f : Task → Task) (s : State) : modThis f s = .ok (⟨⟩, modTask s s.here f) := rfl
@[simp] theorem run_acquireM (s : State) : acquireM s = .ok (⟨⟩, acquireCore s (hereCore s)) := rfl

/-- A check passes, or takes its trap. -/
theorem run_guardM (ok : Bool) (c : Cause) (v : Dword) (s : State) :
    guardM ok c v s = if ok then .ok (⟨⟩, s) else .error (.trap c v) := by cases ok <;> rfl
@[simp] theorem run_guardM_true (c : Cause) (v : Dword) (s : State) : guardM true c v s = .ok (⟨⟩, s) := rfl
@[simp] theorem run_guardM_false (c : Cause) (v : Dword) (s : State) : guardM false c v s = .error (.trap c v) := rfl
/-- A condition holds, or is waited for. -/
theorem run_awaitM (ok : Bool) (w : Want) (s : State) :
    awaitM ok w s = if ok then .ok (⟨⟩, s) else .error (.wait w none) := by cases ok <;> rfl
@[simp] theorem run_awaitM_true (w : Want) (s : State) : awaitM true w s = .ok (⟨⟩, s) := rfl

/-- The task at `s.here`. -/
theorem run_thisTask {s : State} {t : Task} (h : hereTask s = some t) : thisTask s = .ok (t, s) := by
  unfold thisTask
  rw [run_bind_ok (run_get s), h]
  rfl

/-- A request whose reply has come. -/
theorem run_ask {s : State} {t : Task} {w : Want} {r : Reply} (dst : Nat) (b : Body) (h : hereTask s = some t)
    (hr : t.pend.log.lookup w = some r) : ask w dst b s = .ok (r, s) := by
  unfold ask
  rw [run_bind_ok (run_thisTask h), hr]
  rfl

/-! ### Releases and publication points -/

theorem run_publishedM {s : State} {t : Task} (h : hereTask s = some t) (hp : t.pubs = []) :
    publishedM s = .ok (⟨⟩, s) := by
  unfold publishedM
  rw [run_bind_ok (run_thisTask h)]
  simp [hp]

/-- A release that can be made at once. -/
theorem run_releaseM {s : State} {t : Task} (h : hereTask s = some t) (ho : t.outs = []) (hc : cmdsPending s t.uid = false)
    (hr : t.refused = none) (hl : t.lost = []) : releaseM s = .ok (⟨⟩, s) := by
  unfold releaseM
  rw [run_bind_ok (run_get s), run_bind_ok (run_thisTask h)]
  simp only [refusedM, hr, hl]
  rw [run_bind_ok (run_pure _ s)]
  simp [settled, ho, hc]

/-- An access that no posted atomic of the task meets. -/
theorem run_unpostedM {s : State} {t : Task} {va size : Nat} (h : ownOut s t 2 va size = false) :
    unpostedM t va size s = .ok (⟨⟩, s) := by
  unfold unpostedM
  rw [run_bind_ok (run_get s), h]
  rfl

/-! ### Addresses -/

/-- The checks of an effective address, where they pass. -/
theorem run_checkAddr {t : Task} {a : BitVec 5} {ea : Dword} {size : Nat} (s : State)
    (h1 : t.inl = none → ¬(a = 2#5 ∧ ea.toNat < t.slim.toNat)) (h2 : ea.toNat % size = 0)
    (h3 : t.inl ≠ none → ea.toNat < 2 ^ 20) : checkAddr t a ea size s = .ok (⟨⟩, s) := by
  unfold checkAddr
  cases hi : t.inl with
  | none =>
    have := h1 hi
    have h4 : (!(a == 2#5 && ea.ult t.slim)) = true := by
      simp only [Bool.not_eq_true', Bool.and_eq_false_iff, beq_eq_false_iff_ne, BitVec.ult, decide_eq_false_iff_not]
      by_cases ha : a = 2#5
      · right; exact fun h => this ⟨ha, h⟩
      · left; exact ha
    simp [run_bind, h4, h2]
  | some b =>
    have : ea.toNat < 1048576 := h3 (by simp [hi])
    simp [run_bind, h2, this]

/-- An address placed on the accessing tile names no way of it that a RESIZE is to change, when the way that holds it is none. -/
theorem ownResizing_of_placeOf {s : State} {tile va off : Nat} {vault : Bool} (hp : placeOf s tile va = .placed vault tile off)
    (hz : vault = true → resizing s tile (off / 2 ^ 19) = false) : ownResizing s tile va = false := by
  unfold ownResizing
  cases vault with
  | false =>
    have : ownWay tile va = none := by
      unfold placeOf at hp
      unfold ownWay
      dsimp only at hp
      split at hp
      · rw [if_neg (by omega), if_neg (by omega)]
      · split at hp
        · split at hp <;> simp at hp
        · split at hp
          · rw [if_neg (by omega), if_neg (by omega)]
          · split at hp
            · split at hp <;> simp at hp
            · split at hp <;> simp at hp
    rw [this]; rfl
  | true =>
    have : ownWay tile va = some (off / 2 ^ 19) := by
      unfold placeOf at hp
      unfold ownWay
      dsimp only at hp
      split at hp
      · simp at hp
      · split at hp
        · next h =>
          rw [if_pos h]
          split at hp
          · simp at hp
          · simp only [Place.placed.injEq] at hp
            rw [← hp.2.2]
        · split at hp
          · split at hp <;> simp at hp
          · split at hp
            · next h1 _ h =>
              split at hp
              · simp at hp
              · simp only [Place.placed.injEq, tileKey] at hp
                rw [if_neg h1, if_pos ⟨h.1, h.2, by omega⟩, ← hp.2.2]
            · split at hp <;> simp at hp
    rw [this]
    exact hz rfl

/-- The RESIZE wait of an access passes. -/
theorem run_unresizedM {s : State} {va : Nat} (h : ownResizing s (hereTile s) va = false) :
    unresizedM va s = .ok (⟨⟩, s) := by
  unfold unresizedM
  rw [run_bind_ok (run_get s), h]
  rfl

/-- A placed access on the task's own tile that may be made. -/
theorem run_checkPlaced {s : State} {ctx : BitVec 11} {vault : Bool} {tile off : Nat} (ea : Dword)
    (h : placedCause s ctx vault tile off = none) (hz : vault = true → resizing s tile (off / 2 ^ 19) = false) :
    checkPlaced ctx vault tile off ea s = .ok (⟨⟩, s) := by
  have h1 : (!vault || !resizing s tile (off / 2 ^ 19)) = true := by
    cases vault with
    | false => rfl
    | true => rw [hz rfl]; rfl
  unfold checkPlaced
  rw [run_bind_ok (run_get s), h1, run_bind_ok (run_awaitM_true _ s), run_bind_ok (run_get s), h]
  rfl

/-- A read of placed memory that no error has spoilt. -/
theorem run_checkSpoilt {s : State} {key size : Nat} (ea : Dword) (h : spoiltAt s key size = false) :
    checkSpoilt key size ea s = .ok (⟨⟩, s) := by
  unfold checkSpoilt
  rw [run_bind_ok (run_get s), h]
  rfl

/-- A read of placed memory of the task's own tile. -/
theorem run_memRead_tile {s : State} {t : Task} {ea : Dword} {size kind off : Nat} {vault : Bool}
    (h : hereTask s = some t) (hp : placeOf s (hereTile s) ea.toNat = .placed vault (hereTile s) off)
    (hc : placedCause s t.ctx vault (hereTile s) off = none)
    (hz : vault = true → resizing s (hereTile s) (off / 2 ^ 19) = false) (hu : ownOut s t 2 ea.toNat size = false)
    (hs : spoiltAt s (placeKey vault (hereTile s) off) size = false) (hk : kind ≠ 0 → t.pubs = []) :
    memRead t ea size kind s =
      .ok (BitVec.ofNat 64 (storeGet s (placeKey vault (hereTile s) off) size),
        if kind = 2 then acquireCore s (hereCore s) else s) := by
  unfold memRead
  rw [run_bind_ok (run_get s), run_bind_ok (run_unresizedM (ownResizing_of_placeOf hp hz)), hp]
  simp only [reduceCtorEq, if_false, ne_eq, if_true]
  have h2 : ∀ v : Dword, ((do
      if kind = 2 then acquireM
      pure v : M Dword) s) = .ok (v, if kind = 2 then acquireCore s (hereCore s) else s) := by
    intro v
    split
    · rw [run_bind_ok (run_acquireM s)]; rfl
    · rfl
  by_cases hk0 : kind = 0
  · subst hk0
    simp [run_bind, run_unpostedM hu, run_checkPlaced ea hc hz, run_checkSpoilt ea hs]
  · simp only [hk0, not_false_eq_true, if_true]
    rw [run_bind_ok (run_publishedM h (hk hk0)), run_bind_ok (run_unpostedM hu), run_bind_ok (run_checkPlaced ea hc hz),
      run_bind_ok (run_checkSpoilt ea hs), run_bind_ok (run_pure _ s)]
    exact h2 _

/-- A write of placed memory of the task's own tile. -/
theorem run_memWrite_tile {s : State} {t : Task} {ea v : Dword} {size kind off : Nat} {vault : Bool}
    (h : hereTask s = some t) (hp : placeOf s (hereTile s) ea.toNat = .placed vault (hereTile s) off)
    (hc : placedCause s t.ctx vault (hereTile s) off = none)
    (hz : vault = true → resizing s (hereTile s) (off / 2 ^ 19) = false) (hu : ownOut s t 2 ea.toNat size = false)
    (hk : kind ≠ 0 → kind ≠ 3 → t.pubs = [])
    (hr : kind = 3 → t.outs = [] ∧ cmdsPending s t.uid = false ∧ t.refused = none ∧ t.lost = []) :
    memWrite t ea size kind v s =
      .ok (⟨⟩, storePut s (placeKey vault (hereTile s) off) size (v.toNat % 2 ^ (8 * size))) := by
  unfold memWrite
  rw [run_bind_ok (run_get s), run_bind_ok (run_unresizedM (ownResizing_of_placeOf hp hz)), hp]
  simp only [reduceCtorEq, if_false, ne_eq, true_or, beq_self_eq_true, Bool.true_or, if_true, decide_true]
  rw [run_bind_ok (run_checkPlaced ea hc hz)]
  by_cases h3 : kind = 3
  · obtain ⟨a1, a2, a3, a4⟩ := hr h3
    simp only [h3, if_true]
    rw [run_bind_ok (run_releaseM h a1 a2 a3 a4), run_bind_ok (run_unpostedM hu)]
    rfl
  · simp only [h3, if_false]
    by_cases h0 : kind = 0
    · subst h0
      simp [run_bind, run_unpostedM hu]
    · simp only [h0, not_false_eq_true, if_true]
      rw [run_bind_ok (run_publishedM h (hk h0 h3)), run_bind_ok (run_unpostedM hu)]
      rfl

end Sys2Proof.Machine
end

