-- ==== Sys2Proof/Tests/Slice0.lean ====
section
/-!
SUPPORT. Sys2Proof/Tests/Slice0.lean: the model's own tests: an ill-formed term for each check of WellFormed, words of the
spec, results the spec works out, and for each obligation with hypotheses a state and operands that meet them.
-/

set_option Elab.async false
set_option maxRecDepth 10000

namespace Sys2Proof.Tests
open Sys2Proof Sys2Proof.Machine Sys2Proof.Claims

/-! ### Small states -/

/-- A task of context 0 at privilege M at 0x100, with g4 to g9 given, g2 at 0x9000 and SLIM 0x8800. -/
def aTask (args : List Dword) : Task := freshTask 1 0 3 0x8000 7 0x100 32 32 0x9000 0 0 args (2 ^ 20) 0 16#5

/-- Package 0 and tile 0 up, bank 0 granted to context 0, and a task in slot 0 of a core of the tile, which executes. -/
def ground (n : Nat) (t : Task) : State :=
  let s := putTask (placedGround State.reset) (slotKey (coreKey 0 n) 0) t
  { s with here := slotKey (coreKey 0 n) 0, nextId := 2 }

/-- Executes, as a computation. -/
def runs (i : Instr) (g : BitVec 4) (s : State) (t : Task) : Bool :=
  decide (hereTask s = some t) && (checks i t (coreNum (hereCore s))).isNone && guardHolds t g && t.binds.isEmpty &&
    !consumesSpoilt i g t

theorem executes_of {i : Instr} {g : BitVec 4} {s : State} {t : Task} (h : runs i g s t = true) : Executes i g s t := by
  simp only [runs, Bool.and_eq_true, decide_eq_true_eq, Option.isNone_iff_eq_none, List.isEmpty_iff, Bool.not_eq_true'] at h
  exact ⟨h.1.1.1.1, h.1.1.1.2, h.2, h.1.1.2, h.1.2⟩

/-! ### The obligations' hypotheses -/

theorem test_witness_IntegerResults : ∃ op t, intOp (.add 0 6 5 4 0) = some op ∧
    Executes (.add 0 6 5 4 0) op.guard (ground 0 t) t :=
  ⟨_, aTask [1, 2, 3], rfl, executes_of (by decide)⟩

theorem test_witness_DivisionResults : ∃ op t, divOp (.div 1 6 5 4 0) = some op ∧
    Executes (.div 1 6 5 4 0) op.guard (ground 0 t) t ∧ op.zero t = true :=
  ⟨_, aTask [1, 2, 0], rfl, executes_of (by decide), by decide⟩

theorem test_witness_PredicateResults : ∃ op t, predOp (.cmpiLtn 1 3 5 2 1 0) = some op ∧
    Executes (.cmpiLtn 1 3 5 2 1 0) op.guard (ground 0 t) t ∧ Executes (.punpk 5 0) 0 (ground 0 t) t :=
  ⟨_, aTask [1, 2, 3], rfl, executes_of (by decide), executes_of (by decide)⟩

theorem test_witness_LoopStarts : ∃ t, Executes (.loop 4 5 0) 0 (ground 0 t) t ∧
    hereTask (ground 0 t) = some t ∧ checks (.loop 4 5 8) t (coreNum (hereCore (ground 0 t))) = none ∧ guardHolds t 8 = false ∧
    consumesSpoilt (.loop 4 5 8) 8 t = false :=
  ⟨aTask [1, 2, 3], executes_of (by decide), by decide, by decide, by decide, by decide⟩

theorem test_witness_ControlFlow : ∃ op t, jumpOp (.jalr 0 5 1 0) = some op ∧
    Executes (.jalr 0 5 1 0) op.guard (ground 0 t) t ∧ oddTarget (.jalr 0 5 1 0) op t = true ∧
    Executes .cNop always (ground 0 t) t :=
  ⟨_, aTask [1, 3, 3], rfl, executes_of (by decide), by decide, executes_of (by decide)⟩

/-- The three clauses of the loop-back, each at a body of one word. -/
def loopTask (count : Dword) (lend : Dword) : Task := { (aTask []) with lstart := 0x100, lend := lend, lcount := count }
theorem test_witness_LoopsBack :
    (loopTask 2 0x104).lstart.toNat ≤ (loopTask 2 0x104).pc.toNat ∧
    (loopTask 2 0x104).pc.toNat + 4 = (loopTask 2 0x104).lend.toNat ∧
    (stepPc (loopTask 2 0x104) 4).pc = 0x100 ∧ (stepPc (loopTask 1 0x104) 4).pc = 0x104 ∧
    (stepPc (loopTask 2 0x102) 4).lcount = 0 ∧ (stepPc (loopTask 2 0x106) 4).lcount = 2 ∧
    (stepPc (loopTask 0 0x104) 4).lcount = 0 ∧ (loopTask 2 0x104).pc.toNat + 4 < 2 ^ 48 := by
  refine ⟨?_, ?_, ?_, ?_, ?_, ?_, ?_, ?_⟩ <;> decide

theorem test_witness_GuardedOff : ∃ w t, encode (.ld 0 0 0 3 5 4 8) = .word w ∧ w.extractLsb' 7 4 = 8#4 ∧
    hereTask (ground 0 t) = some t ∧ checks (.ld 0 0 0 3 5 4 8) t (coreNum (hereCore (ground 0 t))) = none ∧
    guardHolds t (w.extractLsb' 7 4) = false :=
  ⟨_, aTask [], rfl, by decide, by decide, by decide, by decide⟩

/-! Loads and stores -/

theorem onTile_of {s : State} {t : Task} {ea : Dword} {v : Bool} {off : Nat}
    (h : placeOf s (hereTile s) ea.toNat = .placed v (hereTile s) off ∧
        placedCause s t.ctx v (hereTile s) off = none) (hv : v = false := by rfl) :
    OnTile s t ea v off := ⟨h.1, h.2, fun e => by rw [hv] at e; exact absurd e (by decide)⟩
theorem addressed_of {t : Task} {b : BitVec 5} {ea : Dword} {n : Nat}
    (h : (t.inl = none ∧ ¬(b = 2#5 ∧ ea.toNat < t.slim.toNat)) ∧ ea.toNat % n = 0) : Addressed t b ea n :=
  ⟨fun _ => h.1.2, h.2, fun e => absurd h.1.1 e⟩

theorem test_witness_LoadsOnTheTile : ∃ op t, loadOp (.ld 1 0 2 3 5 4 0) = some op ∧
    Executes (.ld 1 0 2 3 5 4 0) op.guard (ground 0 t) t ∧ Addressed t op.base (op.ea t) op.size ∧
    OnTile (ground 0 t) t (op.ea t) false 0xFFF8 ∧ t.pubs = [] ∧
    spoiltAt (ground 0 t) (keyOf (ground 0 t) false 0xFFF8) op.size = false ∧
    ownOut (ground 0 t) t 2 (op.ea t).toNat op.size = false :=
  ⟨_, aTask [0, 0xFFF0], rfl, executes_of (by decide), addressed_of (by decide), onTile_of (by decide), by decide, by decide,
    by decide⟩
/-! The memory members -/

/-- The ground with words in the executing core's L1. -/
def withL1 (s : State) (l : Table L1Word) : State := modCore s (hereCore s) (fun c => { c with l1 := l, grants := [(2 ^ 36, 0)] })
def word (v : Word) (o : Own) : L1Word := { ctxs := [0], val := v, own := o, row := true, column := false }
/-- The two words of a doubleword of global memory. -/
def twoWords (t : Task) : State := withL1 (ground 0 t) [(2 ^ 36, word 5 .clean), (2 ^ 36 + 4, word 6 .clean)]

theorem test_witness_LoadsFromL1 : ∃ op t, loadOp (.ld 0 0 0 3 5 4 0) = some op ∧ op.kind = 0 ∧
    Executes (.ld 0 0 0 3 5 4 0) op.guard (twoWords t) t ∧ t.inl = none ∧ Addressed t op.base (op.ea t) op.size ∧
    placeOf (twoWords t) (hereTile (twoWords t)) (op.ea t).toNat = .global ∧
    inL1 (twoWords t) t ((op.ea t).toNat / 4 * 4) (word 5 .clean) ∧
    inL1 (twoWords t) t ((op.ea t).toNat / 4 * 4 + 4) (word 6 .clean) ∧
    ownOut (twoWords t) t 2 (op.ea t).toNat op.size = false :=
  ⟨_, aTask [0, 2 ^ 36], rfl, rfl, executes_of (by decide), rfl, addressed_of (by decide), by decide, ⟨by decide, by decide⟩,
    ⟨by decide, by decide⟩, by decide⟩

/-- R205: once a core has read a word at its home, its older copy is gone, and the other word's copy stays. -/
theorem test_strong_load_ends_older_copy :
    l1Get (seenWords (twoWords (aTask [])) 0 0 [2 ^ 36]) 0 (2 ^ 36) = none ∧
    (l1Get (seenWords (twoWords (aTask [])) 0 0 [2 ^ 36]) 0 (2 ^ 36 + 4)).isSome = true := by decide

/-- A task whose instruction has had a reply. -/
def answered (t : Task) (w : Want) (r : Reply) : Task := { t with pend := { want := none, req := 0, log := [(w, r)], word := none } }

theorem test_witness_LoadsAnswered : ∃ op t r, loadOp (.ld 0 0 1 3 5 4 0) = some op ∧
    Executes (.ld 0 0 1 3 5 4 0) op.guard (ground 0 t) t ∧ t.inl = none ∧ Addressed t op.base (op.ea t) op.size ∧ t.pubs = [] ∧
    placeOf (ground 0 t) (hereTile (ground 0 t)) (op.ea t).toNat = .global ∧ op.kind ≠ 0 ∧
    ownSettled (ground 0 t) t (op.ea t).toNat op.size = true ∧ t.pend.log.lookup (.strongLoad (op.ea t).toNat op.size) = some r ∧
    ownOut (ground 0 t) t 2 (op.ea t).toNat op.size = false :=
  ⟨_, answered (aTask [0, 2 ^ 36]) (.strongLoad (2 ^ 36) 8) (Reply.value 9), _, rfl, executes_of (by decide), rfl,
    addressed_of (by decide), rfl, by decide, by decide, by decide, rfl, by decide⟩

theorem test_witness_LoadsAnswered_placed : ∃ op t r, loadOp (.ld 0 0 0 3 5 4 0) = some op ∧
    Executes (.ld 0 0 0 3 5 4 0) op.guard (ground 0 t) t ∧ t.inl = none ∧ Addressed t op.base (op.ea t) op.size ∧
    (∃ v k off, placeOf (ground 0 t) (hereTile (ground 0 t)) (op.ea t).toNat = .placed v k off ∧ k ≠ hereTile (ground 0 t)) ∧
    t.pend.log.lookup (.placedLoad (op.ea t).toNat op.size 0) = some r ∧
    ownOut (ground 0 t) t 2 (op.ea t).toNat op.size = false :=
  ⟨_, answered (aTask [0, 0x40100008]) (.placedLoad 0x40100008 8 0) (Reply.trap causeProt 0), _, rfl,
    executes_of (by decide), rfl, addressed_of (by decide), ⟨false, 1, 8, by decide, by decide⟩, rfl, by decide⟩

/-- A line as a fill brings it. -/
def aLine : Reply := { cause := 0, val := 0, data := [1, 2, 3, 4, 5, 6, 7, 8] }
theorem test_witness_LoadsFilled : ∃ op t r, loadOp (.ld 1 0 0 2 5 4 0) = some op ∧ op.kind = 0 ∧ op.size ≤ 4 ∧
    Executes (.ld 1 0 0 2 5 4 0) op.guard (ground 0 t) t ∧ t.inl = none ∧ Addressed t op.base (op.ea t) op.size ∧
    placeOf (ground 0 t) (hereTile (ground 0 t)) (op.ea t).toNat = .global ∧
    tget (coreAt (ground 0 t) (hereCore (ground 0 t))).l1 ((op.ea t).toNat / 4 * 4) = none ∧
    t.pend.log.lookup (.fill ((op.ea t).toNat / 32 * 32) false) = some r ∧
    ownOut (ground 0 t) t 2 (op.ea t).toNat op.size = false :=
  ⟨_, answered (aTask [0, 2 ^ 36]) (.fill (2 ^ 36) false) aLine, aLine, rfl,
    rfl, by decide, executes_of (by decide), rfl, addressed_of (by decide), by decide, by decide, by decide, by decide⟩

theorem test_witness_StrongLoadsAsk : ∃ op t, loadOp (.ld 0 2 2 3 5 4 0) = some op ∧ op.kind ≠ 0 ∧
    Executes (.ld 0 2 2 3 5 4 0) op.guard (ground 0 t) t ∧ t.inl = none ∧ Addressed t op.base (op.ea t) op.size ∧ t.pubs = [] ∧
    placeOf (ground 0 t) (hereTile (ground 0 t)) (op.ea t).toNat = .global ∧ ownSettled (ground 0 t) t (op.ea t).toNat op.size = true ∧
    t.pend = .idle ∧
    ownOut (ground 0 t) t 2 (op.ea t).toNat op.size = false :=
  ⟨_, aTask [0, 2 ^ 36], rfl, by decide, executes_of (by decide), rfl, addressed_of (by decide), rfl, by decide, by decide, rfl, by decide⟩

/-- A table none of whose words is on its way home. -/
theorem noneLeaving_of {w : Nat} {x : L1Word} : ∀ {l : Table L1Word}, l.all (fun y => decide (y.2.own ≠ .leaving)) = true →
    tget l w = some x → x.own ≠ .leaving
  | [], _, h => by simp [tget] at h
  | (j, v) :: r, hl, h => by
    simp only [List.all_cons, Bool.and_eq_true, decide_eq_true_eq] at hl
    simp only [tget] at h
    split at h
    · cases h; exact hl.1
    · exact noneLeaving_of hl.2 h

theorem quiet_of {s : State} {t : Task}
    (h : t.outs = [] ∧ cmdsPending s t.uid = false ∧ t.refused = none ∧ t.lost = []) : Quiet s t := ⟨h.1, h.2.1, h.2.2.1, h.2.2.2⟩

theorem test_witness_StoresOnTheTile : ∃ op t, storeOp (.st 0 0 3 3 5 4 0) = some op ∧
    Executes (.st 0 0 3 3 5 4 0) op.guard (ground 0 t) t ∧ Addressed t op.base (op.ea t) op.size ∧
    OnTile (ground 0 t) t (op.ea t) false 0xFFF8 ∧ (ground 0 t).stored ∧ Quiet (ground 0 t) t ∧
    ownOut (ground 0 t) t 2 (op.ea t).toNat op.size = false :=
  ⟨_, aTask [7, 0xFFF8], rfl, executes_of (by decide), addressed_of (by decide), onTile_of (by decide), by
    show Memory.wf _ = true; decide, quiet_of (by decide), by decide⟩

theorem test_witness_StoresInL1 : ∃ op t, storeOp (.st 0 0 0 2 5 4 0) = some op ∧ op.kind = 0 ∧
    Executes (.st 0 0 0 2 5 4 0) op.guard (twoWords t) t ∧ t.inl = none ∧ Addressed t op.base (op.ea t) op.size ∧
    placeOf (twoWords t) (hereTile (twoWords t)) (op.ea t).toNat = .global ∧ mayStore (twoWords t) t (op.ea t).toNat op.size ∧
    ownOut (twoWords t) t 2 (op.ea t).toNat op.size = false :=
  ⟨_, aTask [7, 2 ^ 36], rfl, rfl, executes_of (by decide), rfl, addressed_of (by decide), by decide, ⟨by decide,
      fun h => absurd h (by decide),
    Or.inl (by decide), fun w x _ _ h => noneLeaving_of (by decide) h, fun _ _ _ => rfl⟩, by decide⟩

theorem test_witness_StoresAnswered : ∃ op t r, storeOp (.st 0 0 1 2 5 4 0) = some op ∧ op.kind ≠ 0 ∧
    Executes (.st 0 0 1 2 5 4 0) op.guard (ground 0 t) t ∧ t.inl = none ∧ Addressed t op.base (op.ea t) op.size ∧
    t.pubs = [] ∧ placeOf (ground 0 t) (hereTile (ground 0 t)) (op.ea t).toNat = .global ∧
    ownSettled (ground 0 t) t (op.ea t).toNat op.size = true ∧
    t.pend.log.lookup (.strongStore (op.ea t).toNat op.size (gGet t op.src)) = some r ∧
    ownOut (ground 0 t) t 2 (op.ea t).toNat op.size = false :=
  ⟨_, answered (aTask [7, 2 ^ 36]) (.strongStore (2 ^ 36) 4 7) Reply.ok, Reply.ok, rfl, by decide, executes_of (by decide), rfl,
    addressed_of (by decide), rfl, by decide, by decide, by decide, by decide⟩

/-- The ground, with bank 0 of tile 1 granted to context 0 as well. -/
def twoTiles (t : Task) : State :=
  modTile (ground 0 t) 1 (fun x => { x with
    fenced := false, grants := x.grants.set 0 { Grant.reset with dw0 := 1#64 <<< 63, dw1 := 1#64 <<< 48 } })
theorem test_witness_StoresSent : ∃ op t, storeOp (.st 0 0 0 2 5 4 0) = some op ∧ op.kind = 0 ∧
    Executes (.st 0 0 0 2 5 4 0) op.guard (twoTiles t) t ∧ t.inl = none ∧ Addressed t op.base (op.ea t) op.size ∧
    placeOf (twoTiles t) (hereTile (twoTiles t)) (op.ea t).toNat = .placed false 1 8 ∧ (1 : Nat) ≠ hereTile (twoTiles t) ∧
    placedCause (twoTiles t) t.ctx false 1 8 = none ∧ t.outs = [] ∧
    ownOut (twoTiles t) t 2 (op.ea t).toNat op.size = false :=
  ⟨_, aTask [7, 0x40100008], rfl, rfl, executes_of (by decide), rfl, addressed_of (by decide), by decide, by decide, by decide,
    rfl, by decide⟩

theorem test_witness_AddressTraps : ∃ t : Task, t.inl = none ∧ Executes (.ld 0 0 0 2 2 4 0) 0 (ground 0 t) t ∧
    (gGet t 2).toNat < t.slim.toNat ∧ Executes (.ld 0 0 0 2 5 4 0) 0 (ground 0 t) t ∧ (gGet t 5).toNat % 4 ≠ 0 ∧
    Executes (.st 0 0 0 2 6 4 0) 0 (ground 0 t) t ∧ (gGet t 6).toNat % 4 = 0 ∧
    placeOf (ground 0 t) (hereTile (ground 0 t)) (gGet t 6).toNat = .hole :=
  ⟨gSet (aTask [0, 2, 0x100000]) 2 0x100, rfl, executes_of (by decide), by decide, executes_of (by decide), by decide,
    executes_of (by decide), by decide, by decide⟩

theorem test_witness_AtomicsAnswered : ∃ op t dst r, atomicOp (.cas 1 6 5 4 0) = some op ∧ op.posted = false ∧
    Executes (.cas 1 6 5 4 0) op.guard (ground 0 t) t ∧ Addressed t op.base (gGet t op.base) op.size ∧
    performer (ground 0 t) (gGet t op.base).toNat = some dst ∧ performsItself (ground 0 t) t (gGet t op.base).toNat = false ∧
    t.pubs = [] ∧ ownSettled (ground 0 t) t (gGet t op.base).toNat op.size = true ∧
    t.pend.log.lookup (.atomic (gGet t op.base).toNat op.size op.op (gGet t op.operand) (op.expects t)) = some r ∧
    ownOut (ground 0 t) t 1 (gGet t op.base).toNat op.size = false ∧
    ownOut (ground 0 t) t 2 (gGet t op.base).toNat op.size = false :=
  ⟨_, answered (aTask [3, 0x100, 7]) (.atomic 0x100 8 16 7 3) (Reply.value 3), 2, Reply.value 3, rfl, rfl, executes_of (by decide),
    addressed_of (by decide), by decide, by decide, rfl, by decide, by decide, by decide, by decide⟩

theorem test_witness_PostedAtomics : ∃ op t dst, atomicOp (.amoAdd 1 0 6 5 0 0) = some op ∧ op.posted = true ∧
    Executes (.amoAdd 1 0 6 5 0 0) op.guard (ground 0 t) t ∧ Addressed t op.base (gGet t op.base) op.size ∧
    performer (ground 0 t) (gGet t op.base).toNat = some dst ∧ performsItself (ground 0 t) t (gGet t op.base).toNat = false ∧
    (t.outs.filter (fun o => o.kind == 2)).length < 16 ∧ t.pend.log.lookup (.credit dst 5) = some Reply.ok ∧ t.pubs = [] ∧
    ownSettled (ground 0 t) t (gGet t op.base).toNat op.size = true ∧
    ownOut (ground 0 t) t 1 (gGet t op.base).toNat op.size = false ∧
    (t.outs.all (fun o => o.id != (ground 0 t).nextId)) = true :=
  ⟨_, answered (aTask [0, 0x100, 7]) (.credit 2 5) Reply.ok, 2, rfl, rfl, executes_of (by decide), addressed_of (by decide),
    by decide, by decide, by decide, by decide, rfl, by decide, by decide, by decide⟩

theorem test_witness_AtomicResults : State.reset.stored ∧
    atomicResult 7 32 5 (~~~0) = ~~~0 ∧ atomicResult 4 32 5 (~~~0) = ~~~0 ∧ atomicResult 5 64 5 (~~~0) = 5 := by
  refine ⟨?_, ?_, ?_, ?_⟩
  · show Memory.wf _ = true; decide
  all_goals decide

/-- The word at LM offset 0x100 is full. -/
def fullGround (n : Nat) (t : Task) : State := { ground n t with full := [0x100] }
theorem test_witness_LoadsOfFullWords : ∃ t, Executes (.ldfE 0 0 0 5 4 0) 0 (fullGround 5 t) t ∧ t.inl = none ∧
    Addressed t 5 0x100 4 ∧ OnTile (fullGround 5 t) t 0x100 false 0x100 ∧ t.pubs = [] ∧ asked t (.ldf 0x100 4 true) = false ∧
    (∀ n, n < 4 → fullGet (fullGround 5 t) ((keyOf (fullGround 5 t) false 0x100 + n) / 4 * 4) = true) ∧
    (tileAt (fullGround 5 t) 0).ldfs = [] ∧ ownSettled (fullGround 5 t) t 0x100 4 = true ∧
    ownOut (fullGround 5 t) t 1 0x100 4 = false ∧ ownOut (fullGround 5 t) t 2 0x100 4 = false ∧
    spoiltAt (fullGround 5 t) (keyOf (fullGround 5 t) false 0x100) 4 = false :=
  ⟨aTask [0, 0x100], executes_of (by decide), rfl, addressed_of (by decide), onTile_of (by decide), rfl, by decide, by decide,
    by decide, by decide, by decide, by decide, by decide⟩

theorem test_witness_FullBitOperations : ∃ t, OnTile (ground 0 t) t (gGet t 5) false 0x100 ∧ (gGet t 5).toNat % 4 = 0 ∧
    Executes (.setf 5 0) 0 (ground 0 t) t ∧ Quiet (ground 0 t) t ∧ Executes (.sete 5 0) 0 (ground 0 t) t ∧ t.pubs = [] ∧
    Executes (.testf 5 4 0) 0 (ground 0 t) t :=
  ⟨aTask [0, 0x100], onTile_of (by decide), by decide, executes_of (by decide), quiet_of (by decide), executes_of (by decide),
    rfl, executes_of (by decide)⟩

theorem test_witness_FullBitTraps : ∃ t, Executes (.setf 5 0) 0 (ground 0 t) t ∧ (gGet t 5).toNat % 4 ≠ 0 ∧
    Executes (.sete 6 0) 0 (ground 0 t) t ∧ placeOf (ground 0 t) 0 (gGet t 6).toNat = .global ∧
    Executes (.testf 7 4 0) 0 (ground 0 t) t ∧ placeOf (ground 0 t) 0 (gGet t 7).toNat = .hole :=
  ⟨aTask [0, 0x101, 2 ^ 48 - 4, 0x100000], executes_of (by decide), by decide, executes_of (by decide), by decide,
    executes_of (by decide), by decide⟩

theorem test_witness_Fences : ∃ t, Executes (.fenceA 2 0) 0 (ground 0 t) t ∧ Executes (.fenceL 0 0) 0 (ground 0 t) t ∧
    Quiet (ground 0 t) t ∧ Executes (.fenceAl 3 0) 0 (ground 0 t) t ∧ Executes (.invr 6 5 0) 0 (ground 0 t) t ∧
    (gGet t 6).toNat ≤ 2 ^ 20 ∧ (gGet t 5).toNat + (gGet t 6).toNat ≤ 2 ^ 48 ∧ Executes (.pubr 6 5 0) 0 (ground 0 t) t ∧
    t.pubs.length < 4 ∧ Executes (.isync 0) 0 (ground 0 t) t ∧ (coreAt (ground 0 t) 0).ring = [] :=
  ⟨aTask [0, 2 ^ 48 - 2 ^ 20, 2 ^ 20], executes_of (by decide), executes_of (by decide), quiet_of (by decide),
    executes_of (by decide), executes_of (by decide), by decide, by decide, executes_of (by decide), by decide,
    executes_of (by decide), by decide⟩

theorem test_witness_PrefetchAndClb : ∃ t, Executes (.pref 5 0) 0 (ground 0 t) t ∧
    placeOf (ground 0 t) (hereTile (ground 0 t)) (gGet t 5).toNat ≠ .global ∧ Executes (.clbinv 5 0) 0 (ground 0 t) t :=
  ⟨aTask [0, 0x100], executes_of (by decide), by decide, executes_of (by decide)⟩
/-! Floating members, and cells -/

theorem test_witness_FloatRounding : ∃ op t, roundOp (.fma 7 6 5 4 0) = some op ∧
    Executes (.fma 7 6 5 4 0) op.guard (ground 0 t) t ∧ Executes (.fcvt 0 4 1 5 4 0) 0 (ground 0 t) t ∧
    Executes (.fcvt 7 3 0 5 4 0) 0 (ground 0 t) t ∧ Executes (.frnd 3 15 5 4 0) 0 (ground 0 t) t :=
  ⟨_, aTask [1, 2, 3], rfl, executes_of (by decide), executes_of (by decide), executes_of (by decide), executes_of (by decide)⟩

theorem test_witness_FloatMovesAndCompares : ∃ op c t, bitsOp (.fneg 5 4 0) = some op ∧
    Executes (.fneg 5 4 0) op.guard (ground 0 t) t ∧ Executes (.fmvg 5 4 0) 0 (ground 0 t) t ∧
    Executes (.fclass 5 4 0) 0 (ground 0 t) t ∧ fcmpOp (.fcmpLt 6 5 2 1 0) = some c ∧
    Executes (.fcmpLt 6 5 2 1 0) c.guard (ground 0 t) t :=
  ⟨_, _, aTask [], rfl, executes_of (by decide), executes_of (by decide), executes_of (by decide), rfl, executes_of (by decide)⟩

/-- A volume of rank 2 with extents 9 and 4, tiles of 4 by 2 cells, cells of 32 bytes. -/
def aVolume : Volume :=
  { ctx := 0, handle := 2 ^ 36, rank := 2, clog2 := 5, strict := false, oobbg := false, levels := 1, root := 2 ^ 37,
    ext := [9, 4], ts := [2, 1], bg := 0x11, pool := 0, plog2 := 0, hot := 0 }
/-- Its CLB: tile 6 lies in a block. -/
def withClb (s : State) (v : Volume) : State :=
  modCore s (hereCore s) (fun c => { c with
    vols := [v], clb := [{ ctx := 0, handle := 2 ^ 36, tile := 6, block := 2 ^ 38 }],
    l1 := [(2 ^ 38 + 64, word 5 .clean)], grants := [(2 ^ 38 + 64, 0)] })
/-- The cell (8, 2) has tile number 2 + 1 * 4 = 6 and stands first in its tile; g4 to g6 hold a value, the handle and it. -/
def cellTask : Task := aTask [0, 2 ^ 36, 2 * 2 ^ 32 + 9 - 1]

theorem test_witness_CellsLocated : inside cellTask aVolume 6 ∧ fieldOf aVolume 0 2 ∧ fieldOf aVolume 1 1 ∧
    locate aVolume (coordsOf cellTask 6) = some (6, 0) ∧ locate aVolume (coordsOf (aTask [0, 0, 9]) 6) = none ∧
    ¬inside (aTask [0, 0, 9]) aVolume 6 := by
  refine ⟨?_, ⟨by decide, ?_⟩, ⟨by decide, ?_⟩, by decide, by decide, ?_⟩
  · intro n h
    match n, h with
    | 0, _ => decide
    | 1, _ => decide
  · intro m h
    match m, h with
    | 0, _ => decide
    | 1, _ => decide
  · intro m h
    match m, h with
    | 0, _ => decide
  · intro h
    exact absurd (h 0 (by decide)) (by decide)

theorem test_witness_CellAccesses : ∃ op t s, s = withClb (ground 0 t) aVolume ∧ cellOp (.ldc 1 2 6 5 4 0) = some op ∧
    Executes (.ldc 1 2 6 5 4 0) op.guard s t ∧ Executes (.stc 0 2 6 5 4 0) 0 s t ∧ clbVolume s t (gGet t op.a) aVolume ∧
    coordinates t aVolume op.b ∧ op.e + op.size ≤ 2 ^ aVolume.clog2 ∧ locate aVolume (coordsOf t op.b) = some (6, 0) ∧
    clbBlock s t (gGet t op.a) 6 (2 ^ 38) ∧
    ownOut s t 2 (2 ^ 38 + op.e) op.size = false :=
  ⟨_, cellTask, _, rfl, rfl, executes_of (by decide), executes_of (by decide), by unfold clbVolume ownVolume; decide, Or.inl (by decide),
    by decide, by decide, ⟨{ ctx := 0, handle := 2 ^ 36, tile := 6, block := 2 ^ 38 }, by decide, rfl⟩, by decide⟩

theorem test_witness_CellBounds : ∃ t s, s = withClb (ground 0 t) { aVolume with strict := true } ∧
    Executes (.ldc 4 3 6 5 4 0) 0 s t ∧ Executes (.ldc 3 3 6 5 4 0) 0 s t ∧
    clbVolume s t (gGet t 5) { aVolume with strict := true } ∧ coordinates t aVolume 6 ∧ 2 ^ aVolume.clog2 < 4 * 8 + 8 ∧
    3 * 8 + 8 ≤ 2 ^ aVolume.clog2 ∧ locate aVolume (coordsOf t 6) = none :=
  ⟨aTask [0, 2 ^ 36, 9], _, rfl, executes_of (by decide), executes_of (by decide), by unfold clbVolume ownVolume; decide,
    Or.inl (by decide), by decide, by decide, by decide⟩
/-! Messages, records and tasks -/

theorem test_witness_MessagesSent : ∃ op t, sendOp (.send 40 0 0 6 5 0) = some op ∧
    Executes (.send 40 0 0 6 5 0) op.guard (ground 0 t) t ∧ op.clean t = true ∧
    headerOk (ground 0 t) (hereTile (ground 0 t)) t (tagged t (op.header t)) (op.payload t) = true ∧
    ordered (ground 0 t) t ((tagged t (op.header t)).getLsbD 24) ∧
    MaySend (ground 0 t) t (destOf (ground 0 t) (hereTile (ground 0 t)) (tagged t (op.header t)) (op.payload t))
      (hdrClass (tagged t (op.header t))) (hdrCtx (tagged t (op.header t))) :=
  ⟨_, aTask [0, 1, 7], rfl, executes_of (by decide), by decide, by decide, by unfold ordered; rw [if_neg (by decide)]; rfl,
    ⟨fun _ _ => by decide, Or.inr (by decide)⟩⟩

/-- A task at U. -/
def userTask (args : List Dword) : Task := { aTask args with priv := 0 }
theorem test_witness_MessagesRefused : ∃ op t, sendOp (.sendx 0 6 5 0) = some op ∧
    Executes (.sendx 0 6 5 0) 0 (ground 0 t) t ∧ t.priv = 0 ∧ (tagged t (op.header t)).extractLsb' 35 11 ≠ t.ctx :=
  ⟨_, userTask [0, 2 ^ 35, 7], rfl, executes_of (by decide), rfl, by decide⟩

theorem test_witness_RecordOperations : ∃ t, Executes (.dec 5 0) 0 (ground 0 t) t ∧ Executes (.decL 6 0) 0 (ground 0 t) t ∧
    nameOk (gGet t 5) = true ∧ MaySend (ground 0 t) t (nameCore (gGet t 5)) 3 t.ctx ∧
    pkgPresent (ground 0 t) (tilePkg (nameTile (gGet t 5))) = true ∧ groupFailed (ground 0 t) (nameTile (gGet t 5)) = false ∧
    cmdsPending (ground 0 t) t.uid = false ∧ (ground 0 t).stored ∧
    gGet t 6 ≠ 0 ∧ nameOk (gGet t 6) = false ∧ gGet t 0 = 0 ∧ Quiet (ground 0 t) t ∧
    Executes (.trec 8 5 4 0) 0 (ground 0 t) t ∧ recordAt (ground 0 t) t (gGet t 5) ∧
    imageOk (hereTile (ground 0 t)) (gGet t 8) = true ∧ wordAt (ground 0 t) ((gGet t 5).toNat + 4) = 0 ∧
    (gGet t 7).toNat < 2 ^ 32 ∧ Executes (.tarm 7 5 0) 0 (ground 0 t) t :=
  ⟨aTask [0, 0x400, 1, 2 ^ 32 - 1, 0x4000], executes_of (by decide), executes_of (by decide), by decide,
    ⟨fun _ _ => by decide, Or.inr (by decide)⟩, by decide, by decide, by decide, by show Memory.wf _ = true; decide, by decide,
    by decide, by decide, quiet_of (by decide), executes_of (by decide), by unfold recordAt; decide, by decide, by decide,
        by decide, executes_of (by decide)⟩

/-- The routine table of context 0's grant on tile 0 lies at 0x8000; the entry of class 40 is given. -/
def withRoutine (s : State) (e : Dword) : State :=
  lmPut (modTile s 0 (fun x => { x with grants := x.grants.set 0 { Grant.reset with
    dw0 := 1#64 <<< 63
    dw1 := (1#64 <<< 48) ||| 0x800000 } }))
    0 (0x8000 + 8 * (40 - 31)) 8 e.toNat

/-- A task of 16 g registers with its stack, at 0x9000 and free down to 0x8800. -/
theorem test_witness_Spawns : ∃ t s e, s = withRoutine (ground 4 t) 0x8000000000000400 ∧
    Executes (.spawn 5 10 4 0) 0 s t ∧ (gGet t 5).toNat = 40 ∧ gGet t 10 = 0x800000 ∧
    routineEntry s (hereTile s) t.ctx 40 = some e ∧ cancelled s (hereTile s) t.ctx t.launch t.tag = false ∧
    slotsOf (hereCore s) = 4 ∧ 8 * (e.toNat / 2 ^ 59 % 4 + 1) ≤ t.gcount ∧ 8 * (e.toNat / 2 ^ 57 % 4 + 1) ≤ t.fcount ∧
    t.fbDest.length < 15 ∧ t.inl = none ∧ 32 ≤ (gGet t 2).toNat ∧ t.slim.toNat ≤ (gGet t 2).toNat - 32 ∧
    (gGet t 2).toNat % 8 = 0 ∧ (gGet t 2).toNat ≤ 2 ^ 20 ∧ bankHeld s (hereTile s) t.ctx ((gGet t 2).toNat - 32) = true ∧
    ((gGet t 2).toNat - 1) / 2 ^ 16 = ((gGet t 2).toNat - 32) / 2 ^ 16 ∧ (tileAt s (hereTile s)).fenced = false ∧ s.stored ∧
    (∀ k, k < 4 → ownOut s t 2 ((gGet t 2).toNat - 32 + 8 * k) 8 = false) :=
  ⟨gSet (aTask [0, 40]) 10 0x800000, _, 0x8000000000000400, rfl, executes_of (by decide), by decide, by decide, by decide,
    by decide, by decide, by decide, by decide, by decide, rfl, by decide, by decide, by decide, by decide, by decide,
    by decide, by decide, by show Memory.wf _ = true; decide, fun _ _ => rfl⟩

theorem test_witness_Spawns_queued : ∃ t s, s = withRoutine (ground 0 t) 0x8000000000000400 ∧
    Executes (.spawn 5 10 4 0) 0 s t ∧ (routineEntry s (hereTile s) t.ctx (gGet t 5).toNat).isSome = true ∧
    cancelled s (hereTile s) t.ctx t.launch t.tag = false ∧ slotsOf (hereCore s) ≠ 4 ∧ spawnQueued s (hereCore s) < 64 ∧
    queuedOn s (hereTile s) t.ctx < 65535 :=
  ⟨gSet (aTask [0, 40]) 10 0x800000, _, rfl, executes_of (by decide), by decide, by decide, by decide, by decide, by decide⟩

theorem test_witness_Spawns_elsewhere : ∃ t r, Executes (.spawn 5 10 4 0) 0 (ground 0 t) t ∧ (gGet t 10).toNat < 2 ^ 23 ∧
    (gGet t 10).toNat % 8 ≤ 3 ∧ pkgPresent (ground 0 t) ((gGet t 10).toNat / 2 ^ 13) = true ∧
    coreOfFabric (gGet t 10).toNat ≠ hereCore (ground 0 t) ∧ 32 ≤ (gGet t 5).toNat ∧ (gGet t 5).toNat ≤ 255 ∧
    groupFailed (ground 0 t) (coreTile (coreOfFabric (gGet t 10).toNat)) = false ∧
    t.pend.log.lookup (.spawn (coreOfFabric (gGet t 10).toNat) (gGet t 5).toNat) = some r ∧ r.val = 3 :=
  ⟨gSet (answered (aTask [0, 40]) (.spawn 1 40) (Reply.value 3)) 10 1, Reply.value 3, executes_of (by decide), by decide,
    by decide, by decide, by decide, by decide, by decide, by decide, by decide, rfl⟩

theorem test_witness_TasksEnd : ∃ t v, Executes (.tend 0) 0 (ground 0 t) t ∧ Executes .cTend always (ground 0 t) t ∧
    t.inl = none ∧ t.fbDest = [] ∧ t.refused = none ∧ t.lost = [] ∧ t.outs = [] ∧ Executes (.tend 0) 0 (ground 0 v) v ∧
    v.fbDest = [4] ∧ v.fbFrame.toNat = 2 ^ 16 - 32 ∧ bankHeld (ground 0 v) 0 v.ctx (2 ^ 16 - 32 + 31) = true ∧
    (tileAt (ground 0 v) 0).fenced = false ∧ spoiltAt (ground 0 v) (lmKey 0 (2 ^ 16 - 32)) 32 = false ∧
    (∀ k, k < 4 → ownOut (ground 0 v) v 2 (2 ^ 16 - 32 + 8 * k) 8 = false) :=
  ⟨aTask [], { (aTask []) with fbDest := [4], fbFrame := 2 ^ 16 - 32 }, executes_of (by decide), executes_of (by decide), rfl,
    rfl, rfl, rfl, rfl, executes_of (by decide), rfl, by decide, by decide, by decide, by decide, fun _ _ => rfl⟩

/-- Banks, semaphores, lines and ways granted to context 0, and the first GB of its global memory mapped. -/
def mapped (s : State) : State :=
  let s := modTile s 0 (fun x => { x with
    vway := 0xAAAAAAAA
    grants := x.grants.set 0 { Grant.reset with dw0 := (1#64 <<< 63) ||| 0xFFFFFFFF, dw1 := 0xFFFF#64 <<< 48, dw2 := 0xFFFF } })
  let s := { s with ctxs := tput s.ctxs 0 { part := 0, priv := 3, root := 0x1000, tvec := 0, dead := false } }
  storePut (storePut s (ddrKey 0 0x1000) 8 0x2001) (ddrKey 0 (0x2000 + 8 * 64)) 8 (0x40000000 + 29)

theorem test_witness_TaskQueries : ∃ t s r, s = mapped (ground 0 t) ∧ Executes (.elect 4 5 0) 0 s t ∧
    t.pend.log.lookup (.elect (gGet t 4)) = some r ∧ Executes (.tinfo 4 5 0) 0 s t ∧ Executes (.phstat 4 5 0) 0 s t ∧
    (gGet t 4).toNat = 15 ∧ granted s (hereTile s) t.ctx grantLines (gGet t 4).toNat = true ∧
    Executes (.phstat 5 4 0) 0 s t ∧ (gGet t 5).toNat = 16 :=
  ⟨answered (aTask [15, 16]) (.elect 15) (Reply.value 1), _, Reply.value 1, rfl, executes_of (by decide), by decide,
    executes_of (by decide), executes_of (by decide), by decide, by decide, executes_of (by decide), by decide⟩

/-- A phase header at the start of global memory: one entry of tile 0, core 6, 5 tasks, in slot 3, without a successor. -/
def withHeader (s : State) : State :=
  storePut (storePut s (ddrKey 0 0x40000000) 8 0x10300) (ddrKey 0 0x40000008) 8 (5 * 2 ^ 32 + 6 * 2 ^ 20)
theorem test_witness_PhasesDeclared : ∃ t s, s = withHeader (mapped (ground 0 t)) ∧ Executes (.phdecl 5 0) 0 s t ∧
    (gGet t 5).toNat % 8 = 0 ∧ isGlobal (gGet t 5).toNat = true ∧ (readSelf t (gGet t 5).toNat s).toOption.map (·.1) = some 0x10300 ∧
    (readSelf t ((gGet t 5).toNat + 8) s).toOption.map (·.1) = some 0x500600000 ∧
    granted s (tileKey 0 0) t.ctx grantLines 3 = true ∧
    t.pend.log.lookup (.broadcast 5) = none ∧ ∃ v, Executes (.phdecl 5 0) 0 (withHeader (mapped (ground 0 v))) v ∧
      v.pend.log.lookup (.broadcast 5) = some Reply.ok ∧ (withHeader (mapped (ground 0 v))).net = [] :=
  ⟨aTask [0, 2 ^ 36], _, rfl, executes_of (by decide), by decide, by decide, by decide, by decide, by decide,
    by decide, answered (aTask [0, 2 ^ 36]) (.broadcast 5) Reply.ok, executes_of (by decide), by decide, rfl⟩

theorem test_witness_Cancels : ∃ t v, cancelOp (.cancelPhase 5 0) = some (2, 5, 0) ∧
    Executes (.cancelPhase 5 0) 0 (mapped (ground 0 t)) t ∧ cancelOk (mapped (ground 0 t)) t 2 5 ∧
    t.pend.log.lookup (.broadcast 2) = none ∧ Executes (.cancelGraph 5 0) 0 (mapped (ground 0 v)) v ∧
    v.pend.log.lookup (.broadcast 2) = some Reply.ok ∧ cancelOk (mapped (ground 0 v)) v 1 5 ∧
    ¬cancelOk (mapped (ground 0 t)) t 1 0 :=
  ⟨aTask [0, 15], answered (aTask [0, 2 ^ 16 - 1]) (.broadcast 2) Reply.ok, rfl, executes_of (by decide),
    ⟨by decide, by decide⟩, by decide, executes_of (by decide), by decide, ⟨by decide, by decide⟩,
    fun h => absurd h.1 (by decide)⟩
/-! Engine commands, streams, traps and control registers -/

/-- A task whose tm0 to tm2 hold maps. -/
def withMaps (t : Task) (a b d : BitVec 256) : Task := { t with tms := [(0, a), (1, b), (2, d)] }

theorem test_witness_CommandsIssued : ∃ op t s, s = mapped (ground 4 t) ∧ cmdOp (.copy 7 0 2 0) = some op ∧
    Executes (.copy 7 0 2 0) op.guard s t ∧ held t op.d 0 ∧ held t op.a 0 ∧ held t op.b 0 ∧ op.ok s t 0 0 0 = true ∧
    granted s (hereTile s) t.ctx grantSems (8 + op.signal.toNat) = true ∧ roomInRing s :=
  ⟨_, withMaps (aTask []) 0 0 0, _, rfl, rfl, executes_of (by decide), by unfold held; decide, by unfold held; decide, rfl,
    by decide, by decide, by
      intro e h
      rw [show (coreAt _ _).ring = [] by decide] at h
      exact absurd h (by simp)⟩

theorem test_witness_CommandsRefused : ∃ op t s, s = mapped (ground 4 t) ∧ cmdOp (.gath 0 1 0 3 0) = some op ∧
    Executes (.gath 0 1 0 3 0) op.guard s t ∧ op.d = some 3 ∧ tget t.tms 3 = none ∧
    Executes (.gath 0 1 0 2 0) 0 s t ∧ tget t.tms 1 = some 0 ∧ index 0 = false ∧
    Executes (.copy 1 0 2 0) 0 (ground 4 t) t ∧ granted (ground 4 t) 0 t.ctx grantSems 9 = false :=
  ⟨_, withMaps (aTask []) 0 0 0, _, rfl, rfl, executes_of (by decide), rfl, by decide, executes_of (by decide), by decide,
    by decide, executes_of (by decide), by decide⟩

theorem test_witness_DrayCommands : ∃ t s, s = storePut (mapped (ground 4 t)) 0 1 0 ∧ (coreAt s (hereCore s)).ring = [] ∧
    Executes (.stash 6 5 0) 0 s t ∧ (gGet t 5).toNat < 2 ^ 20 ∧ (gGet t 5).toNat % 32 = 0 ∧ (gGet t 6).toNat % 32 = 0 ∧
    32 ≤ (gGet t 6).toNat % 2 ^ 32 ∧ (drayOf s (hereTile s) t.ctx).stashl = 0 ∧ Executes (.unstash 5 4 0) 0 s t ∧
    (drayOf s (hereTile s) t.ctx).tags = [] ∧ Executes (.flq 5 7 0) 0 s t ∧ (gGet t 7).toNat < 64 :=
  ⟨aTask [0, 0x200, 2 ^ 32 + 64, 63], _, rfl, by decide, executes_of (by decide), by decide, by decide, by decide, by decide,
    by decide, executes_of (by decide), by decide, executes_of (by decide), by decide⟩

theorem test_witness_StreamStarts : ∃ t s, s = mapped (ground 6 t) ∧ Executes (.vgo 5 0) 0 s t ∧ (gGet t 5).toNat < 2 ^ 20 ∧
    (gGet t 5).toNat % 4 = 0 ∧ (tileAt s (hereTile s)).stream = none ∧ (coreAt s (hereCore s)).ring = [] :=
  ⟨aTask [0, 2 ^ 20 - 4], _, rfl, executes_of (by decide), by decide, by decide, by decide, by decide⟩

theorem test_witness_QueueOperations : ∃ t s, s = mapped (ground 6 t) ∧ Executes (.qtest 7 5 0) 0 s t ∧
    Executes (.qclose 7 0) 0 s t ∧ Quiet s t ∧ Executes (.qbind 27 7 0) 0 s t ∧ Executes (.qbind 0 7 0) 0 s t :=
  ⟨aTask [], _, rfl, executes_of (by decide), executes_of (by decide), quiet_of (by decide), executes_of (by decide),
    executes_of (by decide)⟩

theorem test_witness_Semaphores : ∃ t s u, s = mapped (ground 5 t) ∧
    u = modTile s 0 (fun x => { x with sems := x.sems.set 15 0xFFFF }) ∧ granted s (hereTile s) t.ctx grantSems 15 = true ∧
    Executes (.semp 15 0) 0 s t ∧ semOf s 15 = 0 ∧ Executes (.semp 15 0) 0 u t ∧ semOf u 15 ≠ 0 ∧
    (tileAt u (hereTile u)).semWait = [] ∧ Executes (.semv 15 0) 0 u t ∧ Quiet u t ∧ (semOf u 15).toNat = 65535 :=
  ⟨aTask [], _, _, rfl, rfl, by decide, executes_of (by decide), by decide, executes_of (by decide), by decide, by decide,
    executes_of (by decide), quiet_of (by decide), by decide⟩

theorem test_witness_MapRegisters : ∃ t s, s = mapped (ground 4 t) ∧ Executes (.tmset 5 0 0) 0 s t ∧ t.inl = none ∧
    Addressed t 5 (gGet t 5) 32 ∧ OnTile s t (gGet t 5) false 0xFFE0 ∧ Executes (.tmget 5 0 0) 0 s t ∧
    tget t.tms 0 = some 0x100 ∧ Executes (.tmofs 6 0 0) 0 s t ∧ kind 0x100 1 = false ∧
    (8 * 0x101 : Int) = 8 * (field 0x100 0 48 : Int) + (gGet t 6).toInt * elemBits (mapOf 0x100).elem ∧
    malformedMap 0x101 = false ∧ Executes (.tmget 5 3 0) 0 s t ∧ tget t.tms 3 = none ∧
    (∀ k, k < 4 → ownOut s t 2 ((gGet t 5).toNat + 8 * k) 8 = false) ∧ spoiltAt s (keyOf s false 0xFFE0) 32 = false ∧
    s.stored :=
  ⟨withMaps (aTask [0, 0xFFE0, 1]) 0x100 0 0, _, rfl, executes_of (by decide), rfl, addressed_of (by decide), onTile_of (by decide),
    executes_of (by decide), by decide, executes_of (by decide), by decide, by decide, by decide, executes_of (by decide),
    by decide, fun _ _ => rfl, by decide, by show Memory.wf _ = true; decide⟩

/-- A task at a trap level. -/
def atLevel (n : BitVec 2) : Task := { aTask [3] with tlev := n, tepc1 := 0x200, tepc2 := 0x300 }
theorem test_witness_TrapsTaken : ∀ n ∈ [0#2, 1#2], hereTask (ground 0 (atLevel n)) = some (atLevel n) ∧ (atLevel n).inl = none := by
  intro n h
  simp only [List.mem_cons, List.not_mem_nil, or_false] at h
  rcases h with h | h <;> subst h <;> refine ⟨?_, ?_⟩ <;> decide
theorem test_witness_ThirdTrapKills : ∃ t, hereTask (ground 0 t) = some t ∧ t.inl = none ∧ 2 ≤ t.tlev.toNat ∧
    ctxLive (ground 0 t) t.ctx.toNat = true := ⟨atLevel 2, by decide, rfl, by decide, by decide⟩
theorem test_witness_TrapReturn : Executes (.tret 0) 0 (ground 0 (atLevel 0)) (atLevel 0) ∧
    Executes (.tret 0) 0 (ground 0 (atLevel 1)) (atLevel 1) ∧ Executes (.tret 0) 0 (ground 0 (atLevel 2)) (atLevel 2) :=
  ⟨executes_of (by decide), executes_of (by decide), executes_of (by decide)⟩
theorem test_witness_SystemInstructions : ∃ t u, Executes (.trap 4 0) 0 (ground 0 t) t ∧ (gGet t 4).toNat < 2 ^ 63 ∧
    Executes (.trap 5 0) 0 (ground 0 t) t ∧ 2 ^ 63 ≤ (gGet t 5).toNat ∧ t.priv ≠ 0 ∧ 8 < (gGet t 5).toNat % 2 ^ 63 ∧
    Executes (.trap 5 0) 0 (ground 0 u) u ∧ u.priv = 0 ∧
    Executes (.ctxkill 6 0) 0 (ground 0 t) t ∧ (gGet t 6).toNat < 2 ^ 11 ∧ inPartition (ground 0 t) t (gGet t 6).toNat = true ∧
    (ground 0 t).kills = [] ∧ ctxLive (ground 0 t) (gGet t 6).toNat = true :=
  ⟨aTask [0, 2 ^ 63 + 9, 0], userTask [0, 2 ^ 63 + 1], executes_of (by decide), by decide, executes_of (by decide), by decide,
    by decide, by decide, executes_of (by decide), rfl, executes_of (by decide), by decide, by decide, by decide, by decide⟩

theorem test_witness_Privilege : ∃ t, hereTask (ground 0 t) = some t ∧ t.priv = 0 ∧ (4 : Nat) < t.gcount ∧ t.gcount ≤ 31 ∧
    coreNum (hereCore (ground 0 t)) ≠ 4 ∧ csrOp (.grantWrite 1 4 5 0) = some (access 1 0x081 4 5 0) ∧
    present 0x081 (coreNum (hereCore (ground 0 t))) = true ∧ guarded 0x081 = true ∧
    Executes (.csrr 0x078 4 0) 0 (ground 0 t) t ∧ present 0x078 (coreNum (hereCore (ground 0 t))) = false :=
  ⟨{ userTask [] with gcount := 16 }, by decide, rfl, by decide, by decide, by decide, rfl, by decide, by decide,
    executes_of (by decide), by decide⟩

theorem test_witness_WaysResized : ∃ t s, s = mapped (ground 0 t) ∧ Executes (.resize 5 0) 0 s t ∧
    resizeOk s (gGet t 5).toNat ∧ s.cores = [] ∧ Executes (.resize 4 0) 0 s t ∧ ¬resizeOk s (gGet t 4).toNat := by
  refine ⟨aTask [0xFFFFFFFF, 0xAAAAAAA9], _, rfl, executes_of (by decide), ⟨by decide, ?_⟩, by decide, executes_of (by decide),
    fun h => absurd (h.2 0 (by decide)).1 (by decide)⟩
  intro w hw
  have hv : (gGet (aTask [0xFFFFFFFF, 0xAAAAAAA9]) 5).toNat = 0xAAAAAAA9 := by decide
  have hw' : (tileAt (mapped (ground 0 (aTask [0xFFFFFFFF, 0xAAAAAAA9]))) (hereTile (mapped (ground 0 (aTask [0xFFFFFFFF,
      0xAAAAAAA9]))))).vway.toNat = 0xAAAAAAAA := by
    decide
  rw [hv, hw']
  refine ⟨?_, fun _ => ⟨?_, ?_⟩⟩ <;> (revert w; decide)

theorem test_witness_ControlRegisters : ∃ t s, s = mapped (ground 4 t) ∧ csrOp (.randRead 0 0 4 0) = some (access 0 0x021 0 4 0) ∧
    Executes (.csrr 0x021 4 0) 0 s t ∧ present 0x021 4 = true ∧ Executes (.csrr 0x077 4 0) 0 s t ∧ present 0x077 4 = true ∧
    (coreAt s (hereCore s)).ring = [] ∧ csrOp (.fnselWrite 1 5 0 0) = some (access 1 0x030 5 0 0) ∧
    Executes (.csrw 0x030 5 0) 0 s t ∧ csrWritten s t 0x030 (gGet t 5) = none ∧ Executes (.csrw 0x025 6 0) 0 s t ∧
    (csrWritten s t 0x025 (gGet t 6)).isSome = true ∧ (csrWritten (ground 4 t) t 0x025 (gGet t 6)).isNone = true :=
  ⟨aTask [0, 0xFFFF, 3], _, rfl, rfl, executes_of (by decide), by decide, executes_of (by decide), by decide, by decide, rfl,
    executes_of (by decide), by decide, executes_of (by decide), by decide, by decide⟩

theorem test_witness_DeviceRegisters : ∃ t s, s = mapped (ground 5 t) ∧
    csrOp (.bfmtWrite 15 1 5 0 0) = some (access 1 0x04F 5 0 0) ∧ Executes (.csrw 0x04F 5 0) 0 s t ∧
    granted s (hereTile s) t.ctx grantBanks 15 = true ∧ (elemOf ((gGet t 5).extractLsb' 0 4) ((gGet t 5).extractLsb' 4 17)).isSome = true ∧
    s.cores = [] ∧ t.pend.log = [] ∧ Executes (.csrw 0x05F 5 0) 0 s t ∧ t.priv = 3 ∧ Executes (.csrw 0x001 5 0) 0 s t ∧
    Executes (.csrw 0x080 6 0) 0 s t ∧ (gGet t 6).toNat = 11 ∧ Executes (.csrw 0x080 7 0) 0 s t ∧ (gGet t 7).toNat = 12 ∧
    Executes (.csrw 0x0A4 8 0) 0 s t ∧ (gGet t 8).toNat = 800 ∧ Executes (.csrw 0x0A4 9 0) 0 s t ∧ (gGet t 9).toNat = 2001 :=
  ⟨aTask [0, 6, 11, 12, 800, 2001], _, rfl, rfl, executes_of (by decide), by decide, by decide, by decide, rfl,
    executes_of (by decide), rfl, executes_of (by decide), executes_of (by decide), by decide, executes_of (by decide),
    by decide, executes_of (by decide), by decide, executes_of (by decide), by decide⟩

theorem test_witness_DeviceRegisters_press : ∃ t s, s = mapped (ground 6 t) ∧ Executes (.csrx 0x073 4 9 0) 0 s t ∧
    (gGet t 4).toNat < 2 ^ 18 ∧ (gGet t 4).toNat / 16 % 16 + (gGet t 4).toNat / 256 % 16 ≤ 15 ∧
    role (tileAt s (hereTile s)).vway.toNat 15 = 2 ∧ granted s (hereTile s) t.ctx grantWays 15 = true ∧
    Executes (.csrw 0x075 5 0) 0 s t :=
  ⟨aTask [0xF0, 6], _, rfl, executes_of (by decide), by decide, by decide, by decide, by decide, executes_of (by decide)⟩

theorem test_witness_GrantWrites : ∃ t s, s = mapped (ground 0 t) ∧ Executes (.csrw 0x081 5 0) 0 s t ∧
    (tileAt s (hereTile s)).gsel = 0 ∧ (grantAt s (hereTile s) 0).dw0.getLsbD 63 = true ∧ (gGet t 5).getLsbD 63 = false ∧
    grantOk s (hereTile s) 0 0 (setGrantWord (grantAt s (hereTile s) 0) 0 (gGet t 5 &&& ~~~0x40000000000#64)) t.ctx
      (t.priv == 3) = true :=
  ⟨aTask [0, 0], _, rfl, executes_of (by decide), by decide, by decide, by decide, by decide⟩
/-! The firmware, volumes and the stream -/

/-- A slot that waits in TRAP for call `n`, its instruction in its fetch buffer. -/
def calling (n : Nat) (args : List Dword) : Task :=
  let t := gSet (aTask args) 10 (BitVec.ofNat 64 (2 ^ 63 + n))
  { t with
    fetch := some (8, (encodeBytes (.trap 10 0)) ++ List.replicate 28 0)
    pend := { want := some (.firmware n), req := 0, log := [], word := none } }
theorem calling_of {n : Nat} {s : State} {t : Task} (h : taskAt s 0 = some t ∧ t.pend.want = some (.firmware n) ∧
    currentInstr s 0 = some (.trap 10 0)) (hb : ∃ bytes, t.fetch = some (t.pc.toNat / 32, bytes))
    (h2 : (t.pc.toNat % 32 ≤ 28 ∧ t.pc.toNat < 2 ^ 20) ∧ checks (.trap 10 0) t (coreNum (slotCore 0)) = none ∧
      consumesSpoilt (.trap 10 0) 0 t = false ∧ guardHolds t 0 = true ∧ (t.binds = [] ∧ t.inl = none) ∧ t.priv ≠ 0 ∧
          gGet t 10 = BitVec.ofNat 64 (2 ^ 63 + n)) :
    Calling n 0 s t 10 0 := ⟨h.1, h.2.1, h.2.2, hb, h2.1, h2.2.1, h2.2.2.1, h2.2.2.2.1, h2.2.2.2.2.1, h2.2.2.2.2.2.1, h2.2.2.2.2.2.2⟩

/-- Tables for the second GB of global memory, and no page in them. -/
def withTables (s : State) : State := storePut (storePut s (ddrKey 0 (0x2000 + 8 * 65)) 8 0x3001) (ddrKey 0 0x3000) 8 0x4001
theorem test_witness_PagesMapped : ∃ t s, s = withTables (mapped (ground 0 t)) ∧ s.stored ∧ Calling 1 0 s t 10 0 ∧
    mayName s t 0 { part := 0, priv := 3, root := 0x1000, tvec := 0, dead := false } ∧
    (gGet t 6).toNat % 4 = 0 ∧ (gGet t 6).toNat / 4 % 4 = 0 ∧ (gGet t 6).toNat < 2 ^ 11 ∧
    (gGet t 4).toNat % 4096 = 0 ∧ 2 ^ 36 ≤ (gGet t 4).toNat ∧ (gGet t 4).toNat < 2 ^ 48 ∧
    (gGet t 5).toNat % 4096 = 0 ∧ (gGet t 5).toNat < 2 ^ 40 ∧
    pteValid (leafEntry (gGet t 5).toNat ((gGet t 6).toNat / 16)) 1 = true ∧ pkgPresent s 0 = true ∧
    mappingBreaks s 0 (gGet t 4).toNat (gGet t 5).toNat 1 0 = false ∧
    findEntry s 0 (gGet t 4).toNat 1 4 0x1000 = some (0x4000, 0, 1) ∧ s.net = [] :=
  ⟨calling 1 [2 ^ 36 + 2 ^ 30, 0x80000000, 0xD0, 0], _, rfl, by show Memory.wf _ = true; decide,
    calling_of (by decide) ⟨_, rfl⟩ (by decide), ⟨by decide, by decide, Or.inl rfl⟩, by decide, by decide, by decide, by decide,
    by decide, by decide, by decide, by decide, by decide, by decide, by decide, by decide, rfl⟩

theorem test_witness_FirmwareCalls : ∃ t s, s = mapped (ground 0 t) ∧ s.stored ∧ Calling 7 0 s t 10 0 ∧
    (gGet t 4).toNat % 8 = 0 ∧ (gGet t 4).toNat < 2 ^ 40 :=
  ⟨calling 7 [2 ^ 40 - 8], _, rfl, by show Memory.wf _ = true; decide, calling_of (by decide) ⟨_, rfl⟩ (by decide), by decide,
    by decide⟩
theorem test_witness_FirmwareCalls_contexts : ∃ t s, s = mapped (ground 0 t) ∧ Calling 6 0 s t 10 0 ∧
    ctxLive s (gGet t 4).toNat = false ∧ s.kills = [] ∧ ctxAt s (gGet t 4).toNat = none ∧ (gGet t 4).toNat < 2 ^ 11 ∧
    (gGet t 5).toNat ≤ 1 ∧ (gGet t 6).toNat % 4096 = 0 ∧ (gGet t 6).toNat < 2 ^ 40 ∧ (gGet t 7).toNat % 512 = 0 ∧
    s.ctxs.all (fun c => c.2.priv != 1) = true :=
  ⟨calling 6 [2 ^ 11 - 1, 1, 0x3000, 0x200], _, rfl, calling_of (by decide) ⟨_, rfl⟩ (by decide), by decide, by decide,
    by decide, by decide, by decide, by decide, by decide, by decide, by decide⟩
theorem test_witness_FirmwareCalls_hosts : ∃ t s, s = mapped (ground 0 t) ∧ Calling 8 0 s t 10 0 ∧ (gGet t 4).toNat < 1024 ∧
    pkgPresent s (gGet t 4).toNat = false ∧ (gGet t 5).toNat ≤ 1 :=
  ⟨calling 8 [1023, 1], _, rfl, calling_of (by decide) ⟨_, rfl⟩ (by decide), by decide, by decide, by decide⟩

/-- The words of a descriptor at the start of global memory. -/
def withWords (s : State) (l : List Nat) : State :=
  (l.zip (List.range l.length)).foldl (fun s x => storePut s (ddrKey 0 (0x40000000 + 8 * x.2)) 8 x.1) s
theorem test_witness_VolumesOpened : ∃ t s, s = mapped (ground 0 t) ∧ Executes (.volalloc 5 4 0) 0 s t ∧
    (gGet t 5).toNat % 64 = 0 ∧ 2 ^ 36 ≤ (gGet t 5).toNat ∧ (gGet t 5).toNat < 2 ^ 48 ∧
    (globalKey s (herePkg s) (gGet t 5).toNat t.ctx.toNat t.priv true).toOption = some (ddrKey 0 0x40000000) ∧
    (globalKey s (herePkg s) (gGet t 5).toNat t.ctx.toNat t.priv false).toOption = some (ddrKey 0 0x40000000) ∧ Quiet s t ∧
    (∀ n, n < 16 → isLost s (homeTile s (herePkg s) (2 ^ 36)) (2 ^ 36 + 4 * n) = false) ∧
    descValid (descWords s (herePkg s) (gGet t 5).toNat t.ctx.toNat) = false :=
  ⟨aTask [0, 2 ^ 36], _, rfl, executes_of (by decide), by decide, by decide, by decide, by decide, by decide,
    quiet_of (by decide), by decide, by decide⟩

/-- A descriptor of rank 2, cells of 32 bytes, whose pool of 2 blocks has given its 2 out. -/
def aDescriptor : List Nat := [2 ^ 62 + 5 * 2 ^ 58 + 2 ^ 48, 9 + 4 * 2 ^ 32, 0, 2 * 2 ^ 48 + 2 ^ 52, 0, 2 ^ 36 + 0x1000, 2 * 2 ^ 32, 0]
theorem test_witness_VolumesOpened_full : ∃ t s, s = withWords (mapped (ground 0 t)) aDescriptor ∧
    Executes (.volalloc 5 4 0) 0 s t ∧ (gGet t 5).toNat = 2 ^ 36 ∧
    descWords s (herePkg s) (2 ^ 36) t.ctx.toNat = aDescriptor ∧ descLive aDescriptor = false ∧ descValid aDescriptor = true ∧
    (tileAt s (homeTile s (herePkg s) (2 ^ 36))).attached.length < 64 ∧
    (∃ s1, popBlock (herePkg s) t.ctx.toNat t.priv (volOf t.ctx.toNat (2 ^ 36) aDescriptor) true s = .ok (.error 2, s1)) :=
  ⟨aTask [0, 2 ^ 36], _, rfl, executes_of (by decide), by decide, by decide, by decide, by decide, by decide, ⟨_, rfl⟩⟩

/-- The same with its pool whole, one node on top: what VOLALLOC finds, pops and leaves. -/
def poolWhole (t : Task) : State :=
  storePut (withWords (mapped (ground 0 t)) (aDescriptor.set 6 0)) (ddrKey 0 0x40001000) 8 (2 ^ 36 + 0x8000)
theorem test_witness_VolumesOpened_node : ∃ t s s1, s = poolWhole t ∧ Executes (.volalloc 5 4 0) 0 s t ∧
    descWords s (herePkg s) (2 ^ 36) t.ctx.toNat = aDescriptor.set 6 0 ∧ descLive (aDescriptor.set 6 0) = false ∧
    descValid (aDescriptor.set 6 0) = true ∧
    popBlock (herePkg s) t.ctx.toNat t.priv (volOf t.ctx.toNat (2 ^ 36) (aDescriptor.set 6 0)) true s = .ok (.ok (2 ^ 36 + 0x8000), s1) ∧
    hereTask s1 = some t ∧ (globalKey s1 0 (2 ^ 36 + 56) 0 3 true).toOption.isSome = true :=
  ⟨aTask [0, 2 ^ 36], _, _, rfl, executes_of (by decide), by decide, by decide, by decide, rfl, by decide, by decide⟩

theorem test_witness_VolumesFreed : ∃ t s v, s = withClb (mapped (ground 0 t)) v ∧ v = { aVolume with root := 2 ^ 36 + 0x8000 } ∧
    Executes (.volfree 6 5 0) 0 s t ∧ t.pend.log.lookup (.broadcast 0) = none ∧ clbVolume s t (gGet t 5) v ∧ v.rank < 3 ∧
    locate v (coordsOf t 6) = some (6, 0) ∧
    walkVol s (herePkg s) t.ctx.toNat t.priv 6 (fun _ => none) v = .absent (2 ^ 36 + 0x8000 + 8 * 6) 1 ∧
    freeingElsewhere s v.handle = false ∧ shootdownOut s = false ∧
    (∃ s1, writeH (herePkg s) (2 ^ 36 + 0x8000 + 8 * 6) v.ctx t.priv 8 0 s = .ok ((), s1) ∧ hereTask s1 = some t) :=
  ⟨cellTask, _, _, rfl, rfl, executes_of (by decide), by decide, by unfold clbVolume ownVolume; decide, by decide, by decide, by decide,
    by decide, by decide, _, rfl, by decide⟩
/-- All have answered a VOLFREE: one block goes back to its pool. -/
theorem test_witness_VolumesFreed_end : ∃ t s s1, s = withWords (mapped (ground 0 t)) aDescriptor ∧
    Executes (.volfree 6 5 0) 0 s t ∧ t.pend.log.lookup (.broadcast 0) = some { cause := 0, val := 0, data := [0, 2 ^ 36 + 0x10000] } ∧
    shootdownOut s = false ∧
    pushAll (herePkg s) t.ctx.toNat t.priv (volOf t.ctx.toNat (2 ^ 36) (descWords s (herePkg s) (2 ^ 36) t.ctx.toNat)) [0, 2 ^ 36 + 0x10000]
      (dropStaged s (herePkg s) (spansOf (volOf t.ctx.toNat (2 ^ 36) (descWords s (herePkg s) (2 ^ 36) t.ctx.toNat)) [0,
          2 ^ 36 + 0x10000])) =
        .ok ((), s1) ∧ hereTask s1 = some t :=
  ⟨answered (aTask [0, 2 ^ 36, 1]) (.broadcast 0) { cause := 0, val := 0, data := [0, 2 ^ 36 + 0x10000] }, _, _, rfl,
    executes_of (by decide), by decide, by decide, rfl, by decide⟩

/-- The streams of the tile: the ground with a stream at 0x100. -/
def streaming : State := { modTile State.reset 0 (fun x => { x with
    stream := some placedStream, sems := x.sems.set 15 1,
    grants := x.grants.set 0 { Grant.reset with dw0 := (1#64 <<< 63) ||| 0xFFFF, dw1 := 0xFFFF#64 <<< 48 },
    m := x.m.set 1 0x1, v := x.v.set 1 0xFFFFC, queues := (x.queues.set 1 [5, 6]).set 2 (List.replicate 16 0) }) with
  here := streamKey 0 }
theorem streams_now : Streams streaming 0 placedStream := ⟨by decide, by decide⟩
theorem test_witness_Vectors : ∃ op f c i, laneOp (.vadd 6 2 1 0 0) = some op ∧ Instr.wf (.vadd 6 2 1 0 0) = true ∧
    foldOp (.vscanMin 2 1 0 0) = some f ∧ Instr.wf (.vscanMin 2 1 0 0) = true ∧ compareOp (.vcmpUn 0 2 1 7 0) = some c ∧
    Instr.wf (.vcmpUn 0 2 1 7 0) = true ∧ Instr.wf (.vcvt 4 0 7 1 2 0) = true ∧ Instr.wf (.vthresh 7 1 2 3 0) = true ∧
    i = Instr.vadd 6 2 1 0 0 ∧ whereOf i = .stream ∧ Streams streaming 0 placedStream := by
  exact ⟨_, _, _, _, rfl, by decide, rfl, by decide, rfl, by decide, by decide, by decide, rfl, rfl, streams_now⟩

theorem test_witness_VectorMemory : ∃ op, vecAccess (.vld 1 0 1) = some op ∧ Streams streaming 0 placedStream ∧
    enabled streaming 0 op.guard 0 = true ∧ (∀ n, 0 < n → n < 64 → enabled streaming 0 op.guard n = false) ∧
    op.addr (lane streaming 0) 0 = 2 ^ 20 - 4 ∧ laneFault streaming 0 placedStream.ctx (2 ^ 20 - 4) = none ∧
    laneFault streaming 0 placedStream.ctx (op.addr (lane streaming 0) 1) = some 1 ∧
    (∀ w, w < 16 → resizing streaming 0 w = false) ∧ streaming.stored ∧ spoiltAt streaming (wordKey 0 (2 ^ 20 - 4)) 4 = false ∧
    spoiltAt { streaming with spoilt := [0xFFFFC] } (wordKey 0 (2 ^ 20 - 4)) 4 = true := by
  refine ⟨_, rfl, streams_now, by decide, ?_, by decide, by decide, by decide, by decide, by show Memory.wf _ = true; decide,
    by decide, by decide⟩
  intro n h0 h
  have : ∀ n : Fin 64, 0 < n.val → enabled streaming 0 1 n.val = false := by decide
  exact this ⟨n, h⟩ h0

theorem test_witness_VectorControl : Streams streaming 0 placedStream ∧ queueAt streaming 0 1 = 5 :: [6] ∧
    reservedAt streaming 0 1 = [] ∧ queueAt streaming 0 0 = [] ∧ queueClosed streaming 0 0 = false ∧
    (queueAt streaming 0 1).length < 16 ∧ granted streaming 0 placedStream.ctx grantSems 15 = true ∧
    enabled streaming 0 0 0 = true ∧ (∀ n : Fin 64, enabled streaming 0 8 n = false) :=
  ⟨streams_now, by decide, by decide, by decide, by decide, by decide, by decide, by decide, by decide⟩
theorem test_witness_StreamMembersElsewhere : ∃ t st, whereOf (.vend 0 0) = .stream ∧
    (ground 0 t).here ≠ streamKey (hereTile (ground 0 t)) ∧ hereTask (ground 0 t) = some t ∧
    (tileAt (modStream streaming 0 (fun x => { x with waiting := some 0, qwait := 2 ^ 20 })) 0).stream = some st ∧
    st.waiting = some 0 ∧ 2 ^ 20 ≤ st.qwait :=
  ⟨aTask [], { placedStream with waiting := some 0, qwait := 2 ^ 20 }, rfl, by decide, by decide, by decide, rfl, by decide⟩
/-! Arrivals and the device's own steps -/

/-- Tile 0 with its grants, a routine for class 40 at 0x400 and one packet on its way, from slot 0 of core 1 to core 2. -/
def wired (b : Body) : State :=
  { mapped (placedGround State.reset) with net := [{ id := 9, src := slotKey 1 0, dst := 2, launch := 5, body := b }], nextId := 10 }
def aPacket (b : Body) : Packet := { id := 9, src := slotKey 1 0, dst := 2, launch := 5, body := b }
theorem arrives_of {s : State} {id : Nat} {p : Packet} (h : arriving s id = some p ∧ stranded s p = false ∧ ddrHolds s p = false ∧
    resizeHolds s p.body = false ∧ ownCredit s p = true ∧ groupReady s (coreTile p.dst) = true) : Arrives s id p :=
  ⟨h.1, h.2.1, h.2.2.1, h.2.2.2.1, h.2.2.2.2.1, fun _ => h.2.2.2.2.2⟩
/-- A header of a class with the NLOG the class asks for, without a phase tag, for context 0. -/
def header (cls : Nat) : Dword :=
  BitVec.ofNat 64 (cls * 2 ^ 46 + 2 + (if cls = 1 ∨ cls = 12 ∨ cls = 17 then 2 else if cls = 4 then 3 else 0) * 2 ^ 25)
theorem taken_of {s : State} {cls : Nat} {h : Dword} {pl : List Dword} {p : Packet} (hp : p.body = .msg h pl)
    (c : arriving s 9 = some p ∧ stranded s p = false ∧ ddrHolds s p = false ∧ resizeHolds s p.body = false ∧ ownCredit s p = true ∧
      groupReady s (coreTile p.dst) = true)
    (d : (hdrClass h = cls ∧ pkgPresent s (tilePkg (coreTile p.dst)) = true) ∧ (targetOk cls p.dst = true ∧ nlogOk cls (hdrNlog h) = true) ∧
        hostListed s (tilePkg (coreTile p.dst)) p.src (hdrCtx h).toNat = true ∧
      ctxLive s (hdrCtx h).toNat = true ∧ accepts s (coreTile p.dst) (hdrCtx h) = true ∧
      cancelled s (coreTile p.dst) (hdrCtx h) (if cls = 1 then BitVec.ofNat 32 (pl.getD 0 0).toNat else p.launch) (hdrTag h) =
        false) : Taken s 9 p cls h pl :=
  ⟨arrives_of c, Or.inl hp, d.1.1, d.1.2, fun _ => d.2.1, d.2.2.1, d.2.2.2.1, d.2.2.2.2.1, fun _ => d.2.2.2.2.2⟩

/-- ADD g4, g5, g6 and C.TEND, then zeros: a block that may run. -/
def aBlock : List Dword := [0x00C52001, 0]
theorem test_witness_MessagesTaken : (∃ s, s = wired (.msg (header 0) aBlock) ∧
      Taken s 9 (aPacket (.msg (header 0) aBlock)) 0 (header 0) aBlock ∧ taskAt s (handlerKey 2) = none ∧
      (inlineBlock (payloadBytes aBlock)).map (·.2) = some 4) ∧
    inlineBlock (payloadBytes [0, 0]) = none ∧
    (∃ s, s = withRoutine (wired (.msg (header 40) [1])) 0x8000000000000400 ∧
      Taken s 9 (aPacket (.msg (header 40) [1])) 40 (header 40) [1] ∧ routineEntry s 0 0 40 = some 0x8000000000000400 ∧
      routineEntry s 0 0 32 = none) ∧
    (∃ s, s = withRoutine (wired (.msg (header 4) [40])) 0x8000000000000400 ∧
      Taken s 9 (aPacket (.msg (header 4) [40])) 4 (header 4) [40] ∧ cancelled s 0 0 5 (hdrTag (header 4)) = false ∧
      spawnQueued s 2 < 64 ∧ queuedOn s 0 0 < 65535) ∧
    (∃ s pl, pl = [0x2800000003, 0, 0, 0] ∧ s = withRoutine (wired (.msg (header 1) pl)) 0x8000000000000400 ∧
      Taken s 9 (aPacket (.msg (header 1) pl)) 1 (header 1) pl ∧ tget s.launches (launchKey 0 3) = none ∧
      taskAt s (handlerKey 2) = none ∧ queuedOn s 0 0 < 65535) :=
  ⟨⟨_, rfl, taken_of rfl (by decide) (by decide), by decide, by decide⟩, by decide,
    ⟨_, rfl, taken_of rfl (by decide) (by decide), by decide, by decide⟩, ⟨_, rfl, taken_of rfl (by decide) (by decide), by decide⟩,
    ⟨_, _, rfl, rfl, taken_of rfl (by decide) (by decide), by decide⟩⟩

/-- A record at 0x400 of tile 0 whose count is given: context 0, home core 7 or not. -/
def withRecord (s : State) (count home : Nat) : State :=
  lmPut (lmPut s 0 0x404 4 count) 0 0x400 4 (home * 2 ^ 21 + 0x400)
theorem test_witness_RecordsAndLaunches : (∀ n ∈ [0, 1, 2], lmGet (withRecord (wired (.msg (header 3) [0x400])) n 2) 0 0x404 4 = n) ∧
    Taken (withRecord (wired (.msg (header 3) [0x400])) 1 2) 9 (aPacket (.msg (header 3) [0x400])) 3 (header 3) [0x400] ∧
    (withRecord (wired (.msg (header 3) [0x400])) 1 2).stored ∧
    queuedOn (withRecord (wired (.msg (header 3) [0x400])) 1 2) 0 0 < 65535 ∧
    Arrives (wired (.cancel 1 0 5)) 9 (aPacket (.cancel 1 0 5)) := by
  refine ⟨?_, taken_of rfl (by decide) (by decide), ?_, by decide, arrives_of (by decide)⟩
  · intro n h
    simp only [List.mem_cons, List.not_mem_nil, or_false] at h
    rcases h with h | h | h <;> subst h <;> decide
  · show Memory.wf _ = true; decide
/-- A launch of context 0 that has no task left. -/
def ended : Launch :=
  { counter := 0, record := 0x440, status := 0, core := none, error := false, cancelled := false, killed := false, sender := 0,
    sslot := 0, slaunch := 0 }
theorem test_witness_LaunchesEnd : tget { State.reset with launches := [(5, ended)] }.launches 5 = some ended ∧
    nameOk ended.record = true ∧ State.reset.kills = [] := by decide

/-- A start entry of context 0. -/
def anEntry : Entry :=
  { order := 1, ctx := 0, launch := 5, how := 1, cls := 40, pri := 0, gcode := 0, fcode := 0, bexp := 0, entry := 0x400,
    record := 0, payload := [1], sender := 0, sslot := 0, slaunch := 0, tag := 16, acquire := false, credit := none }
def withEntry (s : State) : State := modCore s 2 (fun c => { c with entries := [anEntry] })
theorem test_witness_StartsAndCredits : freeSlotOf (withEntry (mapped (placedGround State.reset))) 2 = some 0 ∧
    pickEntry (withEntry (mapped (placedGround State.reset))) 2 = some anEntry ∧
    (grantOf (withEntry (mapped (placedGround State.reset))) 0 0).map (·.1) = some 0 ∧
        pickEntry (mapped (placedGround State.reset)) 2 = none ∧
    (tileAt { mapped (placedGround State.reset) with ftime := 100000 } 0).period < fabricTime { mapped (placedGround State.reset) with ftime := 100000 } 0 / 100000 := by
  refine ⟨?_, ?_, ?_, ?_, ?_⟩ <;> decide
/-- A slot of tile 1 waits for a credit of core 2, which has none lent. -/
def wanting : State :=
  let t := { aTask [] with pend := { want := some (.credit 2 40), req := 0, log := [], word := none } }
  putTask (modCore (placedGround State.reset) 2 (fun c => { c with wanted := [(256, 40)] })) 256 t
theorem test_witness_Credits : (coreAt wanting 2).wanted = [(256, 40)] ∧ groupReady wanting 0 = true ∧
    canLend (coreAt wanting 2) 1 40 = true ∧ (taskAt wanting 256).isSome = true ∧ (coreAt wanting 2).lent = [] := by
  refine ⟨?_, ?_, ?_, ?_, ?_⟩ <;> decide

theorem test_witness_AtomicsPerformed : ∃ b s, b = Body.atomic (some (false, 0, 0x100)) 0x100 4 0 0 0 5 0 false 16 ∧ s = wired b ∧
    Arrives s 9 (aPacket b) ∧ taskAt s (handlerKey 2) = none ∧ hostMay s (aPacket b) 0x100 0 = true ∧
    pkgPresent s 0 = true ∧ placedCause s 0 false 0 0x100 = none ∧
    spoiltAt s (placeKey false 0 0x100) 4 = false ∧ placedCause (placedGround State.reset) 0 false 0 0x10000 = some causeProt :=
  ⟨_, _, rfl, rfl, arrives_of (by decide), by decide, by decide, by decide, by decide, by decide, by decide⟩
/-- A task that waits for the old value of an atomic on the word at 0x100, and the reply to it. -/
def replied : State :=
  let t := { aTask [0, 0x100, 5] with
    fetch := some (8, encodeBytes (.amoAdd 0 0 6 5 4 0) ++ List.replicate 28 0)
    pend := { want := some (.atomic 0x100 4 0 5 0), req := 3, log := [], word := none } }
  { ground 1 t with net := [{ id := 9, src := niKey 0, dst := 1, launch := 0, body := .reply 3 (Reply.value 8) }] }
/-- The task with the reply, on the stage. -/
def answeredTask : Task :=
  let t := (taskAt replied 16).getD (aTask [])
  { t with pend := { t.pend with want := none, log := (.atomic 0x100 4 0 5 0, Reply.value 8) :: t.pend.log } }
def answeredState : State := { putTask (dropPacket replied 9) 16 answeredTask with here := 16 }
theorem test_witness_RepliesComplete : ∃ p t op, arriving replied 9 = some p ∧ p.body = .reply 3 (Reply.value 8) ∧
    waiterOf replied p.dst 3 = slotKey 1 0 ∧ taskAt replied (slotKey 1 0) = some t ∧ t.pend.req = 3 ∧
    t.pend.want = some (.atomic 0x100 4 0 5 0) ∧ currentInstr answeredState (slotKey 1 0) = some (.amoAdd 0 0 6 5 4 0) ∧
    atomicOp (.amoAdd 0 0 6 5 4 0) = some op ∧ Executes (.amoAdd 0 0 6 5 4 0) op.guard answeredState answeredTask ∧
    Addressed answeredTask op.base (gGet answeredTask op.base) op.size ∧
    (performer answeredState (gGet answeredTask op.base).toNat).isSome = true ∧
    performsItself answeredState answeredTask (gGet answeredTask op.base).toNat = false ∧ answeredTask.pubs = [] ∧
    ownSettled answeredState answeredTask 0x100 4 = true ∧ ownOut answeredState answeredTask 1 0x100 4 = false ∧
    ownOut answeredState answeredTask 2 0x100 4 = false :=
  ⟨_, _, _, rfl, rfl, by decide, rfl, rfl, rfl, by decide, rfl, executes_of (by decide), addressed_of (by decide), by decide,
    by decide, by decide, by decide, by decide, by decide⟩
/-- A phase of slot 3 on tile 0, declared, with nothing left. -/
def phaseOverState : State :=
  modTile (mapped (placedGround State.reset)) 0 (fun x => { x with phases := x.phases.set 3 { Phase.reset with
    decl := true
    tiles := [0]
    succ := 40 } })
theorem test_witness_PhasesAndEvents :
    Arrives (wired (.declare 3 5 1 40 6 5 0 [0])) 9 (aPacket (.declare 3 5 1 40 6 5 0 [0])) ∧
    ctxLive (wired (.declare 3 5 1 40 6 5 0 [0])) 0 = true ∧ phaseOver phaseOverState 0 3 = true ∧
    phaseOver (mapped (placedGround State.reset)) 0 3 = false ∧ phaseTiles phaseOverState 0 3 = [0] ∧
    Arrives (wired (.msg (header 15) [1, 2, 3, 4])) 9 (aPacket (.msg (header 15) [1, 2, 3, 4])) ∧
    hdrClass (header 15) = 15 ∧ pkgPresent (wired (.msg (header 15) [1, 2, 3, 4])) 0 = true ∧
    grantOf (wired (.msg (header 15) [1, 2, 3, 4])) 0 5 = none ∧
    (grantOf (wired (.msg (header 15) [1, 2, 3, 4])) 0 (hdrCtx (header 15))).isSome = true ∧
    lmGet (wired (.msg (header 15) [1, 2, 3, 4])) 0 (2048 + 32 * 31) 8 < 2 ^ 63 :=
  ⟨arrives_of (by decide), by decide, by decide, by decide, by decide, arrives_of (by decide), by decide, by decide, by decide,
    by decide, by decide⟩
/-- The device's message of a phase that ended, to core 2 of tile 0. -/
def doneState : State :=
  withRoutine { mapped (placedGround State.reset) with
    net := [{ id := 9, src := slotKey 3 7, dst := 2, launch := 5, body := .own (header 13) [0, 1, 3, 0, 40] }], nextId := 10 }
    0x8000000000000400
theorem test_witness_PhasesAndEvents_successor : ∃ p, doneState.net.find? (fun q => q.dst == 2 && (match q.body with
      | .own h _ => hdrClass h == 13
      | _ => false)) = some p ∧ p.body = .own (header 13) [0, 1, 3, 0, 40] ∧ cancelled doneState 0 0 p.launch 16 = false ∧
    ctxLive doneState 0 = true ∧ accepts doneState 0 0 = true ∧ queuedOn doneState 0 0 < 65535 ∧ ownCredit doneState p = true ∧
    routineEntry doneState 0 0 40 = some 0x8000000000000400 ∧ routineEntry doneState 0 0 32 = none :=
  ⟨_, rfl, rfl, by decide, by decide, by decide, by decide, by decide, by decide, by decide⟩
theorem test_witness_PhasesAndEvents_ring : (wired (.msg (header 15) [1, 2, 3, 4])).stored ∧
    2 ^ 63 ≤ lmGet (lmPut (wired (.msg (header 15) [1, 2, 3, 4])) 0 2048 8 (2 ^ 63)) 0 2048 8 :=
  ⟨by show Memory.wf _ = true; decide, by decide⟩
/-- A package whose link 0 is up. -/
def linkedPkg : Pkg := { Pkg.reset with ready := Pkg.reset.ready.set 2 1 }
theorem test_witness_PhasesAndEvents_host :
    Arrives { wired (.msg (header 15) [1, 2, 3, 4]) with pkgs := [(0, linkedPkg)], net := [{ aPacket (.msg (header 15) [1, 2,
        3, 4]) with dst := coreKey (tileKey 5 0) 0 }] } 9
      { aPacket (.msg (header 15) [1, 2, 3, 4]) with dst := coreKey (tileKey 5 0) 0 } ∧ pkgPresent State.reset 5 = false :=
  ⟨arrives_of (by decide), by decide⟩

/-! Coherence: a request arrives at home slice 0. -/
theorem test_witness_LinesServed : (∃ b s, b = Body.fill (2 ^ 36) 0 0 false false false ∧ s = wired b ∧ Arrives s 9 (aPacket b) ∧
      (globalKey s 0 (2 ^ 36) 0 0 false).toOption = some (ddrKey 0 0x40000000) ∧
          nextOwner s 0 (2 ^ 36) [] (slotCore (slotKey 1 0)) = none) ∧
    (∃ b s, b = Body.fill (2 ^ 36) 0 0 true false false ∧ s = wired b ∧ Arrives s 9 (aPacket b) ∧
      (globalKey s 0 (2 ^ 36) 0 0 true).toOption = some (ddrKey 0 0x40000000) ∧ (translate s 0 (2 ^ 36) 0).isSome = true ∧
      (globalKey s 0 (2 ^ 40) 0 0 true).toOption = none) ∧
    (∃ b s, b = Body.forward (2 ^ 36) 0 false [] 17 4 ∧ s = wired b ∧ Arrives s 9 (aPacket b) ∧
      nextOwner s (slotTile (slotKey 1 0)) (2 ^ 36) [] (slotCore 17) = none ∧ (translate s 0 (2 ^ 36) 0).isSome = true) :=
  ⟨⟨_, _, rfl, rfl, arrives_of (by decide), by decide, by decide⟩,
    ⟨_, _, rfl, rfl, arrives_of (by decide), by decide, by decide, by decide⟩,
    ⟨_, _, rfl, rfl, arrives_of (by decide), by decide, by decide⟩⟩

/-- 512 lines of one word each, every one with a store on its way home. -/
def fullL1 : List (Nat × L1Word) := (List.range 512).map (fun i => (2 ^ 37 + 32 * i, word 0 .inFlight))
theorem fullL1_lines : linesOf { Core.reset with l1 := fullL1 } = (List.range 512).map (fun i => 2 ^ 33 + 2 * i) := by decide
theorem fullL1_room {s : State} (h : coreAt s 2 = { Core.reset with l1 := fullL1 }) : l1Room s 2 (rowLine (2 ^ 36)) = none := by
  have free : ((List.range 512).map (fun i => 2 ^ 33 + 2 * i)).filter
      (fun m => !(fullL1.any (fun w => inLine m w && (w.2.own == .inFlight ||
        Core.reset.fills.any (fun f => f.line == w.1 / 32 * 32))))) = [] := by
    rw [List.filter_eq_nil_iff]
    intro m hm
    obtain ⟨i, hi, rfl⟩ := List.mem_map.1 hm
    have : fullL1.any (fun w => inLine (2 ^ 33 + 2 * i) w && (w.2.own == .inFlight ||
        Core.reset.fills.any (fun f => f.line == w.1 / 32 * 32))) = true := by
      refine List.any_eq_true.2 ⟨_, List.mem_map.2 ⟨i, hi, rfl⟩, ?_⟩
      have e : rowLine (2 ^ 37 + 32 * i) = 2 ^ 33 + 2 * i := by unfold rowLine; omega
      simp only [inLine, word, e, beq_self_eq_true, Bool.true_and, Bool.true_or]
    rw [this]; decide
  have room : ((List.range 512).map (fun i => 2 ^ 33 + 2 * i)).contains (rowLine (2 ^ 36)) = false := by decide
  unfold l1Room
  simp only [h, fullL1_lines, room, free]
  simp [fullL1]
def aFill : Fill := { id := 4, line := 2 ^ 36, ctx := 0, grant := false, stale := false }
/-- A line of two words, the second lost, on its way to core 2, which awaits it. -/
def arrivingLine : Body := .filled (2 ^ 36) 0 false [(2 ^ 36, 7, 0), (2 ^ 36 + 4, 0, 1)] 0 32 4
theorem test_witness_FillsArrive : ∃ s, s = modCore (wired arrivingLine) 2 (fun c => { c with fills := [aFill] }) ∧
    Arrives s 9 (aPacket arrivingLine) ∧ ([((2 : Nat) ^ 36), 2 ^ 36 + 4]).Nodup ∧
    (coreAt s 2).fills.find? (fun x => x.id == 4) = some aFill ∧ aFill.stale = false ∧
    l1Room s 2 (rowLine (2 ^ 36)) = some s ∧
    l1Room { s with cores := [(2, { Core.reset with l1 := fullL1 })] } 2 (rowLine (2 ^ 36)) = none :=
  ⟨_, rfl, arrives_of (by decide), by decide, by decide, rfl, rfl, fullL1_room rfl⟩

/-- Home slice 0 records core 2 as the owner of the first word of global memory. -/
def owned (s : State) (core : Nat) : State :=
  modTile s 0 (fun x => { x with registry := [{ line := lineOf (2 ^ 36), owner := core, mask := maskBit (2 ^ 36) }] })
theorem test_witness_WordsOwned :
    (∃ b s t, b = Body.reg (2 ^ 36) 0 16 1 16 ∧ s = owned (putTask (wired b) 16 t) 2 ∧ Arrives s 9 (aPacket b) ∧
      taskAt s 16 = some t ∧ (∃ o ∈ t.outs, o.id = 9) ∧ isLost s 0 (2 ^ 36) = false ∧ ownerOf s 0 (2 ^ 36) = some 2) ∧
    (∃ b s, b = Body.revoke (2 ^ 36) ∧ s = wired b ∧ Arrives s 9 (aPacket b) ∧ ownerOf s 0 (2 ^ 36) ≠ some 2 ∧
      l1Get s 2 (2 ^ 36) = none) ∧
    (∃ b s, b = Body.recall (lineOf (2 ^ 36)) (maskBit (2 ^ 36)) true ∧
      s = modCore (owned (wired b) 2) 2 (fun c => { c with l1 := [(2 ^ 36, word 5 .registered)] }) ∧ Arrives s 9 (aPacket b) ∧
      ownerOf s 0 (2 ^ 36) = some 2 ∧ l1Get s 2 (2 ^ 36) = some (word 5 .registered) ∧
      mappedKey s 0 (2 ^ 36) [0] = some (ddrKey 0 0x40000000)) ∧
    (∃ b s, b = Body.writeBack [(2 ^ 36, 5)] ∧ s = owned (wired b) 1 ∧ Arrives s 9 (aPacket b) ∧
      ownerOf s 0 (2 ^ 36) = some 1 ∧ mappedKey s 0 (2 ^ 36) (s.ctxs.map (·.1)) = some (ddrKey 0 0x40000000)) :=
  ⟨⟨_, _, { aTask [] with outs := [{ id := 9, va := 2 ^ 36, kind := 0 }] }, rfl, rfl, arrives_of (by decide), by decide,
      ⟨_, List.mem_singleton.mpr rfl, rfl⟩, by decide, by decide⟩,
    ⟨_, _, rfl, rfl, arrives_of (by decide), by decide, by decide⟩,
    ⟨_, _, rfl, rfl, arrives_of (by decide), by decide, by decide, by decide⟩,
    ⟨_, _, rfl, rfl, arrives_of (by decide), by decide, by decide⟩⟩

/-- The word of global memory that home slice 0 holds registered to core 2; four other owners of a line. -/
theorem test_witness_WordsOwned_sole : solelyOwned (owned (wired (.revoke (2 ^ 36))) 2) 0 (2 ^ 36) 2 ∧
    (owned (wired (.revoke (2 ^ 36))) 2).stored ∧
    (∃ x, l1Get (modCore (wired (.revoke (2 ^ 36))) 2 (fun c => { c with l1 := [(2 ^ 36, word 5 .inFlight)] })) 2 (2 ^ 36) = some x ∧
      x.own = .inFlight) ∧
    (∃ l : List RegEntry, l = (List.range 4).map (fun n => { line := lineOf (2 ^ 36), owner := n + 1, mask := 255 }) ∧
      (l.filter (fun e => e.line == lineOf (2 ^ 36) && e.owner != 8 && (e.mask &&& ~~~(maskBit (2 ^ 36))) != 0)).length = 4 ∧
      ∀ e ∈ l, ¬(e.line = lineOf (2 ^ 36) ∧ e.owner = 8)) :=
  ⟨by unfold solelyOwned; decide, by show Memory.wf _ = true; decide, ⟨_, rfl, rfl⟩, _, rfl, by decide, by decide⟩

theorem test_witness_AccessesServed :
    (∃ b s v u, b = Body.strong (2 ^ 36) 4 0 3 false 0 ∧ s = wired b ∧ Arrives s 9 (aPacket b) ∧ pkgPresent s 0 = true ∧
      serveLoad s 0 (2 ^ 36) 4 0 3 = .done v u) ∧
    (∃ b s v u, b = Body.strong (2 ^ 36) 4 0 3 true 7 ∧ s = wired b ∧ Arrives s 9 (aPacket b) ∧
      serveWrite s 0 (2 ^ 36) 4 0 3 (some 1) false (fun _ => some 7) = .done v u) ∧
    (∃ b s, b = Body.placed false 0 0x100 4 0 true true 0 7 16 ∧ s = wired b ∧ Arrives s 9 (aPacket b) ∧
      placedCause s 0 false 0 0x100 = none) ∧
    (∃ b s, b = Body.ldf false 0 0x100 4 0 true ∧ s = wired b ∧ Arrives s 9 (aPacket b) ∧ allFull s 0x100 4 = false ∧
      (tileAt s 0).ldfs.length < 64 ∧ allFull { s with full := [0x100] } 0x100 4 = true ∧ ldfAhead s 0 0x100 4 = false) :=
  ⟨⟨_, _, _, _, rfl, rfl, arrives_of (by decide), by decide, rfl⟩, ⟨_, _, _, _, rfl, rfl, arrives_of (by decide), rfl⟩,
    ⟨_, _, rfl, rfl, arrives_of (by decide), by decide⟩,
    ⟨_, _, rfl, rfl, arrives_of (by decide), by decide, by decide, by decide, by decide⟩⟩

/-- A waiting LDF of slot 0 of core 5. -/
def aWait : LdfWait := { slot := slotKey 5 0, req := 3, key := 0x100, size := 4, take := false }
def waitingTask (w : Want) : Task := { (aTask []) with pend := { want := some w, req := 3, log := [], word := none } }
theorem test_witness_WaitersServed :
    (∃ s, s = modTile (fullGround 5 (waitingTask (.ldf 0x100 4 false))) 0 (fun x => { x with ldfs := [aWait] }) ∧
      (tileAt s 0).ldfs = [aWait] ∧ ldfLive s aWait = true ∧ allFull s aWait.key aWait.size = true ∧
      allFull { s with full := [] } aWait.key aWait.size = false) ∧
    (∃ s t, s = ground 5 t ∧ taskAt s (slotKey 5 0) = some t ∧ t.pend.want = some (.ldf 0x40100000 4 false) ∧
      s.net = [] ∧ (tileAt s 0).ldfs = [] ∧ placeOf s (slotTile (slotKey 5 0)) 0x40100000 = .placed false 1 0) ∧
    (∃ s t, s = modTile (mapped (ground 5 t)) 0 (fun x => { x with semWait := [(slotKey 5 0, 15)], sems := x.sems.set 15 1 }) ∧
      (tileAt s 0).semWait.find? (fun w => w.2 == 15) = some (slotKey 5 0, 15) ∧ (tileAt s 0).sems[15] ≠ 0 ∧
      currentInstr s (slotKey 5 0) = some (.semp 15 0) ∧ Executes (.semp 15 0) 0 { s with here := slotKey 5 0 } t ∧
      granted s 0 t.ctx grantSems 15 = true) :=
  ⟨⟨_, rfl, by decide, by decide, by decide, by decide⟩,
    ⟨_, waitingTask (.ldf 0x40100000 4 false), rfl, by decide, rfl, rfl, by decide, by decide⟩,
    ⟨_, { waitingTask (.sem 15) with fetch := some (8, encodeBytes (.semp 15 0) ++ List.replicate 28 0) }, rfl, by decide,
      by decide, by decide, executes_of (by decide), by decide⟩⟩

theorem test_witness_BlocksServed :
    (∃ b s, b = Body.alloc (2 ^ 36 + 0x100) 1 (2 ^ 36) 0 3 ∧ s = withWords (wired b) aDescriptor ∧ Arrives s 9 (aPacket b) ∧
      peek s 0 (2 ^ 36 + 0x100) 0 8 = 0 ∧
      (∃ s1, popBlock 0 0 3 (volOf 0 (2 ^ 36) aDescriptor) false s = .ok (.error 1, s1)) ∧
      peek (storePut s (ddrKey 0 0x40000100) 8 (2 ^ 37)) 0 (2 ^ 36 + 0x100) 0 8 = 2 ^ 37) ∧
    (∃ b s, b = Body.shootdown (2 ^ 36) [6] false [(2 ^ 37, 4096)] ∧ s = wired b ∧ Arrives s 9 (aPacket b) ∧
      blockInUse s 0 [(2 ^ 37, 4096)] = false) :=
  ⟨⟨_, _, rfl, rfl, arrives_of (by decide), by decide, ⟨_, rfl⟩, by decide⟩, ⟨_, _, rfl, rfl, arrives_of (by decide), by decide⟩⟩

/-! Timers, gangs and packages -/
def deadCtx : Ctx := { part := 1, priv := 0, root := 0, tvec := 0, dead := true }
def ringPart : Part := { sup := none, log := none, kring := some (0, 0x100), hosts := [], exitSent := false }
def aKill : Kill := { ctx := 5, record := List.replicate 16 0, others := 2 }
theorem test_witness_KillRecords : ∃ s, s = { mapped (placedGround State.reset) with
      kills := [aKill]
      ctxs := [(5, deadCtx)]
      parts := [(1, ringPart)] } ∧
    s.kills.find? (fun y => y.ctx == 5) = some aKill ∧ aKill.record.length = 16 ∧ s.net = [] ∧
    (partAt s (ctxPart s 5)).kring = some (0, 0x100) ∧ logFull (storePut s (ddrKey 0 0x100) 8 (2 ^ 20 + 3 * 2 ^ 48)) 0 0x100 = false ∧
    s.tasks = [] :=
  ⟨_, rfl, by decide, by decide, by decide, by decide, by decide, by decide⟩

theorem test_witness_DeviceTimers :
    (∃ s t, s = ground 0 t ∧ taskAt s 0 = some t ∧ t.budget = 0 ∧ t.grace = none ∧ t.inl = none) ∧
    (∃ s t, s = ground 0 t ∧ taskAt s 0 = some t ∧ t.grace = some 0) ∧
    (∃ s g, s = modTile (mapped (placedGround State.reset)) 0 (fun x => { x with grants := x.grants.set 1 g }) ∧
      (tileAt s 0).grants[1]? = some g ∧ g.leaving = true ∧ grantIdle s 0 (grantCtx g) = true) ∧
    (∃ s t, s = modTile (ground 4 t) 0 (fun x => { x with watchdog := 2 ^ 22 }) ∧ watchdogCounts s 0 = true ∧
      2 ^ 22 ≤ (tileAt s 0).watchdog ∧ (s.tasks.map (·.1)).Nodup ∧ (engineTasks s 0).length = 1 ∧ t.tlev.toNat < 2 ∧
      t.inl = none ∧ (watchdogVal s (slotKey 4 0) t).isSome = true) :=
  ⟨⟨_, { aTask [] with budget := 0 }, rfl, by decide, rfl, rfl, rfl⟩,
    ⟨_, { aTask [] with grace := some 0 }, rfl, by decide, rfl⟩,
    ⟨_, { Grant.reset with dw0 := (1#64 <<< 63) ||| (5#64 <<< 32), leaving := true }, rfl, by decide, rfl, by decide⟩,
    ⟨_, waitingTask (.sem 3), rfl, by decide, by decide, by decide, by decide, by decide, rfl, by decide⟩⟩
/-- The header of a GANG message of four doublewords. -/
def gangHeader : Dword := BitVec.ofNat 64 (16 * 2 ^ 46 + 2 * 2 ^ 25 + 2)
/-- A GANG message to core 0 of tile 0, from another coordinator. -/
def gangState (pl : List Dword) (g : Option Gang) : State :=
  let s := { wired (.msg gangHeader pl) with net := [{ aPacket (.msg gangHeader pl) with dst := 0 }] }
  match g with
  | some g => putGang s 0 3 g
  | none => s
def aGang : Gang :=
  { ctx := 0, start := 100, finish := 200, grace := 50, state := 2, table_ := 2 ^ 36, members := [0, 1], acks := [], deadline := 0,
    late := [], owed := [] }
def gangPayload (op : Nat) : List Dword := [BitVec.ofNat 64 (3 * 2 ^ 32 + op), if op = 1 then 100 else 0, 0x300000064,
    BitVec.ofNat 64 (2 ^ 36)]
theorem test_witness_Gangs : (∀ op ∈ [1, 2, 3, 4, 5], gangOk gangHeader (gangPayload op) = true ∧ gangOp (gangPayload op) = op) ∧
    Arrives (gangState (gangPayload 1) (some aGang)) 9 { aPacket (.msg gangHeader (gangPayload 1)) with dst := 0 } ∧
    hdrClass gangHeader = 16 ∧ gangAt (gangState (gangPayload 1) (some aGang)) 0 3 = some aGang := by
  refine ⟨?_, arrives_of (by decide), by decide, by decide⟩
  intro op h
  simp only [List.mem_cons, List.not_mem_nil, or_false] at h
  rcases h with h | h | h | h | h <;> subst h <;> decide
theorem test_witness_GangTimes : ∃ s, s = { gangState (gangPayload 1) (some aGang) with ftime := 250 } ∧
    gangAt s 0 3 = some aGang ∧ aGang.start ≤ fabricTime s 0 ∧ incumbentsIdle s 0 aGang.ctx = true ∧
    aGang.start + aGang.grace ≤ fabricTime s 0 ∧ aGang.finish ≤ fabricTime s 0 ∧ aGang.members.head? = some 0 ∧
    (∃ u, Made (writeH 0 (aGang.table_ + 8) aGang.ctx 3 8 1) (putGang (gangPre s 0 0 true) 0 3 { aGang with state := 3 }) () u) :=
  ⟨_, rfl, by decide, by decide, by decide, by decide, by decide, rfl, ⟨_, rfl⟩⟩
theorem test_witness_GangAcks : ∃ s g, g = { aGang with deadline := 240 } ∧
    s = { gangState (gangPayload 3) (some g) with ftime := 250 } ∧ gangAt s 0 3 = some g ∧ g.deadline ≠ 0 ∧
    g.deadline ≤ fabricTime s 0 ∧ (∀ m ∈ g.members, m ∉ g.acks) ∧
    (∃ u, Made (writeH 0 (g.table_ + 8) g.ctx 3 8 2) (gangCancel (putGang s 0 3 { g with deadline := 0 }) g.members g.ctx) () u) ∧
    0 ∈ workTiles s (BitVec.ofNat 11 0) :=
  ⟨_, _, rfl, rfl, by decide, by decide, by decide, by decide, ⟨_, rfl⟩, by decide⟩

theorem test_witness_BringUp : (pkgAt State.reset 0).present = true ∧ readyBit (pkgAt State.reset 0) 184 = false ∧
    184 ∉ (pkgAt State.reset 0).failed ∧ readyBit (pkgAt State.reset 0) 185 = false ∧ imageAccepted (pkgAt State.reset 0) = false ∧
    readyBit (pkgAt (placedGround State.reset) 0) (128 + 35) = true ∧ isGlobal (2 ^ 48 - 4) = true ∧
    (pkgAt (modPkg State.reset 0 (fun p => { p with recovery := true })) 0).recovery = true ∧
    (pkgAt State.reset 1).present = false := by
  refine ⟨?_, ?_, ?_, ?_, ?_, ?_, ?_, ?_, ?_⟩ <;> decide

/-- The header of a landing, whose bits 30 and 34..31 name its phase. -/
def landHeader (xf tag : Nat) : Dword := BitVec.ofNat 64 (9 * 2 ^ 46 + tag * 2 ^ 30 + xf * 2 ^ 27 + 2 * 2 ^ 25 + 2)
/-- A landing of three doublewords, its doubleword 0 given. -/
def landing (xf : Nat) (w : Dword) : Body := .msg (landHeader xf 0) [w, 1, 2, 3]
def landed (xf : Nat) (w : Dword) : State := wired (landing xf w)

/-- The last 24 bytes of bank 0 take three doublewords; eight bytes later they leave it. -/
theorem test_witness_Landings_plain :
    Lands (landed 0 0xFFE8) 9 (aPacket (landing 0 0xFFE8)) (landHeader 0 0) 0xFFE8 [1, 2, 3] 0 24 ∧ (landed 0 0xFFE8).stored ∧
    (∃ b, blockOf { Tile.reset with pqcfg := BitVec.ofNat 64 (2 ^ 63 + 6 * 2 ^ 40 + 0xFFC0) } (0xFFE8, 24) = some b) ∧
    Landed (landed 0 0xFFF0) 9 (aPacket (landing 0 0xFFF0)) (landHeader 0 0) 0xFFF0 [1, 2, 3] 0 ∧ landRecord 0xFFF0 = 0 ∧
    landOff 0xFFF0 / 2 ^ 16 ≠ (landOff 0xFFF0 + 8 * 3 - 1) / 2 ^ 16 ∧
    (hdrTag (landHeader 0 7)).getLsbD 4 = false :=
  ⟨⟨⟨taken_of rfl (by decide) (by decide), by decide, by decide⟩, by decide, by decide, by decide, by decide⟩,
      by show Memory.wf _ = true; decide,
    ⟨_, rfl⟩, ⟨taken_of rfl (by decide) (by decide), by decide, by decide⟩, by decide, by decide, by decide⟩
theorem test_witness_Landings_words :
    Lands (landed 3 0xFFE8) 9 (aPacket (landing 3 0xFFE8)) (landHeader 3 0) 0xFFE8 [1, 2, 3] 3 24 ∧
    Lands (landed 4 0x100) 9 (aPacket (landing 4 0x100)) (landHeader 4 0) 0x100 [1, 2, 3] 4 1 ∧
    (landOff 0x100 + 32 * (landRow 0x100 + 8 * 3 - 1) + landCol 0x100) / 2 ^ 16 = landOff 0x100 / 2 ^ 16 :=
  ⟨⟨⟨taken_of rfl (by decide) (by decide), by decide, by decide⟩, by decide, by decide, by decide, by decide⟩,
    ⟨⟨taken_of rfl (by decide) (by decide), by decide, by decide⟩, by decide, by decide, by decide, by decide⟩, by decide⟩
/-- Elements of 32 bits, into bank 0's elements. -/
theorem test_witness_Landings_elements : ∃ e, landElem (landed 1 0x600100) 0 0x600100 = some e ∧
    LandsElems (landed 1 0x600100) 9 (aPacket (landing 1 0x600100)) (landHeader 1 0) 0x600100 [1, 2, 3] 1 e ∧
    LandsElems (landed 2 0x600100) 9 (aPacket (landing 2 0x600100)) (landHeader 2 0) 0x600100 [1, 2, 3] 2 e :=
  ⟨_, rfl, ⟨rfl, ⟨⟨taken_of rfl (by decide) (by decide), by decide, by decide⟩, by decide, by decide, by decide, by decide⟩,
      by decide, by decide, by decide⟩,
    ⟨rfl, ⟨⟨taken_of rfl (by decide) (by decide), by decide, by decide⟩, by decide, by decide, by decide, by decide⟩,
        by decide, by decide, by decide⟩⟩
/-- A landing that only decrements the record at 0x400, which waits for two. -/
theorem test_witness_Landings_record : ∃ b s, b = Body.msg (landHeader 0 0) [BitVec.ofNat 64 (0x400 * 2 ^ 32)] ∧
    s = withRecord (wired b) 2 2 ∧ Landed s 9 (aPacket b) (landHeader 0 0) (BitVec.ofNat 64 (0x400 * 2 ^ 32)) [] 0 ∧
    landRecord (BitVec.ofNat 64 (0x400 * 2 ^ 32)) ≠ 0 ∧ 1 < lmGet s 0 (0x400 + 4) 4 ∧ s.stored :=
  ⟨_, _, rfl, rfl, ⟨taken_of rfl (by decide) (by decide), by decide, by decide⟩, by decide, by decide,
    by show Memory.wf _ = true; decide⟩

/-- A command at the head of the ring of a core. -/
def aCommand (i : Instr) (d a b : BitVec 256) (done : Nat) : Command :=
  { seq := 0, word := (wordOf i).setWidth 32, mapD := d, mapA := a, mapB := b, state := 1, kind := 0, addr := 0, elem := 0, sword := 0,
    origin := 0, uid := 1, slot := 0, ctx := 0, launch := 7, tag := 16, fnsel := 0x10387, args := [], done := done, got := [],
    outbox := [], notes := [], words := [], after := [], remote := none, window := none, unreported := false, held := false }
def withCommand (s : State) (core : Nat) (c : Command) : State := modCore s core (fun x => { x with ring := [c], nextSeq := 1 })
/-- Two N32 elements at an LM offset. -/
def twoWords32 (off : Nat) : BitVec 256 := BitVec.ofNat 256 (6 * 2 ^ 60 + off + 2 ^ 64)

theorem heads_of {s : State} {core : Nat} {c : Command} {i : Instr}
    (h : headCmd s core = some c ∧ startHeld s core c = false ∧ c.after.any (fun id => s.net.any (fun p => p.id == id)) = false)
    (w : taskWord c.word = some i) :
    Heads s core c i (modCmd s core c.seq (fun e => { e with state := 2 })) := ⟨h.1, fun _ => h.2, w, rfl⟩

theorem test_witness_EngineElements : ∃ c s, c = aCommand (.copy 0 0 2 0) (twoWords32 0x200) (twoWords32 0x100) 0 2 ∧
    s = withCommand (mapped (placedGround State.reset)) 4 c ∧
    Heads s 4 c (.copy 0 0 2 0) (modCmd s 4 0 (fun e => { e with state := 2 })) ∧ c.done = 1 + 1 ∧ 1 < (mapOf c.mapA).count ∧
    (mapOf c.mapD).bs = false ∧
    (∃ x u, Gives (readElem 4 (going c) (mapOf c.mapA) (mapOf c.mapA).col 1) (modCmd s 4 0 (fun e => { e with state := 2 })) x u) ∧
    (spotOf s 0 (mapOf c.mapD) (mapOf c.mapD).col ((mapOf c.mapD).indices 1)).place = .placed false 0 0x204 ∧
    placedCause s 0 false 0 0x204 = none :=
  ⟨_, _, rfl, rfl, heads_of (by decide) (by decide), rfl, by decide, by decide, ⟨_, _, rfl⟩, by decide, by decide⟩

theorem test_witness_EngineAccesses : ∃ c s, c = aCommand (.copy 0 0 2 0) 0 0 0 0 ∧ s = mapped (placedGround State.reset) ∧
    placeOf s (coreTile 4) 0xFFFF = .placed false 0 0xFFFF ∧ placedCause s c.ctx false 0 0xFFFF = none ∧
    placedCause (placedGround State.reset) c.ctx false 0 0x10000 = some causeProt ∧ placeOf s (coreTile 4) (2 ^ 36) = .global ∧
    (globalKey s 0 (2 ^ 36) 0 3 true).toOption = some (ddrKey 0 0x40000000) ∧
    (∀ w ∈ wordsOf (2 ^ 36) 4, isLost s (homeTile s 0 (2 ^ 36)) w = false) ∧ ddrWaits s 0 (2 ^ 36) 0 = false ∧
    (∀ w ∈ wordsOf (2 ^ 36) 4, ∀ x, l1Get s 4 w = some x → x.own ≠ .inFlight) ∧
    spoiltAt s (placeKey false 0 0xFFFF) 1 = false ∧ (∃ u, Made (writeH 0 (2 ^ 36) 0 3 4 7) s () u) :=
  ⟨_, _, rfl, rfl, by decide, by decide, by decide, by decide, by decide, by decide, by decide,
    fun w _ x h => by have h' : (none : Option L1Word) = some x := h; (cases h'), by decide, ⟨_, rfl⟩⟩

theorem test_witness_CommandEnds :
    (∃ c s, c = aCommand (.mzero 1 7 0) 0 0 0 0 ∧ s = withCommand (mapped (placedGround State.reset)) 6 c ∧
      Heads s 6 c (.mzero 1 7 0) (modCmd s 6 0 (fun e => { e with state := 2 })) ∧ cmdAt s 6 c.seq = some c ∧
      signalOf c.word = 7 ∧ semAt s 0 (8 + 7) ≠ 0xFFFF) ∧
    (∃ c s t, c = aCommand (.copy 0 0 2 0) (twoWords32 0x200) (BitVec.ofNat 256 (6 * 2 ^ 60 + 0x100)) 0 0 ∧
      s = withCommand (mapped (ground 4 t)) 4 c ∧ Heads s 4 c (.copy 0 0 2 0) (modCmd s 4 0 (fun e => { e with state := 2 })) ∧
      cmdAt s 4 c.seq = some c ∧ (mapOf c.mapA).ext ≠ (mapOf c.mapD).ext ∧ taskAt s (slotKey 4 0) = some t ∧ t.uid = c.uid) ∧
    headCmd State.reset 4 = none :=
  ⟨⟨_, _, rfl, rfl, heads_of (by decide) (by decide), by decide, by decide, by decide⟩,
    ⟨_, _, aTask [], rfl, rfl, heads_of (by decide) (by decide), by decide, by decide, by decide, rfl⟩, by decide⟩

theorem test_witness_JoinSteps :
    (∃ b s, b = Body.logEntry (2 ^ 36) 0 5 (2 ^ 36 + 0x400) 1 1 ∧ s = withWords (wired b) (List.replicate 8 0 ++ [2 ^ 36 + 0x800, 1, 0]) ∧
      Arrives s 9 (aPacket b) ∧ handlerFree s 2 = true ∧ (peek s 0 (2 ^ 36 + 72) 0 8 + 2 ^ 64 - peek s 0 (2 ^ 36 + 80) 0 8) % 2 ^ 64 = 1) ∧
    (∃ u, Made (addPair 0 0 3 (2 ^ 36) 0 [0x3F800000]) (mapped (placedGround State.reset)) () u) :=
  ⟨⟨_, _, rfl, rfl, arrives_of (by decide), by decide, by decide⟩, ⟨_, rfl⟩⟩

theorem test_witness_RemoteCommands : ∃ s pl, pl = [0x40000000000000, 0, 0, 0] ∧
    s = { wired (.msg (header 12) pl) with net := [{ aPacket (.msg (header 12) pl) with dst := 6 }] } ∧
    Taken s 9 { aPacket (.msg (header 12) pl) with dst := 6 } 12 (header 12) pl ∧ mcmdReason s 0 (header 12) pl = 1 :=
  ⟨_, _, rfl, rfl, taken_of rfl (by decide) (by decide), rfl⟩

theorem test_witness_MatrixAndStash :
    (∃ c s, c = { aCommand (.mma 0 0 0 1 0 2 1 0) 0 (twoWords32 0x100) (twoWords32 0x200) 5 with got := List.replicate 4 (numOfInt 1) } ∧
      s = withCommand (mapped (placedGround State.reset)) 6 c ∧
      Heads s 6 c (.mma 0 0 0 1 0 2 1 0) (modCmd s 6 0 (fun e => { e with state := 2 })) ∧ cmdAt s 6 c.seq = some c ∧
      c.done = (mapOf c.mapA).count + (mapOf c.mapB).count + 1 ∧ c.got.length = (mapOf c.mapA).count + (mapOf c.mapB).count) ∧
    (∃ c s, c = { aCommand (.stash 6 5 0) 0 0 0 0 with args := [0x200, 2 ^ 32 + 64] } ∧
      s = withCommand (modTile (mapped (placedGround State.reset)) 0 (fun x => { x with dray := [(0,
          { DrayCtx.reset with stashl := 0x1000 })] })) 4 c ∧
      Heads s 4 c (.stash 6 5 0) (modCmd s 4 0 (fun e => { e with state := 2 })) ∧ cmdAt s 4 c.seq = some c ∧
      (drayOf s 0 c.ctx).tags = [] ∧ (drayOf s 0 c.ctx).head + 32 + 64 ≤ (drayOf s 0 c.ctx).stashl.toNat) :=
  ⟨⟨_, _, rfl, rfl, heads_of (by decide) (by decide), by decide, by decide, by decide⟩,
    ⟨_, _, rfl, rfl, heads_of (by decide) (by decide), by decide, by decide, by decide⟩⟩

theorem test_witness_StepRunsDecoded : ∃ s t, s = placedGround (storePut (ground 0 t) 0x100 4 0x00C52001) ∧
    AtWord s 0 t (.add 0 6 5 4 0) ∧ tileRuns s (coreTile 0) = true ∧
    (∃ e buf, fetchTask s 0 t = .ok (e, buf) ∧ pendingTrap (.add 0 6 5 4 0) 0 t (enter s 0 e buf) = none) ∧
    (slotOrder (coreAt s 0) 0).find? (fun j => (taskAt s j).isSome) = some 0 :=
  ⟨_, aTask [1, 2, 3], rfl, ⟨by decide, rfl, rfl, by decide, rfl, rfl, by decide, ⟨by decide, by decide⟩, ⟨[], by rfl⟩⟩, by decide,
    ⟨_, _, rfl, rfl⟩, by decide⟩
/-! ### Words of spec/, decoded -/

theorem test_words : ∀ x ∈ sampleWords, taskWord x.1 = some x.2 := by decide
theorem test_stream_words : ∀ x ∈ sampleStream, streamInstr x.1 = some x.2 := by decide

/-- The words spec/ gives for BFX, CMP.GT, FCVT, FRND, FCMP, JAL. -/
theorem test_words_scalar : ∀ x ∈ ([(0x0C052025, .fcvt 0 3 0 5 4 0),
     (0x10273025, .fcvt 0 4 1 7 6 0),
     (0x8C052027, .frnd 2 3 5 4 0),
     (0x08A41029, .fcmpLt 5 4 0 2 0),
     (0x59052013, .bfx 11 8 5 4 0),
     (0x10C50817, .cmpGt 0 6 5 0 1 0),
     (0x00020041, .jal 64 0)] : List (Word × Instr)),
    taskWord x.1 = some x.2 := by decide

/-- The words spec/ gives for LDC.W.0, STC.W.1, AMO.FADD, AMO.MAXN.D, CAS.D, AMOC.FADD.2, FENCE.L.T, INVR, PUBR, PREF, CLBINV,
    VOLALLOC, VOLFREE. -/
theorem test_words_memory : ∀ x ∈ ([(0x24C53833, .amoFadd 0 6 5 7 0),
     (0x5CC53833, .amoMaxn 0 1 6 5 7 0),
     (0x04C53835, .cas 1 6 5 7 0),
     (0x2000003D, .fenceL 0 0),
     (0x06D4003D, .invr 22 20 0),
     (0x0AD4003D, .pubr 22 20 0),
     (0x1005003D, .pref 5 0),
     (0x1409003D, .clbinv 9 0),
     (0x09493837, .ldc 0 2 10 9 7 0),
     (0x19495839, .stc 1 2 10 9 11 0),
     (0x4549383B, .amocFadd 2 10 9 7 0),
     (0x04062865, .volalloc 6 5 0),
     (0x08C50065, .volfree 6 5 0)] : List (Word × Instr)),
    taskWord x.1 = some x.2 := by decide

/-- The words spec/ gives for SENDX.4, TREC, DEC.L, TARM, SPAWN, ELECT, TINFO, PHDECL, PHSTAT, CANCEL.PHASE, CTXKILL, FLQ,
    STASH, UNSTASH. -/
theorem test_words_tasks : ∀ x ∈ ([(0x00482849, .sendx 2 8 5 0),
     (0x00E6284D, .trec 7 6 5 0),
     (0x2404004D, .decL 4 0),
     (0x08A4004D, .tarm 5 4 0),
     (0x00C5204B, .spawn 6 5 4 0),
     (0x1000404D, .elect 0 8 0),
     (0x1407304D, .tinfo 7 6 0),
     (0x0004004F, .phdecl 4 0),
     (0x0406284F, .phstat 6 5 0),
     (0x0847004F, .cancelPhase 7 0),
     (0x0CC50065, .stash 6 5 0),
     (0x10053865, .unstash 5 7 0),
     (0x14C50065, .flq 6 5 0),
     (0x08050067, .ctxkill 5 0)] : List (Word × Instr)),
    taskWord x.1 = some x.2 := by decide

/-- The words spec/ gives for VGO, QTEST, QCLOSE, QBIND, SEMP, SEMV, RESIZE, TMGET, TMOFS. -/
theorem test_words_tiles : ∀ x ∈ ([(0x14040051, .vgo 4 0),
     (0x04051053, .tmget 5 2 0),
     (0x08061053, .tmofs 6 2 0),
     (0x00012851, .qtest 1 5 0),
     (0x04020051, .qclose 2 0),
     (0x0A810051, .qbind 20 1 0),
     (0x0C090051, .semp 9 0),
     (0x10030051, .semv 3 0),
     (0x00050065, .resize 5 0)] : List (Word × Instr)),
    taskWord x.1 = some x.2 := by decide

/-- The words spec/ gives for GATH.Q1, SCAT.ADD, CONVT.SR8.TH, COMPRESS.4IN8, BFPA, MZERO, MLDACC, MSTACC, MMA, MMAS.ACC.Q1. -/
theorem test_words_engines : ∀ x ∈ ([(0x00881057, .gath 1 1 0 2 0),
     (0x04091859, .scatAdd 0 1 2 3 0),
     (0x7000905D, .convt 1 6 0 1 2 0),
     (0x0C29205D, .compress 1 0 5 2 4 0),
     (0x00081063, .bfpa 0 1 0 2 0),
     (0x10000061, .mzero 1 0 0),
     (0x24018061, .mldacc 2 0 3 0),
     (0x08002061, .mstacc 0 0 4 0),
     (0x0408005F, .mma 0 0 0 1 0 1 0 0),
     (0x8019005F, .mma 1 0 0 0 0 3 2 0),
     (0xA82A005F, .mma 1 1 0 2 0 5 4 0),
     (0xC0B2285F, .mmas 1 0 0 0 1 6 4 5 0)] : List (Word × Instr)),
    taskWord x.1 = some x.2 := by decide

/-- The words spec/ gives for KAGG, KAGG.O.Q1, KBCAST, KISECT, KFOLD, KDIRTY. -/
theorem test_words_keyed : ∀ x ∈ ([(0x0008105B, .kagg 0 1 0 2 0),
     (0x2088105B, .kaggO 1 1 0 2 0),
     (0x0408185B, .kbcast 0 1 0 3 0),
     (0x0819205B, .kisect 0 3 2 4 0),
     (0x0C08105B, .kfold 0 1 2 0),
     (0x1001285B, .kdirty 0 2 5 0)] : List (Word × Instr)),
    taskWord x.1 = some x.2 := by decide

/-! ### Ill-formed instructions: each check of WellFormed refuses one -/

/-- R51: a shift amount of 32 or more in a .W form. -/
theorem test_wf_shift : (([.shli 1 32 5 4 0,
     .shri 1 33 5 4 0,
     .srai 1 63 5 4 0,
     .roti 1 32 5 4 0] : List Instr).all fun i => !i.wf) = true := by decide

/-- R51: a bit field past bit 63. -/
theorem test_wf_bit_field : (([.bfx 31 33 5 4 0,
     .bfi 1 63 5 4 0] : List Instr).all fun i => !i.wf) = true := by decide

/-- Comb 3. -/
theorem test_wf_comb : (([.cmpEq 0 6 5 3 1 0,
     .cmpNe 0 6 5 3 1 0,
     .cmpLt 0 6 5 3 1 0,
     .cmpLe 0 6 5 3 1 0,
     .cmpGt 0 6 5 3 1 0,
     .cmpGe 0 6 5 3 1 0,
     .cmpLtn 0 6 5 3 1 0,
     .cmpLen 0 6 5 3 1 0,
     .cmpGtn 0 6 5 3 1 0,
     .cmpGen 0 6 5 3 1 0,
     .cmpiEq 0 6 5 3 1 0,
     .cmpiNe 0 6 5 3 1 0,
     .cmpiLt 0 6 5 3 1 0,
     .cmpiLe 0 6 5 3 1 0,
     .cmpiGt 0 6 5 3 1 0,
     .cmpiGe 0 6 5 3 1 0,
     .cmpiLtn 0 6 5 3 1 0,
     .cmpiLen 0 6 5 3 1 0,
     .cmpiGtn 0 6 5 3 1 0,
     .cmpiGen 0 6 5 3 1 0,
     .fcmpEq 6 5 3 1 0,
     .fcmpNe 6 5 3 1 0,
     .fcmpLt 6 5 3 1 0,
     .fcmpLe 6 5 3 1 0,
     .fcmpUn 6 5 3 1 0,
     .fcmpOrd 6 5 3 1 0] : List Instr).all fun i => !i.wf) = true := by decide

/-- FCVT: equal types, two integer types, an unassigned mode. -/
theorem test_wf_fcvt : (([.fcvt 1 1 0 5 4 0,
     .fcvt 4 5 0 5 4 0,
     .fcvt 0 3 5 5 4 0] : List Instr).all fun i => !i.wf) = true := by decide

/-- LD with kind L, ST with kind A. -/
theorem test_wf_kind : (([.ld 0 0 3 3 5 4 0,
     .st 0 0 2 3 5 4 0] : List Instr).all fun i => !i.wf) = true := by decide

/-- A posted atomic with a destination. -/
theorem test_wf_posted : (([.amoAdd 1 0 6 5 4 0,
     .amoAnd 1 0 6 5 4 0,
     .amoOr 1 0 6 5 4 0,
     .amoXor 1 0 6 5 4 0,
     .amoMin 1 0 6 5 4 0,
     .amoMax 1 0 6 5 4 0,
     .amoMinn 1 0 6 5 4 0,
     .amoMaxn 1 0 6 5 4 0,
     .amoXchg 1 0 6 5 4 0,
     .amoFadd 1 6 5 4 0,
     .amoFmin 1 6 5 4 0,
     .amoFmax 1 6 5 4 0] : List Instr).all fun i => !i.wf) = true := by decide

/-- A loop of no halfwords, or counted by g0. -/
theorem test_wf_loop : (([.loop 0 5 0,
     .loop 4 0 0,
     .streamLoop 0 1 0] : List Instr).all fun i => !i.wf) = true := by decide

/-- A SEND class from 18 to 31. -/
theorem test_wf_send : (([.send 18 0 1 8 5 0,
     .send 31 0 1 8 5 0] : List Instr).all fun i => !i.wf) = true := by decide

/-- A queue bound outside g20 to g27. -/
theorem test_wf_qbind : (([.qbind 19 1 0,
     .qbind 28 1 0] : List Instr).all fun i => !i.wf) = true := by decide

/-- CONVT mode 7. -/
theorem test_wf_convt : (([.convt 0 7 0 1 2 0] : List Instr).all fun i => !i.wf) = true := by decide

/-- Element type 7. -/
theorem test_wf_vector_arith : (([.vadd 7 2 1 0 0,
     .vsub 7 2 1 0 0,
     .vmul 7 2 1 0 0,
     .vfma 7 2 1 0 0,
     .vfms 7 2 1 0 0] : List Instr).all fun i => !i.wf) = true := by decide

/-- VABS of U32. -/
theorem test_wf_vector_abs : (([.vabs 2 1 0 0] : List Instr).all fun i => !i.wf) = true := by decide

/-- Bitwise element types. -/
theorem test_wf_vector_logic : (([.vand 0 2 1 0 0,
     .vand 2 2 1 0 0,
     .vand 7 2 1 0 0,
     .vor 0 2 1 0 0,
     .vor 2 2 1 0 0,
     .vor 7 2 1 0 0,
     .vxor 0 2 1 0 0,
     .vxor 2 2 1 0 0,
     .vxor 7 2 1 0 0] : List Instr).all fun i => !i.wf) = true := by decide

/-- Shift element types. -/
theorem test_wf_vector_shift : (([.vshl 0 2 1 0 0,
     .vshl 2 2 1 0 0,
     .vshl 7 2 1 0 0,
     .vshr 0 2 1 0 0,
     .vshr 2 2 1 0 0,
     .vshr 7 2 1 0 0,
     .vsra 0 2 1 0 0,
     .vsra 2 2 1 0 0,
     .vsra 7 2 1 0 0] : List Instr).all fun i => !i.wf) = true := by decide

/-- Compare element types. -/
theorem test_wf_vector_compare : (([.vcmpEq 3 2 1 0 0,
     .vcmpNe 3 2 1 0 0,
     .vcmpLt 3 2 1 0 0,
     .vcmpLe 3 2 1 0 0,
     .vcmpGt 3 2 1 0 0,
     .vcmpGe 3 2 1 0 0,
     .vcmpUn 1 2 1 0 0,
     .vcmpOrd 1 2 1 0 0] : List Instr).all fun i => !i.wf) = true := by decide

/-- VEND with a semaphore it does not signal. -/
theorem test_wf_vend : (([.vend 0 3] : List Instr).all fun i => !i.wf) = true := by decide

/-- Reduction and scan element types. -/
theorem test_wf_vector_reduce : (([.vredAdd 3 1 0 0,
     .vredMin 7 1 0 0,
     .vredMax 3 1 0 0,
     .vredAnd 0 1 0 0,
     .vredOr 3 1 0 0,
     .vredXor 0 1 0 0,
     .vscanAdd 3 1 0 0,
     .vscanMin 7 1 0 0,
     .vscanMax 3 1 0 0,
     .vscanAnd 0 1 0 0,
     .vscanOr 3 1 0 0,
     .vscanXor 0 1 0 0] : List Instr).all fun i => !i.wf) = true := by decide

/-- VCVT: mode 5, equal types; VTHRESH: its type, its own destination. -/
theorem test_wf_vector_convert : (([.vcvt 5 0 7 1 2 0,
     .vcvt 0 3 3 1 2 0,
     .vthresh 1 1 2 3 0,
     .vthresh 0 3 2 3 0] : List Instr).all fun i => !i.wf) = true := by decide

/-- What stands beside the limits is well formed: SEND classes 17 and 32, a field that ends at bit 63, an amount of 31. -/
theorem test_wf_limits : (([.send 17 0 1 8 5 0, .send 32 0 1 8 5 0, .bfx 31 32 5 4 0, .bfi 0 63 5 4 0, .shli 1 31 5 4 0,
     .shli 0 63 5 4 0, .qbind 20 1 0, .qbind 27 1 0, .qbind 0 1 0, .vend 1 3, .fcvt 0 4 4 5 4 0] : List Instr).all Instr.wf) = true := by
  decide

/-! ### Further clauses -/

/-- A handle of package 1 in a task of package 0. -/
theorem test_witness_CellsElsewhere : ∃ op t, cellOp (.ldc 1 2 6 5 4 0) = some op ∧
    Executes (.ldc 1 2 6 5 4 0) op.guard (ground 0 t) t ∧ t.pend = .idle ∧ isGlobal (gGet t op.a).toNat = true ∧
    ¬ownVolume (ground 0 t) (gGet t op.a) :=
  ⟨_, aTask [0, 2 ^ 47 + 2 ^ 37, 0], rfl, executes_of (by decide), rfl, by decide, by unfold ownVolume; decide⟩

/-- 2049 is halfway between two numbers of F16 and goes to the even one; 2^17 is past its largest number. -/
theorem test_witness_RoundsToGrid : named f16 ∧
    roundedOn .rne false (magAt f16 2049 0 / stepAt f16 2049 0) (magAt f16 2049 0 % stepAt f16 2049 0) (stepAt f16 2049 0) 1024 ∧
    inLeast f16 2049 0 1024 ≤ largest f16 ∧ magAt f16 2049 0 % stepAt f16 2049 0 ≠ 0 ∧
    roundedOn .rtz true (magAt f16 1 17 / stepAt f16 1 17) (magAt f16 1 17 % stepAt f16 1 17) (stepAt f16 1 17) 1024 ∧
    largest f16 < inLeast f16 1 17 1024 :=
  ⟨Or.inr (Or.inl rfl), ⟨by decide, by decide, by decide⟩, by decide, by decide, rfl, by decide⟩

/-- 2.5 rounds up to 3 in a signed byte; 300 and -300 saturate. -/
theorem test_witness_RoundsToIntegers :
    roundedOn .rup false (5 * 2 ^ ((-1 : Int) - min (-1) 0).toNat / 2 ^ (0 - min (-1 : Int) 0).toNat)
      (5 * 2 ^ ((-1 : Int) - min (-1) 0).toNat % 2 ^ (0 - min (-1 : Int) 0).toNat) (2 ^ (0 - min (-1 : Int) 0).toNat) 3 ∧
    roundedOn .rtz true (300 * 2 ^ ((0 : Int) - min 0 0).toNat / 2 ^ (0 - min (0 : Int) 0).toNat)
      (300 * 2 ^ ((0 : Int) - min 0 0).toNat % 2 ^ (0 - min (0 : Int) 0).toNat) (2 ^ (0 - min (0 : Int) 0).toNat) 300 ∧
    (-300 : Int) < -(2 ^ (8 - 1)) ∧ (2 ^ (8 - 1) - 1 : Int) < 300 ∧ -(2 ^ (8 - 1)) ≤ (3 : Int) ∧ (3 : Int) ≤ 2 ^ (8 - 1) - 1 :=
  ⟨rfl, rfl, by decide, by decide, by decide, by decide⟩

theorem test_witness_FloatSpecials : signedAt false 1 0 0 + signedAt true 1 0 0 = 0 ∧ signedAt false 1 0 0 + signedAt true 2 0 0 ≠ 0 ∧
    Machine.Num.inf true ≠ .nan := by decide

/-- Three elements of F16, the largest magnitude 6; one element of U8 that is negative. -/
theorem test_witness_BlockScales : namedElem (.flt f16) ∧
    (∀ x ∈ [Machine.Num.fin false 3 1, .fin true 1 0, .fin false 0 5], ∃ sg m n, x = .fin sg m n ∧ (m = 0 ∨ n + Nat.log2 m ≤ 2)) ∧
    (∃ sg m n, Machine.Num.fin sg m n ∈ [Machine.Num.fin false 3 1, .fin true 1 0, .fin false 0 5] ∧ m ≠ 0 ∧ n + Nat.log2 m = 2) ∧
    (7 : Byte) ≠ 0xFF ∧ elemVal (.flt f16) 0x3C00 = .fin false 1024 (-10) :=
  ⟨Or.inr (Or.inl rfl), by
    intro x h
    simp only [List.mem_cons, List.not_mem_nil, or_false] at h
    rcases h with rfl | rfl | rfl
    · exact ⟨_, _, _, rfl, by decide⟩
    · exact ⟨_, _, _, rfl, by decide⟩
    · exact ⟨_, _, _, rfl, by decide⟩, ⟨false, 3, 1, by decide, by decide, by decide⟩, by decide, by decide⟩

/-- A task of the Press whose g20 is bound to queue 1, whose entries are given. -/
def boundTask : Task := { aTask [3, 5] with
  binds := [(1, 20)] }
def boundState (l : List Dword) (closed : BitVec 8) : State :=
  modTile (ground 6 boundTask) 0 (fun x => { x with
    queues := x.queues.set 1 l
    qclosed := closed })
theorem bound_of {i : Instr} {g : BitVec 4} {s : State} {t : Task} {q r : Nat}
    (h : hereTask s = some t ∧ (coreNum (hereCore s) = 6 ∧ s.here % 16 < 4) ∧ checks i t (coreNum (hereCore s)) = none ∧
      consumesSpoilt i g t = false ∧ guardHolds t g = true ∧ (t.binds = [(q, r)] ∧ q < 8 ∧ 0 < r ∧ r < 32) ∧ t.pend = .idle) :
    ExecutesBound i g s t q r := ⟨h.1, h.2.1, h.2.2.1, h.2.2.2.1, h.2.2.2.2.1, h.2.2.2.2.2.1, h.2.2.2.2.2.2⟩
/-- g20 as a source, with an entry, with none and closed; as a destination, with room and full. -/
theorem test_witness_BoundQueues : ∃ op op', intOp (.add 0 20 5 4 0) = some op ∧ intOp (.add 0 6 5 20 0) = some op' ∧
    (20 ∈ gSources (.add 0 20 5 4 0) ∨ 20 ∈ gSources (.add 0 6 5 20 0)) ∧
    (20 ∉ gSources (.add 0 20 5 4 0) ∨ 20 ∉ gSources (.add 0 6 5 20 0)) ∧
    ExecutesBound (.add 0 20 5 4 0) op.guard (boundState [7, 8] 0) boundTask 1 20 ∧
    ExecutesBound (.add 0 6 5 20 0) op'.guard (boundState (List.replicate 16 0) 0) boundTask 1 20 ∧
    QueueHolds (boundState [7, 8] 0) 1 [7, 8] false ∧ QueueHolds (boundState [] 2) 1 [] true ∧
    QueueHolds (boundState (List.replicate 16 0) 0) 1 (List.replicate 16 0) false ∧
    Quiet (boundState [7, 8] 0) boundTask ∧ (op.dest.toNat = 20 ∨ op'.dest.toNat = 20) :=
  ⟨_, _, rfl, rfl, by decide, by decide, bound_of (by decide), bound_of (by decide), ⟨by decide, by decide, by decide⟩,
    ⟨by decide, by decide, by decide⟩, ⟨by decide, by decide, by decide⟩, quiet_of (by decide), by decide⟩

/-- A plain grant of ground that keeps its context: a weight given anew, and a slot given up. -/
theorem test_witness_GrantGood : ∃ s, s = mapped (ground 0 (aTask [])) ∧
    GrantGood s (aTask []) 0 0 (grantAt s (hereTile s) 0) (written (grantAt s (hereTile s) 0) 0 (2 ^ 63 + 5 * 2 ^ 44 + 2 ^ 32 - 1)) ∧
    ¬valid (written (grantAt s (hereTile s) 0) 0 0) ∧
    GrantGood s (aTask []) 0 0 (grantAt s (hereTile s) 0) (written (grantAt s (hereTile s) 0) 0 0) ∧
    ¬GrantGood s (aTask []) 1 2 (grantAt s (hereTile s) 1) (written (grantAt s (hereTile s) 1) 2 1) :=
  ⟨_, rfl,
    { reserved := by decide
      own := ⟨fun _ => Or.inl rfl, fun _ => Or.inl rfl⟩
      stack := fun _ => by unfold areaIn; decide
      tables := fun _ => by unfold areaIn; decide
      alone := by unfold valid; decide
      direct := by decide
      weight := fun _ => by decide
      keeps := fun _ _ => Or.inr ⟨by decide, by decide⟩ },
    by unfold valid; decide,
    { reserved := by decide
      own := ⟨fun _ => Or.inl rfl, fun _ => Or.inl rfl⟩
      stack := fun _ => by unfold areaIn; decide
      tables := fun _ => by unfold areaIn; decide
      alone := by unfold valid; decide
      direct := by decide
      weight := fun h => absurd h (by unfold valid; decide)
      keeps := fun h => absurd h (by unfold valid; decide) },
    fun h => absurd ⟨by decide, by decide⟩ (h.alone 0 (by decide) (by decide) (by unfold valid; decide) 48 (by decide))⟩

/-- The grant is made anew with RST; nothing of its save area lies anywhere but in mapped memory. -/
theorem test_witness_GrantRestored : ∃ o t s, t = aTask [2 ^ 63 + 2 ^ 44 + 2 ^ 42 + 2 ^ 32 - 1] ∧
    s = modTile (mapped (ground 0 t)) 0 (fun x => { x with gsave := 2 ^ 36 }) ∧ csrOp (.csrw 0x081 4 0) = some o ∧ Reaches o s t ∧
    (tileAt s (hereTile s)).gsel = 0 ∧
    GrantGood s t 0 0 (grantAt s (hereTile s) 0) (written (grantAt s (hereTile s) 0) 0 (gGet t 4)) ∧ (gGet t 4).getLsbD 42 = true ∧
    valid (written (grantAt s (hereTile s) 0) 0 (gGet t 4)) ∧ ddrAll s (homePkg 0 (2 ^ 36)) = true ∧ s.stored ∧
    (∀ e ∈ s.tiles, e.2.registry = []) ∧ ctxLive s 0 = true ∧ 0#11 ∉ (tileAt s (hereTile s)).awayKilled ∧
    (tileAt s (hereTile s)).cancels = [] :=
  ⟨_, _, _, rfl, rfl, rfl, ⟨executes_of (by decide), by decide⟩, by decide,
    { reserved := by decide
      own := ⟨fun _ => Or.inl rfl, fun _ => Or.inl rfl⟩
      stack := fun _ => by unfold areaIn; decide
      tables := fun _ => by unfold areaIn; decide
      alone := by unfold valid; decide
      direct := by decide
      weight := fun _ => by decide
      keeps := fun _ _ => Or.inr ⟨by decide, by decide⟩ },
    by decide, by unfold valid; decide, by decide, by show Memory.wf _ = true; decide, by decide, by decide, by decide, by decide⟩

/-- A core's refusal of a SPAWN runs the routine inline: the reply is 1. -/
theorem test_witness_Spawns_refused : ∃ t s r e, s = withRoutine (ground 0 t) 0x8000000000000400 ∧ Executes (.spawn 5 10 4 0) 0 s t ∧
    coreOfFabric (gGet t 10).toNat ≠ hereCore s ∧ groupFailed s (coreTile (coreOfFabric (gGet t 10).toNat)) = false ∧
    t.pend.log.lookup (.spawn (coreOfFabric (gGet t 10).toNat) (gGet t 5).toNat) = some r ∧ r.val = 1 ∧
    routineEntry s (hereTile s) t.ctx (gGet t 5).toNat = some e ∧ mayFallBack s t e :=
  ⟨gSet (answered (aTask [0, 40]) (.spawn 1 40) (Reply.value 1)) 10 1, _, Reply.value 1, 0x8000000000000400, rfl,
    executes_of (by decide), by decide, by decide, by decide, rfl, by decide, by decide, by decide, by decide, rfl, by decide,
    by decide, by decide, by decide, by decide, by decide, by decide, by show Memory.wf _ = true; decide, fun n _ _ => List.not_mem_nil, fun _ _ => rfl⟩

/-- Four points, the oldest of which waits for a store. -/
theorem test_witness_Fences_full : ∃ t, t = { aTask [2 ^ 36, 4] with
      pubs := List.replicate 4 { waits := [3], refused := false, lost := [] } } ∧ Executes (.pubr 5 4 0) 0 (ground 0 t) t ∧
    (gGet t 5).toNat ≤ 2 ^ 20 ∧ gGet t 5 ≠ 0#64 ∧ 4 ≤ t.pubs.length ∧ (∀ p ∈ t.pubs.head?, p.waits ≠ []) :=
  ⟨_, rfl, executes_of (by decide), by decide, by decide, by decide, by decide⟩

/-- The frame's pc is odd. -/
theorem test_witness_TasksEnd_odd : ∃ v s, s = lmPut (ground 0 v) 0 (2 ^ 16 - 32) 8 0x101 ∧ Executes (.tend 0) 0 s v ∧ v.inl = none ∧
    v.fbDest = [4] ∧ v.fbFrame.toNat = 2 ^ 16 - 32 ∧ (∀ n, n < 32 → bankHeld s 0 v.ctx (2 ^ 16 - 32 + n) = true) ∧
    (tileAt s 0).fenced = false ∧ spoiltAt s (lmKey 0 (2 ^ 16 - 32)) 32 = false ∧
    (∀ k, k < 4 → ownOut s v 2 (2 ^ 16 - 32 + 8 * k) 8 = false) ∧ cellsGet s.mem (lmKey 0 (2 ^ 16 - 32)) 8 % 2 = 1 :=
  ⟨{ aTask [] with
    fbDest := [4]
    fbFrame := 2 ^ 16 - 32 }, _, rfl, executes_of (by decide), rfl, rfl, by decide, by decide, by decide, by decide,
    fun _ _ => rfl, by decide⟩

/-- Queue 2 is full, and queue 0 closed and empty. -/
theorem test_witness_VectorControl_full : ∃ s, s = modTile streaming 0 (fun x => { x with qclosed := 1 }) ∧ Streams s 0 placedStream ∧
    16 ≤ (queueAt s 0 2).length ∧ queueAt s 0 0 = [] ∧ queueClosed s 0 0 = true :=
  ⟨_, rfl, ⟨by decide, by decide⟩, by decide, by decide, by decide⟩

/-- A message of a routine's class to a host behind a link that is up. -/
theorem test_witness_MessagesTaken_host : ∃ s p, p = { aPacket (.msg (header 40) [1]) with dst := coreKey (tileKey 5 0) 0 } ∧
    s = { wired p.body with
      pkgs := [(0, linkedPkg)]
      net := [p]
      launches := [(5, { ended with counter := 1 })] } ∧
    Arrives s 9 p ∧ 32 ≤ hdrClass (header 40) ∧ pkgPresent s (tilePkg (coreTile p.dst)) = false ∧
    pkgPresent s (tilePkg (slotTile p.src)) = true ∧ tget s.launches (launchKey 0 5) = some { ended with counter := 1 } :=
  ⟨_, _, rfl, rfl, arrives_of (by decide), by decide, by decide, by decide, by decide⟩

/-- A root in a frame that nothing uses, one that a page lies in, and bits [8:0] of TVEC. -/
theorem test_witness_FirmwareCalls_roots : ∃ t s, s = mapped (ground 0 t) ∧ Calling 6 0 s t 10 0 ∧ rootFree s (gGet t 6).toNat ∧
    ¬rootFree { s with frames := [(3, { dirty := false, part := 0, vpn := 0 })] } (gGet t 6).toNat ∧
    (∀ c ∈ s.ctxs, c.2.root ≠ (gGet t 6).toNat) ∧ (gGet t 6).toNat % 4096 = 0 ∧
    ∃ v, Calling 6 0 (mapped (ground 0 v)) v 10 0 ∧ (gGet v 7).toNat % 512 ≠ 0 :=
  ⟨calling 6 [2 ^ 11 - 1, 1, 0x3000, 0x200], _, rfl, calling_of (by decide) ⟨_, rfl⟩ (by decide), by unfold rootFree; decide,
    by unfold rootFree; decide, by decide, by decide, calling 6 [2 ^ 11 - 1, 1, 0x3000, 0x100],
    calling_of (by decide) ⟨_, rfl⟩ (by decide), by decide⟩

theorem coordinated_of {s : State} {p : Packet} {h : Dword} {pl : List Dword} {op : Nat} (hp : p.body = .msg h pl)
    (a : arriving s 9 = some p ∧ stranded s p = false ∧ ddrHolds s p = false ∧ resizeHolds s p.body = false ∧
      ownCredit s p = true ∧ groupReady s (coreTile p.dst) = true)
    (c : hdrClass h = 16 ∧ gangOk h pl = true ∧ gangOp pl = op)
    (d : p.dst = coreKey (tileKey (tilePkg (coreTile p.dst)) 0) 0 ∧
      hostListed s (tilePkg (coreTile p.dst)) p.src (hdrCtx h).toNat = true ∧ ctxLive s (hdrCtx h).toNat = true)
    (e : spanWaits s (tilePkg (coreTile p.dst)) (gangTab pl) 8216 (gangCtx pl) = false) : Coordinated s 9 p h pl op :=
  ⟨arrives_of a, Or.inl hp, c.1, c.2.1, c.2.2, d.1, d.2.1, d.2.2, e⟩
/-- A slice for a context whose grant on the tile is not valid yet, and a message to another core than 0. -/
theorem test_witness_Gangs_coordinated :
    (∀ op ∈ [1, 2, 3, 4, 5], Coordinated (gangState (gangPayload op) (some aGang)) 9
      { aPacket (.msg gangHeader (gangPayload op)) with dst := 0 } gangHeader (gangPayload op) op) ∧
    (∃ x, (tileAt (gangState (gangPayload 1) none) 0).grants[1]? = some x ∧ grantValid x = false ∧ (grantCtx x).toNat = 0) ∧
    GangTile (gangState (gangPayload 1) none) 0 0 0 ∧
    (∃ s p, p = aPacket (.msg gangHeader (gangPayload 5)) ∧ s = wired p.body ∧ Arrives s 9 p ∧
      p.dst ≠ coreKey (tileKey (tilePkg (coreTile p.dst)) 0) 0) ∧
    (∃ m, gangMembers (storePut (gangState (gangPayload 2) (some aGang)) (ddrKey 0 0x40000000) 8 1) 0 0 (2 ^ 36) = [m]) := by
  refine ⟨?_, ⟨_, rfl, by decide, by decide⟩, ⟨by decide, ⟨_, List.mem_cons_self .., by decide, by decide⟩, by decide⟩,
    ⟨_, _, rfl, rfl, arrives_of (by decide), by decide⟩, ⟨_, by rfl⟩⟩
  intro op h
  simp only [List.mem_cons, List.not_mem_nil, or_false] at h
  rcases h with h | h | h | h | h <;> subst h <;> exact coordinated_of rfl (by decide) (by decide) (by decide) (by decide)

/-- The firmware runs; an error at LM offset 4, one in g5 of slot 0, one elsewhere; two links, one of them the last. -/
theorem test_witness_Errors : readyBit (pkgAt (placedGround State.reset) 0) 185 = true ∧
    isGlobal 0x800000004 = false ∧ faultyAt 0 0x800000004 = .word 4 ∧ faultyAt 0 0xC00000005 = .register 0 5 ∧
    faultyAt 0 0x4 = .other ∧ (tileAt (ground 0 (aTask [])) 0).fenced = false ∧ taskAt (ground 0 (aTask [])) 0 = some (aTask []) ∧
    (pkgAt (ground 0 (aTask [])) 0).gangs = [] ∧
    (∃ l, l < 36 ∧ l ≠ 0 ∧ readyBit (pkgAt (placedGround State.reset) 0) (128 + l) = true) ∧
    (∃ s p, s = { placedGround State.reset with
        pkgs := [(0, { linkedPkg with failed := (List.range 35).map (fun l => 129 + l) })]
        net := [p] } ∧ p = { aPacket (.msg (header 40) [1]) with dst := coreKey (tileKey 5 0) 0 } ∧ pkgPresent s 0 = true ∧
      (∀ l, l < 36 → l ≠ 0 → readyBit (pkgAt s 0) (128 + l) = false ∧ 128 + l ∈ (pkgAt s 0).failed) ∧
      tilePkg (slotTile p.src) ≠ tilePkg (coreTile p.dst)) :=
  ⟨by decide, by decide, by decide, by decide, by decide, by decide, by decide, by decide, ⟨1, by decide, by decide, by decide⟩,
    ⟨_, _, rfl, rfl, by decide, by decide, by decide⟩⟩

/-! Commands as they run -/

/-- The machine with one command at the head of a core's ring, and its task in a slot of the core. -/
def cmdGround (core : Nat) (c : Command) : State :=
  withCommand (mapped (ground core (aTask []))) core c
/-- The state as the head command runs. -/
def begun (core : Nat) (c : Command) : State := modCmd (cmdGround core c) core c.seq (fun e => { e with state := 2 })

/-- Words that hit, a page without a translation, a lost word, a poisoned one and a sound one. -/
theorem test_witness_EngineAccesses_global : ∃ c s, c = aCommand (.copy 0 0 2 0) 0 0 0 0 ∧ s = mapped (placedGround State.reset) ∧
    (∀ w ∈ wordsOf (2 ^ 36) 4, (l1Hit (modCore s 4 (fun x => { x with
      l1 := [(2 ^ 36, word 5 .clean)]
      grants := [(2 ^ 36, 0)] })) 4 c.ctx.toNat w).isSome = true) ∧
    (∃ w ∈ wordsOf (2 ^ 36) 4, l1Hit s 4 c.ctx.toNat w = none) ∧
    (∃ e, globalKey s (corePkg 4) (2 ^ 40) c.ctx.toNat (ctxPriv s c.ctx.toNat) false = .error e ∧ e.toNat = 0x06) ∧ coreNum 4 = 4 ∧
    (∃ k, globalKey s (corePkg 4) (2 ^ 36) c.ctx.toNat (ctxPriv s c.ctx.toNat) false = .ok k) ∧
    ddrWaits s (corePkg 4) (2 ^ 36) c.ctx.toNat = false ∧
    (∀ w ∈ wordsOf (2 ^ 36) 4, isLost s (homeTile s 0 (2 ^ 36)) w = false ∧ isPoisoned s (homeTile s 0 (2 ^ 36)) w = false) ∧
    (∃ w ∈ wordsOf (2 ^ 36) 4, isLost (modTile s (homeTile s 0 (2 ^ 36)) (fun x => { x with lostWords := [2 ^ 36] }))
      (homeTile s 0 (2 ^ 36)) w = true) ∧
    (∃ w ∈ wordsOf (2 ^ 36) 4, isPoisoned (modTile s (homeTile s 0 (2 ^ 36)) (fun x => { x with poisoned := [2 ^ 36] }))
      (homeTile s 0 (2 ^ 36)) w = true) :=
  ⟨_, _, rfl, rfl, by decide, ⟨2 ^ 36, by decide, by decide⟩, ⟨_, rfl, by decide⟩, rfl, ⟨_, rfl⟩, by decide, by decide,
    ⟨2 ^ 36, by decide, by decide⟩, ⟨2 ^ 36, by decide, by decide⟩⟩

/-- An element of 32 bits at LM offset 0x200, and maps of two ranks. -/
theorem test_witness_ElementsWritten : ∃ c p, c = aCommand (.copy 0 0 2 0) (twoWords32 0x200) (BitVec.ofNat 256 (6 * 2 ^ 60 + 0x100)) 0 0 ∧
    p = spotOf (cmdGround 4 c) 0 (mapOf c.mapD) false [0] ∧ p.place = .placed false 0 0x200 ∧
    placeOf (cmdGround 4 c) (coreTile 4) p.va = p.place ∧ placedCause (cmdGround 4 c) c.ctx false 0 0x200 = none ∧ 8 ≤ p.bits ∧
    p.va % (p.bits / 8) = 0 ∧ (bankReg (cmdGround 4 c) 0 0x200).getLsbD 55 = false ∧
    Heads (cmdGround 4 c) 4 c (.copy 0 0 2 0) (begun 4 c) ∧ shapeBad (.copy 0 0 2 0) (mapOf c.mapD) (mapOf c.mapA) (mapOf c.mapB) ∧
    cmdAt (cmdGround 4 c) 4 c.seq = some c ∧ taskAt (cmdGround 4 c) (slotKey 4 0) = some (aTask []) ∧ (aTask []).uid = c.uid :=
  ⟨_, _, rfl, rfl, by decide, by decide, by decide, by decide, by decide, by decide, heads_of (by decide) (by decide),
    Or.inr (by decide), by decide, by decide, rfl⟩

/-- Element 1 of CONVT.SR8, of the last of four elements of COMPRESS, and the first block of BFPA. -/
theorem test_witness_ConversionsRun :
    (∃ c s1 x u1 u2, c = aCommand (.convt 1 6 0 1 2 0) (twoWords32 0x200) (twoWords32 0x100) 0 2 ∧ s1 = begun 4 c ∧
      Heads (cmdGround 4 c) 4 c (.convt 1 6 0 1 2 0) s1 ∧ ConvtAs 6 .sr8 ∧ c.done = 1 + 1 ∧ 1 < (mapOf c.mapA).count ∧
      (mapOf c.mapD).bs = false ∧ Gives (readElem 4 (going c) (mapOf c.mapA) (mapOf c.mapA).col 1) s1 x u1 ∧
      Gives (storeAt 4 (going c) (mapOf c.mapD).fb 1 .sr8 true false
        (spotOf u1 (coreTile 4) (mapOf c.mapD) (mapOf c.mapD).col ((mapOf c.mapD).indices 1)) x) u1 () u2) :=
  ⟨_, _, _, _, _, rfl, rfl, heads_of (by decide) (by decide), by unfold ConvtAs; simp, rfl, by decide, by decide, rfl, rfl⟩

theorem test_witness_ConversionsRun_compress :
    (∃ c s1 x u1 u2 u3, c = { aCommand (.compress 0 0 1 0 2 0) (twoWords32 0x200) (BitVec.ofNat 256 (6 * 2 ^ 60 + 0x100 + 3 * 2 ^ 64))
          (BitVec.ofNat 256 (6 * 2 ^ 60 + 0x300)) 4 with got := [numOfInt 3, numOfInt 1, numOfInt (-2)] } ∧ s1 = begun 4 c ∧
      Heads (cmdGround 4 c) 4 c (.compress 0 0 1 0 2 0) s1 ∧ c.done = 3 + 1 ∧ 3 < (mapOf c.mapA).count ∧
      Gives (readElem 4 (going c) (mapOf c.mapA) (mapOf c.mapA).col 3) s1 x u1 ∧ 3 % 4 = 4 - 1 ∧ c.got.length = 4 - 1 ∧
      (mapOf c.mapD).bs = false ∧ Keeps (c.got ++ [x]) 2 [0, 2] ∧
      PutsAll 4 c (mapOf c.mapD) ([0, 2].zipIdx.map (fun y => (3 / 4 * 2 + y.2, (c.got ++ [x]).getD y.1 .nan))) u1 u2 ∧
      Puts 4 c (mapOf c.mapB) 0 (numOfInt (metaElem 2 [0, 2])) u2 u3) := by
  refine ⟨_, _, _, _, _, _, rfl, rfl, heads_of (by decide) (by decide), rfl, by decide, rfl, rfl, rfl, by decide, ?_,
    ⟨_, rfl, _, rfl, rfl⟩, rfl⟩
  unfold Keeps Outranks
  decide

theorem test_witness_ConversionsRun_bfpa :
    (∃ c s1 xs ys u1 u2 u3, c = aCommand (.bfpa 0 1 0 2 0)
          (BitVec.ofNat 256 (6 * 2 ^ 60 + 0x200 + 2 ^ 64 + 2 ^ 52 + 0x60 * 2 ^ 192)) (twoWords32 0x100) (twoWords32 0x180) 1 ∧
      s1 = begun 4 c ∧ Heads (cmdGround 4 c) 4 c (.bfpa 0 1 0 2 0) s1 ∧ c.done = 0 + 1 ∧ 0 < 1 * ((mapOf c.mapD).count / (mapOf c.mapD).ext0) ∧
      ReadsAll 4 c (mapOf c.mapA) 0 xs s1 u1 ∧ ReadsAll 4 c (mapOf c.mapB) 0 ys u1 u2 ∧ xs.length = 2 ∧ ys.length = 2 ∧
      BlockPuts 4 c (mapOf c.mapD) 0 ((List.range xs.length).map (fun i => numAdd (xs.getD i .nan) (ys.getD i .nan))) u2 u3) :=
  ⟨_, _, [_, _], [_, _], _, _, _, rfl, rfl, heads_of (by decide) (by decide), rfl, by decide, ⟨_, rfl, _, rfl, rfl⟩,
    ⟨_, rfl, _, rfl, rfl⟩, rfl, rfl, ⟨_, rfl, by rfl, _, rfl, by rfl, _, rfl, by rfl⟩⟩

/-- MMAS on the Press: a metadata element, a value and two of B, read in turn; MLDACC and MSTACC of two elements. -/
theorem test_witness_AccumulatorsRun :
    (∃ c, c = { aCommand (.mmas 1 0 0 1 0 2 1 3 0) (BitVec.ofNat 256 (6 * 2 ^ 60 + 0x300)) (BitVec.ofNat 256 (6 * 2 ^ 60 + 0x100 + 2 ^ 64))
          (twoWords32 0x200) 6 with got := List.replicate 5 (numOfInt 1) } ∧
      Heads (cmdGround 6 c) 6 c (.mmas 1 0 0 1 0 2 1 3 0) (begun 6 c) ∧ cmdAt (cmdGround 6 c) 6 c.seq = some c ∧ c.remote = none ∧
      c.done = (mapOf c.mapD).count + (mapOf c.mapA).count + (mapOf c.mapB).count + 1 ∧
      c.got.length = (mapOf c.mapD).count + (mapOf c.mapA).count + (mapOf c.mapB).count) ∧
    (∃ c x s2, c = aCommand (.mmas 1 0 0 1 0 2 1 3 0) (BitVec.ofNat 256 (6 * 2 ^ 60 + 0x300)) (twoWords32 0x100) (twoWords32 0x200) 1 ∧
      Heads (cmdGround 6 c) 6 c (.mmas 1 0 0 1 0 2 1 3 0) (begun 6 c) ∧ 0 < (mapOf c.mapD).count ∧
      Gives (readElem 6 (going c) (mapOf c.mapD) false 0) (begun 6 c) x s2 ∧
      (numNat x = none ∨ ∃ v, numNat x = some v ∧ (2 ^ (2 * 2) ≤ v ∨ ∃ y, y + 1 < 2 ∧ metaIndex 2 v (y + 1) ≤ metaIndex 2 v y)) ∧
      taskAt (cmdGround 6 c) (slotKey 6 0) = some (aTask []) ∧ (aTask []).uid = c.uid) ∧
    (∃ c x u1, c = aCommand (.mldacc 1 0 2 0) 0 (twoWords32 0x100) 0 2 ∧ Heads (cmdGround 6 c) 6 c (.mldacc 1 0 2 0) (begun 6 c) ∧
      c.done = 1 + 1 ∧ 1 < (mapOf c.mapA).count ∧ Gives (readElem 6 (going c) (mapOf c.mapA) (mapOf c.mapA).col 1) (begun 6 c) x u1) ∧
    (∃ c, c = { aCommand (.mldacc 1 0 2 0) 0 (twoWords32 0x100) 0 3 with got := [numOfInt 1, numOfInt 2] } ∧
      Heads (cmdGround 6 c) 6 c (.mldacc 1 0 2 0) (begun 6 c) ∧ c.done = (mapOf c.mapA).count + 1 ∧ c.got.length = (mapOf c.mapA).count) ∧
    (∃ c u1, c = aCommand (.mstacc 1 0 2 0) (twoWords32 0x200) 0 0 2 ∧ Heads (cmdGround 6 c) 6 c (.mstacc 1 0 2 0) (begun 6 c) ∧
      c.done = 1 + 1 ∧ 1 < (mapOf c.mapD).count ∧ (mapOf c.mapD).bs = false ∧
      zGet (begun 6 c) 0 1 = 0#131072 ∧ Puts 6 c (mapOf c.mapD) 1 (f32Val 0) (begun 6 c) u1) ∧
    (∃ c, c = aCommand (.mstacc 1 0 2 0) (twoWords32 0x200) 0 0 0 ∧ Heads (cmdGround 6 c) 6 c (.mstacc 1 0 2 0) (begun 6 c) ∧
      (mapOf c.mapD).rank ≤ 2 ∧ (mapOf c.mapD).ext0 ≤ 64 ∧ (mapOf c.mapD).ext1 ≤ 64 ∧
      widthsOk (begun 6 c) 6 (mapOf c.mapD) (mapOf c.mapD).col = true) := by
  refine ⟨⟨_, rfl, heads_of (by decide) (by decide), by decide, rfl, by decide, by decide⟩,
    ⟨_, _, _, rfl, heads_of (by decide) (by decide), by decide, rfl, ?_, by decide, rfl⟩,
    ⟨_, _, _, rfl, heads_of (by decide) (by decide), rfl, by decide, rfl⟩,
    ⟨_, rfl, heads_of (by decide) (by decide), by decide, by decide⟩,
    ⟨_, _, rfl, heads_of (by decide) (by decide), rfl, by decide, by decide, rfl, rfl⟩,
    ⟨_, rfl, heads_of (by decide) (by decide), by decide, by decide, by decide, by decide⟩⟩
  exact Or.inr ⟨0, by decide, Or.inr ⟨0, by decide, by decide⟩⟩

/-- Two runs of two entries: of [1, 2] and [2, 3], read as far as 2 of each, the pair (1, 0) is not decided before 3 is read. -/
theorem test_witness_MergesRun : decided 2 2 [1, 2] [2] = [] ∧ decided 2 2 [1, 2] [2, 3] = [(1, 0)] ∧ Merged 2 2 [1, 2] [2, 3] ∧
    ¬Merged 2 2 [1, 2] [2] ∧
    (∃ c, c = { aCommand (.kisect 0 1 0 2 0) (BitVec.ofNat 256 (6 * 2 ^ 60 + 2 ^ 58 + 0x400 + 2 ^ 64 + 2 * 2 ^ 80 + 2 * 2 ^ 128))
          (twoWords32 0x100) (twoWords32 0x180) 1 with notes := [0, 2, 1, 2, 2] } ∧
      Heads (cmdGround 4 c) 4 c (.kisect 0 1 0 2 0) (begun 4 c) ∧ c.remote = none ∧ c.done ≠ 0 ∧
      (mapOf c.mapA).count / 2 ^ (mapOf c.mapA).imode = 2 ∧ (mapOf c.mapB).count / 2 ^ (mapOf c.mapB).imode = 2 ∧ (mapOf c.mapD).bs = false ∧
      (mapOf c.mapD).ext1 - 1 = 2 ∧ c.notes = 0 :: 2 :: ([1, 2] ++ [2]) ∧ [1, 2].Pairwise (· ≤ ·) ∧
      0 = min ((mapOf c.mapD).ext1 - 1) (decided 2 2 [1, 2] [2]).length ∧
      (∃ x u, ReadsAll 4 c (mapOf c.mapB) 1 [x] (begun 4 c) u) ∧
      (∃ u, PutsAll 4 c (mapOf c.mapD) [(2, numOfInt 1), (3, numOfInt 0)] (begun 4 c) u)) := by
  refine ⟨by decide, by decide, by unfold Merged; decide, by unfold Merged; decide,
    ⟨_, rfl, heads_of (by decide) (by decide), rfl, by decide, by decide, by decide, by decide, by decide, rfl, by decide, by decide,
      ⟨_, _, _, rfl, rfl⟩, ⟨_, _, rfl, _, rfl, rfl⟩⟩⟩

/-- The change ring of a volume at 2^36: two entries from the tail, its descriptor's words in global memory. -/
def keyed (core : Nat) (c : Command) : State :=
  withWords (cmdGround core c) (List.replicate 8 0 ++ [2 ^ 63 + 2 ^ 36 + 0x800 + 2 * 2 ^ 51, 2, 0, 5 * 2 ^ 32])
theorem test_witness_DirtyKeysRun :
    (∃ c s1, c = { aCommand (.kdirty 0 1 2 0) (twoWords32 0x200) (BitVec.ofNat 256 (6 * 2 ^ 60 + 2 ^ 53 + 2 ^ 36)) 0 1 with
          notes := [0, 1] } ∧ s1 = modCmd (keyed 4 c) 4 c.seq (fun e => { e with state := 2 }) ∧
      Heads (keyed 4 c) 4 c (.kdirty 0 1 2 0) s1 ∧ cmdAt (keyed 4 c) 4 c.seq = some c ∧ noteChg c = true ∧
      kdirtyElsewhere s1 4 (mapOf c.mapA).base = false ∧
      Gives (strongE 4 (going c) ((mapOf c.mapA).base + 92) 4) s1 5 s1 ∧ Gives (strongE 4 (going c) ((mapOf c.mapA).base + 72) 8) s1 2 s1 ∧
      Gives (strongE 4 (going c) ((mapOf c.mapA).base + 80) 8) s1 0 s1 ∧
      (∃ u, Made (writeH 0 ((mapOf c.mapA).base + 92) 0 3 4 6) s1 () u)) ∧
    (∃ c s1 u, c = { aCommand (.kdirty 0 1 2 0) (twoWords32 0x200) (BitVec.ofNat 256 (6 * 2 ^ 60 + 2 ^ 53 + 2 ^ 36)) 0 2 with
          notes := [0, 1, 0, 1] } ∧ s1 = modCmd (keyed 4 c) 4 c.seq (fun e => { e with state := 2 }) ∧
      Heads (keyed 4 c) 4 c (.kdirty 0 1 2 0) s1 ∧ c.done = 0 + 2 ∧ 0 < c.notes.getD 3 0 ∧
      (∃ x0, Gives (strongE 4 (going c) ((mapOf c.mapA).base + 64) 8) s1 x0 s1 ∧
        ∃ e, Gives (strongE 4 (going c) (x0 % 2 ^ 48 + 8 * ((0 + 0) % 2 ^ (x0 / 2 ^ 51 % 32))) 8) s1 e s1) ∧
      (mapOf c.mapD).bs = false ∧ Puts 4 c (mapOf c.mapD) 1 (numOfInt 7) s1 u) := by
  refine ⟨⟨_, _, rfl, rfl, heads_of (by decide) (by decide), by decide, by decide, by decide, rfl, rfl, rfl, ⟨_, rfl⟩⟩,
    ⟨_, _, _, rfl, rfl, heads_of (by decide) (by decide), rfl, by decide, ⟨_, rfl, _, rfl⟩, by decide, rfl⟩⟩

/-- A command on keys of a volume whose first cell lies in a block that the core's CLB holds, and whose cell (0, 2) in none. -/
def keyVolume : Volume := { aVolume with
  clog2 := 4
  ext := [9, 4] }
def cellGround (c : Command) : State :=
  modCore (cmdGround 4 c) 4 (fun x => { x with
    vols := [keyVolume]
    clb := [{ ctx := 0, handle := 2 ^ 36, tile := 0, block := 2 ^ 36 + 0x1000 }, { ctx := 0, handle := 2 ^ 36, tile := 4, block := 0 }] })
/-- Word 0 of a pair, staged for the first cell. -/
def aStaged (order : Nat) : Staged :=
  { ctx := 0, handle := 2 ^ 36, cell := 2 ^ 36 + 0x1000, key := 0, stripe := 1, srcTile := 0, order := order, data := [0x3F800000] }

/-- A part of a command's step goes on. -/
theorem gives_of {α : Type} [DecidableEq α] {m : EM α} {s : State} {a : α} (h : (match m.run s with
    | (.ok x, _) => decide (x = a)
    | _ => false) = true) : ∃ u, Gives m s a u := by
  unfold Gives
  match hm : m.run s with
  | (.ok x, u) => rw [hm] at h; exact ⟨u, by rw [of_decide_eq_true h]⟩
  | (.error _, _) => rw [hm] at h; exact absurd h Bool.false_ne_true

theorem room_now {core owner n elem fuel : Nat} {s : State} (h : ((coreAt s owner).staged.map stagedBytes).sum + n ≤ 16384) :
    Gives (makeRoom core owner n elem (fuel + 1) false) s false s := by
  unfold Gives makeRoom
  simp only [ExceptT.run_bind]
  show (match (match (if ((coreAt s owner).staged.map stagedBytes).sum + n ≤ 16384 then none
    else oldestStaged (coreAt s owner).staged) with | none => (pure false : EM Bool) | some e => _).run s with | x => x) = _
  rw [if_pos h]
  rfl
theorem test_witness_FoldsRun :
    (∃ c s1 key s2 row s3 v s4 cell s5 owner s6 early s7, c = { aCommand (.kaggO 0 1 0 2 0) (BitVec.ofNat 256 (6 * 2 ^ 60 + 2 ^ 53 + 2 ^ 36))
          (BitVec.ofNat 256 (6 * 2 ^ 60 + 0x100)) (BitVec.ofNat 256 (6 * 2 ^ 60 + 0x180)) 1 with notes := [0, 0] } ∧
      s1 = modCmd (cellGround c) 4 c.seq (fun e => { e with state := 2 }) ∧ Heads (cellGround c) 4 c (.kaggO 0 1 0 2 0) s1 ∧
      logOut s1 4 = false ∧ c.done = 0 + 1 ∧ 0 < (mapOf c.mapB).count ∧ Gives (keyE 4 (going c) 0) s1 key s2 ∧
      Gives (pairE 4 (going c) 0) s2 row s3 ∧ Gives (openE 4 (going c) (mapOf c.mapD).base) s3 v s4 ∧
      Gives (cellE 4 (going c) v [key, stripeOf 4 (stripesOf c key)] true 0) s4 (.at_ cell) s5 ∧
      Gives (ownerE 4 (going c) cell 0 true) s5 owner s6 ∧
      Gives (makeRoom 4 owner (8 + 4 * row.length) 0 16384 false) s6 early s7) :=
  ⟨_, _, _, _, _, _, _, _, _, _, _, _, _, _, rfl, rfl, heads_of (by decide) (by decide), by decide, rfl, by decide, rfl, rfl, rfl, rfl,
    rfl, room_now (by decide +kernel)⟩
theorem test_witness_FoldsRun_key :
    (∃ c s1 key s2 v s3 cell s4 owner s5 n s6 moved s7 cell' s8, c = { aCommand (.kfold 0 1 2 0)
          (BitVec.ofNat 256 (6 * 2 ^ 60 + 2 ^ 53 + 2 ^ 36)) 0 (BitVec.ofNat 256 (6 * 2 ^ 60 + 0x180)) 1 with notes := [0, 0] } ∧
      s1 = modCmd (cellGround c) 4 c.seq (fun e => { e with state := 2 }) ∧ Heads (cellGround c) 4 c (.kfold 0 1 2 0) s1 ∧
      Gives (keyE 4 (going c) 0) s1 key s2 ∧ Gives (openE 4 (going c) (mapOf c.mapD).base) s2 v s3 ∧ key < v.ext.getD 0 0 ∧
      Gives (cellE 4 (going c) v [key, 0] false 0) s3 (.at_ cell) s4 ∧ Gives (ownerE 4 (going c) cell 0 true) s4 owner s5 ∧
      Made (applyStaged 0 owner cell) s5 n s6 ∧ stripesOf c key = 1 ∧
      Gives (foldStripes 4 (going c) v key 0 (stripesOf c key - 1) 1) s6 moved s7 ∧
      Gives (cellE 4 (going c) v [key, 0] false 0) s7 (.at_ cell') s8) :=
  ⟨_, _, _, _, _, _, _, _, _, _, _, _, _, _, _, _, rfl, rfl, heads_of (by decide) (by decide), rfl, rfl, by decide, rfl, rfl, rfl,
    by decide, rfl, rfl⟩
/-- A stripe without a block, and a pair that is cleared. -/
theorem test_witness_FoldsRun_stripes : ∃ c, c = aCommand (.kfold 0 1 2 0) 0 0 0 1 ∧
    (∃ u, Gives (cellE 4 c keyVolume [0, 2] false 0) (cellGround c) .empty u) ∧
    (∃ u rest, Gives (foldStripes 4 c keyVolume 0 0 0 3) (cellGround c) rest u) :=
  ⟨_, rfl, gives_of (by decide +kernel), ⟨_, _, rfl⟩⟩
theorem test_witness_FoldsRun_cleared :
    (∃ c pair u, c = aCommand (.kfold 0 1 2 0) 0 0 0 1 ∧ Made (cellPair 0 0 3 (2 ^ 36 + 0x1010) 0) (cellGround c) pair (cellGround c) ∧
      Zeroed 0 0 3 [2 ^ 36 + 0x1010] (cellGround c) u) :=
  ⟨_, _, _, rfl, rfl, _, rfl, rfl⟩

/-- Two staged elements of a cell, in order, and what they leave. -/
theorem test_witness_JoinSteps_staged : ∃ s u, s = modCore (mapped (placedGround State.reset)) 7 (fun x => { x with
        staged := [aStaged 5, aStaged 3] }) ∧
    [aStaged 3, aStaged 5].Perm ((coreAt s 7).staged.filter (fun e => e.cell == 2 ^ 36 + 0x1000)) ∧
    [aStaged 3, aStaged 5].Pairwise (fun a b => a.srcTile < b.srcTile ∨ (a.srcTile = b.srcTile ∧ a.order < b.order)) ∧
    AddsAll 0 (2 ^ 36 + 0x1000) (ctxPriv s) [aStaged 3, aStaged 5]
      (modCore s 7 (fun x => { x with staged := x.staged.filter (fun e => e.cell != 2 ^ 36 + 0x1000) })) u ∧
    cellBusy s (2 ^ 36 + 0x1000) = false ∧ (∃ n v, Made (applyStaged 0 7 (2 ^ 36 + 0x1000)) s n v) :=
  ⟨_, _, rfl, by decide, by decide, ⟨_, rfl, _, rfl, rfl⟩, by decide, ⟨_, _, rfl⟩⟩

/-- Queue pair 0 of the Dray core: depth 4, queues in the first pages of global memory, namespace 1, controller 0. -/
def paired (s : State) : State :=
  withWords (modTile s 0 (fun x => { x with dray := [(0, { DrayCtx.reset with flqt := 2 ^ 36 })] }))
    [2 ^ 36 + 0x1000 + 2 * 2 ^ 56, 2 ^ 36 + 0x2000, 2 ^ 32, 0]
/-- A Read of one page to 2^36 + 0x3000, as it lies in LM. -/
def aRead : List Nat := [2 + 2 ^ 32, 0, 0, 2 ^ 36 + 0x3000, 0, 7, 0, 0]
def placedEntry (s : State) : State := lmPut (lmPut (lmPut s 0 0x400 8 (2 + 2 ^ 32)) 0 0x418 8 (2 ^ 36 + 0x3000)) 0 0x428 8 7
theorem test_witness_FlashCommandsRun : ∃ c s s1, c = { aCommand (.flq 6 5 0) 0 0 0 0 with args := [0, 0x400] } ∧
    s = placedEntry (paired (cmdGround 4 c)) ∧ s1 = modCmd s 4 c.seq (fun e => { e with state := 2 }) ∧ Heads s 4 c (.flq 6 5 0) s1 ∧
    cmdAt s 4 c.seq = some c ∧ ((pkgAt s1 0).ready.getD 2 0).getLsbD 56 = true ∧ pairWaits s1 4 c.ctx 0 = false ∧
    0 < pairRoom s1 4 c.ctx 0 ∧ EntryRead 4 0x400 c aRead s1 ∧ ¬entryBad aRead (pairWord s1 4 c.ctx 0 2 / 2 ^ 32) ∧
    entryBad (aRead.set 0 3) (pairWord s1 4 c.ctx 0 2 / 2 ^ 32) ∧ pagesNamed aRead = [(2 ^ 36 + 0x3000, 4096)] ∧
    (∃ ks, Translated 4 c true s1 (pagesNamed aRead) ks) ∧ (∃ u, Gives (submitE 4 (going c) 0 aRead) s1 () u) ∧
    (∃ u, LandsWords 0 0 (2 ^ 36 + 0x3000) [(2 ^ 36 + 0x3000, ddrKey 0 0x40003000, 7)] s1 u) := by
  refine ⟨_, _, _, rfl, rfl, rfl, heads_of (by decide) (by decide), by decide, by decide, by decide, by decide, ⟨rfl, ?_⟩,
    by unfold entryBad; decide, by unfold entryBad; decide, by decide, ⟨_, _, _, rfl, rfl, rfl⟩, gives_of (by decide +kernel),
    ⟨_, by decide, Or.inr ⟨by decide, _, rfl, rfl⟩⟩⟩
  intro i h
  match i, h with
  | 0, _ => rfl
  | 1, _ => rfl
  | 2, _ => rfl
  | 3, _ => rfl
  | 4, _ => rfl
  | 5, _ => rfl
  | 6, _ => rfl
  | 7, _ => rfl

/-- The completion of a flash command of pair 0. -/
theorem test_witness_RemoteCommands_fldone : ∃ p s s1 s2, p = { aPacket (.own (header 14) [0, 5, 2 ^ 32 * 3]) with dst := 4 } ∧
    s = { paired (mapped (placedGround State.reset)) with
      net := [p]
      nextId := 10 } ∧ Taken s 9 p 14 (header 14) [0, 5, 2 ^ 32 * 3] ∧ pairWaits s p.dst (hdrCtx (header 14)) 0 = false ∧
    pairState s p.dst (hdrCtx (header 14)) 0 = (0, 0, 0) ∧ readOf s p.dst (hdrCtx (header 14)) 0 3 = none ∧
    Made (writeH 0 (pairWord s p.dst 0 0 1 % 2 ^ 48) 0 (ctxPriv s 0) 8 5)
      (dropPacket (phaseArrive s 0 (hdrTag (header 14))) 9) () s1 ∧
    Made (writeH 0 (pairWord s p.dst 0 0 1 % 2 ^ 48 + 8) 0 (ctxPriv s 0) 8 (2 ^ 32 * 3)) s1 () s2 :=
  ⟨_, _, _, _, rfl, rfl, ⟨arrives_of (by decide), Or.inr rfl, by decide, by decide, fun h => absurd h (by simp [aPacket]), by decide, by decide,
      by decide, fun h => absurd h (by simp [aPacket])⟩, by decide, by decide, by decide, rfl, rfl⟩

/-- An UNSTASH from the ring, and one that waits for its page from flash. -/
theorem test_witness_MatrixAndStash_unstash :
    (∃ c s s1, c = { aCommand (.unstash 5 7 0) 0 0 0 0 with args := [9 * 2 ^ 32 + 0x200, 0] } ∧
      s = modTile (cmdGround 4 c) 0 (fun x => { x with dray := [(0, { DrayCtx.reset with
        stashl := 0x1000
        tags := [{ ctx := 0, tag := 9, where_ := 0, offset := 0, length := 64 }] })] }) ∧
      s1 = modCmd s 4 c.seq (fun e => { e with state := 2 }) ∧ Heads s 4 c (.unstash 5 7 0) s1 ∧ cmdAt s 4 c.seq = some c ∧ s.stored ∧
      Gives (stashWaysE 4 (going c)) s1 () s1 ∧ Gives (lmRangeE 4 (going c) 0x200 64) s1 () s1 ∧
      tagOf s 4 c.ctx 9 = some { ctx := 0, tag := 9, where_ := 0, offset := 0, length := 64 } ∧
      (∀ r ∈ (drayOf s 0 c.ctx).reads, r.reader ≠ some c.seq)) ∧
    (∃ c s s1 r, c = { aCommand (.unstash 5 7 0) 0 0 0 1 with args := [9 * 2 ^ 32 + 0x200, 1] } ∧
      r = { pair := 0, cid := 3, at_ := 0, pages := [], reader := some 0 } ∧
      s = modTile (cmdGround 4 c) 0 (fun x => { x with dray := [(0, { DrayCtx.reset with
        stashl := 0x1000
        tags := [{ ctx := 0, tag := 9, where_ := 2, offset := 0, length := 64 }]
        reads := [r] })] }) ∧
      s1 = modCmd s 4 c.seq (fun e => { e with state := 2 }) ∧ Heads s 4 c (.unstash 5 7 0) s1 ∧
      Gives (stashWaysE 4 (going c)) s1 () s1 ∧ (tagOf s1 4 c.ctx 9).map (·.where_) = some 2 ∧
      r ∈ (drayOf s1 0 c.ctx).reads ∧ r.reader = some c.seq) :=
  ⟨⟨_, _, _, rfl, rfl, rfl, heads_of (by decide) (by decide), by decide, by show Memory.wf _ = true; decide, rfl, rfl, by decide,
      by decide⟩,
    ⟨_, _, _, _, rfl, rfl, rfl, rfl, heads_of (by decide) (by decide), rfl, by decide, by decide, rfl⟩⟩

/-- The head command is suspended; a task's command is suspended and not reported yet. -/
theorem test_witness_CommandEnds_suspended :
    (∃ c, c = { aCommand (.copy 0 0 2 0) 0 0 0 0 with state := 5 } ∧ (coreAt (cmdGround 4 c) 4).ring.find? (fun e =>
      e.state == 1 || e.state == 5 || (e.state == 2 && !isVgo e.word)) = some c) ∧
    (∃ c s x buf, c = { aCommand (.copy 0 0 2 0) 0 0 0 0 with
        state := 5
        unreported := true } ∧
      s = withCommand (placedGround (storePut (ground 4 (aTask [1, 2, 3])) 0x100 4 0x00C52001)) 4 c ∧
      taskAt s (slotKey 4 0) = some (aTask [1, 2, 3]) ∧ fetchTask s (slotKey 4 0) (aTask [1, 2, 3]) = .ok (x, buf) ∧
      taskInstr x = some (.add 0 6 5 4 0) ∧ checks (.add 0 6 5 4 0) (aTask [1, 2, 3]) (coreNum (slotCore (slotKey 4 0))) = none ∧
      mustFinish (aTask [1, 2, 3]) = false ∧
      (coreAt s (slotCore (slotKey 4 0))).ring.find? (fun e => e.uid == (aTask [1, 2, 3]).uid && e.unreported &&
        (e.state == 4 || e.state == 5)) = some c) :=
  ⟨⟨_, rfl, by decide⟩, ⟨_, _, _, _, rfl, rfl, by decide, rfl, by decide, by decide, by decide, by decide⟩⟩

/-- A stream at a word that it fetched before. -/
theorem test_witness_StepRunsDecoded_stream : ∃ s st, st = { placedStream with word := some 0x00000079 } ∧
    s = modStream streaming 0 (fun _ => st) ∧ (tileAt s 0).stream = some st ∧ tileRuns (placedGround s) 0 = true ∧
    sampleStream.any (fun x => (streamInstr x.1).isSome) = true :=
  ⟨_, _, rfl, rfl, by decide, by decide, by decide⟩
/-! ### The machine as a whole -/

theorem test_witness_DecodeOfEncode : ∃ i : Instr, i.wf = true ∧ encode i ≠ .none :=
  ⟨.add 0 6 5 4 0, by decide, by decide⟩

/-- From reset, whose storage lists nothing, and from a running task, the machine goes on. -/
theorem test_witness_StorageKept : State.reset.stored ∧ ∃ u, step State.reset = .next u :=
  ⟨by show Memory.wf _ = true; decide, _, rfl⟩

theorem test_witness_GraceEnds : ∃ u, step (ground 0 (aTask [])) = .next u := ⟨_, rfl⟩

end Sys2Proof.Tests
end

section
/-!
PROOFS. What reset leaves (O6), and reads and writes of control registers (O36). An access of a CSR runs the effect of its core
instruction (`csrOp_runs`); that effect is a read, a write and gd (`csrEffect_eq_body`); each register's read and write then has
its own lemma.
-/

open Sys2Proof Sys2Proof.Machine Sys2Proof.Claims

namespace Sys2Proof.Proofs

/-! ### Reset and the wired registers -/

/-- Reset lists no tile, so that every tile is at its reset values. -/
@[simp] theorem tileAt_reset (tile : Nat) : tileAt State.reset tile = Tile.reset := rfl
@[simp] theorem coreAt_reset (core : Nat) : coreAt State.reset core = Core.reset := rfl
@[simp] theorem gGet_zero (t : Task) : gGet t 0 = 0 := rfl
@[simp] theorem gSet_zero (t : Task) (v : Dword) : gSet t 0 v = t := rfl
@[simp] theorem pGet_zero (t : Task) : pGet t 0 = true := rfl
@[simp] theorem pSet_zero (t : Task) (b : Bool) : pSet t 0 b = t := rfl

theorem reset_stored : State.reset.stored := rfl

theorem reset_bfmt (n : Fin 16) : Tile.reset.bfmt[n] = 0x103878 := by
  simp [Tile.reset, bfmtReset]

/-- Settles O6: reset lists nothing, and what is not listed has its reset values. -/
theorem resetValues : Obligations.ResetValues := by
  unfold Obligations.ResetValues
  refine ⟨reset_stored, rfl, rfl, rfl, fun tile => ?_, fun core => ?_, fun t v b => ?_⟩
  · rw [tileAt_reset]
    exact ⟨rfl, rfl, rfl, rfl, reset_bfmt, rfl⟩
  · rw [coreAt_reset]
    exact ⟨rfl, rfl⟩
  · exact ⟨gGet_zero t, gSet_zero t v, pGet_zero t, pSet_zero t b⟩

/-! ### A task that becomes another -/

/-- The state has changed in nothing but the task at `s.here`, which has become `v`, as far as a later write of that task sees. -/
structure Becomes (s s' : State) (v : Task) : Prop where
  here : s'.here = s.here
  task : taskAt s' s.here = some v
  rest : ∀ u, putTask s' s.here u = putTask s s.here u

theorem Becomes.refl {s : State} {t : Task} (h : hereTask s = some t) : Becomes s s t := ⟨rfl, h, fun _ => rfl⟩

theorem Becomes.modTask {s s' : State} {v : Task} (h : Becomes s s' v) (f : Task → Task) :
    Becomes s (Machine.modTask s' s'.here f) (f v) := by
  rw [h.here, modTask_of s' s.here v f h.task]
  exact ⟨h.here, taskAt_putTask .., fun u => by rw [putTask_putTask, h.rest]⟩

theorem Becomes.taskHere {s s' : State} {v : Task} (h : Becomes s s' v) : taskAt s' s'.here = some v := by
  rw [h.here]; exact h.task

theorem Becomes.retire_eq {s s' : State} {v : Task} (h : Becomes s s' v) (u : Task) (n : Nat) :
    retire s' u n = retire s u n := by
  rw [retire, h.here, h.rest, retire]

/-! ### The effect of an access (R349) -/

/-- An effect that waits. -/
theorem scalar_wait {i : Instr} {g : BitVec 4} {s : State} {t : Task} {body : Task → M Flow} {w : Want}
    {send : Option (Nat × Body)} (h : Executes i g s t) (hb : body t s = .error (.wait w send)) :
    scalar i g s body = .next (beginWait w send s) := by
  simp only [scalar, h.here, h.passes, h.sound, h.guard, Bool.false_eq_true, if_false, if_true, effect, h.unbound,
    List.isEmpty_nil, finish, hb]

/-- A check, and what comes after it. -/
theorem run_guardM_bind {α : Type} (ok : Bool) (c : Cause) (v : Dword) (f : Unit → M α) (s : State) :
    (guardM ok c v >>= f) s = if ok then f ⟨⟩ s else .error (.trap c v) := by cases ok <;> rfl

/-- An access runs the effect of its core instruction, on the register its number names. -/
structure RunsCsr (i : Instr) (o : CsrOp) (c : BitVec 11) : Prop where
  number : c.toNat = o.n
  length : o.core.length = 4
  run : ∀ s, exec i s = scalar o.core o.guard s (csrEffect o.core c o.a o.d o.rd o.wr)

theorem runsCsr_access {i : Instr} {m : BitVec 2} {n : Nat} {a d : BitVec 5} {g : BitVec 4} (hn : n < 2 ^ 11)
    (hi : ∀ s, exec i s = csrAccess m n a d g s) : RunsCsr i (access m n a d g) (BitVec.ofNat 11 n) := by
  have hc : (BitVec.ofNat 11 n).toNat = n := by rw [BitVec.toNat_ofNat]; exact Nat.mod_eq_of_lt hn
  simp only [csrAccess] at hi
  unfold access
  by_cases h0 : m = 0#2
  · simp only [h0, if_true] at hi ⊢
    exact ⟨hc, rfl, hi⟩
  · by_cases h1 : m = 1#2
    · simp only [h1] at hi ⊢
      exact ⟨hc, rfl, hi⟩
    · simp only [h0, h1, if_false] at hi ⊢
      exact ⟨hc, rfl, hi⟩

/-- The three core instructions first, then the registers whose number depends on a field, then those of a fixed number. -/
theorem csrOp_runs {i : Instr} {o : CsrOp} (h : csrOp i = some o) : ∃ c, RunsCsr i o c := by
  unfold csrOp at h
  split at h
  case h_1 c _ _ | h_2 c _ _ | h_3 c _ _ _ =>
    cases h
    exact ⟨c, rfl, rfl, fun _ => rfl⟩
  case h_8 n _ _ _ _ | h_9 n _ _ _ _ =>
    cases h
    exact ⟨_, runsCsr_access (by have := n.isLt; omega) (fun _ => rfl)⟩
  case h_26 n _ _ _ _ =>
    cases h
    exact ⟨_, runsCsr_access n.isLt (fun _ => rfl)⟩
  case h_27 => cases h
  all_goals
    cases h
    exact ⟨_, runsCsr_access (by decide) (fun _ => rfl)⟩

theorem csrExists_of_present {n c : Nat} (h : present n c = true) : csrExists n c = true := by
  simp only [present, csrExists, Bool.or_eq_true, Bool.and_eq_true, decide_eq_true_eq, List.contains_cons, List.contains_nil,
    Bool.or_false, beq_iff_eq, bne_iff_ne] at h ⊢
  grind

/-- The effect of an access other than MTOK's on a core that has the register: the read, then the write, then gd. -/
def csrBody (n : Nat) (word : Dword) (t : Task) (val : Dword) (d : BitVec 5) (rd wr : Bool) : M Flow := do
  let old ← if rd then csrRead n t else pure 0
  if wr then csrWrite n word t val
  if rd then modThis (fun u => gSet u d old)
  pure .seq

section Access

variable {i : Instr} {c : BitVec 11} {o : CsrOp} {a d : BitVec 5} {n : Nat} {s s' : State} {t v : Task} {word val x : Dword}
  {e : Stop}

theorem csrEffect_eq_body (rd wr : Bool) (he : csrExists c.toNat (coreNum (hereCore s)) = true) (hn : c.toNat ≠ 0x073) :
    csrEffect i c a d rd wr t s = csrBody c.toNat (wordOf i) t (gGet t a) d rd wr s := by
  unfold csrEffect
  rw [run_bind_ok (run_get s)]
  dsimp only
  rw [he, bne_iff_ne.2 hn, Bool.true_or, Bool.true_and, run_guardM_bind, if_pos rfl, if_neg hn]
  rfl

/-- MTOK is not of CSRR and CSRW (R262). -/
theorem csrEffect_token_refused (rd wr : Bool) (hc : c.toNat = 0x073) (hm : (rd && wr) = false) :
    csrEffect i c a d rd wr t s = .error (.trap causeIllegal (wordOf i)) := by
  unfold csrEffect
  rw [run_bind_ok (run_get s)]
  dsimp only
  rw [hc, hm, run_guardM_bind, if_neg (by simp)]

theorem csrBody_read (word val : Dword) (h : csrRead n t s = .ok (x, s')) :
    csrBody n word t val d true false s = .ok (.seq, modTask s' s'.here (fun u => gSet u d x)) := by
  simp only [csrBody, if_true, run_bind, h]
  rfl

theorem csrBody_read_error (word val : Dword) (wr : Bool) (h : csrRead n t s = .error e) :
    csrBody n word t val d true wr s = .error e := by
  simp only [csrBody, if_true, run_bind, h]

theorem csrBody_write (h : csrWrite n word t val s = .ok (⟨⟩, s')) : csrBody n word t val d false true s = .ok (.seq, s') := by
  simp only [csrBody, Bool.false_eq_true, if_false, if_true, run_bind, run_pure, h]

theorem csrBody_exchange (hr : csrRead n t s = .ok (x, s)) (h : csrWrite n word t val s = .ok (⟨⟩, s')) :
    csrBody n word t val d true true s = .ok (.seq, modTask s' s'.here (fun u => gSet u d x)) := by
  simp only [csrBody, if_true, run_bind, hr, h]
  rfl

theorem csrBody_write_error (rd : Bool) (hr : csrRead n t s = .ok (x, s)) (h : csrWrite n word t val s = .error e) :
    csrBody n word t val d rd true s = .error e := by
  cases rd
  · simp only [csrBody, Bool.false_eq_true, if_false, if_true, run_bind, run_pure, h]
  · simp only [csrBody, if_true, run_bind, hr, h]

theorem csrOp_runs_body (h : csrOp i = some o) (hr : Reaches o s t) (hn : o.n ≠ 0x073) :
    ∃ c, RunsCsr i o c ∧
      csrEffect o.core c o.a o.d o.rd o.wr t s = csrBody o.n (wordOf o.core) t (gGet t o.a) o.d o.rd o.wr s := by
  obtain ⟨c, hc⟩ := csrOp_runs h
  have hexists : csrExists c.toNat (coreNum (hereCore s)) = true := by
    rw [hc.number]; exact csrExists_of_present hr.present
  refine ⟨c, hc, ?_⟩
  rw [csrEffect_eq_body _ _ hexists (by rwa [hc.number]), hc.number]

/-! ### What an access that reaches its register leads to -/

theorem exec_csr_retires (h : csrOp i = some o) (hr : Reaches o s t) (hn : o.n ≠ 0x073)
    (hb : csrBody o.n (wordOf o.core) t (gGet t o.a) o.d o.rd o.wr s = .ok (.seq, s')) (hv : taskAt s' s'.here = some v) :
    exec i s = .next (retire s' v 4) := by
  obtain ⟨c, hc, he⟩ := csrOp_runs_body h hr hn
  rw [hc.run, scalar_seq hr.executes (he.trans hb), modTask_of _ _ v _ hv, hc.length]
  rfl

theorem exec_csr_traps {k : Cause} (h : csrOp i = some o) (hr : Reaches o s t) (hn : o.n ≠ 0x073)
    (hb : csrBody o.n (wordOf o.core) t (gGet t o.a) o.d o.rd o.wr s = .error (.trap k x)) :
    exec i s = .next (takeTrap k x s) := by
  obtain ⟨c, hc, he⟩ := csrOp_runs_body h hr hn
  rw [hc.run, scalar_trap hr.executes (he.trans hb)]

theorem exec_csr_waits {w : Want} (h : csrOp i = some o) (hr : Reaches o s t) (hn : o.n ≠ 0x073)
    (hb : csrBody o.n (wordOf o.core) t (gGet t o.a) o.d o.rd o.wr s = .error (.wait w none)) :
    exec i s = .next (beginWait w none s) := by
  obtain ⟨c, hc, he⟩ := csrOp_runs_body h hr hn
  rw [hc.run, scalar_wait hr.executes (he.trans hb)]

theorem exec_token_refused (h : csrOp i = some o) (hr : Reaches o s t) (hn : o.n = 0x073) (hm : (o.rd && o.wr) = false) :
    exec i s = .next (takeTrap causeIllegal (wordOf o.core) s) := by
  obtain ⟨c, hc⟩ := csrOp_runs h
  rw [hc.run, scalar_trap hr.executes (csrEffect_token_refused _ _ (hc.number.trans hn) hm)]

/-- A read puts the register's value in gd. -/
theorem exec_csr_read (h : csrOp i = some o) (hr : Reaches o s t) (hrd : o.rd = true) (hwr : o.wr = false)
    (hn : o.n ≠ 0x073) (hv : csrRead o.n t s = .ok (x, s')) (ht : taskAt s' s'.here = some t) :
    exec i s = .next (retire s' (gSet t o.d x) 4) := by
  have hbecomes := (Becomes.refl ht).modTask (fun u => gSet u o.d x)
  rw [exec_csr_retires h hr hn (by rw [hrd, hwr]; exact csrBody_read _ _ hv) hbecomes.taskHere, hbecomes.retire_eq]

/-- A write leaves the task it makes, and nothing else. -/
theorem exec_csr_write (h : csrOp i = some o) (hr : Reaches o s t) (hrd : o.rd = false) (hwr : o.wr = true)
    (hn : o.n ≠ 0x073) (hw : csrWrite o.n (wordOf o.core) t (gGet t o.a) s = .ok (⟨⟩, s')) (hv : Becomes s s' v) :
    exec i s = .next (retire s v 4) := by
  rw [exec_csr_retires h hr hn (by rw [hrd, hwr]; exact csrBody_write hw) hv.taskHere, hv.retire_eq]

/-- An exchange does both: gd has the value from before the write. -/
theorem exec_csr_exchange (h : csrOp i = some o) (hr : Reaches o s t) (hrd : o.rd = true) (hwr : o.wr = true)
    (hn : o.n ≠ 0x073) (hx : csrRead o.n t s = .ok (x, s))
    (hw : csrWrite o.n (wordOf o.core) t (gGet t o.a) s = .ok (⟨⟩, s')) (hv : Becomes s s' v) :
    exec i s = .next (retire s (gSet v o.d x) 4) := by
  have hbecomes := hv.modTask (fun u => gSet u o.d x)
  rw [exec_csr_retires h hr hn (by rw [hrd, hwr]; exact csrBody_exchange hx hw) hbecomes.taskHere, hbecomes.retire_eq]

end Access

/-! ### Reads without an effect: the model's value is the rule's -/

/-- DRDATA (R257, Table 5). -/
theorem drData_eq_entryWord (s : State) (t : Task) : drData s t = entryWord s t := by
  have hseq : (fun e : Command => e.seq == t.drsel.extractLsb' 0 8) = fun e => e.seq.toNat == t.drsel.toNat % 256 := by
    funext e
    rw [Bool.eq_iff_iff, beq_iff_eq, beq_iff_eq, ← BitVec.toNat_inj, BitVec.extractLsb'_toNat, Nat.shiftRight_zero]
  have hk : (t.drsel.extractLsb' 8 4).toNat = t.drsel.toNat / 256 % 16 := by
    rw [BitVec.extractLsb'_toNat, Nat.shiftRight_eq_div_pow]
  have hpress : hereCore s = pressOf (hereTile s) ↔ coreNum (hereCore s) = 6 := by
    simp only [hereCore, slotCore, pressOf, coreKey, hereTile, slotTile, coreNum]; omega
  unfold drData entryWord cmdAt
  simp only [hseq, hk, hpress, BitVec.ofNat_toNat]
  cases (coreAt s (hereCore s)).ring.find? (fun e => e.seq.toNat == t.drsel.toNat % 256) with
  | none => rfl
  | some c =>
    by_cases hctx : c.ctx ≠ t.ctx
    · simp only [if_pos hctx]
    · simp only [if_neg hctx]
      generalize t.drsel.toNat / 256 % 16 = k
      match k with
      | 0 | 1 | 2 => rfl
      | 3 => cases (tileAt s (hereTile s)).stream <;> rfl
      | k + 4 => rfl

/-- BFMTn and BDROPn (R177, R180). -/
theorem csrRead_bank {n : Nat} (t : Task) (s : State) (hlo : 0x040 ≤ n) (hhi : n < 0x060) :
    csrRead n t s = .ok (if n < 0x050 then (tileAt s (hereTile s)).bfmt.getD (n - 0x040) 0
      else ((tileAt s (hereTile s)).bdrop.getD (n - 0x050) 0).setWidth 64, s) := by
  unfold csrRead
  rw [run_bind_ok (run_get s)]
  dsimp only
  split
  case h_54 =>
    by_cases hf : n < 0x050
    · rw [if_pos ⟨hlo, hf⟩, if_pos hf]
      rfl
    · rw [if_neg (by omega), if_pos ⟨by omega, hhi⟩, if_neg hf]
      rfl
  all_goals omega

/-- GDATA (R345): GSEL's low two bits pick the slot and its high two the doubleword. -/
theorem grantWord_gsel (s : State) (x : Tile) (tile : Nat) :
    grantWord (grantAt s tile (gselSlot x)) (gselWord x) =
      let g := grantAt s tile (x.gsel.toNat % 4)
      if x.gsel.toNat / 4 = 0 then g.dw0 else if x.gsel.toNat / 4 = 1 then g.dw1 else g.dw2 := by
  have hslot : gselSlot x = x.gsel.toNat % 4 := by simp [gselSlot]
  have hword : gselWord x = x.gsel.toNat / 4 := by
    have := x.gsel.isLt
    simp only [gselWord, BitVec.extractLsb'_toNat, Nat.shiftRight_eq_div_pow]; omega
  rw [hslot, hword]
  unfold grantWord
  split
  · next h0 => rw [if_pos h0]
  · next h1 => rw [if_neg (by omega), if_pos h1]
  · next h0 h1 => rw [if_neg h0, if_neg h1]

/-- PHSLOT: a tag above 15 reads as 0x10 (R336). -/
theorem phslot_value (tag : BitVec 5) :
    (if tag.getLsbD 4 then 0x10#64 else tag.setWidth 64) = if tag.toNat < 16 then tag.setWidth 64 else 0x10 := by
  revert tag; decide

theorem vector_getD_of_lt {α : Type} {n i : Nat} (xs : Vector α n) (d : α) (h : i < n) : xs.getD i d = xs[i] := by
  obtain ⟨a, rfl⟩ := xs
  show a.getD i d = a[i]
  rw [Array.getD, dif_pos h]
  rfl

theorem readyWord_of_lt {p : Pkg} {n : Nat} (h : n < 2) : readyWord p n = p.ready[n] := by
  rw [readyWord, if_neg (by omega), vector_getD_of_lt]

theorem readyWord_two (p : Pkg) : readyWord p 2 = p.ready[2] &&& readyMask := by
  rw [readyWord, if_pos rfl, vector_getD_of_lt _ _ (by decide)]

theorem ne_token_of_csrValue {s : State} {t : Task} {n : Nat} {v : Dword} (h : csrValue s t n = some v) : n ≠ 0x073 := by
  rintro rfl
  cases h

/-- Named are PHSLOT, DRDATA, GDATA, READY0 to READY2, and last the banks; the other registers are read as they are kept. -/
theorem csrRead_of_csrValue {s : State} {t : Task} {n : Nat} {v : Dword} (h : csrValue s t n = some v) :
    csrRead n t s = .ok (v, s) := by
  simp only [csrValue, BitVec.ofNat_toNat] at h
  split at h
  case h_21 => cases h; rw [← phslot_value]; rfl
  case h_32 => cases h; rw [← drData_eq_entryWord]; rfl
  case h_42 => cases h; exact congrArg (fun v => Except.ok (v, s)) (grantWord_gsel s _ _)
  case h_45 | h_46 => cases h; rw [← readyWord_of_lt (by decide)]; rfl
  case h_47 => cases h; exact congrArg (fun v => Except.ok (v, s)) (readyWord_two _)
  case h_52 =>
    split at h
    · next hf =>
      cases h
      rw [csrRead_bank t s hf.1 (by omega), if_pos hf.2]
    · split at h
      · next hd =>
        cases h
        rw [csrRead_bank t s (by omega) hd.2, if_neg (by omega)]
      · cases h
  all_goals
    cases h
    rfl

/-! ### SEMSTAT (R251) and GSTAT (R335) -/

theorem getLsbD_semBit {i n : Nat} (hn : n < 64) : (0x10000#64 <<< i).getLsbD n = decide (n = 16 + i) := by
  rw [show 0x10000#64 = BitVec.twoPow 64 16 from rfl, BitVec.getLsbD_shiftLeft, BitVec.getLsbD_twoPow]
  simp only [hn, decide_true, Bool.true_and, show 16 < 64 by decide]
  rw [Bool.eq_iff_iff, Bool.and_eq_true, Bool.not_eq_true', decide_eq_false_iff_not, decide_eq_true_eq, decide_eq_true_eq]
  omega

theorem getLsbD_foldl_semBit (free : Nat → Prop) [DecidablePred free] (l : List Nat) (a : Dword) {n : Nat} (hn : n < 64) :
    (l.foldl (fun acc i => if free i then acc else acc ||| (0x10000#64 <<< i)) a).getLsbD n =
      (a.getLsbD n || l.any (fun i => !decide (free i) && decide (n = 16 + i))) := by
  induction l generalizing a with
  | nil => simp
  | cons i r ih =>
    rw [List.foldl_cons, ih, List.any_cons]
    split
    · next h => simp [h]
    · next h => simp [h, getLsbD_semBit hn, Bool.or_assoc]

theorem getLsbD_semStat (x : Tile) {n : Nat} (hn : n < 64) : (semStat x).getLsbD n = true ↔
    x.semOvf.getLsbD n = true ∨ ∃ i < 16, ¬x.sems.getD i 0 = 0#16 ∧ n = 16 + i := by
  have hovf : (x.semOvf.setWidth 64).getLsbD n = x.semOvf.getLsbD n := by simp [hn]
  rw [semStat, getLsbD_foldl_semBit (fun i => x.sems.getD i 0 = 0#16) (List.range 16) _ hn, hovf]
  simp only [Bool.or_eq_true, List.any_eq_true, List.mem_range, Bool.and_eq_true, decide_eq_true_eq, Bool.not_eq_true',
    decide_eq_false_iff_not]

theorem semStat_isSemstat (x : Tile) : IsSemstat x (semStat x) := by
  intro n
  by_cases hn : n < 64
  · rw [Bool.eq_iff_iff, getLsbD_semStat x hn]
    by_cases h16 : n < 16
    · rw [if_pos h16]
      exact or_iff_left (fun ⟨i, _, _, hi⟩ => by omega)
    · rw [if_neg h16, BitVec.getLsbD_of_ge _ _ (by omega)]
      by_cases h32 : n < 32
      · rw [if_pos h32, bne_iff_ne]
        constructor
        · rintro (h | ⟨i, _, hi, rfl⟩)
          · cases h
          · rwa [Nat.add_sub_cancel_left]
        · exact fun h => Or.inr ⟨n - 16, by omega, h, by omega⟩
      · rw [if_neg h32]
        exact ⟨fun h => h.elim id (fun ⟨i, _, _, hi⟩ => by omega), Or.inl⟩
  · rw [BitVec.getLsbD_of_ge _ _ (by omega), if_neg (by omega), if_neg (by omega)]

theorem grantIdle_iff (s : State) (tile : Nat) (ctx : BitVec 11) : grantIdle s tile ctx = true ↔ idleOn s tile ctx := by
  unfold grantIdle idleOn
  rw [Bool.and_eq_true, Bool.and_eq_true, and_assoc]
  refine and_congr ?_ (and_congr ?_ ?_)
  · simp [residentOn]
  · simp
  · cases (tileAt s tile).stream <;> simp

theorem gstat_toNat (s : State) (tile : Nat) :
    let g := grantAt s tile (gselSlot (tileAt s tile))
    (gstat s tile).toNat = g.saved.getD (queuedOn s tile (grantCtx g)) % 2 ^ 16 * 2 ^ 32 +
      residentOn s tile (grantCtx g) % 2 ^ 16 * 2 ^ 16 + 4 * g.leaving.toNat + 2 * (grantIdle s tile (grantCtx g)).toNat +
      (grantValid g).toNat := by
  have hbit : ∀ (b : Bool) (k : Nat), (if b = true then 2 ^ k else 0) = 2 ^ k * b.toNat := by
    intro b k; cases b <;> simp
  simp only [gstat, hbit, BitVec.toNat_ofNat]
  generalize grantAt s tile (gselSlot (tileAt s tile)) = g
  have hleaving := g.leaving.toNat_lt
  have hidle := (grantIdle s tile (grantCtx g)).toNat_lt
  have hvalid := (grantValid g).toNat_lt
  omega

theorem getLsbD_of_toNat {w : Nat} {v : BitVec w} {k : Nat} {b : Bool} (h : v.toNat / 2 ^ k % 2 = b.toNat) :
    v.getLsbD k = b := by
  rw [BitVec.getLsbD, Nat.testBit_eq_decide_div_mod_eq, h]
  cases b <;> rfl

/-- Each clause reads off its part of the sum of `gstat_toNat`. -/
theorem gstat_isGstat (s : State) (tile : Nat) : IsGstat s tile (gstat s tile) := by
  have hslot : gselSlot (tileAt s tile) = (tileAt s tile).gsel.toNat % 4 := by simp [gselSlot]
  have hv := gstat_toNat s tile
  rw [hslot] at hv
  unfold IsGstat
  generalize grantAt s tile ((tileAt s tile).gsel.toNat % 4) = g at hv ⊢
  have hleaving := g.leaving.toNat_lt
  have hidle := (grantIdle s tile (grantCtx g)).toNat_lt
  have hvalid := (grantValid g).toNat_lt
  generalize gstat s tile = v at *
  dsimp only at hv ⊢
  refine ⟨⟨getLsbD_of_toNat ?_, ?_, getLsbD_of_toNat ?_⟩, ?_, ?_, ?_, ?_, ?_⟩
  · show _ = (grantValid g).toNat
    omega
  · rw [← show grantCtx g = g.dw0.extractLsb' 52 11 from rfl, ← grantIdle_iff, ← Bool.eq_iff_iff]
    exact getLsbD_of_toNat (by omega)
  · omega
  · omega
  · omega
  · show _ = residentOn s tile (grantCtx g) % 2 ^ 16
    omega
  · intro n hn
    rw [hn, Option.getD_some] at hv
    omega
  · intro hn
    rw [hn, Option.getD_none] at hv
    show _ = queuedOn s tile (grantCtx g) % 2 ^ 16
    omega

/-! ### RAND, LWRES, CVSTAT and PQPOP -/

theorem csrRead_rand (s : State) (t : Task) :
    csrRead 0x021 t s = .ok (Config.entropy s.draws, { s with draws := s.draws + 1 }) := rfl

theorem csrRead_lwres_tagged {t : Task} (s : State) (h : t.tag.toNat < 16) :
    csrRead 0x02D t s = .ok ((phaseAt (tileAt s (hereTile s)) t.tag.toNat).lwres, s) := by
  have hbit : t.tag.getLsbD 4 = false := Nat.testBit_lt_two_pow h
  show (if t.tag.getLsbD 4 then _ else _ : M Dword) s = _
  rw [hbit]
  rfl

theorem csrRead_lwres_untagged {t : Task} (s : State) (h : 16 ≤ t.tag.toNat) :
    csrRead 0x02D t s = .ok (Config.openValue s.draws, { s with draws := s.draws + 1 }) := by
  have hbit : t.tag.getLsbD 4 = true := by
    have := t.tag.isLt
    exact getLsbD_of_toNat (by rw [Bool.toNat_true]; omega)
  show (if t.tag.getLsbD 4 then _ else _ : M Dword) s = _
  rw [hbit]
  rfl

/-- R268: CVSTAT waits exactly when, ahead of every suspended command of the ring, one of the task is still to complete. -/
theorem cvstatWaits_iff (ring : List Command) (uid : Nat) :
    cvstatWaits ring uid = true ↔
      ∃ l e r, ring = l ++ e :: r ∧ (∀ x ∈ l, x.state ≠ 5) ∧ e.state ≠ 5 ∧ e.uid = uid ∧ cmdDone e = false := by
  unfold cvstatWaits
  induction ring with
  | nil => simp
  | cons c rest ih =>
    rw [List.takeWhile_cons]
    by_cases hc : c.state = 5
    · rw [hc]
      constructor
      · intro h; cases h
      · rintro ⟨l, e, r, heq, hl, he, -⟩
        cases l with
        | nil => cases heq; exact absurd hc he
        | cons y l => cases heq; exact absurd hc (hl _ List.mem_cons_self)
    · rw [if_pos (by simpa using hc), List.any_cons, Bool.or_eq_true, ih]
      constructor
      · rintro (h | ⟨l, e, r, rfl, hl, he⟩)
        · simp only [Bool.and_eq_true, beq_iff_eq, Bool.not_eq_true'] at h
          exact ⟨[], c, rest, rfl, by simp, hc, h.1, h.2⟩
        · exact ⟨c :: l, e, r, rfl, by simpa [hc] using hl, he⟩
      · rintro ⟨l, e, r, heq, hl, he, hu, hd⟩
        cases l with
        | nil => cases heq; left; simp [hu, hd]
        | cons y l =>
          cases heq
          exact Or.inr ⟨l, e, r, rfl, fun x hx => hl x (List.mem_cons_of_mem _ hx), he, hu, hd⟩

theorem csrRead_cvstat (s : State) (t : Task) :
    csrRead 0x077 t s =
      if cvstatWaits (coreAt s (hereCore s)).ring t.uid then .error (.wait .earlier none) else .ok (t.cvstat, s) := by
  show (awaitM (!cvstatWaits (coreAt s (hereCore s)).ring t.uid) .earlier >>= fun _ => pure t.cvstat) s = _
  rw [run_bind, run_awaitM]
  cases cvstatWaits (coreAt s (hereCore s)).ring t.uid <;> rfl

/-- What PQPOP leaves before gd is written: the rest `r` of the tile's block queue, and the core's acquire (R361). -/
def popped (s : State) (r : List Block) : State :=
  acquireCore (modTile s (hereTile s) (fun x => { x with blocks := r })) (hereCore s)

theorem popped_blocks (s : State) (r : List Block) : (tileAt (popped s r) (hereTile s)).blocks = r := by
  rw [popped, acquireCore, modCore, tileAt_putCore, modTile, tileAt_putTile]

theorem csrRead_pqpop {s : State} {t : Task} {b : Block} {r : List Block}
    (hon : (tileAt s (hereTile s)).pqcfg.getLsbD 63 = true) (hctx : (tileAt s (hereTile s)).pqctx = t.ctx)
    (hb : (tileAt s (hereTile s)).blocks = b :: r) :
    csrRead 0x091 t s = .ok (BitVec.ofNat 64 (2 ^ 63 + b.slot % 1024 * 2 ^ 48 + b.off), popped s r) := by
  show popBlockQueue t s = _
  unfold popBlockQueue
  rw [run_bind_ok (run_get s)]
  simp only [hon, hctx, hb, Bool.not_true, bne_self_eq_false, Bool.or_false, Bool.false_eq_true, if_false]
  rfl

theorem csrReadsPart : CsrReadsPart := by
  intro i o s t h hrd hwr hr
  have hreads : ∀ {x s'}, o.n ≠ 0x073 → csrRead o.n t s = .ok (x, s') → taskAt s' s'.here = some t →
      exec i s = .next (retire s' (gSet t o.d x) 4) := fun hn hv ht => exec_csr_read h hr hrd hwr hn hv ht
  have ht : taskAt s s.here = some t := hr.executes.here
  refine ⟨fun v hv => hreads (ne_token_of_csrValue hv) (csrRead_of_csrValue hv) ht, ?rand, ?tagged, ?untagged, ?semstat,
    ?gstat, ?token, ?cvstat, ?waits, ?pqpop⟩
  case rand =>
    intro hn
    exact ⟨_, hreads (by omega) (hn ▸ csrRead_rand s t) ht⟩
  case tagged =>
    intro hn htag
    exact hreads (by omega) (hn ▸ csrRead_lwres_tagged s htag) ht
  case untagged =>
    intro hn htag
    exact ⟨_, hreads (by omega) (hn ▸ csrRead_lwres_untagged s htag) ht⟩
  case semstat =>
    intro hn
    exact ⟨_, semStat_isSemstat _, hreads (by omega) (hn ▸ rfl) ht⟩
  case gstat =>
    intro hn
    exact ⟨_, gstat_isGstat s _, hreads (by omega) (hn ▸ rfl) ht⟩
  case token =>
    intro hn
    exact exec_token_refused h hr hn (by rw [hwr, Bool.and_false])
  case cvstat =>
    intro hn hdone
    have hgoes : ¬cvstatWaits (coreAt s (hereCore s)).ring t.uid = true := by
      rw [cvstatWaits_iff]
      rintro ⟨l, e, r, heq, hl, he, hu, hd⟩
      rw [hdone l e r heq hl he hu] at hd
      cases hd
    exact hreads (by omega) (by rw [hn, csrRead_cvstat, if_neg hgoes]) ht
  case waits =>
    intro l e r hn heq hl he hu hd
    have hwaits := (cvstatWaits_iff _ t.uid).2 ⟨l, e, r, heq, hl, he, hu, hd⟩
    refine exec_csr_waits h hr (by omega) ?_
    rw [hrd]
    exact csrBody_read_error _ _ _ (by rw [hn, csrRead_cvstat, if_pos hwaits])
  case pqpop =>
    intro hn hon hctx b r hb hoff
    have hpop := csrRead_pqpop hon hctx hb
    rw [← hn] at hpop
    refine ⟨_, _, hreads (by omega) hpop ht, taskAt_putTask .., ?_, popped_blocks s r, rfl⟩
    rw [BitVec.toNat_ofNat]
    omega

/-! ### Writes (R5, R14, R15, R335 to R337) -/

/-- Clearing low bits is masking them. -/
theorem clearLow_eq (v : Dword) (n : Nat) : clearLow v n = v &&& ~~~BitVec.ofNat 64 (2 ^ n - 1) := by
  refine BitVec.eq_of_getLsbD_eq fun i hi => ?_
  have hlow : (BitVec.ofNat 64 (2 ^ n - 1)).getLsbD i = decide (i < n) := by
    rw [BitVec.getLsbD_ofNat, Nat.testBit_two_pow_sub_one, decide_eq_true hi, Bool.true_and]
  have hclear : (clearLow v n).getLsbD i = (decide (n ≤ i) && v.getLsbD i) := by
    rw [clearLow, BitVec.getLsbD_ofNat, Nat.mul_comm, Nat.testBit_two_pow_mul, Nat.testBit_div_two_pow, decide_eq_true hi,
      Bool.true_and]
    by_cases hni : n ≤ i
    · rw [Nat.sub_add_cancel hni]; rfl
    · rw [decide_eq_false hni, Bool.false_and, Bool.false_and]
  have hside : decide (n ≤ i) = !decide (i < n) := by rw [← decide_not, decide_eq_decide, Nat.not_lt]
  rw [hclear, BitVec.getLsbD_and, BitVec.getLsbD_not, hlow, decide_eq_true hi, Bool.true_and, hside, Bool.and_comm]

theorem clearLow_one (v : Dword) : clearLow v 1 = v &&& ~~~1#64 := clearLow_eq v 1
theorem clearLow_three (v : Dword) : clearLow v 3 = v &&& ~~~7#64 := clearLow_eq v 3

/-- R15, R30: the values FNSEL takes. -/
theorem fnValid_fnselOf (v : Dword) : fnValid (fnselOf v) = true ↔
    let e := v.toNat / 2 ^ 6 % 4 + 2
    let m := v.toNat / 2 ^ 8 % 8
    m ≤ 5 ∧ 4 ≤ 1 + e + m ∧ 1 + e + m ≤ 8 ∧ (v.getLsbD 16 = true ∨ 1 ≤ m) := by
  have he : ((fnselOf v).extractLsb' 6 2).toNat = v.toNat / 2 ^ 6 % 4 := by
    have : (fnselOf v).extractLsb' 6 2 = v.extractLsb' 6 2 := by
      rw [fnselOf, BitVec.extractLsb'_and, show (0x107FF#17).extractLsb' 6 2 = BitVec.allOnes 2 from rfl,
        BitVec.and_allOnes, BitVec.extractLsb'_setWidth_of_le (by decide)]
    rw [this, BitVec.extractLsb'_toNat, Nat.shiftRight_eq_div_pow]
  have hm : ((fnselOf v).extractLsb' 8 3).toNat = v.toNat / 2 ^ 8 % 8 := by
    have : (fnselOf v).extractLsb' 8 3 = v.extractLsb' 8 3 := by
      rw [fnselOf, BitVec.extractLsb'_and, show (0x107FF#17).extractLsb' 8 3 = BitVec.allOnes 3 from rfl,
        BitVec.and_allOnes, BitVec.extractLsb'_setWidth_of_le (by decide)]
    rw [this, BitVec.extractLsb'_toNat, Nat.shiftRight_eq_div_pow]
  have hf : (fnselOf v).getLsbD 16 = v.getLsbD 16 := by simp [fnselOf]
  simp only [fnValid, fnFmt, fmtWidth, he, hm, hf, Bool.and_eq_true, Bool.or_eq_true, decide_eq_true_eq]
  exact ⟨fun ⟨⟨⟨h4, h8⟩, h5⟩, hmode⟩ => ⟨h5, h4, h8, hmode⟩, fun ⟨h5, h4, h8, hmode⟩ => ⟨⟨⟨h4, h8⟩, h5⟩, hmode⟩⟩

theorem csrWrite_fnsel (s : State) (t : Task) (w x : Dword) :
    csrWrite 0x030 w t x s =
      if fnValid (fnselOf x) then .ok (⟨⟩, modTask s s.here (fun u => { u with fnsel := fnselOf x }))
      else .error (.trap causeIllegal w) := by
  show (guardM (fnValid (fnselOf x)) causeIllegal w >>= fun _ => modThis (fun u => { u with fnsel := fnselOf x })) s = _
  rw [run_guardM_bind]
  rfl

theorem csrWritten_fnsel (s : State) (t : Task) (x : Dword) :
    csrWritten s t 0x030 x = if fnValid (fnselOf x) then some { t with fnsel := fnselOf x } else none := by
  simp only [csrWritten, BitVec.ofNat_toNat, ← fnValid_fnselOf]
  rfl

theorem csrWrite_phslot (s : State) (t : Task) (w x : Dword) :
    csrWrite 0x025 w t x s =
      if x.getLsbD 4 then .ok (⟨⟩, modTask s s.here (fun u => { u with tag := 16 }))
      else if granted s (hereTile s) t.ctx grantLines (x.toNat % 16) then
        .ok (⟨⟩, modTask s s.here (fun u => { u with tag := BitVec.ofNat 5 (x.toNat % 16) }))
      else .error (.trap causeProt x) := by
  have hline : (x.extractLsb' 0 4).toNat = x.toNat % 16 := by simp
  have htag : (x.extractLsb' 0 4).setWidth 5 = BitVec.ofNat 5 (x.toNat % 16) := by
    rw [← BitVec.ofNat_toNat, hline]
  show (if x.getLsbD 4 then _ else _ : M Unit) s = _
  split
  · rfl
  · rw [hline, htag, run_guardM_bind]
    rfl

theorem csrWrite_cvstat {s : State} {t : Task} (w x : Dword) (ht : hereTask s = some t) :
    ∃ s', csrWrite 0x077 w t x s = .ok (⟨⟩, s') ∧ Becomes s s' (if x.getLsbD 63 then { t with cvstat := 0 } else t) := by
  have hw : csrWrite 0x077 w t x s =
      (if x.getLsbD 63 then modThis (fun u => { u with cvstat := 0 }) else pure ⟨⟩ : M Unit) s := rfl
  by_cases hx : x.getLsbD 63 = true
  · rw [hw, if_pos hx, if_pos hx]
    exact ⟨_, rfl, (Becomes.refl ht).modTask _⟩
  · rw [hw, if_neg hx, if_neg hx]
    exact ⟨s, rfl, .refl ht⟩

theorem ne_token_of_csrWritten {s : State} {t v : Task} {n : Nat} {x : Dword} (h : csrWritten s t n x = some v) :
    n ≠ 0x073 := by
  rintro rfl
  cases h

/-- A write that is not refused. Named are PHSLOT, FNSEL and the numbers of no such register, then the registers that take a
value; the other registers are read-only, and ignore it. -/
theorem csrWrite_of_csrWritten {s : State} {t v : Task} {n : Nat} {x : Dword} (w : Dword) (ht : hereTask s = some t)
    (h : csrWritten s t n x = some v) : ∃ s', csrWrite n w t x s = .ok (⟨⟩, s') ∧ Becomes s s' v := by
  simp only [csrWritten, BitVec.ofNat_toNat, clearLow_one, clearLow_three] at h
  split at h
  case h_21 =>
    rw [csrWrite_phslot]
    split at h
    · next h16 =>
      cases h
      exact ⟨_, if_pos h16, (Becomes.refl ht).modTask _⟩
    · next h16 =>
      split at h
      · next hg =>
        cases h
        exact ⟨_, by rw [if_neg h16, if_pos hg], (Becomes.refl ht).modTask _⟩
      · cases h
  case h_27 =>
    rw [csrWrite_fnsel]
    split at h
    · next hf =>
      cases h
      exact ⟨_, if_pos ((fnValid_fnselOf x).2 hf), (Becomes.refl ht).modTask _⟩
    · cases h
  case h_40 => cases h
  case h_4 | h_5 | h_8 | h_9 | h_10 | h_12 | h_13 | h_14 | h_15 | h_18 | h_29 =>
    cases h
    exact ⟨_, rfl, (Becomes.refl ht).modTask _⟩
  all_goals
    cases h
    exact ⟨s, rfl, .refl ht⟩

theorem csrWrite_fnsel_refused {s : State} {t : Task} {x : Dword} (w : Dword) (h : csrWritten s t 0x030 x = none) :
    csrWrite 0x030 w t x s = .error (.trap causeIllegal w) := by
  rw [csrWritten_fnsel] at h
  rw [csrWrite_fnsel]
  split at h
  · cases h
  · next hf => rw [if_neg hf]

theorem csrWrite_phslot_refused {s : State} {t : Task} {x : Dword} (w : Dword) (h : csrWritten s t 0x025 x = none) :
    csrWrite 0x025 w t x s = .error (.trap causeProt x) := by
  simp only [csrWritten] at h
  rw [csrWrite_phslot]
  split at h
  · cases h
  · next h16 =>
    split at h
    · cases h
    · next hg => rw [if_neg h16, if_neg hg]

theorem csrWritesPart : CsrWritesPart := by
  intro i o s t h hwr hr
  have hwrites : ∀ {s' v}, o.n ≠ 0x073 → csrWrite o.n (wordOf o.core) t (gGet t o.a) s = .ok (⟨⟩, s') → Becomes s s' v →
      o.rd = false → exec i s = .next (retire s v 4) := fun hn hw hv hrd => exec_csr_write h hr hrd hwr hn hw hv
  have htraps : ∀ {k x y}, csrValue s t o.n = some y →
      csrWrite o.n (wordOf o.core) t (gGet t o.a) s = .error (.trap k x) → exec i s = .next (takeTrap k x s) := by
    intro k x y hy hw
    refine exec_csr_traps h hr (ne_token_of_csrValue hy) ?_
    rw [hwr]
    exact csrBody_write_error _ (csrRead_of_csrValue hy) hw
  refine ⟨fun v hv => ?_, ?token, ?cvstat, ?fnsel, ?phslot⟩
  · have hn := ne_token_of_csrWritten hv
    obtain ⟨s', hw, hbecomes⟩ := csrWrite_of_csrWritten (wordOf o.core) hr.executes.here hv
    exact ⟨hwrites hn hw hbecomes,
      fun hrd x hx => exec_csr_exchange h hr hrd hwr hn (csrRead_of_csrValue hx) hw hbecomes⟩
  case token =>
    intro hn hrd
    exact exec_token_refused h hr hn (by rw [hrd, Bool.false_and])
  case cvstat =>
    intro hn hrd
    obtain ⟨s', hw, hbecomes⟩ := csrWrite_cvstat (wordOf o.core) (gGet t o.a) hr.executes.here
    exact hwrites (by omega) (hn ▸ hw) hbecomes hrd
  case fnsel =>
    intro hn hnone
    exact htraps (congrArg (csrValue s t) hn) (hn ▸ csrWrite_fnsel_refused _ hnone)
  case phslot =>
    intro hn hnone
    exact htraps (congrArg (csrValue s t) hn) (hn ▸ csrWrite_phslot_refused _ hnone)

/-- Settles O36: every access runs the model's read and write of its register, which are the values of the rules. -/
theorem controlRegisters : Obligations.ControlRegisters := ⟨csrReadsPart, csrWritesPart⟩

end Sys2Proof.Proofs
end
